-- ==== Sys2Proof/Word.lean ====
section
/-! DEFINITION. The words of the part: a byte of the rack link or the shelf bus, and a value of the
Rack Time Counter. Everything else the manual counts in watts, kilojoules, seconds or entries is a
natural number (spec/00_scope.md, section 7). -/

namespace Sys2Proof

/-- One byte of a rack link frame (R187) or of a shelf bus frame (R25). -/
abbrev Byte := BitVec 8

/-- A value of the 32-bit Rack Time Counter (R17): milliseconds, wrapping to 0. -/
abbrev Time := BitVec 32

/-- A 32-bit event counter that wraps to 0 (R28, R188). -/
abbrev Count32 := BitVec 32

end Sys2Proof
end

