-- ==== Sys2Proof/Syntax.lean ====
section
/-! DEFINITION. The commands of the part: one constructor for each row of spec/opcode_table.json.

A row is either a request of the rack manager (its execution, with the tag and the payload of the
frame executed), an event on a line or a bus (with what the line or the bus carried), the end of a
store write or of a transmission, or the moment at which a deadline the part holds is reached. -/

namespace Sys2Proof

/-- The timestamps that R18 pins. -/
inductive PinTarget where
  | offSince (slot : Fin 48)
  | grantTime (slot : Fin 48)
  | queueTime (slot : Fin 48)
  | history (entry : Fin 4)
  | psuReport (psu : Fin 18)
  | buReport (bu : Fin 12)
  | alarmTime (zone : Fin 8)
  | headSince
  deriving DecidableEq, Repr

/-- The commands, in the order of spec/opcode_table.json. -/
inductive Instr where
  /-- POWER_ON (R22). -/
  | powerOn
  /-- STORE_LOAD_COMPLETE (R22). -/
  | storeLoadComplete
  /-- RESTART_N: the pin has been held low for 1 ms (R196). -/
  | restartN
  /-- RESTART_N_RELEASE (R196). -/
  | restartNRelease
  /-- ADOPTION at the second slot input sample: bit n of `good` is the GOOD level of slot n (R83). -/
  | adoption (good : BitVec 48)
  /-- TIMESTAMP_PIN (R18). -/
  | timestampPin (target : PinTarget)
  /-- STRAY_BYTE: a byte other than 0xB6 arrives in HUNTING (R188). -/
  | strayByte (byte : Byte)
  /-- FRAME_END: the bytes of a frame after its sync byte, to the byte that ends it (R188). -/
  | frameEnd (bytes : List Byte)
  /-- FRAME_TIMEOUT (R188). -/
  | frameTimeout
  /-- REPLY_SENT (R189). -/
  | replySent
  /-- NOTIFICATION_SENT (R183). -/
  | notificationSent
  /-- UNKNOWN_KIND: execution of a frame whose kind is no request kind (R190). -/
  | unknownKind (kind tag : Byte) (payload : List Byte)
  /-- IDENTIFY (R195). -/
  | identify (tag : Byte) (payload : List Byte)
  /-- READ_RACK (R194). -/
  | readRack (tag : Byte) (payload : List Byte)
  /-- READ_SLOT (R81). -/
  | readSlot (tag : Byte) (payload : List Byte)
  /-- READ_MODULE (R194). -/
  | readModule (tag : Byte) (payload : List Byte)
  /-- READ_BATTERY (R194). -/
  | readBattery (tag : Byte) (payload : List Byte)
  /-- READ_ZONE (R173). -/
  | readZone (tag : Byte) (payload : List Byte)
  /-- READ_FAULTS (R178). -/
  | readFaults (tag : Byte) (payload : List Byte)
  /-- CLEAR_FAULT (R177). -/
  | clearFault (tag : Byte) (payload : List Byte)
  /-- SLOT_ON (R87). -/
  | slotOn (tag : Byte) (payload : List Byte)
  /-- SLOT_OFF (R77). -/
  | slotOff (tag : Byte) (payload : List Byte)
  /-- SLOT_CUT (R78). -/
  | slotCut (tag : Byte) (payload : List Byte)
  /-- SLOT_CLEAR (R79). -/
  | slotClear (tag : Byte) (payload : List Byte)
  /-- RACK_START (R88). -/
  | rackStart (tag : Byte) (payload : List Byte)
  /-- RACK_STOP (R90). -/
  | rackStop (tag : Byte) (payload : List Byte)
  /-- STAGE_PLAN (R12). -/
  | stagePlan (tag : Byte) (payload : List Byte)
  /-- COMMIT_PLAN (R13). -/
  | commitPlan (tag : Byte) (payload : List Byte)
  /-- DISCARD_PLAN (R14). -/
  | discardPlan (tag : Byte) (payload : List Byte)
  /-- SET_PROFILE (R10). -/
  | setProfile (tag : Byte) (payload : List Byte)
  /-- SET_PARAM (R15). -/
  | setParam (tag : Byte) (payload : List Byte)
  /-- SET_LEAK_ACTION (R168). -/
  | setLeakAction (tag : Byte) (payload : List Byte)
  /-- LEAK_CLEAR (R171). -/
  | leakClear (tag : Byte) (payload : List Byte)
  /-- CHECK_NOW (R156). -/
  | checkNow (tag : Byte) (payload : List Byte)
  /-- SET_MASK (R185). -/
  | setMask (tag : Byte) (payload : List Byte)
  /-- COMMISSION_WRITE (R3). -/
  | commissionWrite (tag : Byte) (payload : List Byte)
  /-- COMMISSION_LOCK (R7). -/
  | commissionLock (tag : Byte) (payload : List Byte)
  /-- DECOMMISSION (R8). -/
  | decommission (tag : Byte) (payload : List Byte)
  /-- SAVE_CONFIG (R20). -/
  | saveConfig (tag : Byte) (payload : List Byte)
  /-- RELEASE_HOLD (R180). -/
  | releaseHold (tag : Byte) (payload : List Byte)
  /-- RESTART (R196). -/
  | restart (tag : Byte) (payload : List Byte)
  /-- CONFIG_WRITE_END: whether the image was written and verified (R20). -/
  | configWriteEnd (verified : Bool)
  /-- BATTERY_WRITE_END: whether the write succeeded (R21). -/
  | batteryWriteEnd (written : Bool)
  /-- POLL_CYCLE_BEGIN (R30). -/
  | pollCycleBegin
  /-- PSU_STATUS: the bytes of the shelf bus frame received (R27, R28). -/
  | psuStatus (frame : List Byte)
  /-- BU_STATUS: the bytes of the shelf bus frame received (R27, R28). -/
  | buStatus (frame : List Byte)
  /-- BAD_FRAME: the bytes received on the shelf bus (R28). -/
  | badFrame (frame : List Byte)
  /-- RESPONSE_WINDOW_EXPIRY (R29). -/
  | responseWindowExpiry
  /-- GOOD_RISING at a slot, on two successive samples of the input (R64, R67, R69). -/
  | goodRising (slot : Fin 48) (earlier later : Bool)
  /-- GOOD_FALLING at a slot, on two successive samples of the input (R64, R68, R72). -/
  | goodFalling (slot : Fin 48) (earlier later : Bool)
  /-- PARKED_RISING at a slot, on two successive samples of the input (R64, R72). -/
  | parkedRising (slot : Fin 48) (earlier later : Bool)
  /-- PARKED_FALLING at a slot, on two successive samples of the input (R64). -/
  | parkedFalling (slot : Fin 48) (earlier later : Bool)
  /-- GOOD_DEADLINE (R67). -/
  | goodDeadline (slot : Fin 48)
  /-- DRAIN_DEADLINE (R72). -/
  | drainDeadline (slot : Fin 48)
  /-- GATE_TIMER (R103). -/
  | gateTimer
  /-- START_STALLED (R104). -/
  | startStalled
  /-- QUALIFY_TIMER (R113). -/
  | qualifyTimer
  /-- CONTROL_PERIOD (R143). -/
  | controlPeriod
  /-- FRAME_BOUNDARY (R144). -/
  | frameBoundary
  /-- CHECK_DUE (R149). -/
  | checkDue (bu : Fin 12)
  /-- SAMPLE_DEADLINE (R153). -/
  | sampleDeadline (bu : Fin 12)
  /-- LEAK_SAMPLE: the level read on each of the sixteen channels (R159). -/
  | leakSample (levels : Vector (BitVec 10) 16)
  /-- GRACE_EXPIRY (R165). -/
  | graceExpiry (zone : Fin 8)
  /-- FRAME_BEGIN: a byte of 0xB6 arrives in HUNTING (R188). -/
  | frameBegin
  deriving DecidableEq, Repr

end Sys2Proof
end

