-- ==== Sys2Proof/Config.lean ====
section
/-! DEFINITION. What the part fixes once and for all, and the free values: constants without a body
for what the manual leaves open. -/

namespace Sys2Proof.Config

/-- Frames the receive queue holds (R189). -/
def rxQueueMax : Nat := 4

/-- Records the Notification Queue holds (R182). -/
def notifQueueMax : Nat := 32

/-- The limit of a class's lost count (R183). -/
def lostMax : Nat := 65535

/-- The limit of the 8-bit saturating counts (R106, R148, R151, R175). -/
def count8Max : Nat := 255

/-- Entries the Start History holds (R93). -/
def historyMax : Nat := 4

/-- The response window of a shelf bus transaction, in ms (R29). -/
def responseWindow : Nat := 5

/-- The pace of the poll cycle, in ms (R30). -/
def pollPeriod : Nat := 100

/-- Commands the arbiter sends in a row while a poll is due (R33). -/
def commandsPerPoll : Nat := 4

/-- The age at which a last-happened timestamp is pinned (R18). -/
def pinAge : Nat := 2 ^ 30

/-- The pace of the leak samples, in ms (R159). -/
def leakPeriod : Nat := 100

/-- The samples of the confirm window (R161), and the dry run LEAK_CLEAR asks for (R170). -/
def confirmSamples : Nat := 10

/-- The pace of the slot input samples, in ms (R64), and so the time from a warm restart to the adoption
(R83). -/
def slotSamplePeriod : Nat := 10

/-- The cap of the hold-up load, in W (R128). -/
def loadCap : Nat := 250000

/-- The top of a hold-up time or energy figure, in s (R100, R128). -/
def timeTop : Nat := 65535

/-- A recharge control period, in ms (R144). -/
def controlPeriod : Nat := 1000

/-- Control periods of a recharge frame (R144). -/
def framePeriods : Nat := 16

/-- The saturation of the offered and accepted counters, in kJ (R145). -/
def energyTop : Nat := 16777215

/-- The least offered energy of a health sample, in kJ (R147). -/
def sampleFloor : Nat := 100

/-- The six hours of a postponement, in s (R151). -/
def postponeSeconds : Nat := 21600

/-- The six hours of a pending sample, in ms (R148). -/
def samplePendingMs : Nat := 21600000

/-- The rounds in which one step's hand-ons settle. It bounds the recursion and nothing else: what
is left after the last round is taken up by the next step (log entry 4). -/
def settleRounds : Nat := 64

/-! ### Free values

Each stands for a value the manual does not give. None has a body, so no proof can see one. -/

/-- Whether the image of a store write that failed or was cut short by a loss of power carries the
marker (R19 says only that the other image stays intact). Log entry 9. DESIGN CHOICE. -/
opaque residueMarked : Nat → Bool

/-- The save count such an image is left with. Log entry 9. DESIGN CHOICE. -/
opaque residueCount : Nat → Count32

/-- The level that CHANNEL_STATE carries when LEAK_CLEAR and not a sample moved the channel (R160
gives the level of the sample that moved it). Log entry 10. DESIGN CHOICE. -/
opaque clearedLevel : Nat → BitVec 10

/-- The flag byte by which COMMIT_PLAN's reply says committed (R13 names the flag, not its value).
Log entry 11. DESIGN CHOICE. -/
opaque committedFlag : Byte

/-- The flag byte by which COMMIT_PLAN's reply says armed (R13). Log entry 11. DESIGN CHOICE. -/
opaque armedFlag : Byte

/-- The flag byte by which RELEASE_HOLD's reply says not held (R180). Log entry 11. DESIGN CHOICE. -/
opaque notHeldFlag : Byte

/-- The flag byte by which RELEASE_HOLD's reply says released (R180). Log entry 11. DESIGN CHOICE. -/
opaque releasedFlag : Byte

/-- The subject of PLAN_COMMITTED (R14 and R182 name the notification and give it no subject). Log
entry 11. DESIGN CHOICE. -/
opaque planCommittedSubject : BitVec 16

/-- The value of PLAN_COMMITTED. Log entry 11. DESIGN CHOICE. -/
opaque planCommittedValue : BitVec 32

/-- The byte that stands for the group ALL of a Start History entry in READ_RACK (R93). Log entry
11. DESIGN CHOICE. -/
opaque historyAllCode : Byte

/-- The byte for the lock state, from whether the part is COMMISSIONED (R194). Log entry 11. DESIGN
CHOICE. -/
opaque lockStateCode : Bool → Byte

/-- The byte for commanded isolation, from whether it is isolate (R41). Log entry 11. DESIGN CHOICE. -/
opaque isolationCode : Bool → Byte

/-- The byte for the charge counter baseline, from whether it is valid (R41). Log entry 11. DESIGN
CHOICE. -/
opaque baselineCode : Bool → Byte

/-- The byte by which READ_MODULE says whether its position is present or a discovery record, from
whether it is present (R194). Log entry 11. DESIGN CHOICE. -/
opaque positionKindCode : Bool → Byte

end Sys2Proof.Config
end

