-- ==== Sys2Proof/Machine/State.lean ====
section
/-! DEFINITION. The state of the part: every block of the block diagram (spec/00_scope.md, section 2)
as plain data, the value of each piece after power-on, and State.reset. Numeric codes and everything
that computes stand in the operation files. -/

namespace Sys2Proof.Machine

/-! ### Small parts -/

/-- A deadline: its setting time together with its length in ms (R17). -/
structure Deadline where
  set : Time
  len : Nat
  deriving DecidableEq, Repr

/-- A frame of the rack link without sync, length and CRC (R187). -/
structure LinkFrame where
  kind : Byte
  tag : Byte
  payload : List Byte
  deriving DecidableEq, Repr

/-! ### Working configuration (R1, R2, R9, R12, R15) -/

/-- The RACK section (R2). -/
structure RackSec where
  shelfCount : Nat
  k : Nat
  slotCount : Nat
  deriving DecidableEq, Repr

/-- A bay set as carried: the count byte and the bay bytes it gives, at most the bytes there are
(R193). -/
structure BaySet where
  count : Nat
  bays : List Nat
  deriving DecidableEq, Repr

/-- A SHELF section (R2). Zone 255 is none. -/
structure ShelfSec where
  psuBays : BaySet
  buBays : BaySet
  zone : Nat
  deriving DecidableEq, Repr

/-- A PSU section (R2), in W. -/
structure PsuSec where
  rated : Nat
  deriving DecidableEq, Repr

/-- A BU section (R2): kJ, kJ, W, W and percent. -/
structure BuSec where
  rated : Nat
  reserve : Nat
  maxDischarge : Nat
  maxRecharge : Nat
  depth : Nat
  deriving DecidableEq, Repr

/-- A SLOT section (R2). Zone 255 is none. -/
structure SlotSec where
  profile : Nat
  group : Nat
  zone : Nat
  deriving DecidableEq, Repr

/-- A CHANNEL section (R2). Zone 255 is unused. -/
structure ChanSec where
  zone : Nat
  wet : Nat
  opn : Nat
  deriving DecidableEq, Repr

/-- The commissioning record (R2). -/
structure CommRecord where
  rack : RackSec
  shelves : Vector ShelfSec 3
  psus : Vector PsuSec 18
  bus : Vector BuSec 12
  slots : Vector SlotSec 48
  channels : Vector ChanSec 16
  deriving DecidableEq, Repr

/-- A profile (R9): W, W, W, ms, ms. -/
structure Profile where
  startW : Nat
  peakW : Nat
  nominalW : Nat
  goodDeadline : Nat
  drainMs : Nat
  deriving DecidableEq, Repr

/-- One slot's entry of a plan copy (R12). -/
structure PlanEntry where
  rank : Nat
  order : Nat
  deriving DecidableEq, Repr

/-- A leak action (R162). -/
inductive LeakAction where
  | notifyOnly
  | isolateAfterGrace
  | isolateNow
  deriving DecidableEq, Repr

/-- An entry of the leak action table (R1): action, grace in s, shelf isolate. -/
structure LeakEntry where
  action : LeakAction
  grace : Nat
  shelfIsolate : Bool
  deriving DecidableEq, Repr

/-- The working configuration (R1). `locked` is COMMISSIONED. -/
structure WorkCfg where
  record : CommRecord
  locked : Bool
  profiles : Vector Profile 8
  staged : Vector PlanEntry 48
  active : Vector PlanEntry 48
  armed : Bool
  params : Vector Nat 16
  leakTable : Vector LeakEntry 8
  deriving DecidableEq, Repr

/-- What the last validation marked enabled (R6), and its five counts (R5). All false and 0 while the
part is UNCOMMISSIONED. -/
structure Marks where
  /-- shelf below the shelf count and not disabled -/
  shelfOn : Vector Bool 3
  /-- slot below the slot count and not disabled by commissioning -/
  slotOn : Vector Bool 48
  /-- channel with a zone and not disabled -/
  channelUsed : Vector Bool 16
  disabledSlots : Nat
  disabledPsus : Nat
  disabledBus : Nat
  disabledChannels : Nat
  waitingSlots : Nat
  deriving DecidableEq, Repr

/-! ### Configuration Store (R19 to R23) -/

/-- The content of a config image (R20). -/
structure ConfigImage where
  record : CommRecord
  locked : Bool
  profiles : Vector Profile 8
  active : Vector PlanEntry 48
  params : Vector Nat 16
  leakTable : Vector LeakEntry 8
  deriving DecidableEq, Repr

/-- One entry of the battery area (R21). -/
structure BatteryEntry where
  h : Nat
  stale : Bool
  postponed : Nat
  due : Nat
  lockPresent : Bool
  deriving DecidableEq, Repr

/-- A config area image: marker, save count, content and CRC-16 (R19). -/
structure ConfigSlot where
  marked : Bool
  count : Count32
  content : ConfigImage
  crc : BitVec 16
  deriving DecidableEq, Repr

/-- A battery area image (R19, R21). -/
structure BatterySlot where
  marked : Bool
  count : Count32
  content : Vector BatteryEntry 12
  crc : BitVec 16
  deriving DecidableEq, Repr

/-- The store write in progress, with its values at the start of the write (R20, R21). -/
inductive StoreWrite where
  | config (content : ConfigImage)
  | battery (content : Vector BatteryEntry 12)
  deriving DecidableEq, Repr

/-- The Configuration Store (R19 to R21). -/
structure Store where
  configFirst : ConfigSlot
  configSecond : ConfigSlot
  batteryFirst : BatterySlot
  batterySecond : BatterySlot
  writing : Option StoreWrite
  /-- a SAVE_CONFIG is in progress, writing or waiting behind a battery write -/
  saving : Bool
  /-- the tag its reply is owed to; none after a warm restart -/
  saveTag : Option Byte
  /-- a battery write is pending -/
  batteryWaiting : Bool
  deriving DecidableEq, Repr

/-! ### Rack Link Port (R187 to R191) -/

/-- The receiver's state (R188). -/
inductive RxState where
  | hunting
  | inFrame
  deriving DecidableEq, Repr

/-- The transmit line, with the bytes of the frame being sent (R191). -/
inductive TxLine where
  | idle
  | reply (bytes : List Byte)
  | notification (bytes : List Byte)
  deriving DecidableEq, Repr

/-- The Rack Link Port (R188, R189, R191). -/
structure Link where
  rxState : RxState
  rx : List LinkFrame
  holder : Option LinkFrame
  line : TxLine
  /-- a RESTART has been executed and its reply is not yet sent (R196) -/
  restartOwed : Bool
  stray : Count32
  lengthErrors : Count32
  gaps : Count32
  crcErrors : Count32
  good : Count32
  overruns : Count32
  deriving DecidableEq, Repr

/-! ### Shelf Bus Controller (R28 to R35) -/

/-- A module position (R24). -/
inductive Pos where
  | psu (i : Fin 18)
  | bu (i : Fin 12)
  deriving DecidableEq, Repr

/-- The shelf commands with their payloads (R26). -/
inductive ShelfCmd where
  | outputOn
  | outputOff
  | setRecharge (units : Nat)
  | startCheck (depth power : Nat)
  | stopCheck
  | isolate
  | restore
  deriving DecidableEq, Repr

/-- An entry of the Shelf Command Queue (R34). -/
structure CmdEntry where
  pos : Pos
  cmd : ShelfCmd
  queued : Time
  deriving DecidableEq, Repr

/-- The transaction in flight (R29): `cmd` is none for a POLL, `replaced` says that the entry the
command came from has been replaced since the send (R35), `sent` is the request frame (R25). -/
structure Transaction where
  pos : Pos
  cmd : Option ShelfCmd
  replaced : Bool
  began : Time
  sent : List Byte
  deriving DecidableEq, Repr

/-- The poll cycle in progress and the positions still due in it (R30). -/
structure PollCycle where
  began : Time
  due : List Pos
  deriving DecidableEq, Repr

/-- The Shelf Bus Controller. -/
structure Bus where
  transactions : Count32
  unanswered : Count32
  badFrames : Count32
  overrunCycles : Count32
  inFlight : Option Transaction
  /-- the beginning of a transaction that a warm restart abandoned (R29) -/
  abandoned : Option Time
  entries : List CmdEntry
  sincePoll : Nat
  /-- the polled set as the latest poll cycle read it at its start (R24) -/
  polledSet : List Pos
  cycle : Option PollCycle
  /-- when the latest cycle since the reset began -/
  lastBegan : Option Time
  /-- the latest cycle ended after its successor's 100 ms mark -/
  lateEnd : Bool
  deriving DecidableEq, Repr

/-! ### Module Table and Battery Table (R38, R41) -/

/-- The states of a PSU record (R38). -/
inductive PsuState where
  | absent
  | online
  | inputFault
  | outputOff
  | failed
  | lost
  deriving DecidableEq, Repr

/-- An input status (R27). -/
inductive InputStatus where
  | ok
  | low
  | absent
  deriving DecidableEq, Repr

/-- A PSU record (R38). -/
structure PsuRec where
  present : Bool
  state : PsuState
  capability : Nat
  output : Nat
  input : InputStatus
  miss : Nat
  lastReport : Time
  reportPending : Bool
  commandedOn : Bool
  deriving DecidableEq, Repr

/-- The states of a BU record (R41). -/
inductive BuState where
  | idle
  | charging
  | full
  | discharging
  | checking
  | isolated
  | failed
  | lost
  | absent
  deriving DecidableEq, Repr

/-- The phases of a capacity check (R148). -/
inductive CheckPhase where
  | none
  | requested
  | running
  | samplePending
  deriving DecidableEq, Repr

/-- A BU record (R41), with the schedule and phase fields of the Check Scheduler (R148). `dueMs` is
how many ms of the due count's present second have passed (log entry 3). -/
structure BuRec where
  present : Bool
  state : BuState
  energy : Nat
  discharge : Nat
  delivered : Nat
  lastCounter : Nat
  baseline : Bool
  miss : Nat
  lastReport : Time
  reportPending : Bool
  commandedIsolate : Bool
  leakIsolated : Bool
  h : Nat
  stale : Bool
  postponed : Nat
  due : Nat
  dueMs : Nat
  lockPresent : Bool
  offered : Nat
  offeredRem : Nat
  accepted : Nat
  setpoint : Nat
  phase : CheckPhase
  sampleDeadline : Option Deadline
  strayCounted : Bool
  aborts : Nat
  deriving DecidableEq, Repr

/-! ### Capacity Account (R45) -/

/-- The redundancy states (R49). -/
inductive Redundancy where
  | full
  | reduced
  | exposed
  deriving DecidableEq, Repr

/-- The Capacity Account (R45). -/
structure Account where
  takenUp : Bool
  nOn : Nat
  g : Nat
  q : Nat
  a : Nat
  adm : Nat
  redundancy : Redundancy
  s : Nat
  rc : Nat
  shortfall : Bool
  recorded : Nat
  relief : Nat
  deriving DecidableEq, Repr

/-! ### Slot Table (R62, R63) -/

/-- The slot states (R63). -/
inductive SlotState where
  | disabled
  | off
  | queued
  | starting
  | on
  | draining
  | shed
  | isolated
  | faulted
  deriving DecidableEq, Repr

/-- The drain targets, in rising rank (R73). -/
inductive DrainTarget where
  | shed
  | off
  | isolated
  deriving DecidableEq, Repr

/-- The causes of a change of slot state (R65). -/
inductive Cause where
  | queued
  | grant
  | goodRising
  | goodDeadline
  | offRequest
  | shedRequest
  | rackDrain
  | leakDrain
  | parked
  | drainDeadline
  | goodFalling
  | slotCut
  | leakMove
  | slotClear
  | zoneCleared
  | configuration
  deriving DecidableEq, Repr

/-- The slot faults (R62). -/
inductive SlotFault where
  | startFailed
  | goodLost
  | goodUnexpected
  deriving DecidableEq, Repr

/-- A drain in progress: target and deadline (R62, R70). -/
structure Drain where
  target : DrainTarget
  deadline : Deadline
  deriving DecidableEq, Repr

/-- A slot record (R62), with the slot line latches PERMIT and WARN (R63). -/
structure SlotRec where
  state : SlotState
  offSince : Time
  grantTime : Option Time
  queueTime : Option Time
  drain : Option Drain
  goodDeadline : Option Deadline
  lastFault : Option SlotFault
  cause : Cause
  good : Bool
  parked : Bool
  permit : Bool
  warn : Bool
  deriving DecidableEq, Repr

/-- The sampling of the slot inputs (R64): the instant of the latest sample and, for each input, how
many samples have been taken since the latest one known to agree with its taken level, up to two. Only
when there are two such samples can both disagree with the taken level. -/
structure Inputs where
  sampled : Time
  good : Vector Nat 48
  parked : Vector Nat 48
  deriving DecidableEq, Repr

/-! ### Start Queue (R85, R86, R93, R103) -/

/-- The head of the queue with the fields kept for it (R86). -/
structure QueueHead where
  slot : Fin 48
  since : Time
  stallSent : Bool
  deriving DecidableEq, Repr

/-- A Start History entry; group none is ALL (R93). -/
structure HistEntry where
  time : Time
  group : Option Nat
  deriving DecidableEq, Repr

/-- The Start Queue, the gate timer and the Start History. -/
structure StartQueue where
  entries : List (Fin 48)
  head : Option QueueHead
  /-- the head's first failing gate, 0 for none (R101, R105) -/
  gate : Nat
  detail : Nat
  timer : Option Deadline
  history : List HistEntry
  deriving DecidableEq, Repr

/-! ### Ride-Through Controller and Hold-Up Calculator (R106, R123) -/

/-- The grid states (R106). -/
inductive GridState where
  | startup
  | normal
  | rideThrough
  | qualify
  | drain
  | dark
  deriving DecidableEq, Repr

/-- The Ride-Through Controller (R106). -/
structure Grid where
  state : GridState
  level : Nat
  inEvent : Bool
  eventStart : Option Time
  bounces : Nat
  drainFlag : Bool
  qualify : Option Deadline
  events : Nat
  powered : Nat
  deriving DecidableEq, Repr

/-- What the latest evaluation formed for one BU (R138). -/
structure BuFigure where
  usable : Bool
  hEff : Nat
  u : Nat
  deriving DecidableEq, Repr

/-- The Hold-Up Calculator (R123). -/
structure HoldUp where
  evaluated : Bool
  lastTime : Option Time
  usableCount : Nat
  u : Nat
  d : Nat
  p : Nat
  mOut : Nat
  mDis : Nat
  removal : Bool
  m : Nat
  l : Nat
  t : Nat
  x1 : Nat
  x2 : Nat
  x3 : Nat
  t1 : Nat
  t2 : Nat
  t3 : Nat
  required : Nat
  drainHolds : Bool
  shortLogged : Bool
  perBu : Vector BuFigure 12
  deriving DecidableEq, Repr

/-! ### Recharge Allocator and Check Scheduler (R139, R148) -/

/-- A recharge frame: its start time and control period (R139). -/
structure RechargeFrame where
  start : Time
  period : Nat
  deriving DecidableEq, Repr

/-- A member's share, q, f and ceiling (R142). -/
structure Member where
  share : Nat
  q : Nat
  f : Nat
  ceiling : Nat
  deriving DecidableEq, Repr

/-- The Recharge Allocator (R139). Rc stands in the Account and the setpoints in the BU records. -/
structure Recharge where
  pool : Nat
  candidate : Nat
  frame : Option RechargeFrame
  members : Vector (Option Member) 12
  /-- the BUs may still hold setpoints from before a warm restart (R139) -/
  carried : Bool
  deriving DecidableEq, Repr

/-- The active check (R148). -/
structure ActiveCheck where
  bu : Fin 12
  depth : Nat
  power : Nat
  requested : Time
  deriving DecidableEq, Repr

/-! ### Leak Monitor (R158, R161, R162) -/

/-- The channel states (R158). -/
inductive ChanState where
  | dry
  | suspect
  | wet
  | opn
  deriving DecidableEq, Repr

/-- A channel record (R158). Zone and thresholds are read from the working configuration. -/
structure Channel where
  state : ChanState
  wetCount : Nat
  openCount : Nat
  dryCount : Nat
  dryRun : Nat
  level : Option Nat
  deriving DecidableEq, Repr

/-- The zone states (R162). -/
inductive ZoneState where
  | clear
  | watch
  | alarm
  | isolated
  deriving DecidableEq, Repr

/-- A zone record (R162). -/
structure Zone where
  state : ZoneState
  alarmTime : Option Time
  grace : Option Deadline
  shelves : Vector Bool 3
  deriving DecidableEq, Repr

/-- The Leak Monitor. `samples` counts the samples since power-on or the latest lock, up to the tenth
(R161), and `nextSample` is the instant at which the next one is due, none until the store is loaded
(R159). -/
structure Leak where
  channels : Vector Channel 16
  zones : Vector Zone 8
  firstWindow : Bool
  samples : Nat
  nextSample : Option Time
  deriving DecidableEq, Repr

/-! ### Fault Banks and Notification Queue (R175, R176, R182, R183) -/

/-- The faults of R174. -/
inductive FaultKind where
  | frameTimeout
  | frameCrc
  | frameLength
  | rxOverrun
  | moduleLost
  | psuFailed
  | capacityShort
  | buFailed
  | checkStale
  | checkFailed
  | energyShort
  | drainStarted
  | startFailed
  | goodLost
  | goodUnexpected
  | leakConfirmed
  | sensorOpen
  | storeWriteFail
  | storeCorrupt
  | storeRecovered
  | batteryAreaReset
  deriving DecidableEq, Repr

/-- A bank record (R175). -/
structure Bank where
  valid : Bool
  code : Nat
  severity : Nat
  subject : Nat
  time : Time
  overflow : Nat
  deriving DecidableEq, Repr

/-- The entry time and cause of Safe Hold (R176). -/
structure HoldInfo where
  time : Time
  bank : Nat
  code : Nat
  deriving DecidableEq, Repr

/-- The Fault Banks. Safe Hold is on exactly while `hold` is present (R176, R180). -/
structure Faults where
  banks : Vector Bank 6
  inProgress : Bool
  hold : Option HoldInfo
  deriving DecidableEq, Repr

/-- The notification classes (R182). -/
inductive NotifClass where
  | grid
  | capacity
  | slot
  | sequence
  | leak
  | module
  | battery
  | fault
  deriving DecidableEq, Repr

/-- A notification record (R182). -/
structure Notif where
  cls : NotifClass
  kind : Nat
  subject : Nat
  time : Time
  value : Nat
  deriving DecidableEq, Repr

/-- The Notification Queue with its masks, pending flags and lost counts (R183). -/
structure NotifQueue where
  entries : List Notif
  masks : Vector Bool 8
  globalMask : Bool
  pending : Vector Bool 8
  lost : Vector Nat 8
  deriving DecidableEq, Repr

/-! ### The whole -/

/-- What one step still has to hand on: the model's own field, all clear between steps. Each flag
stands for the hand-ons of one kind that the changes of a step have left so far (log entry 4). -/
structure Todo where
  /-- the conditions of R107 and R108 are to be evaluated -/
  grid : Bool
  /-- a figure of the Account has changed (R51) -/
  account : Bool
  /-- the candidate pool is to be formed (R141) -/
  pool : Bool
  /-- the Hold-Up Calculator is to evaluate (R130) -/
  hold : Bool
  /-- an input of the gates has changed (R101) -/
  head : Bool
  /-- due counts set to 0 (R149) -/
  checks : List (Fin 12)
  /-- a trigger of a battery area write (R21) -/
  battery : Bool
  deriving DecidableEq, Repr

/-- The blocks that hand changes to one another within a step. -/
structure Rack where
  bus : Bus
  psu : Vector PsuRec 18
  bu : Vector BuRec 12
  acct : Account
  slots : Vector SlotRec 48
  queue : StartQueue
  grid : Grid
  hold : HoldUp
  rech : Recharge
  active : Option ActiveCheck
  faults : Faults
  notif : NotifQueue
  todo : Todo
  deriving DecidableEq, Repr

/-- Where the part stands between a reset and full service. -/
structure Boot where
  /-- the Configuration Store has been loaded since power-on (R22) -/
  loaded : Bool
  /-- a warm restart has been taken and the slots are not yet adopted (R83) -/
  adopting : Bool
  /-- the time of the latest warm restart -/
  restartAt : Time
  /-- RESTART_N stands low (R196) -/
  pinLow : Bool
  deriving DecidableEq, Repr

/-- The state of the part. `free` is the model's own: it numbers the free values drawn so far. -/
structure State where
  pending : List Instr
  now : Time
  boot : Boot
  cfg : WorkCfg
  marks : Marks
  store : Store
  link : Link
  leak : Leak
  inputs : Inputs
  rack : Rack
  free : Nat
  deriving DecidableEq, Repr

/-- What the rack's blocks read beside their own state: the time, the working configuration, the
marks, the zone states and the first-window flag. -/
structure Env where
  now : Time
  cfg : WorkCfg
  marks : Marks
  zones : Vector ZoneState 8
  firstWindow : Bool

/-- The block reports what goes wrong in its own fault banks (R174): no command stops it. The type is
closed and has no constructor. -/
inductive Fault where
  deriving DecidableEq, Repr

/-- Why a command has no meaning in this model. -/
inductive Refusal where
  /-- Raised by a dispatch arm whose command has no meaning yet. Safe: the model stops. No arm raises
  it. -/
  | notModelled (mnemonic : String)
  deriving DecidableEq, Repr

/-! ### Power-on values -/

/-- The factory default of the commissioning record (R2). -/
def defaultRecord : CommRecord where
  rack := ⟨0, 0, 0⟩
  shelves := Vector.replicate 3 ⟨⟨0, []⟩, ⟨0, []⟩, 255⟩
  psus := Vector.replicate 18 ⟨0⟩
  bus := Vector.replicate 12 ⟨0, 0, 0, 0, 0⟩
  slots := Vector.replicate 48 ⟨0, 0, 255⟩
  channels := Vector.replicate 16 ⟨255, 0, 1023⟩

/-- A profile of all zeros (R9). -/
def zeroProfile : Profile := ⟨0, 0, 0, 0, 0⟩

/-- The factory default of the profiles (R9). -/
def defaultProfiles : Vector Profile 8 :=
  (Vector.replicate 8 zeroProfile).set 0 ⟨1500, 3000, 2400, 3000, 10000⟩

/-- The factory default of both plan copies (R12). -/
def defaultPlan : Vector PlanEntry 48 := Vector.ofFn fun i => ⟨3, i.val⟩

/-- The factory defaults of the parameters (R15). -/
def defaultParams : Vector Nat 16 :=
  #v[2000, 500, 8000, 5000, 600, 90, 15, 2000, 10, 230, 1500, 240, 1, 1, 30, 2000]

/-- The factory default of the leak action table (R1). -/
def defaultLeakTable : Vector LeakEntry 8 := Vector.replicate 8 ⟨.isolateAfterGrace, 30, false⟩

/-- The factory defaults of the working configuration (R22). -/
def defaultCfg : WorkCfg where
  record := defaultRecord
  locked := false
  profiles := defaultProfiles
  staged := defaultPlan
  active := defaultPlan
  armed := false
  params := defaultParams
  leakTable := defaultLeakTable

/-- No element enabled: the marks while UNCOMMISSIONED (R8). -/
def noMarks : Marks where
  shelfOn := Vector.replicate 3 false
  slotOn := Vector.replicate 48 false
  channelUsed := Vector.replicate 16 false
  disabledSlots := 0
  disabledPsus := 0
  disabledBus := 0
  disabledChannels := 0
  waitingSlots := 0

/-- The initial values of a battery area entry (R23). -/
def initialEntry : BatteryEntry := ⟨192, true, 0, 0, false⟩

/-- The content a blank config image stands with; nothing reads it. -/
def blankContent : ConfigImage :=
  ⟨defaultRecord, false, defaultProfiles, defaultPlan, defaultParams, defaultLeakTable⟩

/-- A store that has never been written (log entry 8). -/
def blankStore : Store where
  configFirst := ⟨false, 0, blankContent, 0⟩
  configSecond := ⟨false, 0, blankContent, 0⟩
  batteryFirst := ⟨false, 0, Vector.replicate 12 initialEntry, 0⟩
  batterySecond := ⟨false, 0, Vector.replicate 12 initialEntry, 0⟩
  writing := none
  saving := false
  saveTag := none
  batteryWaiting := false

/-- The Rack Link Port after power-on (R188, R189). -/
def initialLink : Link where
  rxState := .hunting
  rx := []
  holder := none
  line := .idle
  restartOwed := false
  stray := 0
  lengthErrors := 0
  gaps := 0
  crcErrors := 0
  good := 0
  overruns := 0

/-- The Shelf Bus Controller after power-on (R28, R33, R35). -/
def initialBus : Bus where
  transactions := 0
  unanswered := 0
  badFrames := 0
  overrunCycles := 0
  inFlight := none
  abandoned := none
  entries := []
  sincePoll := 0
  polledSet := []
  cycle := none
  lastBegan := none
  lateEnd := false

/-- A PSU record of a position not present at power-on (R40, R44). -/
def initialPsu : PsuRec where
  present := false
  state := .absent
  capability := 0
  output := 0
  input := .absent
  miss := 0
  lastReport := 0
  reportPending := true
  commandedOn := true

/-- A BU record of a position not present at power-on, with the initial schedule values (R23, R43,
R44, R148). -/
def initialBu : BuRec where
  present := false
  state := .absent
  energy := 0
  discharge := 0
  delivered := 0
  lastCounter := 0
  baseline := false
  miss := 0
  lastReport := 0
  reportPending := true
  commandedIsolate := false
  leakIsolated := false
  h := 192
  stale := true
  postponed := 0
  due := 0
  dueMs := 0
  lockPresent := false
  offered := 0
  offeredRem := 0
  accepted := 0
  setpoint := 0
  phase := .none
  sampleDeadline := none
  strayCounted := false
  aborts := 0

/-- The Capacity Account after either reset, before adoption rebuilds S (R45). -/
def initialAccount : Account where
  takenUp := false
  nOn := 0
  g := 0
  q := 0
  a := 0
  adm := 0
  redundancy := .exposed
  s := 0
  rc := 0
  shortfall := false
  recorded := 0
  relief := 0

/-- A slot record after power-on while DISABLED (R82). -/
def initialSlot : SlotRec where
  state := .disabled
  offSince := 0
  grantTime := none
  queueTime := none
  drain := none
  goodDeadline := none
  lastFault := none
  cause := .configuration
  good := false
  parked := false
  permit := false
  warn := false

/-- The slot inputs after a reset: the first sample is taken at the instant of the reset (R64; log entry
28). -/
def firstSample (now : Time) : Inputs := ⟨now, Vector.replicate 48 1, Vector.replicate 48 1⟩

/-- The Start Queue after power-on (R85, R93, R103). -/
def initialQueue : StartQueue where
  entries := []
  head := none
  gate := 0
  detail := 0
  timer := none
  history := []

/-- The Ride-Through Controller after power-on (R106). -/
def initialGrid : Grid where
  state := .startup
  level := 0
  inEvent := false
  eventStart := none
  bounces := 0
  drainFlag := false
  qualify := none
  events := 0
  powered := 0

/-- The Hold-Up Calculator after either reset (R123). R123's table has no row for the figures that R138
reports for each BU: they stand at no and 0 until the first evaluation after a power-on (log entry 14)
and after a warm restart (log entry 54), the model's choice. DESIGN CHOICE. -/
def initialHoldUp : HoldUp where
  evaluated := false
  lastTime := none
  usableCount := 0
  u := 0
  d := 0
  p := 0
  mOut := 0
  mDis := 0
  removal := false
  m := 0
  l := 0
  t := 0
  x1 := 0
  x2 := 0
  x3 := 0
  t1 := 0
  t2 := 0
  t3 := 0
  required := 0
  drainHolds := false
  shortLogged := false
  perBu := Vector.replicate 12 ⟨false, 0, 0⟩

/-- The Recharge Allocator after a power-on (R139). -/
def initialRecharge : Recharge where
  pool := 0
  candidate := 0
  frame := none
  members := Vector.replicate 12 none
  carried := false

/-- A channel record after power-on (R158). -/
def initialChannel : Channel := ⟨.dry, 0, 0, 0, 0, none⟩

/-- A zone record after power-on (R162). -/
def initialZone : Zone := ⟨.clear, none, none, Vector.replicate 3 false⟩

/-- The Leak Monitor after power-on (R172). -/
def initialLeak : Leak where
  channels := Vector.replicate 16 initialChannel
  zones := Vector.replicate 8 initialZone
  firstWindow := false
  samples := 0
  nextSample := none

/-- An empty bank (R175). -/
def emptyBank : Bank := ⟨false, 0, 0, 0, 0, 0⟩

/-- The Fault Banks after power-on (R181). -/
def initialFaults : Faults := ⟨Vector.replicate 6 emptyBank, false, none⟩

/-- The Notification Queue after either reset (R186). -/
def emptyNotifQueue : NotifQueue where
  entries := []
  masks := Vector.replicate 8 false
  globalMask := false
  pending := Vector.replicate 8 false
  lost := Vector.replicate 8 0

/-- Nothing to hand on. -/
def emptyTodo : Todo := ⟨false, false, false, false, false, [], false⟩

/-- The rack's blocks after power-on, before the store is loaded. -/
def initialRack : Rack where
  bus := initialBus
  psu := Vector.replicate 18 initialPsu
  bu := Vector.replicate 12 initialBu
  acct := initialAccount
  slots := Vector.replicate 48 initialSlot
  queue := initialQueue
  grid := initialGrid
  hold := initialHoldUp
  rech := initialRecharge
  active := none
  faults := initialFaults
  notif := emptyNotifQueue
  todo := emptyTodo

/-- The part right after power-on: the store load has begun and is not complete (R22), the Rack Time
Counter is 0 (R17), and no command waits. -/
def State.powerOn (store : Store) (free : Nat) : State where
  pending := []
  now := 0
  boot := ⟨false, false, 0, false⟩
  cfg := defaultCfg
  marks := noMarks
  store := store
  link := initialLink
  leak := initialLeak
  inputs := firstSample 0
  rack := initialRack
  free := free

/-- The part right after reset: powered on with a store that has never been written. -/
def State.reset : State := State.powerOn blankStore 0

end Sys2Proof.Machine
end

