-- ==== Sys2Proof/Machine/Bytes.lean ====
section
/-! DEFINITION. Bytes on the two lines: high byte first, the CRCs, and the field forms of a reply
(R25, R187). -/

namespace Sys2Proof.Machine

/-- A figure sent in 1 byte (R187). -/
def u8 (n : Nat) : List Byte := [BitVec.ofNat 8 n]

/-- A figure sent in 2 bytes, high byte first (R25, R187). -/
def u16 (n : Nat) : List Byte := [BitVec.ofNat 8 (n / 256), BitVec.ofNat 8 n]

/-- A figure sent in 4 bytes, high byte first (R187). -/
def u32 (n : Nat) : List Byte :=
  [BitVec.ofNat 8 (n / 16777216), BitVec.ofNat 8 (n / 65536), BitVec.ofNat 8 (n / 256),
   BitVec.ofNat 8 n]

/-- A yes-or-no figure: 1 for yes, set or on (R187). -/
def flag (b : Bool) : List Byte := [if b then 1 else 0]

/-- A timestamp (R187). -/
def stamp (t : Time) : List Byte := u32 t.toNat

/-- A field that may be absent: a presence byte, then the field, sent as zero when absent (R187). -/
def optional {α : Type} (send : α → List Byte) (zero : α) : Option α → List Byte
  | some x => 1 :: send x
  | none => 0 :: send zero

/-- A list: a count byte followed by its entries (R187). -/
def listed {α : Type} (send : α → List Byte) (xs : List α) : List Byte :=
  u8 xs.length ++ xs.flatMap send

/-- A set of bays or shelves: bit n stands for member n (R187). -/
def bitSet {k : Nat} (v : Vector Bool k) : List Byte :=
  u8 (((List.finRange k).map fun i => if v[i] then 2 ^ i.val else 0).sum)

/-- A text: a count byte followed by its characters (R187). -/
def text (s : String) : List Byte :=
  u8 s.length ++ s.toList.map fun c => BitVec.ofNat 8 c.toNat

/-- A number read from bytes, high byte first (R25, R187). -/
def fromBytes (bs : List Byte) : Nat := bs.foldl (fun n b => 256 * n + b.toNat) 0

/-- A function applied a number of times. -/
def times {α : Type} (f : α → α) : Nat → α → α
  | 0, x => x
  | n + 1, x => times f n (f x)

/-- One bit of the CRC-8 of polynomial 0x07 (R25). -/
def crc8Bit (c : BitVec 8) : BitVec 8 := if c.msb then (c <<< 1) ^^^ 0x07 else c <<< 1

/-- The CRC-8 of the shelf bus: initial value 0x00, most significant bit first, no final inversion
(R25). -/
def crc8 (bs : List Byte) : Byte := bs.foldl (fun c b => times crc8Bit 8 (c ^^^ b)) 0

/-- One bit of the CRC-16 of polynomial 0x1021 (R187). -/
def crc16Bit (c : BitVec 16) : BitVec 16 := if c.msb then (c <<< 1) ^^^ 0x1021 else c <<< 1

/-- The CRC-16 of the rack link: initial value 0xFFFF, most significant bit first, no final
inversion (R187). -/
def crc16 (bs : List Byte) : BitVec 16 :=
  bs.foldl (fun c b => times crc16Bit 8 (c ^^^ ((b.setWidth 16 : BitVec 16) <<< (8 : Nat)))) 0xFFFF

/-- The bytes of a rack link frame on the line, sync to CRC (R187). -/
def linkFrameBytes (kind tag : Byte) (payload : List Byte) : List Byte :=
  let body := u8 payload.length ++ [kind, tag] ++ payload
  0xB6 :: body ++ u16 (crc16 body).toNat

end Sys2Proof.Machine
end

