-- ==== Sys2Proof/Machine/Codes.lean ====
section
/-! DEFINITION. The numeric codes that replies, notifications and shelf bus frames carry, and the
addresses and numbers of the module positions (R24). -/

namespace Sys2Proof.Machine

/-! ### Positions -/

/-- The shelf of a PSU position. -/
def psuShelf (i : Fin 18) : Fin 3 := ⟨i.val / 6, by omega⟩

/-- The bay of a PSU position. -/
def psuBay (i : Fin 18) : Nat := i.val % 6

/-- The shelf of a BU position. -/
def buShelf (i : Fin 12) : Fin 3 := ⟨i.val / 4, by omega⟩

/-- The bay of a BU position. -/
def buBay (i : Fin 12) : Nat := i.val % 4

/-- The bus address of a PSU position: 16 × (s + 1) + b (R24). -/
def psuAddress (i : Fin 18) : Nat := 16 * (i.val / 6 + 1) + i.val % 6

/-- The bus address of a BU position: 16 × (s + 1) + 8 + b (R24). -/
def buAddress (i : Fin 12) : Nat := 16 * (i.val / 4 + 1) + 8 + i.val % 4

/-- The bus address of a position (R24). -/
def Pos.address : Pos → Nat
  | .psu i => psuAddress i
  | .bu i => buAddress i

/-- The PSU positions of a shelf in rising bay order. -/
def shelfPsus (s : Fin 3) : List (Fin 18) := (List.finRange 18).filter fun i => psuShelf i = s

/-- The BU positions of a shelf in rising bay order. -/
def shelfBus (s : Fin 3) : List (Fin 12) := (List.finRange 12).filter fun i => buShelf i = s

/-- The thirty positions in rising address order (R24). -/
def allPositions : List Pos :=
  (List.finRange 3).flatMap fun s => (shelfPsus s).map Pos.psu ++ (shelfBus s).map Pos.bu

/-! ### Reply codes (R190) -/

def codeOk : Byte := 0
def codeClamped : Byte := 1
def codeBusy : Byte := 2
def codeHeld : Byte := 3
def codeLocked : Byte := 4
def codeBadIndex : Byte := 5
def codeBadLength : Byte := 6
def codeRefusedState : Byte := 7
def codeUnknownKind : Byte := 8
def codeFailed : Byte := 9

/-- The reason of a SLOT_CLEAR refused for GOOD high: REFUSED_STATE with bit 7 set (R190). -/
def reasonGoodHigh : Byte := 0x87

/-! ### State codes -/

/-- R63. -/
def SlotState.code : SlotState → Nat
  | .disabled => 0 | .off => 1 | .queued => 2 | .starting => 3 | .on => 4 | .draining => 5
  | .shed => 6 | .isolated => 7 | .faulted => 8

/-- The slots that hold PERMIT (R63). -/
def SlotState.powered : SlotState → Bool
  | .starting | .on | .draining => true
  | .disabled | .off | .queued | .shed | .isolated | .faulted => false

/-- The state a drain ends in (R72). -/
def DrainTarget.state : DrainTarget → SlotState
  | .shed => .shed | .off => .off | .isolated => .isolated

/-- The code of a drain target: that of the state (R65, section 4.7). -/
def DrainTarget.code (t : DrainTarget) : Nat := t.state.code

/-- ISOLATED above OFF above SHED (R73). -/
def DrainTarget.rank : DrainTarget → Nat
  | .shed => 0 | .off => 1 | .isolated => 2

/-- R65. -/
def Cause.code : Cause → Nat
  | .queued => 0 | .grant => 1 | .goodRising => 2 | .goodDeadline => 3 | .offRequest => 4
  | .shedRequest => 5 | .rackDrain => 6 | .leakDrain => 7 | .parked => 8 | .drainDeadline => 9
  | .goodFalling => 10 | .slotCut => 11 | .leakMove => 12 | .slotClear => 13
  | .zoneCleared => 14 | .configuration => 15

/-- The fault codes of the SEQUENCE bank that a slot record holds (R62, R174). -/
def SlotFault.code : SlotFault → Nat
  | .startFailed => 1 | .goodLost => 2 | .goodUnexpected => 3

/-- R38. -/
def PsuState.code : PsuState → Nat
  | .absent => 0 | .online => 1 | .inputFault => 2 | .outputOff => 3 | .failed => 4 | .lost => 5

/-- R27. -/
def InputStatus.code : InputStatus → Nat
  | .ok => 0 | .low => 1 | .absent => 2

/-- R41. -/
def BuState.code : BuState → Nat
  | .idle => 0 | .charging => 1 | .full => 2 | .discharging => 3 | .checking => 4
  | .isolated => 5 | .failed => 6 | .lost => 7 | .absent => 8

/-- R148. -/
def CheckPhase.code : CheckPhase → Nat
  | .none => 0 | .requested => 1 | .running => 2 | .samplePending => 3

/-- R49. -/
def Redundancy.code : Redundancy → Nat
  | .full => 0 | .reduced => 1 | .exposed => 2

/-- R106. -/
def GridState.code : GridState → Nat
  | .startup => 0 | .normal => 1 | .rideThrough => 2 | .qualify => 3 | .drain => 4 | .dark => 5

/-- R158. -/
def ChanState.code : ChanState → Nat
  | .dry => 0 | .suspect => 1 | .wet => 2 | .opn => 3

/-- R162. -/
def ZoneState.code : ZoneState → Nat
  | .clear => 0 | .watch => 1 | .alarm => 2 | .isolated => 3

/-- A zone in CLEAR or WATCH (R87, R96). -/
def ZoneState.open? : ZoneState → Bool
  | .clear | .watch => true
  | .alarm | .isolated => false

/-- A latched zone: ALARM or ISOLATED (R162). -/
def ZoneState.latched (z : ZoneState) : Bool := !z.open?

/-- R162. -/
def LeakAction.code : LeakAction → Nat
  | .notifyOnly => 0 | .isolateAfterGrace => 1 | .isolateNow => 2

/-- The class code, also the class's place in the masks (R182). -/
def NotifClass.index : NotifClass → Fin 8
  | .grid => 0 | .capacity => 1 | .slot => 2 | .sequence => 3 | .leak => 4 | .module => 5
  | .battery => 6 | .fault => 7

/-- The classes in class order (R182). -/
def notifClasses : List NotifClass :=
  [.grid, .capacity, .slot, .sequence, .leak, .module, .battery, .fault]

/-! ### Faults (R174) -/

/-- The bank of a fault. -/
def FaultKind.bank : FaultKind → Fin 6
  | .frameTimeout | .frameCrc | .frameLength | .rxOverrun => 0
  | .moduleLost | .psuFailed | .capacityShort => 1
  | .buFailed | .checkStale | .checkFailed | .energyShort | .drainStarted => 2
  | .startFailed | .goodLost | .goodUnexpected => 3
  | .leakConfirmed | .sensorOpen => 4
  | .storeWriteFail | .storeCorrupt | .storeRecovered | .batteryAreaReset => 5

/-- The code of a fault within its bank. -/
def FaultKind.code : FaultKind → Nat
  | .frameTimeout => 1 | .frameCrc => 2 | .frameLength => 3 | .rxOverrun => 4
  | .moduleLost => 1 | .psuFailed => 2 | .capacityShort => 3
  | .buFailed => 1 | .checkStale => 2 | .checkFailed => 3 | .energyShort => 4
  | .drainStarted => 5
  | .startFailed => 1 | .goodLost => 2 | .goodUnexpected => 3
  | .leakConfirmed => 1 | .sensorOpen => 2
  | .storeWriteFail => 1 | .storeCorrupt => 2 | .storeRecovered => 3 | .batteryAreaReset => 4

/-- The severity of a fault: NOTE 0, DEGRADED 1, CRITICAL 2. -/
def FaultKind.severity : FaultKind → Nat
  | .frameTimeout | .frameCrc | .frameLength | .rxOverrun | .storeRecovered => 0
  | .moduleLost | .psuFailed | .buFailed | .checkStale | .checkFailed | .startFailed
  | .goodLost | .goodUnexpected | .sensorOpen | .storeWriteFail | .batteryAreaReset => 1
  | .capacityShort | .energyShort | .drainStarted | .leakConfirmed | .storeCorrupt => 2

/-! ### Shelf commands (R26, R32) -/

/-- The class of a command, which orders it at the arbiter (R32). -/
def ShelfCmd.cls : ShelfCmd → Nat
  | .outputOff | .isolate => 1
  | .outputOn | .restore | .stopCheck => 2
  | .setRecharge _ | .startCheck _ _ => 3

/-- The kind code of a command (R26). -/
def ShelfCmd.code : ShelfCmd → Nat
  | .outputOn => 0x21 | .outputOff => 0x22 | .setRecharge _ => 0x31 | .startCheck _ _ => 0x32
  | .stopCheck => 0x33 | .isolate => 0x41 | .restore => 0x42

end Sys2Proof.Machine
end

