-- ==== Sys2Proof/Machine/Ops.lean ====
section
/-! DEFINITION. Operations every block shares: the clock, the working configuration as the blocks
read it, tables by position, notifications and faults. -/

namespace Sys2Proof.Machine

/-! ### Tables -/

/-- A table with one entry replaced. -/
def put {α : Type} {k : Nat} (v : Vector α k) (i : Fin k) (x : α) : Vector α k :=
  v.set i.val x i.isLt

/-- A table with one entry changed. -/
def change {α : Type} {k : Nat} (v : Vector α k) (i : Fin k) (f : α → α) : Vector α k :=
  put v i (f v[i])

/-- Insertion into a list ordered by `before`, after every entry not behind the new one. -/
def insertBy {α : Type} (before : α → α → Bool) (x : α) : List α → List α
  | [] => [x]
  | y :: ys => if before x y then x :: y :: ys else y :: insertBy before x ys

/-- A list sorted by `before`. -/
def sortBy {α : Type} (before : α → α → Bool) : List α → List α
  | [] => []
  | x :: xs => insertBy before x (sortBy before xs)

/-- An operation applied for each element of a list, in order. -/
def forEach {α β : Type} (f : α → β → β) : List α → β → β
  | [], s => s
  | x :: xs, s => forEach f xs (f x s)

/-- A sum over the members of a table. -/
def total (k : Nat) (f : Fin k → Nat) : Nat := ((List.finRange k).map f).sum

/-- How many members of a table satisfy a condition. -/
def countOf (k : Nat) (f : Fin k → Bool) : Nat := ((List.finRange k).filter f).length

/-- A figure replaced by the nearer end of its range when outside it (spec/00_scope.md, section 8). -/
def clamp (lo hi n : Nat) : Nat := if n < lo then lo else if hi < n then hi else n

/-! ### The clock (R17) -/

/-- The interval from a timestamp to the present, modulo 2^32 (R17). -/
def elapsed (now t : Time) : Nat := (now - t).toNat

/-- The age of a pinned timestamp, which never counts above 2^30 ms (R18). -/
def age (now t : Time) : Nat := min (elapsed now t) Config.pinAge

/-- A deadline is reached when the interval from its setting time has grown to its length (R17). -/
def Deadline.reached (now : Time) (d : Deadline) : Bool := d.len ≤ elapsed now d.set

/-- The time left to a deadline, 0 when it is reached. -/
def Deadline.left (now : Time) (d : Deadline) : Nat := d.len - elapsed now d.set

/-- An optional deadline is reached. -/
def reached (now : Time) : Option Deadline → Bool
  | some d => d.reached now
  | none => false

/-! ### The working configuration as the blocks read it -/

/-- A parameter by its identifier (R15). -/
def Env.param (e : Env) (id : Fin 16) : Nat := e.cfg.params[id]

def Env.tSS (e : Env) : Nat := e.param 0
def Env.tSD (e : Env) : Nat := e.param 1
def Env.window (e : Env) : Nat := e.param 2
def Env.holdOff (e : Env) : Nat := e.param 3
def Env.startWait (e : Env) : Nat := e.param 4
def Env.target (e : Env) : Nat := e.param 5
def Env.drainTime (e : Env) : Nat := e.param 6
def Env.shedDrainTime (e : Env) : Nat := e.param 7
def Env.qualifyTime (e : Env) : Nat := e.param 8
def Env.admitRatio (e : Env) : Nat := e.param 9
def Env.baseLoad (e : Env) : Nat := e.param 10
def Env.efficiency (e : Env) : Nat := e.param 11
def Env.energyGate (e : Env) : Bool := e.param 12 ≠ 0
def Env.autoRestore (e : Env) : Bool := e.param 13 ≠ 0
def Env.checkInterval (e : Env) : Nat := e.param 14
def Env.checkPower (e : Env) : Nat := e.param 15

/-- The part is COMMISSIONED (R2). -/
def Env.commissioned (e : Env) : Bool := e.cfg.locked

/-- A profile is VALID when nominal_w ≤ peak_w and start_w > 0 (R9). -/
def Profile.valid (p : Profile) : Bool := p.nominalW ≤ p.peakW && 0 < p.startW

/-- A profile by its number; a number above 7 names none, and all its figures are 0. -/
def profileAt (cfg : WorkCfg) (n : Nat) : Profile := cfg.profiles[n]?.getD zeroProfile

/-- The profile a slot's SLOT section names (R9). -/
def Env.profile (e : Env) (n : Fin 48) : Profile := profileAt e.cfg (e.cfg.record.slots[n]).profile

/-- A slot's rank in the active plan (R12). -/
def Env.rank (e : Env) (n : Fin 48) : Nat := (e.cfg.active[n]).rank

/-- A slot's order number in the active plan (R12). -/
def Env.order (e : Env) (n : Fin 48) : Nat := (e.cfg.active[n]).order

/-- A zone field as a zone; 255 and out-of-range numbers name none (R2). -/
def zoneOf (z : Nat) : Option (Fin 8) := if h : z < 8 then some ⟨z, h⟩ else none

/-- The zone a slot stands in (R162). -/
def Env.slotZone (e : Env) (n : Fin 48) : Option (Fin 8) := zoneOf (e.cfg.record.slots[n]).zone

/-- The zone a shelf stands in (R162). -/
def Env.shelfZone (e : Env) (s : Fin 3) : Option (Fin 8) := zoneOf (e.cfg.record.shelves[s]).zone

/-- An optional zone is none, CLEAR or WATCH. -/
def Env.zoneOpen (e : Env) : Option (Fin 8) → Bool
  | some z => (e.zones[z]).open?
  | none => true

/-- A slot's zone is none, CLEAR or WATCH (R87, R88, R89, R96). -/
def Env.slotZoneOpen (e : Env) (n : Fin 48) : Bool := e.zoneOpen (e.slotZone n)

/-- A slot's zone stands ISOLATED (R79, R83). -/
def Env.slotZoneIsolated (e : Env) (n : Fin 48) : Bool :=
  match e.slotZone n with
  | some z => e.zones[z] == .isolated
  | none => false

/-- A slot inside the rack: below the slot count of a COMMISSIONED part (R6). -/
def Env.insideRack (e : Env) (n : Fin 48) : Bool :=
  e.cfg.locked && n.val < e.cfg.record.rack.slotCount

/-- A slot that stands OFF rather than DISABLED when it comes into service: inside the rack, enabled
by commissioning, on a VALID profile (R7, R82, R83). -/
def Env.usable (e : Env) (n : Fin 48) : Bool :=
  e.cfg.locked && e.marks.slotOn[n] && (e.profile n).valid

/-! ### Notifications (R182 to R184) -/

/-- A class is blocked while its class mask or the global mask is set (R183). -/
def NotifQueue.blocked (q : NotifQueue) (c : NotifClass) : Bool := q.masks[c.index] || q.globalMask

/-- A raised notification is appended, or counted lost with its class marked pending (R183). -/
def NotifQueue.offer (q : NotifQueue) (x : Notif) : NotifQueue :=
  if q.blocked x.cls || Config.notifQueueMax ≤ q.entries.length then
    { q with
      pending := put q.pending x.cls.index true
      lost := change q.lost x.cls.index fun n => min Config.lostMax (n + 1) }
  else { q with entries := q.entries ++ [x] }

/-- A class is owed a summary that the queue can take now (R184). -/
def NotifQueue.owes (q : NotifQueue) (c : NotifClass) : Bool :=
  q.pending[c.index] && !q.blocked c && q.entries.length < Config.notifQueueMax

/-- Queuing a PENDING_SUMMARY clears the class's pending flag and lost count (R184). -/
def NotifQueue.summarise (q : NotifQueue) (now : Time) (c : NotifClass) : NotifQueue :=
  if q.owes c then
    { q with
      entries := q.entries ++ [⟨c, 0, c.index.val, now, q.lost[c.index]⟩]
      pending := put q.pending c.index false
      lost := put q.lost c.index 0 }
  else q

/-- The pending, unblocked classes are given summaries in class order while there is room (R184). -/
def NotifQueue.summaries (q : NotifQueue) (now : Time) : NotifQueue :=
  forEach (fun c q => q.summarise now c) notifClasses q

/-- A block raises a notification (R183). -/
def raise (e : Env) (c : NotifClass) (kind subject value : Nat) (r : Rack) : Rack :=
  { r with notif := r.notif.offer ⟨c, kind, subject, e.now, value⟩ }

/-! ### Faults (R174 to R176) -/

/-- A fault taken into a bank record (R175). -/
def Bank.take (b : Bank) (now : Time) (f : FaultKind) (subject : Nat) : Bank :=
  if !b.valid then ⟨true, f.code, f.severity, subject, now, 0⟩
  else if b.severity < f.severity then
    ⟨true, f.code, f.severity, subject, now, min Config.count8Max (b.overflow + 1)⟩
  else { b with overflow := min Config.count8Max (b.overflow + 1) }

/-- A CRITICAL fault enters Safe Hold when fault-in-progress already stands and Safe Hold is off
(R176, step 1). -/
def Faults.enters (x : Faults) (f : FaultKind) : Bool :=
  f.severity == 2 && x.inProgress && x.hold.isNone

/-- A CRITICAL fault sets fault-in-progress (R176, step 2). Where Safe Hold is on with the flag clear (a
hold whose CRITICAL banks have been emptied and that has not been released), steps 2 and 4 set the flag
and raise FAULT_FLAGS, and the sentence after them says that a CRITICAL fault in Safe Hold changes neither
flag: the steps are followed, the model's choice (log entry 35). DESIGN CHOICE. -/
def Faults.sets (x : Faults) (f : FaultKind) : Bool := f.severity == 2 && !x.inProgress

/-- The banks and flags after a fault (R175, R176). -/
def Faults.log (x : Faults) (now : Time) (f : FaultKind) (subject : Nat) : Faults where
  banks := change x.banks f.bank fun b => b.take now f subject
  inProgress := x.inProgress || f.severity == 2
  hold := if x.enters f then some ⟨now, f.bank.val, f.code⟩ else x.hold

/-- The value of FAULT_FLAGS: 1 for fault-in-progress plus 2 for Safe Hold (R176). -/
def Faults.flagValue (x : Faults) : Nat :=
  (if x.inProgress then 1 else 0) + (if x.hold.isSome then 2 else 0)

/-- A block logs a fault: the bank record, the flags, FAULT_LOGGED, FAULT_FLAGS when a flag changed,
and gate 1 handed on when Safe Hold was entered (R175, R176). -/
def logFault (e : Env) (f : FaultKind) (subject : Nat) (r : Rack) : Rack :=
  let old := r.faults
  let r := { r with faults := old.log e.now f subject }
  let r := raise e .fault 1 f.bank.val (f.code + 256 * f.severity + 65536 * subject) r
  let r := if old.enters f || old.sets f then raise e .fault 2 f.bank.val r.faults.flagValue r else r
  if old.enters f then { r with todo.head := true } else r

/-- Safe Hold is on (R176). -/
def Faults.held (x : Faults) : Bool := x.hold.isSome

end Sys2Proof.Machine
end

