-- ==== Sys2Proof/Machine/Flags.lean ====
section
/-! DEFINITION. The conditions and figures the part computes, as functions of the tables: capacity
(R46 to R50), draws (R52, R126), the admission test (R55), the evidence of the grid (R107, R108), the
hold-up arithmetic (R124 to R129, R134, R136), the grant gates (R94 to R100), the recharge shares
(R141 to R143), the acceptance factor (R147) and the leak readings (R159). -/

namespace Sys2Proof.Machine

/-! ### Capacity (R46 to R50, R55) -/

/-- The contribution of a PSU position to gross capacity (R46). -/
def contribution (e : Env) (r : Rack) (i : Fin 18) : Nat :=
  if (r.psu[i]).present && (r.psu[i]).state == .online then
    min (r.psu[i]).capability (e.cfg.record.psus[i]).rated
  else 0

/-- A present PSU in state ONLINE (R46). -/
def onlinePresent (r : Rack) (i : Fin 18) : Bool := (r.psu[i]).present && (r.psu[i]).state == .online

/-- The number of ONLINE present PSUs (R46). -/
def onlineCount (r : Rack) : Nat := countOf 18 (onlinePresent r)

/-- The number of present PSU positions (R45). -/
def presentPsus (r : Rack) : Nat := countOf 18 fun i => (r.psu[i]).present

/-- The number of present BU positions. -/
def presentBus (r : Rack) : Nat := countOf 12 fun j => (r.bu[j]).present

/-- Gross capacity: the sum of the contributions (R46). -/
def grossCapacity (e : Env) (r : Rack) : Nat := total 18 (contribution e r)

/-- The redundancy k of the working configuration, read each time it is used (R45, R48). While
UNCOMMISSIONED it is the k last written, taken at once, although R48 has the k used change at
COMMISSION_LOCK alone: the model's choice (log entry 45). DESIGN CHOICE. -/
def Env.k (e : Env) : Nat := e.cfg.record.rack.k

/-- The sum of the k largest figures of a list. -/
def largestSum (k : Nat) (xs : List Nat) : Nat := ((sortBy (fun a b => b < a) xs).take k).sum

/-- The redundancy reserve (R48). -/
def reserveOf (e : Env) (r : Rack) : Nat :=
  if e.k < onlineCount r then
    largestSum e.k (((List.finRange 18).filter (onlinePresent r)).map (contribution e r))
  else 0

/-- The redundancy state from n_on, k and the present count (R49). -/
def redundancyOf (nOn k present : Nat) : Redundancy :=
  if nOn ≤ k then .exposed else if nOn = present then .full else .reduced

/-- Admissible capacity (R50). -/
def admissible (a ratio : Nat) : Nat := a * ratio / 256

/-- The state draw of a slot state on a profile (R52). -/
def stateDraw (p : Profile) : SlotState → Nat
  | .starting => p.startW
  | .on | .draining => p.peakW
  | .disabled | .off | .queued | .shed | .isolated | .faulted => 0

/-- The state draw a slot has now (R52). -/
def drawOf (e : Env) (r : Rack) (n : Fin 48) : Nat := stateDraw (e.profile n) (r.slots[n]).state

/-- The need of a slot at its grant (R55). -/
def needOf (e : Env) (n : Fin 48) : Nat := max (e.profile n).startW (e.profile n).peakW

/-- The sum the admission test compares with Adm (R55). -/
def admissionSum (e : Env) (r : Rack) (need : Nat) : Nat :=
  r.acct.s + e.baseLoad + r.acct.rc + need

/-- The admission test (R55). -/
def admits (e : Env) (r : Rack) (need : Nat) : Bool := admissionSum e r need ≤ r.acct.adm

/-- The margin the admission test's answer carries (R55). -/
def admissionMargin (e : Env) (r : Rack) (need : Nat) : Nat :=
  if admits e r need then r.acct.adm - admissionSum e r need else admissionSum e r need - r.acct.adm

/-- A slot counts toward the shed relief: DRAINING with target SHED (R58). -/
def drainsToShed (x : SlotRec) : Bool :=
  x.state == .draining && (match x.drain with | some d => d.target == .shed | none => false)

/-- The shed relief (R58). -/
def shedRelief (e : Env) (slots : Vector SlotRec 48) : Nat :=
  total 48 fun n => if drainsToShed slots[n] then (e.profile n).peakW else 0

/-- The uncovered deficit (R58): S + B − relief − A, or 0. -/
def uncovered (e : Env) (r : Rack) : Nat :=
  r.acct.s + e.baseLoad - (r.acct.relief + r.acct.a)

/-- The shortfall condition (R56). -/
def shortfallHolds (e : Env) (r : Rack) : Bool :=
  e.commissioned && r.grid.state == .normal && r.acct.a < r.acct.s + e.baseLoad

/-! ### The evidence of the grid (R107, R108) -/

/-- A PSU position the grid conditions read: present, or any discovery record (R107). -/
def readsPsu (e : Env) (r : Rack) (i : Fin 18) : Bool := !e.commissioned || (r.psu[i]).present

/-- A BU position the grid conditions read (R107). -/
def readsBu (e : Env) (r : Rack) (j : Fin 12) : Bool := !e.commissioned || (r.bu[j]).present

/-- The active check is on this BU (R148). -/
def checksBu (r : Rack) (j : Fin 12) : Bool :=
  match r.active with
  | some a => a.bu == j
  | none => false

/-- A PSU whose output stands on the busbar: ONLINE or INPUT_FAULT (R107). -/
def onBusbar (x : PsuRec) : Bool := x.state == .online || x.state == .inputFault

/-- The loss condition (R107). -/
def lossHolds (e : Env) (r : Rack) : Bool :=
  ((List.finRange 12).any fun j =>
    readsBu e r j && (r.bu[j]).state == .discharging && !checksBu r j)
  || (((List.finRange 18).any fun i => readsPsu e r i && onBusbar r.psu[i])
    && ((List.finRange 18).all fun i =>
      !(readsPsu e r i && onBusbar r.psu[i]) || (r.psu[i]).input != .ok))

/-- The first two clauses of the return condition (R108, R117). -/
def psuReturn (e : Env) (r : Rack) : Bool :=
  ((List.finRange 18).any fun i => readsPsu e r i && (r.psu[i]).state == .online)
  && ((List.finRange 18).all fun i => !(readsPsu e r i && (r.psu[i]).state == .inputFault))

/-- The return condition (R108). -/
def returnHolds (e : Env) (r : Rack) : Bool :=
  psuReturn e r
  && ((List.finRange 12).all fun j => !(readsBu e r j && (r.bu[j]).state == .discharging))

/-! ### Hold-up arithmetic (R124 to R129, R134, R136) -/

/-- The BU states that count as usable (R124). -/
def BuState.usable : BuState → Bool
  | .idle | .charging | .full | .discharging | .checking => true
  | .isolated | .failed | .lost | .absent => false

/-- A usable BU record (R124). -/
def BuRec.usable (b : BuRec) : Bool := b.present && b.state.usable

/-- The acceptance factor as applied (R125). -/
def BuRec.hEff (b : BuRec) : Nat := if b.stale then b.h * 3 / 4 else b.h

/-- The usable energy of a BU, 0 when it is not usable (R125). -/
def usableEnergy (reserve : Nat) (b : BuRec) : Nat :=
  if b.usable then (b.energy - reserve) * b.hEff / 256 else 0

/-- The usable energy of a position (R125). -/
def energyOf (e : Env) (r : Rack) (j : Fin 12) : Nat :=
  usableEnergy (e.cfg.record.bus[j]).reserve r.bu[j]

/-- The predicted draw of a slot state (R126). -/
def predictedDraw (p : Profile) : SlotState → Nat
  | .starting => p.startW
  | .on | .draining => p.nominalW
  | .disabled | .off | .queued | .shed | .isolated | .faulted => 0

/-- The predicted load (R126). -/
def predictedLoad (e : Env) (r : Rack) : Nat :=
  e.baseLoad + total 48 fun n => predictedDraw (e.profile n) (r.slots[n]).state

/-- The hold-up time of an energy in kJ under a load in W (R128). -/
def holdTime (d l : Nat) : Nat := if l = 0 then Config.timeTop else min (d * 1000 / l) Config.timeTop

/-- The shed relief by rank: the predicted draws of the slots of rank k or lower (R129). -/
def reliefByRank (e : Env) (r : Rack) (k : Nat) : Nat :=
  total 48 fun n => if e.rank n ≤ k then predictedDraw (e.profile n) (r.slots[n]).state else 0

/-- The smallest level whose hold-up time reaches the target, or 3 (R129). -/
def requiredLevel (t t1 t2 target : Nat) : Nat :=
  if target ≤ t then 0 else if target ≤ t1 then 1 else if target ≤ t2 then 2 else 3

/-- The drain condition (R134). -/
def drainCondition (d l drainTime : Nat) : Bool := 0 < l && d * 1000 ≤ l * drainTime

/-- The sum of the output power of the present ONLINE PSUs (R127). -/
def outputSum (r : Rack) : Nat := total 18 fun i => if onlinePresent r i then (r.psu[i]).output else 0

/-- The sum of the discharge power of the usable BUs (R127). -/
def dischargeSum (r : Rack) : Nat := total 12 fun j => if (r.bu[j]).usable then (r.bu[j]).discharge else 0

/-- The figures of an evaluation (R124 to R129, R134), replacing the held ones whole. R125 forms H_eff for
the usable BUs alone and R138 reports one for each: for a BU that is not usable the same formula is held,
the model's choice (log entry 40). DESIGN CHOICE. -/
def holdFigures (e : Env) (r : Rack) : HoldUp :=
  let u := total 12 (energyOf e r)
  let d := u * e.efficiency / 256
  let p := predictedLoad e r
  let m := if r.grid.state == .normal then r.hold.mOut else r.hold.mDis
  let l := min (max p m) Config.loadCap
  let x1 := reliefByRank e r 1
  let x2 := reliefByRank e r 2
  let x3 := reliefByRank e r 3
  let t := holdTime d l
  let t1 := holdTime d (l - x1)
  let t2 := holdTime d (l - x2)
  let t3 := holdTime d (l - x3)
  { evaluated := true
    lastTime := some e.now
    usableCount := countOf 12 fun j => (r.bu[j]).usable
    u, d, p
    mOut := r.hold.mOut
    mDis := r.hold.mDis
    removal := r.hold.removal
    m, l, t, x1, x2, x3, t1, t2, t3
    required := requiredLevel t t1 t2 e.target
    drainHolds := drainCondition d l e.drainTime
    shortLogged := r.hold.shortLogged
    perBu := Vector.ofFn fun j => ⟨(r.bu[j]).usable, (r.bu[j]).hEff, energyOf e r j⟩ }

/-- The hold-up time of a level, from the held figures (R129). -/
def HoldUp.timeAt (h : HoldUp) : Nat → Nat
  | 0 => h.t
  | 1 => h.t1
  | 2 => h.t2
  | _ => h.t3

/-- The hold-up time with one BU excluded, from the inputs of the latest evaluation (R136). -/
def excludedTime (e : Env) (r : Rack) (j : Fin 12) : Nat :=
  holdTime ((r.hold.u - (r.hold.perBu[j]).u) * e.efficiency / 256) r.hold.l

/-! ### The grant gates (R94 to R100) -/

/-- One gate as judged: whether it passes, its detail (R104), and for a time gate the ms until it
opens. -/
structure GateView where
  number : Nat
  passes : Bool
  detail : Nat
  opens : Nat
  deriving DecidableEq, Repr

/-- Gate 1, the part: the first failing condition's code (R94). R94 names codes 1 to 3 and none for the
fourth condition, which fails for no head: 4 is the model's choice (log entry 37). DESIGN CHOICE. -/
def gate1 (e : Env) (r : Rack) : GateView :=
  let code :=
    if r.grid.state != .normal then 1
    else if r.faults.held then 2
    else if !e.firstWindow then 3
    else if !e.commissioned then 4
    else 0
  ⟨1, code == 0, code, 0⟩

/-- Gate 2, hold-off (R95). -/
def gate2 (e : Env) (r : Rack) (n : Fin 48) : GateView :=
  let left := e.holdOff - age e.now (r.slots[n]).offSince
  ⟨2, left == 0, left, left⟩

/-- Gate 3, zone (R96). -/
def gate3 (e : Env) (n : Fin 48) : GateView :=
  match e.slotZone n with
  | some z => ⟨3, (e.zones[z]).open?, (e.zones[z]).code, 0⟩
  | none => ⟨3, true, 0, 0⟩

/-- The ms until a spacing half opens: the length less the age of the latest entry it reads, and 0
when there is none (R97). -/
def spacingLeft (now : Time) (len : Nat) (entries : List HistEntry) : Nat :=
  match entries.getLast? with
  | some x => len - age now x.time
  | none => 0

/-- A Start History entry counts for a group: of that group or of ALL (R93, R97). -/
def HistEntry.counts (x : HistEntry) (group : Nat) : Bool :=
  match x.group with
  | some g => g == group
  | none => true

/-- Gate 4, spacing (R97). -/
def gate4 (e : Env) (r : Rack) (n : Fin 48) : GateView :=
  let group := (e.cfg.record.slots[n]).group
  let same := spacingLeft e.now e.tSS (r.queue.history.filter (·.counts group))
  let any := spacingLeft e.now e.tSD r.queue.history
  ⟨4, max same any == 0, max same any, max same any⟩

/-- Gate 5, window (R98). -/
def gate5 (e : Env) (r : Rack) : GateView :=
  let left :=
    if r.queue.history.length < Config.historyMax then 0
    else match r.queue.history with
      | x :: _ => e.window - age e.now x.time
      | [] => 0
  ⟨5, left == 0, left, left⟩

/-- Gate 6, admission (R99). -/
def gate6 (e : Env) (r : Rack) (n : Fin 48) : GateView :=
  ⟨6, admits e r (needOf e n), admissionMargin e r (needOf e n), 0⟩

/-- The energy figure of gate 7 (R100): 65,535 under no load, as a hold-up time is. -/
def energyFigure (e : Env) (r : Rack) (n : Fin 48) : Nat :=
  holdTime r.hold.d (r.hold.l + (e.profile n).nominalW)

/-- Gate 7, energy (R100). -/
def gate7 (e : Env) (r : Rack) (n : Fin 48) : GateView :=
  let exempt := !e.energyGate || e.rank n == 4
  ⟨7, exempt || e.target ≤ energyFigure e r n, energyFigure e r n, 0⟩

/-- The seven gates judged for a slot on the state as it stands (R101). -/
def gates (e : Env) (r : Rack) (n : Fin 48) : List GateView :=
  [gate1 e r, gate2 e r n, gate3 e n, gate4 e r n, gate5 e r, gate6 e r n, gate7 e r n]

/-- The lowest-numbered failing gate (R101). -/
def firstFailing (gs : List GateView) : Option GateView := gs.find? fun g => !g.passes

/-- The ms until every failing time gate has opened, 0 when none fails (R103). -/
def gateWait (gs : List GateView) : Nat := gs.foldl (fun m g => if g.passes then m else max m g.opens) 0

/-! ### Recharge (R141 to R143, R145, R147) -/

/-- The head's reservation (R141). -/
def headReserve (e : Env) (r : Rack) : Nat :=
  match r.queue.head with
  | some h => needOf e h.slot
  | none => 0

/-- The candidate pool (R141). -/
def candidatePool (e : Env) (r : Rack) : Nat :=
  if r.acct.shortfall || r.grid.state != .normal then 0
  else r.acct.adm - (r.acct.s + e.baseLoad + headReserve e r)

/-- A member's share (R142). -/
def shareOf (pool n maxRecharge : Nat) : Nat := min ((pool - 50 * n) / n) maxRecharge

/-- A member from its share: q, f and ceiling (R142). -/
def memberOf (share : Nat) : Member :=
  let q := share / 50
  let f := (share - 50 * q) * 16 / 50
  ⟨share, q, f, if 0 < f then q + 1 else q⟩

/-- The units a member is sent in control period p (R143). -/
def unitsIn (p : Nat) (x : Member) : Nat :=
  if (p - 1) * x.f / 16 < p * x.f / 16 then x.q + 1 else x.q

/-- The BU states of a member (R140). -/
def BuState.recharges : BuState → Bool
  | .idle | .charging => true
  | .full | .discharging | .checking | .isolated | .failed | .lost | .absent => false

/-- A check stands on the BU in the requested or running phase (R140). -/
def CheckPhase.active : CheckPhase → Bool
  | .requested | .running => true
  | .none | .samplePending => false

/-- A BU position is a member when all the conditions of R140 hold. -/
def BuRec.joins (b : BuRec) : Bool :=
  b.present && b.state.recharges && !b.commandedIsolate && !b.leakIsolated && !b.phase.active

/-- Rc: the sum over the members of 50 times their ceilings (R142). -/
def rechargeDraw (members : Vector (Option Member) 12) : Nat :=
  total 12 fun j => match members[j] with | some x => 50 * x.ceiling | none => 0

/-- The acceptance factor of a sample (R147). -/
def acceptance (offered accepted : Nat) : Nat :=
  if offered ≤ accepted then 256 else 256 * accepted / offered

/-- A sample sets H: at least 100 kJ offered and neither counter saturated (R147). -/
def samples (b : BuRec) : Bool :=
  Config.sampleFloor ≤ b.offered && b.offered < Config.energyTop && b.accepted < Config.energyTop

/-- The offered counter charged for a complete control period: 50 J for each unit of the setpoint
(R145). -/
def BuRec.charge (b : BuRec) : BuRec :=
  let total := b.offeredRem + 50 * b.setpoint
  { b with
    offered := min Config.energyTop (b.offered + total / 1000)
    offeredRem := total % 1000 }

/-! ### Slot inputs and leak readings (R64, R159) -/

/-- The taken level of a slot input after two successive samples (R64). -/
def takenLevel (taken earlier later : Bool) : Bool := if earlier == later then later else taken

/-- A classified leak reading (R159). -/
inductive Reading where
  | wet
  | opn
  | dry
  deriving DecidableEq, Repr

/-- The reading of a level against the thresholds (R159). -/
def classify (wet opn level : Nat) : Reading :=
  if level ≤ wet then .wet else if opn ≤ level then .opn else .dry

/-- The movement of a channel on a reading (R160). -/
def Channel.move (c : Channel) (x : Reading) : Channel :=
  let c := { c with dryRun := match x with | .dry => min 10 (c.dryRun + 1) | _ => 0 }
  match c.state, x with
  | .dry, .wet => { c with state := .suspect, wetCount := 1, openCount := 0 }
  | .dry, .opn =>
    if c.openCount + 1 < 5 then { c with openCount := c.openCount + 1 }
    else { c with state := .opn, openCount := 0 }
  | .dry, .dry => { c with wetCount := 0, openCount := 0, dryCount := 0 }
  | .suspect, .wet =>
    if c.wetCount + 1 < 10 then { c with wetCount := c.wetCount + 1 }
    else { c with state := .wet, wetCount := 0, openCount := 0, dryCount := 0 }
  | .suspect, .opn => { c with state := .dry, wetCount := 0, openCount := 1 }
  | .suspect, .dry => { c with state := .dry, wetCount := 0, openCount := 0, dryCount := 0 }
  | .wet, _ => c
  | .opn, .wet => { c with state := .suspect, wetCount := 1, dryCount := 0 }
  | .opn, .opn => { c with dryCount := 0 }
  | .opn, .dry =>
    if c.dryCount + 1 < 5 then { c with dryCount := c.dryCount + 1 }
    else { c with state := .dry, wetCount := 0, openCount := 0, dryCount := 0 }

/-- The zone state that follows from the states of its used channels (R162). -/
def zoneFollows (states : List ChanState) : ZoneState :=
  if states.contains .wet then .alarm
  else if states.contains .suspect || states.contains .opn then .watch
  else .clear

end Sys2Proof.Machine
end

