-- ==== Sys2Proof/Machine/Bus.lean ====
section
/-! DEFINITION. The Shelf Bus Controller: which positions are polled (R24), frames (R25, R26), offers
to the Shelf Command Queue (R34), the arbiter (R33), and the end of a transaction (R29, R35). -/

namespace Sys2Proof.Machine

/-- A position belongs to the polled set by the lock state: every one while UNCOMMISSIONED, the present
ones while COMMISSIONED (R24). -/
def polled (e : Env) (r : Rack) : Pos → Bool
  | .psu i => readsPsu e r i
  | .bu j => readsBu e r j

/-- The record of a position is in state LOST. -/
def isLost (r : Rack) : Pos → Bool
  | .psu i => (r.psu[i]).state == .lost
  | .bu j => (r.bu[j]).state == .lost

/-- A position is polled or addressed: it stood in the set read at the start of the latest poll cycle,
and the lock state has not taken it from the set since (R24, R31, R44; log entry 29). -/
def addressed (e : Env) (r : Rack) (p : Pos) : Bool := r.bus.polledSet.contains p && polled e r p

/-- The polled positions in rising address order (R30). -/
def polledPositions (e : Env) (r : Rack) : List Pos := allPositions.filter (polled e r)

/-! ### Request frames (R25, R26) -/

/-- The payload of a request: none for a POLL and for most commands (R26). -/
def requestPayload : Option ShelfCmd → List Byte
  | some (.setRecharge units) => u8 units
  | some (.startCheck depth power) => u16 depth ++ u16 power
  | some _ | none => []

/-- The kind code of a request; POLL is 0x10 (R26). -/
def requestCode : Option ShelfCmd → Nat
  | some c => c.code
  | none => 0x10

/-- A shelf bus frame: address, kind, length, payload and CRC-8 (R25). -/
def shelfFrame (address kind : Nat) (payload : List Byte) : List Byte :=
  let body := u8 address ++ u8 kind ++ u8 payload.length ++ payload
  body ++ [crc8 body]

/-- The frame of a request (R26). -/
def requestFrame (p : Pos) (c : Option ShelfCmd) : List Byte :=
  shelfFrame p.address (requestCode c) (requestPayload c)

/-! ### The Shelf Command Queue (R34, R35) -/

/-- The entry for a position, if any. -/
def Bus.entry (b : Bus) (p : Pos) : Option CmdEntry := b.entries.find? fun x => x.pos == p

/-- The queue without a position's entry. -/
def Bus.discard (b : Bus) (p : Pos) : Bus :=
  { b with entries := b.entries.filter fun x => x.pos != p }

/-- A new command stands for a position: a command of that position in flight is no longer the
entry's (R35). -/
def Bus.accept (b : Bus) (now : Time) (p : Pos) (c : ShelfCmd) : Bus :=
  { b.discard p with
    entries := (b.discard p).entries ++ [⟨p, c, now⟩]
    inFlight := b.inFlight.map fun t =>
      if t.pos == p && t.cmd.isSome then { t with replaced := true } else t }

/-- The queue takes an offer, drops it, or puts it in place of the position's entry (R34). -/
def Bus.offer (b : Bus) (now : Time) (open? : Bool) (p : Pos) (c : ShelfCmd) : Bus :=
  if !open? then b
  else match b.entry p with
    | none => b.accept now p c
    | some x =>
      if x.cmd.cls == 1 && c.cls != 1 then b
      else if x.cmd == c then b
      else b.accept now p c

/-- A position takes offers: polled and not LOST (R34). -/
def takesOffers (e : Env) (r : Rack) (p : Pos) : Bool := addressed e r p && !isLost r p

/-- A block offers a command for a position (R34). -/
def offer (e : Env) (p : Pos) (c : ShelfCmd) (r : Rack) : Rack :=
  { r with bus := r.bus.offer e.now (takesOffers e r p) p c }

/-- An offered command stands in the queue. -/
def standing (r : Rack) (p : Pos) (c : ShelfCmd) : Bool :=
  match r.bus.entry p with
  | some x => x.cmd == c
  | none => false

/-- The queue holds an entry for a position. -/
def hasEntry (r : Rack) (p : Pos) : Bool := (r.bus.entry p).isSome

/-! ### The arbiter (R33) -/

/-- The chosen entry of two: the lower class, then the earlier queue time, then the lower address
(R33). -/
def CmdEntry.before (now : Time) (x y : CmdEntry) : Bool :=
  if x.cmd.cls ≠ y.cmd.cls then x.cmd.cls < y.cmd.cls
  else if elapsed now x.queued ≠ elapsed now y.queued then elapsed now y.queued < elapsed now x.queued
  else x.pos.address < y.pos.address

/-- The chosen command of the queue (R33, step 1). -/
def Bus.chosen (b : Bus) (now : Time) : Option CmdEntry := (sortBy (CmdEntry.before now) b.entries).head?

/-- The positions still due in the cycle in progress; those that have left the polled set are skipped
(R31). -/
def duePolls (e : Env) (r : Rack) : List Pos :=
  match r.bus.cycle with
  | some c => c.due.filter (polled e r)
  | none => []

/-- The bus is free: no transaction in flight, and the window of a transaction that a warm restart
abandoned has run out (R29). -/
def busFree (e : Env) (r : Rack) : Bool :=
  r.bus.inFlight.isNone
  && (match r.bus.abandoned with
    | some t => Config.responseWindow ≤ elapsed e.now t
    | none => true)

/-- A transaction begins: its request frame is sent and the transactions counter rises (R29). -/
def Bus.begin (b : Bus) (now : Time) (p : Pos) (c : Option ShelfCmd) : Bus :=
  { b with
    transactions := b.transactions + 1
    abandoned := none
    inFlight := some ⟨p, c, false, now, requestFrame p c⟩ }

/-- A command transaction begins (R33). -/
def Bus.beginCommand (b : Bus) (now : Time) (x : CmdEntry) : Bus :=
  { b.begin now x.pos (some x.cmd) with sincePoll := min Config.commandsPerPoll (b.sincePoll + 1) }

/-- A POLL transaction begins: the position is no longer due (R30, R33). -/
def Bus.beginPoll (b : Bus) (now : Time) (p : Pos) (rest : List Pos) : Bus :=
  { b.begin now p none with
    sincePoll := 0
    cycle := b.cycle.map fun c => { c with due := rest } }

/-- The arbiter picks the next transaction when the bus is free (R33). -/
def arbitrate (e : Env) (r : Rack) : Rack :=
  if busFree e r then
    match r.bus.chosen e.now, duePolls e r with
    | some x, [] => { r with bus := r.bus.beginCommand e.now x }
    | some x, p :: rest =>
      if r.bus.sincePoll < Config.commandsPerPoll then { r with bus := r.bus.beginCommand e.now x }
      else { r with bus := r.bus.beginPoll e.now p rest }
    | none, p :: rest => { r with bus := r.bus.beginPoll e.now p rest }
    | none, [] => r
  else r

/-! ### The end of a transaction (R29, R35) -/

/-- An answered transaction ends: the bus is free, and the entry of an answered command leaves the
queue unless it has been replaced since the send (R35). -/
def Bus.answer (b : Bus) : Bus :=
  match b.inFlight with
  | some t =>
    let b := { b with inFlight := none }
    if t.cmd.isSome && !t.replaced then b.discard t.pos else b
  | none => b

/-- An unanswered transaction ends: the entry stays (R35). -/
def Bus.expire (b : Bus) : Bus := { b with inFlight := none, unanswered := b.unanswered + 1 }

end Sys2Proof.Machine
end

