-- ==== Sys2Proof/Machine/Sequencer.lean ====
section
/-! DEFINITION. The Slot Sequencer: a change of slot state and what it hands on (R65), the Start
Queue's membership and order (R85, R86), drains, cuts and moves (R70 to R75). -/

namespace Sys2Proof.Machine

/-! ### The Start Queue (R85, R86, R92) -/

/-- How long ago a slot joined the queue. -/
def queueAge (e : Env) (slots : Vector SlotRec 48) (n : Fin 48) : Nat :=
  match (slots[n]).queueTime with
  | some t => age e.now t
  | none => 0

/-- The queue's order: order number, then queue_time, earliest first, then slot index (R85). -/
def queueBefore (e : Env) (slots : Vector SlotRec 48) (a b : Fin 48) : Bool :=
  if e.order a ≠ e.order b then e.order a < e.order b
  else if queueAge e slots a ≠ queueAge e slots b then queueAge e slots b < queueAge e slots a
  else a.val < b.val

/-- The head follows the queue's first entry: a different slot there begins a fresh wait, and an
empty queue has no head, no gate timer and no failing gate (R86, R103, R105). -/
def followHead (e : Env) (r : Rack) : Rack :=
  match r.queue.entries.head? with
  | none =>
    if r.queue.head.isNone then r
    else { r with
      queue := { r.queue with head := none, timer := none, gate := 0, detail := 0 }
      todo.pool := true, todo.head := true }
  | some n =>
    if r.queue.head.map QueueHead.slot == some n then r
    else { r with
      queue := { r.queue with head := some ⟨n, e.now, false⟩ }
      todo.pool := true, todo.head := true }

/-- A slot takes its place in the queue (R85). -/
def joinQueue (e : Env) (n : Fin 48) (r : Rack) : Rack :=
  followHead e { r with
    queue.entries := insertBy (queueBefore e r.slots) n (r.queue.entries.filter (· != n)) }

/-- A slot leaves the queue; the entries behind it keep their order (R91). -/
def leaveQueue (e : Env) (n : Fin 48) (r : Rack) : Rack :=
  followHead e { r with queue.entries := r.queue.entries.filter (· != n) }

/-- The queue is sorted again under the order numbers of the active plan (R92). -/
def resortQueue (e : Env) (r : Rack) : Rack :=
  let r := followHead e { r with
    queue.entries := sortBy (queueBefore e r.slots) r.queue.entries }
  { r with todo.head := true }

/-! ### A change of slot state (R65) -/

/-- The record of a slot that enters a state: the latches follow the state (R63), a removal of PERMIT
sets off_since (R63), and the fields that belong to one state are absent in every other (R62). -/
def SlotRec.enter (x : SlotRec) (now : Time) (st : SlotState) (cause : Cause) : SlotRec where
  state := st
  offSince := if x.state.powered && !st.powered then now else x.offSince
  grantTime := x.grantTime
  queueTime := if st == .queued then some now else none
  drain := none
  goodDeadline := none
  lastFault := x.lastFault
  cause := cause
  good := x.good
  parked := x.parked
  permit := st.powered
  warn := st == .draining

/-- S moved by a change: up by the state draw of the new state, down by that of the old (R52). -/
def moveDraw (s old new : Nat) : Nat := s + new - old

/-- The powered slot count after a change (R106). -/
def movePowered (count : Nat) (old new : SlotState) : Nat :=
  if new.powered && !old.powered then count + 1
  else if old.powered && !new.powered then count - 1
  else count

/-- A removal of PERMIT lowers both measured-load sums by the slot's predicted draw and sets the
removal mark (R127). -/
def HoldUp.lower (h : HoldUp) (draw : Nat) : HoldUp :=
  { h with mOut := h.mOut - draw, mDis := h.mDis - draw, removal := true }

/-- The record's change as the blocks' figures take it, before the queue and the notification: the
Account's S and shed relief, the powered slot count and the measured-load sums (R52, R58, R106,
R127). -/
def takeRecord (e : Env) (n : Fin 48) (x : SlotRec) (r : Rack) : Rack :=
  let old := r.slots[n]
  let p := e.profile n
  let slots := put r.slots n x
  { r with
    slots := slots
    acct := { r.acct with
      s := moveDraw r.acct.s (stateDraw p old.state) (stateDraw p x.state)
      relief := shedRelief e slots }
    grid := { r.grid with powered := movePowered r.grid.powered old.state x.state }
    hold := if old.state.powered && !x.state.powered
      then r.hold.lower (predictedDraw p old.state) else r.hold
    todo := { r.todo with account := true, pool := true, hold := true, head := true } }

/-- The queue follows a change into or out of QUEUED (R85). -/
def followQueue (e : Env) (n : Fin 48) (old new : SlotState) (r : Rack) : Rack :=
  if new == .queued then joinQueue e n r
  else if old == .queued then leaveQueue e n r
  else r

/-- A change of slot state with the record it leaves: the figures and the queue take it, and
SLOT_STATE is raised with the state code plus 16 times the cause code (R65). -/
def changeRecord (e : Env) (n : Fin 48) (x : SlotRec) (r : Rack) : Rack :=
  let old := (r.slots[n]).state
  raise e .slot 1 n.val (x.state.code + 16 * x.cause.code)
    (followQueue e n old x.state (takeRecord e n x r))

/-- A slot enters a state (R65). -/
def enter (e : Env) (n : Fin 48) (st : SlotState) (cause : Cause) (r : Rack) : Rack :=
  changeRecord e n ((r.slots[n]).enter e.now st cause) r

/-- A slot enters FAULTED, or stays in the state it has, with its last fault code set; the fault is
logged with the slot as subject (R67 to R69). -/
def markFault (e : Env) (n : Fin 48) (f : SlotFault) (k : FaultKind) (r : Rack) : Rack :=
  logFault e k n.val { r with
    slots := change r.slots n fun x => { x with lastFault := some f } }

/-! ### Drains (R70 to R73) -/

/-- The requests that drain a slot (R70). A leak drain request carries the time left until the zone's
grace deadline. -/
inductive DrainRequest where
  | off
  | shed
  | rackDrain
  | leak (left : Nat)
  deriving DecidableEq, Repr

/-- The target of a request (R70). -/
def DrainRequest.target : DrainRequest → DrainTarget
  | .off => .off
  | .shed | .rackDrain => .shed
  | .leak _ => .isolated

/-- The cause of a request (R70, R71). -/
def DrainRequest.cause : DrainRequest → Cause
  | .off => .offRequest
  | .shed => .shedRequest
  | .rackDrain => .rackDrain
  | .leak _ => .leakDrain

/-- The deadline length of a request, from the profile or parameter in force (R70). -/
def drainLength (e : Env) (n : Fin 48) : DrainRequest → Nat
  | .off => (e.profile n).drainMs
  | .shed => e.shedDrainTime
  | .rackDrain => min (e.profile n).drainMs (1000 * e.drainTime)
  | .leak left => left

/-- A drain ends: a DRAINING slot enters its drain target as it stands (R72). -/
def endDrain (e : Env) (n : Fin 48) (cause : Cause) (r : Rack) : Rack :=
  match (r.slots[n]).state, (r.slots[n]).drain with
  | .draining, some d => enter e n d.target.state cause r
  | _, _ => r

/-- An ON slot begins to drain; with PARKED high, or with a length of 0, the drain ends at once
(R70). `between` is what the entry to DRAINING hands on before that end. -/
def beginDrain (e : Env) (between : Rack → Rack) (n : Fin 48) (q : DrainRequest) (r : Rack) : Rack :=
  let len := drainLength e n q
  let x := { (r.slots[n]).enter e.now .draining q.cause with
    drain := some ⟨q.target, ⟨e.now, len⟩⟩ }
  let r := changeRecord e n x r
  if x.parked then endDrain e n .parked (between r)
  else if len = 0 then endDrain e n .drainDeadline (between r)
  else r

/-- A drain in progress after a further request: the target of the higher rank, and the deadline with
less time left (R73). -/
def Drain.amend (d : Drain) (now : Time) (target : DrainTarget) (len : Nat) : Drain where
  target := if d.target.rank < target.rank then target else d.target
  deadline := if len < d.deadline.left now then ⟨now, len⟩ else d.deadline

/-- A drain is held as changed: the Account takes it and DRAIN_CHANGED is raised (R65, R73). -/
def holdDrain (e : Env) (n : Fin 48) (d : Drain) (r : Rack) : Rack :=
  let slots := change r.slots n fun x => { x with drain := some d }
  raise e .slot 2 n.val d.target.code
    { r with
      slots := slots
      acct.relief := shedRelief e slots
      todo.account := true }

/-- A request reaches a slot already DRAINING (R73). -/
def amendDrain (e : Env) (n : Fin 48) (q : DrainRequest) (r : Rack) : Rack :=
  match (r.slots[n]).drain with
  | some d =>
    let d' := d.amend e.now q.target (drainLength e n q)
    if d' = d then r else holdDrain e n d' r
  | none => r

/-- A drain request acts by the slot's state at the moment it arrives (R70, R71, R73, R75). -/
def drainWith (e : Env) (between : Rack → Rack) (q : DrainRequest) (n : Fin 48) (r : Rack) : Rack :=
  match (r.slots[n]).state, q with
  | .on, _ => beginDrain e between n q r
  | .starting, _ => enter e n q.target.state q.cause r
  | .draining, _ => amendDrain e n q r
  | .queued, .leak _ => enter e n .isolated .leakMove r
  | .shed, .leak _ => enter e n .isolated .leakMove r
  | _, _ => r

/-- A drain request that a block makes while it acts on an event: it has acted on that event before the
changes its requests make are taken as further ones (R58, R111, R114, R137). -/
def drain (e : Env) (q : DrainRequest) (n : Fin 48) (r : Rack) : Rack := drainWith e id q n r

/-! ### Cuts (R74, R75, R78) -/

/-- A leak cut or a grace-expiry cut (R74, R75). -/
def leakCut (e : Env) (n : Fin 48) (r : Rack) : Rack :=
  match (r.slots[n]).state with
  | .starting | .on | .draining | .queued | .shed => enter e n .isolated .leakMove r
  | .disabled | .off | .isolated | .faulted => r

/-- The state a SLOT_CUT puts a powered slot in: OFF, or ISOLATED when it drains to ISOLATED, since a
cut never lowers a target (R74). -/
def SlotRec.cutState (x : SlotRec) : SlotState :=
  match x.state, x.drain with
  | .draining, some d => if d.target = .isolated then .isolated else .off
  | _, _ => .off

/-! ### Restore (R89) -/

/-- Every SHED slot whose zone allows it enters QUEUED (R89). R89 gives the slots no order: they are
taken in rising slot index order, the model's choice (log entry 30). DESIGN CHOICE. -/
def restore (e : Env) (r : Rack) : Rack :=
  forEach (fun n r =>
    if (r.slots[n]).state = .shed ∧ e.slotZoneOpen n then enter e n .queued .queued r else r)
    (List.finRange 48) r

/-- The powered slots in slot index order take a request (R111, R114). -/
def drainAll (e : Env) (q : DrainRequest) (pick : Fin 48 → SlotRec → Bool) (r : Rack) : Rack :=
  forEach (fun n r => if pick n r.slots[n] then drain e q n r else r) (List.finRange 48) r

end Sys2Proof.Machine
end

