-- ==== Sys2Proof/Machine/Recharge.lean ====
section
/-! DEFINITION. The Recharge Allocator: members, frames and setpoints (R139 to R144), Rc as the Account
holds it (R54), and the health sample (R147). -/

namespace Sys2Proof.Machine

/-- The Account holds the Allocator's latest Rc and hands a change on (R51, R54). -/
def reportRc (rc : Nat) (r : Rack) : Rack :=
  if rc = r.acct.rc then r
  else { r with
    acct.rc := rc, todo.account := true, todo.pool := true, todo.head := true }

/-- A BU's setpoint is set and SET_RECHARGE with it is offered (R140, R143). -/
def sendSetpoint (e : Env) (j : Fin 12) (units : Nat) (r : Rack) : Rack :=
  offer e (.bu j) (.setRecharge units)
    { r with bu := change r.bu j fun b => { b with setpoint := units } }

/-- Rc is formed from the member set and reported (R142, R54). -/
def followRc (r : Rack) : Rack := reportRc (rechargeDraw r.rech.members) r

/-- A member leaves the set during the frame (R140). -/
def memberLeave (e : Env) (j : Fin 12) (r : Rack) : Rack :=
  match r.rech.members[j] with
  | some _ => followRc (sendSetpoint e j 0 { r with rech.members := put r.rech.members j none })
  | none => r

/-- A BU whose change of state ends its membership leaves the member set (R140). -/
def leaveMembers (e : Env) (j : Fin 12) (r : Rack) : Rack :=
  if (r.bu[j]).state.recharges then r else memberLeave e j r

/-- The number of members a frame formed now has (R140). -/
def joiners (r : Rack) : Nat := countOf 12 fun j => (r.bu[j]).joins

/-- The member set, shares and ceilings formed from the pool in force (R140, R142). -/
def formMembers (e : Env) (r : Rack) : Vector (Option Member) 12 :=
  Vector.ofFn fun j =>
    if (r.bu[j]).joins then
      some (memberOf (shareOf r.rech.pool (joiners r) (e.cfg.record.bus[j]).maxRecharge))
    else none

/-- Each member is sent the units of a control period; the other BUs that may hold a setpoint are
brought to 0 (R139, R140, R143). -/
def sendSetpoints (e : Env) (holds : Fin 12 → Bool) (p : Nat) (r : Rack) : Rack :=
  forEach (fun j r =>
    match r.rech.members[j] with
    | some x => sendSetpoint e j (unitsIn p x) r
    | none => if holds j then sendSetpoint e j 0 r else r) (List.finRange 12) r

/-- The BUs that may hold a setpoint as a frame starts: the members of the frame before (R140), and in
the first frame after a warm restart every present one (R139; log entry 43). -/
def mayHold (r : Rack) (j : Fin 12) : Bool :=
  (r.rech.members[j]).isSome || (r.rech.carried && (r.bu[j]).present)

/-- A frame starts at p = 1 with a start time, on a pool in force (R144). -/
def startFrame (e : Env) (start : Time) (pool : Nat) (r : Rack) : Rack :=
  let holds := mayHold r
  let r := { r with rech.pool := pool, rech.frame := some ⟨start, 1⟩, rech.carried := false }
  let r := { r with rech.members := formMembers e r }
  sendSetpoints e holds 1 (followRc r)

/-- The candidate pool is formed; while a frame runs, a candidate below the pool in force is taken at
once and the frame restarts (R141, R144). -/
def poolUpdate (e : Env) (r : Rack) : Rack :=
  let c := candidatePool e r
  let r := { r with rech.candidate := c }
  if r.rech.frame.isSome && c < r.rech.pool then startFrame e e.now c r else r

/-- The Allocator stops: pool, setpoints and Rc become 0, the frame stops, and SET_RECHARGE 0 is
offered to every present BU (R110, step 3; R144). -/
def stopRecharge (e : Env) (r : Rack) : Rack :=
  let r := { r with
    rech := initialRecharge
    bu := r.bu.map fun b => { b with setpoint := 0 } }
  let r := forEach (fun j r =>
    if (r.bu[j]).present then offer e (.bu j) (.setRecharge 0) r else r) (List.finRange 12) r
  reportRc 0 r

/-- The frame starts at the entry to NORMAL on the candidate as then formed (R118, step 6; R144). -/
def beginRecharge (e : Env) (r : Rack) : Rack :=
  let c := candidatePool e r
  startFrame e e.now c { r with rech.candidate := c }

/-- The offered counters are charged at the end of a complete control period (R145). -/
def chargeOffered (r : Rack) : Rack := { r with bu := r.bu.map BuRec.charge }

/-- The counters of a BU are reset (R145, R147, R152). -/
def BuRec.resetCounters (b : BuRec) : BuRec := { b with offered := 0, offeredRem := 0, accepted := 0 }

/-- The health sample at an entry to FULL (R147). -/
def healthSample (e : Env) (j : Fin 12) (r : Rack) : Rack :=
  let b := r.bu[j]
  let r := { r with bu := change r.bu j BuRec.resetCounters }
  if samples b then
    let h := acceptance b.offered b.accepted
    let r := { r with
      bu := change r.bu j fun b => { b with h := h }
      todo.hold := true, todo.battery := true }
    raise e .battery 2 j.val (h + 512 * b.h) r
  else r

end Sys2Proof.Machine
end

