-- ==== Sys2Proof/Machine/Account.lean ====
section
/-! DEFINITION. The Capacity Account: its figures (R46 to R51), the shortfall and its shed selections
(R56 to R59), and the capacity-restored event (R60). -/

namespace Sys2Proof.Machine

/-! ### Shed selection (R57, R58) -/

/-- A slot that a shed selection may take (R57). -/
def candidate (e : Env) (r : Rack) (n : Fin 48) : Bool :=
  ((r.slots[n]).state == .starting || (r.slots[n]).state == .on) && 1 ≤ e.rank n && e.rank n ≤ 3

/-- The age of a slot's latest grant; an absent grant_time counts as older than every one (R57). -/
def grantAge (e : Env) (r : Rack) (n : Fin 48) : Nat :=
  match (r.slots[n]).grantTime with
  | some t => age e.now t
  | none => Config.pinAge + 1

/-- The order in which candidates are taken (R57). -/
def shedBefore (e : Env) (r : Rack) (a b : Fin 48) : Bool :=
  if e.rank a ≠ e.rank b then e.rank a < e.rank b
  else if grantAge e r a ≠ grantAge e r b then grantAge e r a < grantAge e r b
  else b.val < a.val

/-- The candidates in the order they are taken (R57). -/
def candidates (e : Env) (r : Rack) : List (Fin 48) :=
  sortBy (shedBefore e r) ((List.finRange 48).filter (candidate e r))

/-- The candidates taken one at a time until the draws taken cover the deficit (R58). -/
def takeUntil (draw : Fin 48 → Nat) : Nat → List (Fin 48) → List (Fin 48)
  | _, [] => []
  | 0, _ => []
  | deficit, n :: ns => n :: takeUntil draw (deficit - draw n) ns

/-- The slots a selection takes (R58). -/
def selected (e : Env) (r : Rack) : List (Fin 48) :=
  takeUntil (drawOf e r) (uncovered e r) (candidates e r)

/-- A shed selection: each slot taken is handed a shed request, the deficit left is recorded, and
SHORTFALL_SHED is raised when a slot is taken or a deficit is left (R58). -/
def shedSelection (e : Env) (r : Rack) : Rack :=
  let taken := selected e r
  let r := forEach (drain e .shed) taken r
  let left := uncovered e r
  let r := { r with acct.recorded := left }
  if taken.isEmpty && left == 0 then r else raise e .capacity 3 taken.length left r

/-! ### Shortfall (R56, R58, R59) -/

/-- The entry to shortfall (R56), its effects in R56's order. The Allocator takes the flag here and its
pool falls to 0 at once (R141), before the selection, whose cuts may clear the flag again within the
step. -/
def enterShortfall (e : Env) (r : Rack) : Rack :=
  let r := { r with acct.shortfall := true, acct.recorded := 0 }
  let r := poolUpdate e (logFault e .capacityShort r.acct.nOn r)
  let r := raise e .capacity 2 r.acct.nOn (r.acct.s + e.baseLoad - r.acct.a) r
  shedSelection e r

/-- The subject of SHORTFALL_CLEARED: 0 when S + B ≤ A cleared the flag, and 1 when a change of grid
state or DECOMMISSION did (R59). -/
def clearSubject (e : Env) (r : Rack) : Nat :=
  if e.commissioned && r.grid.state == .normal then 0 else 1

/-- The shortfall flag clears (R59). -/
def clearShortfall (e : Env) (r : Rack) : Rack :=
  raise e .capacity 4 (clearSubject e r) (r.acct.a - (r.acct.s + e.baseLoad))
    { r with acct.shortfall := false, acct.recorded := 0, todo.pool := true }

/-- While the flag stays set the uncovered deficit is compared with the recorded one (R58). -/
def followDeficit (e : Env) (r : Rack) : Rack :=
  if r.acct.recorded < uncovered e r then shedSelection e r
  else { r with acct.recorded := uncovered e r }

/-- The Account evaluates shortfall (R56, R58, R59). -/
def evaluateShortfall (e : Env) (r : Rack) : Rack :=
  if r.acct.shortfall then
    if shortfallHolds e r then followDeficit e r else clearShortfall e r
  else if shortfallHolds e r then enterShortfall e r
  else r

/-! ### The figures (R46 to R51, R60) -/

/-- The figures from the tables as they stand (R46, R48, R49, R50). -/
def figures (e : Env) (r : Rack) : Account :=
  let g := grossCapacity e r
  let q := reserveOf e r
  { r.acct with
    nOn := onlineCount r
    g, q
    a := g - q
    adm := admissible (g - q) e.admitRatio
    redundancy := redundancyOf (onlineCount r) e.k (presentPsus r) }

/-- The figures are held, and a change of any is handed on (R51). -/
def holdFigure (x : Account) (r : Rack) : Rack :=
  if x = r.acct then r
  else { r with
    acct := x, todo.account := true, todo.pool := true, todo.head := true }

/-- The capacity-restored event, with the restore under auto-restore (R60). -/
def capacityRestored (e : Env) (r : Rack) : Rack :=
  let r := raise e .capacity 5 r.acct.nOn r.acct.a r
  if e.autoRestore then restore e r else r

/-- The Account computes its figures from the tables (R47): REDUNDANCY_CHANGED on a change of the
redundancy state (R49), then the shortfall test, then the capacity-restored event (R51, R60). -/
def computeAccount (e : Env) (r : Rack) : Rack :=
  if r.acct.takenUp then
    let old := r.acct
    let x := figures e r
    let r := holdFigure x r
    let r := if x.redundancy = old.redundancy then r
      else raise e .capacity 1 x.nOn x.redundancy.code r
    let r := evaluateShortfall e r
    if old.a < x.a ∧ r.grid.state = .normal ∧ e.commissioned then capacityRestored e r else r
  else r

/-- The Account takes up its figures at the end of the first complete poll cycle (R47). -/
def takeUp (e : Env) (r : Rack) : Rack :=
  if r.acct.takenUp then r else computeAccount e { r with acct.takenUp := true }

end Sys2Proof.Machine
end

