-- ==== Sys2Proof/Machine/Checks.lean ====
section
/-! DEFINITION. The Check Scheduler: due counts, evaluations, postponements, and the course and the
ends of a check (R148 to R155), with the evaluation of the Hold-Up Calculator that a BU's postponement
asks for at once (R130, R131). -/

namespace Sys2Proof.Machine

/-- An evaluation replaces the held figures whole; a change of D or L is handed to the Slot Sequencer
(R130, R131). -/
def evaluateFigures (e : Env) (r : Rack) : Rack :=
  let h := holdFigures e r
  { r with
    hold := h
    todo.head := r.todo.head || h.d != r.hold.d || h.l != r.hold.l }

/-- A due count is set, as a schedule change; a count of 0 has the BU evaluated (R149, R21). -/
def setDue (j : Fin 12) (seconds : Nat) (r : Rack) : Rack :=
  { r with
    bu := change r.bu j fun b => { b with due := seconds, dueMs := 0 }
    todo.battery := true
    todo.checks := if seconds = 0 then r.todo.checks ++ [j] else r.todo.checks }

/-- CHECK_ENDED is raised with an outcome (R157). -/
def checkEnded (e : Env) (j : Fin 12) (outcome : Nat) (r : Rack) : Rack :=
  raise e .battery 5 j.val outcome r

/-- The phase of a BU's check is set, and its sample deadline with it: present in SAMPLE_PENDING
alone (R148). -/
def setPhase (j : Fin 12) (p : CheckPhase) (d : Option Deadline) (r : Rack) : Rack :=
  { r with bu := change r.bu j fun b => { b with phase := p, sampleDeadline := d } }

/-- The active check ends; the end is handed to the Ride-Through Controller (R107, R148). -/
def endActive (j : Fin 12) (r : Rack) : Rack :=
  setPhase j .none none { r with active := none, todo.grid := true }

/-- A postponement (R151). The fourth in a row makes the BU stale, and the Calculator evaluates on that
before the next BU is looked at (R130). -/
def postpone (e : Env) (j : Fin 12) (reason : Nat) (r : Rack) : Rack :=
  let b := r.bu[j]
  let count := min Config.count8Max (b.postponed + 1)
  let stales := count == 4 && !b.stale
  let r := setDue j Config.postponeSeconds { r with
    bu := change r.bu j fun b => { b with postponed := count, stale := b.stale || stales } }
  let r := raise e .battery 4 j.val (count + 256 * reason) r
  if stales then evaluateFigures e (logFault e .checkStale (buAddress j) { r with todo.hold := true })
  else r

/-- One abort is counted (R148, R154, R155). -/
def countAbort (j : Fin 12) (r : Rack) : Rack :=
  { r with bu := change r.bu j fun b => { b with aborts := min Config.count8Max (b.aborts + 1) } }

/-- An abort of the check on a BU; STOP_CHECK is offered unless a report ended the check (R154). -/
def abortCheck (e : Env) (j : Fin 12) (stop : Bool) (r : Rack) : Rack :=
  let r := endActive j r
  let r := if stop then offer e (.bu j) .stopCheck r else r
  checkEnded e j 2 (countAbort j (setDue j 0 r))

/-- The active check, if any, is aborted (R110, step 4). -/
def abortActive (e : Env) (r : Rack) : Rack :=
  match r.active with
  | some a => abortCheck e a.bu true r
  | none => r

/-- A check that was not taken: outcome 3 and a postponement with reason 2 (R152). -/
def notTaken (e : Env) (j : Fin 12) (r : Rack) : Rack :=
  postpone e j 2 (checkEnded e j 3 (endActive j r))

/-- The first condition that fails at an evaluation, 0 when all hold (R150). -/
def checkReason (e : Env) (r : Rack) (j : Fin 12) : Nat :=
  if r.active.isSome then 1
  else if (r.bu[j]).state != .full then 2
  else if !e.zoneOpen (e.shelfZone (buShelf j)) then 3
  else if r.faults.held then 4
  else if excludedTime e r j < e.target then 5
  else 0

/-- The check a start requests: its depth and power (R150). -/
def newCheck (e : Env) (j : Fin 12) : ActiveCheck :=
  let s := e.cfg.record.bus[j]
  ⟨j, s.rated * s.depth / 100, min e.checkPower s.maxDischarge, e.now⟩

/-- A check starts: the BU leaves the member set, START_CHECK is offered and CHECK_STARTED raised
(R140, R150). A START_CHECK that the queue drops is a check not taken (R152). -/
def startCheck (e : Env) (j : Fin 12) (r : Rack) : Rack :=
  let c := newCheck e j
  let r := memberLeave e j (setPhase j .requested none r)
  let r := { r with active := some c, todo.grid := true }
  let r := offer e (.bu j) (.startCheck c.depth c.power) r
  let r := raise e .battery 3 j.val c.depth r
  if standing r (.bu j) (.startCheck c.depth c.power) then r else notTaken e j r

/-- A BU is due (R148). -/
def BuRec.isDue (b : BuRec) : Bool := b.due == 0 && b.phase == .none

/-- The evaluation of a due BU: nothing when it is not present, a start when every condition holds,
a postponement otherwise (R149, R150). -/
def evaluateCheck (e : Env) (j : Fin 12) (r : Rack) : Rack :=
  if (r.bu[j]).present && (r.bu[j]).isDue then
    if checkReason e r j = 0 then startCheck e j r else postpone e j (checkReason e r j) r
  else r

/-- The due BUs among some positions are evaluated in rising position order while the grid state is
NORMAL (R149). -/
def evaluateChecks (e : Env) (pick : Fin 12 → Bool) (r : Rack) : Rack :=
  forEach (fun j r =>
    if pick j && r.grid.state == .normal then evaluateCheck e j r else r) (List.finRange 12) r

/-! ### Reports of a BU under a check (R152 to R155) -/

/-- The delivery is complete (R152). -/
def deliver (e : Env) (j : Fin 12) (r : Rack) : Rack :=
  let r := endActive j r
  let r := setPhase j .samplePending (some ⟨e.now, Config.samplePendingMs⟩) r
  let r := setDue j Config.postponeSeconds { r with bu := change r.bu j BuRec.resetCounters }
  checkEnded e j 0 r

/-- A pending sample is dropped with an outcome; the due count is set by the caller (R153, R155,
R156). -/
def dropSample (e : Env) (j : Fin 12) (outcome : Nat) (r : Rack) : Rack :=
  checkEnded e j outcome (setPhase j .none none r)

/-- A pending sample completes its check at an entry to FULL (R153). -/
def complete (e : Env) (j : Fin 12) (r : Rack) : Rack :=
  let r := setPhase j .none none r
  let r := setDue j (86400 * e.checkInterval) { r with
    bu := change r.bu j fun b => { b with stale := false, postponed := 0 }
    todo.hold := true }
  let h := (r.bu[j]).h
  let r := checkEnded e j (1 + 16 * h) r
  if h < 128 then logFault e .checkFailed (buAddress j) r else r

/-- The Scheduler is told of a stray check (R155). -/
def strayCheck (e : Env) (j : Fin 12) (r : Rack) : Rack :=
  let r := if (r.bu[j]).phase = .samplePending then dropSample e j 2 r else r
  if (r.bu[j]).strayCounted then r
  else countAbort j (setDue j 0 { r with
    bu := change r.bu j fun b => { b with strayCounted := true } })

/-- A report reaches a BU in REQUESTED; `answered` says that it answers the START_CHECK (R152,
R154). -/
def reportRequested (e : Env) (j : Fin 12) (answered : Bool) (s : BuState) (r : Rack) : Rack :=
  match s with
  | .checking => setPhase j .running none r
  | .idle | .charging | .full => if answered then notTaken e j r else r
  | .discharging | .isolated => if answered then notTaken e j r else abortCheck e j false r
  | .failed | .lost | .absent => if answered then notTaken e j r else abortCheck e j true r

/-- A report reaches a BU in RUNNING (R152, R154). -/
def reportRunning (e : Env) (j : Fin 12) (s : BuState) (r : Rack) : Rack :=
  match s, r.active with
  | .checking, _ => r
  | .idle, some a | .charging, some a =>
    if a.depth ≤ (r.bu[j]).delivered then deliver e j r else abortCheck e j false r
  | .failed, _ | .lost, _ | .absent, _ => abortCheck e j true r
  | .idle, none | .charging, none | .full, _ | .discharging, _ | .isolated, _ =>
    abortCheck e j false r

/-- The Scheduler takes a report of a BU: its phase moves, a stray check is counted, and the stray
mark clears at a mode other than CHECKING (R152 to R155). -/
def reportCheck (e : Env) (j : Fin 12) (answered enteredFull : Bool) (r : Rack) : Rack :=
  let s := (r.bu[j]).state
  let r := if s = .checking then r
    else { r with bu := change r.bu j fun b => { b with strayCounted := false } }
  match (r.bu[j]).phase with
  | .requested => reportRequested e j answered s r
  | .running => reportRunning e j s r
  | .samplePending =>
    if s = .checking then strayCheck e j r else if enteredFull then complete e j r else r
  | .none => if s = .checking then strayCheck e j r else r

end Sys2Proof.Machine
end

