-- ==== Sys2Proof/Machine/RideThrough.lean ====
section
/-! DEFINITION. The Ride-Through Controller and the Hold-Up Calculator's evaluations: the grid states
and what moves the Controller between them (R109 to R118, R122, R130 to R134). -/

namespace Sys2Proof.Machine

/-- The value of GRID_STATE from the bounce count, the shed level of the state left, that state's
code and the drain flag (R122). -/
def gridValue (bounces level : Nat) (old : GridState) (drainFlag : Bool) : Nat :=
  bounces + 256 * level + 4096 * old.code + (if drainFlag then 65536 else 0)

/-- A change of grid state: GRID_STATE is raised with the level as it stood before (R122), and the
blocks that evaluate on the change are told, the Hold-Up Calculator at every change (R120, R130): at an
entry to NORMAL as R118's step 8, and at one to RIDE_THROUGH by the entry's own step (R110, R113). -/
def moveGrid (e : Env) (g : Grid) (level : Nat) (r : Rack) : Rack :=
  let old := r.grid.state
  raise e .grid 1 g.state.code (gridValue g.bounces level old g.drainFlag)
    { r with
      grid := g
      todo := { r.todo with account := true, pool := true, hold := true, head := true } }

/-! ### DRAIN and DARK (R114 to R116) -/

/-- ISOLATE is offered to a BU, and commanded isolation becomes isolate (R43). -/
def offerIsolate (e : Env) (j : Fin 12) (r : Rack) : Rack :=
  offer e (.bu j) .isolate
    { r with bu := change r.bu j fun b => { b with commandedIsolate := true } }

/-- RESTORE is offered to a BU, and commanded isolation becomes restore (R43). -/
def offerRestore (e : Env) (j : Fin 12) (r : Rack) : Rack :=
  offer e (.bu j) .restore
    { r with bu := change r.bu j fun b => { b with commandedIsolate := false } }

/-- The entry to DARK: ISOLATE is offered to every usable BU (R116). -/
def enterDark (e : Env) (r : Rack) : Rack :=
  let r := moveGrid e { r.grid with state := .dark } r.grid.level r
  forEach (fun j r => if (r.bu[j]).usable then offerIsolate e j r else r) (List.finRange 12) r

/-- The last permit is gone in DRAIN (R114, step 3; R115). -/
def darkDue (r : Rack) : Bool := r.grid.state == .drain && r.grid.powered == 0

/-- The entry to DRAIN (R114). -/
def enterDrain (e : Env) (r : Rack) : Rack :=
  let r := moveGrid e { r.grid with state := .drain, drainFlag := true } r.grid.level r
  let r := logFault e .drainStarted r.hold.usableCount r
  let r := drainAll e .rackDrain (fun _ x => x.state.powered) r
  if darkDue r then enterDark e r else r

/-! ### What the Controller does with an evaluation (R111, R131 to R134) -/

/-- ENERGY_SHORT is logged once in an event (R133). -/
def energyShort (e : Env) (r : Rack) : Rack :=
  if r.hold.t3 < e.target ∧ ¬ r.hold.shortLogged then
    logFault e .energyShort r.hold.usableCount { r with hold.shortLogged := true }
  else r

/-- The shed level rises to the required level, and SHED_LEVEL is raised if it rose (R132). -/
def raiseLevel (e : Env) (r : Rack) : Rack :=
  if r.grid.level < r.hold.required then
    raise e .grid 2 r.hold.required (r.hold.t + 65536 * r.hold.timeAt r.hold.required)
      { r with grid.level := r.hold.required }
  else r

/-- A slot that a level sheds: STARTING or ON, of a rank at or below the level and not 4 (R111). -/
def shedsAt (e : Env) (level : Nat) (n : Fin 48) (x : SlotRec) : Bool :=
  (x.state == .starting || x.state == .on) && e.rank n ≤ level && e.rank n != 4

/-- The Controller acts on an evaluation in RIDE_THROUGH while COMMISSIONED (R111, R119, R134). -/
def actOnHold (e : Env) (r : Rack) : Rack :=
  if r.grid.state = .rideThrough ∧ e.commissioned then
    let r := raiseLevel e (energyShort e r)
    if r.hold.drainHolds then enterDrain e r
    else drainAll e .shed (shedsAt e r.grid.level) r
  else r

/-- The Calculator evaluates and the Controller acts on the result (R130, R131). -/
def evaluateHold (e : Env) (r : Rack) : Rack :=
  actOnHold e (evaluateFigures e { r with todo.hold := false })

/-! ### Events (R110, R112, R113, R117) -/

/-- The Controller's fields at the beginning of an event (R110, step 1). -/
def Grid.begin (g : Grid) (now : Time) : Grid :=
  { g with
    state := .rideThrough, level := 0, inEvent := true, eventStart := some now, bounces := 0
    drainFlag := false, qualify := none, events := min 65535 (g.events + 1) }

/-- A ride-through event begins (R110). -/
def beginEvent (e : Env) (r : Rack) : Rack :=
  let r := moveGrid e (r.grid.begin e.now) 0 { r with hold.shortLogged := false }
  let r := evaluateShortfall e r
  let r := stopRecharge e r
  let r := abortActive e r
  evaluateHold e r

/-- The entry to QUALIFY: the timer is set and RESTORE is offered to every present BU that stands
commanded to isolate and is not leak-isolated (R113). -/
def enterQualify (e : Env) (r : Rack) : Rack :=
  let r := moveGrid e
    { r.grid with state := .qualify, qualify := some ⟨e.now, 1000 * e.qualifyTime⟩ } r.grid.level r
  forEach (fun j r =>
    if (r.bu[j]).present && (r.bu[j]).commandedIsolate && !(r.bu[j]).leakIsolated then
      offerRestore e j r
    else r) (List.finRange 12) r

/-- A bounce within an event (R113). -/
def bounce (e : Env) (r : Rack) : Rack :=
  let r := moveGrid e
    { r.grid with
      state := .rideThrough, qualify := none
      bounces := min Config.count8Max (r.grid.bounces + 1) } r.grid.level r
  evaluateHold e r

/-- The conditions of R107 and R108 are evaluated and acted on by grid state (R107, R111 to R113,
R115, R117). -/
def evaluateGrid (e : Env) (r : Rack) : Rack :=
  match r.grid.state with
  | .normal => if lossHolds e r then beginEvent e r else r
  | .rideThrough => if returnHolds e r then enterQualify e r else r
  | .qualify =>
    if lossHolds e r then (if r.grid.inEvent then bounce e r else beginEvent e r) else r
  | .dark => if psuReturn e r then enterQualify e r else r
  | .startup | .drain => r

/-- The Controller leaves STARTUP at the end of the first complete poll cycle (R109). -/
def leaveStartup (e : Env) (r : Rack) : Rack :=
  if r.grid.state = .startup then
    if lossHolds e r then beginEvent e r else enterQualify e r
  else r

/-- An armed commit is taken at the entry to NORMAL: the queue is sorted under the plan made active,
and PLAN_COMMITTED is raised (R14; R118, step 2). -/
def takeCommit (e : Env) (r : Rack) : Rack :=
  raise e .sequence 2 Config.planCommittedSubject.toNat Config.planCommittedValue.toNat
    (resortQueue e { r with todo.hold := true })

/-- The entry to NORMAL (R118). The environment already holds the plan that step 2 makes active. -/
def enterNormal (e : Env) (armed : Bool) (r : Rack) : Rack :=
  let r := moveGrid e { r.grid with state := .normal, qualify := none } r.grid.level r
  let r := if armed then takeCommit e r else r
  let r := { r with grid.level := 0, grid.inEvent := false }
  let r := if e.autoRestore then restore e r else r
  let r := evaluateShortfall e r
  let r := beginRecharge e r
  evaluateChecks e (fun _ => true) r

end Sys2Proof.Machine
end

