-- ==== Sys2Proof/Machine/Settle.lean ====
section
/-! DEFINITION. What a step hands on until nothing is left to hand on: the head of the Start Queue
with its grants (R101 to R104), the hand-ons of one slot's change and the passes that settle the rack
(R65, R137; log entry 4), and the poll cycle's end (R30, R127). -/

namespace Sys2Proof.Machine

/-! ### The head of the Start Queue (R101 to R104) -/

/-- The Start History with an entry appended; the oldest of four leaves (R93). -/
def appendHistory (h : List HistEntry) (x : HistEntry) : List HistEntry :=
  (if Config.historyMax ≤ h.length then h.drop 1 else h) ++ [x]

/-- The record of a granted slot (R66). -/
def SlotRec.grant (x : SlotRec) (now : Time) (deadline : Nat) : SlotRec :=
  { x.enter now .starting .grant with
    grantTime := some now
    goodDeadline := some ⟨now, deadline⟩ }

/-- A grant (R66, R102). -/
def grant (e : Env) (n : Fin 48) (r : Rack) : Rack :=
  let x := (r.slots[n]).grant e.now (e.profile n).goodDeadline
  let r := changeRecord e n x r
  { r with
    queue.gate := 0
    queue.detail := 0
    queue.timer := none
    queue.history :=
      appendHistory r.queue.history ⟨e.now, some (e.cfg.record.slots[n]).group⟩ }

/-- The head is evaluated: every gate passing grants it at once, and a failing gate is recorded with
the gate timer set afresh (R101 to R103). -/
def evaluateHead (e : Env) (r : Rack) : Rack :=
  match r.queue.head with
  | none => r
  | some h =>
    let gs := gates e r h.slot
    match firstFailing gs with
    | none => grant e h.slot r
    | some g =>
      { r with
        queue.gate := g.number
        queue.detail := g.detail
        queue.timer := if gateWait gs = 0 then none else some ⟨e.now, gateWait gs⟩ }

/-- The head's wait has reached the start wait limit and START_STALLED has not been sent for it
(R104). -/
def stallDue (e : Env) (r : Rack) : Bool :=
  match r.queue.head with
  | some h => !h.stallSent && decide (1000 * e.startWait ≤ elapsed e.now h.since)
  | none => false

/-- START_STALLED is raised for a head that an evaluation has not granted (R104). -/
def raiseStall (e : Env) (n : Fin 48) (r : Rack) : Rack :=
  match r.queue.head with
  | some h =>
    if h.slot = n then
      raise e .sequence 1 n.val (r.queue.gate + 16 * r.queue.detail)
        { r with queue.head := some { h with stallSent := true } }
    else r
  | none => r

/-- The head is evaluated at the moment its wait reaches the limit (R104). -/
def stall (e : Env) (r : Rack) : Rack :=
  match r.queue.head with
  | some h => raiseStall e h.slot (evaluateHead e r)
  | none => r

/-! ### Passes (log entry 4) -/

/-- Nothing but a battery area write is left to hand on. -/
def settled (r : Rack) : Bool :=
  !r.todo.grid && !r.todo.account && !r.todo.pool && !r.todo.hold && !r.todo.head
  && r.todo.checks.isEmpty && !darkDue r

/-- The hand-ons of all kinds but the head's, in the order in which a pass takes them. -/
def passBlocks (e : Env) (r : Rack) : Rack :=
  let r := if r.todo.grid then evaluateGrid e { r with todo.grid := false } else r
  let r := if darkDue r then enterDark e r else r
  let r := if r.todo.account then evaluateShortfall e { r with todo.account := false } else r
  let r := if r.todo.pool then poolUpdate e { r with todo.pool := false } else r
  let r := if r.todo.hold then evaluateHold e r else r
  let due := r.todo.checks
  if due.isEmpty then r
  else evaluateChecks e (fun j => due.contains j) { r with todo.checks := [] }

/-- Nothing but a judgement of the head and a battery area write is left to hand on. -/
def blocksSettled (r : Rack) : Bool := settled { r with todo.head := false }

/-- The blocks take what is handed on to them until nothing is left but the head's judgement. -/
def handOnFor (e : Env) : Nat → Rack → Rack
  | 0, r => r
  | k + 1, r => if blocksSettled r then r else handOnFor e k (passBlocks e r)

/-- What a change of one slot hands on within a command that goes on to the next slot: the blocks act on
it before the next change is made (R51, R52, R65, R130, R137). The head is judged at the command's end
(log entry 4). -/
def handOn (e : Env) (r : Rack) : Rack := handOnFor e Config.settleRounds r

/-- An operation on each of some slots in turn, each handed on before the next. -/
def eachHandedOn (e : Env) (f : Fin 48 → Rack → Rack) (ns : List (Fin 48)) (r : Rack) : Rack :=
  forEach (fun n r => handOn e (f n r)) ns r

/-- A drain request that a command makes: the entry to DRAINING is handed on before a drain that ends at
once ends (R65, R70, R130, R137). -/
def drainInTurn (e : Env) (q : DrainRequest) (n : Fin 48) (r : Rack) : Rack :=
  drainWith e (handOn e) q n r

/-- A slot that comes to be powered during a drain of the rack is handed the drain request as it
enters its state (R115). -/
def joinRackDrain (e : Env) (n : Fin 48) (r : Rack) : Rack :=
  if r.grid.state = .drain then drainInTurn e .rackDrain n r else r

/-- One pass: the blocks first; the head once nothing else is left (R101, R102). -/
def pass (e : Env) (r : Rack) : Rack :=
  let r := passBlocks e r
  if r.todo.head && settled { r with todo.head := false } then
    evaluateHead e { r with todo.head := false }
  else r

/-- The rack settles. -/
def settle (e : Env) : Nat → Rack → Rack
  | 0, r => r
  | k + 1, r => if settled r then r else settle e k (pass e r)

/-! ### The poll cycle (R30, R47, R109, R127) -/

/-- The cycle in progress has ended: its last due POLL has ended, or the positions still due have left
the polled set (R30, R31). R31 has such a position skipped when its turn comes and does not say when the
cycle ends if a lock takes all that are still due: it ends in the lock's own step, with a command in
flight or queued too, unless a POLL is in flight, the model's choice (log entry 53). DESIGN CHOICE. -/
def cycleOver (e : Env) (r : Rack) : Bool :=
  r.bus.cycle.isSome && (duePolls e r).isEmpty
  && (match r.bus.inFlight with
    | some t => t.cmd.isSome
    | none => true)

/-- The cycle ends on the bus (R30). -/
def Bus.endCycle (b : Bus) (now : Time) : Bus :=
  { b with
    cycle := none
    lateEnd := match b.cycle with
      | some c => decide (Config.pollPeriod < elapsed now c.began)
      | none => false }

/-- The measured-load sums are taken afresh unless a removal stands (R127). -/
def takeSums (r : Rack) : Rack :=
  if r.hold.removal then r
  else { r with hold.mOut := outputSum r, hold.mDis := dischargeSum r }

/-- The poll cycle end event: the sums, the Account's take-up, the move out of STARTUP, and an
evaluation (R30, R47, R109, R127, R130). R47 and R109 leave open which of the take-up and the move out
of STARTUP comes first: the take-up does, the model's choice (log entry 32). DESIGN CHOICE. -/
def endCycle (e : Env) (r : Rack) : Rack :=
  let r := takeSums { r with bus := r.bus.endCycle e.now }
  let r := leaveStartup e (takeUp e r)
  { r with todo.hold := true }

/-- The cycle's end is taken when it has come. -/
def followCycle (e : Env) (r : Rack) : Rack :=
  if cycleOver e r then settle e Config.settleRounds (endCycle e r) else r

/-- What every step ends with in the rack: the hand-ons, the cycle's end, and the arbiter (log entry
4). -/
def finishRack (e : Env) (r : Rack) : Rack :=
  arbitrate e (followCycle e (settle e Config.settleRounds r))

end Sys2Proof.Machine
end

