-- ==== Sys2Proof/Machine/Operands.lean ====
section
/-! DEFINITION. What commands carry: the status records of the shelf bus (R27, R28), the frames of the
rack link (R187, R188), and the payloads of the requests (R80, R192, R193). -/

namespace Sys2Proof.Machine

/-! ### Status records (R27, R28) -/

/-- A PSU_STATUS record (R27). -/
structure PsuReport where
  fault : Bool
  outputOn : Bool
  input : InputStatus
  capability : Nat
  output : Nat
  deriving DecidableEq, Repr

/-- A BU_STATUS record; the mode as the state it gives (R27, R42). -/
structure BuReport where
  mode : BuState
  energy : Nat
  discharge : Nat
  counter : Nat
  delivered : Nat
  deriving DecidableEq, Repr

/-- The input status a byte gives (R27). -/
def inputOf (b : Byte) : Option InputStatus :=
  match b.toNat with
  | 0 => some .ok
  | 1 => some .low
  | 2 => some .absent
  | _ => none

/-- The state a mode byte gives (R27, R42). -/
def modeOf (b : Byte) : Option BuState :=
  match b.toNat with
  | 0 => some .idle
  | 1 => some .charging
  | 2 => some .full
  | 3 => some .discharging
  | 4 => some .checking
  | 5 => some .isolated
  | 6 => some .failed
  | _ => none

/-- The head of a shelf bus frame is that of a response from an address, and its CRC-8 is correct
(R25, R28). -/
def frameFits (address kind len : Nat) (frame : List Byte) : Bool :=
  frame.length == len + 4
  && frame.take 3 == [BitVec.ofNat 8 address, BitVec.ofNat 8 kind, BitVec.ofNat 8 len]
  && frame.getLast? == some (crc8 frame.dropLast)

/-- The PSU_STATUS record that a valid response from an address carries (R27, R28). -/
def psuRecord (address : Nat) (frame : List Byte) : Option PsuReport :=
  if frameFits address 0x90 6 frame then
    match frame.drop 3 with
    | f :: i :: c1 :: c0 :: o1 :: o0 :: _ =>
      (inputOf i).map fun input =>
        ⟨f.getLsbD 0, f.getLsbD 1, input, fromBytes [c1, c0], fromBytes [o1, o0]⟩
    | _ => none
  else none

/-- The BU_STATUS record that a valid response from an address carries (R27, R28). -/
def buRecord (address : Nat) (frame : List Byte) : Option BuReport :=
  if frameFits address 0xA0 9 frame then
    match frame.drop 3 with
    | m :: e1 :: e0 :: d1 :: d0 :: c1 :: c0 :: k1 :: k0 :: _ =>
      (modeOf m).map fun mode =>
        ⟨mode, fromBytes [e1, e0], fromBytes [d1, d0], fromBytes [c1, c0], fromBytes [k1, k0]⟩
    | _ => none
  else none

/-- The transaction in flight with its window still open (R28, R29). -/
def openWindow (now : Time) (b : Bus) : Option Transaction :=
  b.inFlight.filter fun t => elapsed now t.began ≤ Config.responseWindow

/-- A frame is a valid response to the transaction in flight (R28). -/
def validResponse (now : Time) (b : Bus) (frame : List Byte) : Bool :=
  match openWindow now b with
  | some t =>
    match t.pos with
    | .psu i => (psuRecord (psuAddress i) frame).isSome
    | .bu j => (buRecord (buAddress j) frame).isSome
  | none => false

/-! ### Rack link frames (R187, R188) -/

/-- How a frame ends at the receiver (R188). -/
inductive FrameEnd where
  | tooLong
  | badCrc
  | good (f : LinkFrame)
  deriving DecidableEq, Repr

/-- The end of a frame from its bytes after the sync byte (R187, R188). -/
def frameEnd (bytes : List Byte) : FrameEnd :=
  match bytes with
  | len :: kind :: tag :: rest =>
    if 240 < len.toNat then .tooLong
    else
      let payload := rest.take len.toNat
      if (rest.drop len.toNat) == u16 (crc16 (len :: kind :: tag :: payload)).toNat then
        .good ⟨kind, tag, payload⟩
      else .badCrc
  | _ => .tooLong

/-! ### Request payloads -/

/-- The index a one-byte payload names, below a bound: BAD_LENGTH first, then BAD_INDEX. -/
def oneIndex (k : Nat) : List Byte → Except Byte (Fin k)
  | [b] => if h : b.toNat < k then .ok ⟨b.toNat, h⟩ else .error codeBadIndex
  | _ => .error codeBadLength

/-- A slot list's length is that of 1 to 48 indices (R80). -/
def slotListFits (payload : List Byte) : Bool := 1 ≤ payload.length && payload.length ≤ 48

/-- The entries of STAGE_PLAN: slot, rank, order (R12, R192). -/
def planEntries : List Byte → List (Nat × Nat × Nat)
  | s :: r :: o :: rest => (s.toNat, r.toNat, o.toNat) :: planEntries rest
  | _ => []

/-- A STAGE_PLAN's length is a whole number of 1 to 48 entries (R12). -/
def planFits (payload : List Byte) : Bool :=
  payload.length % 3 == 0 && 3 ≤ payload.length && payload.length ≤ 144

/-- Two-byte figures in order (R187). -/
def words : List Byte → List Nat
  | a :: b :: rest => fromBytes [a, b] :: words rest
  | _ => []

/-- The range of a parameter (R15). -/
def paramRange (id : Fin 16) : Nat × Nat :=
  match id.val with
  | 0 => (100, 30000)
  | 1 => (0, 30000)
  | 2 => (1000, 60000)
  | 3 => (1000, 600000)
  | 4 => (10, 3600)
  | 5 => (10, 3600)
  | 6 => (5, 120)
  | 7 => (0, 30000)
  | 8 => (1, 300)
  | 9 => (128, 256)
  | 10 => (0, 20000)
  | 11 => (192, 256)
  | 12 => (0, 1)
  | 13 => (0, 1)
  | 14 => (1, 365)
  | _ => (500, 5000)

/-- A parameter that SET_PARAM changes in NORMAL only (R15). -/
def normalOnly (id : Fin 16) : Bool := id == 5 || id == 6 || id == 7 || id == 11

/-- A profile with each field clamped to its range (R9, R10). -/
def Profile.clamped (p : Profile) : Profile where
  startW := clamp 0 12000 p.startW
  peakW := clamp 0 12000 p.peakW
  nominalW := clamp 0 12000 p.nominalW
  goodDeadline := clamp 500 10000 p.goodDeadline
  drainMs := clamp 0 60000 p.drainMs

/-- The profile a SET_PROFILE carries after its number (R192). -/
def profileFrom (payload : List Byte) : Profile :=
  let w := words payload
  ⟨w.getD 0 0, w.getD 1 0, w.getD 2 0, w.getD 3 0, w.getD 4 0⟩

/-- A leak action from its code (R162). -/
def leakActionOf (n : Nat) : Option LeakAction :=
  match n with
  | 0 => some .notifyOnly
  | 1 => some .isolateAfterGrace
  | 2 => some .isolateNow
  | _ => none

/-! ### COMMISSION_WRITE (R3, R193) -/

/-- The field length of a section kind (R193). -/
def fieldLength (kind : Nat) : Option Nat :=
  match kind with
  | 0 => some 3
  | 1 => some 13
  | 2 => some 2
  | 3 => some 9
  | 4 => some 3
  | 5 => some 5
  | _ => none

/-- The number of sections of a kind (R193). -/
def sectionCount (kind : Nat) : Nat :=
  match kind with
  | 0 => 1
  | 1 => 3
  | 2 => 18
  | 3 => 12
  | 4 => 48
  | 5 => 16
  | _ => 0

/-- A payload has the length of the section kind it names (R3, R193). -/
def sectionFits : List Byte → Bool
  | kind :: _ :: fields => fieldLength kind.toNat == some fields.length
  | _ => false

/-- A bay set as carried (R193). -/
def baySet (count : Byte) (bays : List Byte) : BaySet :=
  ⟨count.toNat, (bays.take count.toNat).map BitVec.toNat⟩

/-- An entry of a list, 0 past its end. -/
def figureAt (xs : List Byte) (i : Nat) : Nat := (xs.getD i 0).toNat

/-- A two-byte figure of a list. -/
def wordAt (xs : List Byte) (i : Nat) : Nat := fromBytes [xs.getD i 0, xs.getD (i + 1) 0]

/-- A table with the entry at a number replaced; a number past its end changes nothing. -/
def putAt {α : Type} {k : Nat} (v : Vector α k) (i : Nat) (x : α) : Vector α k :=
  if h : i < k then put v ⟨i, h⟩ x else v

/-- The record with one section replaced whole by the fields as carried (R3, R193). -/
def CommRecord.write (c : CommRecord) (kind index : Nat) (f : List Byte) : CommRecord :=
  match kind with
  | 0 => { c with rack := ⟨figureAt f 0, figureAt f 1, figureAt f 2⟩ }
  | 1 => { c with
      shelves := putAt c.shelves index
        ⟨baySet (f.getD 0 0) ((f.drop 1).take 6), baySet (f.getD 7 0) ((f.drop 8).take 4),
          figureAt f 12⟩ }
  | 2 => { c with psus := putAt c.psus index ⟨wordAt f 0⟩ }
  | 3 => { c with
      bus := putAt c.bus index ⟨wordAt f 0, wordAt f 2, wordAt f 4, wordAt f 6, figureAt f 8⟩ }
  | 4 => { c with slots := putAt c.slots index ⟨figureAt f 0, figureAt f 1, figureAt f 2⟩ }
  | 5 => { c with channels := putAt c.channels index ⟨figureAt f 0, wordAt f 1, wordAt f 3⟩ }
  | _ => c

/-! ### Validation (R5, R6) -/

/-- A zone field is in range: a zone or 255 (R2). -/
def zoneInRange (z : Nat) : Bool := z < 8 || z == 255

/-- A bay set holds no out-of-range count and no out-of-range bay (R6, R193). -/
def BaySet.inRange (b : BaySet) (k : Nat) : Bool := b.count ≤ k && b.bays.all fun x => x < k

/-- A shelf is not disabled by its own section (R6). -/
def ShelfSec.valid (s : ShelfSec) : Bool :=
  zoneInRange s.zone && s.psuBays.inRange 6 && s.buBays.inRange 4

/-- A BU section passes its test (R2, R6). -/
def BuSec.valid (b : BuSec) : Bool :=
  100 ≤ b.rated && b.rated ≤ 16000 && b.reserve ≤ b.rated / 2
  && 500 ≤ b.maxDischarge && b.maxDischarge ≤ 12000 && b.maxRecharge ≤ 5000
  && 5 ≤ b.depth && b.depth ≤ 50

/-- A PSU section passes its test (R2, R6). -/
def PsuSec.valid (p : PsuSec) : Bool := 500 ≤ p.rated && p.rated ≤ 6000

/-- A SLOT section passes its test (R2, R6). -/
def SlotSec.valid (s : SlotSec) : Bool := s.profile ≤ 7 && s.group ≤ 3 && zoneInRange s.zone

/-- A CHANNEL section is disabled (R6). -/
def ChanSec.disabled (c : ChanSec) : Bool :=
  !zoneInRange c.zone || 1023 < c.wet || 1023 < c.opn || c.opn ≤ c.wet

/-- Shelf s is inside the rack (R6). -/
def CommRecord.shelfInside (c : CommRecord) (s : Fin 3) : Bool := s.val < c.rack.shelfCount

/-- Shelf s is inside the rack and enabled (R6). -/
def CommRecord.shelfEnabled (c : CommRecord) (s : Fin 3) : Bool :=
  c.shelfInside s && (c.shelves[s]).valid

/-- A PSU position stands in the present set of its shelf. -/
def CommRecord.psuInSet (c : CommRecord) (i : Fin 18) : Bool :=
  (c.shelves[psuShelf i]).psuBays.bays.contains (psuBay i)

/-- A BU position stands in the present set of its shelf. -/
def CommRecord.buInSet (c : CommRecord) (j : Fin 12) : Bool :=
  (c.shelves[buShelf j]).buBays.bays.contains (buBay j)

/-- A PSU position is present under a locked record (R6, R24). -/
def CommRecord.psuPresent (c : CommRecord) (i : Fin 18) : Bool :=
  c.shelfEnabled (psuShelf i) && c.psuInSet i && (c.psus[i]).valid

/-- A BU position is present under a locked record (R6, R24). -/
def CommRecord.buPresent (c : CommRecord) (j : Fin 12) : Bool :=
  c.shelfEnabled (buShelf j) && c.buInSet j && (c.bus[j]).valid

/-- A slot inside the rack is enabled by commissioning (R6). -/
def CommRecord.slotEnabled (c : CommRecord) (n : Fin 48) : Bool :=
  n.val < c.rack.slotCount && (c.slots[n]).valid

/-- The marks and the five counts a validation gives (R5, R6). -/
def validate (c : CommRecord) (profiles : Vector Profile 8) : Marks where
  shelfOn := Vector.ofFn c.shelfEnabled
  slotOn := Vector.ofFn c.slotEnabled
  channelUsed := Vector.ofFn fun x => (zoneOf (c.channels[x]).zone).isSome && !(c.channels[x]).disabled
  disabledSlots := countOf 48 fun n => n.val < c.rack.slotCount && !(c.slots[n]).valid
  disabledPsus := countOf 18 fun i =>
    c.shelfInside (psuShelf i) && c.psuInSet i && !c.psuPresent i
  disabledBus := countOf 12 fun j => c.shelfInside (buShelf j) && c.buInSet j && !c.buPresent j
  disabledChannels := countOf 16 fun x => (c.channels[x]).zone != 255 && (c.channels[x]).disabled
  waitingSlots := countOf 48 fun n =>
    c.slotEnabled n && !(profiles[(c.slots[n]).profile]?.getD zeroProfile).valid

/-- The redundancy a lock takes: a value outside 0 to 2 is taken as 2 (R5). -/
def lockedK (k : Nat) : Nat := if 2 < k then 2 else k

end Sys2Proof.Machine
end

