-- ==== Sys2Proof/Machine/StoreOps.lean ====
section
/-! DEFINITION. The Configuration Store: which image is newest, where a write goes, what a load finds,
and the writes one after another (R19 to R23). -/

namespace Sys2Proof.Config

open Sys2Proof.Machine

/-- The bytes of a config image's content that its CRC is computed over (R19 gives them no layout). A
free value. Log entry 9. DESIGN CHOICE. -/
opaque configBytes : ConfigImage → List Byte

/-- The bytes of a battery image's content that its CRC is computed over (R19). A free value. Log entry
9. DESIGN CHOICE. -/
opaque batteryBytes : Vector BatteryEntry 12 → List Byte

/-- The CRC an image is left with by a write that failed or was cut short. Log entry 9. DESIGN CHOICE. -/
opaque residueCrc : Nat → BitVec 16

end Sys2Proof.Config

namespace Sys2Proof.Machine

/-! ### Images (R19, R22, R23) -/

/-- The CRC-16 of an image, over its save count and the bytes of its content (R19). -/
def imageCrc (count : Count32) (bytes : List Byte) : BitVec 16 := crc16 (u32 count.toNat ++ bytes)

/-- The CRC of a config image is correct (R19). -/
def ConfigSlot.crcOk (x : ConfigSlot) : Bool :=
  x.crc == imageCrc x.count (Config.configBytes x.content)

/-- The CRC of a battery image is correct (R19). -/
def BatterySlot.crcOk (x : BatterySlot) : Bool :=
  x.crc == imageCrc x.count (Config.batteryBytes x.content)

/-- The config image a successful write makes (R19). -/
def ConfigSlot.made (count : Count32) (c : ConfigImage) : ConfigSlot :=
  ⟨true, count, c, imageCrc count (Config.configBytes c)⟩

/-- The battery image a successful write makes (R19). -/
def BatterySlot.made (count : Count32) (c : Vector BatteryEntry 12) : BatterySlot :=
  ⟨true, count, c, imageCrc count (Config.batteryBytes c)⟩

/-- A CRC other than the correct one: the free value, or its complement where it would be correct (log
entry 9). -/
def wrongCrc (free : Nat) (correct : BitVec 16) : BitVec 16 :=
  if Config.residueCrc free = correct then ~~~correct else Config.residueCrc free

/-- What a config write that failed or was cut short leaves of its image (R19; log entry 9). -/
def ConfigSlot.residue (free : Nat) (c : ConfigImage) : ConfigSlot :=
  ⟨Config.residueMarked free, Config.residueCount free, c,
    wrongCrc free (imageCrc (Config.residueCount free) (Config.configBytes c))⟩

/-- What a battery write that failed or was cut short leaves of its image (R19; log entry 9). -/
def BatterySlot.residue (free : Nat) (c : Vector BatteryEntry 12) : BatterySlot :=
  ⟨Config.residueMarked free, Config.residueCount free, c,
    wrongCrc free (imageCrc (Config.residueCount free) (Config.batteryBytes c))⟩

/-- An image as the store judges it: its marker, save count and whether its CRC is correct. -/
structure ImageView where
  marked : Bool
  count : Count32
  crcOk : Bool
  deriving DecidableEq, Repr

/-- An image is valid when it is marked and its CRC is correct (R19). -/
def ImageView.valid (x : ImageView) : Bool := x.marked && x.crcOk

/-- Of two marked images the second is the newer: its count less the first's lies in 1 to 2^31 − 1,
modulo 2^32 (R19). -/
def secondNewer (first second : Count32) : Bool :=
  1 ≤ (second - first).toNat && (second - first).toNat ≤ 2 ^ 31 - 1

/-- What a load finds in an area (R22, R23). -/
inductive Loaded where
  | blank
  | image (second recovered : Bool)
  | corrupt
  deriving DecidableEq, Repr

/-- What a load finds in an area (R22, R23). -/
def loadFrom (a b : ImageView) : Loaded :=
  match a.marked, b.marked with
  | false, false => .blank
  | true, false => if a.crcOk then .image false false else .corrupt
  | false, true => if b.crcOk then .image true false else .corrupt
  | true, true =>
    if secondNewer a.count b.count then
      if b.crcOk then .image true false else if a.crcOk then .image false true else .corrupt
    else if a.crcOk then .image false false else if b.crcOk then .image true true else .corrupt

/-- A write goes to the second image: the first holds the newest valid content (R19). -/
def writesSecond (a b : ImageView) : Bool :=
  a.valid && !(b.valid && secondNewer a.count b.count)

/-- The save count of a write: one above that of the newest marked image, or 1 when none is marked
(R19). -/
def nextCount (a b : ImageView) : Count32 :=
  match a.marked, b.marked with
  | false, false => 1
  | true, false => a.count + 1
  | false, true => b.count + 1
  | true, true => (if secondNewer a.count b.count then b.count else a.count) + 1

/-- The first config image as judged. -/
def Store.configA (t : Store) : ImageView :=
  ⟨t.configFirst.marked, t.configFirst.count, t.configFirst.crcOk⟩

/-- The second config image as judged. -/
def Store.configB (t : Store) : ImageView :=
  ⟨t.configSecond.marked, t.configSecond.count, t.configSecond.crcOk⟩

/-- The first battery image as judged. -/
def Store.batteryA (t : Store) : ImageView :=
  ⟨t.batteryFirst.marked, t.batteryFirst.count, t.batteryFirst.crcOk⟩

/-- The second battery image as judged. -/
def Store.batteryB (t : Store) : ImageView :=
  ⟨t.batterySecond.marked, t.batterySecond.count, t.batterySecond.crcOk⟩

/-- The config image a write makes, put where it goes (R19). -/
def Store.putConfig (t : Store) (x : ConfigSlot) : Store :=
  if writesSecond t.configA t.configB then { t with configSecond := x }
  else { t with configFirst := x }

/-- The battery image a write makes, put where it goes (R19). -/
def Store.putBattery (t : Store) (x : BatterySlot) : Store :=
  if writesSecond t.batteryA t.batteryB then { t with batterySecond := x }
  else { t with batteryFirst := x }

/-- The write in progress has succeeded (R19, R20, R21). -/
def Store.written (t : Store) : Store :=
  match t.writing with
  | some (.config c) => t.putConfig (.made (nextCount t.configA t.configB) c)
  | some (.battery c) => t.putBattery (.made (nextCount t.batteryA t.batteryB) c)
  | none => t

/-- The write in progress has failed or was cut short: the other image stays intact, and what the
written image is left with is a free value (R19; log entry 9). -/
def Store.spoiled (t : Store) (free : Nat) : Store :=
  match t.writing with
  | some (.config c) => t.putConfig (.residue free c)
  | some (.battery c) => t.putBattery (.residue free c)
  | none => t

/-! ### Writes one after another (R20, R21) -/

/-- The config image of the working configuration (R20). -/
def WorkCfg.image (c : WorkCfg) : ConfigImage :=
  ⟨c.record, c.locked, c.profiles, c.active, c.params, c.leakTable⟩

/-- The working configuration a config image gives: the staged plan equals the active one and no
commit is armed (R1). -/
def ConfigImage.working (x : ConfigImage) : WorkCfg where
  record := x.record
  locked := x.locked
  profiles := x.profiles
  staged := x.active
  active := x.active
  armed := false
  params := x.params
  leakTable := x.leakTable

/-- The battery area entries from the Battery Table (R21). -/
def batteryContent (bu : Vector BuRec 12) : Vector BatteryEntry 12 :=
  bu.map fun b => ⟨b.h, b.stale, b.postponed, b.due, b.lockPresent⟩

/-- The write that goes next when none is in progress: a waiting SAVE_CONFIG first, then a waiting
battery write, each with its values at its start (R20, R21). -/
def Store.nextWrite (t : Store) (c : WorkCfg) (bu : Vector BuRec 12) : Store :=
  if t.writing.isSome then t
  else if t.saving then { t with writing := some (.config c.image) }
  else if t.batteryWaiting then
    { t with writing := some (.battery (batteryContent bu)), batteryWaiting := false }
  else t

/-- A trigger of a battery write: at most one is left waiting (R21). -/
def Store.trigger (t : Store) : Store := { t with batteryWaiting := true }

/-- A SAVE_CONFIG counts as in progress from its execution (R20). -/
def Store.save (t : Store) (tag : Byte) : Store := { t with saving := true, saveTag := some tag }

/-- The write in progress has ended, with a SAVE_CONFIG when it was a config write (R20, R21). -/
def Store.endWrite (t : Store) : Store :=
  match t.writing with
  | some (.config _) => { t with writing := none, saving := false, saveTag := none }
  | some (.battery _) => { t with writing := none }
  | none => t

end Sys2Proof.Machine
end

