-- ==== Sys2Proof/Machine/Whole.lean ====
section
/-! DEFINITION. The part as a whole: the environment its blocks read, what every command ends with,
replies on the rack link (R189 to R191), and the warm restart (R196). -/

namespace Sys2Proof.Machine

/-- What a command's meaning answers. -/
abbrev Outcome := Host.Outcome State Fault Refusal

/-! ### The environment -/

/-- What the rack's blocks read beside their own state. -/
def State.env (s : State) : Env where
  now := s.now
  cfg := s.cfg
  marks := s.marks
  zones := s.leak.zones.map Zone.state
  firstWindow := s.leak.firstWindow

/-- An operation of the rack's blocks. -/
def State.onRack (f : Env → Rack → Rack) (s : State) : State := { s with rack := f s.env s.rack }

/-! ### The end of every command -/

/-- A trigger of a battery area write raised in the step reaches the store (R21). -/
def State.followStore (s : State) : State :=
  let t := if s.rack.todo.battery then s.store.trigger else s.store
  { s with
    rack.todo.battery := false
    store := t.nextWrite s.cfg s.rack.bu }

/-- The payload of a notification frame (R187). -/
def Notif.payload (x : Notif) : List Byte :=
  u8 x.cls.index.val ++ u8 x.kind ++ u16 x.subject ++ stamp x.time ++ u32 x.value

/-- The transmit line when it is free: the reply if there is one, otherwise the oldest notification
(R191); nothing is begun while RESTART_N stands low (R196). -/
def State.transmit (s : State) : State :=
  match s.link.line with
  | .idle =>
    if s.boot.pinLow then s
    else match s.link.holder, s.rack.notif.entries with
      | some f, _ => { s with link.line := .reply (linkFrameBytes f.kind f.tag f.payload) }
      | none, x :: _ => { s with link.line := .notification (linkFrameBytes 0 0 x.payload) }
      | none, [] => s
  | .reply _ | .notification _ => s

/-- What every command ends with: the rack's hand-ons, the store and the transmit line (log entry
4). -/
def State.conclude (s : State) : State := (s.onRack finishRack).followStore.transmit

/-! ### Requests (R189, R190) -/

/-- The kind of a reply (R187). -/
def replyKind (kind : Byte) : Byte := kind ||| 0x80

/-- The reply is placed in the reply holder (R189). -/
def State.reply (s : State) (kind tag : Byte) (payload : List Byte) : State :=
  { s with link.holder := some ⟨replyKind kind, tag, payload⟩ }

/-- The oldest frame is executed now and is this one (R189). -/
def State.executes (s : State) (f : LinkFrame) : Bool :=
  s.link.rx.head? == some f && s.link.holder.isNone && !s.store.saving

/-- The frame being executed leaves the receive queue (R189). -/
def State.take (s : State) : State := { s with link.rx := s.link.rx.drop 1 }

/-- The part is loading the store or adopting its slots (R190). -/
def State.busy (s : State) : Bool := !s.boot.loaded || s.boot.adopting

/-- The result of a request's own rule: the state and the reply payload, with the reply code first. -/
abbrev Answer := State × List Byte

/-- A request that changes nothing and is answered with a code and figures. -/
def State.answer (s : State) (code : Byte) (figures : List Byte) : Answer := (s, code :: figures)

/-- The execution of a request frame: the checks of R190, then the request's own rule, the rack's
hand-ons, and the transmit line (R189, R190). `early` says that the request is taken before the part
has loaded or adopted. -/
def State.execute (s : State) (early : Bool) (kind tag : Byte) (payload : List Byte)
    (body : State → State) : State :=
  if s.executes ⟨kind, tag, payload⟩ then
    let s := s.take
    if tag = 0 then (s.reply kind tag [codeBadIndex]).conclude
    else if s.busy && !early then (s.reply kind tag [codeBusy]).conclude
    else (body s).conclude
  else s

/-- The execution of a request that is answered at its end (R189). -/
def State.serve (s : State) (early : Bool) (kind tag : Byte) (payload : List Byte)
    (body : State → Answer) : State :=
  s.execute early kind tag payload fun s => (body s).1.reply kind tag (body s).2

/-- A request whose payload is empty by the catalogue (R190, R192). -/
def noPayload (payload : List Byte) (body : State → Answer) (s : State) : Answer :=
  if payload.isEmpty then body s else s.answer codeBadLength []

/-- A request whose payload is one index byte (R190, R192). -/
def indexed (k : Nat) (payload : List Byte) (body : Fin k → State → Answer) (s : State) : Answer :=
  match oneIndex k payload with
  | .ok i => body i s
  | .error c => s.answer c []

/-- A check that fails with a code. -/
def checked (bad : Bool) (code : Byte) (body : State → Answer) (s : State) : Answer :=
  if bad then s.answer code [] else body s

/-- Safe Hold is on (R176). -/
def State.held (s : State) : Bool := s.rack.faults.held

/-- A slot's SLOT section names a profile (R10). -/
def State.namesProfile (s : State) (p : Fin 8) (n : Fin 48) : Bool :=
  (s.cfg.record.slots[n]).profile == p.val

/-! ### The warm restart (R196 and the rules its table names) -/

/-- The bus after a warm restart: its counters and the polled set are kept, and the transaction in
flight is abandoned (R24, R28, R29, R31, R33, R35). -/
def Bus.restart (b : Bus) : Bus :=
  { initialBus with
    transactions := b.transactions
    unanswered := b.unanswered
    badFrames := b.badFrames
    overrunCycles := b.overrunCycles
    polledSet := b.polledSet
    abandoned := match b.inFlight with
      | some t => some t.began
      | none => b.abandoned }

/-- A PSU record after a warm restart (R40). -/
def PsuRec.restart (x : PsuRec) : PsuRec :=
  if x.present then { x with reportPending := true, miss := 0 } else x

/-- A BU's check after a warm restart (R148). -/
def BuRec.restartCheck (b : BuRec) : BuRec :=
  let b := { b with strayCounted := false }
  if b.phase.active then { b with phase := .none, sampleDeadline := none, due := 0, dueMs := 0 }
  else b

/-- A BU record after a warm restart (R43, R139, R148). -/
def BuRec.restart (b : BuRec) : BuRec :=
  let b := { b.restartCheck with setpoint := 0 }
  if b.present then { b with reportPending := true, miss := 0 } else b

/-- A slot record between a warm restart and its adoption (R62, R82, R83). The last cause of a slot that
then stands DISABLED is given by no rule: the earlier cause is kept, the model's choice (log entry 33).
DESIGN CHOICE. -/
def SlotRec.restart (x : SlotRec) (usable : Bool) : SlotRec where
  state := if usable then .off else .disabled
  offSince := x.offSince
  grantTime := none
  queueTime := none
  drain := none
  goodDeadline := none
  lastFault := x.lastFault
  cause := x.cause
  good := false
  parked := false
  permit := x.permit
  warn := x.warn

/-- The Start Queue after a warm restart, its History seeded (R85, R93, R103). -/
def seededQueue (now : Time) : StartQueue :=
  { initialQueue with history := List.replicate Config.historyMax ⟨now, none⟩ }

/-- The rack's blocks after a warm restart. The figures that R138 reports for each BU stand at no and 0
until the first evaluation, which R123's table leaves open: the model's choice (log entry 54). DESIGN
CHOICE. -/
def Rack.restart (e : Env) (r : Rack) : Rack where
  bus := r.bus.restart
  psu := r.psu.map PsuRec.restart
  bu := r.bu.map BuRec.restart
  acct := initialAccount
  slots := Vector.ofFn fun n => (r.slots[n]).restart (e.usable n)
  queue := seededQueue e.now
  grid := { initialGrid with events := r.grid.events }
  hold := initialHoldUp
  rech := { initialRecharge with carried := true }
  active := none
  faults := r.faults
  notif := emptyNotifQueue
  todo := emptyTodo

/-- The Rack Link Port after a warm restart (R188, R189, R191, R196). -/
def Link.restart (l : Link) : Link :=
  { l with rxState := .hunting, rx := [], holder := none, line := .idle, restartOwed := false }

/-- The warm restart. A part that has not loaded its store goes on loading and has no slot to adopt
before it has (R22, R83). -/
def State.warmRestart (s : State) : State :=
  { s with
    boot := { s.boot with adopting := true, restartAt := s.now }
    cfg := { s.cfg with armed := false }
    store := { s.store with saveTag := none }
    link := s.link.restart
    inputs := firstSample s.now
    rack := s.rack.restart s.env }

end Sys2Proof.Machine
end

