-- ==== Sys2Proof/Machine/Reports.lean ====
section
/-! DEFINITION. The figures the read requests report, in the order their rules name them and in the
widths R187 gives (log entries 12 and 13). -/

namespace Sys2Proof.Machine

/-! ### READ_RACK (R194) -/

/-- Section 0: the Capacity Account (R61). -/
def accountFigures (e : Env) (r : Rack) : List Byte :=
  let a := r.acct
  flag a.takenUp ++ u8 a.nOn ++ u32 (presentPsus r) ++ u8 e.k ++ u32 a.g ++ u16 a.q ++ u32 a.a
  ++ u32 a.adm ++ u32 a.s ++ u16 e.baseLoad ++ u16 a.rc ++ u8 a.redundancy.code
  ++ flag a.shortfall ++ u32 a.recorded ++ u32 a.relief

/-- The byte for the group of a Start History entry. -/
def HistEntry.groupByte (x : HistEntry) : List Byte :=
  match x.group with
  | some g => u8 g
  | none => [Config.historyAllCode]

/-- Section 1: the Start Queue, its head, the gate timer, the Start History and the queued slots
(R93, R105). -/
def queueFigures (e : Env) (r : Rack) : List Byte :=
  let q := r.queue
  u8 q.entries.length
  ++ optional u8 0 (q.head.map fun h => h.slot.val)
  ++ optional u32 0 (q.head.map fun h => elapsed e.now h.since)
  ++ optional flag false (q.head.map QueueHead.stallSent)
  ++ u8 q.gate ++ u32 q.detail
  ++ optional u32 0 (q.timer.map (Deadline.left e.now))
  ++ listed (fun x => stamp x.time ++ x.groupByte) q.history
  ++ listed (fun n => u8 n.val) q.entries

/-- The Ride-Through Controller's figures (R121). -/
def gridFigures (e : Env) (r : Rack) : List Byte :=
  let g := r.grid
  u8 g.state.code ++ u8 g.level ++ flag g.inEvent ++ optional stamp 0 g.eventStart
  ++ u8 g.bounces ++ flag g.drainFlag ++ optional u32 0 (g.qualify.map (Deadline.left e.now))
  ++ u16 g.events ++ u8 g.powered ++ flag (lossHolds e r) ++ flag (returnHolds e r)

/-- The Hold-Up Calculator's held figures (R138). -/
def holdUpFigures (h : HoldUp) : List Byte :=
  flag h.evaluated ++ optional stamp 0 h.lastTime ++ u8 h.usableCount ++ u32 h.u ++ u32 h.d
  ++ u32 h.p ++ u32 h.mOut ++ u32 h.mDis ++ flag h.removal ++ u32 h.m ++ u32 h.l ++ u16 h.t
  ++ u32 h.x1 ++ u32 h.x2 ++ u32 h.x3 ++ u16 h.t1 ++ u16 h.t2 ++ u16 h.t3
  ++ u8 h.required ++ flag h.drainHolds ++ flag h.shortLogged

/-- The number of members of the frame (R140). -/
def memberCount (r : Rack) : Nat := countOf 12 fun j => (r.rech.members[j]).isSome

/-- Section 3: the Recharge Allocator and the active check (R157). -/
def rechargeFigures (r : Rack) : List Byte :=
  let a := r.rech
  u32 a.pool ++ u32 a.candidate ++ flag a.frame.isSome
  ++ optional stamp 0 (a.frame.map RechargeFrame.start)
  ++ optional u8 0 (a.frame.map RechargeFrame.period)
  ++ u32 (memberCount r) ++ u16 r.acct.rc
  ++ optional u8 0 (r.active.map fun c => c.bu.val)

/-- Section 4: the lock state, the Rack Time Counter, the first-window flag, the shelf bus counters
and the rack link counters (R194). -/
def countFigures (s : State) : List Byte :=
  let b := s.rack.bus
  let l := s.link
  Config.lockStateCode s.cfg.locked :: stamp s.now ++ flag s.leak.firstWindow
  ++ u32 b.transactions.toNat ++ u32 b.unanswered.toNat ++ u32 b.badFrames.toNat
  ++ u32 b.overrunCycles.toNat
  ++ u32 l.stray.toNat ++ u32 l.lengthErrors.toNat ++ u32 l.gaps.toNat ++ u32 l.crcErrors.toNat
  ++ u32 l.good.toNat ++ u32 l.overruns.toNat

/-- The figures of a section (R194). -/
def sectionFigures (s : State) (number : Fin 5) : List Byte :=
  match number.val with
  | 0 => accountFigures s.env s.rack
  | 1 => queueFigures s.env s.rack
  | 2 => gridFigures s.env s.rack ++ holdUpFigures s.rack.hold
  | 3 => rechargeFigures s.rack
  | _ => countFigures s

/-! ### READ_SLOT, READ_MODULE, READ_BATTERY (R81, R194) -/

/-- A slot's record (R81). -/
def slotFigures (e : Env) (r : Rack) (n : Fin 48) : List Byte :=
  let x := r.slots[n]
  let c := e.cfg.record.slots[n]
  u8 x.state.code ++ u8 c.profile ++ u8 c.group ++ u8 c.zone ++ u8 (e.rank n) ++ u8 (e.order n)
  ++ flag x.permit ++ flag x.warn ++ flag x.good ++ flag x.parked ++ stamp x.offSince
  ++ optional stamp 0 x.grantTime ++ optional stamp 0 x.queueTime
  ++ optional u8 0 (x.drain.map fun d => d.target.code)
  ++ optional u32 0 (x.drain.map fun d => d.deadline.left e.now)
  ++ optional u32 0 (x.goodDeadline.map (Deadline.left e.now))
  ++ optional u8 0 (x.lastFault.map SlotFault.code)
  ++ u8 x.cause.code

/-- A PSU's record with its contribution and whether its position is present or a discovery record (R38,
R194). A position that is neither, not present while COMMISSIONED, is sent the mark of a discovery record,
the model's choice (log entry 42). DESIGN CHOICE. No rule states a range of C_m's own, so it takes 4 bytes:
the model's reading of R187 (log entry 13). DEDUCED. -/
def moduleFigures (e : Env) (r : Rack) (i : Fin 18) : List Byte :=
  let x := r.psu[i]
  u8 i.val ++ flag x.present ++ u8 x.state.code ++ u16 x.capability ++ u16 x.output
  ++ u8 x.input.code ++ u8 x.miss ++ stamp x.lastReport ++ flag x.reportPending
  ++ flag x.commandedOn ++ u32 (contribution e r i) ++ [Config.positionKindCode x.present]

/-- The record of R41. -/
def batteryRecord (j : Fin 12) (b : BuRec) : List Byte :=
  u8 j.val ++ flag b.present ++ u8 b.state.code ++ u16 b.energy ++ u16 b.discharge
  ++ u16 b.delivered ++ u16 b.lastCounter ++ [Config.baselineCode b.baseline] ++ u8 b.miss
  ++ stamp b.lastReport
  ++ flag b.reportPending ++ [Config.isolationCode b.commandedIsolate] ++ flag b.leakIsolated
  ++ u16 b.h ++ flag b.stale ++ u8 b.postponed ++ u32 b.due ++ u32 b.offered ++ u16 b.offeredRem
  ++ u32 b.accepted ++ u8 b.setpoint

/-- The active check when it is on this BU. -/
def activeOn (r : Rack) (j : Fin 12) : Option ActiveCheck := r.active.filter fun c => c.bu == j

/-- The figures of chapter 8 for a BU (R157). No rule states a range of the active check's power of its
own: it takes the 2 bytes of the START_CHECK field that carries it, the model's reading of R187 (R26, R150;
log entry 13). DEDUCED. -/
def checkFigures (r : Rack) (j : Fin 12) : List Byte :=
  let b := r.bu[j]
  let m := r.rech.members[j]
  u8 b.setpoint ++ optional u16 0 (m.map Member.share) ++ optional u8 0 (m.map Member.q)
  ++ optional u8 0 (m.map Member.f) ++ optional u8 0 (m.map Member.ceiling)
  ++ u32 b.offered ++ u16 b.offeredRem ++ u32 b.accepted ++ u16 b.h ++ flag b.stale
  ++ u8 b.postponed ++ u32 b.due ++ u8 b.phase.code ++ u8 b.aborts
  ++ optional u16 0 ((activeOn r j).map ActiveCheck.depth)
  ++ optional u16 0 ((activeOn r j).map ActiveCheck.power)
  ++ optional stamp 0 ((activeOn r j).map ActiveCheck.requested)

/-- A BU's record with the figures that R138 and R157 give it (R194). -/
def batteryFigures (r : Rack) (j : Fin 12) : List Byte :=
  let f := r.hold.perBu[j]
  batteryRecord j r.bu[j] ++ flag f.usable ++ u16 f.hEff ++ u16 f.u ++ checkFigures r j

/-! ### Zones as they act (R4, R158, R162) -/

/-- The zone a channel stands in, none when it is unused: zone 0 for every channel while
UNCOMMISSIONED (R4, R158). -/
def State.channelZone (s : State) (c : Fin 16) : Option (Fin 8) :=
  if s.cfg.locked then
    if s.marks.channelUsed[c] then zoneOf (s.cfg.record.channels[c]).zone else none
  else some 0

/-- A channel's wet threshold (R4, R158). -/
def State.wetAt (s : State) (c : Fin 16) : Nat :=
  if s.cfg.locked then (s.cfg.record.channels[c]).wet else 256

/-- A channel's open threshold (R4, R158). -/
def State.openAt (s : State) (c : Fin 16) : Nat :=
  if s.cfg.locked then (s.cfg.record.channels[c]).opn else 960

/-- The used channels of a zone in channel order. -/
def State.zoneChannels (s : State) (z : Fin 8) : List (Fin 16) :=
  (List.finRange 16).filter fun c => s.channelZone c == some z

/-- The action a zone acts by: zone 0 acts as NOTIFY_ONLY while UNCOMMISSIONED (R4, R162). -/
def State.action (s : State) (z : Fin 8) : LeakAction :=
  if !s.cfg.locked && z.val == 0 then .notifyOnly else (s.cfg.leakTable[z]).action

/-- One channel as READ_ZONE lists it (R173). -/
def channelFigures (s : State) (c : Fin 16) : List Byte :=
  let x := s.leak.channels[c]
  u8 c.val ++ u8 x.state.code ++ u8 x.wetCount ++ u8 x.openCount ++ u8 x.dryCount ++ u8 x.dryRun
  ++ optional u16 0 x.level ++ u16 (s.wetAt c) ++ u16 (s.openAt c)

/-- A zone's record (R173). -/
def zoneFigures (s : State) (z : Fin 8) : List Byte :=
  let x := s.leak.zones[z]
  let t := s.cfg.leakTable[z]
  u8 x.state.code ++ u8 (s.action z).code ++ u16 t.grace ++ flag t.shelfIsolate
  ++ optional stamp 0 x.alarmTime ++ optional u32 0 (x.grace.map (Deadline.left s.now))
  ++ bitSet x.shelves ++ listed (channelFigures s) (s.zoneChannels z)

/-! ### READ_FAULTS and CLEAR_FAULT (R177, R178) -/

/-- A bank record (R175). -/
def bankFigures (b : Bank) : List Byte :=
  flag b.valid ++ u8 b.code ++ u8 b.severity ++ u32 b.subject ++ stamp b.time ++ u8 b.overflow

/-- The figures of READ_FAULTS (R178). -/
def faultFigures (f : Faults) (q : NotifQueue) : List Byte :=
  f.banks.toList.flatMap bankFigures ++ flag f.inProgress ++ flag f.held
  ++ optional stamp 0 (f.hold.map HoldInfo.time)
  ++ optional (fun x : Nat × Nat => u8 x.1 ++ u8 x.2) (0, 0) (f.hold.map fun h => (h.bank, h.code))
  ++ u8 q.entries.length ++ flag q.globalMask ++ q.masks.toList.flatMap flag
  ++ q.pending.toList.flatMap flag ++ q.lost.toList.flatMap u16

/-! ### IDENTIFY (R195) -/

/-- The part number (R195). -/
def partNumber : Nat := 4816

/-- Leaf 1: the capacities (R195). -/
def capacityLeaf : List Byte :=
  u32 48 ++ u32 18 ++ u32 12 ++ u32 16 ++ u32 8 ++ u32 8 ++ u32 Config.notifQueueMax

/-- A count reported while COMMISSIONED and 0 otherwise (R195). -/
def whenLocked (s : State) (n : Nat) : Nat := if s.cfg.locked then n else 0

/-- Leaf 2: the commissioning summary (R195). While UNCOMMISSIONED R195 gives 0 for the counts and says
of k only that it is as validated: k is sent as 0 there too, the model's choice (log entry 36). DESIGN
CHOICE. -/
def commissionLeaf (s : State) : List Byte :=
  let c := s.cfg.record.rack
  let m := s.marks
  Config.lockStateCode s.cfg.locked :: u8 (whenLocked s c.shelfCount) ++ u8 (whenLocked s c.k)
  ++ u8 (whenLocked s c.slotCount)
  ++ u32 (whenLocked s (presentPsus s.rack)) ++ u32 (whenLocked s (presentBus s.rack))
  ++ u32 (whenLocked s m.disabledSlots) ++ u32 (whenLocked s m.disabledPsus)
  ++ u32 (whenLocked s m.disabledBus) ++ u32 (whenLocked s m.disabledChannels)
  ++ u32 (whenLocked s m.waitingSlots)
  ++ u32 (whenLocked s (countOf 16 fun x => m.channelUsed[x]))

/-- The record of a leaf, which begins with the leaf number (R195). -/
def leafFigures (s : State) (leaf : Byte) : List Byte :=
  leaf :: (match leaf.toNat with
    | 0 => text "Brenholt" ++ u32 partNumber ++ u32 1
    | 1 => capacityLeaf
    | 2 => commissionLeaf s
    | _ => [])

end Sys2Proof.Machine
end

