-- ==== Sys2Proof/Machine/Leaks.lean ====
section
/-! DEFINITION. The Leak Monitor: zones and what they do to slots and shelves (R162 to R169), a sample
of a channel (R159, R160), and the release of a zone (R171, R76). -/

namespace Sys2Proof.Machine

/-- The slots of a zone in slot index order (R162). -/
def Env.zoneSlots (e : Env) (z : Fin 8) : List (Fin 48) :=
  (List.finRange 48).filter fun n => e.slotZone n == some z

/-- The enabled shelves of a zone in rising order (R167). -/
def State.zoneShelves (s : State) (z : Fin 8) : List (Fin 3) :=
  (List.finRange 3).filter fun h => s.marks.shelfOn[h] && s.env.shelfZone h == some z

/-- A zone's record changed. -/
def State.changeZone (s : State) (z : Fin 8) (f : Zone → Zone) : State :=
  { s with leak.zones := change s.leak.zones z f }

/-- A change of the head slot's zone is a change of gate inputs (R101). -/
def headZone (e : Env) (z : Fin 8) (r : Rack) : Rack :=
  match r.queue.head with
  | some h => if e.slotZone h.slot = some z then { r with todo.head := true } else r
  | none => r

/-- ZONE_STATE is raised, and the change is handed to the Slot Sequencer (R162). -/
def State.zoneRaised (s : State) (z : Fin 8) : State :=
  let value := (s.leak.zones[z]).state.code + 16 * (s.action z).code
  s.onRack fun e r => raise e .leak 2 z.val value (headZone e z r)

/-- A zone takes a state; a change raises ZONE_STATE (R162). -/
def State.setZone (s : State) (z : Fin 8) (x : ZoneState) : State :=
  if (s.leak.zones[z]).state = x then s
  else (s.changeZone z fun r => { r with state := x }).zoneRaised z

/-! ### Isolation (R164 to R167) -/

/-- OUTPUT_OFF is offered to a PSU, and commanded output becomes off (R38). -/
def offerOutputOff (e : Env) (i : Fin 18) (r : Rack) : Rack :=
  offer e (.psu i) .outputOff { r with psu := change r.psu i fun x => { x with commandedOn := false } }

/-- OUTPUT_ON is offered to a PSU, and commanded output becomes on (R38). -/
def offerOutputOn (e : Env) (i : Fin 18) (r : Rack) : Rack :=
  offer e (.psu i) .outputOn { r with psu := change r.psu i fun x => { x with commandedOn := true } }

/-- A BU becomes leak-isolated: ISOLATE is offered, and it leaves the member set (R167, step 3;
R140). -/
def leakIsolate (e : Env) (j : Fin 12) (r : Rack) : Rack :=
  memberLeave e j (offerIsolate e j
    { r with bu := change r.bu j fun b => { b with leakIsolated := true } })

/-- The Check Scheduler is told of a BU made leak-isolated (R167, step 4; R154). -/
def tellIsolated (e : Env) (j : Fin 12) (r : Rack) : Rack :=
  if checksBu r j then abortCheck e j true r else r

/-- One shelf's modules are taken off the busbar (R167, steps 2 to 4). -/
def isolateModules (e : Env) (h : Fin 3) (r : Rack) : Rack :=
  let psus := (shelfPsus h).filter fun i => (r.psu[i]).present
  let bus := (shelfBus h).filter fun j => (r.bu[j]).present
  forEach (tellIsolated e) bus (forEach (leakIsolate e) bus (forEach (offerOutputOff e) psus r))

/-- The shelves of a zone are isolated (R167). -/
def State.isolateShelves (s : State) (z : Fin 8) : State :=
  forEach (fun h s =>
    (s.changeZone z fun x => { x with shelves := put x.shelves h true }).onRack fun e r =>
      isolateModules e h r) (s.zoneShelves z) s

/-- A zone isolates, at once or at its grace deadline: the grace deadline becomes absent, the state
becomes ISOLATED, its slots are cut or moved, and its shelves follow when the setting is on (R165,
R166). -/
def State.isolateZone (s : State) (z : Fin 8) : State :=
  let s := (s.changeZone z fun x => { x with grace := none, state := .isolated }).zoneRaised z
  let s := s.onRack fun e r => eachHandedOn e (leakCut e) (e.zoneSlots z) r
  if (s.cfg.leakTable[z]).shelfIsolate then s.isolateShelves z else s

/-- Each slot of a zone is handed a leak drain request with the time left (R164). -/
def State.leakDrains (s : State) (z : Fin 8) (left : Nat) : State :=
  s.onRack fun e r => eachHandedOn e (drainInTurn e (.leak left)) (e.zoneSlots z) r

/-- A grace begins (R164). -/
def State.beginGrace (s : State) (z : Fin 8) : State :=
  let len := 1000 * (s.cfg.leakTable[z]).grace
  (s.changeZone z fun x => { x with grace := some ⟨s.now, len⟩ }).leakDrains z len

/-- The entry to ALARM (R163). -/
def State.enterAlarm (s : State) (z : Fin 8) : State :=
  let s := s.changeZone z fun x => { x with state := .alarm, alarmTime := some s.now }
  let s := s.onRack fun e r => logFault e .leakConfirmed z.val r
  let s := s.zoneRaised z
  match s.action z with
  | .notifyOnly => s
  | .isolateAfterGrace => s.beginGrace z
  | .isolateNow => s.isolateZone z

/-! ### Samples (R159 to R162) -/

/-- The states of a zone's used channels. -/
def State.zoneChannelStates (s : State) (z : Fin 8) : List ChanState :=
  (s.zoneChannels z).map fun c => (s.leak.channels[c]).state

/-- A zone that is not latched follows its used channels (R162). Between a warm restart and the
adoption an entry to ALARM waits for the adoption (R172). -/
def State.followZone (s : State) (z : Fin 8) : State :=
  if (s.leak.zones[z]).state.latched then s
  else match zoneFollows (s.zoneChannelStates z) with
    | .alarm => if s.boot.adopting then s else s.enterAlarm z
    | x => s.setZone z x

/-- CHANNEL_STATE is raised with a level (R160). -/
def State.channelRaised (s : State) (c : Fin 16) (level : Nat) : State :=
  let value := (s.leak.channels[c]).state.code + 16 * level
  s.onRack fun e r => raise e .leak 1 c.val value r

/-- A channel has changed state on a sample: CHANNEL_STATE, SENSOR_OPEN at an entry to OPEN, and its
zone follows (R160, R162). The rules give these three no order: they come in this one, the model's choice
(log entry 30). DESIGN CHOICE. -/
def State.channelMoved (s : State) (c : Fin 16) (level : Nat) : State :=
  let s := s.channelRaised c level
  let s := if (s.leak.channels[c]).state = .opn then
    s.onRack fun e r => logFault e .sensorOpen c.val r else s
  match s.channelZone c with
  | some z => s.followZone z
  | none => s

/-- A sample of one channel (R158 to R160). -/
def State.sampleChannel (s : State) (c : Fin 16) (level : Nat) : State :=
  let old := s.leak.channels[c]
  let moved := if (s.channelZone c).isSome then
    old.move (classify (s.wetAt c) (s.openAt c) level) else old
  let s := { s with
    leak.channels := put s.leak.channels c { moved with level := some level } }
  if moved.state = old.state then s else s.channelMoved c level

/-- The first-window flag at the end of a sample of all channels (R161). -/
def State.countSample (s : State) : State :=
  let n := min Config.confirmSamples (s.leak.samples + 1)
  if n = Config.confirmSamples ∧ ¬ s.leak.firstWindow then
    { s with leak.samples := n, leak.firstWindow := true, rack.todo.head := true }
  else { s with leak.samples := n }

/-! ### A zone at the adoption (R172) -/

/-- What the Leak Monitor does for a zone at the adoption (R172). -/
def State.adoptZone (s : State) (z : Fin 8) : State :=
  let x := s.leak.zones[z]
  match x.state, x.grace with
  | .alarm, some d =>
    if d.reached s.now then s.isolateZone z else s.leakDrains z (d.left s.now)
  | .clear, _ | .watch, _ => s.followZone z
  | .alarm, none | .isolated, _ => s

/-! ### A change of action (R169) -/

/-- A SET_LEAK_ACTION taken for a latched zone acts on it at once (R169). `before` is the entry it
replaces. -/
def State.actAnew (s : State) (z : Fin 8) (before : LeakEntry) : State :=
  let entry := s.cfg.leakTable[z]
  match (s.leak.zones[z]).state with
  | .alarm =>
    match entry.action, (s.leak.zones[z]).grace with
    | .isolateNow, _ => s.isolateZone z
    | .isolateAfterGrace, none => s.beginGrace z
    | .isolateAfterGrace, some _ => s
    | .notifyOnly, _ => s.changeZone z fun x => { x with grace := none }
  | .isolated =>
    if entry.shelfIsolate && !before.shelfIsolate then s.isolateShelves z else s
  | .clear | .watch => s

/-! ### The release of a zone (R171, R76) -/

/-- The used channels of a zone that a LEAK_CLEAR finds short of ten dry readings (R170). -/
def State.notDry (s : State) (z : Fin 8) : List (Fin 16) :=
  (s.zoneChannels z).filter fun c => (s.leak.channels[c]).dryRun != 10

/-- The WET channels of a zone (R171). -/
def State.wetChannels (s : State) (z : Fin 8) : List (Fin 16) :=
  (s.zoneChannels z).filter fun c => (s.leak.channels[c]).state == .wet

/-- A WET channel is released to DRY; the level CHANNEL_STATE carries is a free value (R171, step 1;
log entry 10). -/
def State.releaseChannel (s : State) (c : Fin 16) : State :=
  let s := { s with
    leak.channels := change s.leak.channels c fun x =>
      { x with state := .dry, wetCount := 0, openCount := 0, dryCount := 0 }
    free := s.free + 1 }
  s.channelRaised c (Config.clearedLevel (s.free - 1)).toNat

/-- The state a slot enters when it leaves ISOLATED or FAULTED for OFF: DISABLED on an INVALID profile
(R11, R76, R79). -/
def offState (e : Env) (n : Fin 48) : SlotState := if (e.profile n).valid then .off else .disabled

/-- A slot of a cleared zone (R76). -/
def releaseSlot (e : Env) (n : Fin 48) (r : Rack) : Rack :=
  let x := r.slots[n]
  match x.state, x.drain with
  | .isolated, _ => enter e n (offState e n) .zoneCleared r
  | .draining, some d =>
    if d.target = .isolated then holdDrain e n { d with target := .off } r else r
  | _, _ => r

/-- A position that a released shelf gives back: present, and every position of the shelf while
UNCOMMISSIONED, where an isolation may still stand from before (R8, R171; log entry 15). -/
def givesBack (e : Env) (present : Bool) : Bool := present || !e.commissioned

/-- A BU of a released shelf ceases to be leak-isolated, and is offered RESTORE except in DRAIN and
DARK (R171, step 4). -/
def releaseBu (e : Env) (j : Fin 12) (r : Rack) : Rack :=
  let r := { r with bu := change r.bu j fun b => { b with leakIsolated := false } }
  if r.grid.state = .drain ∨ r.grid.state = .dark then r else offerRestore e j r

/-- One shelf's modules are given back (R171, step 4). -/
def releaseModules (e : Env) (h : Fin 3) (r : Rack) : Rack :=
  let psus := (shelfPsus h).filter fun i => givesBack e (r.psu[i]).present
  let bus := (shelfBus h).filter fun j => givesBack e (r.bu[j]).present
  forEach (releaseBu e) bus (forEach (offerOutputOn e) psus r)

/-- The isolated shelves of a zone in rising order (R162). -/
def State.heldShelves (s : State) (z : Fin 8) : List (Fin 3) :=
  (List.finRange 3).filter fun h => (s.leak.zones[z]).shelves[h]

/-- The shelves a zone holds are released (R171, step 4). -/
def State.releaseShelves (s : State) (z : Fin 8) : State :=
  forEach (fun h s =>
    (s.changeZone z fun x => { x with shelves := put x.shelves h false }).onRack fun e r =>
      releaseModules e h r) (s.heldShelves z) s

/-- The slots of a zone that stand ISOLATED. -/
def State.isolatedSlots (s : State) (z : Fin 8) : List (Fin 48) :=
  (s.env.zoneSlots z).filter fun n => (s.rack.slots[n]).state == .isolated

/-- A LEAK_CLEAR is taken (R171, steps 1 to 4). Within step 1 the channels, and within step 3 the slots,
are taken in rising index order, which R171 and R76 leave open: the model's choice (log entry 30). DESIGN
CHOICE. -/
def State.clearZone (s : State) (z : Fin 8) : State :=
  let s := forEach (fun c s => s.releaseChannel c) (s.wetChannels z) s
  let s := (s.changeZone z fun x => { x with grace := none }).setZone z .clear
  let s := s.onRack fun e r => eachHandedOn e (releaseSlot e) (e.zoneSlots z) r
  s.releaseShelves z

end Sys2Proof.Machine
end

