-- ==== Sys2Proof/Machine/Boot.lean ====
section
/-! DEFINITION. Power-on, the store load, the warm restart's pin, the adoption and the pinning of
timestamps: the meanings of POWER_ON, STORE_LOAD_COMPLETE, RESTART_N, RESTART_N_RELEASE, ADOPTION and
TIMESTAMP_PIN. -/

namespace Sys2Proof.Machine

/-! ### POWER_ON (R22) -/

/-- The store as a power-on finds it: a write cut short leaves its image a free value (R19; log entry
9). -/
def Store.powerOn (t : Store) (free : Nat) : Store :=
  { t.spoiled free with writing := none, saving := false, saveTag := none, batteryWaiting := false }

/-- POWER_ON: every block takes its power-on values, and the store load begins. -/
def execPowerOn (s : State) : Outcome :=
  .next { State.powerOn (s.store.powerOn s.free) (s.free + 1) with pending := s.pending }

/-! ### STORE_LOAD_COMPLETE (R22, R23) -/

/-- The working configuration a load of the config area gives (R22). -/
def Store.loadCfg (t : Store) : WorkCfg :=
  match loadFrom t.configA t.configB with
  | .image false _ => t.configFirst.content.working
  | .image true _ => t.configSecond.content.working
  | .blank | .corrupt => defaultCfg

/-- A load of the config area gives the factory defaults (R22). -/
def Store.loadsDefaults (t : Store) : Bool :=
  match loadFrom t.configA t.configB with
  | .blank | .corrupt => true
  | .image _ _ => false

/-- The battery entries a load gives; with factory defaults every lock-present flag is cleared (R23). -/
def Store.loadBattery (t : Store) : Vector BatteryEntry 12 :=
  let entries := match loadFrom t.batteryA t.batteryB with
    | .image false _ => t.batteryFirst.content
    | .image true _ => t.batterySecond.content
    | .blank | .corrupt => Vector.replicate 12 initialEntry
  if t.loadsDefaults then entries.map fun x => { x with lockPresent := false } else entries

/-- The faults a load logs (R22, R23). R22, R23 and R181 give no order where both areas have one: the
config area's is logged first, the model's choice (log entry 38). DESIGN CHOICE. -/
def Store.loadFaults (t : Store) : List (FaultKind × Nat) :=
  (match loadFrom t.configA t.configB with
    | .image _ true => [(.storeRecovered, 0)]
    | .corrupt => [(.storeCorrupt, 0)]
    | .blank | .image _ false => [])
  ++ (match loadFrom t.batteryA t.batteryB with
    | .image _ true => [(.storeRecovered, 1)]
    | .corrupt => [(.batteryAreaReset, 1)]
    | .blank | .image _ false => [])

/-- A PSU record once the load has said whether it is present (R40). -/
def PsuRec.load (x : PsuRec) (present : Bool) : PsuRec :=
  { x with present := present, state := if present then .lost else .absent }

/-- A BU record once the load has said whether it is present and given its entry (R23, R43). -/
def BuRec.load (b : BuRec) (present : Bool) (x : BatteryEntry) : BuRec :=
  { b with
    present := present
    state := if present then .lost else .absent
    h := x.h
    stale := x.stale
    postponed := x.postponed
    due := x.due
    dueMs := 0
    lockPresent := x.lockPresent }

/-- The slots once the load has said which are usable; after a power-on no latch is on (R82). -/
def loadSlots (e : Env) (r : Rack) : Rack :=
  { r with slots := Vector.ofFn fun n =>
      { r.slots[n] with
        state := if e.usable n then .off else .disabled, permit := false, warn := false } }

/-- The tables as a load sets them, and the first leak sample, which is due at the load (R22, R23, R40,
R43, R159). -/
def State.loadTables (s : State) : State :=
  let c := s.store.loadCfg
  let entries := s.store.loadBattery
  { s with
    boot := { s.boot with loaded := true }
    cfg := c
    marks := if c.locked then validate c.record c.profiles else noMarks
    leak := { s.leak with nextSample := some s.now }
    rack := { s.rack with
      psu := Vector.ofFn fun i => (s.rack.psu[i]).load (c.locked && c.record.psuPresent i)
      bu := Vector.ofFn fun j =>
        (s.rack.bu[j]).load (c.locked && c.record.buPresent j) entries[j] } }

/-- STORE_LOAD_COMPLETE: the working configuration and the battery entries are set, the first leak sample
is due, and what the load found wrong is logged (R22, R23, R159). -/
def execStoreLoadComplete (s : State) : Outcome :=
  if s.boot.loaded then .next s
  else
    let t := s.loadTables.onRack loadSlots
    .next (t.onRack fun e r =>
      forEach (fun x r => logFault e x.1 x.2 r) s.store.loadFaults r).conclude

/-! ### RESTART_N (R196) -/

/-- RESTART_N: the warm restart begins, and the pin stands low. -/
def execRestartN (s : State) : Outcome :=
  if s.boot.pinLow then .next s
  else
    let t := s.warmRestart
    .next { t with boot := { t.boot with pinLow := true } }.conclude

/-- RESTART_N_RELEASE: the link is freed and no second restart begins. -/
def execRestartNRelease (s : State) : Outcome :=
  .next { s with boot := { s.boot with pinLow := false } }.conclude

/-! ### ADOPTION (R83, R84, R172) -/

/-- GOOD rising with PERMIT off inside the rack: an unexpected GOOD (R69). -/
def unexpectedGood (e : Env) (n : Fin 48) (r : Rack) : Rack :=
  let r := match (r.slots[n]).state with
    | .off | .shed | .isolated | .queued => enter e n .faulted .goodRising r
    | .disabled | .starting | .on | .draining | .faulted => r
  markFault e n .goodUnexpected .goodUnexpected r

/-- A slot that stands DISABLED is not adopted: a PERMIT latch found on is written off with its WARN
(R84). -/
def keepDisabled (now : Time) (x : SlotRec) : SlotRec :=
  if x.permit then { x with permit := false, warn := false, offSince := now } else x

/-- The record of a slot adopted with its PERMIT latched (R83). -/
def SlotRec.adopt (x : SlotRec) (now : Time) (good : Bool) (deadline : Nat) : SlotRec :=
  if good then { x.enter now .on .configuration with good := true }
  else { x.enter now .starting .configuration with goodDeadline := some ⟨now, deadline⟩ }

/-- The record of a slot adopted with its PERMIT off (R83). -/
def SlotRec.adoptOff (x : SlotRec) (now : Time) (st : SlotState) : SlotRec :=
  { x.enter now st .configuration with offSince := now }

/-- One slot is adopted from its latch, in one change (R83, R84). -/
def adoptSlot (e : Env) (good : BitVec 48) (n : Fin 48) (r : Rack) : Rack :=
  let x := r.slots[n]
  if x.state = .disabled then { r with slots := put r.slots n (keepDisabled e.now x) }
  else if x.permit then
    changeRecord e n (x.adopt e.now (good.getLsbD n.val) (e.profile n).goodDeadline) r
  else changeRecord e n (x.adoptOff e.now (if e.slotZoneIsolated n then .isolated else .off)) r

/-- A slot adopted with its PERMIT latched takes a leak cut when its zone stands ISOLATED (R84). -/
def adoptedCut (e : Env) (n : Fin 48) (r : Rack) : Bool :=
  (r.slots[n]).state != .disabled && (r.slots[n]).permit && e.slotZoneIsolated n

/-- One slot is adopted, handed a rack drain request where an earlier slot's hand-on has begun the rack
drain (R115), and then cut in an ISOLATED zone, each change handed on before the next (R65, R83, R84,
R130). R115 and R84 give the request and the cut no order: the request comes first, the model's choice
(log entry 17). Where the rack stands DARK before the adoption R83 gives the slot power and R116 has no
slot hold any: the slot keeps the state of R83 and is handed no request, the model's choice (log entry 47).
DESIGN CHOICE. -/
def adoptInTurn (e : Env) (good : BitVec 48) (n : Fin 48) (r : Rack) : Rack :=
  let adopted := handOn e (joinRackDrain e n (adoptSlot e good n r))
  if adoptedCut e n r then handOn e (leakCut e n adopted) else adopted

/-- A GOOD found high and not taken high by the adoption is a rising event (R83). -/
def lateGood (e : Env) (good : BitVec 48) (n : Fin 48) (r : Rack) : Rack :=
  if good.getLsbD n.val && !(r.slots[n]).good then
    let r := { r with slots := change r.slots n fun x => { x with good := true } }
    if e.insideRack n then unexpectedGood e n r else r
  else r

/-- The second slot input sample after a warm restart is taken now, 10 ms after the first, and its
adoption is still owed (R83). -/
def State.adoptionDue (s : State) : Bool :=
  s.boot.adopting && elapsed s.now s.boot.restartAt == Config.slotSamplePeriod

/-- ADOPTION: at the second slot input sample after a warm restart every slot is adopted from its latch,
each adoption handed on before the next (R65, R130), and then the Leak Monitor acts on each zone (R83,
R84, R172). At no other instant is there an adoption. -/
def execAdoption (good : BitVec 48) (s : State) : Outcome :=
  if s.adoptionDue then
    let s := { s with
      boot := { s.boot with adopting := false }
      inputs := { s.inputs with good := Vector.replicate 48 0 } }
    let s := s.onRack fun e r => forEach (adoptInTurn e good) (List.finRange 48) r
    let s := s.onRack fun e r => eachHandedOn e (lateGood e good) (List.finRange 48) r
    .next (forEach (fun z s => s.adoptZone z) (List.finRange 8) s).conclude
  else .next s

/-! ### TIMESTAMP_PIN (R18) -/

/-- A timestamp pinned at an age of 2^30 ms (R18). -/
def pin (now t : Time) : Time :=
  if Config.pinAge ≤ elapsed now t then now - BitVec.ofNat 32 Config.pinAge else t

/-- The timestamp of a target, if it stands and R18 pins it. -/
def State.pinned (s : State) : PinTarget → Option Time
  | .offSince n => some (s.rack.slots[n]).offSince
  | .grantTime n => (s.rack.slots[n]).grantTime
  | .queueTime n => (s.rack.slots[n]).queueTime
  | .history i => s.rack.queue.history[i.val]?.map HistEntry.time
  | .psuReport i => some (s.rack.psu[i]).lastReport
  | .buReport j => some (s.rack.bu[j]).lastReport
  | .alarmTime z => (s.leak.zones[z]).alarmTime
  | .headSince => s.rack.queue.head.map QueueHead.since

/-- The timestamp of a target replaced by a function of it (R18). -/
def State.repin (s : State) (f : Time → Time) : PinTarget → State
  | .offSince n => { s with
      rack.slots := change s.rack.slots n fun x => { x with offSince := f x.offSince } }
  | .grantTime n => { s with
      rack.slots := change s.rack.slots n fun x => { x with grantTime := x.grantTime.map f } }
  | .queueTime n => { s with
      rack.slots := change s.rack.slots n fun x => { x with queueTime := x.queueTime.map f } }
  | .history i => { s with
      rack.queue.history := s.rack.queue.history.modify i.val fun x => { x with time := f x.time } }
  | .psuReport i => { s with
      rack.psu := change s.rack.psu i fun x => { x with lastReport := f x.lastReport } }
  | .buReport j => { s with
      rack.bu := change s.rack.bu j fun b => { b with lastReport := f b.lastReport } }
  | .alarmTime z => s.changeZone z fun x => { x with alarmTime := x.alarmTime.map f }
  | .headSince => { s with
      rack.queue.head := s.rack.queue.head.map fun h => { h with since := f h.since } }

/-- TIMESTAMP_PIN: a timestamp whose age has reached 2^30 ms is replaced by the present count less
2^30 (R18). -/
def execTimestampPin (target : PinTarget) (s : State) : Outcome := .next (s.repin (pin s.now) target)

end Sys2Proof.Machine
end

