-- ==== Sys2Proof/Machine/Commission.lean ====
section
/-! DEFINITION. The commissioning record: COMMISSION_WRITE, COMMISSION_LOCK and DECOMMISSION (R3 to R8,
R44). -/

namespace Sys2Proof.Machine

/-! ### COMMISSION_WRITE (R3, R193) -/

/-- The body of COMMISSION_WRITE once its length is that of its kind (R3). -/
def writeSection (kind index : Nat) (fields : List Byte) (s : State) : Answer :=
  { s with cfg := { s.cfg with record := s.cfg.record.write kind index fields } }.answer codeOk []

/-- The body of COMMISSION_WRITE: BAD_LENGTH, HELD, LOCKED, BAD_INDEX (R3). -/
def commissionWriteBody (payload : List Byte) (s : State) : Answer :=
  if sectionFits payload then
    match payload with
    | kind :: index :: fields =>
      checked s.held codeHeld (checked s.cfg.locked codeLocked
        (checked (sectionCount kind.toNat ≤ index.toNat) codeBadIndex
          (writeSection kind.toNat index.toNat fields))) s
    | _ => s.answer codeBadLength []
  else s.answer codeBadLength []

/-- COMMISSION_WRITE (R3). -/
def execCommissionWrite (tag : Byte) (payload : List Byte) (s : State) : Outcome :=
  .next (s.serve false 0x30 tag payload (commissionWriteBody payload))

/-! ### COMMISSION_LOCK (R5 to R7, R40, R43, R44) -/

/-- The RACK counts are in range (R5, third check). -/
def RackSec.lockable (x : RackSec) : Bool :=
  1 ≤ x.shelfCount && x.shelfCount ≤ 3 && 1 ≤ x.slotCount && x.slotCount ≤ 48

/-- A leak channel is WET, or a shelf stands isolated by the Leak Monitor (R5, fourth check). -/
def Leak.latched (l : Leak) : Bool :=
  l.channels.toList.any (fun c => c.state == .wet)
  || l.zones.toList.any (fun z => z.shelves.toList.any id)

/-- A PSU's discovery record handed over at a lock (R40, R44). -/
def PsuRec.lock (x : PsuRec) (present : Bool) (rated : Nat) : PsuRec :=
  if present then
    let x := { x with present := true, capability := min x.capability rated }
    if x.state = .absent then { x with state := .lost, reportPending := true, miss := 0 } else x
  else { x with
    present := false, state := .absent, capability := 0, output := 0, input := .absent, miss := 0
    reportPending := false, commandedOn := true }

/-- A BU's battery area entry at a lock: initial values for a bay newly present, and the lock-present
flag follows (R7, R23). No rule says whether a SAMPLE_PENDING phase still standing on the bay is dropped
when its entry becomes due at once, and R148 calls a BU due in phase NONE alone: the phase and its sample
deadline are kept, so the bay is not evaluated before the sample ends, the model's choice (log entry 51).
DESIGN CHOICE. -/
def BuRec.lockEntry (b : BuRec) (present : Bool) : BuRec :=
  if present && !b.lockPresent then
    { b with h := 192, stale := true, postponed := 0, due := 0, dueMs := 0, lockPresent := true }
  else { b with lockPresent := present }

/-- A BU's discovery record handed over at a lock (R43, R44). R41 has the lock make the baseline invalid
for a position not heard since the part became UNCOMMISSIONED, and R44 calls an ABSENT record that case:
a record that a DECOMMISSION carried over in another state, and that no report has reached since, keeps
its baseline, the model's choice (log entry 52). DESIGN CHOICE. -/
def BuRec.lock (b : BuRec) (present : Bool) (rated : Nat) : BuRec :=
  let b := b.lockEntry present
  if present then
    let b := { b with present := true, energy := min b.energy rated }
    if b.state = .absent then
      { b with state := .lost, reportPending := true, miss := 0, baseline := false }
    else b
  else { b with
    present := false, state := .absent, energy := 0, discharge := 0, delivered := 0
    lastCounter := 0, baseline := false, miss := 0, reportPending := false
    commandedIsolate := false, leakIsolated := false
    offered := 0, offeredRem := 0, accepted := 0, setpoint := 0 }

/-- A position is present in the tables. -/
def Rack.present (r : Rack) : Pos → Bool
  | .psu i => (r.psu[i]).present
  | .bu j => (r.bu[j]).present

/-- The entries of positions that are not present are discarded (R44). R35 has an entry leave when its
position becomes LOST, by a miss as R36 gives, and R44 names the discard for positions not present alone:
the entry of a present position whose ABSENT record the lock makes LOST is kept, the model's choice (log
entry 50). DESIGN CHOICE. -/
def discardAbsent (r : Rack) : Rack :=
  { r with bus := forEach (fun p b => if r.present p then b else b.discard p) allPositions r.bus }

/-- The bays whose entry a lock sets to the initial values: due at once (R7, R149). -/
def newBays (c : CommRecord) (bu : Vector BuRec 12) : List (Fin 12) :=
  (List.finRange 12).filter fun j => c.buPresent j && !(bu[j]).lockPresent

/-- The tables take up a locked record, with a battery area write when an entry changes (R7, R21, R44). A
record made LOST here keeps its position's queue entry, the model's choice (log entry 50). DESIGN
CHOICE. -/
def lockTables (c : CommRecord) (r : Rack) : Rack :=
  let bu := Vector.ofFn fun j => (r.bu[j]).lock (c.buPresent j) (c.bus[j]).rated
  discardAbsent { r with
    psu := Vector.ofFn fun i => (r.psu[i]).lock (c.psuPresent i) (c.psus[i]).rated
    bu := bu
    todo.checks := r.todo.checks ++ newBays c r.bu
    todo.battery := r.todo.battery || decide (batteryContent bu ≠ batteryContent r.bu) }

/-- A member whose record a lock leaves in a state other than IDLE or CHARGING leaves the member set
(R140). -/
def lockMembers (e : Env) (r : Rack) : Rack :=
  forEach (leaveMembers e) (List.finRange 12) r

/-- Every usable slot that stands DISABLED goes to OFF (R7), in rising slot index order, which R7 leaves
open: the model's choice (log entry 30). DESIGN CHOICE. -/
def lockSlots (e : Env) (r : Rack) : Rack :=
  forEach (fun n r =>
    if (r.slots[n]).state = .disabled ∧ e.usable n then enter e n .off .configuration r else r)
    (List.finRange 48) r

/-- What a change of lock state hands on (R47, R56, R107, R130). -/
def lockHanded (e : Env) (r : Rack) : Rack :=
  let r := computeAccount e r
  { r with todo := { r.todo with
      grid := true, account := true, pool := true, hold := true, head := true } }

/-- A channel record restarts at a lock (R7). -/
def Channel.relock (c : Channel) : Channel := { initialChannel with level := c.level }

/-- The Leak Monitor takes up a locked record (R7, R161). R7 gives the zones no order: they restart, and
raise ZONE_STATE, in rising zone index, the model's choice (log entry 30). DESIGN CHOICE. -/
def State.lockLeak (s : State) : State :=
  let s := { s with leak := { s.leak with
    channels := s.leak.channels.map Channel.relock
    firstWindow := false
    samples := 0 } }
  forEach (fun z s => (s.changeZone z fun x => { x with grace := none }).setZone z .clear)
    (List.finRange 8) s

/-- COMMISSION_LOCK is taken: the record is locked with its marks, and each block takes it up (R5 to
R7). -/
def State.lock (s : State) : State :=
  let rack := { s.cfg.record.rack with k := lockedK s.cfg.record.rack.k }
  let record := { s.cfg.record with rack := rack }
  let s := { s with
    cfg := { s.cfg with record := record, locked := true }
    marks := validate record s.cfg.profiles }
  let s := s.onRack fun e r => lockMembers e (lockTables e.cfg.record r)
  let s := s.onRack lockSlots
  s.lockLeak.onRack lockHanded

/-- The figures of COMMISSION_LOCK's reply: k as taken, and the five counts (R5). -/
def lockFigures (k : Nat) (m : Marks) : List Byte :=
  u8 k ++ u32 m.disabledSlots ++ u32 m.disabledPsus ++ u32 m.disabledBus
  ++ u32 m.disabledChannels ++ u32 m.waitingSlots

/-- The body of COMMISSION_LOCK: HELD, LOCKED, REFUSED_STATE (R5). -/
def commissionLockBody (s : State) : Answer :=
  checked s.held codeHeld (checked s.cfg.locked codeLocked
    (checked (!s.cfg.record.rack.lockable) codeRefusedState
      (checked s.leak.latched codeRefusedState fun s =>
        let t := s.lock
        t.answer (if s.cfg.record.rack.k ≤ 2 then codeOk else codeClamped)
          (lockFigures t.cfg.record.rack.k t.marks)))) s

/-- COMMISSION_LOCK (R5). -/
def execCommissionLock (tag : Byte) (payload : List Byte) (s : State) : Outcome :=
  .next (s.serve false 0x31 tag payload (noPayload payload commissionLockBody))

/-! ### DECOMMISSION (R8, R44) -/

/-- A PSU record handed over at a DECOMMISSION (R44). -/
def PsuRec.unlock (x : PsuRec) : PsuRec :=
  let x := { x with present := false }
  if x.state = .lost then { x with state := .absent, reportPending := false } else x

/-- A BU record handed over at a DECOMMISSION (R44). -/
def BuRec.unlock (b : BuRec) : BuRec :=
  let b := { b with present := false }
  if b.state = .lost then { b with state := .absent, reportPending := false } else b

/-- Every slot becomes DISABLED (R8), in rising slot index order, which R8 leaves open: the model's choice
(log entry 30). DESIGN CHOICE. -/
def unlockSlots (e : Env) (r : Rack) : Rack :=
  forEach (fun n r =>
    if (r.slots[n]).state = .disabled then r else enter e n .disabled .configuration r)
    (List.finRange 48) r

/-- Every shelf isolation, held by any zone. -/
def Leak.heldShelves (l : Leak) : Vector Bool 3 :=
  Vector.ofFn fun h => l.zones.toList.any fun z => z.shelves[h]

/-- The zones' fields at a DECOMMISSION but for their states: zone 0 holds every shelf isolation (R8).
R8 and R162 do not say what becomes of a running grace deadline and of the alarm times: every grace is
dropped and every alarm time kept, the model's choice (log entry 16). DESIGN CHOICE. -/
def Leak.unlock (l : Leak) : Leak :=
  { l with zones := Vector.ofFn fun z =>
      { l.zones[z] with
        grace := none
        shelves := if z.val = 0 then l.heldShelves else Vector.replicate 3 false } }

/-- The Leak Monitor returns to its uncommissioned form: zones 1 to 7 to CLEAR, and zone 0 to what its
channels give, a WET one making it ALARM without the steps of R163 (R8). R8 gives the zones no order: they
change, and raise ZONE_STATE, in rising zone index, the model's choice (log entry 30). DESIGN CHOICE. -/
def State.unlockLeak (s : State) : State :=
  forEach (fun z s => s.setZone z (if z.val = 0 then zoneFollows (s.zoneChannelStates z) else .clear))
    (List.finRange 8) { s with leak := s.leak.unlock }

/-- DECOMMISSION is taken (R8). -/
def State.unlock (s : State) : State :=
  let s := { s with cfg := { s.cfg with locked := false }, marks := noMarks }
  let s := s.onRack fun _ r => { r with psu := r.psu.map PsuRec.unlock, bu := r.bu.map BuRec.unlock }
  let s := s.onRack unlockSlots
  s.unlockLeak.onRack lockHanded

/-- The third check of DECOMMISSION (R8). -/
def State.canUnlock (s : State) : Bool :=
  s.rack.slots.toList.all (fun x => x.state == .off || x.state == .disabled || x.state == .faulted)
  && s.rack.active.isNone && s.rack.grid.state == .normal

/-- The body of DECOMMISSION: HELD, REFUSED_STATE (R8). -/
def decommissionBody (s : State) : Answer :=
  checked s.held codeHeld (checked (!s.cfg.locked) codeRefusedState
    (checked (!s.canUnlock) codeRefusedState fun s => s.unlock.answer codeOk [])) s

/-- DECOMMISSION (R8). -/
def execDecommission (tag : Byte) (payload : List Byte) (s : State) : Outcome :=
  .next (s.serve false 0x32 tag payload (noPayload payload decommissionBody))

end Sys2Proof.Machine
end

