-- ==== Sys2Proof/Machine/ConfigRequests.lean ====
section
/-! DEFINITION. The requests that change the plan, the profiles, the parameters and the leak action
table, and LEAK_CLEAR and CHECK_NOW: STAGE_PLAN, COMMIT_PLAN, DISCARD_PLAN, SET_PROFILE, SET_PARAM,
SET_LEAK_ACTION, LEAK_CLEAR, CHECK_NOW. -/

namespace Sys2Proof.Machine

/-! ### The plan (R12 to R14) -/

/-- One entry of STAGE_PLAN is written into the staged plan; an index above 47 writes nothing (R12). -/
def stageEntry (x : Nat × Nat × Nat) (c : WorkCfg) : WorkCfg :=
  { c with staged := putAt c.staged x.1 ⟨clamp 1 4 x.2.1, clamp 0 255 x.2.2⟩ }

/-- An entry written was clamped (R12). -/
def entryClamped (x : Nat × Nat × Nat) : Bool :=
  x.1 < 48 && (clamp 1 4 x.2.1 != x.2.1 || clamp 0 255 x.2.2 != x.2.2)

/-- The body of STAGE_PLAN (R12). R190 has the values taken follow CLAMPED, and R12 names the number
written, the refused indices and the flag alone: no values follow, the model's choice (log entry 41).
DESIGN CHOICE. -/
def stagePlanBody (payload : List Byte) (s : State) : Answer :=
  if planFits payload then
    let entries := planEntries payload
    let written := entries.filter fun x => x.1 < 48
    let refused := entries.filter fun x => 48 ≤ x.1
    let cfg := { forEach stageEntry entries s.cfg with armed := false }
    { s with cfg := cfg }.answer (if entries.any entryClamped then codeClamped else codeOk)
      (u32 written.length ++ listed (fun x : Nat × Nat × Nat => u8 x.1) refused ++ flag s.cfg.armed)
  else s.answer codeBadLength []

/-- STAGE_PLAN (R12). -/
def execStagePlan (tag : Byte) (payload : List Byte) (s : State) : Outcome :=
  .next (s.serve false 0x18 tag payload (stagePlanBody payload))

/-- The active plan becomes a copy of the staged plan. -/
def WorkCfg.commit (c : WorkCfg) : WorkCfg := { c with active := c.staged }

/-- The body of COMMIT_PLAN outside Safe Hold (R13). -/
def commitPlanBody (s : State) : Answer :=
  if s.rack.grid.state = .normal then
    ({ s with cfg := s.cfg.commit }.onRack fun e r =>
      resortQueue e { r with todo.hold := true }).answer codeOk [Config.committedFlag]
  else { s with cfg := { s.cfg with armed := true } }.answer codeOk [Config.armedFlag]

/-- COMMIT_PLAN (R13, R192). -/
def execCommitPlan (tag : Byte) (payload : List Byte) (s : State) : Outcome :=
  .next (s.serve false 0x19 tag payload (noPayload payload fun s =>
    checked s.held codeHeld commitPlanBody s))

/-- The body of DISCARD_PLAN (R14). -/
def discardPlanBody (s : State) : Answer :=
  { s with cfg := { s.cfg with staged := s.cfg.active, armed := false } }.answer codeOk
    (flag s.cfg.armed)

/-- DISCARD_PLAN (R14, R192). -/
def execDiscardPlan (tag : Byte) (payload : List Byte) (s : State) : Outcome :=
  .next (s.serve false 0x1A tag payload (noPayload payload discardPlanBody))

/-! ### SET_PROFILE (R10, R11) -/

/-- A slot that a change of a profile's validity reaches: inside the rack, enabled by commissioning,
its SLOT section naming the profile (R11). -/
def followsProfile (e : Env) (p : Fin 8) (n : Fin 48) : Bool :=
  e.commissioned && e.marks.slotOn[n] && (e.cfg.record.slots[n]).profile == p.val

/-- A slot whose profile has become INVALID, or VALID (R11). -/
def applyValidity (e : Env) (p : Fin 8) (valid : Bool) (n : Fin 48) (r : Rack) : Rack :=
  if followsProfile e p n then
    match (r.slots[n]).state, valid with
    | .off, false | .queued, false | .shed, false => enter e n .disabled .configuration r
    | .disabled, true => enter e n .off .configuration r
    | _, _ => r
  else r

/-- A change of the profile of the head slot is a change of gate inputs and of the head's reservation
(R10, R101, R141). -/
def headProfile (e : Env) (p : Fin 8) (r : Rack) : Rack :=
  match r.queue.head with
  | some h =>
    if (e.cfg.record.slots[h.slot]).profile = p.val then
      { r with todo.head := true, todo.pool := true }
    else r
  | none => r

/-- The five values of a profile in R9's order (R10). -/
def profileFigures (p : Profile) : List Byte :=
  u16 p.startW ++ u16 p.peakW ++ u16 p.nominalW ++ u16 p.goodDeadline ++ u16 p.drainMs
  ++ flag p.valid

/-- A profile is replaced whole, and a change of its validity reaches its slots (R10, R11), in rising slot
index order, which R11 leaves open: the model's choice (log entry 30). DESIGN CHOICE. -/
def State.setProfile (s : State) (p : Fin 8) (x : Profile) : State :=
  let was := (s.cfg.profiles[p]).valid
  let s := { s with cfg := { s.cfg with profiles := put s.cfg.profiles p x } }
  let s := if x.valid = was then s
    else s.onRack fun e r => eachHandedOn e (applyValidity e p x.valid) (List.finRange 48) r
  s.onRack fun e r => headProfile e p r

/-- A slot whose SLOT section names the profile is STARTING, ON or DRAINING (R10). -/
def State.profileInUse (s : State) (p : Fin 8) : Bool :=
  (List.finRange 48).any fun n => s.namesProfile p n && (s.rack.slots[n]).state.powered

/-- The body of SET_PROFILE (R10). -/
def setProfileBody (payload : List Byte) (s : State) : Answer :=
  match payload with
  | number :: fields =>
    if fields.length = 10 then
      if h : number.toNat < 8 then
        let p : Fin 8 := ⟨number.toNat, h⟩
        let carried := profileFrom fields
        checked s.held codeHeld (checked (s.profileInUse p) codeRefusedState fun s =>
          (s.setProfile p carried.clamped).answer
            (if carried.clamped = carried then codeOk else codeClamped)
            (profileFigures carried.clamped)) s
      else s.answer codeBadIndex []
    else s.answer codeBadLength []
  | [] => s.answer codeBadLength []

/-- SET_PROFILE (R10). -/
def execSetProfile (tag : Byte) (payload : List Byte) (s : State) : Outcome :=
  .next (s.serve false 0x20 tag payload (setProfileBody payload))

/-! ### SET_PARAM (R15, R16) -/

/-- What a parameter's change hands on; a start wait limit that the head's wait already reaches is
acted on at once (R16, R47, R51, R101, R104, R130). -/
def followParam (e : Env) (id : Fin 16) (r : Rack) : Rack :=
  match id.val with
  | 0 | 1 | 2 | 3 | 12 => { r with todo.head := true }
  | 4 => if stallDue e r then stall e r else r
  | 5 => { r with todo.head := true, todo.hold := true }
  | 6 | 11 => { r with todo.hold := true }
  | 9 => computeAccount e { r with todo.head := true }
  | 10 => { r with
      todo.head := true, todo.account := true, todo.pool := true, todo.hold := true }
  | _ => r

/-- A parameter takes a value (R15, R16). -/
def State.setParam (s : State) (id : Fin 16) (value : Nat) : State :=
  { s with cfg := { s.cfg with params := put s.cfg.params id value } }.onRack fun e r =>
    followParam e id r

/-- A figure in the width its range gives (R187). -/
def sized (top n : Nat) : List Byte := if top ≤ 255 then u8 n else if top ≤ 65535 then u16 n else u32 n

/-- The body of SET_PARAM (R15). -/
def setParamBody (payload : List Byte) (s : State) : Answer :=
  match payload with
  | id :: value =>
    if value.length = 4 then
      if h : id.toNat < 16 then
        let id : Fin 16 := ⟨id.toNat, h⟩
        let range := paramRange id
        let taken := clamp range.1 range.2 (fromBytes value)
        checked s.held codeHeld
          (checked (normalOnly id && s.rack.grid.state != .normal) codeRefusedState fun s =>
            (s.setParam id taken).answer
              (if taken = fromBytes value then codeOk else codeClamped) (sized range.2 taken)) s
      else s.answer codeBadIndex []
    else s.answer codeBadLength []
  | [] => s.answer codeBadLength []

/-- SET_PARAM (R15). -/
def execSetParam (tag : Byte) (payload : List Byte) (s : State) : Outcome :=
  .next (s.serve false 0x21 tag payload (setParamBody payload))

/-! ### SET_LEAK_ACTION (R168, R169) -/

/-- An entry of the leak action table is replaced; a latched zone of a COMMISSIONED part is acted on
at once (R168, R169). -/
def State.setLeakAction (s : State) (z : Fin 8) (x : LeakEntry) : State :=
  let before := s.cfg.leakTable[z]
  let s := { s with cfg := { s.cfg with leakTable := put s.cfg.leakTable z x } }
  if s.cfg.locked then s.actAnew z before else s

/-- The entry a SET_LEAK_ACTION gives, clamped (R168). -/
def leakEntryOf (action : LeakAction) (grace isolate : Nat) : LeakEntry :=
  ⟨action, clamp 1 600 grace, isolate != 0⟩

/-- The body of SET_LEAK_ACTION (R168). -/
def setLeakActionBody (payload : List Byte) (s : State) : Answer :=
  match payload with
  | [zone, action, g1, g0, isolate] =>
    match zoneOf zone.toNat, leakActionOf action.toNat with
    | some z, some a =>
      let grace := fromBytes [g1, g0]
      let x := leakEntryOf a grace isolate.toNat
      checked s.held codeHeld (fun s =>
        let t := s.setLeakAction z x
        t.answer (if x.grace = grace ∧ isolate.toNat ≤ 1 then codeOk else codeClamped)
          (u8 x.action.code ++ u16 x.grace ++ flag x.shelfIsolate
            ++ u8 (t.leak.zones[z]).state.code)) s
    | _, _ => s.answer codeBadIndex []
  | _ => s.answer codeBadLength []

/-- SET_LEAK_ACTION (R168). -/
def execSetLeakAction (tag : Byte) (payload : List Byte) (s : State) : Outcome :=
  .next (s.serve false 0x22 tag payload (setLeakActionBody payload))

/-! ### LEAK_CLEAR (R170, R171) -/

/-- The body of LEAK_CLEAR (R170, R171). -/
def leakClearBody (z : Fin 8) (s : State) : Answer :=
  match s.notDry z with
  | c :: _ =>
    let x := s.leak.channels[c]
    s.answer codeRefusedState (u8 c.val ++ u8 x.state.code ++ u8 x.dryRun)
  | [] =>
    (s.clearZone z).answer codeOk
      (u32 (s.wetChannels z).length ++ u32 (s.isolatedSlots z).length
        ++ u32 (s.heldShelves z).length)

/-- LEAK_CLEAR (R170). -/
def execLeakClear (tag : Byte) (payload : List Byte) (s : State) : Outcome :=
  .next (s.serve false 0x23 tag payload (indexed 8 payload leakClearBody))

/-! ### CHECK_NOW (R156) -/

/-- The figure CHECK_NOW's reply carries (R156). When every condition holds and the START_CHECK is then
dropped at once behind a class-1 entry (R34, R152), the rules do not say whether the reply tells of that
postponement: it carries 0, the model's choice (log entry 34). DESIGN CHOICE. -/
def checkNowFigure (e : Env) (r : Rack) (j : Fin 12) : Nat :=
  if r.grid.state != .normal then 2
  else if checkReason e r j = 0 then 0
  else 1 + 16 * checkReason e r j

/-- The BU is made due, its pending sample dropped (R156). -/
def makeDue (e : Env) (j : Fin 12) (r : Rack) : Rack :=
  let r := if (r.bu[j]).phase = .samplePending then dropSample e j 4 r else r
  setDue j 0 r

/-- CHECK_NOW once it is taken: the BU is evaluated at once in NORMAL (R149, R156). -/
def checkNow (e : Env) (j : Fin 12) (r : Rack) : Rack :=
  let r := makeDue e j r
  evaluateChecks e (fun i => i == j) { r with todo.checks := [] }

/-- CHECK_NOW is refused: the part is UNCOMMISSIONED, the position is not present, or a check is
active on it (R156). -/
def State.noCheck (s : State) (j : Fin 12) : Bool :=
  !s.cfg.locked || !(s.rack.bu[j]).present || (s.rack.bu[j]).phase.active

/-- The body of CHECK_NOW (R156). -/
def checkNowBody (j : Fin 12) (s : State) : Answer :=
  checked (s.noCheck j) codeRefusedState (fun s =>
    (s.onRack fun e r => checkNow e j r).answer codeOk (u8 (checkNowFigure s.env s.rack j))) s

/-- CHECK_NOW (R156). -/
def execCheckNow (tag : Byte) (payload : List Byte) (s : State) : Outcome :=
  .next (s.serve false 0x24 tag payload (indexed 12 payload checkNowBody))

end Sys2Proof.Machine
end

