-- ==== Sys2Proof/Machine/GridEvents.lean ====
section
/-! DEFINITION. The timers of the Start Queue, the Ride-Through Controller, the Recharge Allocator and
the Check Scheduler: GATE_TIMER, START_STALLED, QUALIFY_TIMER, CONTROL_PERIOD, FRAME_BOUNDARY,
CHECK_DUE and SAMPLE_DEADLINE. -/

namespace Sys2Proof.Machine

/-- GATE_TIMER: its expiry evaluates the head again (R103). -/
def execGateTimer (s : State) : Outcome :=
  if reached s.now s.rack.queue.timer then
    .next { s with rack.queue.timer := none, rack.todo.head := true }.conclude
  else .next s

/-- START_STALLED (R104). -/
def execStartStalled (s : State) : Outcome :=
  if stallDue s.env s.rack then .next (s.onRack stall).conclude else .next s

/-- The working configuration once an armed commit is taken (R14). -/
def WorkCfg.takeArm (c : WorkCfg) : WorkCfg :=
  if c.armed then { c with active := c.staged, armed := false } else c

/-- QUALIFY_TIMER: the grid state enters NORMAL (R113, R118). -/
def execQualifyTimer (s : State) : Outcome :=
  if s.rack.grid.state = .qualify ∧ reached s.now s.rack.grid.qualify then
    let armed := s.cfg.armed
    .next ({ s with cfg := s.cfg.takeArm }.onRack fun e r => enterNormal e armed r).conclude
  else .next s

/-- The end of the control period in progress is reached (R144). -/
def periodOver (now : Time) (f : RechargeFrame) : Bool :=
  Config.controlPeriod * f.period ≤ elapsed now f.start

/-- A complete control period ends and the next one begins (R143, R145). -/
def nextPeriod (e : Env) (f : RechargeFrame) (r : Rack) : Rack :=
  let r := chargeOffered r
  sendSetpoints e (fun _ => false) (f.period + 1)
    { r with rech.frame := some { f with period := f.period + 1 } }

/-- CONTROL_PERIOD: the end of a control period before the last of its frame (R143). -/
def execControlPeriod (s : State) : Outcome :=
  match s.rack.rech.frame with
  | some f =>
    if f.period < Config.framePeriods ∧ periodOver s.now f then
      .next (s.onRack fun e r => nextPeriod e f r).conclude
    else .next s
  | none => .next s

/-- A frame's boundary: the pool in force takes the candidate, and a new frame starts with the
boundary as its start time (R144, R145). -/
def boundary (e : Env) (f : RechargeFrame) (r : Rack) : Rack :=
  let start := f.start + BitVec.ofNat 32 (Config.controlPeriod * Config.framePeriods)
  startFrame e start r.rech.candidate (chargeOffered r)

/-- FRAME_BOUNDARY: the end of the last control period of a frame (R144). -/
def execFrameBoundary (s : State) : Outcome :=
  match s.rack.rech.frame with
  | some f =>
    if f.period = Config.framePeriods ∧ periodOver s.now f then
      .next (s.onRack fun e r => boundary e f r).conclude
    else .next s
  | none => .next s

/-- CHECK_DUE: a BU's due count has reached 0, and the BU is evaluated in NORMAL (R149). -/
def execCheckDue (j : Fin 12) (s : State) : Outcome :=
  if (s.rack.bu[j]).isDue then
    .next (s.onRack fun e r => evaluateChecks e (fun i => i == j) r).conclude
  else .next s

/-- A pending sample is dropped at its deadline, and the BU is due at once (R153). -/
def expireSample (e : Env) (j : Fin 12) (r : Rack) : Rack := setDue j 0 (dropSample e j 4 r)

/-- SAMPLE_DEADLINE (R153). -/
def execSampleDeadline (j : Fin 12) (s : State) : Outcome :=
  if (s.rack.bu[j]).phase = .samplePending ∧ reached s.now (s.rack.bu[j]).sampleDeadline then
    .next (s.onRack fun e r => expireSample e j r).conclude
  else .next s

end Sys2Proof.Machine
end

