-- ==== Sys2Proof/Machine/LeakEvents.lean ====
section
/-! DEFINITION. The Leak Monitor's samples and grace deadlines: LEAK_SAMPLE and GRACE_EXPIRY (R159,
R161, R165). -/

namespace Sys2Proof.Machine

/-- A sample of all channels is due at this instant: the first at the store load, and a further one
every 100 ms after it (R159). -/
def State.sampleDue (s : State) : Bool := s.leak.nextSample == some s.now

/-- All sixteen channels are sampled, and the next sample is due 100 ms on (R159 to R161). R159 allows any order among the channels of one
instant: they are taken in rising channel order, the model's choice (log entry 30). DESIGN CHOICE. -/
def State.sampleAll (s : State) (levels : Vector (BitVec 10) 16) : State :=
  (forEach (fun c t => State.sampleChannel t c (levels[c]).toNat) (List.finRange 16)
    { s with leak := { s.leak with nextSample := some (s.now + BitVec.ofNat 32 Config.leakPeriod) } }).countSample

/-- LEAK_SAMPLE: at the instant a sample is due all channels are sampled, and at no other instant is there
a sample (R159). -/
def execLeakSample (levels : Vector (BitVec 10) 16) (s : State) : Outcome :=
  if s.sampleDue then .next (s.sampleAll levels).conclude else .next s

/-- A zone's grace deadline is reached while the zone is ALARM; between a warm restart and the
adoption it waits for the adoption (R165, R172). -/
def State.graceOver (s : State) (z : Fin 8) : Bool :=
  (s.leak.zones[z]).state == .alarm && reached s.now (s.leak.zones[z]).grace && !s.boot.adopting

/-- GRACE_EXPIRY (R165). -/
def execGraceExpiry (z : Fin 8) (s : State) : Outcome :=
  if s.graceOver z then .next (s.isolateZone z).conclude else .next s

end Sys2Proof.Machine
end

