-- ==== Sys2Proof/WellFormed.lean ====
section
/-! DEFINITION. Which commands the part's surroundings can offer at all. A command that is not well
formed stands for nothing that can happen: its meaning has no effect. -/

namespace Sys2Proof

/-- The request kinds of the catalogue (R192). -/
def requestKinds : List Byte :=
  [0x01, 0x02, 0x03, 0x04, 0x05, 0x06, 0x07, 0x08, 0x10, 0x11, 0x12, 0x13, 0x14, 0x15, 0x18,
   0x19, 0x1A, 0x20, 0x21, 0x22, 0x23, 0x24, 0x25, 0x30, 0x31, 0x32, 0x38, 0x39, 0x3A]

/-- A payload fits a frame (R187). -/
def payloadFits (payload : List Byte) : Bool := payload.length ≤ 240

/-- The bytes after a sync byte end a frame: a length byte above 240 ends it alone, and any other
length byte is followed by kind, tag, that many payload bytes and two CRC bytes (R187, R188). -/
def endsFrame (bytes : List Byte) : Bool :=
  match bytes with
  | [] => false
  | len :: rest => if 240 < len.toNat then rest.isEmpty else rest.length == len.toNat + 4

namespace Instr

/-- The payload a request row carries, if the row is a request. -/
def payload? : Instr → Option (List Byte)
  | .unknownKind _ _ p | .identify _ p | .readRack _ p | .readSlot _ p | .readModule _ p
  | .readBattery _ p | .readZone _ p | .readFaults _ p | .clearFault _ p | .slotOn _ p
  | .slotOff _ p | .slotCut _ p | .slotClear _ p | .rackStart _ p | .rackStop _ p
  | .stagePlan _ p | .commitPlan _ p | .discardPlan _ p | .setProfile _ p | .setParam _ p
  | .setLeakAction _ p | .leakClear _ p | .checkNow _ p | .setMask _ p | .commissionWrite _ p
  | .commissionLock _ p | .decommission _ p | .saveConfig _ p | .releaseHold _ p
  | .restart _ p => some p
  | .powerOn | .storeLoadComplete | .restartN | .restartNRelease | .adoption _
  | .timestampPin _ | .strayByte _ | .frameEnd _ | .frameTimeout | .replySent
  | .notificationSent | .configWriteEnd _ | .batteryWriteEnd _ | .pollCycleBegin
  | .psuStatus _ | .buStatus _ | .badFrame _ | .responseWindowExpiry | .goodRising _ _ _
  | .goodFalling _ _ _ | .parkedRising _ _ _ | .parkedFalling _ _ _ | .goodDeadline _
  | .drainDeadline _ | .gateTimer | .startStalled | .qualifyTimer | .controlPeriod
  | .frameBoundary | .checkDue _ | .sampleDeadline _ | .leakSample _ | .graceExpiry _
  | .frameBegin => none

/-- The checks beyond the payload length: a stray byte is not the sync byte, the bytes of FRAME_END
end a frame (R188), and an unknown kind is no request kind (R190). -/
def ownCheck : Instr → Bool
  | .strayByte b => b != 0xB6
  | .frameEnd bytes => endsFrame bytes
  | .unknownKind kind _ _ => !requestKinds.contains kind
  | .powerOn | .storeLoadComplete | .restartN | .restartNRelease | .adoption _
  | .timestampPin _ | .frameTimeout | .replySent | .notificationSent | .identify _ _
  | .readRack _ _ | .readSlot _ _ | .readModule _ _ | .readBattery _ _ | .readZone _ _
  | .readFaults _ _ | .clearFault _ _ | .slotOn _ _ | .slotOff _ _ | .slotCut _ _
  | .slotClear _ _ | .rackStart _ _ | .rackStop _ _ | .stagePlan _ _ | .commitPlan _ _
  | .discardPlan _ _ | .setProfile _ _ | .setParam _ _ | .setLeakAction _ _ | .leakClear _ _
  | .checkNow _ _ | .setMask _ _ | .commissionWrite _ _ | .commissionLock _ _
  | .decommission _ _ | .saveConfig _ _ | .releaseHold _ _ | .restart _ _
  | .configWriteEnd _ | .batteryWriteEnd _ | .pollCycleBegin | .psuStatus _ | .buStatus _
  | .badFrame _ | .responseWindowExpiry | .goodRising _ _ _ | .goodFalling _ _ _
  | .parkedRising _ _ _ | .parkedFalling _ _ _ | .goodDeadline _ | .drainDeadline _
  | .gateTimer | .startStalled | .qualifyTimer | .controlPeriod | .frameBoundary
  | .checkDue _ | .sampleDeadline _ | .leakSample _ | .graceExpiry _ | .frameBegin => true

/-- A command the surroundings can offer. -/
def wellFormed (i : Instr) : Bool :=
  i.ownCheck && (match i.payload? with | some p => payloadFits p | none => true)

end Instr

end Sys2Proof
end

