-- ==== Sys2Proof/Machine/LinkPort.lean ====
section
/-! DEFINITION. The Rack Link Port's own events: FRAME_BEGIN, STRAY_BYTE, FRAME_END, FRAME_TIMEOUT,
REPLY_SENT, NOTIFICATION_SENT and the execution of an unknown kind (R183, R184, R188 to R191). -/

namespace Sys2Proof.Machine

/-- STRAY_BYTE: a byte other than the sync byte in HUNTING is discarded and counted (R188). -/
def execStrayByte (b : Byte) (s : State) : Outcome :=
  if s.link.rxState = .hunting ∧ b ≠ 0xB6 then
    .next { s with link.stray := s.link.stray + 1 }.conclude
  else .next s

/-- FRAME_BEGIN: a sync byte in HUNTING begins a frame (R188); while RESTART_N stands low it is
discarded (R196). -/
def execFrameBegin (s : State) : Outcome :=
  if s.link.rxState = .hunting ∧ ¬ s.boot.pinLow then
    .next { s with link.rxState := .inFrame }.conclude
  else .next s

/-- A LINK fault is logged (R174, R188). -/
def State.linkFault (s : State) (f : FaultKind) : State := s.onRack fun e r => logFault e f 0 r

/-- A complete frame is offered to the receive queue (R189). -/
def State.receive (s : State) (f : LinkFrame) : State :=
  if s.link.rx.length < Config.rxQueueMax then { s with link.rx := s.link.rx ++ [f] }
  else { s with link.overruns := s.link.overruns + 1 }.linkFault .rxOverrun

/-- The frame in progress ends at the receiver (R188). -/
def State.endFrame (s : State) : FrameEnd → State
  | .tooLong => { s with link.lengthErrors := s.link.lengthErrors + 1 }.linkFault .frameLength
  | .badCrc => { s with link.crcErrors := s.link.crcErrors + 1 }.linkFault .frameCrc
  | .good f => { s with link.good := s.link.good + 1 }.receive f

/-- FRAME_END: the last byte of a frame arrives (R188). -/
def execFrameEnd (bytes : List Byte) (s : State) : Outcome :=
  if s.link.rxState = .inFrame ∧ endsFrame bytes then
    .next ({ s with link.rxState := .hunting }.endFrame (frameEnd bytes)).conclude
  else .next s

/-- FRAME_TIMEOUT: a gap above 20 ms ends the partial frame (R188). -/
def execFrameTimeout (s : State) : Outcome :=
  if s.link.rxState = .inFrame then
    .next ({ s with
      link.rxState := .hunting
      link.gaps := s.link.gaps + 1 }.linkFault .frameTimeout).conclude
  else .next s

/-- A reply is being sent. -/
def TxLine.sendsReply : TxLine → Bool
  | .reply _ => true
  | .idle | .notification _ => false

/-- A notification is being sent. -/
def TxLine.sendsNotification : TxLine → Bool
  | .notification _ => true
  | .idle | .reply _ => false

/-- REPLY_SENT: the reply holder is emptied (R189), and the warm restart that a RESTART asked for is
taken (R196). -/
def execReplySent (s : State) : Outcome :=
  if s.link.line.sendsReply then
    let t := { s with link.line := .idle, link.holder := none }
    .next (if s.link.restartOwed then t.warmRestart else t).conclude
  else .next s

/-- The oldest entry leaves the Notification Queue, with the summaries its departure owes (R183,
R184). -/
def NotifQueue.depart (q : NotifQueue) (now : Time) : NotifQueue :=
  { q with entries := q.entries.drop 1 }.summaries now

/-- NOTIFICATION_SENT: the oldest notification has been sent in full (R183, R184, R191). -/
def execNotificationSent (s : State) : Outcome :=
  if s.link.line.sendsNotification then
    .next { s with link.line := .idle, rack.notif := s.rack.notif.depart s.now }.conclude
  else .next s

/-- UNKNOWN_KIND: a frame whose kind is no request kind is executed (R190). -/
def execUnknownKind (kind tag : Byte) (payload : List Byte) (s : State) : Outcome :=
  .next (if requestKinds.contains kind then s
    else s.serve true kind tag payload fun s => s.answer codeUnknownKind [])

end Sys2Proof.Machine
end

