-- ==== Sys2Proof/Machine/Reads.lean ====
section
/-! DEFINITION. The requests that read state, CLEAR_FAULT, and the requests over faults and
notifications: IDENTIFY, READ_RACK, READ_SLOT, READ_MODULE, READ_BATTERY, READ_ZONE, READ_FAULTS,
CLEAR_FAULT, SET_MASK, RELEASE_HOLD and RESTART. -/

namespace Sys2Proof.Machine

/-- The body of IDENTIFY (R195). -/
def identifyBody (payload : List Byte) (s : State) : Answer :=
  match payload with
  | [leaf] => s.answer codeOk (leafFigures s leaf)
  | _ => s.answer codeBadLength []

/-- IDENTIFY (R195). -/
def execIdentify (tag : Byte) (payload : List Byte) (s : State) : Outcome :=
  .next (s.serve true 0x01 tag payload (identifyBody payload))

/-- READ_RACK (R194). -/
def execReadRack (tag : Byte) (payload : List Byte) (s : State) : Outcome :=
  .next (s.serve false 0x02 tag payload
    (indexed 5 payload fun i s => s.answer codeOk (sectionFigures s i)))

/-- READ_SLOT (R81). -/
def execReadSlot (tag : Byte) (payload : List Byte) (s : State) : Outcome :=
  .next (s.serve false 0x03 tag payload
    (indexed 48 payload fun n s => s.answer codeOk (slotFigures s.env s.rack n)))

/-- READ_MODULE (R194). -/
def execReadModule (tag : Byte) (payload : List Byte) (s : State) : Outcome :=
  .next (s.serve false 0x04 tag payload
    (indexed 18 payload fun i s => s.answer codeOk (moduleFigures s.env s.rack i)))

/-- READ_BATTERY (R194). -/
def execReadBattery (tag : Byte) (payload : List Byte) (s : State) : Outcome :=
  .next (s.serve false 0x05 tag payload
    (indexed 12 payload fun j s => s.answer codeOk (batteryFigures s.rack j)))

/-- READ_ZONE (R173). -/
def execReadZone (tag : Byte) (payload : List Byte) (s : State) : Outcome :=
  .next (s.serve false 0x06 tag payload
    (indexed 8 payload fun z s => s.answer codeOk (zoneFigures s z)))

/-- READ_FAULTS (R178). -/
def execReadFaults (tag : Byte) (payload : List Byte) (s : State) : Outcome :=
  .next (s.serve false 0x07 tag payload
    (noPayload payload fun s => s.answer codeOk (faultFigures s.rack.faults s.rack.notif)))

/-- Some bank holds a CRITICAL record (R177, R180). -/
def Faults.critical (x : Faults) : Option (Fin 6) :=
  (List.finRange 6).find? fun b => (x.banks[b]).valid && (x.banks[b]).severity == 2

/-- A bank is emptied; fault-in-progress clears when no bank then holds a CRITICAL record (R177). -/
def Faults.empty (x : Faults) (b : Fin 6) : Faults :=
  let banks := put x.banks b emptyBank
  { x with
    banks := banks
    inProgress := x.inProgress && ({ x with banks := banks } : Faults).critical.isSome }

/-- A bank is emptied, with FAULT_FLAGS when fault-in-progress clears (R177). -/
def emptyOne (e : Env) (b : Fin 6) (r : Rack) : Rack :=
  let old := r.faults
  let r := { r with faults := old.empty b }
  if old.inProgress && !r.faults.inProgress then raise e .fault 2 b.val r.faults.flagValue r else r

/-- The body of CLEAR_FAULT (R177). -/
def clearFaultBody (b : Fin 6) (s : State) : Answer :=
  (s.onRack fun e r => emptyOne e b r).answer codeOk (bankFigures s.rack.faults.banks[b])

/-- CLEAR_FAULT (R177). -/
def execClearFault (tag : Byte) (payload : List Byte) (s : State) : Outcome :=
  .next (s.serve false 0x08 tag payload (indexed 6 payload clearFaultBody))

/-- A mask byte: 0 clear, any other value set (R192). -/
def maskOf (payload : List Byte) (i : Nat) : Bool := payload.getD i 0 != 0

/-- The masks a SET_MASK carries are in force (R185). -/
def NotifQueue.setMasks (q : NotifQueue) (payload : List Byte) : NotifQueue :=
  { q with masks := Vector.ofFn fun c => maskOf payload c.val, globalMask := maskOf payload 8 }

/-- The body of SET_MASK (R185). -/
def setMaskBody (payload : List Byte) (s : State) : Answer :=
  if payload.length = 9 then
    let old := s.rack.notif.setMasks payload
    let q := old.summaries s.now
    { s with rack.notif := q }.answer codeOk
      (q.masks.toList.flatMap flag ++ flag q.globalMask ++ q.pending.toList.flatMap flag
        ++ u32 (q.entries.length - old.entries.length))
  else s.answer codeBadLength []

/-- SET_MASK (R185). -/
def execSetMask (tag : Byte) (payload : List Byte) (s : State) : Outcome :=
  .next (s.serve false 0x25 tag payload (setMaskBody payload))

/-- Safe Hold is left (R180). -/
def leaveHold (e : Env) (r : Rack) : Rack :=
  raise e .fault 2 255 0
    { r with faults := { r.faults with hold := none }, todo.head := true }

/-- The body of RELEASE_HOLD (R180). -/
def releaseHoldBody (s : State) : Answer :=
  if s.rack.faults.inProgress then
    s.answer codeRefusedState (u8 ((s.rack.faults.critical.map Fin.val).getD 0))
  else if s.held then (s.onRack leaveHold).answer codeOk [Config.releasedFlag]
  else s.answer codeOk [Config.notHeldFlag]

/-- RELEASE_HOLD (R180). -/
def execReleaseHold (tag : Byte) (payload : List Byte) (s : State) : Outcome :=
  .next (s.serve false 0x39 tag payload (noPayload payload releaseHoldBody))

/-- The body of RESTART: the warm restart is owed at the end of the reply (R196). -/
def restartBody (s : State) : Answer := { s with link.restartOwed := true }.answer codeOk []

/-- RESTART (R196). -/
def execRestart (tag : Byte) (payload : List Byte) (s : State) : Outcome :=
  .next (s.serve false 0x3A tag payload (noPayload payload restartBody))

end Sys2Proof.Machine
end

