-- ==== Sys2Proof/Machine/ShelfBus.lean ====
section
/-! DEFINITION. The shelf bus: POLL_CYCLE_BEGIN, PSU_STATUS, BU_STATUS, BAD_FRAME and
RESPONSE_WINDOW_EXPIRY (R28 to R31, R35 to R44). -/

namespace Sys2Proof.Machine

/-! ### POLL_CYCLE_BEGIN (R30, R31) -/

/-- A poll cycle may begin: none is in progress, 100 ms have passed since the previous one began, and
no abandoned window runs (R29 to R31). -/
def cycleDue (e : Env) (r : Rack) : Bool :=
  r.bus.cycle.isNone
  && (match r.bus.lastBegan with
    | some t => Config.pollPeriod ≤ elapsed e.now t
    | none => true)
  && (match r.bus.abandoned with
    | some t => Config.responseWindow ≤ elapsed e.now t
    | none => true)

/-- A poll cycle begins: the polled set is read and every position of it becomes due, the removal mark is
cleared, and a late beginning is counted (R24, R30, R127). -/
def beginCycle (e : Env) (r : Rack) : Rack :=
  { r with
    bus := { r.bus with
      polledSet := polledPositions e r
      cycle := some ⟨e.now, polledPositions e r⟩
      lastBegan := some e.now
      lateEnd := false
      overrunCycles := if r.bus.lateEnd then r.bus.overrunCycles + 1 else r.bus.overrunCycles }
    hold.removal := false }

/-- POLL_CYCLE_BEGIN (R30, R31). -/
def execPollCycleBegin (s : State) : Outcome :=
  if s.boot.loaded ∧ cycleDue s.env s.rack then .next (s.onRack beginCycle).conclude else .next s

/-! ### PSU_STATUS (R38, R39, R44) -/

/-- The state a PSU report gives (R39). -/
def PsuReport.state (p : PsuReport) : PsuState :=
  if p.fault then .failed
  else if !p.outputOn then .outputOff
  else if p.input != .ok then .inputFault
  else .online

/-- The clamp of a reported capability (R39). -/
def capabilityTop (e : Env) (i : Fin 18) : Nat :=
  if e.commissioned then (e.cfg.record.psus[i]).rated else 6000

/-- A PSU record after a report (R39). -/
def PsuRec.report (x : PsuRec) (now : Time) (top : Nat) (p : PsuReport) : PsuRec :=
  { x with
    state := p.state
    capability := min p.capability top
    output := p.output
    input := p.input
    miss := 0
    lastReport := now
    reportPending := false }

/-- What a PSU record's change hands on: MODULE_STATE, the Account, and the Controller (R39). -/
def psuChanged (e : Env) (i : Fin 18) (old : PsuRec) (r : Rack) : Rack :=
  let x := r.psu[i]
  let r := if x.state = old.state then r else raise e .module 1 (psuAddress i) x.state.code r
  let r := if x.state = old.state ∧ x.capability = old.capability then r else computeAccount e r
  if x.state = old.state ∧ x.input = old.input then r else { r with todo.grid := true }

/-- The comparison of the reported output with commanded output (R38). -/
def psuIntent (e : Env) (i : Fin 18) (outputOn : Bool) (r : Rack) : Rack :=
  let commanded := (r.psu[i]).commandedOn
  if hasEntry r (.psu i) || commanded == outputOn then r
  else offer e (.psu i) (if commanded then .outputOn else .outputOff) r

/-- A PSU's report (R38, R39). R37 logs no fault for the return of a LOST module and R39 logs each entry to
FAILED from any other state: a LOST PSU that returns FAILED is logged, the model's reading (log entry 39).
DEDUCED. R35, R38 and R39 do not say whether the entry of an answered command leaves the queue before or
after the report in that answer is compared with commanded output: it leaves first, so an OUTPUT_ON
answered with the output still off is offered again at once, the model's choice (log entry 49). DESIGN
CHOICE. -/
def psuReport (e : Env) (i : Fin 18) (p : PsuReport) (r : Rack) : Rack :=
  let old := r.psu[i]
  let r := { r with
    bus := r.bus.answer
    psu := put r.psu i (old.report e.now (capabilityTop e i) p) }
  let r := if p.state = .failed ∧ old.state ≠ .failed then logFault e .psuFailed (psuAddress i) r
    else r
  psuIntent e i p.outputOn (psuChanged e i old r)

/-- The position and record of a PSU_STATUS response to the transaction in flight (R28). -/
def psuResponse (now : Time) (b : Bus) (frame : List Byte) : Option (Fin 18 × PsuReport) :=
  match openWindow now b with
  | some t =>
    match t.pos with
    | .psu i => (psuRecord (psuAddress i) frame).map fun p => (i, p)
    | .bu _ => none
  | none => none

/-- PSU_STATUS: a valid response from a PSU position (R28, R29, R39). -/
def execPsuStatus (frame : List Byte) (s : State) : Outcome :=
  match psuResponse s.now s.rack.bus frame with
  | some (i, p) => .next (s.onRack fun e r => psuReport e i p r).conclude
  | none => .next s

/-! ### BU_STATUS (R41, R42, R44) -/

/-- The clamp of a reported remaining energy (R42). -/
def energyTop (e : Env) (j : Fin 12) : Nat :=
  if e.commissioned then (e.cfg.record.bus[j]).rated else 16000

/-- The delta a report adds to the accepted counter (R41). -/
def BuRec.delta (b : BuRec) (counter : Nat) : Nat :=
  if b.baseline then (counter + 65536 - b.lastCounter) % 65536 else 0

/-- A BU record after a report (R41, R42). -/
def BuRec.report (b : BuRec) (now : Time) (top : Nat) (p : BuReport) : BuRec :=
  { b with
    state := p.mode
    energy := min p.energy top
    discharge := p.discharge
    delivered := p.delivered
    accepted := min Config.energyTop (b.accepted + b.delta p.counter)
    lastCounter := p.counter
    baseline := true
    miss := 0
    lastReport := now
    reportPending := false }

/-- A BU that becomes usable in DARK is offered ISOLATE (R116). -/
def isolateInDark (e : Env) (j : Fin 12) (wasUsable : Bool) (r : Rack) : Rack :=
  if r.grid.state = .dark ∧ ¬ wasUsable ∧ (r.bu[j]).usable then offerIsolate e j r else r

/-- What a change of a BU record's state hands on (R42). -/
def buStateChanged (e : Env) (j : Fin 12) (old : BuRec) (r : Rack) : Rack :=
  if (r.bu[j]).state = old.state then r
  else
    let r := raise e .battery 1 j.val (r.bu[j]).state.code r
    let r := { r with todo.hold := true, todo.grid := true }
    isolateInDark e j old.usable (leaveMembers e j r)

/-- The comparison of the reported mode with commanded isolation (R42). -/
def buIntent (e : Env) (j : Fin 12) (r : Rack) : Rack :=
  let b := r.bu[j]
  if hasEntry r (.bu j) then r
  else match b.state with
    | .isolated => if b.commandedIsolate then r else offer e (.bu j) .restore r
    | .idle | .charging | .full | .discharging | .checking =>
      if b.commandedIsolate then offer e (.bu j) .isolate r else r
    | .failed | .lost | .absent => r

/-- A report of CHECKING with no active check on the BU offers STOP_CHECK (R42). -/
def stopStray (e : Env) (j : Fin 12) (r : Rack) : Rack :=
  if (r.bu[j]).state = .checking ∧ ¬ checksBu r j then offer e (.bu j) .stopCheck r else r

/-- The transaction that ends was a START_CHECK (R152). -/
def answersStart (b : Bus) : Bool :=
  match b.inFlight with
  | some t =>
    match t.cmd with
    | some (.startCheck _ _) => true
    | _ => false
  | none => false

/-- A present BU's entry to FULL, from any other state (R147). -/
def entersFull (old new : BuRec) : Bool :=
  new.present && new.state == .full && old.state != .full

/-- The health sample of a BU that has entered FULL: the change of state is handed on before it, and its
change of H before the Check Scheduler takes the entry (R130, R137, R147, R153). -/
def fillSample (e : Env) (j : Fin 12) (r : Rack) : Rack := handOn e (healthSample e j (handOn e r))

/-- A BU's report (R41, R42, R147, R152 to R155). R37 logs no fault for the return of a LOST module and
R42 logs each entry to FAILED from any other state: a LOST BU that returns FAILED is logged, the model's
reading (log entry 39). DEDUCED. R35 and R42 do not say whether the entry of an answered command leaves the
queue before or after the report in that answer is compared with commanded isolation: it leaves first, the
model's choice (log entry 49). DESIGN CHOICE. -/
def buReport (e : Env) (j : Fin 12) (p : BuReport) (r : Rack) : Rack :=
  let old := r.bu[j]
  let new := old.report e.now (energyTop e j) p
  let start := answersStart r.bus
  let r := { r with bus := r.bus.answer, bu := put r.bu j new }
  let r := if p.mode = .failed ∧ old.state ≠ .failed then logFault e .buFailed (buAddress j) r
    else r
  let r := buStateChanged e j old r
  let r := if entersFull old new then fillSample e j r else r
  let r := reportCheck e j start (entersFull old new) r
  stopStray e j (buIntent e j r)

/-- The position and record of a BU_STATUS response to the transaction in flight (R28). -/
def buResponse (now : Time) (b : Bus) (frame : List Byte) : Option (Fin 12 × BuReport) :=
  match openWindow now b with
  | some t =>
    match t.pos with
    | .bu j => (buRecord (buAddress j) frame).map fun p => (j, p)
    | .psu _ => none
  | none => none

/-- BU_STATUS: a valid response from a BU position (R28, R29, R42). -/
def execBuStatus (frame : List Byte) (s : State) : Outcome :=
  match buResponse s.now s.rack.bus frame with
  | some (j, p) => .next (s.onRack fun e r => buReport e j p r).conclude
  | none => .next s

/-! ### BAD_FRAME (R28) -/

/-- BAD_FRAME: a frame that is no valid response is discarded and counted (R28). -/
def execBadFrame (frame : List Byte) (s : State) : Outcome :=
  if validResponse s.now s.rack.bus frame then .next s
  else .next { s with rack.bus.badFrames := s.rack.bus.badFrames + 1 }.conclude

/-! ### RESPONSE_WINDOW_EXPIRY (R29, R36, R44) -/

/-- A miss counted, up to 3 (R29, R36). -/
def missed (n : Nat) : Nat := min 3 (n + 1)

/-- The state a third miss gives a PSU: LOST while COMMISSIONED, ABSENT otherwise (R36, R44). -/
def lostPsu (e : Env) : PsuState := if e.commissioned then .lost else .absent

/-- The state a third miss gives a BU (R36, R44). -/
def lostBu (e : Env) : BuState := if e.commissioned then .lost else .absent

/-- A PSU record after a third miss (R36, R40, R44). R44 gives a discovery record "power figures 0" there
and does not say whether the reported capability is one: its output power becomes 0 and its capability
is kept, the model's choice (log entry 31). DESIGN CHOICE. -/
def PsuRec.lose (x : PsuRec) (st : PsuState) : PsuRec :=
  { x with
    state := st, output := 0
    reportPending := if st = .lost then false else x.reportPending }

/-- A BU record after a third miss (R36, R44). -/
def BuRec.lose (b : BuRec) (st : BuState) : BuRec :=
  { b with
    state := st, discharge := 0
    baseline := if st = .lost then false else b.baseline
    reportPending := if st = .lost then false else b.reportPending }

/-- A module becomes LOST: its queue entry is discarded and MODULE_LOST is logged (R36). -/
def loseEntry (e : Env) (p : Pos) (r : Rack) : Rack :=
  if e.commissioned then logFault e .moduleLost p.address { r with bus := r.bus.discard p } else r

/-- A miss of a PSU position (R29, R36, R44). A record that stands LOST already, not heard since a reset,
is made LOST under R36 with MODULE_LOST logged and report pending cleared (R40); R36 raises MODULE_STATE
for the state change and R40 does not say whether it is raised here: none is, since the state does not
change, the model's choice (log entry 48). DESIGN CHOICE. -/
def missPsu (e : Env) (i : Fin 18) (r : Rack) : Rack :=
  let old := r.psu[i]
  let r := { r with psu := change r.psu i fun x => { x with miss := missed x.miss } }
  if missed old.miss = 3 ∧ old.miss < 3 then
    let r := { r with psu := change r.psu i fun x => x.lose (lostPsu e) }
    psuChanged e i old (loseEntry e (.psu i) r)
  else r

/-- A check in REQUESTED or RUNNING on a BU that becomes LOST is aborted (R154). -/
def abortLost (e : Env) (j : Fin 12) (r : Rack) : Rack :=
  if checksBu r j then abortCheck e j true r else r

/-- A miss of a BU position (R29, R36, R44). A record that stands LOST already is made LOST without a
BATTERY notification of a state change, as for a PSU: the model's choice (log entry 48). DESIGN
CHOICE. -/
def missBu (e : Env) (j : Fin 12) (r : Rack) : Rack :=
  let old := r.bu[j]
  let r := { r with bu := change r.bu j fun b => { b with miss := missed b.miss } }
  if missed old.miss = 3 ∧ old.miss < 3 then
    let r := { r with bu := change r.bu j fun b => b.lose (lostBu e) }
    abortLost e j (buStateChanged e j old (loseEntry e (.bu j) r))
  else r

/-- The transaction in flight ends unanswered (R29, R35, R36). -/
def expireWindow (e : Env) (p : Pos) (r : Rack) : Rack :=
  let r := { r with bus := r.bus.expire }
  match p with
  | .psu i => missPsu e i r
  | .bu j => missBu e j r

/-- RESPONSE_WINDOW_EXPIRY: the window runs out with no valid response (R29). -/
def execResponseWindowExpiry (s : State) : Outcome :=
  match s.rack.bus.inFlight with
  | some t =>
    if Config.responseWindow ≤ elapsed s.now t.began then
      .next (s.onRack fun e r => expireWindow e t.pos r).conclude
    else .next s
  | none => .next s

end Sys2Proof.Machine
end

