-- ==== Sys2Proof/Machine/SlotEvents.lean ====
section
/-! DEFINITION. The slot inputs and deadlines: GOOD_RISING, GOOD_FALLING, PARKED_RISING,
PARKED_FALLING, GOOD_DEADLINE and DRAIN_DEADLINE (R64, R67 to R69, R72). -/

namespace Sys2Proof.Machine

/-- Two successive samples of an input give a change of its taken level to a new one, at the instant of
the second. `fresh` is how many samples have been taken since one known to agree with the taken level.
Between a warm restart and the adoption no event is taken (R64, R83). -/
def State.takes (s : State) (fresh : Nat) (taken new earlier later : Bool) : Bool :=
  !s.boot.adopting && s.inputs.sampled == s.now && 2 ≤ fresh
  && taken != new && takenLevel taken earlier later == new

/-- The present sample of a slot's GOOD agrees with its taken level. -/
def State.sawGood (s : State) (n : Fin 48) : State :=
  { s with inputs := { s.inputs with good := put s.inputs.good n 0 } }

/-- The present sample of a slot's PARKED agrees with its taken level. -/
def State.sawParked (s : State) (n : Fin 48) : State :=
  { s with inputs := { s.inputs with parked := put s.inputs.parked n 0 } }

/-- The taken GOOD level of a slot is set (R64). -/
def setGood (n : Fin 48) (level : Bool) (r : Rack) : Rack :=
  { r with slots := change r.slots n fun x => { x with good := level } }

/-- The taken PARKED level of a slot is set (R64). -/
def setParked (n : Fin 48) (level : Bool) (r : Rack) : Rack :=
  { r with slots := change r.slots n fun x => { x with parked := level } }

/-- GOOD rises at a slot (R67, R69). -/
def goodRises (e : Env) (n : Fin 48) (r : Rack) : Rack :=
  let r := setGood n true r
  match (r.slots[n]).state with
  | .starting => joinRackDrain e n (enter e n .on .goodRising r)
  | .on | .draining => r
  | .disabled | .off | .queued | .shed | .isolated | .faulted =>
    if e.insideRack n then unexpectedGood e n r else r

/-- GOOD_RISING (R64, R67, R69). -/
def execGoodRising (n : Fin 48) (earlier later : Bool) (s : State) : Outcome :=
  if s.takes s.inputs.good[n] (s.rack.slots[n]).good true earlier later then
    .next ((s.sawGood n).onRack fun e r => goodRises e n r).conclude
  else .next s

/-- GOOD falls at a slot (R68, R72). -/
def goodFalls (e : Env) (n : Fin 48) (r : Rack) : Rack :=
  let r := setGood n false r
  match (r.slots[n]).state with
  | .on => markFault e n .goodLost .goodLost (enter e n .faulted .goodFalling r)
  | .draining => endDrain e n .goodFalling r
  | .disabled | .off | .queued | .starting | .shed | .isolated | .faulted => r

/-- GOOD_FALLING (R64, R68, R72). -/
def execGoodFalling (n : Fin 48) (earlier later : Bool) (s : State) : Outcome :=
  if s.takes s.inputs.good[n] (s.rack.slots[n]).good false earlier later then
    .next ((s.sawGood n).onRack fun e r => goodFalls e n r).conclude
  else .next s

/-- PARKED rises at a slot (R72). -/
def parkedRises (e : Env) (n : Fin 48) (r : Rack) : Rack :=
  let r := setParked n true r
  if (r.slots[n]).state = .draining then endDrain e n .parked r else r

/-- PARKED_RISING (R64, R72). -/
def execParkedRising (n : Fin 48) (earlier later : Bool) (s : State) : Outcome :=
  if s.takes s.inputs.parked[n] (s.rack.slots[n]).parked true earlier later then
    .next ((s.sawParked n).onRack fun e r => parkedRises e n r).conclude
  else .next s

/-- PARKED_FALLING changes the taken level alone (R64). -/
def execParkedFalling (n : Fin 48) (earlier later : Bool) (s : State) : Outcome :=
  if s.takes s.inputs.parked[n] (s.rack.slots[n]).parked false earlier later then
    .next ((s.sawParked n).onRack fun _ r => setParked n false r).conclude
  else .next s

/-- A STARTING slot's good deadline is reached (R67). -/
def failStart (e : Env) (n : Fin 48) (r : Rack) : Rack :=
  markFault e n .startFailed .startFailed (enter e n .faulted .goodDeadline r)

/-- GOOD_DEADLINE (R67). -/
def execGoodDeadline (n : Fin 48) (s : State) : Outcome :=
  if (s.rack.slots[n]).state = .starting ∧ reached s.now (s.rack.slots[n]).goodDeadline then
    .next (s.onRack fun e r => failStart e n r).conclude
  else .next s

/-- DRAIN_DEADLINE (R72). -/
def execDrainDeadline (n : Fin 48) (s : State) : Outcome :=
  if (s.rack.slots[n]).state = .draining
      ∧ reached s.now ((s.rack.slots[n]).drain.map Drain.deadline) then
    .next (s.onRack fun e r => endDrain e n .drainDeadline r).conclude
  else .next s

end Sys2Proof.Machine
end

