-- ==== Sys2Proof/Machine/SlotRequests.lean ====
section
/-! DEFINITION. The requests that name slots or the whole rack: SLOT_ON, SLOT_OFF, SLOT_CUT,
SLOT_CLEAR, RACK_START and RACK_STOP (R77 to R80, R87, R88, R90). -/

namespace Sys2Proof.Machine

/-! ### Slot lists (R80) -/

/-- What becomes of one listed index (R80). -/
inductive SlotResult where
  | accepted
  | unchanged
  | refused (reason : Byte)
  deriving DecidableEq, Repr

/-- The counts a slot list reply carries, with the refused indices and their reasons (R80, R190). -/
structure Tally where
  accepted : Nat
  unchanged : Nat
  refused : List (Byte × Byte)
  deriving DecidableEq, Repr

/-- One more listed index counted. -/
def Tally.add (t : Tally) (index : Byte) : SlotResult → Tally
  | .accepted => { t with accepted := t.accepted + 1 }
  | .unchanged => { t with unchanged := t.unchanged + 1 }
  | .refused reason => { t with refused := t.refused ++ [(index, reason)] }

/-- What a slot list request does to one slot, and how it is counted. -/
structure SlotRule where
  result : Env → Rack → Fin 48 → SlotResult
  effect : Env → Fin 48 → Rack → Rack

/-- How one listed index is counted (R4, R80). -/
def SlotRule.judge (f : SlotRule) (e : Env) (r : Rack) (index : Byte) : SlotResult :=
  if !e.commissioned then .refused codeRefusedState
  else if h : index.toNat < 48 then
    if index.toNat < e.cfg.record.rack.slotCount then f.result e r ⟨index.toNat, h⟩
    else .unchanged
  else .refused codeBadIndex

/-- One listed index is handled: an accepted one has its effect, which is handed on before the next is
looked at (R65, R80, R137). -/
def SlotRule.handle (f : SlotRule) (e : Env) (index : Byte) (r : Rack) : Rack :=
  if f.judge e r index = .accepted then
    if h : index.toNat < 48 then handOn e (f.effect e ⟨index.toNat, h⟩ r) else r
  else r

/-- The listed indices are handled in list order (R80). -/
def SlotRule.run (f : SlotRule) (e : Env) : List Byte → Tally → Rack → Tally × Rack
  | [], t, r => (t, r)
  | b :: bs, t, r => f.run e bs (t.add b (f.judge e r b)) (f.handle e b r)

/-- The figures of a slot list reply (R190). -/
def Tally.figures (t : Tally) : List Byte :=
  u8 t.accepted ++ u8 t.unchanged ++ u8 t.refused.length
  ++ t.refused.flatMap fun x => [x.1, x.2]

/-- The code of a slot list reply (R80). -/
def Tally.code (t : Tally) : Byte := if t.refused.isEmpty then codeOk else codeRefusedState

/-- A slot list request (R80). -/
def slotList (f : SlotRule) (payload : List Byte) (s : State) : Answer :=
  if slotListFits payload then
    let x := f.run s.env payload ⟨0, 0, []⟩ s.rack
    { s with rack := x.2 }.answer x.1.code x.1.figures
  else s.answer codeBadLength []

/-! ### SLOT_ON (R87) -/

/-- How SLOT_ON counts a slot (R87). -/
def slotOnResult (e : Env) (r : Rack) (n : Fin 48) : SlotResult :=
  match (r.slots[n]).state with
  | .off | .shed => if e.slotZoneOpen n then .accepted else .refused codeRefusedState
  | .queued | .starting | .on => .unchanged
  | .draining | .disabled | .faulted | .isolated => .refused codeRefusedState

/-- SLOT_ON on one slot (R87). -/
def slotOnRule : SlotRule where
  result := slotOnResult
  effect e n r := enter e n .queued .queued r

/-- The body of SLOT_ON: BAD_LENGTH, then HELD, then the list (R87). -/
def slotOnBody (payload : List Byte) (s : State) : Answer :=
  if slotListFits payload then checked s.held codeHeld (slotList slotOnRule payload) s
  else s.answer codeBadLength []

/-- SLOT_ON (R87). -/
def execSlotOn (tag : Byte) (payload : List Byte) (s : State) : Outcome :=
  .next (s.serve false 0x10 tag payload (slotOnBody payload))

/-! ### SLOT_OFF (R77) -/

/-- A drain after an off request (R73, R77). -/
def offAmended (e : Env) (n : Fin 48) (d : Drain) : Drain :=
  d.amend e.now DrainRequest.off.target (drainLength e n .off)

/-- How SLOT_OFF counts a slot (R77). -/
def slotOffResult (e : Env) (r : Rack) (n : Fin 48) : SlotResult :=
  match (r.slots[n]).state, (r.slots[n]).drain with
  | .queued, _ | .starting, _ | .on, _ | .shed, _ => .accepted
  | .draining, some d => if offAmended e n d = d then .unchanged else .accepted
  | .draining, none | .off, _ | .disabled, _ | .faulted, _ | .isolated, _ => .unchanged

/-- The off request on one slot: an unpowered one enters OFF, a powered one drains or is cut (R70,
R71, R73, R77). -/
def slotOff (e : Env) (n : Fin 48) (r : Rack) : Rack :=
  match (r.slots[n]).state with
  | .queued | .shed => enter e n .off .offRequest r
  | .disabled | .off | .starting | .on | .draining | .isolated | .faulted => drainInTurn e .off n r

/-- SLOT_OFF on one slot (R77). -/
def slotOffRule : SlotRule where
  result := slotOffResult
  effect := slotOff

/-- SLOT_OFF (R77). -/
def execSlotOff (tag : Byte) (payload : List Byte) (s : State) : Outcome :=
  .next (s.serve false 0x11 tag payload (slotList slotOffRule payload))

/-! ### SLOT_CUT (R74, R78) -/

/-- How SLOT_CUT counts a slot (R78). -/
def slotCutResult (_ : Env) (r : Rack) (n : Fin 48) : SlotResult :=
  match (r.slots[n]).state with
  | .starting | .on | .draining | .queued | .shed => .accepted
  | .off | .disabled | .faulted | .isolated => .unchanged

/-- SLOT_CUT on one slot (R74, R78). -/
def slotCutRule : SlotRule where
  result := slotCutResult
  effect e n r := enter e n (r.slots[n]).cutState .slotCut r

/-- SLOT_CUT (R78). -/
def execSlotCut (tag : Byte) (payload : List Byte) (s : State) : Outcome :=
  .next (s.serve false 0x12 tag payload (slotList slotCutRule payload))

/-! ### SLOT_CLEAR (R79) -/

/-- How SLOT_CLEAR counts a slot (R79). -/
def slotClearResult (_ : Env) (r : Rack) (n : Fin 48) : SlotResult :=
  if (r.slots[n]).state = .faulted then
    if (r.slots[n]).good then .refused reasonGoodHigh else .accepted
  else .unchanged

/-- The state a cleared slot enters (R79). -/
def clearedState (e : Env) (n : Fin 48) : SlotState :=
  if e.slotZoneIsolated n then .isolated
  else if (e.profile n).valid then .off
  else .disabled

/-- SLOT_CLEAR on one slot (R79). -/
def slotClearRule : SlotRule where
  result := slotClearResult
  effect e n r := enter e n (clearedState e n) .slotClear r

/-- SLOT_CLEAR (R79). -/
def execSlotClear (tag : Byte) (payload : List Byte) (s : State) : Outcome :=
  .next (s.serve false 0x13 tag payload (slotList slotClearRule payload))

/-! ### RACK_START (R88) -/

/-- The slots in a state. -/
def Rack.slotsIn (r : Rack) (st : SlotState) : List (Fin 48) :=
  (List.finRange 48).filter fun n => (r.slots[n]).state == st

/-- The body of RACK_START once it is taken: the OFF slots are queued in one step, so their changes are
handed on together (R88). R88 gives the slots no order: they are taken in rising slot index order, the
model's choice (log entry 30). DESIGN CHOICE. -/
def rackStartBody (s : State) : Answer :=
  let e := s.env
  let off := s.rack.slotsIn .off
  let open? := off.filter e.slotZoneOpen
  (s.onRack fun e r => forEach (fun n r => enter e n .queued .queued r) open? r).answer codeOk
    (u32 open?.length ++ u32 (off.length - open?.length))

/-- RACK_START: BAD_LENGTH, HELD, REFUSED_STATE (R88). -/
def execRackStart (tag : Byte) (payload : List Byte) (s : State) : Outcome :=
  .next (s.serve false 0x14 tag payload (noPayload payload fun s =>
    checked s.held codeHeld (checked (!s.cfg.locked) codeRefusedState rackStartBody) s))

/-! ### RACK_STOP (R90) -/

/-- RACK_STOP on one slot (R90). -/
def rackStopSlot (e : Env) (n : Fin 48) (r : Rack) : Rack :=
  match (r.slots[n]).state with
  | .queued | .shed => enter e n .off .offRequest r
  | .starting | .on => drainInTurn e .off n r
  | .disabled | .off | .draining | .isolated | .faulted => r

/-- The counts of slots that RACK_STOP dequeues, cuts, drains and turns from SHED to OFF (R90). -/
structure StopCounts where
  dequeued : Nat
  cut : Nat
  drained : Nat
  unshed : Nat
  deriving DecidableEq, Repr

/-- A slot counted by the state in which RACK_STOP finds it (R90). -/
def StopCounts.add (t : StopCounts) : SlotState → StopCounts
  | .queued => { t with dequeued := t.dequeued + 1 }
  | .starting => { t with cut := t.cut + 1 }
  | .on => { t with drained := t.drained + 1 }
  | .shed => { t with unshed := t.unshed + 1 }
  | .disabled | .off | .draining | .isolated | .faulted => t

/-- The figures of RACK_STOP's reply (R90). -/
def StopCounts.figures (t : StopCounts) : List Byte :=
  u32 t.dequeued ++ u32 t.cut ++ u32 t.drained ++ u32 t.unshed

/-- RACK_STOP on some slots in turn, each change handed on before the next slot is looked at (R65, R90,
R137). -/
def rackStop (e : Env) : List (Fin 48) → StopCounts → Rack → StopCounts × Rack
  | [], t, r => (t, r)
  | n :: ns, t, r => rackStop e ns (t.add (r.slots[n]).state) (handOn e (rackStopSlot e n r))

/-- The body of RACK_STOP once it is taken. R90 gives the slots no order: they are taken in rising slot
index order over all states together, the model's choice (log entry 30). DESIGN CHOICE. -/
def rackStopBody (s : State) : Answer :=
  let x := rackStop s.env (List.finRange 48) ⟨0, 0, 0, 0⟩ s.rack
  { s with rack := x.2 }.answer codeOk x.1.figures

/-- RACK_STOP: BAD_LENGTH, REFUSED_STATE (R90). -/
def execRackStop (tag : Byte) (payload : List Byte) (s : State) : Outcome :=
  .next (s.serve false 0x15 tag payload (noPayload payload
    (checked (!s.cfg.locked) codeRefusedState rackStopBody)))

end Sys2Proof.Machine
end

