-- ==== Sys2Proof/Machine/StoreEvents.lean ====
section
/-! DEFINITION. SAVE_CONFIG and the ends of the store's writes: CONFIG_WRITE_END and
BATTERY_WRITE_END (R19 to R21). -/

namespace Sys2Proof.Machine

/-- The body of SAVE_CONFIG: the save is in progress from here, and its reply is placed when its write
ends (R20, R189). -/
def saveConfigBody (tag : Byte) (payload : List Byte) (s : State) : State :=
  if payload.isEmpty then { s with store := s.store.save tag }
  else s.reply 0x38 tag [codeBadLength]

/-- SAVE_CONFIG (R20). -/
def execSaveConfig (tag : Byte) (payload : List Byte) (s : State) : Outcome :=
  .next (s.execute false 0x38 tag payload (saveConfigBody tag payload))

/-- A config write is in progress. -/
def Store.writesConfig (t : Store) : Bool :=
  match t.writing with
  | some (.config _) => true
  | some (.battery _) | none => false

/-- A battery write is in progress. -/
def Store.writesBattery (t : Store) : Bool :=
  match t.writing with
  | some (.battery _) => true
  | some (.config _) | none => false

/-- The write in progress ends, well or badly; a bad end logs STORE_WRITE_FAIL with its area and
leaves the written image a free value (R19 to R21; log entry 9). -/
def State.endWrite (s : State) (good : Bool) (area : Nat) : State :=
  if good then { s with store := s.store.written.endWrite }
  else
    let s := { s with store := (s.store.spoiled s.free).endWrite, free := s.free + 1 }
    s.onRack fun e r => logFault e .storeWriteFail area r

/-- The reply owed to a SAVE_CONFIG, if it is still owed to a tag (R20). -/
def State.replySaved (s : State) (tag : Option Byte) (code : Byte) : State :=
  match tag with
  | some t => s.reply 0x38 t [code]
  | none => s

/-- CONFIG_WRITE_END: the config image has been written and verified, or not (R20). -/
def execConfigWriteEnd (verified : Bool) (s : State) : Outcome :=
  if s.store.writesConfig then
    .next ((s.endWrite verified 0).replySaved s.store.saveTag
      (if verified then codeOk else codeFailed)).conclude
  else .next s

/-- BATTERY_WRITE_END: the battery image has been written, or not (R21). -/
def execBatteryWriteEnd (written : Bool) (s : State) : Outcome :=
  if s.store.writesBattery then .next (s.endWrite written 1).conclude else .next s

end Sys2Proof.Machine
end

