-- ==== Sys2Proof/Machine/Dispatch.lean ====
section
/-! DEFINITION. One arm per command: each calls the command's own meaning. -/

namespace Sys2Proof.Machine

def exec (i : Instr) (s : State) : Host.Outcome State Fault Refusal :=
  match i with
  | .powerOn => Sys2Proof.Machine.execPowerOn s
  | .storeLoadComplete => Sys2Proof.Machine.execStoreLoadComplete s
  | .restartN => Sys2Proof.Machine.execRestartN s
  | .restartNRelease => Sys2Proof.Machine.execRestartNRelease s
  | .adoption good => Sys2Proof.Machine.execAdoption good s
  | .timestampPin target => Sys2Proof.Machine.execTimestampPin target s
  | .strayByte byte => Sys2Proof.Machine.execStrayByte byte s
  | .frameEnd bytes => Sys2Proof.Machine.execFrameEnd bytes s
  | .frameTimeout => Sys2Proof.Machine.execFrameTimeout s
  | .replySent => Sys2Proof.Machine.execReplySent s
  | .notificationSent => Sys2Proof.Machine.execNotificationSent s
  | .unknownKind kind tag payload => Sys2Proof.Machine.execUnknownKind kind tag payload s
  | .identify tag payload => Sys2Proof.Machine.execIdentify tag payload s
  | .readRack tag payload => Sys2Proof.Machine.execReadRack tag payload s
  | .readSlot tag payload => Sys2Proof.Machine.execReadSlot tag payload s
  | .readModule tag payload => Sys2Proof.Machine.execReadModule tag payload s
  | .readBattery tag payload => Sys2Proof.Machine.execReadBattery tag payload s
  | .readZone tag payload => Sys2Proof.Machine.execReadZone tag payload s
  | .readFaults tag payload => Sys2Proof.Machine.execReadFaults tag payload s
  | .clearFault tag payload => Sys2Proof.Machine.execClearFault tag payload s
  | .slotOn tag payload => Sys2Proof.Machine.execSlotOn tag payload s
  | .slotOff tag payload => Sys2Proof.Machine.execSlotOff tag payload s
  | .slotCut tag payload => Sys2Proof.Machine.execSlotCut tag payload s
  | .slotClear tag payload => Sys2Proof.Machine.execSlotClear tag payload s
  | .rackStart tag payload => Sys2Proof.Machine.execRackStart tag payload s
  | .rackStop tag payload => Sys2Proof.Machine.execRackStop tag payload s
  | .stagePlan tag payload => Sys2Proof.Machine.execStagePlan tag payload s
  | .commitPlan tag payload => Sys2Proof.Machine.execCommitPlan tag payload s
  | .discardPlan tag payload => Sys2Proof.Machine.execDiscardPlan tag payload s
  | .setProfile tag payload => Sys2Proof.Machine.execSetProfile tag payload s
  | .setParam tag payload => Sys2Proof.Machine.execSetParam tag payload s
  | .setLeakAction tag payload => Sys2Proof.Machine.execSetLeakAction tag payload s
  | .leakClear tag payload => Sys2Proof.Machine.execLeakClear tag payload s
  | .checkNow tag payload => Sys2Proof.Machine.execCheckNow tag payload s
  | .setMask tag payload => Sys2Proof.Machine.execSetMask tag payload s
  | .commissionWrite tag payload => Sys2Proof.Machine.execCommissionWrite tag payload s
  | .commissionLock tag payload => Sys2Proof.Machine.execCommissionLock tag payload s
  | .decommission tag payload => Sys2Proof.Machine.execDecommission tag payload s
  | .saveConfig tag payload => Sys2Proof.Machine.execSaveConfig tag payload s
  | .releaseHold tag payload => Sys2Proof.Machine.execReleaseHold tag payload s
  | .restart tag payload => Sys2Proof.Machine.execRestart tag payload s
  | .configWriteEnd verified => Sys2Proof.Machine.execConfigWriteEnd verified s
  | .batteryWriteEnd written => Sys2Proof.Machine.execBatteryWriteEnd written s
  | .pollCycleBegin => Sys2Proof.Machine.execPollCycleBegin s
  | .psuStatus frame => Sys2Proof.Machine.execPsuStatus frame s
  | .buStatus frame => Sys2Proof.Machine.execBuStatus frame s
  | .badFrame frame => Sys2Proof.Machine.execBadFrame frame s
  | .responseWindowExpiry => Sys2Proof.Machine.execResponseWindowExpiry s
  | .goodRising slot earlier later => Sys2Proof.Machine.execGoodRising slot earlier later s
  | .goodFalling slot earlier later => Sys2Proof.Machine.execGoodFalling slot earlier later s
  | .parkedRising slot earlier later => Sys2Proof.Machine.execParkedRising slot earlier later s
  | .parkedFalling slot earlier later => Sys2Proof.Machine.execParkedFalling slot earlier later s
  | .goodDeadline slot => Sys2Proof.Machine.execGoodDeadline slot s
  | .drainDeadline slot => Sys2Proof.Machine.execDrainDeadline slot s
  | .gateTimer => Sys2Proof.Machine.execGateTimer s
  | .startStalled => Sys2Proof.Machine.execStartStalled s
  | .qualifyTimer => Sys2Proof.Machine.execQualifyTimer s
  | .controlPeriod => Sys2Proof.Machine.execControlPeriod s
  | .frameBoundary => Sys2Proof.Machine.execFrameBoundary s
  | .checkDue bu => Sys2Proof.Machine.execCheckDue bu s
  | .sampleDeadline bu => Sys2Proof.Machine.execSampleDeadline bu s
  | .leakSample levels => Sys2Proof.Machine.execLeakSample levels s
  | .graceExpiry zone => Sys2Proof.Machine.execGraceExpiry zone s
  | .frameBegin => Sys2Proof.Machine.execFrameBegin s

end Sys2Proof.Machine
end

