-- ==== Sys2Proof/Machine/Idle.lean ====
section
/-! DEFINITION. What the part does when no command waits: the events it holds due are put in the
queue, and when none is due a millisecond passes, unless an adoption or a leak sample is owed at this
instant (R17, R83, R148, R159; log entries 1, 2, 44 and 55). -/

namespace Sys2Proof.Machine

/-! ### Events due now -/

/-- The row that executes a frame, by its kind (R192). -/
def requestOf (f : LinkFrame) : Instr :=
  match f.kind.toNat with
  | 0x01 => .identify f.tag f.payload
  | 0x02 => .readRack f.tag f.payload
  | 0x03 => .readSlot f.tag f.payload
  | 0x04 => .readModule f.tag f.payload
  | 0x05 => .readBattery f.tag f.payload
  | 0x06 => .readZone f.tag f.payload
  | 0x07 => .readFaults f.tag f.payload
  | 0x08 => .clearFault f.tag f.payload
  | 0x10 => .slotOn f.tag f.payload
  | 0x11 => .slotOff f.tag f.payload
  | 0x12 => .slotCut f.tag f.payload
  | 0x13 => .slotClear f.tag f.payload
  | 0x14 => .rackStart f.tag f.payload
  | 0x15 => .rackStop f.tag f.payload
  | 0x18 => .stagePlan f.tag f.payload
  | 0x19 => .commitPlan f.tag f.payload
  | 0x1A => .discardPlan f.tag f.payload
  | 0x20 => .setProfile f.tag f.payload
  | 0x21 => .setParam f.tag f.payload
  | 0x22 => .setLeakAction f.tag f.payload
  | 0x23 => .leakClear f.tag f.payload
  | 0x24 => .checkNow f.tag f.payload
  | 0x25 => .setMask f.tag f.payload
  | 0x30 => .commissionWrite f.tag f.payload
  | 0x31 => .commissionLock f.tag f.payload
  | 0x32 => .decommission f.tag f.payload
  | 0x38 => .saveConfig f.tag f.payload
  | 0x39 => .releaseHold f.tag f.payload
  | 0x3A => .restart f.tag f.payload
  | _ => .unknownKind f.kind f.tag f.payload

/-- A command when a condition holds. -/
def dueIf (p : Bool) (i : Instr) : List Instr := if p then [i] else []

/-- The oldest frame is executed as soon as R189 allows. -/
def State.requestDue (s : State) : List Instr :=
  match s.link.rx with
  | f :: _ => dueIf (s.executes f) (requestOf f)
  | [] => []

/-- A response window has run out (R29). -/
def State.windowDue (s : State) : Bool :=
  match s.rack.bus.inFlight with
  | some t => Config.responseWindow ≤ elapsed s.now t.began
  | none => false

/-- The slot deadlines reached (R67, R72). -/
def State.slotDue (s : State) (n : Fin 48) : List Instr :=
  let x := s.rack.slots[n]
  dueIf (x.state == .starting && reached s.now x.goodDeadline) (.goodDeadline n)
  ++ dueIf (x.state == .draining && reached s.now (x.drain.map Drain.deadline)) (.drainDeadline n)

/-- The sample deadline of a BU is reached (R153). -/
def State.sampleOver (s : State) (j : Fin 12) : Bool :=
  (s.rack.bu[j]).phase == .samplePending && reached s.now (s.rack.bu[j]).sampleDeadline

/-- The end of the control period in progress (R143, R144). -/
def State.periodDue (s : State) : List Instr :=
  match s.rack.rech.frame with
  | some f =>
    if periodOver s.now f then
      dueIf (f.period < Config.framePeriods) .controlPeriod
      ++ dueIf (f.period == Config.framePeriods) .frameBoundary
    else []
  | none => []

/-- The timestamps R18 names. -/
def pinTargets : List PinTarget :=
  (List.finRange 48).flatMap (fun n => [.offSince n, .grantTime n, .queueTime n])
  ++ (List.finRange 4).map .history ++ (List.finRange 18).map .psuReport
  ++ (List.finRange 12).map .buReport ++ (List.finRange 8).map .alarmTime ++ [.headSince]

/-- A timestamp has outgrown 2^30 ms (R18). -/
def State.outgrown (s : State) (p : PinTarget) : Bool :=
  match s.pinned p with
  | some t => Config.pinAge < elapsed s.now t
  | none => false

/-- The events the part holds due at this instant, in an order that is the model's choice where the
manual leaves it free (log entry 1). -/
def State.dueEvents (s : State) : List Instr :=
  s.requestDue
  ++ dueIf s.windowDue .responseWindowExpiry
  ++ dueIf (s.boot.loaded && cycleDue s.env s.rack) .pollCycleBegin
  ++ (List.finRange 48).flatMap s.slotDue
  ++ dueIf (reached s.now s.rack.queue.timer) .gateTimer
  ++ dueIf (stallDue s.env s.rack) .startStalled
  ++ dueIf (s.rack.grid.state == .qualify && reached s.now s.rack.grid.qualify) .qualifyTimer
  ++ s.periodDue
  ++ (List.finRange 12).flatMap (fun j => dueIf (s.sampleOver j) (.sampleDeadline j))
  ++ (List.finRange 8).flatMap (fun z => dueIf (s.graceOver z) (.graceExpiry z))
  ++ pinTargets.flatMap (fun p => dueIf (s.outgrown p) (.timestampPin p))

/-! ### A millisecond passes (R17, R148) -/

/-- A BU's due count counts: present, COMMISSIONED, in phase NONE, and above 0 (R148). -/
def BuRec.counts (b : BuRec) (commissioned : Bool) : Bool :=
  commissioned && b.present && b.phase == .none && 0 < b.due

/-- One ms of a due count (R148; log entry 3). -/
def BuRec.tick (b : BuRec) (commissioned : Bool) : BuRec :=
  if b.counts commissioned then
    if b.dueMs + 1 < 1000 then { b with dueMs := b.dueMs + 1 }
    else { b with due := b.due - 1, dueMs := 0 }
  else b

/-- The BUs whose due count the ms brings to 0 (R149). -/
def State.fallsDue (s : State) (j : Fin 12) : Bool :=
  (s.rack.bu[j]).counts s.cfg.locked && ((s.rack.bu[j]).tick s.cfg.locked).due == 0

/-- One more sample of an input. -/
def resampled (fresh : Nat) : Nat := min 2 (fresh + 1)

/-- The slot inputs are sampled every 10 ms (R64). -/
def Inputs.tick (x : Inputs) (now : Time) : Inputs :=
  if Config.slotSamplePeriod ≤ elapsed now x.sampled then
    ⟨now, x.good.map resampled, x.parked.map resampled⟩
  else x

/-- A millisecond passes (R17, R64, R148, R149). -/
def State.tick (s : State) : State :=
  { s with
    now := s.now + 1
    inputs := s.inputs.tick (s.now + 1)
    rack.bu := s.rack.bu.map fun b => b.tick s.cfg.locked
    pending := (List.finRange 12).flatMap fun j => dueIf (s.fallsDue j) (.checkDue j) }

/-- An adoption or a leak sample is owed at this instant (R83, R159). Both bring levels from outside. -/
def State.awaits (s : State) : Bool := s.adoptionDue || s.sampleDue

/-- The part with no command waiting. At the instant of an adoption that is owed time waits for ADOPTION,
and at that of a leak sample for LEAK_SAMPLE, which bring the levels from outside: R83 has the adoption
at that instant and R159 the sample, and no later. That time waits is the model's choice (log entries 44
and 55). DESIGN CHOICE. -/
def State.idle (s : State) : State :=
  if s.dueEvents.isEmpty then (if s.awaits then s else s.tick)
  else { s with pending := s.dueEvents }

end Sys2Proof.Machine
end

