-- ==== Sys2Proof/Safety.lean ====
section
/-! DEFINITION. What the part keeps at every step, in the terms the statements use: the form of a slot
record (R62, R63), the figures that follow the slots (R52, R58, R85, R106), the order and the head of the
Start Queue (R85, R86), the bounds of its queues (R93, R182, R189), one shelf command for a position
(R34), the pace of the leak samples (R159), a grace only in ALARM (R162, R163), and the
fault-in-progress flag (R176, R177). -/

namespace Sys2Proof.Machine

/-! ### The form of a slot record (R62, R63) -/

/-- The latches follow the state, and the fields of one state stand in that state alone (R62, R63). -/
structure SlotRec.Formed (x : SlotRec) : Prop where
  permit : x.permit = x.state.powered
  warn : x.warn = (x.state == .draining)
  drain : x.drain.isSome = (x.state == .draining)
  goodDeadline : x.goodDeadline.isSome = (x.state == .starting)
  queueTime : x.queueTime.isSome = (x.state == .queued)

/-- A record between a warm restart and its adoption (R82, R83): its slot stands OFF or DISABLED, and
its latches still hold the levels of before, where WARN was never on without PERMIT (R63). -/
structure SlotRec.Latched (x : SlotRec) : Prop where
  warn : x.warn = true → x.permit = true
  drain : x.drain.isSome = (x.state == .draining)
  goodDeadline : x.goodDeadline.isSome = (x.state == .starting)
  queueTime : x.queueTime.isSome = (x.state == .queued)

/-- Every slot record has its form; between a warm restart and the adoption the latches alone may
stand otherwise (R62, R63, R83). -/
def FormLaw (s : State) : Prop :=
  ∀ n : Fin 48, if s.boot.adopting then (s.rack.slots[n]).Latched else (s.rack.slots[n]).Formed

/-! ### What follows the slots (R4, R52, R58, R85, R106) -/

/-- S is the sum of the slots' state draws, the shed relief is the sum of peak_w over the slots DRAINING
with target SHED, the powered slot count counts the powered slots, and the Start Queue holds exactly the
QUEUED slots, each once (R52, R58, R106, R85). -/
structure Rack.Follows (e : Env) (r : Rack) : Prop where
  s : r.acct.s = total 48 (drawOf e r)
  relief : r.acct.relief = total 48 fun n =>
    if (r.slots[n]).state = .draining ∧ (r.slots[n]).drain.map Drain.target = some .shed then
      (e.profile n).peakW
    else 0
  powered : r.grid.powered = countOf 48 fun n => (r.slots[n]).state.powered
  nodup : r.queue.entries.Nodup
  queued : ∀ n : Fin 48, n ∈ r.queue.entries ↔ (r.slots[n]).state = .queued

/-- A part that has not loaded its store is UNCOMMISSIONED, every slot of an UNCOMMISSIONED part
stands DISABLED, and the figures follow the slots (R4, R22, R52, R58, R85, R106). -/
structure RosterLaw (s : State) : Prop where
  unloaded : s.boot.loaded = false → s.cfg.locked = false
  disabled : s.cfg.locked = false → ∀ n : Fin 48, (s.rack.slots[n]).state = .disabled
  follows : s.rack.Follows s.env

/-! ### The order of the Start Queue (R85, R86) -/

/-- One queued slot stands before another by the three keys of R85: order number, lowest first; then
the age of queue_time, which counts to 2^30 ms (R18), greatest first; then slot index, lowest first.
Two that have both waited 2^30 ms keep the order in which they came to stand. -/
def Precedes (e : Env) (slots : Vector SlotRec 48) (a b : Fin 48) : Prop :=
  e.order a < e.order b ∨ e.order a = e.order b ∧
    (queueAge e slots b < queueAge e slots a ∨
      queueAge e slots a = queueAge e slots b ∧ (queueAge e slots a = 2 ^ 30 ∨ a < b))

/-- The head is the first entry of the Start Queue, and an empty queue has no head (R86). -/
def StartQueue.HeadFirst (q : StartQueue) : Prop := q.head.map QueueHead.slot = q.entries.head?

/-- The Start Queue stands in the order of R85 under its head (R86). -/
structure QueueLaw (s : State) : Prop where
  order : s.rack.queue.entries.Pairwise (Precedes s.env s.rack.slots)
  head : s.rack.queue.HeadFirst

/-! ### Bounds (R34, R93, R182, R189) -/

/-- The receive queue, the Notification Queue and the Start History hold no more than they can (R93,
R182, R189). -/
structure BoundsLaw (s : State) : Prop where
  rx : s.link.rx.length ≤ 4
  notif : s.rack.notif.entries.length ≤ 32
  history : s.rack.queue.history.length ≤ 4

/-- The Shelf Command Queue holds at most one entry for a position (R34). -/
def OneEntryLaw (s : State) : Prop := (s.rack.bus.entries.map CmdEntry.pos).Nodup

/-! ### Leaks and faults (R159, R163 to R165, R176, R177) -/

/-- The leak samples have their pace exactly once the store is loaded, and the next is due now or within
100 ms: none is passed over (R159). -/
def PaceLaw (s : State) : Prop :=
  s.leak.nextSample.isSome = s.boot.loaded ∧
    ∀ t : Time, s.leak.nextSample = some t → (t - s.now).toNat ≤ 100

/-- A grace deadline stands in ALARM alone (R164, R165). -/
def GraceLaw (s : State) : Prop :=
  ∀ z : Fin 8, (s.leak.zones[z]).grace.isSome = true → (s.leak.zones[z]).state = .alarm

/-- A bank holds a CRITICAL record (R175). -/
def Bank.critical (b : Bank) : Bool := b.valid && b.severity == 2

/-- The fault-in-progress flag is on exactly while some bank holds a CRITICAL record (R176, R177), and
no record has a severity above CRITICAL (R174). -/
structure FaultLaw (s : State) : Prop where
  severity : ∀ i : Fin 6, (s.rack.faults.banks[i]).severity ≤ 2
  flag : s.rack.faults.inProgress = s.rack.faults.banks.toList.any Bank.critical

/-! ### Requests (R189, R190) -/

/-- A request is executed now, and no check of R190 before its own rule turns it away. -/
structure Ready (s : State) (kind tag : Byte) (payload : List Byte) : Prop where
  first : s.executes ⟨kind, tag, payload⟩ = true
  tag : tag ≠ 0
  free : s.busy = false

end Sys2Proof.Machine
end

