-- ==== Sys2Proof/Certificates/Slice0/Obligations.lean ====
section
/-! DEFINITION. What is to be proved of the part. Each statement names the rules of spec/ that it
formalises, or says that it is the model's choice and names the log entry. -/

open Sys2Proof Sys2Proof.Machine

/-! ### Steps -/

/-- A step executes the command at the front of the queue with the queue's rest. -/
def Obligations.StepRunsFront : Prop :=
  ∀ (c : Instr) (rest : List Instr) (s : State), s.pending = c :: rest →
    step s = exec c { s with pending := rest }

/-- With no command waiting, the events the part holds due are put in the queue, and when none is due
one millisecond passes on the Rack Time Counter, which wraps to 0 (the model's choice: log entries 1 and
2); at the instant of an adoption that is owed time waits for ADOPTION, and at that of a leak sample for
LEAK_SAMPLE (R83, R159; that time waits is its choice: log entries 44 and 55). A due count above 0 falls
by one each 1,000 ms, on a present BU of a COMMISSIONED part in phase NONE, with every other field of a
BU record left, and CHECK_DUE comes where it falls to 0 (R148, R149; that the second counts from the
latest setting is its choice: log entry 3). The slot inputs are sampled every 10 ms, and a sample adds
one to what each input is known by, up to two (R64; log entry 28). Due are: the oldest request when R189
lets it be executed, a response window of 5 ms that has run out (R29) and a poll cycle (R30, R31), each
window counted from the ms in which its transaction began, an abandoned one's too (the model's choice:
log entry 7), the deadlines of slots, gate timer, start wait, qualify timer, control period, pending
sample and grace (R67, R72, R103, R104, R113, R144, R153, R165), and each timestamp older than 2^30 ms
(R18). -/
def Obligations.IdleStep : Prop :=
  (∀ s : State, s.pending = [] →
    (s.dueEvents ≠ [] → step s = .next { s with pending := s.dueEvents }) ∧
    (s.dueEvents = [] → s.boot.adopting = true → (s.now - s.boot.restartAt).toNat = 10 →
      step s = .next s) ∧
    (s.dueEvents = [] → s.leak.nextSample = some s.now → step s = .next s) ∧
    (s.dueEvents = [] → (s.boot.adopting = false ∨ (s.now - s.boot.restartAt).toNat ≠ 10) →
     s.leak.nextSample ≠ some s.now →
     ∃ t, step s = .next t ∧ t.now = s.now + 1 ∧
      (s.now = 4294967295 → t.now = 0) ∧
      t.pending = ((List.finRange 12).filter fun j =>
        (s.rack.bu[j]).due = 1 ∧ (t.rack.bu[j]).due = 0).map Instr.checkDue ∧
      (∀ j : Fin 12,
        (let b := s.rack.bu[j]
         let counts := s.cfg.locked = true ∧ b.present = true ∧ b.phase = .none ∧ 0 < b.due
         (¬counts → t.rack.bu[j] = b) ∧
         (counts → b.dueMs < 999 → t.rack.bu[j] = { b with dueMs := b.dueMs + 1 }) ∧
         (counts → 999 ≤ b.dueMs → t.rack.bu[j] = { b with due := b.due - 1, dueMs := 0 }))) ∧
      (10 ≤ (t.now - s.inputs.sampled).toNat → t.inputs.sampled = t.now ∧
        ∀ n : Fin 48, t.inputs.good[n] = min 2 (s.inputs.good[n] + 1) ∧
          t.inputs.parked[n] = min 2 (s.inputs.parked[n] + 1)) ∧
      ((t.now - s.inputs.sampled).toNat < 10 → t.inputs = s.inputs) ∧
      t = { s with
        now := t.now, pending := t.pending, rack.bu := t.rack.bu, inputs := t.inputs })) ∧
  (∀ (s : State) (c : Instr),
    (let ran := fun d : Deadline => d.len ≤ (s.now - d.set).toNat
     c ∈ s.dueEvents ↔
      (∃ f : LinkFrame, s.link.rx.head? = some f ∧ s.link.holder = none ∧
        s.store.saving = false ∧ c = requestOf f) ∨
      (c = .responseWindowExpiry ∧
        ∃ x, s.rack.bus.inFlight = some x ∧ 5 ≤ (s.now - x.began).toNat) ∨
      (c = .pollCycleBegin ∧ s.boot.loaded = true ∧ s.rack.bus.cycle = none ∧
        (∀ t, s.rack.bus.lastBegan = some t → 100 ≤ (s.now - t).toNat) ∧
        (∀ t, s.rack.bus.abandoned = some t → 5 ≤ (s.now - t).toNat)) ∨
      (∃ n, c = .goodDeadline n ∧ (s.rack.slots[n]).state = .starting ∧
        ∃ d, (s.rack.slots[n]).goodDeadline = some d ∧ ran d) ∨
      (∃ n, c = .drainDeadline n ∧ (s.rack.slots[n]).state = .draining ∧
        ∃ d, (s.rack.slots[n]).drain = some d ∧ ran d.deadline) ∨
      (c = .gateTimer ∧ ∃ d, s.rack.queue.timer = some d ∧ ran d) ∨
      (c = .startStalled ∧ ∃ h, s.rack.queue.head = some h ∧ h.stallSent = false ∧
        1000 * s.env.param 4 ≤ (s.now - h.since).toNat) ∨
      (c = .qualifyTimer ∧ s.rack.grid.state = .qualify ∧
        ∃ d, s.rack.grid.qualify = some d ∧ ran d) ∨
      (∃ f, s.rack.rech.frame = some f ∧ 1000 * f.period ≤ (s.now - f.start).toNat ∧
        (c = .controlPeriod ∧ f.period < 16 ∨ c = .frameBoundary ∧ f.period = 16)) ∨
      (∃ j, c = .sampleDeadline j ∧ (s.rack.bu[j]).phase = .samplePending ∧
        ∃ d, (s.rack.bu[j]).sampleDeadline = some d ∧ ran d) ∨
      (∃ z, c = .graceExpiry z ∧ (s.leak.zones[z]).state = .alarm ∧ s.boot.adopting = false ∧
        ∃ d, (s.leak.zones[z]).grace = some d ∧ ran d) ∨
      (∃ p t, c = .timestampPin p ∧ s.pinned p = some t ∧ 2 ^ 30 < (s.now - t).toNat)))

/-- No command stops the block: each answers a next state, one whose event cannot happen included (the
model's choice: log entry 6), leaves the queue of commands alone (its choice: log entry 5), and, but for
POWER_ON, takes no time (its choice: log entry 2). -/
def Obligations.CommandsAnswerAndTakeNoTime : Prop :=
  ∀ (c : Instr) (s : State), ∃ t, exec c s = .next t ∧ t.pending = s.pending ∧
    (c = .powerOn ∨ t.now = s.now)

/-- What every command ends with (that each ends with the same hand-ons, and their order within a pass,
are the model's choice: log entry 4). The rack settles, then takes the poll cycle's end when it has
come, and then the arbiter acts: a rack with nothing left to hand on stands, and any other takes passes.
A pass takes the grid's evaluation, the entry to DARK, the Account's shortfall, the pool's update, the
Hold-Up Calculator's evaluation and the evaluation of BUs newly due, each where it is handed on, and
then judges the head of the Start Queue once nothing else is left (R51, R101, R130, R137, R149). A
battery area write that is asked for waits in the store, which begins the next write when none is in
progress (R19, R20, R21). Neither the time changes, nor the working configuration, nor the Leak Monitor,
nor the PSU records, nor the four store images, nor anything of the Rack Link Port but the transmit
line. -/
def Obligations.EndOfCommandFrame : Prop :=
  (∀ s : State,
    (let r := arbitrate s.env (followCycle s.env (settle s.env 64 s.rack))
     let asked : Store :=
       if r.todo.battery = true then { s.store with batteryWaiting := true } else s.store
     s.conclude.rack = { r with todo := { r.todo with battery := false } } ∧
     s.conclude.store = asked.nextWrite s.cfg r.bu) ∧
    s.conclude.pending = s.pending ∧ s.conclude.now = s.now ∧ s.conclude.boot = s.boot ∧
    s.conclude.cfg = s.cfg ∧ s.conclude.marks = s.marks ∧ s.conclude.leak = s.leak ∧
    s.conclude.inputs = s.inputs ∧ s.conclude.free = s.free ∧
    s.conclude.rack.psu = s.rack.psu ∧
    s.conclude.store.configFirst = s.store.configFirst ∧
    s.conclude.store.configSecond = s.store.configSecond ∧
    s.conclude.store.batteryFirst = s.store.batteryFirst ∧
    s.conclude.store.batterySecond = s.store.batterySecond ∧
    s.conclude.link = { s.link with line := s.conclude.link.line }) ∧
  (∀ (e : Env) (r : Rack),
    (settled r = true ↔ r.todo.grid = false ∧ r.todo.account = false ∧ r.todo.pool = false ∧
      r.todo.hold = false ∧ r.todo.head = false ∧ r.todo.checks = [] ∧
      ¬(r.grid.state = .drain ∧ r.grid.powered = 0)) ∧
    (∀ k : Nat, (settled r = true → settle e k r = r) ∧
      (settled r = false → settle e (k + 1) r = settle e k (pass e r)))) ∧
  (∀ (e : Env) (r : Rack),
    (let grid := if r.todo.grid = true then
       evaluateGrid e { r with todo := { r.todo with grid := false } } else r
     let dark := if grid.grid.state = .drain ∧ grid.grid.powered = 0 then enterDark e grid else grid
     let account := if dark.todo.account = true then
       evaluateShortfall e { dark with todo := { dark.todo with account := false } } else dark
     let pool := if account.todo.pool = true then
       poolUpdate e { account with todo := { account.todo with pool := false } } else account
     let hold := if pool.todo.hold = true then evaluateHold e pool else pool
     let done := if hold.todo.checks = [] then hold else
       evaluateChecks e (fun j => decide (j ∈ hold.todo.checks))
         { hold with todo := { hold.todo with checks := [] } }
     let judged : Rack := { done with todo := { done.todo with head := false } }
     (done.todo.head = true → settled judged = true → pass e r = evaluateHead e judged) ∧
     ((done.todo.head = false ∨ settled judged = false) → pass e r = done)))

/-- The next frame on the transmit line (R191, R196): on an idle line the reply in the reply holder if
there is one and otherwise the oldest entry of the Notification Queue; a frame being sent is not cut;
nothing begins while RESTART_N stands low. -/
def Obligations.TransmitLine : Prop :=
  ∀ s : State,
    (∀ f, s.link.line = .idle → s.boot.pinLow = false → s.link.holder = some f →
      s.conclude.link.line = .reply (linkFrameBytes f.kind f.tag f.payload)) ∧
    (s.link.line = .idle → s.boot.pinLow = false → s.link.holder = none →
      s.conclude.link.line = match s.conclude.rack.notif.entries with
        | x :: _ => .notification (linkFrameBytes 0 0 x.payload)
        | [] => .idle) ∧
    (s.link.line ≠ .idle → s.conclude.link.line = s.link.line) ∧
    (s.boot.pinLow = true → s.conclude.link.line = s.link.line)

/-! ### Power-on, loading, restarts -/

/-- POWER_ON: every block takes its power-on values, and no store image is lost but the one that a write
in progress had at hand, which is the second of its area when the first holds the newest valid content
and the first otherwise, so that an area with a valid image goes on giving the content it gave (R17,
R19, R22, R28, R40, R43, R44, R45, R82, R85, R93, R106, R123, R139, R148, R158, R162, R172, R181, R186,
R189; the load that follows says which positions and slots are in service, R22, R23). The configuration
that stands before the load, the values of fields that no rule gives and the pin at high are the model's
choices (log entries 8, 14 and 20), that the first sample of the slot inputs is that of the instant is
too (log entry 28), and so is the step of the counter of free values that a cut image takes (log entry
9). -/
def Obligations.PowerOn : Prop :=
  (∀ s : State, ∃ u : State, exec .powerOn s = .next u ∧
    u.pending = s.pending ∧ u.now = 0 ∧ u.free = s.free + 1 ∧
    u.boot.loaded = false ∧ u.boot.adopting = false ∧ u.boot.pinLow = false ∧
    u.cfg = defaultCfg ∧ u.marks = noMarks ∧
    u.link.rx = [] ∧ u.link.rxState = .hunting ∧ u.link.holder = none ∧ u.link.line = .idle ∧
    u.link.restartOwed = false ∧ u.link.stray = 0 ∧ u.link.lengthErrors = 0 ∧ u.link.gaps = 0 ∧
    u.link.crcErrors = 0 ∧ u.link.good = 0 ∧ u.link.overruns = 0 ∧
    u.inputs = ⟨0, Vector.replicate 48 1, Vector.replicate 48 1⟩ ∧
    (let l := u.leak
     (∀ c : Fin 16, (l.channels[c]).state = .dry ∧ (l.channels[c]).wetCount = 0 ∧
       (l.channels[c]).openCount = 0 ∧ (l.channels[c]).dryCount = 0 ∧
       (l.channels[c]).dryRun = 0 ∧ (l.channels[c]).level = none) ∧
     (∀ z : Fin 8, (l.zones[z]).state = .clear ∧ (l.zones[z]).alarmTime = none ∧
       (l.zones[z]).grace = none ∧ ∀ h : Fin 3, (l.zones[z]).shelves[h] = false) ∧
     l.firstWindow = false ∧ l.samples = 0 ∧ l.nextSample = none) ∧
    (let b := u.rack.bus
     b.transactions = 0 ∧ b.unanswered = 0 ∧ b.badFrames = 0 ∧ b.overrunCycles = 0 ∧
     b.inFlight = none ∧ b.abandoned = none ∧ b.entries = [] ∧ b.sincePoll = 0 ∧
     b.polledSet = [] ∧ b.cycle = none ∧ b.lastBegan = none ∧ b.lateEnd = false) ∧
    (∀ i : Fin 18, u.rack.psu[i] = {
      present := false, state := .absent, capability := 0, output := 0, input := .absent
      miss := 0, lastReport := 0, reportPending := true, commandedOn := true }) ∧
    (∀ j : Fin 12,
      (let b := u.rack.bu[j]
       b.present = false ∧ b.state = .absent ∧ b.energy = 0 ∧ b.discharge = 0 ∧ b.delivered = 0 ∧
       b.lastCounter = 0 ∧ b.baseline = false ∧ b.miss = 0 ∧ b.lastReport = 0 ∧
       b.reportPending = true ∧ b.commandedIsolate = false ∧ b.leakIsolated = false ∧
       b.offered = 0 ∧ b.offeredRem = 0 ∧ b.accepted = 0 ∧ b.setpoint = 0 ∧ b.phase = .none ∧
       b.sampleDeadline = none ∧ b.strayCounted = false ∧ b.aborts = 0 ∧ b.dueMs = 0)) ∧
    (let a := u.rack.acct
     a.takenUp = false ∧ a.nOn = 0 ∧ a.g = 0 ∧ a.q = 0 ∧ a.a = 0 ∧ a.adm = 0 ∧
     a.redundancy = .exposed ∧ a.s = 0 ∧ a.rc = 0 ∧ a.shortfall = false ∧ a.recorded = 0 ∧
     a.relief = 0) ∧
    (∀ n : Fin 48, u.rack.slots[n] = {
      state := .disabled, offSince := 0, grantTime := none, queueTime := none, drain := none
      goodDeadline := none, lastFault := none, cause := .configuration, good := false
      parked := false, permit := false, warn := false }) ∧
    (let q := u.rack.queue
     q.entries = [] ∧ q.head = none ∧ q.gate = 0 ∧ q.detail = 0 ∧ q.timer = none ∧
     q.history = []) ∧
    (let g := u.rack.grid
     g.state = .startup ∧ g.level = 0 ∧ g.inEvent = false ∧ g.eventStart = none ∧ g.bounces = 0 ∧
     g.drainFlag = false ∧ g.qualify = none ∧ g.events = 0 ∧ g.powered = 0) ∧
    (let h := u.rack.hold
     h.evaluated = false ∧ h.lastTime = none ∧ h.usableCount = 0 ∧ h.u = 0 ∧ h.d = 0 ∧ h.p = 0 ∧
     h.mOut = 0 ∧ h.mDis = 0 ∧ h.removal = false ∧ h.m = 0 ∧ h.l = 0 ∧ h.t = 0 ∧ h.x1 = 0 ∧
     h.x2 = 0 ∧ h.x3 = 0 ∧ h.t1 = 0 ∧ h.t2 = 0 ∧ h.t3 = 0 ∧ h.required = 0 ∧
     h.drainHolds = false ∧ h.shortLogged = false ∧
     ∀ j : Fin 12, h.perBu[j] = ⟨false, 0, 0⟩) ∧
    (let x := u.rack.rech
     x.pool = 0 ∧ x.candidate = 0 ∧ x.frame = none ∧ x.carried = false ∧
     ∀ j : Fin 12, x.members[j] = none) ∧
    u.rack.active = none ∧
    (let f := u.rack.faults
     (∀ i : Fin 6, (f.banks[i]).valid = false) ∧ f.inProgress = false ∧ f.hold = none) ∧
    (let q := u.rack.notif
     q.entries = [] ∧ q.globalMask = false ∧
     ∀ c : Fin 8, q.masks[c] = false ∧ q.pending[c] = false ∧ q.lost[c] = 0) ∧
    settled u.rack = true ∧ u.rack.todo.battery = false) ∧
  (∀ s : State,
    (let t : Store := { s.store.spoiled s.free with
       writing := none, saving := false, saveTag := none, batteryWaiting := false }
     let second := fun a b : ImageView => a.valid = true ∧ ¬(b.valid = true ∧
       1 ≤ (b.count - a.count).toNat ∧ (b.count - a.count).toNat ≤ 2147483647)
     exec .powerOn s = .next { State.powerOn t (s.free + 1) with pending := s.pending } ∧
     ((∀ c, s.store.writing ≠ some (.config c)) →
       t.configFirst = s.store.configFirst ∧ t.configSecond = s.store.configSecond) ∧
     ((∀ c, s.store.writing ≠ some (.battery c)) →
       t.batteryFirst = s.store.batteryFirst ∧ t.batterySecond = s.store.batterySecond) ∧
     (∀ c : ConfigImage, s.store.writing = some (.config c) →
       (ConfigSlot.residue s.free c).crcOk = false ∧
       (second s.store.configA s.store.configB →
         t.configFirst = s.store.configFirst ∧ t.configSecond = .residue s.free c) ∧
       (¬second s.store.configA s.store.configB →
         t.configFirst = .residue s.free c ∧ t.configSecond = s.store.configSecond)) ∧
     (∀ c : Vector BatteryEntry 12, s.store.writing = some (.battery c) →
       (BatterySlot.residue s.free c).crcOk = false ∧
       (second s.store.batteryA s.store.batteryB →
         t.batteryFirst = s.store.batteryFirst ∧ t.batterySecond = .residue s.free c) ∧
       (¬second s.store.batteryA s.store.batteryB →
         t.batteryFirst = .residue s.free c ∧ t.batterySecond = s.store.batterySecond)) ∧
     ((s.store.configA.valid = true ∨ s.store.configB.valid = true) →
       t.loadCfg = s.store.loadCfg) ∧
     ((s.store.batteryA.valid = true ∨ s.store.batteryB.valid = true) →
       t.loadBattery = s.store.loadBattery)))

/-- STORE_LOAD_COMPLETE: the part has loaded, the working configuration is the one the config area
gives, a part loaded COMMISSIONED is validated and its modules stand LOST until they report, every slot
starts OFF or DISABLED with PERMIT off, each BU record takes its battery area entry whole, the first
leak sample is due at this instant, and what the load found wrong is logged, the config area's fault
first (the order is the model's choice: log entry 38) (R22, R23, R40, R43, R82, R159). -/
def Obligations.StoreLoad : Prop :=
  ∀ s : State, s.boot.loaded = false →
    ∃ u : State, u = s.loadTables.onRack loadSlots ∧
      exec .storeLoadComplete s = .next (u.onRack fun e r =>
        forEach (fun x r => logFault e x.1 x.2 r) s.store.loadFaults r).conclude ∧
      u.boot = { s.boot with loaded := true } ∧
      u.cfg = s.store.loadCfg ∧
      u.marks = (if u.cfg.locked then validate u.cfg.record u.cfg.profiles else noMarks) ∧
      (∀ n : Fin 48, (u.rack.slots[n]).permit = false ∧ (u.rack.slots[n]).warn = false ∧
        (u.rack.slots[n]).state = if u.env.usable n then .off else .disabled) ∧
      (∀ i : Fin 18, (u.rack.psu[i]).present = (u.cfg.locked && u.cfg.record.psuPresent i) ∧
        (u.rack.psu[i]).state = if (u.rack.psu[i]).present then .lost else .absent) ∧
      (∀ j : Fin 12, (u.rack.bu[j]).present = (u.cfg.locked && u.cfg.record.buPresent j) ∧
        (u.rack.bu[j]).state = (if (u.rack.bu[j]).present then .lost else .absent) ∧
        (u.rack.bu[j]).h = (s.store.loadBattery[j]).h ∧
        (u.rack.bu[j]).stale = (s.store.loadBattery[j]).stale ∧
        (u.rack.bu[j]).due = (s.store.loadBattery[j]).due ∧
        u.rack.bu[j] = { s.rack.bu[j] with
          present := (u.rack.bu[j]).present
          state := (u.rack.bu[j]).state
          h := (s.store.loadBattery[j]).h
          stale := (s.store.loadBattery[j]).stale
          postponed := (s.store.loadBattery[j]).postponed
          due := (s.store.loadBattery[j]).due
          dueMs := 0
          lockPresent := (s.store.loadBattery[j]).lockPresent }) ∧
      u.leak = { s.leak with nextSample := some s.now } ∧
      u = { s with
        boot := u.boot, cfg := u.cfg, marks := u.marks, leak := u.leak, rack.psu := u.rack.psu,
        rack.bu := u.rack.bu, rack.slots := u.rack.slots }

/-- What the two areas of the store give at power-on, by what they hold (R22, R23): of two marked images
the second is the newer when secondNewer says so (R19), and the working configuration an image gives has
the staged plan equal to the active one and no commit armed (R1). A battery load that comes with the
factory defaults has every lock-present flag cleared. Where both areas give a fault the config area's
comes first (the model's choice: log entry 38). -/
def Obligations.ConfigLoadTable : Prop :=
  ∀ t : Store,
    ((t.configFirst.marked = false → t.configSecond.marked = false →
      t.loadCfg = defaultCfg ∧ ∀ f, (f, 0) ∉ t.loadFaults) ∧
    (t.configFirst.marked = true → t.configFirst.crcOk = true →
      (t.configSecond.marked = false ∨
        secondNewer t.configFirst.count t.configSecond.count = false) →
      t.loadCfg = t.configFirst.content.working ∧ ∀ f, (f, 0) ∉ t.loadFaults) ∧
    (t.configSecond.marked = true → t.configSecond.crcOk = true →
      (t.configFirst.marked = false ∨
        secondNewer t.configFirst.count t.configSecond.count = true) →
      t.loadCfg = t.configSecond.content.working ∧ ∀ f, (f, 0) ∉ t.loadFaults) ∧
    (t.configFirst.marked = true → t.configSecond.marked = true →
      secondNewer t.configFirst.count t.configSecond.count = true →
      t.configSecond.crcOk = false → t.configFirst.crcOk = true →
      t.loadCfg = t.configFirst.content.working ∧ (.storeRecovered, 0) ∈ t.loadFaults) ∧
    (t.configFirst.marked = true → t.configSecond.marked = true →
      secondNewer t.configFirst.count t.configSecond.count = false →
      t.configFirst.crcOk = false → t.configSecond.crcOk = true →
      t.loadCfg = t.configSecond.content.working ∧ (.storeRecovered, 0) ∈ t.loadFaults) ∧
    ((t.configFirst.marked = true ∨ t.configSecond.marked = true) →
      (t.configFirst.marked = true → t.configFirst.crcOk = false) →
      (t.configSecond.marked = true → t.configSecond.crcOk = false) →
      t.loadCfg = defaultCfg ∧ (.storeCorrupt, 0) ∈ t.loadFaults)) ∧
    (let defaults := (t.configFirst.marked = true → t.configFirst.crcOk = false) ∧
        (t.configSecond.marked = true → t.configSecond.crcOk = false)
     let gives := fun entries : Vector BatteryEntry 12 =>
        (¬defaults → t.loadBattery = entries) ∧
        (defaults → t.loadBattery = entries.map fun x => { x with lockPresent := false })
     let initial : Vector BatteryEntry 12 := Vector.replicate 12 ⟨192, true, 0, 0, false⟩
     (t.batteryFirst.marked = false → t.batterySecond.marked = false →
       gives initial ∧ ∀ f, (f, 1) ∉ t.loadFaults) ∧
     (t.batteryFirst.marked = true → t.batteryFirst.crcOk = true →
       (t.batterySecond.marked = false ∨
         secondNewer t.batteryFirst.count t.batterySecond.count = false) →
       gives t.batteryFirst.content ∧ ∀ f, (f, 1) ∉ t.loadFaults) ∧
     (t.batterySecond.marked = true → t.batterySecond.crcOk = true →
       (t.batteryFirst.marked = false ∨
         secondNewer t.batteryFirst.count t.batterySecond.count = true) →
       gives t.batterySecond.content ∧ ∀ f, (f, 1) ∉ t.loadFaults) ∧
     (t.batteryFirst.marked = true → t.batterySecond.marked = true →
       secondNewer t.batteryFirst.count t.batterySecond.count = true →
       t.batterySecond.crcOk = false → t.batteryFirst.crcOk = true →
       gives t.batteryFirst.content ∧ (.storeRecovered, 1) ∈ t.loadFaults) ∧
     (t.batteryFirst.marked = true → t.batterySecond.marked = true →
       secondNewer t.batteryFirst.count t.batterySecond.count = false →
       t.batteryFirst.crcOk = false → t.batterySecond.crcOk = true →
       gives t.batterySecond.content ∧ (.storeRecovered, 1) ∈ t.loadFaults) ∧
     ((t.batteryFirst.marked = true ∨ t.batterySecond.marked = true) →
       (t.batteryFirst.marked = true → t.batteryFirst.crcOk = false) →
       (t.batterySecond.marked = true → t.batterySecond.crcOk = false) →
       gives initial ∧ (.batteryAreaReset, 1) ∈ t.loadFaults)) ∧
    (∀ x : ConfigImage, x.working = {
      record := x.record, locked := x.locked, profiles := x.profiles, staged := x.active
      active := x.active, armed := false, params := x.params, leakTable := x.leakTable }) ∧
    t.loadFaults.length ≤ 2 ∧ (∀ x y, t.loadFaults = [x, y] → x.2 = 0 ∧ y.2 = 1) ∧
    (∀ x y : Count32, secondNewer x y = true ↔ 1 ≤ (y - x).toNat ∧ (y - x).toNat ≤ 2147483647)

/-- A write to either area that fails or is cut short leaves the previous content the one a load gives,
and one that succeeds, over intact images, makes its own content the one a load gives (R19, R20, R21). A
write goes to the second image when the first holds the newest valid content and to the first otherwise,
and leaves the other; the image written carries the CRC-16 of its save count and content and a count one
above that of the newest marked image, or 1 where none is marked. That the image of a bad write has no
correct CRC, with its marker and count free values, and the bytes its content stands for, are the model's
choices (log entry 9). -/
def Obligations.ConfigWriteSafe : Prop :=
  (∀ (t : Store) (c : ConfigImage) (n : Nat), t.writing = some (.config c) →
    ((t.configA.valid = true ∨ t.configB.valid = true) → (t.spoiled n).loadCfg = t.loadCfg) ∧
    ((t.configFirst.marked = true → t.configFirst.crcOk = true) →
      (t.configSecond.marked = true → t.configSecond.crcOk = true) →
      t.written.loadCfg = c.working)) ∧
  (∀ (t : Store) (c : Vector BatteryEntry 12) (n : Nat), t.writing = some (.battery c) →
    ((t.batteryA.valid = true ∨ t.batteryB.valid = true) →
      (t.spoiled n).loadBattery = t.loadBattery) ∧
    ((t.batteryFirst.marked = true → t.batteryFirst.crcOk = true) →
      (t.batterySecond.marked = true → t.batterySecond.crcOk = true) →
      t.written.loadBattery =
        if t.loadsDefaults then c.map fun x => { x with lockPresent := false } else c) ∧
    t.written.loadCfg = t.loadCfg ∧ (t.spoiled n).loadCfg = t.loadCfg) ∧
  (∀ (count : Count32) (c : ConfigImage),
    ConfigSlot.made count c = ⟨true, count, c,
      crc16 (u32 count.toNat ++ Config.configBytes c)⟩ ∧ (ConfigSlot.made count c).crcOk = true) ∧
  (∀ (count : Count32) (c : Vector BatteryEntry 12),
    BatterySlot.made count c = ⟨true, count, c,
      crc16 (u32 count.toNat ++ Config.batteryBytes c)⟩ ∧ (BatterySlot.made count c).crcOk = true) ∧
  (∀ (t : Store) (n : Nat),
    (let newer := fun a b : ImageView => 1 ≤ (b.count - a.count).toNat ∧
       (b.count - a.count).toNat ≤ 2147483647
     let second := fun a b : ImageView => a.valid = true ∧ ¬(b.valid = true ∧ newer a b)
     let next := fun (a b : ImageView) (k : Count32) =>
       (a.marked = false → b.marked = false → k = 1) ∧
       (a.marked = true → (b.marked = false ∨ ¬newer a b) → k = a.count + 1) ∧
       (b.marked = true → (a.marked = false ∨ newer a b) → k = b.count + 1)
     (∀ c : ConfigImage, t.writing = some (.config c) →
       ∃ (k : Count32) (bad : ConfigSlot), next t.configA t.configB k ∧ bad.crcOk = false ∧
         (second t.configA t.configB →
           t.written = { t with configSecond := .made k c } ∧
           t.spoiled n = { t with configSecond := bad }) ∧
         (¬second t.configA t.configB →
           t.written = { t with configFirst := .made k c } ∧
           t.spoiled n = { t with configFirst := bad })) ∧
     (∀ c : Vector BatteryEntry 12, t.writing = some (.battery c) →
       ∃ (k : Count32) (bad : BatterySlot), next t.batteryA t.batteryB k ∧ bad.crcOk = false ∧
         (second t.batteryA t.batteryB →
           t.written = { t with batterySecond := .made k c } ∧
           t.spoiled n = { t with batterySecond := bad }) ∧
         (¬second t.batteryA t.batteryB →
           t.written = { t with batteryFirst := .made k c } ∧
           t.spoiled n = { t with batteryFirst := bad }))))

/-- RESTART_N begins the warm restart and holds the link while it stands low; its release begins no
second one; the restart that a RESTART asks for is taken at the end of its reply, and any other reply's
end empties the reply holder alone (R189, R196). -/
def Obligations.RestartsAndRepliesSent : Prop :=
  (∀ s : State, s.boot.pinLow = false →
    exec .restartN s = .next
      { s.warmRestart with boot := { s.warmRestart.boot with pinLow := true } }.conclude) ∧
  (∀ s : State,
    exec .restartNRelease s = .next { s with boot := { s.boot with pinLow := false } }.conclude) ∧
  (∀ (s : State) (b : List Byte), s.link.line = .reply b → s.link.restartOwed = true →
    exec .replySent s = .next
      ({ s with link := { s.link with line := .idle, holder := none } }.warmRestart).conclude) ∧
  (∀ (s : State) (b : List Byte), s.link.line = .reply b → s.link.restartOwed = false →
    exec .replySent s = .next
      { s with link := { s.link with line := .idle, holder := none } }.conclude)

/-- What a warm restart keeps and what it resets (R40, R43, R139, R148, R196 and the rules its table
names): every field of a BU record stays but the report pending and the miss count of a present one, the
setpoint, the stray-counted mark, and the phase and the due count of a check that was requested or
running; the link's counters stay, and the bus's. That the byte being sent is not finished (log entry
7), that a waiting battery write is kept (log entry 25), that the first sample of the slot inputs is
that of the restart's instant (log entry 28), that the polled set stays (log entry 29), that a slot
keeps its last cause (log entry 33), how the setpoints from before are remembered (log entry 43) and
that the hold-up figures of each BU stand at no and 0 (log entry 54) are the model's reading. -/
def Obligations.WarmRestart : Prop :=
  ∀ s : State,
    s.warmRestart.now = s.now ∧ s.warmRestart.leak = s.leak ∧ s.warmRestart.marks = s.marks ∧
    s.warmRestart.cfg = { s.cfg with armed := false } ∧
    s.warmRestart.store = { s.store with saveTag := none } ∧
    s.warmRestart.inputs = ⟨s.now, Vector.replicate 48 1, Vector.replicate 48 1⟩ ∧
    s.warmRestart.boot = { s.boot with adopting := true, restartAt := s.now } ∧
    s.warmRestart.rack.faults = s.rack.faults ∧
    s.warmRestart.link = { s.link with
      rxState := .hunting, rx := [], holder := none, line := .idle, restartOwed := false } ∧
    s.warmRestart.rack.notif = emptyNotifQueue ∧
    s.warmRestart.rack.queue = {
      entries := [], head := none, gate := 0, detail := 0, timer := none
      history := List.replicate 4 ⟨s.now, none⟩ } ∧
    s.warmRestart.rack.grid = { initialGrid with events := s.rack.grid.events } ∧
    s.warmRestart.rack.acct = initialAccount ∧ s.warmRestart.rack.hold = initialHoldUp ∧
    s.warmRestart.rack.rech = { initialRecharge with carried := true } ∧
    s.warmRestart.rack.active = none ∧
    s.warmRestart.link.stray = s.link.stray ∧
    s.warmRestart.link.lengthErrors = s.link.lengthErrors ∧
    s.warmRestart.link.gaps = s.link.gaps ∧ s.warmRestart.link.crcErrors = s.link.crcErrors ∧
    s.warmRestart.link.good = s.link.good ∧ s.warmRestart.link.overruns = s.link.overruns ∧
    s.warmRestart.free = s.free ∧ s.warmRestart.pending = s.pending ∧
    s.warmRestart.rack.bus = {
      transactions := s.rack.bus.transactions
      unanswered := s.rack.bus.unanswered
      badFrames := s.rack.bus.badFrames
      overrunCycles := s.rack.bus.overrunCycles
      polledSet := s.rack.bus.polledSet
      inFlight := none, entries := [], sincePoll := 0
      abandoned := if s.rack.bus.inFlight = none then s.rack.bus.abandoned
        else s.rack.bus.inFlight.map Transaction.began
      cycle := none, lastBegan := none, lateEnd := false } ∧
    (∀ i : Fin 18,
      ((s.rack.psu[i]).present = true → s.warmRestart.rack.psu[i] =
        { s.rack.psu[i] with reportPending := true, miss := 0 }) ∧
      ((s.rack.psu[i]).present = false → s.warmRestart.rack.psu[i] = s.rack.psu[i])) ∧
    (∀ j : Fin 12,
      (let b := s.rack.bu[j]
       let checked := b.phase = .requested ∨ b.phase = .running
       s.warmRestart.rack.bu[j] = { b with
         setpoint := 0
         strayCounted := false
         reportPending := b.present || b.reportPending
         miss := if b.present = true then 0 else b.miss
         phase := if checked then .none else b.phase
         sampleDeadline := if checked then none else b.sampleDeadline
         due := if checked then 0 else b.due
         dueMs := if checked then 0 else b.dueMs })) ∧
    (∀ n : Fin 48, s.warmRestart.rack.slots[n] = { s.rack.slots[n] with
      state := if s.env.usable n then .off else .disabled
      grantTime := none, queueTime := none, drain := none, goodDeadline := none
      good := false, parked := false }) ∧
    settled s.warmRestart.rack = true

/-- ADOPTION, 10 ms after a warm restart, adopts every slot from its latch, takes a GOOD found high
elsewhere as a rising event, and then acts on each zone (R83, R84, R172), each slot's change handed on
before the next (R65, R130, R137); that the slots, the late GOOD levels and the zones come in this
order, each in index order, is the model's reading (log entry 17). Every GOOD is then known by the
sample just taken. At any other instant, or with no adoption owed, it does nothing (the model's choices:
log entries 6 and 44). A GOOD found high and not taken by the adoption is taken; inside the rack a slot
that stands OFF, SHED, ISOLATED or QUEUED then becomes FAULTED, and GOOD_UNEXPECTED is logged and kept
as the last fault (R69). A zone in ALARM with a grace isolates when its deadline is reached and
otherwise drains its slots anew with the time left; one CLEAR or WATCH follows its channels; any other
is left (R165, R172). -/
def Obligations.AdoptionCompletes : Prop :=
  (∀ (s : State) (good : BitVec 48), s.boot.adopting = true →
    (s.now - s.boot.restartAt).toNat = 10 →
    exec (.adoption good) s = .next
      (forEach (fun z t => State.adoptZone t z) (List.finRange 8)
        ((({ s with
            boot := { s.boot with adopting := false }
            inputs := { s.inputs with good := Vector.replicate 48 0 } } : State).onRack fun e r =>
          forEach (adoptInTurn e good) (List.finRange 48) r).onRack fun e r =>
            forEach (fun n r => handOn e (lateGood e good n r)) (List.finRange 48) r)).conclude) ∧
  (∀ (s : State) (good : BitVec 48),
    (s.boot.adopting = false ∨ (s.now - s.boot.restartAt).toNat ≠ 10) →
    exec (.adoption good) s = .next s) ∧
  (∀ (e : Env) (good : BitVec 48) (n : Fin 48) (r : Rack),
    (let x := r.slots[n]
     let t := lateGood e good n r
     let taken : Rack := { r with slots := put r.slots n { x with good := true } }
     ((good.getLsbD n.val = false ∨ x.good = true) → t = r) ∧
     (good.getLsbD n.val = true → x.good = false → e.insideRack n = false → t = taken) ∧
     (good.getLsbD n.val = true → x.good = false → e.insideRack n = true →
       (∀ m : Fin 48, m ≠ n → t.slots[m] = r.slots[m]) ∧
       (t.slots[n]).good = true ∧ (t.slots[n]).lastFault = some .goodUnexpected ∧
       t.faults = r.faults.log e.now .goodUnexpected n.val ∧
       (x.state ∈ [SlotState.off, .shed, .isolated, .queued] →
         (t.slots[n]).state = .faulted ∧ (t.slots[n]).cause = .goodRising ∧
         (t.slots[n]).queueTime = none ∧
         t = markFault e n .goodUnexpected .goodUnexpected (enter e n .faulted .goodRising taken)) ∧
       (x.state ∉ [SlotState.off, .shed, .isolated, .queued] →
         t.slots[n] = { x with good := true, lastFault := some .goodUnexpected } ∧
         t = markFault e n .goodUnexpected .goodUnexpected taken)))) ∧
  (∀ (s : State) (z : Fin 8),
    (let x := s.leak.zones[z]
     (∀ d : Deadline, x.state = .alarm → x.grace = some d →
       (let gone := (s.now - d.set).toNat
        (d.len ≤ gone → s.adoptZone z = s.isolateZone z) ∧
        (gone < d.len → s.adoptZone z = { s with
          rack := forEach
            (fun n r => handOn s.env (drainInTurn s.env (.leak (d.len - gone)) n r))
            ((List.finRange 48).filter fun n => s.env.slotZone n == some z) s.rack }))) ∧
     ((x.state = .clear ∨ x.state = .watch) → s.adoptZone z = s.followZone z) ∧
     ((x.state = .isolated ∨ x.state = .alarm ∧ x.grace = none) → s.adoptZone z = s)))

/-- One slot at the adoption (R83, R84, R115): with PERMIT latched ON it is adopted ON when GOOD is high
and STARTING with a fresh good deadline when it is low, with PERMIT off it is adopted OFF, or ISOLATED
in a zone that stands ISOLATED, with off_since at the adoption, and a slot that stands DISABLED has its
latches off. In DRAIN a slot adopted with power is then handed a rack drain request (R115), and in DARK
none (that the request comes before a leak cut, and that DARK adds none, are the model's choices: log
entries 17 and 47). What the adoption hands on is taken next, and then a slot adopted with power in an
ISOLATED zone takes its leak cut and is left ISOLATED with PERMIT off. -/
def Obligations.AdoptSlotTable : Prop :=
  ∀ (e : Env) (good : BitVec 48) (n : Fin 48) (r : Rack),
    (∀ m : Fin 48, m ≠ n → (adoptSlot e good n r).slots[m] = r.slots[m]) ∧
    ((r.slots[n]).state = .disabled → (r.slots[n]).permit = true →
      (adoptSlot e good n r).slots[n] =
        { r.slots[n] with permit := false, warn := false, offSince := e.now }) ∧
    ((r.slots[n]).state = .disabled → (r.slots[n]).permit = false →
      (adoptSlot e good n r).slots[n] = r.slots[n]) ∧
    ((r.slots[n]).state ≠ .disabled → (r.slots[n]).permit = true →
      ((adoptSlot e good n r).slots[n]).permit = true ∧
      ((adoptSlot e good n r).slots[n]).cause = .configuration ∧
      (if good.getLsbD n.val then
        ((adoptSlot e good n r).slots[n]).state = .on ∧ ((adoptSlot e good n r).slots[n]).good = true
      else
        ((adoptSlot e good n r).slots[n]).state = .starting ∧
        ((adoptSlot e good n r).slots[n]).goodDeadline =
          some ⟨e.now, (e.profile n).goodDeadline⟩)) ∧
    ((r.slots[n]).state ≠ .disabled → (r.slots[n]).permit = false →
      ((adoptSlot e good n r).slots[n]).state =
        (if e.slotZoneIsolated n = true then .isolated else .off) ∧
      ((adoptSlot e good n r).slots[n]).permit = false ∧
      ((adoptSlot e good n r).slots[n]).offSince = e.now) ∧
    (r.grid.state ≠ .drain → joinRackDrain e n r = r) ∧
    (r.grid.state = .drain → joinRackDrain e n r = drainInTurn e .rackDrain n r) ∧
    (let adopted := handOn e (joinRackDrain e n (adoptSlot e good n r))
     let cut := (r.slots[n]).state ≠ .disabled ∧ (r.slots[n]).permit = true ∧
       e.slotZoneIsolated n = true
     (¬cut → adoptInTurn e good n r = adopted) ∧
     (cut → adoptInTurn e good n r = handOn e (leakCut e n adopted)) ∧
     ((r.slots[n]).state ≠ .disabled → e.slotZoneIsolated n = true →
       ((adoptInTurn e good n r).slots[n]).state = .isolated ∧
       ((adoptInTurn e good n r).slots[n]).permit = false ∧
       ((adoptInTurn e good n r).slots[n]).warn = false))

/-- TIMESTAMP_PIN: the timestamp is replaced by the present count less 2^30 when its age has reached
2^30 ms, and stays as it is before (R18). Nothing else changes. -/
def Obligations.TimestampPinned : Prop :=
  (∀ now t : Time, (2 ^ 30 ≤ elapsed now t → elapsed now (pin now t) = 2 ^ 30) ∧
    (elapsed now t < 2 ^ 30 → pin now t = t)) ∧
  (∀ (p : PinTarget) (s : State), ∃ t, exec (.timestampPin p) s = .next t ∧
    t = s.repin (pin s.now) p ∧
    t.pinned p = (s.pinned p).map (pin s.now) ∧
    (∀ q : PinTarget, q ≠ p → t.pinned q = s.pinned q))


/-! ### The rack link -/

/-- HUNTING and a gap (R188, R196): a sync byte begins a frame, and begins none while RESTART_N stands low
(that it is then not counted is the model's choice: log entry 20); any other byte is counted as stray
(while RESTART_N stands low too: the same choice), and a gap above 20 ms ends a partial frame, counts it
and logs FRAME_TIMEOUT. -/
def Obligations.Receiver : Prop :=
  ∀ s : State,
    (s.link.rxState = .hunting → s.boot.pinLow = false →
      exec .frameBegin s = .next { s with link.rxState := .inFrame }.conclude) ∧
    (s.boot.pinLow = true → exec .frameBegin s = .next s) ∧
    (∀ b : Byte, s.link.rxState = .hunting → b ≠ 0xB6 →
      exec (.strayByte b) s = .next { s with link.stray := s.link.stray + 1 }.conclude) ∧
    (s.link.rxState = .inFrame →
      exec .frameTimeout s = .next ({ s with
        link.rxState := .hunting, link.gaps := s.link.gaps + 1 }.onRack fun e r =>
          logFault e .frameTimeout 0 r).conclude)

/-- The end of a frame (R187, R188, R189): a frame of up to 240 payload bytes with its CRC-16 is good and
joins the receive queue of four, or is lost with RX_OVERRUN when the queue is full; a length byte above
240 ends the frame at once with FRAME_LENGTH; any other two CRC bytes end it with FRAME_CRC. -/
def Obligations.FrameEnds : Prop :=
  ∀ s : State, s.link.rxState = .inFrame →
    (∀ (kind tag : Byte) (payload : List Byte), payload.length ≤ 240 →
      (s.link.rx.length < 4 →
        exec (.frameEnd ((linkFrameBytes kind tag payload).drop 1)) s = .next { s with
          link.rxState := .hunting, link.good := s.link.good + 1,
          link.rx := s.link.rx ++ [LinkFrame.mk kind tag payload] }.conclude) ∧
      (4 ≤ s.link.rx.length →
        exec (.frameEnd ((linkFrameBytes kind tag payload).drop 1)) s = .next ({ s with
          link.rxState := .hunting, link.good := s.link.good + 1,
          link.overruns := s.link.overruns + 1 }.onRack fun e r =>
            logFault e .rxOverrun 0 r).conclude) ∧
      (∀ c : List Byte, c.length = 2 →
        c ≠ u16 (crc16 (u8 payload.length ++ [kind, tag] ++ payload)).toNat →
        exec (.frameEnd (u8 payload.length ++ [kind, tag] ++ payload ++ c)) s = .next ({ s with
          link.rxState := .hunting, link.crcErrors := s.link.crcErrors + 1 }.onRack fun e r =>
            logFault e .frameCrc 0 r).conclude)) ∧
    (∀ len : Byte, 240 < len.toNat →
      exec (.frameEnd [len]) s = .next ({ s with
        link.rxState := .hunting, link.lengthErrors := s.link.lengthErrors + 1 }.onRack fun e r =>
          logFault e .frameLength 0 r).conclude)

/-- The Notification Queue (R182, R183, R184): a raised notification is appended unless its class or the
whole queue is masked or the queue holds 32, and otherwise its class stands pending with one more lost,
up to 65,535. NOTIFICATION_SENT takes the oldest entry off, and the departure takes the summaries it
owes: with no class pending nothing else changes, and an unblocked pending class is given its summary
first when no earlier class is owed one. Summaries are given to the unblocked pending classes in class
order, as many as the queue has room for, each clearing its class's flag and lost count; the classes
after them stay pending. -/
def Obligations.Notifications : Prop :=
  ((∀ (s : State) (b : List Byte), s.link.line = .notification b →
     exec .notificationSent s = .next { s with
       link.line := .idle, rack.notif := s.rack.notif.depart s.now }.conclude) ∧
   (∀ (q : NotifQueue) (now : Time),
     (∀ c : Fin 8, q.pending[c] = false) → q.depart now = { q with entries := q.entries.drop 1 }) ∧
   (∀ (q : NotifQueue) (now : Time) (c : NotifClass), q.entries.length ≤ 32 → q.entries ≠ [] →
     q.pending[c.index] = true → q.blocked c = false →
     (∀ d : NotifClass, d.index < c.index → q.pending[d.index] = false ∨ q.blocked d = true) →
     ((q.depart now).entries[q.entries.length - 1]?) =
         some ⟨c, 0, c.index.val, now, q.lost[c.index]⟩ ∧
       (q.depart now).pending[c.index] = false ∧ (q.depart now).lost[c.index] = 0) ∧
   (∀ (q : NotifQueue) (now : Time),
     q.depart now = ({ q with entries := q.entries.drop 1 } : NotifQueue).summaries now ∧
     (let classes : List NotifClass :=
        [.grid, .capacity, .slot, .sequence, .leak, .module, .battery, .fault]
      let owed := classes.filter fun c => q.pending[c.index] && !q.blocked c
      let given := owed.take (32 - q.entries.length)
      classes.map NotifClass.index = List.finRange 8 ∧
      q.summaries now = { q with
        entries := q.entries ++ given.map fun c => ⟨c, 0, c.index.val, now, q.lost[c.index]⟩
        pending := Vector.ofFn fun k =>
          q.pending[k] && !(given.map NotifClass.index).contains k
        lost := Vector.ofFn fun k =>
          if k ∈ given.map NotifClass.index then 0 else q.lost[k] }))) ∧
  (∀ (e : Env) (c : NotifClass) (kind subject value : Nat) (r : Rack),
     (r.notif.blocked c = false → r.notif.entries.length < 32 →
       raise e c kind subject value r =
         { r with notif.entries := r.notif.entries ++ [⟨c, kind, subject, e.now, value⟩] }) ∧
     ((r.notif.blocked c = true ∨ 32 ≤ r.notif.entries.length) →
       raise e c kind subject value r = { r with
         notif.pending := put r.notif.pending c.index true
         notif.lost := put r.notif.lost c.index (min 65535 (r.notif.lost[c.index] + 1)) }))

/-- The checks before a request's own rule (R189, R190): a request is executed only as the oldest frame,
with an empty reply holder and no save in progress, and one that is not executed changes nothing (the
model's choice: log entry 6); tag 0 is answered BAD_INDEX; while the part loads or
adopts, every request but IDENTIFY is answered BUSY; a kind outside the catalogue is answered
UNKNOWN_KIND. Each is taken from the receive queue and changes nothing else. -/
def Obligations.RequestsTurnedAway : Prop :=
  ∀ (s : State) (f : LinkFrame),
    (s.executes f = false → exec (requestOf f) s = .next s) ∧
    (s.executes f = true → f.tag = 0 →
      exec (requestOf f) s = .next (s.take.reply f.kind 0 [codeBadIndex]).conclude) ∧
    (s.executes f = true → f.tag ≠ 0 → s.busy = true → f.kind ∈ requestKinds → f.kind ≠ 0x01 →
      exec (requestOf f) s = .next (s.take.reply f.kind f.tag [codeBusy]).conclude) ∧
    (s.executes f = true → f.tag ≠ 0 → f.kind ∉ requestKinds →
      exec (requestOf f) s = .next (s.take.reply f.kind f.tag [codeUnknownKind]).conclude)

/-- A payload whose length does not fit its kind is answered BAD_LENGTH, and an index of a one-index
request, a profile, a parameter, a zone or an action at or above its bound is answered BAD_INDEX, with
nothing else changed (R10, R15, R80, R168, R190, R192). -/
def Obligations.LengthsAndIndices : Prop :=
  ∀ (s : State) (f : LinkFrame), Ready s f.kind f.tag f.payload →
    ((f.kind ∈ [0x07, 0x14, 0x15, 0x19, 0x1A, 0x31, 0x32, 0x38, 0x39, 0x3A] ∧ f.payload ≠ [] ∨
        f.kind ∈ [0x01, 0x02, 0x03, 0x04, 0x05, 0x06, 0x08, 0x23, 0x24] ∧ f.payload.length ≠ 1 ∨
        f.kind ∈ [0x10, 0x11, 0x12, 0x13] ∧ (f.payload = [] ∨ 48 < f.payload.length) ∨
        f.kind = 0x18 ∧ (f.payload.length % 3 ≠ 0 ∨ f.payload = [] ∨ 144 < f.payload.length) ∨
        f.kind = 0x20 ∧ f.payload.length ≠ 11 ∨
        f.kind ∈ [0x21, 0x22] ∧ f.payload.length ≠ 5 ∨
        f.kind = 0x25 ∧ f.payload.length ≠ 9 ∨
        f.kind = 0x30 ∧ sectionFits f.payload = false) →
      exec (requestOf f) s = .next (s.take.reply f.kind f.tag [codeBadLength]).conclude) ∧
    (∀ b : Byte, f.payload = [b] →
      (f.kind = 0x02 ∧ 5 ≤ b.toNat ∨ f.kind = 0x03 ∧ 48 ≤ b.toNat ∨ f.kind = 0x04 ∧ 18 ≤ b.toNat ∨
        f.kind ∈ [0x05, 0x24] ∧ 12 ≤ b.toNat ∨ f.kind ∈ [0x06, 0x23] ∧ 8 ≤ b.toNat ∨
        f.kind = 0x08 ∧ 6 ≤ b.toNat) →
      exec (requestOf f) s = .next (s.take.reply f.kind f.tag [codeBadIndex]).conclude) ∧
    ((f.kind = 0x20 ∧ f.payload.length = 11 ∧ 8 ≤ (f.payload.getD 0 0).toNat ∨
        f.kind = 0x21 ∧ f.payload.length = 5 ∧ 16 ≤ (f.payload.getD 0 0).toNat ∨
        f.kind = 0x22 ∧ f.payload.length = 5 ∧
          (8 ≤ (f.payload.getD 0 0).toNat ∨ 3 ≤ (f.payload.getD 1 0).toNat)) →
      exec (requestOf f) s = .next (s.take.reply f.kind f.tag [codeBadIndex]).conclude)

/-- Safe Hold (R179): each request it refuses is answered HELD with nothing else changed. -/
def Obligations.HeldRefusals : Prop :=
  ∀ (s : State) (f : LinkFrame), Ready s f.kind f.tag f.payload → s.held = true →
    (f.kind = 0x10 ∧ 1 ≤ f.payload.length ∧ f.payload.length ≤ 48 ∨
      f.kind ∈ [0x14, 0x19, 0x31, 0x32] ∧ f.payload = [] ∨
      f.kind = 0x20 ∧ f.payload.length = 11 ∧ (f.payload.getD 0 0).toNat < 8 ∨
      f.kind = 0x21 ∧ f.payload.length = 5 ∧ (f.payload.getD 0 0).toNat < 16 ∨
      f.kind = 0x22 ∧ f.payload.length = 5 ∧ (f.payload.getD 0 0).toNat < 8 ∧
        (f.payload.getD 1 0).toNat ≤ 2 ∨
      f.kind = 0x30 ∧ sectionFits f.payload = true) →
    exec (requestOf f) s = .next (s.take.reply f.kind f.tag [codeHeld]).conclude

/-- The requests that read answer OK with their figures and change nothing but the link (R81, R173,
R178, R194, R195), and how the figures begin (R38, R41, R61, R105, R121, R138, R157); a section of
READ_RACK fits in a reply (R194). The layout of the figures is the model's reading (log entries 12 and
13); the bytes for the lock state and for what a position is are free values (log entry 11); what leaf 2
gives for k while UNCOMMISSIONED, the mark of a position that is neither present nor a discovery record,
and the k that READ_RACK gives while UNCOMMISSIONED are its choices (log entries 36, 42 and 45); the
bytes for GOOD, for PARKED and for the drain condition, and the action that zone 0 is read with while
UNCOMMISSIONED, are its readings (log entries 46 and 24). -/
def Obligations.ReadRequests : Prop :=
  (∀ (s : State) (tag : Byte),
    (∀ leaf : Byte, s.executes ⟨0x01, tag, [leaf]⟩ = true → tag ≠ 0 →
      exec (.identify tag [leaf]) s =
        .next (s.take.reply 0x01 tag (codeOk :: leafFigures s leaf)).conclude) ∧
    (∀ i : Fin 5, Ready s 0x02 tag (u8 i.val) →
      exec (.readRack tag (u8 i.val)) s =
        .next (s.take.reply 0x02 tag (codeOk :: sectionFigures s i)).conclude) ∧
    (∀ n : Fin 48, Ready s 0x03 tag (u8 n.val) →
      exec (.readSlot tag (u8 n.val)) s =
        .next (s.take.reply 0x03 tag (codeOk :: slotFigures s.env s.rack n)).conclude) ∧
    (∀ i : Fin 18, Ready s 0x04 tag (u8 i.val) →
      exec (.readModule tag (u8 i.val)) s =
        .next (s.take.reply 0x04 tag (codeOk :: moduleFigures s.env s.rack i)).conclude) ∧
    (∀ j : Fin 12, Ready s 0x05 tag (u8 j.val) →
      exec (.readBattery tag (u8 j.val)) s =
        .next (s.take.reply 0x05 tag (codeOk :: batteryFigures s.rack j)).conclude) ∧
    (∀ z : Fin 8, Ready s 0x06 tag (u8 z.val) →
      exec (.readZone tag (u8 z.val)) s =
        .next (s.take.reply 0x06 tag (codeOk :: zoneFigures s z)).conclude) ∧
    (Ready s 0x07 tag [] →
      exec (.readFaults tag []) s =
        .next (s.take.reply 0x07 tag
          (codeOk :: faultFigures s.rack.faults s.rack.notif)).conclude) ∧
    (∀ (kind : Byte) (payload : List Byte), s.executes ⟨kind, tag, payload⟩ = true → tag ≠ 0 →
      kind ∉ requestKinds →
      exec (.unknownKind kind tag payload) s =
        .next (s.take.reply kind tag [codeUnknownKind]).conclude)) ∧
  (∀ s : State,
    (let r := s.rack
     let a := r.acct
     let h := r.hold
     let c := s.cfg.record.rack
     let present := fun l : List Bool => (l.filter id).length
     leafFigures s 0 = 0 :: (text "Brenholt" ++ u32 4816 ++ u32 1) ∧
     leafFigures s 1 = 1 :: (u32 48 ++ u32 18 ++ u32 12 ++ u32 16 ++ u32 8 ++ u32 8 ++ u32 32) ∧
     (s.cfg.locked = true → (leafFigures s 2).take 9 = 2 :: Config.lockStateCode true ::
       (u8 c.shelfCount ++ u8 c.k ++ u8 c.slotCount ++
         u32 (present (r.psu.toList.map PsuRec.present)))) ∧
     (s.cfg.locked = false →
       leafFigures s 2 = 2 :: Config.lockStateCode false :: List.replicate 35 0) ∧
     (∀ leaf : Byte, 3 ≤ leaf.toNat → leafFigures s leaf = [leaf]) ∧
     (sectionFigures s 0).take 17 = flag a.takenUp ++ u8 a.nOn ++
       u32 (present (r.psu.toList.map PsuRec.present)) ++ u8 c.k ++ u32 a.g ++ u16 a.q ++ u32 a.a ∧
     (sectionFigures s 1).take 3 = u8 r.queue.entries.length ++
       (match r.queue.head with
         | some x => 1 :: u8 x.slot.val
         | none => [0, 0]) ∧
     (∃ rest, sectionFigures s 2 = u8 r.grid.state.code ++ u8 r.grid.level ++ flag r.grid.inEvent ++
       rest ++ (u8 h.required ++ flag h.drainHolds ++ flag h.shortLogged)) ∧
     (sectionFigures s 3).take 9 =
       u32 r.rech.pool ++ u32 r.rech.candidate ++ flag r.rech.frame.isSome ∧
     (sectionFigures s 4).take 10 = Config.lockStateCode s.cfg.locked ::
       (u32 s.now.toNat ++ flag s.leak.firstWindow ++ u32 r.bus.transactions.toNat) ∧
     (r.queue.entries.length ≤ 48 → r.queue.history.length ≤ 4 →
       ∀ i : Fin 5, (codeOk :: sectionFigures s i).length ≤ 240) ∧
     (∀ n : Fin 48, (slotFigures s.env r n).take 10 =
       (let x := r.slots[n]
        let y := s.cfg.record.slots[n]
        u8 x.state.code ++ u8 y.profile ++ u8 y.group ++ u8 y.zone ++ u8 (s.cfg.active[n]).rank ++
          u8 (s.cfg.active[n]).order ++ flag x.permit ++ flag x.warn ++ flag x.good ++
          flag x.parked)) ∧
     (∀ i : Fin 18, (moduleFigures s.env r i).take 7 =
         u8 i.val ++ flag (r.psu[i]).present ++ u8 (r.psu[i]).state.code ++
           u16 (r.psu[i]).capability ++ u16 (r.psu[i]).output ∧
       (moduleFigures s.env r i).getLast? = some (Config.positionKindCode (r.psu[i]).present)) ∧
     (∀ j : Fin 12, (batteryFigures r j).take 7 =
         u8 j.val ++ flag (r.bu[j]).present ++ u8 (r.bu[j]).state.code ++ u16 (r.bu[j]).energy ++
           u16 (r.bu[j]).discharge ∧
       (∃ rest, batteryFigures r j = batteryRecord j r.bu[j] ++
         (flag (h.perBu[j]).usable ++ u16 (h.perBu[j]).hEff ++ u16 (h.perBu[j]).u) ++ rest)) ∧
     (∀ z : Fin 8, (zoneFigures s z).take 5 = u8 (s.leak.zones[z]).state.code ++
       u8 (s.action z).code ++ u16 (s.cfg.leakTable[z]).grace ++
       flag (s.cfg.leakTable[z]).shelfIsolate) ∧
     (faultFigures r.faults r.notif).take 74 = r.faults.banks.toList.flatMap bankFigures ++
       flag r.faults.inProgress ++ flag r.faults.hold.isSome))

/-! ### Faults and Safe Hold -/

/-- Logging a fault (R175, R176): an empty bank takes the record with overflow 0, a higher severity
replaces the record and counts one overflow, any other counts one overflow, up to 255; the other banks
are left; a CRITICAL fault sets fault-in-progress, and enters Safe Hold when the flag already stood;
FAULT_LOGGED is raised, and FAULT_FLAGS after it when a flag changed, and an entry to Safe Hold is
handed to the head of the Start Queue. With Safe Hold on and the flag clear the steps of R176 are
followed and not the sentence after them: the model's choice (log entry 35). -/
def Obligations.FaultLogged : Prop :=
  ∀ (e : Env) (f : FaultKind) (subject : Nat) (r : Rack),
    ((logFault e f subject r).faults.banks[f.bank] =
      if (r.faults.banks[f.bank]).valid = false then
        ⟨true, f.code, f.severity, subject, e.now, 0⟩
      else if (r.faults.banks[f.bank]).severity < f.severity then
        ⟨true, f.code, f.severity, subject, e.now,
          min 255 ((r.faults.banks[f.bank]).overflow + 1)⟩
      else { r.faults.banks[f.bank] with
        overflow := min 255 ((r.faults.banks[f.bank]).overflow + 1) }) ∧
    (∀ b : Fin 6, b ≠ f.bank → (logFault e f subject r).faults.banks[b] = r.faults.banks[b]) ∧
    ((logFault e f subject r).faults.inProgress = true ↔
      r.faults.inProgress = true ∨ f.severity = 2) ∧
    (logFault e f subject r).faults.hold =
      (if f.severity = 2 ∧ r.faults.inProgress = true ∧ r.faults.hold = none then
        some ⟨e.now, f.bank.val, f.code⟩ else r.faults.hold) ∧
    (logFault e f subject r).notif =
      (let q := r.notif.offer ⟨.fault, 1, f.bank.val, e.now,
         f.code + 256 * f.severity + 65536 * subject⟩
       if f.severity = 2 ∧ (r.faults.inProgress = false ∨ r.faults.hold = none) then
         q.offer ⟨.fault, 2, f.bank.val, e.now,
           if r.faults.inProgress = true ∨ r.faults.hold ≠ none then 3 else 1⟩
       else q) ∧
    logFault e f subject r = { r with
      faults := (logFault e f subject r).faults
      notif := (logFault e f subject r).notif
      todo.head := (logFault e f subject r).todo.head } ∧
    ((logFault e f subject r).todo.head = true ↔ r.todo.head = true ∨
      f.severity = 2 ∧ r.faults.inProgress = true ∧ r.faults.hold = none)

/-- CLEAR_FAULT, RELEASE_HOLD, SET_MASK and RESTART (R177, R180, R184, R185, R196; the flag bytes are
free values: log entry 11; the order and widths of the figures of CLEAR_FAULT and SET_MASK are the
model's reading: log entries 12 and 13). A SET_MASK gives each class that its masks leave pending and
unblocked its summary, in class order, as many as the queue has room for. An emptied bank leaves the
other banks and Safe Hold, and fault-in-progress clears exactly when no bank then holds a CRITICAL
record. -/
def Obligations.FaultRequests : Prop :=
  (∀ (s : State) (tag : Byte),
     (∀ b : Fin 6, Ready s 0x08 tag (u8 b.val) →
       exec (.clearFault tag (u8 b.val)) s =
         .next ((s.take.onRack fun e r => emptyOne e b r).reply 0x08 tag
           (codeOk :: bankFigures s.rack.faults.banks[b])).conclude) ∧
     (Ready s 0x39 tag [] → s.rack.faults.inProgress = true →
       ∃ b : Byte, exec (.releaseHold tag []) s =
         .next (s.take.reply 0x39 tag [codeRefusedState, b]).conclude ∧
         ((∃ i : Fin 6, (s.rack.faults.banks[i]).critical = true) →
           ∃ i : Fin 6, b = BitVec.ofNat 8 i.val ∧ (s.rack.faults.banks[i]).critical = true ∧
             ∀ k : Fin 6, k < i → (s.rack.faults.banks[k]).critical = false)) ∧
     (Ready s 0x39 tag [] → s.rack.faults.inProgress = false → s.held = true →
       exec (.releaseHold tag []) s =
         .next ((s.take.onRack fun e r => raise e .fault 2 255 0 { r with
           faults.hold := none, todo.head := true }).reply 0x39 tag
             [codeOk, Config.releasedFlag]).conclude) ∧
     (Ready s 0x39 tag [] → s.rack.faults.inProgress = false → s.held = false →
       exec (.releaseHold tag []) s =
         .next (s.take.reply 0x39 tag [codeOk, Config.notHeldFlag]).conclude) ∧
     (∀ payload : List Byte, Ready s 0x25 tag payload → payload.length = 9 →
       ∃ q figures, exec (.setMask tag payload) s =
         .next ({ s.take with rack.notif := q }.reply 0x25 tag (codeOk :: figures)).conclude ∧
         (let masked : NotifQueue :=
            { s.rack.notif with masks := q.masks, globalMask := q.globalMask }
          let owed := ([.grid, .capacity, .slot, .sequence, .leak, .module, .battery, .fault] :
            List NotifClass).filter fun c => masked.pending[c.index] && !masked.blocked c
          let given := owed.take (32 - masked.entries.length)
          q = masked.summaries s.now ∧
          q.entries = masked.entries ++ given.map (fun c =>
            ⟨c, 0, c.index.val, s.now, masked.lost[c.index]⟩) ∧
          ∀ c : NotifClass,
            (c ∈ given → q.pending[c.index] = false ∧ q.lost[c.index] = 0) ∧
            (c ∉ given → q.pending[c.index] = masked.pending[c.index] ∧
              q.lost[c.index] = masked.lost[c.index])) ∧
         (∀ c : Fin 8, q.masks[c] = (payload.getD c.val 0 != 0)) ∧
         q.globalMask = (payload.getD 8 0 != 0) ∧
         figures = (List.finRange 8).flatMap (fun c => flag q.masks[c]) ++ flag q.globalMask
           ++ (List.finRange 8).flatMap (fun c => flag q.pending[c])
           ++ u32 (q.entries.length - s.rack.notif.entries.length)) ∧
     (Ready s 0x3A tag [] →
       exec (.restart tag []) s =
         .next ({ s.take with link.restartOwed := true }.reply 0x3A tag [codeOk]).conclude)) ∧
  (∀ (x : Faults) (b : Fin 6), x.inProgress = x.banks.toList.any Bank.critical →
     (x.empty b).banks[b] = emptyBank ∧ (∀ c : Fin 6, c ≠ b → (x.empty b).banks[c] = x.banks[c]) ∧
     (x.empty b).hold = x.hold ∧
     ((x.empty b).inProgress = true ↔ ∃ c : Fin 6, c ≠ b ∧ (x.banks[c]).critical = true)) ∧
  (∀ (e : Env) (b : Fin 6) (r : Rack),
     (let x := r.faults.empty b
      emptyOne e b r = { r with faults := x, notif := (emptyOne e b r).notif } ∧
      (r.faults.inProgress = true → x.inProgress = false →
        (emptyOne e b r).notif = r.notif.offer
          ⟨.fault, 2, b.val, e.now, if r.faults.hold = none then 0 else 2⟩) ∧
      ((r.faults.inProgress = false ∨ x.inProgress = true) →
        (emptyOne e b r).notif = r.notif)))

/-! ### Slots -/

/-- A change of slot state (R62, R63, R65, R52, R106, R127, R85, R86, R91, R182): the record takes the
state, the cause and the latches of the state, a removal of PERMIT sets off_since and lowers the
measured-load sums, S, the shed relief (R58) and the powered slot count follow the slot, the Start Queue
holds the slot exactly when it stands QUEUED and keeps the order of the others, a slot that comes to be
its first entry is head with a fresh wait, SLOT_STATE is raised, the change is handed to the Account,
the Allocator, the Calculator and the head, and nothing else of the slots, the modules, the bus, the
banks or the recharge changes. -/
def Obligations.ChangeOfState : Prop :=
  ∀ (e : Env) (n : Fin 48) (st : SlotState) (cause : Cause) (r : Rack), r.Follows e →
    (let x := r.slots[n]
     let t := enter e n st cause r
     t.slots[n] = { x with
        state := st
        offSince := if x.state.powered = true ∧ st.powered = false then e.now else x.offSince
        queueTime := if st = .queued then some e.now else none
        drain := none
        goodDeadline := none
        cause := cause
        permit := st.powered
        warn := decide (st = .draining) } ∧
     (∀ m : Fin 48, m ≠ n → t.slots[m] = r.slots[m]) ∧
     t.Follows e ∧
     t.queue.entries.filter (· != n) = r.queue.entries.filter (· != n) ∧
     (r.queue.entries.Pairwise (Precedes e r.slots) →
       t.queue.entries.Pairwise (Precedes e t.slots)) ∧
     (x.state ≠ .queued → st ≠ .queued → t.queue = r.queue) ∧
     ((x.state = .queued ∨ st = .queued) →
       t.queue.history = r.queue.history ∧
       (r.queue.head.map QueueHead.slot = t.queue.entries.head? → t.queue.head = r.queue.head) ∧
       (r.queue.head.map QueueHead.slot ≠ t.queue.entries.head? →
         t.queue.head = t.queue.entries.head?.map (fun m => ⟨m, e.now, false⟩) ∧
         (t.queue.entries = [] → t.queue.timer = none ∧ t.queue.gate = 0))) ∧
     t.acct.s + stateDraw (e.profile n) x.state = r.acct.s + stateDraw (e.profile n) st ∧
     (if x.state.powered = true ∧ st.powered = false then
        t.hold = { r.hold with
          mOut := r.hold.mOut - predictedDraw (e.profile n) x.state
          mDis := r.hold.mDis - predictedDraw (e.profile n) x.state
          removal := true }
      else t.hold = r.hold) ∧
     t.notif = r.notif.offer ⟨.slot, 1, n.val, e.now, st.code + 16 * cause.code⟩ ∧
     t.todo = { r.todo with account := true, pool := true, hold := true, head := true } ∧
     t = { r with
        slots := t.slots, queue := t.queue, hold := t.hold, notif := t.notif, todo := t.todo
        grid := { r.grid with powered := t.grid.powered }
        acct := { r.acct with s := t.acct.s, relief := t.acct.relief } })

/-- A drain request (R58, R65, R70, R71, R73, R75): an ON slot drains with the request's target and
length, and ends at once on PARKED high or on a length of 0, PARKED judged first (the model's reading:
log entry 21); a STARTING slot goes to the target at once; a DRAINING slot keeps the target of the
higher rank and the deadline with less time left, DRAIN_CHANGED being raised and the shed relief handed
on when either changes and nothing happening when neither does; a leak drain request moves a QUEUED or
SHED slot to ISOLATED; every other slot is left. A request that a command makes has the entry to
DRAINING handed on before a drain that ends at once ends (R65, R130, R137). A leak cut removes PERMIT at
once from a powered slot and moves a QUEUED or SHED one, all to ISOLATED, and leaves every other; a
SLOT_CUT takes a slot to OFF, and one draining to ISOLATED to ISOLATED (R74, R75, R78). -/
def Obligations.DrainsAndCuts : Prop :=
  (∀ (e : Env) (n : Fin 48) (q : DrainRequest) (r : Rack),
     (let x := r.slots[n]
      let t := drain e q n r
      let len := match q with
        | .off => (e.profile n).drainMs
        | .shed => e.param 7
        | .rackDrain => min (e.profile n).drainMs (1000 * e.param 6)
        | .leak left => left
      (∀ m : Fin 48, m ≠ n → t.slots[m] = r.slots[m]) ∧
      (x.state = .on → x.parked = false → len ≠ 0 →
        (t.slots[n]).state = .draining ∧ (t.slots[n]).permit = true ∧ (t.slots[n]).warn = true ∧
        (t.slots[n]).drain = some ⟨q.target, ⟨e.now, len⟩⟩ ∧ (t.slots[n]).cause = q.cause) ∧
      (x.state = .on → x.parked = true →
        (t.slots[n]).state = q.target.state ∧ (t.slots[n]).permit = false ∧
        (t.slots[n]).warn = false ∧ (t.slots[n]).cause = .parked) ∧
      (x.state = .on → x.parked = false → len = 0 →
        (t.slots[n]).state = q.target.state ∧ (t.slots[n]).permit = false ∧
        (t.slots[n]).warn = false ∧ (t.slots[n]).cause = .drainDeadline) ∧
      (x.state = .starting →
        (t.slots[n]).state = q.target.state ∧ (t.slots[n]).permit = false ∧
        (t.slots[n]).offSince = e.now ∧ (t.slots[n]).cause = q.cause) ∧
      (∀ d : Drain, x.state = .draining → x.drain = some d →
        t.slots[n] = { x with drain := some ⟨
          if d.target.rank < q.target.rank then q.target else d.target,
          if len < d.deadline.left e.now then ⟨e.now, len⟩ else d.deadline⟩ } ∧
        (let now : Drain := ⟨if d.target.rank < q.target.rank then q.target else d.target,
           if len < d.deadline.left e.now then ⟨e.now, len⟩ else d.deadline⟩
         (now = d → t = r) ∧
         (now ≠ d → t = { r with
           slots := put r.slots n { x with drain := some now }
           acct := { r.acct with relief := ((List.finRange 48).map fun m : Fin 48 =>
             if (t.slots[m]).state = .draining ∧
                 (t.slots[m]).drain.map Drain.target = some .shed then (e.profile m).peakW
             else 0).sum }
           notif := r.notif.offer ⟨.slot, 2, n.val, e.now, now.target.code⟩
           todo := { r.todo with account := true } }))) ∧
      (∀ left : Nat, q = .leak left → (x.state = .queued ∨ x.state = .shed) →
        (t.slots[n]).state = .isolated ∧ (t.slots[n]).cause = .leakMove) ∧
      ((x.state = .queued ∨ x.state = .shed) → (∀ left : Nat, q ≠ .leak left) → t = r) ∧
      ((x.state = .off ∨ x.state = .disabled ∨ x.state = .isolated ∨ x.state = .faulted) → t = r) ∧
      (let ends := x.state = .on ∧ (x.parked = true ∨ len = 0)
       let entered := changeRecord e n { x.enter e.now .draining q.cause with
         drain := some ⟨q.target, ⟨e.now, len⟩⟩ } r
       let cause := if x.parked = true then Cause.parked else Cause.drainDeadline
       (¬ends → drainInTurn e q n r = t) ∧
       (ends → t = enter e n q.target.state cause entered ∧
         drainInTurn e q n r = endDrain e n cause (handOn e entered) ∧
         ((drainInTurn e q n r).slots[n]).permit = false ∧
         ((drainInTurn e q n r).slots[n]).cause = cause)))) ∧
  (∀ (e : Env) (n : Fin 48) (c : Cause) (r : Rack),
     (∀ d : Drain, (r.slots[n]).state = .draining → (r.slots[n]).drain = some d →
       endDrain e n c r = enter e n d.target.state c r) ∧
     ((r.slots[n]).state ≠ .draining → endDrain e n c r = r)) ∧
  (∀ (e : Env) (n : Fin 48) (r : Rack),
     ((r.slots[n]).state ∈ [SlotState.starting, .on, .draining, .queued, .shed] →
       ((leakCut e n r).slots[n]).state = .isolated ∧ ((leakCut e n r).slots[n]).permit = false ∧
       ((leakCut e n r).slots[n]).cause = .leakMove ∧
       ((r.slots[n]).state.powered = true → ((leakCut e n r).slots[n]).offSince = e.now)) ∧
     ((r.slots[n]).state ∈ [SlotState.disabled, .off, .isolated, .faulted] → leakCut e n r = r) ∧
     (∀ m : Fin 48, m ≠ n → (leakCut e n r).slots[m] = r.slots[m]) ∧
     (((r.slots[n]).state ≠ .draining ∨
         ∀ d : Drain, (r.slots[n]).drain = some d → d.target ≠ .isolated) →
       (r.slots[n]).cutState = .off) ∧
     (∀ d : Drain, (r.slots[n]).state = .draining → (r.slots[n]).drain = some d →
       d.target = .isolated → (r.slots[n]).cutState = .isolated))

/-- A slot list request handles its indices in list order and answers with the counts of each result
and the refused indices with their reasons (R80, R190). -/
def Obligations.SlotLists : Prop :=
  ∀ (s : State) (tag : Byte) (payload : List Byte), 1 ≤ payload.length → payload.length ≤ 48 →
    (let answered := fun (kind : Byte) (f : SlotRule) =>
       let x := f.run s.env payload ⟨0, 0, []⟩ s.rack
       Host.Outcome.next (({ s.take with rack := x.2 } : State).reply kind tag
         ((if x.1.refused = [] then codeOk else codeRefusedState) ::
           (u8 x.1.accepted ++ u8 x.1.unchanged ++ u8 x.1.refused.length
             ++ x.1.refused.flatMap fun y => [y.1, y.2]))).conclude
     (Ready s 0x10 tag payload → s.held = false →
       exec (.slotOn tag payload) s = answered 0x10 slotOnRule) ∧
     (Ready s 0x11 tag payload → exec (.slotOff tag payload) s = answered 0x11 slotOffRule) ∧
     (Ready s 0x12 tag payload → exec (.slotCut tag payload) s = answered 0x12 slotCutRule) ∧
     (Ready s 0x13 tag payload → exec (.slotClear tag payload) s = answered 0x13 slotClearRule))

/-- The indices of a slot list are counted one by one (R80): every index counts once, in list order,
the earlier ones acting, with what they hand on, before the later (R65, R137); a refused or unchanged
index has no effect; and with no part commissioned every index is refused with REFUSED_STATE and nothing
changes (R4). What a change hands on leaves the record of every unpowered slot, takes a powered one to
SHED at most, and is nothing when nothing is owed (that the head waits for the end of the command is the
model's choice: log entry 4). -/
def Obligations.SlotListsCount : Prop :=
  (∀ (f : SlotRule) (e : Env) (bs cs : List Byte) (t : Tally) (r : Rack),
    (let x := f.run e bs t r
     x.1.accepted + x.1.unchanged + x.1.refused.length =
       t.accepted + t.unchanged + t.refused.length + bs.length) ∧
    f.run e (bs ++ cs) t r = f.run e cs (f.run e bs t r).1 (f.run e bs t r).2 ∧
    (∀ y ∈ (f.run e bs t r).1.refused, y ∈ t.refused ∨ y.1 ∈ bs) ∧
    ((f.run e bs t r).1.accepted = t.accepted → (f.run e bs t r).2 = r) ∧
    (e.commissioned = false →
      (f.run e bs t r).2 = r ∧
      (f.run e bs t r).1.refused = t.refused ++ bs.map fun b => (b, codeRefusedState))) ∧
  (∀ (e : Env) (r : Rack),
    (blocksSettled r = true → handOn e r = r) ∧
    (∀ n : Fin 48,
      ((r.slots[n]).state.powered = false → (handOn e r).slots[n] = r.slots[n]) ∧
      ((r.slots[n]).state.powered = true →
        ((handOn e r).slots[n]).state.powered = true ∨
          ((handOn e r).slots[n]).state = .shed)))

/-- What each slot list request does to one slot inside the rack of a COMMISSIONED part, by its state
(R77, R78, R79, R80, R87): the request with one index is answered with the counts and does exactly this,
and what the change hands on; a SLOT_CUT of a slot draining to ISOLATED takes it there with the cause of
a cut (the model's reading: log entry 21). An index above 47 is refused with BAD_INDEX, and a slot
outside the rack is left and counted unchanged. -/
def Obligations.SlotRequestTable : Prop :=
  (∀ (e : Env) (r : Rack) (n : Fin 48),
    e.commissioned = true → n.val < e.cfg.record.rack.slotCount →
    (let st := (r.slots[n]).state
     let b : Byte := BitVec.ofNat 8 n.val
     let one := fun (f : SlotRule) => f.run e [b] ⟨0, 0, []⟩ r
     let takes := fun (f : SlotRule) (t : Rack) => one f = (⟨1, 0, []⟩, handOn e t)
     let leaves := fun (f : SlotRule) => one f = (⟨0, 1, []⟩, r)
     let refuses := fun (f : SlotRule) (why : Byte) => one f = (⟨0, 0, [(b, why)]⟩, r)
     -- SLOT_ON
     ((st = .off ∨ st = .shed) → e.slotZoneOpen n = true →
       takes slotOnRule (enter e n .queued .queued r)) ∧
     ((st = .off ∨ st = .shed) → e.slotZoneOpen n = false → refuses slotOnRule codeRefusedState) ∧
     (st ∈ [SlotState.queued, .starting, .on] → leaves slotOnRule) ∧
     (st ∈ [SlotState.draining, .disabled, .faulted, .isolated] →
       refuses slotOnRule codeRefusedState) ∧
     -- SLOT_OFF
     ((st = .queued ∨ st = .shed) → takes slotOffRule (enter e n .off .offRequest r)) ∧
     ((st = .starting ∨ st = .on) → takes slotOffRule (drainInTurn e .off n r)) ∧
     (st = .draining → drain e .off n r = r → leaves slotOffRule) ∧
     (st = .draining → drain e .off n r ≠ r → takes slotOffRule (drain e .off n r)) ∧
     (st ∈ [SlotState.off, .disabled, .faulted, .isolated] → leaves slotOffRule) ∧
     -- SLOT_CUT
     (st ∈ [SlotState.starting, .on, .draining, .queued, .shed] →
       takes slotCutRule (enter e n (r.slots[n]).cutState .slotCut r)) ∧
     (st ∈ [SlotState.off, .disabled, .faulted, .isolated] → leaves slotCutRule) ∧
     -- SLOT_CLEAR
     (st = .faulted → (r.slots[n]).good = true → refuses slotClearRule reasonGoodHigh) ∧
     (st = .faulted → (r.slots[n]).good = false → takes slotClearRule (enter e n
       (if e.slotZoneIsolated n = true then .isolated
         else if (e.profile n).valid = true then .off else .disabled) .slotClear r)) ∧
     (st ≠ .faulted → leaves slotClearRule))) ∧
  (∀ (e : Env) (r : Rack) (b : Byte) (f : SlotRule), e.commissioned = true →
    (48 ≤ b.toNat → f.run e [b] ⟨0, 0, []⟩ r = (⟨0, 0, [(b, codeBadIndex)]⟩, r)) ∧
    (b.toNat < 48 → e.cfg.record.rack.slotCount ≤ b.toNat →
      f.run e [b] ⟨0, 0, []⟩ r = (⟨0, 1, []⟩, r)))

/-- RACK_START and RACK_STOP (R88, R90; the widths of the counts are the model's reading: log entry 13;
that the slots are taken in slot index order is its choice: log entry 30): every OFF slot of an open
zone is queued in one step; queued and SHED slots go OFF and powered ones drain, each slot as it is
found and with what it hands on before the next is looked at; both are refused while UNCOMMISSIONED. -/
def Obligations.RackStartAndStop : Prop :=
  ∀ (s : State) (tag : Byte),
    (Ready s 0x14 tag [] → s.held = false → s.cfg.locked = false →
      exec (.rackStart tag []) s =
        .next (s.take.reply 0x14 tag [codeRefusedState]).conclude) ∧
    (Ready s 0x14 tag [] → s.held = false → s.cfg.locked = true →
      (let off := (List.finRange 48).filter fun n => (s.rack.slots[n]).state == .off
       let opened := off.filter s.env.slotZoneOpen
       exec (.rackStart tag []) s =
        .next ((s.take.onRack fun e r => forEach (enter e · .queued .queued) opened r).reply 0x14
          tag (codeOk :: (u32 opened.length ++ u32 (off.length - opened.length)))).conclude)) ∧
    (Ready s 0x15 tag [] → s.cfg.locked = false →
      exec (.rackStop tag []) s =
        .next (s.take.reply 0x15 tag [codeRefusedState]).conclude) ∧
    (Ready s 0x15 tag [] → s.cfg.locked = true →
      (let x := rackStop s.env (List.finRange 48) ⟨0, 0, 0, 0⟩ s.rack
       exec (.rackStop tag []) s =
        .next (({ s.take with rack := x.2 } : State).reply 0x15 tag
          (codeOk :: (u32 x.1.dequeued ++ u32 x.1.cut ++ u32 x.1.drained ++ u32 x.1.unshed))
            ).conclude)) ∧
    (∀ (e : Env) (n : Fin 48) (ns : List (Fin 48)) (t : StopCounts) (r : Rack),
      rackStop e [] t r = (t, r) ∧
      rackStop e (n :: ns) t r = rackStop e ns
        (match (r.slots[n]).state with
          | .queued => { t with dequeued := t.dequeued + 1 }
          | .starting => { t with cut := t.cut + 1 }
          | .on => { t with drained := t.drained + 1 }
          | .shed => { t with unshed := t.unshed + 1 }
          | _ => t)
        (handOn e (rackStopSlot e n r))) ∧
    (∀ (e : Env) (n : Fin 48) (r : Rack),
      ((r.slots[n]).state ∈ [SlotState.queued, .shed] →
        rackStopSlot e n r = enter e n .off .offRequest r) ∧
      ((r.slots[n]).state ∈ [SlotState.starting, .on] →
        rackStopSlot e n r = drainInTurn e .off n r) ∧
      ((r.slots[n]).state ∈ [SlotState.disabled, .off, .draining, .isolated, .faulted] →
        rackStopSlot e n r = r))

/-- The slot inputs (R64, R67, R68, R69, R72, R115): at a sample instant, two successive samples that
agree on a new level change the taken level, and nothing else does: not between samples, and not with
fewer than two samples since one that agreed with the taken level (which sample is the first after a
reset is the model's choice: log entry 28). GOOD rising makes a STARTING slot ON, and drains it at once
during a rack drain; with PERMIT off and inside the rack it is logged as unexpected, and a slot that
stands OFF, QUEUED, SHED or ISOLATED becomes FAULTED. GOOD falling makes an ON slot FAULTED and ends a
drain. PARKED rising ends a drain. In every other state the taken level alone changes. -/
def Obligations.SlotInputs : Prop :=
  (∀ (s : State) (n : Fin 48), s.boot.adopting = false → s.inputs.sampled = s.now →
     (let st := (s.rack.slots[n]).state
      let g := s.sawGood n
      let p := s.sawParked n
      g = { s with inputs := { s.inputs with good := put s.inputs.good n 0 } } ∧
      p = { s with inputs := { s.inputs with parked := put s.inputs.parked n 0 } } ∧
      ((s.rack.slots[n]).good = false → 2 ≤ s.inputs.good[n] →
        (st = .starting → exec (.goodRising n true true) s = .next (g.onRack fun e r =>
          (let t := enter e n .on .goodRising (setGood n true r)
           if r.grid.state = .drain then drainInTurn e .rackDrain n t else t)).conclude) ∧
        ((st = .on ∨ st = .draining) →
          exec (.goodRising n true true) s =
            .next (g.onRack fun _ r => setGood n true r).conclude) ∧
        (st ∈ [SlotState.off, .queued, .shed, .isolated] → s.env.insideRack n = true →
          exec (.goodRising n true true) s = .next (g.onRack fun e r =>
            logFault e .goodUnexpected n.val
              (let t := enter e n .faulted .goodRising (setGood n true r)
               { t with slots := change t.slots n fun x =>
                   { x with lastFault := some .goodUnexpected } })).conclude) ∧
        (st ∈ [SlotState.disabled, .faulted] → s.env.insideRack n = true →
          exec (.goodRising n true true) s = .next (g.onRack fun e r =>
            logFault e .goodUnexpected n.val { r with slots := change r.slots n fun x =>
              { x with good := true, lastFault := some .goodUnexpected } }).conclude) ∧
        (st.powered = false → s.env.insideRack n = false →
          exec (.goodRising n true true) s =
            .next (g.onRack fun _ r => setGood n true r).conclude)) ∧
      ((s.rack.slots[n]).good = true → 2 ≤ s.inputs.good[n] →
        (st = .on → exec (.goodFalling n false false) s = .next (g.onRack fun e r =>
          logFault e .goodLost n.val
            (let t := enter e n .faulted .goodFalling (setGood n false r)
             { t with slots := change t.slots n fun x =>
                 { x with lastFault := some .goodLost } })).conclude) ∧
        (∀ d : Drain, st = .draining → (s.rack.slots[n]).drain = some d →
          exec (.goodFalling n false false) s = .next (g.onRack fun e r =>
            enter e n d.target.state .goodFalling (setGood n false r)).conclude) ∧
        (st ≠ .on → st ≠ .draining → exec (.goodFalling n false false) s =
          .next (g.onRack fun _ r => setGood n false r).conclude)) ∧
      ((s.rack.slots[n]).parked = false → 2 ≤ s.inputs.parked[n] →
        (∀ d : Drain, st = .draining → (s.rack.slots[n]).drain = some d →
          exec (.parkedRising n true true) s = .next (p.onRack fun e r =>
            enter e n d.target.state .parked (setParked n true r)).conclude) ∧
        (st ≠ .draining → exec (.parkedRising n true true) s =
          .next (p.onRack fun _ r => setParked n true r).conclude)) ∧
      ((s.rack.slots[n]).parked = true → 2 ≤ s.inputs.parked[n] →
        exec (.parkedFalling n false false) s =
          .next (p.onRack fun _ r => setParked n false r).conclude))) ∧
  (∀ (s : State) (n : Fin 48) (earlier later : Bool),
     ((s.boot.adopting = true ∨ s.inputs.sampled ≠ s.now) →
       exec (.goodRising n earlier later) s = .next s ∧
       exec (.goodFalling n earlier later) s = .next s ∧
       exec (.parkedRising n earlier later) s = .next s ∧
       exec (.parkedFalling n earlier later) s = .next s) ∧
     ((s.inputs.good[n] < 2 ∨ ¬(earlier = true ∧ later = true) ∨
         (s.rack.slots[n]).good = true) →
       exec (.goodRising n earlier later) s = .next s) ∧
     ((s.inputs.good[n] < 2 ∨ ¬(earlier = false ∧ later = false) ∨
         (s.rack.slots[n]).good = false) →
       exec (.goodFalling n earlier later) s = .next s) ∧
     ((s.inputs.parked[n] < 2 ∨ ¬(earlier = true ∧ later = true) ∨
         (s.rack.slots[n]).parked = true) →
       exec (.parkedRising n earlier later) s = .next s) ∧
     ((s.inputs.parked[n] < 2 ∨ ¬(earlier = false ∧ later = false) ∨
         (s.rack.slots[n]).parked = false) →
       exec (.parkedFalling n earlier later) s = .next s))

/-- The deadlines of the slots, the Start Queue and the grid (R14, R67, R72, R103, R104, R113, R118): a
STARTING slot whose good deadline is reached becomes FAULTED with START_FAILED; a DRAINING slot whose
drain deadline is reached enters its drain target; the gate timer's end evaluates the head again; a head
that has waited the start wait limit is evaluated, and START_STALLED is sent once when a gate still
fails, while with every gate passing the head is granted and no START_STALLED is sent; the qualify
timer's end enters NORMAL, with an armed commit taken: the queue is sorted under the plan made active
and PLAN_COMMITTED raised (its subject and value are free values: log entry 11); then the shed level is
0, under auto-restore every SHED slot of an open zone is QUEUED and otherwise every SHED slot stays, the
shortfall is evaluated, a recharge frame starts and the checks due are evaluated. -/
def Obligations.Deadlines : Prop :=
  ∀ s : State,
    (∀ (n : Fin 48) (d : Deadline), (s.rack.slots[n]).state = .starting →
      (s.rack.slots[n]).goodDeadline = some d → d.len ≤ (s.now - d.set).toNat →
      exec (.goodDeadline n) s = .next (s.onRack fun e r => logFault e .startFailed n.val
        (let t := enter e n .faulted .goodDeadline r
         { t with slots := change t.slots n fun x =>
             { x with lastFault := some .startFailed } })).conclude) ∧
    (∀ (n : Fin 48) (d : Drain), (s.rack.slots[n]).state = .draining →
      (s.rack.slots[n]).drain = some d → d.deadline.len ≤ (s.now - d.deadline.set).toNat →
      exec (.drainDeadline n) s =
        .next (s.onRack fun e r => enter e n d.target.state .drainDeadline r).conclude) ∧
    (∀ d : Deadline, s.rack.queue.timer = some d → d.len ≤ (s.now - d.set).toNat →
      exec .gateTimer s =
        .next { s with rack.queue.timer := none, rack.todo.head := true }.conclude) ∧
    (∀ h : QueueHead, s.rack.queue.head = some h → h.stallSent = false →
      1000 * s.env.param 4 ≤ (s.now - h.since).toNat →
      exec .startStalled s = .next (s.onRack stall).conclude ∧
      (∀ g : GateView, firstFailing (gates s.env s.rack h.slot) = some g →
        (stall s.env s.rack).slots = s.rack.slots ∧
        (stall s.env s.rack).queue.head = some { h with stallSent := true } ∧
        (stall s.env s.rack).notif = s.rack.notif.offer
          ⟨.sequence, 1, h.slot.val, s.now, g.number + 16 * g.detail⟩) ∧
      (firstFailing (gates s.env s.rack h.slot) = none →
        (s.rack.slots[h.slot]).state = .queued →
        (let t := stall s.env s.rack
         let left := s.rack.queue.entries.filter (· != h.slot)
         t = evaluateHead s.env s.rack ∧
         (t.slots[h.slot]).state = .starting ∧ (t.slots[h.slot]).permit = true ∧
         (t.slots[h.slot]).cause = .grant ∧ (t.slots[h.slot]).grantTime = some s.now ∧
         (t.slots[h.slot]).goodDeadline =
           some ⟨s.now, (s.env.profile h.slot).goodDeadline⟩ ∧
         (∀ m : Fin 48, m ≠ h.slot → t.slots[m] = s.rack.slots[m]) ∧
         t.queue.entries = left ∧
         t.queue.head = left.head?.map (fun m => ⟨m, s.now, false⟩) ∧
         t.queue.gate = 0 ∧ t.queue.timer = none ∧
         t.notif = s.rack.notif.offer
           ⟨.slot, 1, h.slot.val, s.now, SlotState.starting.code + 16 * Cause.grant.code⟩))) ∧
    (∀ d : Deadline, s.rack.grid.state = .qualify → s.rack.grid.qualify = some d →
      d.len ≤ (s.now - d.set).toNat →
      ∃ cfg : WorkCfg, exec .qualifyTimer s =
        .next ({ s with cfg := cfg }.onRack fun e r => enterNormal e s.cfg.armed r).conclude ∧
      cfg = { s.cfg with
        armed := false, active := if s.cfg.armed then s.cfg.staged else s.cfg.active }) ∧
    (∀ (e : Env) (armed : Bool) (r : Rack),
      (let t := enterNormal e armed r
       t.grid.state = .normal ∧ t.grid.level = 0 ∧ t.grid.inEvent = false ∧
       t.grid.qualify = none ∧
       (e.autoRestore = true → ∀ n : Fin 48, (r.slots[n]).state = .shed →
         e.slotZoneOpen n = true → (t.slots[n]).state = .queued) ∧
       (e.param 13 = 0 → ∀ n : Fin 48, (r.slots[n]).state = .shed → t.slots[n] = r.slots[n]) ∧
       (armed = true → r.Follows e → t.queue.entries.Pairwise (Precedes e t.slots)) ∧
       (let moved : Rack := { r with
          grid := { r.grid with state := .normal, qualify := none }
          notif := r.notif.offer ⟨.grid, 1, GridState.normal.code, e.now,
            r.grid.bounces + 256 * r.grid.level + 4096 * r.grid.state.code
              + if r.grid.drainFlag then 65536 else 0⟩
          todo := { r.todo with account := true, pool := true, hold := true, head := true } }
        let sorted := resortQueue e moved
        let committed : Notif := ⟨.sequence, 2, Config.planCommittedSubject.toNat, e.now,
          Config.planCommittedValue.toNat⟩
        let taken : Rack :=
          if armed then { sorted with notif := sorted.notif.offer committed } else moved
        let leveled : Rack := { taken with
          grid := { taken.grid with level := 0, inEvent := false } }
        let restored := if e.param 13 ≠ 0 then restore e leveled else leveled
        t = evaluateChecks e (fun _ => true)
          (beginRecharge e (evaluateShortfall e restored)))))

/-! ### Plan, profiles, parameters -/

/-- The plan requests complete whenever they are executed (R12, R13, R14, R92; the widths of the counts,
the count before the refused indices, the two flag bytes of COMMIT_PLAN and that no values follow a
CLAMPED STAGE_PLAN are the model's: log entries 11, 13 and 41). STAGE_PLAN of 1 to 48 entries writes each
entry below 48 in turn, with its rank clamped,
into the staged plan, carries the number written and the indices above 47 that are refused, and clears
an armed commit; COMMIT_PLAN makes the staged plan active in NORMAL, with the Start Queue sorted again,
and arms it otherwise; DISCARD_PLAN copies the active plan back and clears an armed commit. -/
def Obligations.PlanRequests : Prop :=
  (∀ (s : State) (tag : Byte),
    (∀ payload : List Byte, Ready s 0x18 tag payload → payload.length % 3 = 0 → payload ≠ [] →
      payload.length ≤ 144 →
      (let entries := planEntries payload
       let written := fun x : Nat × Nat × Nat => decide (x.1 < 48)
       let refused := fun x : Nat × Nat × Nat => decide (48 ≤ x.1)
       exec (.stagePlan tag payload) s =
        .next ({ s.take with
          cfg := { forEach stageEntry entries s.cfg with armed := false } }.reply 0x18 tag
            ((if entries.any entryClamped = true then codeClamped else codeOk) ::
              (u32 (entries.filter written).length ++ u8 (entries.filter refused).length
                ++ (entries.filter refused).flatMap (fun x : Nat × Nat × Nat => u8 x.1)
                ++ flag s.cfg.armed))).conclude ∧
       3 * entries.length = payload.length)) ∧
    (∀ (n : Fin 48) (rank order : Byte), Ready s 0x18 tag (u8 n.val ++ [rank, order]) →
      (let taken : PlanEntry := ⟨max 1 (min 4 rank.toNat), order.toNat⟩
       exec (.stagePlan tag (u8 n.val ++ [rank, order])) s =
        .next ({ s.take with
          cfg := { s.cfg with staged := put s.cfg.staged n taken, armed := false } }.reply 0x18 tag
            ((if 1 ≤ rank.toNat ∧ rank.toNat ≤ 4 then codeOk else codeClamped) ::
              (u32 1 ++ u8 0 ++ flag s.cfg.armed))).conclude)) ∧
    (Ready s 0x19 tag [] → s.held = false → s.rack.grid.state = .normal →
      exec (.commitPlan tag []) s =
        .next (({ s.take with cfg := { s.cfg with active := s.cfg.staged } }.onRack fun e r =>
          resortQueue e { r with todo.hold := true }).reply 0x19 tag
            [codeOk, Config.committedFlag]).conclude) ∧
    (Ready s 0x19 tag [] → s.held = false → s.rack.grid.state ≠ .normal →
      exec (.commitPlan tag []) s =
        .next ({ s.take with cfg := { s.cfg with armed := true } }.reply 0x19 tag
          [codeOk, Config.armedFlag]).conclude) ∧
    (Ready s 0x1A tag [] →
      exec (.discardPlan tag []) s =
        .next ({ s.take with cfg := { s.cfg with staged := s.cfg.active, armed := false } }.reply
          0x1A tag (codeOk :: flag s.cfg.armed)).conclude)) ∧
  (planEntries [] = [] ∧ ∀ (slot rank order : Byte) (rest : List Byte),
    planEntries (slot :: rank :: order :: rest) =
      (slot.toNat, rank.toNat, order.toNat) :: planEntries rest) ∧
  (∀ (x : Nat × Nat × Nat) (c : WorkCfg),
    (∀ n : Fin 48, x.1 = n.val → stageEntry x c =
      { c with staged := put c.staged n ⟨max 1 (min 4 x.2.1), min 255 x.2.2⟩ }) ∧
    (48 ≤ x.1 → stageEntry x c = c) ∧
    (entryClamped x = true ↔ x.1 < 48 ∧ (x.2.1 < 1 ∨ 4 < x.2.1 ∨ 255 < x.2.2))) ∧
  (∀ (e : Env) (r : Rack), r.queue.entries.Nodup →
    (let t := resortQueue e r
     t.queue.entries.Perm r.queue.entries ∧ t.queue.entries.Pairwise (Precedes e r.slots) ∧
     (r.queue.head.map QueueHead.slot = t.queue.entries.head? → t.queue.head = r.queue.head) ∧
     (r.queue.head.map QueueHead.slot ≠ t.queue.entries.head? →
       t.queue.head = t.queue.entries.head?.map fun m => ⟨m, e.now, false⟩) ∧
     t = { r with queue := t.queue, todo := t.todo }))

/-- SET_PROFILE and SET_PARAM (R9, R10, R11, R15, R187; that a value is sent in the width of its
parameter's range is the model's reading: log entry 13; that a change of validity takes the slots in
slot index order, with what each hands on before the next, is its choice: log entries 30 and 4): outside
Safe Hold the profile or the parameter takes the figures carried, each clamped to its range, with
CLAMPED when one was; a profile named by a powered slot, and outside NORMAL a parameter of the second
table, are refused with nothing changed. A change of validity takes a slot that is enabled and names the
profile from OFF, QUEUED or SHED to DISABLED, or from DISABLED to OFF, in slot index order, and leaves
every other slot; with no change of validity no slot moves. -/
def Obligations.ProfileAndParameter : Prop :=
  (∀ (s : State) (tag : Byte), s.held = false →
     (∀ (p : Fin 8) (a b c d f : Fin 65536),
       Ready s 0x20 tag (u8 p.val ++ u16 a ++ u16 b ++ u16 c ++ u16 d ++ u16 f) →
       (let taken : Profile := ⟨min 12000 a, min 12000 b, min 12000 c,
          max 500 (min 10000 d), min 60000 f⟩
        (s.profileInUse p = true →
          exec (.setProfile tag (u8 p.val ++ u16 a ++ u16 b ++ u16 c ++ u16 d ++ u16 f)) s =
            .next (s.take.reply 0x20 tag [codeRefusedState]).conclude) ∧
        (s.profileInUse p = false →
          exec (.setProfile tag (u8 p.val ++ u16 a ++ u16 b ++ u16 c ++ u16 d ++ u16 f)) s =
            .next ((s.take.setProfile p taken).reply 0x20 tag
              ((if taken = ⟨a, b, c, d, f⟩ then codeOk else codeClamped) ::
                (u16 taken.startW ++ u16 taken.peakW ++ u16 taken.nominalW ++ u16 taken.goodDeadline
                  ++ u16 taken.drainMs ++ flag taken.valid))).conclude) ∧
        ((s.setProfile p taken).cfg = { s.cfg with profiles := put s.cfg.profiles p taken }))) ∧
     (∀ (id : Fin 16) (v : Fin 4294967296), Ready s 0x21 tag (u8 id.val ++ u32 v) →
       (let range := paramRange id
        let taken := max range.1 (min range.2 v)
        (id ∈ [5, 6, 7, 11] → s.rack.grid.state ≠ .normal →
          exec (.setParam tag (u8 id.val ++ u32 v)) s =
            .next (s.take.reply 0x21 tag [codeRefusedState]).conclude) ∧
        ((id ∉ [5, 6, 7, 11] ∨ s.rack.grid.state = .normal) →
          exec (.setParam tag (u8 id.val ++ u32 v)) s =
            .next ((s.take.setParam id taken).reply 0x21 tag
              ((if taken = v.val then codeOk else codeClamped) :: sized range.2 taken)).conclude) ∧
        ((s.setParam id taken).cfg = { s.cfg with params := put s.cfg.params id taken })))) ∧
  (∀ x : Profile, x.valid = true ↔ x.nominalW ≤ x.peakW ∧ 0 < x.startW) ∧
  (∀ (s : State) (p : Fin 8), s.profileInUse p = true ↔
    ∃ n : Fin 48, (s.cfg.record.slots[n]).profile = p.val ∧
      (s.rack.slots[n]).state ∈ [SlotState.starting, .on, .draining]) ∧
  (∀ id : Fin 16, paramRange id = ([(100, 30000), (0, 30000), (1000, 60000), (1000, 600000),
     (10, 3600), (10, 3600), (5, 120), (0, 30000), (1, 300), (128, 256), (0, 20000), (192, 256),
     (0, 1), (0, 1), (1, 365), (500, 5000)] : List (Nat × Nat)).getD id.val (0, 0)) ∧
  (∀ (s : State) (p : Fin 8) (x : Profile),
     (let t : State := { s with cfg := { s.cfg with profiles := put s.cfg.profiles p x } }
      (x.valid = (s.cfg.profiles[p]).valid → (s.setProfile p x).rack.slots = s.rack.slots) ∧
      (x.valid ≠ (s.cfg.profiles[p]).valid → (s.setProfile p x).rack.slots =
        (forEach (fun n r => handOn t.env (applyValidity t.env p x.valid n r)) (List.finRange 48)
          s.rack).slots) ∧
      (x.valid = (s.cfg.profiles[p]).valid →
        ((∃ h, s.rack.queue.head = some h ∧ (s.cfg.record.slots[h.slot]).profile = p.val) →
          s.setProfile p x = { t with
            rack := { s.rack with todo := { s.rack.todo with head := true, pool := true } } }) ∧
        (¬(∃ h, s.rack.queue.head = some h ∧ (s.cfg.record.slots[h.slot]).profile = p.val) →
          s.setProfile p x = t)))) ∧
  (∀ (s : State) (id : Fin 16) (v : Nat),
     (let t : State := { s with cfg := { s.cfg with params := put s.cfg.params id v } }
      let r := s.rack
      let limited := ∃ h, r.queue.head = some h ∧ h.stallSent = false ∧
        1000 * v ≤ (s.now - h.since).toNat
      (id ∈ [0, 1, 2, 3, 12] →
        s.setParam id v = { t with rack := { r with todo := { r.todo with head := true } } }) ∧
      (id = 4 → limited → s.setParam id v = { t with rack := stall t.env r }) ∧
      (id = 4 → ¬limited → s.setParam id v = t) ∧
      (id = 5 → s.setParam id v =
        { t with rack := { r with todo := { r.todo with head := true, hold := true } } }) ∧
      ((id = 6 ∨ id = 11) →
        s.setParam id v = { t with rack := { r with todo := { r.todo with hold := true } } }) ∧
      (id = 9 → s.setParam id v = { t with
        rack := computeAccount t.env { r with todo := { r.todo with head := true } } }) ∧
      (id = 10 → s.setParam id v = { t with rack := { r with todo := { r.todo with
        head := true, account := true, pool := true, hold := true } } }) ∧
      (id ∈ [7, 8, 13, 14, 15] → s.setParam id v = t))) ∧
  (∀ (e : Env) (p : Fin 8) (n : Fin 48) (r : Rack),
     (let named := e.cfg.locked = true ∧ e.marks.slotOn[n] = true ∧
        (e.cfg.record.slots[n]).profile = p.val
      let st := (r.slots[n]).state
      (named → st ∈ [SlotState.off, .queued, .shed] →
        applyValidity e p false n r = enter e n .disabled .configuration r) ∧
      (named → st = .disabled → applyValidity e p true n r = enter e n .off .configuration r) ∧
      (¬named → ∀ v : Bool, applyValidity e p v n r = r) ∧
      (st ∉ [SlotState.off, .queued, .shed] → applyValidity e p false n r = r) ∧
      (st ≠ .disabled → applyValidity e p true n r = r)))

/-! ### Commissioning -/

/-- COMMISSION_WRITE, COMMISSION_LOCK and DECOMMISSION outside Safe Hold (R2, R3, R5, R6, R8, R193; the
widths of the five counts, and that the value 2 taken for k is written into the record, are the model's
reading: log entries 13 and 22): the checks in their order, a lock asking for 1 to 3 shelves and 1 to 48
slots, no WET channel and no isolated shelf, a DECOMMISSION for every slot OFF, DISABLED or FAULTED, no
active check and NORMAL, the section of each kind replaced as carried and no other, the record locked
with k taken as 2 when above it and each element of it marked by its test, and the record kept at a
DECOMMISSION. -/
def Obligations.CommissionRequests : Prop :=
  (∀ (s : State) (tag : Byte), s.held = false →
    (∀ (kind index : Byte) (fields : List Byte), Ready s 0x30 tag (kind :: index :: fields) →
      fieldLength kind.toNat = some fields.length →
      exec (.commissionWrite tag (kind :: index :: fields)) s =
        if s.cfg.locked then .next (s.take.reply 0x30 tag [codeLocked]).conclude
        else if sectionCount kind.toNat ≤ index.toNat then
          .next (s.take.reply 0x30 tag [codeBadIndex]).conclude
        else .next ({ s.take with cfg := { s.cfg with
          record := s.cfg.record.write kind.toNat index.toNat fields } }.reply 0x30 tag
            [codeOk]).conclude) ∧
    (Ready s 0x31 tag [] →
      (s.cfg.locked = true → exec (.commissionLock tag []) s =
        .next (s.take.reply 0x31 tag [codeLocked]).conclude) ∧
      (s.cfg.locked = false → (s.cfg.record.rack.lockable = false ∨ s.leak.latched = true) →
        exec (.commissionLock tag []) s =
          .next (s.take.reply 0x31 tag [codeRefusedState]).conclude) ∧
      (s.cfg.locked = false → s.cfg.record.rack.lockable = true → s.leak.latched = false →
        (let k := min 2 s.cfg.record.rack.k
         let record := { s.cfg.record with rack := { s.cfg.record.rack with k := k } }
         let m := validate record s.cfg.profiles
         s.lock.cfg = { s.cfg with record := record, locked := true } ∧ s.lock.marks = m ∧
         exec (.commissionLock tag []) s = .next (s.take.lock.reply 0x31 tag
           ((if s.cfg.record.rack.k ≤ 2 then codeOk else codeClamped) ::
             (u8 k ++ u32 m.disabledSlots ++ u32 m.disabledPsus ++ u32 m.disabledBus
               ++ u32 m.disabledChannels ++ u32 m.waitingSlots))).conclude))) ∧
    (Ready s 0x32 tag [] →
      ((s.cfg.locked = false ∨ s.canUnlock = false) → exec (.decommission tag []) s =
        .next (s.take.reply 0x32 tag [codeRefusedState]).conclude) ∧
      (s.cfg.locked = true → s.canUnlock = true →
        s.unlock.cfg = { s.cfg with locked := false } ∧
        exec (.decommission tag []) s =
          .next (s.take.unlock.reply 0x32 tag [codeOk]).conclude))) ∧
  (∀ s : State,
    (s.canUnlock = true ↔
      (∀ n : Fin 48, (s.rack.slots[n]).state ∈ [SlotState.off, .disabled, .faulted]) ∧
      s.rack.active = none ∧ s.rack.grid.state = .normal) ∧
    (s.cfg.record.rack.lockable = true ↔
      1 ≤ s.cfg.record.rack.shelfCount ∧ s.cfg.record.rack.shelfCount ≤ 3 ∧
      1 ≤ s.cfg.record.rack.slotCount ∧ s.cfg.record.rack.slotCount ≤ 48) ∧
    (s.leak.latched = true ↔ (∃ c : Fin 16, (s.leak.channels[c]).state = .wet) ∨
      ∃ (z : Fin 8) (h : Fin 3), (s.leak.zones[z]).shelves[h] = true)) ∧
  (∀ c : CommRecord,
    (∀ x y z : Byte,
      c.write 0 0 [x, y, z] = { c with rack := ⟨x.toNat, y.toNat, z.toNat⟩ }) ∧
    (∀ (h : Fin 3) (x y z : Byte) (psus bus : List Byte), psus.length = 6 → bus.length = 4 →
      (let sec : ShelfSec := ⟨⟨x.toNat, (psus.take x.toNat).map BitVec.toNat⟩,
         ⟨y.toNat, (bus.take y.toNat).map BitVec.toNat⟩, z.toNat⟩
       c.write 1 h.val (x :: psus ++ y :: bus ++ [z]) =
         { c with shelves := put c.shelves h sec })) ∧
    (∀ (i : Fin 18) (x : Fin 65536),
      c.write 2 i.val (u16 x) = { c with psus := put c.psus i ⟨x⟩ }) ∧
    (∀ (j : Fin 12) (v w x y : Fin 65536) (z : Byte),
      c.write 3 j.val (u16 v ++ u16 w ++ u16 x ++ u16 y ++ [z]) =
        { c with bus := put c.bus j ⟨v, w, x, y, z.toNat⟩ }) ∧
    (∀ (n : Fin 48) (x y z : Byte), c.write 4 n.val [x, y, z] =
      { c with slots := put c.slots n ⟨x.toNat, y.toNat, z.toNat⟩ }) ∧
    (∀ (k : Fin 16) (x : Byte) (y z : Fin 65536), c.write 5 k.val (x :: (u16 y ++ u16 z)) =
      { c with channels := put c.channels k ⟨x.toNat, y, z⟩ })) ∧
  (∀ (c : CommRecord) (profiles : Vector Profile 8),
    (let m := validate c profiles
     let zone := fun z : Nat => z ≤ 7 ∨ z = 255
     let bays := fun (b : BaySet) (k : Nat) => b.count ≤ k ∧ ∀ x ∈ b.bays, x < k
     let inPsuSet := fun i : Fin 18 => psuBay i ∈ (c.shelves[psuShelf i]).psuBays.bays
     let inBuSet := fun j : Fin 12 => buBay j ∈ (c.shelves[buShelf j]).buBays.bays
     let rated := fun b : BuSec => 100 ≤ b.rated ∧ b.rated ≤ 16000 ∧ b.reserve ≤ b.rated / 2 ∧
       500 ≤ b.maxDischarge ∧ b.maxDischarge ≤ 12000 ∧ b.maxRecharge ≤ 5000 ∧ 5 ≤ b.depth ∧
       b.depth ≤ 50
     let bad := fun x : ChanSec => ¬zone x.zone ∨ 1023 < x.wet ∨ 1023 < x.opn ∨ x.opn ≤ x.wet
     (∀ h : Fin 3, m.shelfOn[h] = true ↔ h.val < c.rack.shelfCount ∧ zone (c.shelves[h]).zone ∧
       bays (c.shelves[h]).psuBays 6 ∧ bays (c.shelves[h]).buBays 4) ∧
     (∀ i : Fin 18, c.psuPresent i = true ↔ m.shelfOn[psuShelf i] = true ∧ inPsuSet i ∧
       500 ≤ (c.psus[i]).rated ∧ (c.psus[i]).rated ≤ 6000) ∧
     (∀ j : Fin 12, c.buPresent j = true ↔ m.shelfOn[buShelf j] = true ∧ inBuSet j ∧
       rated c.bus[j]) ∧
     (∀ n : Fin 48, m.slotOn[n] = true ↔ n.val < c.rack.slotCount ∧ (c.slots[n]).profile ≤ 7 ∧
       (c.slots[n]).group ≤ 3 ∧ zone (c.slots[n]).zone) ∧
     (∀ k : Fin 16, m.channelUsed[k] = true ↔ (c.channels[k]).zone ≠ 255 ∧ ¬bad c.channels[k]) ∧
     (∀ l : List (Fin 48), l.Nodup →
       ((∀ n, n ∈ l ↔ n.val < c.rack.slotCount ∧ m.slotOn[n] = false) →
         m.disabledSlots = l.length) ∧
       ((∀ n, n ∈ l ↔ m.slotOn[n] = true ∧
           ∀ p : Fin 8, (c.slots[n]).profile = p.val → (profiles[p]).valid = false) →
         m.waitingSlots = l.length)) ∧
     (∀ l : List (Fin 18), l.Nodup → (∀ i, i ∈ l ↔ (psuShelf i).val < c.rack.shelfCount ∧
       inPsuSet i ∧ c.psuPresent i = false) → m.disabledPsus = l.length) ∧
     (∀ l : List (Fin 12), l.Nodup → (∀ j, j ∈ l ↔ (buShelf j).val < c.rack.shelfCount ∧
       inBuSet j ∧ c.buPresent j = false) → m.disabledBus = l.length) ∧
     (∀ l : List (Fin 16), l.Nodup → (∀ k, k ∈ l ↔ (c.channels[k]).zone ≠ 255 ∧
       bad c.channels[k]) → m.disabledChannels = l.length)))

/-- What a lock and a DECOMMISSION do to the slots, the modules and the leak zones (R6, R7, R8, R44,
R140, R161, R162; that a DECOMMISSION drops every grace and keeps every alarm time, and takes the zones
in rising index, are the model's choices: log entries 16 and 30). At a lock every slot, all of them
DISABLED before it (R4), stands OFF when it is enabled and on a VALID profile; a present position that
no discovery had answered stands LOST with a report pending, no miss and no baseline, and the others
keep their discovery record, with capability and energy clamped to the rated figure (a position that is
not present takes the figures of R40 and R43; those they leave unsaid are the model's: log entry 16);
the baseline of a record carried over in another state than ABSENT stays (the model's choice: log entry
52), the entry of a bay newly present takes its initial values, with a SAMPLE_PENDING phase and its
deadline kept (the model's choice: log entry 51), a member that is not IDLE or CHARGING is a member no
longer, the recharge frame restarts on a pool of 0 where the lock's figures enter a shortfall (R56,
R141), the queue entry of a position that is not present is discarded and that of a present position
that is no member stays, also where its record becomes LOST (the model's choice: log entry 50), every
channel restarts in DRY with its counts and its dry run at 0, ten samples are to come before the
first-window flag, and every zone stands CLEAR. At a DECOMMISSION every slot stands DISABLED and no
position is present, a LOST record becomes ABSENT with no report pending and every other keeps all that
it holds, the commands and the queue entries stay, and no fault is logged; zones 1 to 7 stand CLEAR, and
zone 0 stands as its channels have it, raised where it changes and acted on no further, and holds every
shelf isolation; channels and first-window flag stay. Neither changes when the next leak sample is due
(R159). -/
def Obligations.LockAndUnlock : Prop :=
  ∀ s : State,
    ((∀ n : Fin 48, (s.rack.slots[n]).state = .disabled) → ∀ n : Fin 48,
      (s.lock.rack.slots[n]).state = if s.lock.env.usable n = true then .off else .disabled) ∧
    (∀ i : Fin 18,
      (let was := s.rack.psu[i]
       let top := (s.cfg.record.psus[i]).rated
       s.lock.rack.psu[i] =
        if s.cfg.record.psuPresent i = true then
          if was.state = .absent then { was with
            present := true, capability := min was.capability top
            state := .lost, reportPending := true, miss := 0 }
          else { was with present := true, capability := min was.capability top }
        else { was with
          present := false, state := .absent, capability := 0, output := 0, input := .absent
          miss := 0, reportPending := false, commandedOn := true })) ∧
    (∀ j : Fin 12, (s.lock.rack.bu[j]).present = s.cfg.record.buPresent j ∧
      (let was := s.rack.bu[j]
       let b := s.lock.rack.bu[j]
       (b.present = true →
         b.energy = min was.energy (s.cfg.record.bus[j]).rated ∧
         b.discharge = was.discharge ∧ b.delivered = was.delivered ∧
         b.lastCounter = was.lastCounter ∧ b.lastReport = was.lastReport ∧
         b.commandedIsolate = was.commandedIsolate ∧ b.leakIsolated = was.leakIsolated ∧
         b.offered = was.offered ∧ b.accepted = was.accepted ∧
         (was.state = .absent → b.state = .lost ∧ b.reportPending = true ∧ b.miss = 0 ∧
           b.baseline = false) ∧
         (was.state ≠ .absent → b.state = was.state ∧ b.reportPending = was.reportPending ∧
           b.miss = was.miss ∧ b.baseline = was.baseline)) ∧
       (b.present = false →
         b.state = .absent ∧ b.energy = 0 ∧ b.discharge = 0 ∧ b.delivered = 0 ∧
         b.baseline = false ∧ b.miss = 0 ∧ b.reportPending = false ∧
         b.commandedIsolate = false ∧ b.leakIsolated = false ∧ b.offered = 0 ∧ b.accepted = 0 ∧
         b.setpoint = 0))) ∧
    (∀ j : Fin 12,
      (let was := s.rack.bu[j]
       let b := s.lock.rack.bu[j]
       b.lockPresent = s.lock.cfg.record.buPresent j ∧
       (b.present = true → was.lockPresent = false →
         b.h = 192 ∧ b.stale = true ∧ b.postponed = 0 ∧ b.due = 0) ∧
       b.phase = was.phase ∧ b.sampleDeadline = was.sampleDeadline ∧
       ((b.present = false ∨ was.lockPresent = true) →
         b.h = was.h ∧ b.stale = was.stale ∧ b.postponed = was.postponed ∧ b.due = was.due) ∧
       let restarts := s.rack.acct.shortfall = false ∧ s.lock.rack.acct.shortfall = true ∧
         s.rack.rech.frame ≠ none ∧ 0 < s.rack.rech.pool
       (¬restarts → s.lock.rack.rech.members[j] =
         if b.state = .idle ∨ b.state = .charging then s.rack.rech.members[j] else none) ∧
       (restarts → s.lock.rack.rech.members[j] =
         if b.joins = true then some (memberOf 0) else none) ∧
       (b.present = true → ¬restarts → s.rack.rech.members[j] = none →
         s.lock.rack.bus.entry (.bu j) = s.rack.bus.entry (.bu j)))) ∧
    (∀ n : Fin 48, (s.unlock.rack.slots[n]).state = .disabled ∧
      (s.unlock.rack.slots[n]).lastFault = (s.rack.slots[n]).lastFault) ∧
    (∀ i : Fin 18,
      ((s.lock.rack.psu[i]).present = false → s.lock.rack.bus.entry (.psu i) = none) ∧
      ((s.lock.rack.psu[i]).present = true →
        s.lock.rack.bus.entry (.psu i) = s.rack.bus.entry (.psu i))) ∧
    (∀ j : Fin 12, (s.lock.rack.bu[j]).present = false →
      s.lock.rack.bus.entry (.bu j) = none) ∧
    (∀ i : Fin 18, s.unlock.rack.psu[i] =
      (let was : PsuRec := { s.rack.psu[i] with present := false }
       if was.state = .lost then { was with state := .absent, reportPending := false } else was)) ∧
    (∀ j : Fin 12, s.unlock.rack.bu[j] =
      (let was : BuRec := { s.rack.bu[j] with present := false }
       if was.state = .lost then { was with state := .absent, reportPending := false } else was)) ∧
    s.unlock.rack.bus = s.rack.bus ∧ s.unlock.rack.faults = s.rack.faults ∧
    (∀ c : Fin 16, s.lock.leak.channels[c] = {
      state := .dry, wetCount := 0, openCount := 0, dryCount := 0, dryRun := 0
      level := (s.leak.channels[c]).level }) ∧
    s.lock.leak.samples = 0 ∧
    s.lock.leak.firstWindow = false ∧ (∀ z : Fin 8, (s.lock.leak.zones[z]).state = .clear) ∧
    s.unlock.leak.channels = s.leak.channels ∧ s.unlock.leak.samples = s.leak.samples ∧
    s.unlock.leak.firstWindow = s.leak.firstWindow ∧
    s.lock.leak.nextSample = s.leak.nextSample ∧ s.unlock.leak.nextSample = s.leak.nextSample ∧
    (∃ u : State, u.leak.channels = s.leak.channels ∧ u.cfg = { s.cfg with locked := false } ∧
      (∀ z : Fin 8, (u.leak.zones[z]).state = (s.leak.zones[z]).state) ∧
      s.unlock = (forEach (fun (z : Fin 8) (t : State) =>
        t.setZone z (if z.val = 0 then zoneFollows (t.zoneChannelStates z) else .clear))
          (List.finRange 8) u).onRack lockHanded) ∧
    (∀ z : Fin 8, z ≠ 0 → (s.unlock.leak.zones[z]).state = .clear ∧
      ∀ h : Fin 3, ((s.unlock.leak.zones[z]).shelves[h]) = false) ∧
    ((∃ c : Fin 16, (s.leak.channels[c]).state = .wet) →
      (s.unlock.leak.zones[(0 : Fin 8)]).state = .alarm) ∧
    ((∀ c : Fin 16, (s.leak.channels[c]).state ≠ .wet) →
      (∃ c : Fin 16, (s.leak.channels[c]).state = .suspect ∨ (s.leak.channels[c]).state = .opn) →
      (s.unlock.leak.zones[(0 : Fin 8)]).state = .watch) ∧
    ((∀ c : Fin 16, (s.leak.channels[c]).state = .dry) →
      (s.unlock.leak.zones[(0 : Fin 8)]).state = .clear) ∧
    (∀ h : Fin 3, (s.unlock.leak.zones[(0 : Fin 8)]).shelves[h] = true ↔
      ∃ z : Fin 8, (s.leak.zones[z]).shelves[h] = true) ∧
    (∀ z : Fin 8, (s.unlock.leak.zones[z]).grace = none ∧
      (s.unlock.leak.zones[z]).alarmTime = (s.leak.zones[z]).alarmTime)

/-! ### The store -/

/-- SAVE_CONFIG and the ends of the store's writes (R19, R20, R21): a save counts as in progress from its
execution and is answered at the end of its write, with FAILED and STORE_WRITE_FAIL when the write ends
badly; a battery write has no reply. What a bad end leaves in the written image, one that does not verify
included, is the model's choice (log entry 9). Writes go one after another: with none in progress a
waiting SAVE_CONFIG goes first, then a waiting battery write, each with its values as they then stand. -/
def Obligations.StoreCommands : Prop :=
  (∀ s : State,
     (∀ tag : Byte, Ready s 0x38 tag [] → exec (.saveConfig tag []) s =
       .next { s.take with store := { s.store with saving := true, saveTag := some tag } }.conclude) ∧
     (∀ c : ConfigImage, s.store.writing = some (.config c) →
       (let ended : Store → Store := fun t =>
          { t with writing := none, saving := false, saveTag := none }
        let owed := fun (t : State) (code : Byte) => match s.store.saveTag with
          | some tag => t.reply 0x38 tag [code]
          | none => t
        s.store.written.writing = s.store.writing ∧ (s.store.spoiled s.free).writing = s.store.writing ∧
        exec (.configWriteEnd true) s =
          .next (owed { s with store := ended s.store.written } codeOk).conclude ∧
        exec (.configWriteEnd false) s =
          .next (owed ({ s with
            store := ended (s.store.spoiled s.free), free := s.free + 1 }.onRack fun e r =>
              logFault e .storeWriteFail 0 r) codeFailed).conclude)) ∧
     (∀ c, s.store.writing = some (.battery c) →
       exec (.batteryWriteEnd true) s =
         .next { s with store := { s.store.written with writing := none } }.conclude ∧
       exec (.batteryWriteEnd false) s =
         .next ({ s with
           store := { s.store.spoiled s.free with writing := none }, free := s.free + 1 }.onRack
             fun e r => logFault e .storeWriteFail 1 r).conclude)) ∧
  (∀ (t : Store) (c : WorkCfg) (bu : Vector BuRec 12),
     (t.writing = none → t.saving = true → t.nextWrite c bu = { t with
       writing := some (.config ⟨c.record, c.locked, c.profiles, c.active, c.params, c.leakTable⟩) }) ∧
     (t.writing = none → t.saving = false → t.batteryWaiting = true →
       ∃ x : Vector BatteryEntry 12,
         t.nextWrite c bu = { t with writing := some (.battery x), batteryWaiting := false } ∧
         ∀ j : Fin 12, x[j] = ⟨(bu[j]).h, (bu[j]).stale, (bu[j]).postponed, (bu[j]).due,
           (bu[j]).lockPresent⟩) ∧
     (t.writing ≠ none → t.nextWrite c bu = t))

/-! ### The Leak Monitor -/

/-- A leak reading and the movement of a channel on it (R159, R160): ten wet readings from the first
make DRY into WET by way of SUSPECT, five open ones make DRY into OPEN, five dry ones make OPEN into
DRY, a WET channel stays WET, and the dry run counts dry readings up to ten and is broken by any
other. -/
def Obligations.ChannelMoves : Prop :=
  (∀ wet opn level : Nat,
    (level ≤ wet → classify wet opn level = .wet) ∧
    (wet < level → opn ≤ level → classify wet opn level = .opn) ∧
    (wet < level → level < opn → classify wet opn level = .dry)) ∧
  (∀ (c : Channel) (x : Reading),
    (c.move x).level = c.level ∧
    (c.move x).dryRun = (if x = .dry then min 10 (c.dryRun + 1) else 0)) ∧
  (∀ c : Channel,
    (c.state = .dry → (c.move .wet).state = .suspect ∧ (c.move .wet).wetCount = 1 ∧
      (c.move .wet).openCount = 0) ∧
    (c.state = .dry → c.openCount < 4 → (c.move .opn).state = .dry ∧
      (c.move .opn).openCount = c.openCount + 1 ∧ (c.move .opn).wetCount = c.wetCount) ∧
    (c.state = .dry → c.openCount = 4 → (c.move .opn).state = .opn) ∧
    (c.state = .dry → (c.move .dry).state = .dry ∧ (c.move .dry).wetCount = 0 ∧
      (c.move .dry).openCount = 0) ∧
    (c.state = .suspect → c.wetCount < 9 → (c.move .wet).state = .suspect ∧
      (c.move .wet).wetCount = c.wetCount + 1) ∧
    (c.state = .suspect → c.wetCount = 9 → (c.move .wet).state = .wet) ∧
    (c.state = .suspect → (c.move .opn).state = .dry ∧ (c.move .opn).openCount = 1 ∧
      (c.move .opn).wetCount = 0) ∧
    (c.state = .suspect → (c.move .dry).state = .dry ∧ (c.move .dry).wetCount = 0) ∧
    (c.state = .opn → (c.move .wet).state = .suspect ∧ (c.move .wet).wetCount = 1 ∧
      (c.move .wet).dryCount = 0) ∧
    (c.state = .opn → (c.move .opn).state = .opn ∧ (c.move .opn).dryCount = 0) ∧
    (c.state = .opn → c.dryCount < 4 → (c.move .dry).state = .opn ∧
      (c.move .dry).dryCount = c.dryCount + 1) ∧
    (c.state = .opn → c.dryCount = 4 → (c.move .dry).state = .dry)) ∧
  (∀ (c : Channel) (xs : List Reading), c.state = .wet →
    (xs.foldl Channel.move c).state = .wet) ∧
  (∀ (c : Channel), c.state = .dry →
    ((List.replicate 10 Reading.wet).foldl Channel.move c).state = .wet ∧
    ((List.replicate 9 Reading.wet).foldl Channel.move c).state = .suspect)

/-- LEAK_SAMPLE, the following of a zone, and GRACE_EXPIRY (R159, R160, R161, R162, R165): at the
instant a sample is due LEAK_SAMPLE reads all sixteen channels in channel order (the model's choice: log
entry 30), each reading's level is recorded, the next sample is due 100 ms on, and the tenth since
power-on or the lock sets the first-window flag; at any other instant LEAK_SAMPLE leaves the state (the
model's choice: log entry 6). A channel that changes state raises CHANNEL_STATE with the state code plus
16 times the level, logs SENSOR_OPEN at an entry to OPEN, and then has its zone follow (this order is
the model's choice: log entry 30); one that keeps its state changes nothing but its record. A zone that
is not latched follows its used channels: ALARM with one WET, else WATCH with one SUSPECT or OPEN, else
CLEAR, a change raising ZONE_STATE and handed to the head of its zone (what ZONE_STATE and zone 0 act by
while UNCOMMISSIONED is the model's reading: log entry 24; an entry to ALARM waits for an adoption still
owed: R172); a latched one is left. A zone in ALARM whose grace deadline is reached isolates. -/
def Obligations.LeakEvents : Prop :=
  (∀ (s : State) (levels : Vector (BitVec 10) 16), s.leak.nextSample ≠ some s.now →
    exec (.leakSample levels) s = .next s) ∧
  (∀ (s : State) (levels : Vector (BitVec 10) 16), s.leak.nextSample = some s.now →
    ∃ t : State, exec (.leakSample levels) s = .next t.conclude ∧
      t = (forEach (fun (c : Fin 16) (t : State) => t.sampleChannel c (levels[c]).toNat)
        (List.finRange 16)
        { s with leak := { s.leak with nextSample := some (s.now + 100) } }).countSample ∧
      t.leak.nextSample = some (s.now + 100) ∧
      (∀ c : Fin 16, (t.leak.channels[c]).level = some (levels[c]).toNat) ∧
      (∀ c : Fin 16, s.channelZone c = none →
        t.leak.channels[c] = { s.leak.channels[c] with level := some (levels[c]).toNat }) ∧
      (∀ c : Fin 16, s.channelZone c ≠ none →
        t.leak.channels[c] = { (s.leak.channels[c]).move
          (classify (s.wetAt c) (s.openAt c) (levels[c]).toNat) with
            level := some (levels[c]).toNat }) ∧
      t.leak.samples = min 10 (s.leak.samples + 1) ∧
      (t.leak.firstWindow = true ↔ s.leak.firstWindow = true ∨ 9 ≤ s.leak.samples)) ∧
  (∀ (s : State) (c : Fin 16) (level : Nat),
    (let old := s.leak.channels[c]
     let new : Channel := { (if s.channelZone c = none then old
       else old.move (classify (s.wetAt c) (s.openAt c) level)) with level := some level }
     let read : State := { s with leak.channels := put s.leak.channels c new }
     let told : State := { read with
       rack.notif := s.rack.notif.offer ⟨.leak, 1, c.val, s.now, new.state.code + 16 * level⟩ }
     let logged : State := if new.state = .opn then
       told.onRack fun e r => logFault e .sensorOpen c.val r else told
     (new.state = old.state → s.sampleChannel c level = read) ∧
     (∀ z : Fin 8, new.state ≠ old.state → s.channelZone c = some z →
       s.sampleChannel c level = logged.followZone z))) ∧
  (∀ (s : State) (z : Fin 8) (d : Deadline), (s.leak.zones[z]).state = .alarm →
    (s.leak.zones[z]).grace = some d → d.len ≤ (s.now - d.set).toNat → s.boot.adopting = false →
    exec (.graceExpiry z) s = .next (s.isolateZone z).conclude) ∧
  (∀ (s : State) (z : Fin 8),
    (let has := fun x : ChanState =>
       ∃ c : Fin 16, s.channelZone c = some z ∧ (s.leak.channels[c]).state = x
     let now := (s.leak.zones[z]).state
     let t := s.followZone z
     ((now = .alarm ∨ now = .isolated) → t = s) ∧
     ((now = .clear ∨ now = .watch) →
       (has .wet → s.boot.adopting = true → t = s) ∧
       (has .wet → s.boot.adopting = false → t = s.enterAlarm z) ∧
       (¬has .wet → (has .suspect ∨ has .opn) → t = s.setZone z .watch) ∧
       (¬has .wet → ¬has .suspect → ¬has .opn → t = s.setZone z .clear)))) ∧
  (∀ (s : State) (z : Fin 8) (x : ZoneState),
    ((s.leak.zones[z]).state = x → s.setZone z x = s) ∧
    ((s.leak.zones[z]).state ≠ x →
      (let t := s.setZone z x
       t = { s with
         leak.zones := put s.leak.zones z { s.leak.zones[z] with state := x }
         rack.notif := s.rack.notif.offer
           ⟨.leak, 2, z.val, s.now, x.code + 16 * (s.action z).code⟩
         rack.todo.head := t.rack.todo.head } ∧
       (t.rack.todo.head = true ↔ s.rack.todo.head = true ∨
         ∃ h, s.rack.queue.head = some h ∧ s.env.slotZone h.slot = some z))))

/-- The entry of a zone to ALARM and its isolation (R163, R164, R165, R166, R167): the zone latches with
the time of the entry, LEAK_CONFIRMED is logged once; with NOTIFY_ONLY no slot moves, with
ISOLATE_AFTER_GRACE the grace deadline is set and every slot of the zone is handed a leak drain, and
with ISOLATE_NOW, as at the end of a grace, the zone stands ISOLATED with no grace and every slot of it
that was powered, QUEUED or SHED stands ISOLATED with PERMIT off. Each slot's change is handed on before
the next, so a slot elsewhere moves only as the blocks shed it. With the setting on, the enabled shelves
of the zone are isolated: each present PSU is commanded off and offered OUTPUT_OFF, each present BU is
leak-isolated, commanded to isolate, offered ISOLATE and a member no longer. -/
def Obligations.ZoneIsolation : Prop :=
  (∀ (s : State) (z : Fin 8),
    (let latched : Zone := { s.leak.zones[z] with state := .alarm, alarmTime := some s.now }
     let alarmed : State := ({ s with leak.zones := put s.leak.zones z latched } : State).onRack
       fun e r => logFault e .leakConfirmed z.val r
     let raised := alarmed.zoneRaised z
     (s.action z = .notifyOnly → s.enterAlarm z = raised) ∧
     (s.action z = .isolateAfterGrace → s.enterAlarm z = raised.beginGrace z ∧
       ((s.enterAlarm z).leak.zones[z]).grace =
         some ⟨s.now, 1000 * (s.cfg.leakTable[z]).grace⟩ ∧
       (s.enterAlarm z).rack = forEach
         (fun n r => handOn raised.env
           (drainInTurn raised.env (.leak (1000 * (s.cfg.leakTable[z]).grace)) n r))
         ((List.finRange 48).filter fun n => s.env.slotZone n == some z) raised.rack) ∧
     (s.action z = .isolateNow → s.enterAlarm z = raised.isolateZone z)) ∧
    (let isolated : Zone := { s.leak.zones[z] with grace := none, state := .isolated }
     let begun := ({ s with leak.zones := put s.leak.zones z isolated } : State).zoneRaised z
     let cut : State := { begun with
       rack := forEach (fun n r => handOn begun.env (leakCut begun.env n r))
         ((List.finRange 48).filter fun n => s.env.slotZone n == some z) begun.rack }
     s.isolateZone z =
       if (s.cfg.leakTable[z]).shelfIsolate then cut.isolateShelves z else cut) ∧
    ((s.isolateZone z).leak.zones[z]).state = .isolated ∧
    ((s.isolateZone z).leak.zones[z]).grace = none ∧
    (∀ n : Fin 48, s.env.slotZone n = some z →
      (s.rack.slots[n]).state ∈ [SlotState.starting, .on, .draining, .queued, .shed] →
      ((s.isolateZone z).rack.slots[n]).state = .isolated ∧
      ((s.isolateZone z).rack.slots[n]).permit = false) ∧
    (∀ n : Fin 48, s.env.slotZone n = some z →
      (s.rack.slots[n]).state ∈ [SlotState.disabled, .off, .isolated, .faulted] →
      (s.isolateZone z).rack.slots[n] = s.rack.slots[n]) ∧
    (∀ n : Fin 48, s.env.slotZone n ≠ some z →
      ((s.rack.slots[n]).state.powered = false →
        (s.isolateZone z).rack.slots[n] = s.rack.slots[n]) ∧
      ((s.rack.slots[n]).state.powered = true →
        ((s.isolateZone z).rack.slots[n]).state.powered = true ∨
          ((s.isolateZone z).rack.slots[n]).state = .shed)) ∧
    (∀ h : Fin 3, ((s.isolateZone z).leak.zones[z]).shelves[h] =
      ((s.leak.zones[z]).shelves[h] ||
        ((s.cfg.leakTable[z]).shelfIsolate && s.marks.shelfOn[h] && s.env.shelfZone h == some z))) ∧
    (∀ i : Fin 18, ((s.isolateZone z).rack.psu[i]).commandedOn =
      ((s.rack.psu[i]).commandedOn && !((s.rack.psu[i]).present &&
        (s.cfg.leakTable[z]).shelfIsolate && s.marks.shelfOn[psuShelf i] &&
          s.env.shelfZone (psuShelf i) == some z)))) ∧
  (∀ (s : State) (z : Fin 8),
    (let shelves := (List.finRange 3).filter fun h =>
       s.marks.shelfOn[h] && s.env.shelfZone h == some z
     let holding : Zone := { s.leak.zones[z] with
       shelves := Vector.ofFn fun h => (s.leak.zones[z]).shelves[h] || decide (h ∈ shelves) }
     let t := s.isolateShelves z
     let u := s.zoneRaised z
     t = { s with
       leak.zones := put s.leak.zones z holding
       rack := forEach (isolateModules s.env) shelves s.rack } ∧
     (∀ j : Fin 12, buShelf j ∈ shelves → (s.rack.bu[j]).present = true →
       (t.rack.bu[j]).commandedIsolate = true ∧ (t.rack.bu[j]).leakIsolated = true ∧
       t.rack.rech.members[j] = none ∧
       (takesOffers s.env s.rack (.bu j) = true →
         (t.rack.bus.entry (.bu j)).map CmdEntry.cmd = some .isolate)) ∧
     (∀ j : Fin 12, ¬(buShelf j ∈ shelves ∧ (s.rack.bu[j]).present = true) →
       t.rack.bu[j] = s.rack.bu[j]) ∧
     u = { s with
       rack.notif := s.rack.notif.offer ⟨.leak, 2, z.val, s.now,
         (s.leak.zones[z]).state.code + 16 * (s.action z).code⟩
       rack.todo.head := u.rack.todo.head } ∧
     (u.rack.todo.head = true ↔ s.rack.todo.head = true ∨
       ∃ h, s.rack.queue.head = some h ∧ s.env.slotZone h.slot = some z))) ∧
  (∀ (e : Env) (h : Fin 3) (r : Rack),
    (let t := isolateModules e h r
     t.slots = r.slots ∧
     (∀ i : Fin 18, psuShelf i = h → (r.psu[i]).present = true →
       t.psu[i] = { r.psu[i] with commandedOn := false } ∧
       (takesOffers e r (.psu i) = true →
         (t.bus.entry (.psu i)).map CmdEntry.cmd = some .outputOff)) ∧
     (∀ i : Fin 18, ¬(psuShelf i = h ∧ (r.psu[i]).present = true) → t.psu[i] = r.psu[i] ∧
       t.bus.entry (.psu i) = r.bus.entry (.psu i)) ∧
     (∀ j : Fin 12, buShelf j = h → (r.bu[j]).present = true →
       (t.bu[j]).commandedIsolate = true ∧ (t.bu[j]).leakIsolated = true ∧
       t.rech.members[j] = none ∧
       (takesOffers e r (.bu j) = true →
         (t.bus.entry (.bu j)).map CmdEntry.cmd = some .isolate) ∧
       (∀ a : ActiveCheck, r.active = some a → a.bu = j →
         t.active = none ∧ (t.bu[j]).phase = .none)) ∧
     (∀ j : Fin 12, ¬(buShelf j = h ∧ (r.bu[j]).present = true) → t.bu[j] = r.bu[j] ∧
       t.rech.members[j] = r.rech.members[j] ∧ t.bus.entry (.bu j) = r.bus.entry (.bu j))))

/-- SET_LEAK_ACTION and LEAK_CLEAR (R76, R168, R169, R170, R171; the widths of the counts are the
model's reading: log entry 13; that a shelf gives back every position while UNCOMMISSIONED, and the
rising index order of channels and slots, are its choices: log entries 15 and 30; the level that
CHANNEL_STATE carries at a release is a free value: log entry 10): the entry is replaced with its grace
clamped to 1 to 600, and a latched zone of a COMMISSIONED part is acted on at once by R169's table; a
LEAK_CLEAR with a used channel of the zone short of ten dry readings is refused with that channel and
changes nothing, and otherwise every WET channel of the zone stands DRY, the zone stands CLEAR with no
grace and holds no shelf, its ISOLATED slots stand OFF or, on an INVALID profile, DISABLED, those
draining to ISOLATED drain to OFF, its other slots are left, and the modules of its shelves are given
back, shelf by shelf: each PSU commanded on and offered OUTPUT_ON, each BU no longer leak-isolated and,
but for DRAIN and DARK, commanded to restore and offered RESTORE. Each slot's change is handed on before
the next, so a slot elsewhere moves only as the blocks shed it. -/
def Obligations.LeakRequests : Prop :=
  (∀ (s : State) (tag : Byte),
    (∀ (z : Fin 8) (a : LeakAction) (g : Fin 65536) (iso : Byte), s.held = false →
      Ready s 0x22 tag (u8 z.val ++ u8 a.code ++ u16 g ++ [iso]) →
      (let x : LeakEntry := ⟨a, max 1 (min 600 g), iso != 0⟩
       let t := s.take.setLeakAction z x
       let u : State := { s.take with cfg := { s.cfg with leakTable := put s.cfg.leakTable z x } }
       let zone := s.leak.zones[z]
       exec (.setLeakAction tag (u8 z.val ++ u8 a.code ++ u16 g ++ [iso])) s =
         .next (t.reply 0x22 tag
           ((if x.grace = g.val ∧ iso.toNat ≤ 1 then codeOk else codeClamped) ::
             (u8 a.code ++ u16 x.grace ++ flag x.shelfIsolate
               ++ u8 (t.leak.zones[z]).state.code))).conclude ∧
       t.cfg = u.cfg ∧
       (s.cfg.locked = false ∨ zone.state = .clear ∨ zone.state = .watch → t = u) ∧
       (s.cfg.locked = true → zone.state = .alarm →
         (a = .notifyOnly →
           t = { u with leak.zones := put u.leak.zones z { zone with grace := none } }) ∧
         (a = .isolateAfterGrace → zone.grace = none → t = u.beginGrace z) ∧
         (a = .isolateAfterGrace → zone.grace ≠ none → t = u) ∧
         (a = .isolateNow → t = u.isolateZone z)) ∧
       (s.cfg.locked = true → zone.state = .isolated →
         (iso ≠ 0 → (s.cfg.leakTable[z]).shelfIsolate = false → t = u.isolateShelves z) ∧
         ((iso = 0 ∨ (s.cfg.leakTable[z]).shelfIsolate = true) → t = u)))) ∧
    (∀ z : Fin 8, Ready s 0x23 tag (u8 z.val) →
      (∀ c : Fin 16, s.channelZone c = some z → (s.leak.channels[c]).dryRun ≠ 10 →
        (∀ d : Fin 16, d < c → s.channelZone d = some z → (s.leak.channels[d]).dryRun = 10) →
        exec (.leakClear tag (u8 z.val)) s = .next (s.take.reply 0x23 tag (codeRefusedState ::
          (u8 c.val ++ u8 (s.leak.channels[c]).state.code
            ++ u8 (s.leak.channels[c]).dryRun))).conclude) ∧
      ((∀ c : Fin 16, s.channelZone c = some z → (s.leak.channels[c]).dryRun = 10) →
        (let released := (List.finRange 16).filter fun c =>
           s.channelZone c == some z && (s.leak.channels[c]).state == .wet
         let freed := (List.finRange 48).filter fun n =>
           s.env.slotZone n == some z && (s.rack.slots[n]).state == .isolated
         let shelves := (List.finRange 3).filter fun h => (s.leak.zones[z]).shelves[h]
         exec (.leakClear tag (u8 z.val)) s =
          .next ((s.take.clearZone z).reply 0x23 tag (codeOk ::
            (u32 released.length ++ u32 freed.length ++ u32 shelves.length))).conclude ∧
        (let dried := forEach (fun (c : Fin 16) (t : State) => t.releaseChannel c) released s
         let released : Zone := { dried.leak.zones[z] with grace := none }
         let clear :=
           ({ dried with leak.zones := put dried.leak.zones z released } : State).setZone z .clear
         let opened : State := { clear with
           rack := forEach (fun n r => handOn clear.env (releaseSlot clear.env n r))
             ((List.finRange 48).filter fun n => s.env.slotZone n == some z) clear.rack }
         s.clearZone z = opened.releaseShelves z)) ∧
        (∀ c : Fin 16, s.channelZone c = some z → (s.leak.channels[c]).state = .wet →
          ((s.clearZone z).leak.channels[c]).state = .dry ∧
          ((s.clearZone z).leak.channels[c]).dryRun = (s.leak.channels[c]).dryRun) ∧
        (∀ c : Fin 16, s.channelZone c ≠ some z ∨ (s.leak.channels[c]).state ≠ .wet →
          (s.clearZone z).leak.channels[c] = s.leak.channels[c]) ∧
        ((s.clearZone z).leak.zones[z]).state = .clear ∧
        ((s.clearZone z).leak.zones[z]).grace = none ∧
        (∀ h : Fin 3, ((s.clearZone z).leak.zones[z]).shelves[h] = false) ∧
        (∀ y : Fin 8, y ≠ z → (s.clearZone z).leak.zones[y] = s.leak.zones[y]) ∧
        (∀ n : Fin 48, s.env.slotZone n = some z → (s.rack.slots[n]).state = .isolated →
          ((s.clearZone z).rack.slots[n]).state =
            if (s.env.profile n).valid then .off else .disabled) ∧
        (∀ (n : Fin 48) (d : Drain), s.env.slotZone n = some z →
          (s.rack.slots[n]).state = .draining → (s.rack.slots[n]).drain = some d →
          d.target = .isolated → ((s.clearZone z).rack.slots[n]).state = .draining ∧
            ((s.clearZone z).rack.slots[n]).drain.map Drain.target = some .off) ∧
        (∀ n : Fin 48, (s.env.slotZone n ≠ some z ∨ (s.rack.slots[n]).state ≠ .isolated ∧
            ¬((s.rack.slots[n]).state = .draining ∧
              (s.rack.slots[n]).drain.map Drain.target = some .isolated)) →
          ((s.rack.slots[n]).state.powered = false →
            (s.clearZone z).rack.slots[n] = s.rack.slots[n]) ∧
          ((s.rack.slots[n]).state.powered = true →
            ((s.clearZone z).rack.slots[n]).state.powered = true ∨
              ((s.clearZone z).rack.slots[n]).state = .shed)) ∧
        (∀ i : Fin 18, (s.leak.zones[z]).shelves[psuShelf i] = true →
          (s.rack.psu[i]).present = true → ((s.clearZone z).rack.psu[i]).commandedOn = true) ∧
        (∀ j : Fin 12, (s.leak.zones[z]).shelves[buShelf j] = true →
          (s.rack.bu[j]).present = true →
          ((s.clearZone z).rack.bu[j]).leakIsolated = false)))) ∧
  (∀ (s : State) (z : Fin 8),
    (let shelves := (List.finRange 3).filter fun h => (s.leak.zones[z]).shelves[h]
     let back := fun present : Bool => present = true ∨ s.cfg.locked = false
     let late := s.rack.grid.state = .drain ∨ s.rack.grid.state = .dark
     let emptied : Zone := { s.leak.zones[z] with shelves := Vector.replicate 3 false }
     let t := s.releaseShelves z
     t = { s with
       leak.zones := put s.leak.zones z emptied
       rack := forEach (releaseModules s.env) shelves s.rack } ∧
     (∀ j : Fin 12, buShelf j ∈ shelves → back (s.rack.bu[j]).present →
       t.rack.bu[j] = { s.rack.bu[j] with
         leakIsolated := false
         commandedIsolate := if late then (s.rack.bu[j]).commandedIsolate else false } ∧
       (¬late → takesOffers s.env s.rack (.bu j) = true → s.rack.bus.entry (.bu j) = none →
         (t.rack.bus.entry (.bu j)).map CmdEntry.cmd = some .restore)) ∧
     (∀ j : Fin 12, ¬(buShelf j ∈ shelves ∧ back (s.rack.bu[j]).present) →
       t.rack.bu[j] = s.rack.bu[j]) ∧
     (∀ i : Fin 18, psuShelf i ∈ shelves → back (s.rack.psu[i]).present →
       t.rack.psu[i] = { s.rack.psu[i] with commandedOn := true } ∧
       (takesOffers s.env s.rack (.psu i) = true → s.rack.bus.entry (.psu i) = none →
         (t.rack.bus.entry (.psu i)).map CmdEntry.cmd = some .outputOn)))) ∧
  (∀ (e : Env) (n : Fin 48) (r : Rack),
    (let x := r.slots[n]
     let t := releaseSlot e n r
     (x.state = .isolated → t = enter e n
       (if (e.profile n).valid = true then .off else .disabled) .zoneCleared r) ∧
     (∀ d : Drain, x.state = .draining → x.drain = some d → d.target = .isolated →
       t.slots = put r.slots n { x with drain := some { d with target := .off } } ∧
       t.notif = r.notif.offer ⟨.slot, 2, n.val, e.now, SlotState.off.code⟩) ∧
     (x.state ≠ .isolated →
       ¬(x.state = .draining ∧ x.drain.map Drain.target = some .isolated) → t = r))) ∧
  (∀ (e : Env) (h : Fin 3) (r : Rack),
    (let t := releaseModules e h r
     let back := fun present : Bool => present = true ∨ e.cfg.locked = false
     let late := r.grid.state = .drain ∨ r.grid.state = .dark
     t.slots = r.slots ∧
     (∀ i : Fin 18, psuShelf i = h → back (r.psu[i]).present →
       t.psu[i] = { r.psu[i] with commandedOn := true } ∧
       (takesOffers e r (.psu i) = true → r.bus.entry (.psu i) = none →
         (t.bus.entry (.psu i)).map CmdEntry.cmd = some .outputOn)) ∧
     (∀ i : Fin 18, ¬(psuShelf i = h ∧ back (r.psu[i]).present) → t.psu[i] = r.psu[i] ∧
       t.bus.entry (.psu i) = r.bus.entry (.psu i)) ∧
     (∀ j : Fin 12, buShelf j = h → back (r.bu[j]).present →
       (late → t.bu[j] = { r.bu[j] with leakIsolated := false } ∧
         t.bus.entry (.bu j) = r.bus.entry (.bu j)) ∧
       (¬late → t.bu[j] = { r.bu[j] with leakIsolated := false, commandedIsolate := false } ∧
         (takesOffers e r (.bu j) = true → r.bus.entry (.bu j) = none →
           (t.bus.entry (.bu j)).map CmdEntry.cmd = some .restore))) ∧
     (∀ j : Fin 12, ¬(buShelf j = h ∧ back (r.bu[j]).present) → t.bu[j] = r.bu[j] ∧
       t.bus.entry (.bu j) = r.bus.entry (.bu j))))

/-! ### The shelf bus -/

/-- A poll cycle's beginning, a bad frame, and the end of a response window (R24, R28, R29, R30, R31,
R36, R44; that the window is counted from the ms in which the transaction began, and that of an
abandoned one too, and that a position no longer present still counts its miss, are the model's choices:
log entries 7 and 18): a cycle reads the polled set, makes every position of it due in rising address
order and counts a late beginning; a frame that is no valid response is counted, one being valid when it
comes within the window of the transaction in flight, from its address, of its kind and length, with its
CRC-8, and with an input status up to 2 or a mode up to 6; the window's end ends the transaction, counts
it and the miss, and at the third miss the module is LOST, its entry discarded, MODULE_LOST logged with
its address and its change handed on, the setpoints going to 0 where it enters a shortfall (R56, R141),
or ABSENT with nothing logged while UNCOMMISSIONED, with its power 0 (that a capability is kept, and
that the third miss of a record LOST already raises no notification of a state change, are the model's
choices: log entries 31 and 48). -/
def Obligations.BusEvents : Prop :=
  (∀ s : State, s.boot.loaded = true → s.rack.bus.cycle = none →
    (∀ t : Time, s.rack.bus.lastBegan = some t → 100 ≤ (s.now - t).toNat) →
    (∀ t : Time, s.rack.bus.abandoned = some t → 5 ≤ (s.now - t).toNat) →
    exec .pollCycleBegin s = .next { s with
      rack.bus.polledSet := allPositions.filter (polled s.env s.rack)
      rack.bus.cycle := some ⟨s.now, allPositions.filter (polled s.env s.rack)⟩
      rack.bus.lastBegan := some s.now
      rack.bus.lateEnd := false
      rack.bus.overrunCycles :=
        if s.rack.bus.lateEnd then s.rack.bus.overrunCycles + 1 else s.rack.bus.overrunCycles
      rack.hold.removal := false }.conclude) ∧
  (allPositions.map Pos.address).Pairwise (· < ·) ∧ (∀ p : Pos, p ∈ allPositions) ∧
  (∀ (s : State) (frame : List Byte),
    (validResponse s.now s.rack.bus frame = false →
      exec (.badFrame frame) s =
        .next { s with rack.bus.badFrames := s.rack.bus.badFrames + 1 }.conclude) ∧
    (s.rack.bus.inFlight = none → validResponse s.now s.rack.bus frame = false)) ∧
  (∀ (now : Time) (b : Bus) (frame : List Byte), validResponse now b frame = true ↔
    ∃ x : Transaction, b.inFlight = some x ∧ (now - x.began).toNat ≤ 5 ∧
      ((∃ (i : Fin 18) (flags input : Byte) (power : List Byte), x.pos = .psu i ∧
          input.toNat ≤ 2 ∧ power.length = 4 ∧
          frame = shelfFrame (psuAddress i) 0x90 (flags :: input :: power)) ∨
        (∃ (j : Fin 12) (mode : Byte) (figures : List Byte), x.pos = .bu j ∧ mode.toNat ≤ 6 ∧
          figures.length = 8 ∧ frame = shelfFrame (buAddress j) 0xA0 (mode :: figures)))) ∧
  (∀ (s : State) (x : Transaction), s.rack.bus.inFlight = some x →
    5 ≤ (s.now - x.began).toNat →
    exec .responseWindowExpiry s = .next (s.onRack fun e r => expireWindow e x.pos r).conclude) ∧
  (∀ (e : Env) (i : Fin 18) (r : Rack),
    (let t := expireWindow e (.psu i) r
     t.bus.inFlight = none ∧ t.bus.unanswered = r.bus.unanswered + 1 ∧
     (∀ j : Fin 12, t.bu[j] = r.bu[j] ∨
       t.bu[j] = { r.bu[j] with setpoint := 0 } ∧ (r.psu[i]).miss = 2 ∧
         r.acct.shortfall = false ∧ t.acct.shortfall = true) ∧
     (∀ k : Fin 18, k ≠ i → t.psu[k] = r.psu[k]) ∧
     (t.psu[i]).miss = min 3 ((r.psu[i]).miss + 1) ∧
     ((r.psu[i]).miss ≠ 2 → t.psu[i] = { r.psu[i] with miss := (t.psu[i]).miss } ∧
       t.bus.entries = r.bus.entries ∧ t.faults = r.faults ∧ t.notif = r.notif) ∧
     ((r.psu[i]).miss = 2 → e.cfg.locked = true →
       (let lost : PsuRec :=
          { r.psu[i] with miss := 3, state := .lost, output := 0, reportPending := false }
        t.psu[i] = lost ∧ (∀ x ∈ t.bus.entries, x.pos ≠ .psu i) ∧
        t = psuChanged e i r.psu[i] (logFault e .moduleLost (psuAddress i) { r with
          bus := r.bus.expire.discard (.psu i), psu := put r.psu i lost }))) ∧
     ((r.psu[i]).miss = 2 → e.cfg.locked = false →
       (let absent : PsuRec := { r.psu[i] with miss := 3, state := .absent, output := 0 }
        t.psu[i] = absent ∧ t.bus.entries = r.bus.entries ∧ t.faults = r.faults ∧
        t = psuChanged e i r.psu[i]
          { r with bus := r.bus.expire, psu := put r.psu i absent })))) ∧
  (∀ (e : Env) (j : Fin 12) (r : Rack),
    (let t := expireWindow e (.bu j) r
     t.bus.inFlight = none ∧ t.bus.unanswered = r.bus.unanswered + 1 ∧ t.psu = r.psu ∧
     (∀ k : Fin 12, k ≠ j → t.bu[k] = r.bu[k]) ∧
     (t.bu[j]).miss = min 3 ((r.bu[j]).miss + 1) ∧
     (t.bu[j]).energy = (r.bu[j]).energy ∧ (t.bu[j]).accepted = (r.bu[j]).accepted ∧
     ((r.bu[j]).miss ≠ 2 → t.bu[j] = { r.bu[j] with miss := (t.bu[j]).miss } ∧
       t.bus.entries = r.bus.entries ∧ t.faults = r.faults ∧ t.notif = r.notif) ∧
     ((r.bu[j]).miss = 2 → e.cfg.locked = true →
       (let lost : BuRec := { r.bu[j] with
          miss := 3, state := .lost, discharge := 0, baseline := false, reportPending := false }
        let u := buStateChanged e j r.bu[j] (logFault e .moduleLost (buAddress j) { r with
          bus := r.bus.expire.discard (.bu j), bu := put r.bu j lost })
        (t.bu[j]).state = .lost ∧ (t.bu[j]).discharge = 0 ∧ (t.bu[j]).baseline = false ∧
        (t.bu[j]).reportPending = false ∧ (∀ x ∈ t.bus.entries, x.pos ≠ .bu j) ∧
        t.faults = r.faults.log e.now .moduleLost (buAddress j) ∧
        (∀ a : ActiveCheck, r.active = some a → a.bu = j → t = abortCheck e j true u) ∧
        ((∀ a : ActiveCheck, r.active = some a → a.bu ≠ j) → t = u))) ∧
     ((r.bu[j]).miss = 2 → e.cfg.locked = false → (t.bu[j]).state = .absent ∧
       (t.bu[j]).discharge = 0 ∧ (t.bu[j]).baseline = (r.bu[j]).baseline ∧
       t.faults = r.faults)))

/-- A PSU's report (R27, R28, R35, R37, R38, R39, R44; that the window is counted from the ms in which
the transaction began, that the record of a position no longer present is updated too, that a LOST PSU
which returns FAILED is logged, and that an answered command's entry leaves the queue before the report
is compared with commanded output, are the model's: log entries 7, 18, 39 and 49): the frame of a
PSU_STATUS within the window is taken as the report its bytes spell, ends the transaction and updates
the record whole; the state is the first row that matches; the capability is clamped to the rated one,
or to 6,000 W while UNCOMMISSIONED; the other records are left, but for the setpoints that go to 0 where
the report's change enters a shortfall (R56, R141); an entry to FAILED is logged with the PSU's address,
a change is handed on, with MODULE_STATE raised when it is one of state, and an output that does not
stand as commanded is commanded again unless a command waits. -/
def Obligations.PsuReports : Prop :=
  (∀ (s : State) (x : Transaction) (i : Fin 18) (flags : Fin 256) (input : Fin 3)
      (cap out : Fin 65536),
    s.rack.bus.inFlight = some x → x.pos = .psu i → (s.now - x.began).toNat ≤ 5 →
    exec (.psuStatus (shelfFrame (psuAddress i) 0x90
        (u8 flags ++ u8 input ++ u16 cap ++ u16 out))) s =
      .next (s.onRack fun e r => psuReport e i ⟨flags % 2 == 1, flags / 2 % 2 == 1,
        (if input.val = 0 then .ok else if input.val = 1 then .low else .absent), cap, out⟩
          r).conclude) ∧
  (∀ (e : Env) (i : Fin 18) (p : PsuReport) (r : Rack),
    (let t := psuReport e i p r
     let record : PsuRec := { r.psu[i] with
        state := if p.fault then .failed else if p.outputOn = false then .outputOff
          else if p.input ≠ .ok then .inputFault else .online
        capability := min p.capability
          (if e.cfg.locked then (e.cfg.record.psus[i]).rated else 6000)
        output := p.output
        input := p.input
        miss := 0
        lastReport := e.now
        reportPending := false }
     let u : Rack := { r with bus := r.bus.answer, psu := put r.psu i record }
     t.bus.inFlight = none ∧ t.psu[i] = record ∧
     (∀ k : Fin 18, k ≠ i → t.psu[k] = r.psu[k]) ∧
     (∀ j : Fin 12, t.bu[j] = r.bu[j] ∨
       t.bu[j] = { r.bu[j] with setpoint := 0 } ∧
         r.acct.shortfall = false ∧ t.acct.shortfall = true) ∧
     (p.fault = true → (r.psu[i]).state ≠ .failed →
       t = psuIntent e i p.outputOn
         (psuChanged e i r.psu[i] (logFault e .psuFailed (psuAddress i) u))) ∧
     ((p.fault = false ∨ (r.psu[i]).state = .failed) →
       t = psuIntent e i p.outputOn (psuChanged e i r.psu[i] u)))) ∧
  (∀ (e : Env) (i : Fin 18) (old : PsuRec) (r : Rack),
    (let x := r.psu[i]
     let t := psuChanged e i old r
     (x.state = old.state → x.capability = old.capability → x.input = old.input → t = r) ∧
     (x.state ≠ old.state →
       t = { computeAccount e (raise e .module 1 (psuAddress i) x.state.code r) with
         todo.grid := true }) ∧
     (x.state = old.state → x.capability ≠ old.capability → x.input = old.input →
       t = computeAccount e r) ∧
     (x.state = old.state → x.input ≠ old.input → t.todo.grid = true))) ∧
  (∀ (e : Env) (i : Fin 18) (on : Bool) (r : Rack),
    ((r.bus.entry (.psu i) ≠ none ∨ (r.psu[i]).commandedOn = on) → psuIntent e i on r = r) ∧
    (r.bus.entry (.psu i) = none → (r.psu[i]).commandedOn = true → on = false →
      psuIntent e i on r = offer e (.psu i) .outputOn r) ∧
    (r.bus.entry (.psu i) = none → (r.psu[i]).commandedOn = false → on = true →
      psuIntent e i on r = offer e (.psu i) .outputOff r)) ∧
  (∀ (b : Bus) (x : Transaction), b.inFlight = some x →
    b.answer = { b with
      inFlight := none
      entries := if x.cmd.isSome = true ∧ x.replaced = false then
        b.entries.filter fun y => y.pos != x.pos else b.entries })

/-- A BU's report (R27, R28, R41, R42, R44, R116, R140, R145, R147, R152; that the window is counted
from the ms in which the transaction began, that the record of a position no longer present is updated
too, that a LOST BU which returns FAILED is logged, and that an answered command's entry leaves the
queue before the report is compared with commanded isolation, are the model's: log entries 7, 18, 39 and
49): the frame of a BU_STATUS within the window is taken as the report its bytes spell, ends the
transaction and updates the record; the energy is clamped to the rated one, or to 16,000 kJ while
UNCOMMISSIONED; the accepted counter grows by the counter's rise modulo 65,536 while the baseline is
valid, under a check too, and is 0 after an entry to FULL or a check's completed delivery; the other
records are left, but for what the blocks do with an entry to FULL, whose changes of state and of H are
each handed on before the next (R130, R137, R153); an entry to FAILED is logged with the BU's address,
BU_STATE is raised for a change of state, an isolation that does not stand as commanded is commanded
again unless a command waits, and STOP_CHECK is offered for a check that none asked for whether or not
one waits (R42). -/
def Obligations.BuReports : Prop :=
  (∀ (s : State) (x : Transaction) (j : Fin 12) (mode : Fin 7) (e d c k : Fin 65536),
    s.rack.bus.inFlight = some x → x.pos = .bu j → (s.now - x.began).toNat ≤ 5 →
    ∃ st : BuState, modeOf (BitVec.ofNat 8 mode) = some st ∧ (st = .failed ↔ mode.val = 6) ∧
      (st ≠ .failed → st.code = mode.val) ∧
      exec (.buStatus (shelfFrame (buAddress j) 0xA0
          (u8 mode ++ u16 e ++ u16 d ++ u16 c ++ u16 k))) s =
        .next (s.onRack fun env r => buReport env j ⟨st, e, d, c, k⟩ r).conclude) ∧
  (∀ (e : Env) (j : Fin 12) (p : BuReport) (r : Rack),
    (let t := buReport e j p r
     let b := r.bu[j]
     let accepted := min 16777215 (b.accepted +
       if b.baseline then (p.counter + 65536 - b.lastCounter) % 65536 else 0)
     let record : BuRec := { b with
       state := p.mode
       energy := min p.energy (if e.cfg.locked then (e.cfg.record.bus[j]).rated else 16000)
       discharge := p.discharge
       delivered := p.delivered
       accepted := accepted
       lastCounter := p.counter
       baseline := true
       miss := 0
       lastReport := e.now
       reportPending := false }
     let u : Rack := { r with bus := r.bus.answer, bu := put r.bu j record }
     let fills := b.present = true ∧ p.mode = .full ∧ b.state ≠ .full
     let delivers := b.phase = .running ∧ (p.mode = .idle ∨ p.mode = .charging) ∧
       ∃ a : ActiveCheck, r.active = some a ∧ a.depth ≤ p.delivered
     let starts := ∃ (x : Transaction) (depth power : Nat),
       r.bus.inFlight = some x ∧ x.cmd = some (.startCheck depth power)
     t.bus.inFlight = none ∧
     (t.bu[j]).state = p.mode ∧ (t.bu[j]).present = b.present ∧
     (t.bu[j]).energy = record.energy ∧
     (t.bu[j]).discharge = p.discharge ∧ (t.bu[j]).delivered = p.delivered ∧
     (t.bu[j]).lastCounter = p.counter ∧ (t.bu[j]).baseline = true ∧ (t.bu[j]).miss = 0 ∧
     (t.bu[j]).lastReport = e.now ∧ (t.bu[j]).reportPending = false ∧
     (¬fills → ¬delivers → (t.bu[j]).accepted = accepted) ∧
     ((fills ∨ delivers) →
       (t.bu[j]).accepted = 0 ∧ (t.bu[j]).offered = 0 ∧ (t.bu[j]).offeredRem = 0) ∧
     (¬fills → ∀ k : Fin 12, k ≠ j → t.bu[k] = r.bu[k]) ∧ t.psu = r.psu ∧
     (∀ k : Fin 12, k ≠ j →
       (t.bu[k]).present = (r.bu[k]).present ∧ (t.bu[k]).state = (r.bu[k]).state ∧
       (t.bu[k]).energy = (r.bu[k]).energy ∧ (t.bu[k]).discharge = (r.bu[k]).discharge ∧
       (t.bu[k]).delivered = (r.bu[k]).delivered ∧ (t.bu[k]).accepted = (r.bu[k]).accepted ∧
       (t.bu[k]).lastCounter = (r.bu[k]).lastCounter ∧ (t.bu[k]).baseline = (r.bu[k]).baseline ∧
       (t.bu[k]).miss = (r.bu[k]).miss ∧ (t.bu[k]).lastReport = (r.bu[k]).lastReport ∧
       (t.bu[k]).reportPending = (r.bu[k]).reportPending ∧ (t.bu[k]).h = (r.bu[k]).h) ∧
     (let v := buStateChanged e j b
        (if p.mode = .failed ∧ b.state ≠ .failed then logFault e .buFailed (buAddress j) u else u)
      (∀ answered : Bool, (answered = true ↔ starts) →
        (fills → t = stopStray e j (buIntent e j
          (reportCheck e j answered true (handOn e (healthSample e j (handOn e v)))))) ∧
        (¬fills → t = stopStray e j (buIntent e j (reportCheck e j answered false v))))))) ∧
  (∀ (e : Env) (j : Fin 12) (old : BuRec) (r : Rack),
    ((r.bu[j]).state = old.state → buStateChanged e j old r = r) ∧
    ((r.bu[j]).state ≠ old.state → buStateChanged e j old r =
      isolateInDark e j old.usable (leaveMembers e j
        { raise e .battery 1 j.val (r.bu[j]).state.code r with
          todo.hold := true, todo.grid := true }))) ∧
  (∀ (e : Env) (j : Fin 12) (was : Bool) (r : Rack),
    (((r.bu[j]).state = .idle ∨ (r.bu[j]).state = .charging) → leaveMembers e j r = r) ∧
    ((r.bu[j]).state ≠ .idle → (r.bu[j]).state ≠ .charging →
      (leaveMembers e j r).rech.members[j] = none ∧
      ((r.rech.members[j]).isSome = true → ((leaveMembers e j r).bu[j]).setpoint = 0)) ∧
    (r.grid.state = .dark → was = false → (r.bu[j]).usable = true →
      isolateInDark e j was r = offerIsolate e j r) ∧
    ((r.grid.state ≠ .dark ∨ was = true ∨ (r.bu[j]).usable = false) →
      isolateInDark e j was r = r)) ∧
  (∀ (e : Env) (j : Fin 12) (r : Rack),
    (let b := r.bu[j]
     (r.bus.entry (.bu j) ≠ none → buIntent e j r = r) ∧
     (r.bus.entry (.bu j) = none → b.state = .isolated → b.commandedIsolate = false →
       buIntent e j r = offer e (.bu j) .restore r) ∧
     (r.bus.entry (.bu j) = none → b.state.code ≤ 4 → b.commandedIsolate = true →
       buIntent e j r = offer e (.bu j) .isolate r) ∧
     ((b.state = .isolated ∧ b.commandedIsolate = true ∨
         b.state.code ≤ 4 ∧ b.commandedIsolate = false ∨ 6 ≤ b.state.code) →
       buIntent e j r = r) ∧
     (b.state = .checking → (∀ a : ActiveCheck, r.active = some a → a.bu ≠ j) →
       stopStray e j r = offer e (.bu j) .stopCheck r) ∧
     ((b.state ≠ .checking ∨ ∃ a : ActiveCheck, r.active = some a ∧ a.bu = j) →
       stopStray e j r = r)))

/-- An offer to the Shelf Command Queue (R34, R35): dropped for a position not polled or LOST, taken
with the present time where no entry stands, dropped behind a class-1 entry unless it is of class 1,
without effect on an equal entry, and in place of the entry otherwise, and a command of the position in
flight is then marked as replaced since its send; no other entry is touched, and the queue goes on
holding at most one command for a position. A position is polled when the latest poll cycle read it into
its set and the lock state has not taken it out since (R24, R31, R44); that the set is empty before the
first cycle is the model's choice (log entry 29). -/
def Obligations.OfferTable : Prop :=
  (∀ (e : Env) (p : Pos) (c : ShelfCmd) (r : Rack),
    (let t := offer e p c r
     let marked := r.bus.inFlight.map fun x : Transaction =>
       if x.pos = p ∧ x.cmd ≠ none then { x with replaced := true } else x
     ((p ∉ r.bus.polledSet ∨ polled e r p = false ∨ isLost r p = true) → t = r) ∧
     (p ∈ r.bus.polledSet → polled e r p = true → isLost r p = false →
       ((∀ x ∈ r.bus.entries, x.pos ≠ p) →
         t.bus.entries = r.bus.entries ++ [⟨p, c, e.now⟩] ∧ t.bus.inFlight = marked) ∧
       (∀ x : CmdEntry, r.bus.entry p = some x → x.cmd.cls = 1 → c.cls ≠ 1 → t = r) ∧
       (∀ x : CmdEntry, r.bus.entry p = some x → x.cmd = c → t = r) ∧
       (∀ x : CmdEntry, r.bus.entry p = some x → (x.cmd.cls ≠ 1 ∨ c.cls = 1) → x.cmd ≠ c →
         t.bus.entry p = some ⟨p, c, e.now⟩ ∧
         t.bus.entries.filter (fun y => y.pos != p) =
           r.bus.entries.filter (fun y => y.pos != p) ∧ t.bus.inFlight = marked)) ∧
     t = { r with bus := { r.bus with entries := t.bus.entries, inFlight := t.bus.inFlight } } ∧
     (∀ q : Pos, q ≠ p → t.bus.entry q = r.bus.entry q) ∧
     ((r.bus.entries.map CmdEntry.pos).Nodup → (t.bus.entries.map CmdEntry.pos).Nodup))) ∧
  (∀ (e : Env) (r : Rack),
    (∀ i : Fin 18, polled e r (.psu i) = true ↔ e.cfg.locked = false ∨ (r.psu[i]).present = true) ∧
    (∀ j : Fin 12, polled e r (.bu j) = true ↔ e.cfg.locked = false ∨ (r.bu[j]).present = true) ∧
    (∀ i : Fin 18, isLost r (.psu i) = true ↔ (r.psu[i]).state = .lost) ∧
    (∀ j : Fin 12, isLost r (.bu j) = true ↔ (r.bu[j]).state = .lost))

/-- The arbiter (R29, R33): when the bus is free it sends a command while fewer than four have gone
since the latest poll or no poll is due, the one of the lowest class, then of the earliest queue time,
then of the lowest address; otherwise the next due poll; and it leaves a bus that is not free or has
nothing to send. Sending counts a transaction and removes no entry. The bus is free with no transaction
in flight and no response window of an abandoned one still running, counted from the ms in which that
transaction began (the model's choice: log entry 7), and the polls due are the positions of the cycle
that are still to come and still polled, in the cycle's order (R31). -/
def Obligations.ArbiterOrder : Prop :=
  ∀ (e : Env) (r : Rack),
    (let b := r.bus
     let t := (arbitrate e r).bus
     (busFree e r = false → arbitrate e r = r) ∧
     (b.entries = [] → duePolls e r = [] → arbitrate e r = r) ∧
     (busFree e r = true → b.entries ≠ [] → (b.sincePoll < 4 ∨ duePolls e r = []) →
       ∃ x ∈ b.entries,
         t = { b with
           transactions := b.transactions + 1
           abandoned := none
           sincePoll := min 4 (b.sincePoll + 1)
           inFlight := some ⟨x.pos, some x.cmd, false, e.now, shelfFrame x.pos.address x.cmd.code
             (match x.cmd with
               | .setRecharge units => u8 units
               | .startCheck depth power => u16 depth ++ u16 power
               | _ => [])⟩ } ∧
         ∀ y ∈ b.entries, x.cmd.cls ≤ y.cmd.cls ∧ (x.cmd.cls = y.cmd.cls →
           elapsed e.now y.queued ≤ elapsed e.now x.queued ∧
           (elapsed e.now y.queued = elapsed e.now x.queued → x.pos.address ≤ y.pos.address))) ∧
     (∀ (p : Pos) (rest : List Pos), busFree e r = true → duePolls e r = p :: rest →
       (b.entries = [] ∨ 4 ≤ b.sincePoll) →
       t = { b with
         transactions := b.transactions + 1
         abandoned := none
         sincePoll := 0
         cycle := b.cycle.map fun c => { c with due := rest }
         inFlight := some ⟨p, none, false, e.now, shelfFrame p.address 0x10 []⟩ }) ∧
     arbitrate e r = { r with bus := t } ∧
     (busFree e r = true ↔ b.inFlight = none ∧
       ∀ a : Time, b.abandoned = some a → 5 ≤ (e.now - a).toNat) ∧
     (b.cycle = none → duePolls e r = []) ∧
     (∀ c : PollCycle, b.cycle = some c →
       (duePolls e r).Sublist c.due ∧ (c.due.Nodup → (duePolls e r).Nodup) ∧
       ∀ p : Pos, p ∈ duePolls e r ↔ p ∈ c.due ∧ polled e r p = true))

/-! ### Capacity -/

/-- The Account's figures (R45, R46, R48, R49, R50): a position contributes only while present and
ONLINE, at most its rated figure; G is the sum of the contributions; Q is the greatest sum of k of them
while more than k are ONLINE, and 0 otherwise; A is G less Q; Adm is A times the admit ratio over 256;
and the redundancy state is the first row that matches. The k of the record stands for k while
UNCOMMISSIONED too (the model's choice: log entry 45). -/
def Obligations.CapacityFigures : Prop :=
  ∀ (e : Env) (r : Rack),
    (let a := figures e r
     let counts := fun i : Fin 18 => (r.psu[i]).present = true ∧ (r.psu[i]).state = .online
     (∀ i : Fin 18, (counts i → contribution e r i =
         min (r.psu[i]).capability (e.cfg.record.psus[i]).rated) ∧
       (¬counts i → contribution e r i = 0)) ∧
     a.g = ((List.finRange 18).map (contribution e r)).sum ∧
     (∀ l : List (Fin 18), (∀ i, i ∈ l ↔ counts i) → l.Nodup → a.nOn = l.length) ∧
     (a.nOn ≤ e.cfg.record.rack.k → a.q = 0 ∧ a.redundancy = .exposed) ∧
     (e.cfg.record.rack.k < a.nOn →
       (∀ l : List (Fin 18), l.Nodup → l.length = e.cfg.record.rack.k → (∀ i ∈ l, counts i) →
         (l.map (contribution e r)).sum ≤ a.q) ∧
       (∃ l : List (Fin 18), l.Nodup ∧ l.length = e.cfg.record.rack.k ∧ (∀ i ∈ l, counts i) ∧
         (l.map (contribution e r)).sum = a.q) ∧
       ((∀ i : Fin 18, (r.psu[i]).present = true → (r.psu[i]).state = .online) →
         a.redundancy = .full) ∧
       ((∃ i : Fin 18, (r.psu[i]).present = true ∧ (r.psu[i]).state ≠ .online) →
         a.redundancy = .reduced)) ∧
     a.a + a.q = a.g ∧
     a.adm = a.a * e.param 9 / 256 ∧ (e.param 9 ≤ 256 → a.adm ≤ a.a) ∧
     a = { r.acct with
       nOn := a.nOn, g := a.g, q := a.q, a := a.a, adm := a.adm, redundancy := a.redundancy })

/-- Shortfall and its shed selections (R56, R57, R58, R59, R60, R89; that a restore takes the slots in
slot index order is the model's choice: log entry 30). A selection takes STARTING and ON slots of rank 1
to 3 alone, each once, by the lower rank, then the younger grant, then the higher slot index, every slot
taken before every one left; it takes as many as the uncovered deficit asks for and no more, and nothing
when the deficit is 0. Shortfall is entered, with CAPACITY_SHORT, the fall of the recharge pool to 0 and
of Rc with it (R141, R144), its notification and a selection, in that order, when S + B exceeds A in
NORMAL; the relief is what the slots DRAINING with target SHED draw at their peak, and the deficit is
what S and B exceed the relief and A by; a deficit above the recorded one runs a further selection; and
the flag clears when the condition fails. A rise of A in NORMAL is the capacity-restored event, with a
restore under auto-restore. -/
def Obligations.ShedSelection : Prop :=
  (∀ (e : Env) (r : Rack),
    (let taken := selected e r
     let takeable := fun n : Fin 48 =>
       ((r.slots[n]).state = .starting ∨ (r.slots[n]).state = .on) ∧ 1 ≤ e.rank n ∧ e.rank n ≤ 3
     let before := fun m n : Fin 48 => e.rank m < e.rank n ∨ e.rank m = e.rank n ∧
       (grantAge e r m < grantAge e r n ∨ grantAge e r m = grantAge e r n ∧ n.val < m.val)
     let sum := fun l : List (Fin 48) => (l.map (drawOf e r)).sum
     (∀ n ∈ taken, takeable n) ∧ taken.Nodup ∧ taken.Pairwise before ∧
     (∀ n, takeable n → n ∉ taken → ∀ m ∈ taken, before m n) ∧
     (uncovered e r ≤ sum taken ∨ ∀ n, takeable n → n ∈ taken) ∧
     (∀ l m, taken = l ++ [m] → sum l < uncovered e r) ∧
     uncovered e r = r.acct.s + e.param 10 - (r.acct.relief + r.acct.a) ∧
     (∀ n : Fin 48, (∀ t, (r.slots[n]).grantTime = some t →
         grantAge e r n = min (e.now - t).toNat 1073741824) ∧
       ((r.slots[n]).grantTime = none → grantAge e r n = 1073741825)))) ∧
  (∀ (e : Env) (r : Rack), r.Follows e →
    uncovered e r = ((List.finRange 48).map (drawOf e r)).sum + e.param 10 -
      (((List.finRange 48).map fun n =>
        if (r.slots[n]).state = .draining ∧ (r.slots[n]).drain.map Drain.target = some .shed then
          (e.profile n).peakW
        else 0).sum + r.acct.a)) ∧
  (∀ (e : Env) (r : Rack),
    (let u := forEach (drain e .shed) (selected e r) r
     let t := shedSelection e r
     let held : Rack := { u with acct.recorded := uncovered e u }
     (selected e r = [] → uncovered e u = 0 → t = held) ∧
     ((selected e r ≠ [] ∨ uncovered e u ≠ 0) →
       t = raise e .capacity 3 (selected e r).length (uncovered e u) held))) ∧
  (∀ (e : Env) (r : Rack),
    (let short := e.cfg.locked = true ∧ r.grid.state = .normal ∧
        r.acct.a < r.acct.s + e.param 10
     let t := evaluateShortfall e r
     (t.acct.shortfall = true ↔ short) ∧
     (r.acct.shortfall = false → ¬short → t = r) ∧
     (r.acct.shortfall = false → short →
       t = shedSelection e (raise e .capacity 2 r.acct.nOn (r.acct.s + e.param 10 - r.acct.a)
         (poolUpdate e (logFault e .capacityShort r.acct.nOn
           { r with acct.shortfall := true, acct.recorded := 0 }))) ∧
       t.rech.candidate = 0 ∧
       (r.rech.frame ≠ none → t.rech.pool = 0) ∧
       (r.rech.frame ≠ none → 0 < r.rech.pool →
         t.rech.frame = some ⟨e.now, 1⟩ ∧ t.acct.rc = 0)) ∧
     (r.acct.shortfall = true → short → r.acct.recorded < uncovered e r →
       t = shedSelection e r) ∧
     (r.acct.shortfall = true → short → uncovered e r ≤ r.acct.recorded →
       t = { r with acct.recorded := uncovered e r }) ∧
     (r.acct.shortfall = true → ¬short →
       t = raise e .capacity 4 (if e.cfg.locked = true ∧ r.grid.state = .normal then 0 else 1)
         (r.acct.a - (r.acct.s + e.param 10))
         { r with acct.shortfall := false, acct.recorded := 0, todo.pool := true }))) ∧
  (∀ (e : Env) (r : Rack),
    (r.acct.takenUp = false → computeAccount e r = r) ∧
    (r.acct.takenUp = true →
      (let x := figures e r
       let held : Rack := if x = r.acct then r
         else { r with acct := x, todo.account := true, todo.pool := true, todo.head := true }
       let u := evaluateShortfall e (if x.redundancy = r.acct.redundancy then held
         else raise e .capacity 1 x.nOn x.redundancy.code held)
       let t := computeAccount e r
       let rises := r.acct.a < x.a ∧ u.grid.state = .normal ∧ e.cfg.locked = true
       (¬rises → t = u) ∧
       (rises → e.param 13 = 0 → t = raise e .capacity 5 u.acct.nOn u.acct.a u) ∧
       (rises → e.param 13 ≠ 0 →
         t = restore e (raise e .capacity 5 u.acct.nOn u.acct.a u)))) ∧
    (∀ n : Fin 48,
      ((r.slots[n]).state = .shed → e.slotZoneOpen n = true →
        ((restore e r).slots[n]).state = .queued ∧
        ((restore e r).slots[n]).queueTime = some e.now) ∧
      (((r.slots[n]).state ≠ .shed ∨ e.slotZoneOpen n = false) →
        (restore e r).slots[n] = r.slots[n])))

/-! ### Hold-up and the grid -/

/-- An evaluation's figures (R124, R125, R126, R127, R128, R129, R134): the usable BUs alone give energy,
each the kJ above its reserve times its acceptance over 256, with three quarters of it while stale; D is
the sum at the efficiency; P is the base load and each powered slot's predicted draw, X of a level the
draws of the slots it sheds; L is the greater of the predicted and the measured load, at most 250,000 W;
the hold-up times, under L less X, rise with the shed level and stay at or below 65,535 s; the required
level is the least that reaches the target, or 3; and the drain condition compares D with L over the
drain time. -/
def Obligations.HoldUpFigures : Prop :=
  ∀ (e : Env) (r : Rack),
    (let h := holdFigures e r
     let draw := fun n : Fin 48 =>
       if (r.slots[n]).state = .starting then (e.profile n).startW
       else if (r.slots[n]).state = .on ∨ (r.slots[n]).state = .draining then
         (e.profile n).nominalW
       else 0
     let shed := fun k : Nat =>
       ((List.finRange 48).map fun n => if e.rank n ≤ k then draw n else 0).sum
     let time := fun l : Nat => if l = 0 then 65535 else min (h.d * 1000 / l) 65535
     (∀ j : Fin 12, ((r.bu[j]).present = true ∧ (r.bu[j]).state.code ≤ 4 →
         (h.perBu[j]).usable = true ∧
         (h.perBu[j]).u = ((r.bu[j]).energy - (e.cfg.record.bus[j]).reserve) *
           (if (r.bu[j]).stale then (r.bu[j]).h * 3 / 4 else (r.bu[j]).h) / 256) ∧
       (¬((r.bu[j]).present = true ∧ (r.bu[j]).state.code ≤ 4) →
         (h.perBu[j]).usable = false ∧ (h.perBu[j]).u = 0)) ∧
     h.u = ((List.finRange 12).map fun j => (h.perBu[j]).u).sum ∧
     h.d = h.u * e.param 11 / 256 ∧
     h.p = e.param 10 + ((List.finRange 48).map draw).sum ∧
     h.l = min (max h.p h.m) 250000 ∧
     h.m = (if r.grid.state = .normal then r.hold.mOut else r.hold.mDis) ∧
     h.x1 = shed 1 ∧ h.x2 = shed 2 ∧ h.x3 = shed 3 ∧
     h.x1 ≤ h.x2 ∧ h.x2 ≤ h.x3 ∧
     h.t = time h.l ∧ h.t1 = time (h.l - h.x1) ∧ h.t2 = time (h.l - h.x2) ∧
     h.t3 = time (h.l - h.x3) ∧
     h.t ≤ h.t1 ∧ h.t1 ≤ h.t2 ∧ h.t2 ≤ h.t3 ∧ h.t3 ≤ 65535 ∧
     h.required ≤ 3 ∧
     (h.required < 3 → e.param 5 ≤ h.timeAt h.required) ∧
     (∀ k : Nat, k < h.required → h.timeAt k < e.param 5) ∧
     (h.drainHolds = true ↔ 0 < h.l ∧ h.d * 1000 ≤ h.l * e.param 6))

/-- How the grid state moves (R107 to R117, R122, R131 to R134): the loss and return conditions as they
read the modules; a loss in NORMAL, or in QUALIFY outside an event, begins an event, a return in
RIDE_THROUGH, or of the PSUs alone in DARK, enters QUALIFY with its timer set and its BUs offered
RESTORE, a loss in QUALIFY is a bounce within the event, and STARTUP is left at a poll cycle's end:
there the sums of measured load are taken afresh unless a removal stands, the Account takes up its
figures, then the Controller moves (the order of these two is the model's choice: log entry 32) and an
evaluation is owed (that a lock which takes out every position still due ends the cycle at once is its
choice too: log entry 53) (R30, R47, R109, R127, R130); the Calculator's evaluation logs ENERGY_SHORT
once, moves the shed level in RIDE_THROUGH alone, and only upward, and sheds the STARTING and ON slots
of the level's ranks; a change of grid state is handed to the Calculator, which evaluates in the entry
to RIDE_THROUGH itself; DRAIN hands every powered slot a drain, and DARK, once no slot is powered,
offers every usable BU ISOLATE. -/
def Obligations.GridMoves : Prop :=
  (∀ (e : Env) (r : Rack),
    (let psu := fun i : Fin 18 => e.cfg.locked = false ∨ (r.psu[i]).present = true
     let bu := fun j : Fin 12 => e.cfg.locked = false ∨ (r.bu[j]).present = true
     let fed := fun i : Fin 18 => psu i ∧
       ((r.psu[i]).state = .online ∨ (r.psu[i]).state = .inputFault)
     (lossHolds e r = true ↔
       (∃ j, bu j ∧ (r.bu[j]).state = .discharging ∧
         ∀ a : ActiveCheck, r.active = some a → a.bu ≠ j) ∨
       (∃ i, fed i) ∧ ∀ i, fed i → (r.psu[i]).input ≠ .ok) ∧
     (psuReturn e r = true ↔ (∃ i, psu i ∧ (r.psu[i]).state = .online) ∧
       ∀ i, psu i → (r.psu[i]).state ≠ .inputFault) ∧
     (returnHolds e r = true ↔ psuReturn e r = true ∧
       ∀ j, bu j → (r.bu[j]).state ≠ .discharging))) ∧
  (∀ (e : Env) (r : Rack),
    (let t := evaluateGrid e r
     (r.grid.state = .normal → lossHolds e r = false → t = r) ∧
     (r.grid.state = .normal → lossHolds e r = true → t = beginEvent e r) ∧
     (r.grid.state = .rideThrough → returnHolds e r = true → t = enterQualify e r) ∧
     (r.grid.state = .rideThrough → returnHolds e r = false → t = r) ∧
     (r.grid.state = .qualify → lossHolds e r = false → t = r) ∧
     (r.grid.state = .qualify → lossHolds e r = true → r.grid.inEvent = false →
       t = beginEvent e r) ∧
     (r.grid.state = .qualify → lossHolds e r = true → r.grid.inEvent = true →
       t = bounce e r ∧ t.grid.state ∈ [GridState.rideThrough, .drain, .dark] ∧
       t.grid.bounces = min 255 (r.grid.bounces + 1) ∧ t.grid.events = r.grid.events ∧
       r.grid.level ≤ t.grid.level ∧ t.grid.qualify = none) ∧
     (r.grid.state = .dark → psuReturn e r = true → t = enterQualify e r) ∧
     (r.grid.state = .dark → psuReturn e r = false → t = r) ∧
     (r.grid.state = .startup ∨ r.grid.state = .drain → t = r)) ∧
    (r.grid.state = .startup → lossHolds e r = true → leaveStartup e r = beginEvent e r) ∧
    (r.grid.state = .startup → lossHolds e r = false → leaveStartup e r = enterQualify e r) ∧
    (r.grid.state ≠ .startup → leaveStartup e r = r)) ∧
  (∀ (e : Env) (r : Rack),
    (let ended : Bus := { r.bus with
       cycle := none
       lateEnd := match r.bus.cycle with
         | some c => decide (100 < (e.now - c.began).toNat)
         | none => false }
     let sums : HoldUp := if r.hold.removal = true then r.hold else { r.hold with
       mOut := ((List.finRange 18).map fun i =>
         if (r.psu[i]).present = true ∧ (r.psu[i]).state = .online then (r.psu[i]).output
         else 0).sum
       mDis := ((List.finRange 12).map fun j =>
         if (r.bu[j]).present = true ∧ (r.bu[j]).state.code ≤ 4 then (r.bu[j]).discharge
         else 0).sum }
     let u : Rack := { r with bus := ended, hold := sums }
     let v := if r.acct.takenUp = true then u
       else computeAccount e { u with acct.takenUp := true }
     endCycle e r = { leaveStartup e v with todo.hold := true } ∧
     (cycleOver e r = true ↔ (∃ c : PollCycle, r.bus.cycle = some c ∧
         ∀ p ∈ c.due, polled e r p = false) ∧
       ∀ x : Transaction, r.bus.inFlight = some x → x.cmd ≠ none) ∧
     (cycleOver e r = false → followCycle e r = r) ∧
     (cycleOver e r = true → followCycle e r = settle e 64 (endCycle e r)))) ∧
  (∀ (e : Env) (r : Rack),
    (∀ (g : Grid) (level : Nat), moveGrid e g level r = { r with
       grid := g
       notif := r.notif.offer ⟨.grid, 1, g.state.code, e.now,
         g.bounces + 256 * level + 4096 * r.grid.state.code + if g.drainFlag then 65536 else 0⟩
       todo := { r.todo with account := true, pool := true, hold := true, head := true } }) ∧
    beginEvent e r = evaluateHold e (abortActive e (stopRecharge e (evaluateShortfall e (moveGrid e
      { r.grid with
        state := .rideThrough, level := 0, inEvent := true, eventStart := some e.now, bounces := 0
        drainFlag := false, qualify := none, events := min 65535 (r.grid.events + 1) } 0
      { r with hold := { r.hold with shortLogged := false } })))) ∧
    bounce e r = evaluateHold e (moveGrid e { r.grid with
      state := .rideThrough, qualify := none, bounces := min 255 (r.grid.bounces + 1) }
        r.grid.level r) ∧
    (let t := beginEvent e r
     t.grid.state ∈ [GridState.rideThrough, .drain, .dark] ∧ t.grid.inEvent = true ∧
     t.grid.eventStart = some e.now ∧ t.grid.bounces = 0 ∧ t.grid.qualify = none ∧
     t.grid.events = min 65535 (r.grid.events + 1) ∧
     (∀ j : Fin 12, (t.bu[j]).setpoint = 0) ∧ t.acct.rc = 0 ∧ t.acct.shortfall = false ∧
     t.rech.pool = 0 ∧ t.rech.frame = none ∧ t.active = none)) ∧
  (∀ (e : Env) (r : Rack),
    (let announced := fun g : Grid => r.notif.offer ⟨.grid, 1, g.state.code, e.now,
       g.bounces + 256 * r.grid.level + 4096 * r.grid.state.code
         + if g.drainFlag then 65536 else 0⟩
     let q := enterQualify e r
     let d := enterDrain e r
     let k := enterDark e r
     q.grid = { r.grid with
       state := .qualify, qualify := some ⟨e.now, 1000 * e.param 8⟩ } ∧
     q.slots = r.slots ∧ q.notif = announced q.grid ∧
     q.todo.hold = true ∧ d.todo.hold = true ∧ k.todo.hold = true ∧
     (∀ j : Fin 12,
       (let back := (r.bu[j]).present = true ∧ (r.bu[j]).commandedIsolate = true ∧
          (r.bu[j]).leakIsolated = false
        (back → q.bu[j] = { r.bu[j] with commandedIsolate := false } ∧
          (takesOffers e r (.bu j) = true → r.bus.entry (.bu j) = none →
            (q.bus.entry (.bu j)).map CmdEntry.cmd = some .restore)) ∧
        (¬back → q.bu[j] = r.bu[j] ∧ q.bus.entry (.bu j) = r.bus.entry (.bu j)))) ∧
     d.grid.drainFlag = true ∧ d.grid.level = r.grid.level ∧
     (d.grid.powered = 0 → d.grid.state = .dark) ∧
     (d.grid.powered ≠ 0 → d.grid.state = .drain) ∧
     d.faults = r.faults.log e.now .drainStarted r.hold.usableCount ∧
     (∀ n : Fin 48, d.slots[n] = if (r.slots[n]).state.powered = true then
       (drain e .rackDrain n r).slots[n] else r.slots[n]) ∧
     k.grid = { r.grid with state := .dark } ∧ k.slots = r.slots ∧ k.notif = announced k.grid ∧
     (∀ j : Fin 12,
       (let usable := (r.bu[j]).present = true ∧ (r.bu[j]).state.code ≤ 4
        (usable → k.bu[j] = { r.bu[j] with commandedIsolate := true } ∧
          (takesOffers e r (.bu j) = true →
            (k.bus.entry (.bu j)).map CmdEntry.cmd = some .isolate)) ∧
        (¬usable → k.bu[j] = r.bu[j] ∧ k.bus.entry (.bu j) = r.bus.entry (.bu j)))) ∧
     (settled r = true → r.grid.state = .drain → r.grid.powered ≠ 0))) ∧
  (∀ (e : Env) (r : Rack),
    (evaluateHold e r).grid.level =
      (if r.grid.state = .rideThrough ∧ e.cfg.locked = true then
        max r.grid.level (holdFigures e r).required else r.grid.level) ∧
    (r.grid.state ≠ .rideThrough → (evaluateHold e r).grid = r.grid ∧
      (evaluateHold e r).slots = r.slots) ∧
    evaluateHold e r = actOnHold e (evaluateFigures e { r with todo.hold := false }) ∧
    ((r.grid.state ≠ .rideThrough ∨ e.cfg.locked = false) → actOnHold e r = r) ∧
    (r.grid.state = .rideThrough → e.cfg.locked = true →
      (let u := raiseLevel e (energyShort e r)
       (r.hold.drainHolds = true → actOnHold e r = enterDrain e u) ∧
       (r.hold.drainHolds = false → ∀ n : Fin 48, (actOnHold e r).slots[n] =
         if ((r.slots[n]).state = .starting ∨ (r.slots[n]).state = .on) ∧
             e.rank n ≤ max r.grid.level r.hold.required ∧ e.rank n ≠ 4 then
           (drain e .shed n r).slots[n]
         else r.slots[n]))) ∧
    (r.hold.t3 < e.param 5 → r.hold.shortLogged = false → energyShort e r =
      logFault e .energyShort r.hold.usableCount { r with hold.shortLogged := true }) ∧
    ((e.param 5 ≤ r.hold.t3 ∨ r.hold.shortLogged = true) → energyShort e r = r) ∧
    (r.grid.level < r.hold.required → raiseLevel e r = raise e .grid 2 r.hold.required
      (r.hold.t + 65536 * r.hold.timeAt r.hold.required)
      { r with grid.level := r.hold.required }) ∧
    (r.hold.required ≤ r.grid.level → raiseLevel e r = r))

/-! ### Grants -/

/-- The head and its gates (R66, R93, R94 to R104): the seven gates pass exactly on their conditions,
with the details and, for the time gates, the ms until they open that the rules give; with
every gate passing the head is granted, its slot STARTING under PERMIT with the grant time, the good
deadline and an entry of the Start History of at most four, and otherwise no slot changes, the lowest
failing gate is recorded with its detail, and the gate timer is set now to the longest of the times until
the failing time gates open, or absent where none is. R94 names no detail for its fourth condition, which
fails for no head: that gate 1 has 4 there is the model's choice (log entry 37). -/
def Obligations.HeadAndGrants : Prop :=
  ∀ (e : Env) (r : Rack) (n : Fin 48),
    (let left := fun (len : Nat) (x : Option HistEntry) => match x with
       | some x => len - age e.now x.time
       | none => 0
     let group := (e.cfg.record.slots[n]).group
     let spacing := max
       (left (e.param 0) (r.queue.history.filter fun x =>
         x.group = none ∨ x.group = some group).getLast?)
       (left (e.param 1) r.queue.history.getLast?)
     let sum := r.acct.s + e.param 10 + r.acct.rc + max (e.profile n).startW (e.profile n).peakW
     let load := r.hold.l + (e.profile n).nominalW
     (gate1 e r).detail = (if r.grid.state ≠ .normal then 1 else if r.faults.hold ≠ none then 2
       else if e.firstWindow = false then 3 else if e.cfg.locked = false then 4 else 0) ∧
     (gate1 e r).opens = 0 ∧
     (gate2 e r n).detail = e.param 3 - age e.now (r.slots[n]).offSince ∧
     (gate2 e r n).opens = (gate2 e r n).detail ∧
     (∀ z, e.slotZone n = some z → (gate3 e n).detail = (e.zones[z]).code) ∧
     (gate3 e n).opens = 0 ∧
     (gate4 e r n).detail = spacing ∧ (gate4 e r n).opens = spacing ∧
     (gate5 e r).detail =
       (if r.queue.history.length < 4 then 0 else left (e.param 2) r.queue.history.head?) ∧
     (gate5 e r).opens = (gate5 e r).detail ∧
     (gate6 e r n).detail = (if sum ≤ r.acct.adm then r.acct.adm - sum else sum - r.acct.adm) ∧
     (gate6 e r n).opens = 0 ∧
     (gate7 e r n).detail =
       (if load = 0 then 65535 else min (r.hold.d * 1000 / load) 65535) ∧
     (gate7 e r n).opens = 0) ∧
    ((gate1 e r).passes = true ↔ r.grid.state = .normal ∧ r.faults.hold = none ∧
      e.firstWindow = true ∧ e.cfg.locked = true) ∧
    ((gate2 e r n).passes = true ↔ e.param 3 ≤ age e.now (r.slots[n]).offSince) ∧
    ((gate3 e n).passes = true ↔ ∀ z, e.slotZone n = some z →
      e.zones[z] = .clear ∨ e.zones[z] = .watch) ∧
    ((gate4 e r n).passes = true ↔
      (∀ x, r.queue.history.getLast? = some x → e.param 1 ≤ age e.now x.time) ∧
      (∀ x, (r.queue.history.filter fun x =>
        x.group = none ∨ x.group = some (e.cfg.record.slots[n]).group).getLast? = some x →
          e.param 0 ≤ age e.now x.time)) ∧
    ((gate5 e r).passes = true ↔ r.queue.history.length < 4 ∨
      ∀ x, r.queue.history.head? = some x → e.param 2 ≤ age e.now x.time) ∧
    ((gate6 e r n).passes = true ↔ r.acct.s + e.param 10 + r.acct.rc +
      max (e.profile n).startW (e.profile n).peakW ≤ r.acct.adm) ∧
    ((gate7 e r n).passes = true ↔ e.param 12 = 0 ∨ e.rank n = 4 ∨
      e.param 5 ≤ holdTime r.hold.d (r.hold.l + (e.profile n).nominalW)) ∧
    (∀ h : QueueHead, r.queue.head = some h → h.slot = n →
      (let gs := [gate1 e r, gate2 e r n, gate3 e n, gate4 e r n, gate5 e r, gate6 e r n,
         gate7 e r n]
       let t := evaluateHead e r
       ((∀ g ∈ gs, g.passes = true) →
         t.slots[n] = { r.slots[n] with
           state := .starting
           grantTime := some e.now
           queueTime := none
           drain := none
           goodDeadline := some ⟨e.now, (e.profile n).goodDeadline⟩
           cause := .grant
           permit := true
           warn := false } ∧
         (∀ m : Fin 48, m ≠ n → t.slots[m] = r.slots[m]) ∧
         t.queue.history = (if 4 ≤ r.queue.history.length then r.queue.history.drop 1
           else r.queue.history) ++ [⟨e.now, some (e.cfg.record.slots[n]).group⟩] ∧
         t.queue.timer = none) ∧
       (∀ g, g ∈ gs → g.passes = false →
         (∀ k ∈ gs, k.number < g.number → k.passes = true) →
         ∃ wait : Nat,
           (∀ k ∈ gs, k.passes = false → k.opens ≤ wait) ∧
           (wait = 0 ∨ ∃ k ∈ gs, k.passes = false ∧ k.opens = wait) ∧
           t = { r with queue := { r.queue with
             gate := g.number, detail := g.detail
             timer := if wait = 0 then none else some ⟨e.now, wait⟩ } })))

/-! ### Recharge and checks -/

/-- The ends of the control periods (R143, R144, R145): the offered counters are charged 50 J for each
unit of the setpoints, and each member is sent its units for the period that begins, SET_RECHARGE being
offered to it; at the frame's end the pool takes the candidate and a new frame starts at the boundary
with its members formed afresh, a BU that left the set being brought to 0, as is every present BU outside
the set in the first frame after a warm restart (R139; the reading is the model's: log entry 43). At the
entry to NORMAL a frame starts on the candidate (R118). The candidate is Adm - S - B
less the head's need, and 0 in a shortfall or outside NORMAL; below the pool in force it is taken at
once and the frame restarts there, and otherwise nothing but the candidate changes (R141, R144). -/
def Obligations.RechargeTimers : Prop :=
  (∀ (s : State) (f : RechargeFrame), s.rack.rech.frame = some f →
    1000 * f.period ≤ (s.now - f.start).toNat →
    (f.period < 16 →
      exec .controlPeriod s = .next (s.onRack fun e r => nextPeriod e f r).conclude ∧
      (let t := nextPeriod s.env f s.rack
       t.rech = { s.rack.rech with frame := some { f with period := f.period + 1 } } ∧
       (∀ (j : Fin 12) (x : Member), s.rack.rech.members[j] = some x →
         t.bu[j] = { (s.rack.bu[j]).charge with setpoint := unitsIn (f.period + 1) x } ∧
         (takesOffers s.env s.rack (.bu j) = true →
           (∀ y, s.rack.bus.entry (.bu j) = some y → y.cmd.cls ≠ 1) →
           (t.bus.entry (.bu j)).map CmdEntry.cmd =
             some (.setRecharge (unitsIn (f.period + 1) x)))) ∧
       (∀ j : Fin 12, s.rack.rech.members[j] = none →
         t.bu[j] = (s.rack.bu[j]).charge ∧
         t.bus.entry (.bu j) = s.rack.bus.entry (.bu j)))) ∧
    (f.period = 16 →
      exec .frameBoundary s = .next (s.onRack fun e r => boundary e f r).conclude ∧
      (let t := boundary s.env f s.rack
       t.rech = { s.rack.rech with
         pool := s.rack.rech.candidate
         frame := some ⟨f.start + 16000, 1⟩
         members := t.rech.members
         carried := false } ∧
       t.acct.rc = rechargeDraw t.rech.members ∧
       (∀ j : Fin 12, (t.rech.members[j]).isSome = (s.rack.bu[j]).joins) ∧
       (∀ (j : Fin 12) (x : Member), t.rech.members[j] = some x →
         t.bu[j] = { (s.rack.bu[j]).charge with setpoint := unitsIn 1 x } ∧
         (takesOffers s.env s.rack (.bu j) = true →
           (∀ y, s.rack.bus.entry (.bu j) = some y → y.cmd.cls ≠ 1) →
           (t.bus.entry (.bu j)).map CmdEntry.cmd = some (.setRecharge (unitsIn 1 x)))) ∧
       (∀ j : Fin 12, t.rech.members[j] = none → (s.rack.rech.members[j] ≠ none ∨
           s.rack.rech.carried = true ∧ (s.rack.bu[j]).present = true) →
         t.bu[j] = { (s.rack.bu[j]).charge with setpoint := 0 } ∧
         (takesOffers s.env s.rack (.bu j) = true →
           (∀ y, s.rack.bus.entry (.bu j) = some y → y.cmd.cls ≠ 1) →
           (t.bus.entry (.bu j)).map CmdEntry.cmd = some (.setRecharge 0))) ∧
       (∀ j : Fin 12, t.rech.members[j] = none → s.rack.rech.members[j] = none →
         (s.rack.rech.carried = false ∨ (s.rack.bu[j]).present = false) →
         t.bu[j] = (s.rack.bu[j]).charge ∧
         t.bus.entry (.bu j) = s.rack.bus.entry (.bu j))))) ∧
  (∀ b : BuRec, b.offered ≤ 16777215 → b.offeredRem < 1000 →
    b.charge = { b with offered := b.charge.offered, offeredRem := b.charge.offeredRem } ∧
    b.charge.offeredRem < 1000 ∧ b.charge.offered ≤ 16777215 ∧
    (b.charge.offered < 16777215 → 1000 * b.charge.offered + b.charge.offeredRem =
      1000 * b.offered + b.offeredRem + 50 * b.setpoint)) ∧
  (∀ (e : Env) (r : Rack),
    (let need := match r.queue.head with
       | some h => max (e.profile h.slot).startW (e.profile h.slot).peakW
       | none => 0
     let c := if r.acct.shortfall = true ∨ r.grid.state ≠ .normal then 0
       else r.acct.adm - (r.acct.s + e.param 10 + need)
     let t := poolUpdate e r
     ((r.rech.frame = none ∨ r.rech.pool ≤ c) → t = { r with rech.candidate := c }) ∧
     (r.rech.frame ≠ none → c < r.rech.pool →
       t.rech.candidate = c ∧ t.rech.pool = c ∧ t.rech.frame = some ⟨e.now, 1⟩ ∧
       t.acct.rc = rechargeDraw t.rech.members ∧
       (∀ j : Fin 12, (t.rech.members[j]).isSome = (r.bu[j]).joins) ∧
       (∀ (j : Fin 12) (x : Member), t.rech.members[j] = some x →
         t.bu[j] = { r.bu[j] with setpoint := unitsIn 1 x }) ∧
       (∀ j : Fin 12, t.rech.members[j] = none → t.bu[j] =
         if (r.rech.members[j]).isSome || r.rech.carried && (r.bu[j]).present then
           { r.bu[j] with setpoint := 0 } else r.bu[j])) ∧
     (let b := beginRecharge e r
      b.rech.candidate = c ∧ b.rech.pool = c ∧ b.rech.frame = some ⟨e.now, 1⟩ ∧
      b.rech.carried = false ∧ b.acct.rc = rechargeDraw b.rech.members ∧
      (∀ j : Fin 12, (b.rech.members[j]).isSome = (r.bu[j]).joins) ∧
      (∀ j : Fin 12, r.rech.carried = true → (r.bu[j]).present = true → (r.bu[j]).joins = false →
        b.bu[j] = { r.bu[j] with setpoint := 0 } ∧
        (takesOffers e r (.bu j) = true →
          (∀ y, r.bus.entry (.bu j) = some y → y.cmd.cls ≠ 1) →
          (b.bus.entry (.bu j)).map CmdEntry.cmd = some (.setRecharge 0))))))

/-- The recharge shares (R140, R142, R143): the member set is the BUs that meet every condition; a
member's share is an equal part of the pool, 50 W a member taken off it before, and at most the
commissioned max recharge; a member's units over the sixteen periods of a frame are q in all and one
more in exactly f of them, and come within one unit below its share; and Rc, 50 times the members'
ceilings, stays within the pool. -/
def Obligations.RechargeShares : Prop :=
  (∀ share : Nat,
    (let x := memberOf share
     x = ⟨share, share / 50, (share - 50 * (share / 50)) * 16 / 50,
       if 0 < x.f then x.q + 1 else x.q⟩ ∧
     x.f < 16 ∧ 50 * x.q ≤ share ∧
     (∀ p : Nat, unitsIn p x =
       if (p - 1) * x.f / 16 < p * x.f / 16 then x.q + 1 else x.q) ∧
     (∀ p : Nat, unitsIn p x ≤ x.ceiling) ∧
     ((List.range 16).filter fun p => unitsIn (p + 1) x == x.q + 1).length = x.f ∧
     50 * ((List.range 16).map fun p => unitsIn (p + 1) x).sum ≤ 16 * share ∧
     16 * share < 50 * ((List.range 16).map fun p => unitsIn (p + 1) x).sum + 50)) ∧
  (∀ (e : Env) (r : Rack),
    rechargeDraw (formMembers e r) = ((List.finRange 12).map fun j =>
      match (formMembers e r)[j] with
      | some x => 50 * x.ceiling
      | none => 0).sum ∧
    rechargeDraw (formMembers e r) ≤ r.rech.pool ∧
    (∀ j : Fin 12, ((formMembers e r)[j]).isSome = true ↔
      (r.bu[j]).present = true ∧ ((r.bu[j]).state = .idle ∨ (r.bu[j]).state = .charging) ∧
      (r.bu[j]).commandedIsolate = false ∧ (r.bu[j]).leakIsolated = false ∧
      (r.bu[j]).phase ≠ .requested ∧ (r.bu[j]).phase ≠ .running) ∧
    (∀ (j : Fin 12) (x : Member), (formMembers e r)[j] = some x →
      (let n := ((List.finRange 12).filter fun k => ((formMembers e r)[k]).isSome).length
       x = memberOf (min ((r.rech.pool - 50 * n) / n) (e.cfg.record.bus[j]).maxRecharge))))

/-- The health sample at an entry to FULL (R147): with at least 100 kJ offered and neither counter
saturated H becomes the accepted energy over the offered in 256ths, at most 256; otherwise H stands;
and the counters restart either way. -/
def Obligations.HealthSample : Prop :=
  ∀ (e : Env) (j : Fin 12) (r : Rack),
    (let b := r.bu[j]
     let t := healthSample e j r
     ((100 ≤ b.offered ∧ b.offered < 16777215 ∧ b.accepted < 16777215) →
       t.bu[j] = { b with
         offered := 0, offeredRem := 0, accepted := 0
         h := min 256 (256 * b.accepted / b.offered) } ∧
       t.notif = r.notif.offer ⟨.battery, 2, j.val, e.now,
         min 256 (256 * b.accepted / b.offered) + 512 * b.h⟩ ∧
       t.todo.battery = true) ∧
     (¬(100 ≤ b.offered ∧ b.offered < 16777215 ∧ b.accepted < 16777215) →
       t.bu[j] = { b with offered := 0, offeredRem := 0, accepted := 0 } ∧ t.notif = r.notif) ∧
     (∀ k : Fin 12, k ≠ j → t.bu[k] = r.bu[k]))

/-- The capacity checks' events and their course (R148 to R156): a due BU is evaluated in NORMAL, and
starts its check when every condition holds or is postponed by six hours with the first that fails; the
BU's reports move the check through its phases to its delivery, its completion, its abort or its being
not taken; a stray check is counted once; a sample not taken in its six hours is dropped and the BU is
due at once; CHECK_NOW is refused while UNCOMMISSIONED, for an absent position and under a check, and
otherwise drops a pending sample, makes the BU due and has it evaluated at once in NORMAL. The model's
choices and readings: each setting of the count begins a second (log entry 3), CHECK_NOW's result takes
one byte (log entry 13), an answer to the START_CHECK in any mode but CHECKING is a check not taken (log
entry 19), and the result is 0 where the START_CHECK is dropped at once (log entry 34). -/
def Obligations.Checks : Prop :=
  (∀ (s : State) (j : Fin 12), (s.rack.bu[j]).due = 0 → (s.rack.bu[j]).phase = .none →
    exec (.checkDue j) s = .next (s.onRack fun e r =>
      if r.grid.state = .normal ∧ (r.bu[j]).present = true then
        if checkReason e r j = 0 then startCheck e j r else postpone e j (checkReason e r j) r
      else r).conclude) ∧
  (∀ (s : State) (j : Fin 12) (d : Deadline), (s.rack.bu[j]).phase = .samplePending →
    (s.rack.bu[j]).sampleDeadline = some d → d.len ≤ (s.now - d.set).toNat →
    exec (.sampleDeadline j) s =
      .next (s.onRack fun e r => setDue j 0 (dropSample e j 4 r)).conclude) ∧
  (∀ (e : Env) (j : Fin 12) (outcome : Nat) (r : Rack),
    dropSample e j outcome r = { r with
      bu := put r.bu j { r.bu[j] with phase := .none, sampleDeadline := none }
      notif := r.notif.offer ⟨.battery, 5, j.val, e.now, outcome⟩ } ∧
    setDue j 0 r = { r with
      bu := put r.bu j { r.bu[j] with due := 0, dueMs := 0 }
      todo.battery := true
      todo.checks := r.todo.checks ++ [j] }) ∧
  (∀ (s : State) (tag : Byte) (j : Fin 12), Ready s 0x24 tag (u8 j.val) →
    ((s.cfg.locked = false ∨ (s.rack.bu[j]).present = false ∨ (s.rack.bu[j]).phase = .requested ∨
        (s.rack.bu[j]).phase = .running) →
      exec (.checkNow tag (u8 j.val)) s =
        .next (s.take.reply 0x24 tag [codeRefusedState]).conclude) ∧
    (s.cfg.locked = true → (s.rack.bu[j]).present = true →
      ((s.rack.bu[j]).phase = .none ∨ (s.rack.bu[j]).phase = .samplePending) →
      (let why := checkReason s.env s.rack j
       exec (.checkNow tag (u8 j.val)) s =
        .next ((s.take.onRack fun e r => checkNow e j r).reply 0x24 tag (codeOk :: u8 (
          if s.rack.grid.state ≠ .normal then 2 else if why = 0 then 0 else 1 + 16 * why))).conclude ∧
       let dropped : Rack := if (s.rack.bu[j]).phase = .samplePending then
         { s.rack with
           bu := put s.rack.bu j { s.rack.bu[j] with phase := .none, sampleDeadline := none }
           notif := s.rack.notif.offer ⟨.battery, 5, j.val, s.now, 4⟩ } else s.rack
       let due : Rack := { dropped with
         bu := put dropped.bu j { dropped.bu[j] with due := 0, dueMs := 0 }
         todo := { s.rack.todo with battery := true, checks := [] } }
       (s.rack.grid.state ≠ .normal → checkNow s.env j s.rack = due) ∧
       (s.rack.grid.state = .normal → checkNow s.env j s.rack =
         if why = 0 then startCheck s.env j due else postpone s.env j why due)))) ∧
  (∀ (e : Env) (pick : Fin 12 → Bool) (r : Rack),
    evaluateChecks e pick r = forEach (fun j r =>
      if pick j = true ∧ r.grid.state = .normal ∧ (r.bu[j]).present = true ∧ (r.bu[j]).due = 0 ∧
          (r.bu[j]).phase = .none then
        if checkReason e r j = 0 then startCheck e j r else postpone e j (checkReason e r j) r
      else r) (List.finRange 12) r) ∧
  (∀ (e : Env) (r : Rack) (j : Fin 12),
    (let d := (r.hold.u - (r.hold.perBu[j]).u) * e.param 11 / 256
     let without := if r.hold.l = 0 then 65535 else min (d * 1000 / r.hold.l) 65535
     checkReason e r j =
       if r.active ≠ none then 1
       else if (r.bu[j]).state ≠ .full then 2
       else if ∃ z, e.shelfZone (buShelf j) = some z ∧ e.zones[z] ≠ .clear ∧ e.zones[z] ≠ .watch then 3
       else if r.faults.hold ≠ none then 4
       else if without < e.param 5 then 5
       else 0) ∧
    (let c := e.cfg.record.bus[j]
     let depth := c.rated * c.depth / 100
     let power := min (e.param 15) c.maxDischarge
     let stands := r.bus.entry (.bu j)
     let t := startCheck e j r
     t.rech.members[j] = none ∧
     (takesOffers e r (.bu j) = true → (∀ x, stands = some x → x.cmd.cls ≠ 1) →
       t.active = some ⟨j, depth, power, e.now⟩ ∧ (t.bu[j]).phase = .requested ∧
       (t.bu[j]).due = (r.bu[j]).due ∧ t.todo.grid = true ∧
       t.notif = r.notif.offer ⟨.battery, 3, j.val, e.now, depth⟩ ∧
       (t.bus.entry (.bu j)).map CmdEntry.cmd = some (.startCheck depth power)) ∧
     ((takesOffers e r (.bu j) = false ∧ stands.map CmdEntry.cmd ≠ some (.startCheck depth power) ∨
         ∃ x, stands = some x ∧ x.cmd.cls = 1) →
       t.active = none ∧ (t.bu[j]).phase = .none ∧ (t.bu[j]).due = 21600 ∧
       (t.bu[j]).postponed = min 255 ((r.bu[j]).postponed + 1) ∧ t.todo.grid = true)) ∧
    (∀ why : Nat,
      (let b := r.bu[j]
       let n := min 255 (b.postponed + 1)
       let t := postpone e j why r
       t.bu[j] = { b with
         postponed := n, stale := b.stale || n == 4, due := 21600, dueMs := 0 } ∧
       t.todo.battery = true ∧
       (∀ k : Fin 12, k ≠ j → t.bu[k] = r.bu[k]) ∧
       ∃ u : Rack, u.notif = r.notif.offer ⟨.battery, 4, j.val, e.now, n + 256 * why⟩ ∧
         u.bu = t.bu ∧ u.faults = r.faults ∧
         t = if n = 4 ∧ b.stale = false then
             evaluateFigures e (logFault e .checkStale (buAddress j) { u with todo.hold := true })
           else u))) ∧
  (∀ (e : Env) (r : Rack) (j : Fin 12) (answered enteredFull : Bool),
    (let b := r.bu[j]
     let u := if b.state = .checking then r
       else { r with bu := change r.bu j fun b => { b with strayCounted := false } }
     let t := reportCheck e j answered enteredFull r
     (b.phase = .requested →
       (b.state = .checking →
         t = { r with bu := change r.bu j fun b =>
           { b with phase := .running, sampleDeadline := none } }) ∧
       (b.state ≠ .checking → answered = true → t = notTaken e j u) ∧
       (answered = false →
         ((b.state = .idle ∨ b.state = .charging ∨ b.state = .full) → t = u) ∧
         ((b.state = .discharging ∨ b.state = .isolated) → t = abortCheck e j false u) ∧
         ((b.state = .failed ∨ b.state = .lost) → t = abortCheck e j true u))) ∧
     (b.phase = .running →
       (b.state = .checking → t = r) ∧
       (∀ a : ActiveCheck, r.active = some a → (b.state = .idle ∨ b.state = .charging) →
         t = if a.depth ≤ b.delivered then deliver e j u else abortCheck e j false u) ∧
       ((b.state = .full ∨ b.state = .discharging ∨ b.state = .isolated) →
         t = abortCheck e j false u) ∧
       ((b.state = .failed ∨ b.state = .lost) → t = abortCheck e j true u)) ∧
     (b.phase = .samplePending →
       (b.state = .checking → t = strayCheck e j r) ∧
       (b.state ≠ .checking → t = if enteredFull = true then complete e j u else u)) ∧
     (b.phase = .none →
       t = if b.state = .checking then strayCheck e j r else u))) ∧
  (∀ (e : Env) (r : Rack) (j : Fin 12),
    (let b := r.bu[j]
     let ended := fun outcome : Nat => r.notif.offer ⟨.battery, 5, j.val, e.now, outcome⟩
     (let t := deliver e j r
      t.active = none ∧ t.todo.grid = true ∧ t.todo.battery = true ∧ t.notif = ended 0 ∧
      t.bu[j] = { b with
        phase := .samplePending, sampleDeadline := some ⟨e.now, 21600000⟩, due := 21600, dueMs := 0
        offered := 0, offeredRem := 0, accepted := 0 }) ∧
     (∃ u : Rack,
       complete e j r =
         (if b.h < 128 then logFault e .checkFailed (buAddress j) u else u) ∧
       u.active = r.active ∧ u.todo.hold = true ∧ u.todo.battery = true ∧ u.faults = r.faults ∧
       u.notif = ended (1 + 16 * b.h) ∧
       u.bu[j] = { b with
         phase := .none, sampleDeadline := none, stale := false, postponed := 0
         due := 86400 * e.param 14, dueMs := 0 }) ∧
     (∀ stop : Bool,
       (let t := abortCheck e j stop r
        t.active = none ∧ t.todo.grid = true ∧ t.todo.battery = true ∧
        t.todo.checks = r.todo.checks ++ [j] ∧ t.notif = ended 2 ∧
        t.bus = (if stop = true then (offer e (.bu j) .stopCheck r).bus else r.bus) ∧
        t.bu[j] = { b with
          phase := .none, sampleDeadline := none, due := 0, dueMs := 0
          aborts := min 255 (b.aborts + 1) })) ∧
     (∃ u : Rack, notTaken e j r = postpone e j 2 u ∧ u.active = none ∧ u.todo.grid = true ∧
       u.notif = ended 3 ∧ u.bu[j] = { b with phase := .none, sampleDeadline := none }) ∧
     (let t := strayCheck e j r
      let b' := if b.phase = .samplePending then { b with phase := .none, sampleDeadline := none }
        else b
      t.active = r.active ∧
      t.notif = (if b.phase = .samplePending then ended 2 else r.notif) ∧
      (b.strayCounted = true → t.bu[j] = b' ∧ t.todo = r.todo) ∧
      (b.strayCounted = false →
        t.bu[j] = { b' with
          strayCounted := true, due := 0, dueMs := 0, aborts := min 255 (b.aborts + 1) } ∧
        t.todo.battery = true ∧ t.todo.checks = r.todo.checks ++ [j]))))

/-! ### What every step keeps -/

/-- Every step keeps the form of the slot records, the figures that follow the slots, and the order of
the Start Queue under its head, the shed relief among the figures (R4, R18, R52, R58, R62, R63, R83, R85,
R86, R92, R106). -/
def Obligations.SlotsKept : Prop :=
  ∀ s t : State, FormLaw s → RosterLaw s → step s = .next t →
    FormLaw t ∧ RosterLaw t ∧ (QueueLaw s → QueueLaw t)

/-- Every step keeps the receive queue, the Notification Queue and the Start History within what they
can hold, at most one shelf command for a position, and, once the store is loaded, the next leak sample
due now or within 100 ms, so that none is passed over (R34, R93, R159, R182, R189; that time waits for a
sample is the model's choice: log entry 55). -/
def Obligations.BoundsKept : Prop :=
  ∀ s t : State, step s = .next t →
    (BoundsLaw s → BoundsLaw t) ∧ (OneEntryLaw s → OneEntryLaw t) ∧ (PaceLaw s → PaceLaw t)

/-- Every step keeps a grace deadline to ALARM alone (R164, R165; a DECOMMISSION keeps it by dropping every
grace, the model's choice: log entry 16). -/
def Obligations.GraceKept : Prop := ∀ s t : State, GraceLaw s → step s = .next t → GraceLaw t

/-- Every step keeps fault-in-progress on exactly while a bank holds a CRITICAL record (R176, R177; that a
CRITICAL fault in Safe Hold sets a clear flag is the model's choice: log entry 35). -/
def Obligations.FaultFlagKept : Prop := ∀ s t : State, FaultLaw s → step s = .next t → FaultLaw t

/-- After reset every law that the steps keep holds, every slot is DISABLED, every module ABSENT, the
time is 0 and the grid state STARTUP (R4, R17, R22, R40, R43, R82, R109). Reset is a power-on of a store
never written, with the configuration at the factory defaults before any load and the fields that no
rule gives at the model's values: the model's choices (log entries 8 and 14). -/
def Obligations.ResetMeetsLaws : Prop :=
  FormLaw State.reset ∧ RosterLaw State.reset ∧ QueueLaw State.reset ∧ BoundsLaw State.reset ∧
  OneEntryLaw State.reset ∧ PaceLaw State.reset ∧ GraceLaw State.reset ∧ FaultLaw State.reset ∧
  (∀ n : Fin 48, (State.reset.rack.slots[n]).state = .disabled) ∧
  (∀ i : Fin 18, (State.reset.rack.psu[i]).state = .absent) ∧
  (∀ j : Fin 12, (State.reset.rack.bu[j]).state = .absent) ∧
  State.reset.now = 0 ∧ State.reset.rack.grid.state = .startup ∧ State.reset.pending = []

/-- A grant needs a COMMISSIONED part, the first leak window, an open zone and no Safe Hold: when a
command other than the adoption leaves a slot powered that was not (R63, R66), the part it leaves is
COMMISSIONED and its first leak window is over (two of the four conditions of gate 1, R94), the slot's
zone is none, CLEAR or WATCH (gate 3, R96), and Safe Hold was off before the command or the command is a
RELEASE_HOLD (R94, R179). It says nothing of gate 1's grid state or of gates 2 and 4 to 7, and it is
about one command, not an invariant. -/
def Obligations.GrantNeedsLockWindowZoneNoHold : Prop :=
  ∀ (c : Instr) (s t : State) (n : Fin 48), (∀ good : BitVec 48, c ≠ .adoption good) →
    exec c s = .next t → (s.rack.slots[n]).state.powered = false →
    (t.rack.slots[n]).state.powered = true →
    t.cfg.locked = true ∧ t.leak.firstWindow = true ∧ t.env.slotZoneOpen n = true ∧
    (s.held = false ∨ ∃ (tag : Byte) (payload : List Byte), c = .releaseHold tag payload)
end

