-- ==== Sys2Proof/Laws/Reach.lean ====
section
/-! SUPPORT. Everything the rack's blocks can do, said once: `Reach g e a b` says that b comes from a by
changes of slot records, notifications, offers to the Shelf Command Queue, grants' history entries, and
changes that touch none of these. Each operation of the cascade has one lemma saying that it reaches
its result, so a property that survives the few moves of `Reach` survives every step. -/

namespace Sys2Proof.Machine

/-- b differs from a in nothing that the moves of `Reach` carry; the Shelf Command Queue may have lost
entries. -/
structure Same (a b : Rack) : Prop where
  slots : b.slots = a.slots
  s : b.acct.s = a.acct.s
  relief : b.acct.relief = a.acct.relief
  powered : b.grid.powered = a.grid.powered
  notif : b.notif = a.notif
  history : b.queue.history = a.queue.history
  entries : b.queue.entries = a.queue.entries
  faults : b.faults = a.faults
  commands : b.bus.entries.Sublist a.bus.entries
  head : a.queue.HeadFirst → b.queue.HeadFirst

/-- What R175 to R177 keep of the banks. -/
structure Faults.Kept (x : Faults) : Prop where
  severity : ∀ i : Fin 6, (x.banks[i]).severity ≤ 2
  flag : x.inProgress = x.banks.toList.any Bank.critical

/-- A slot may take a record in a rack: the record has its form, a slot that stands DISABLED moves only
while the part is COMMISSIONED, and an unpowered slot comes to be powered only where grants are made
(g) and every gate passes for it. -/
structure Takes (g : Prop) (e : Env) (r : Rack) (n : Fin 48) (x : SlotRec) : Prop where
  formed : x.Formed
  live : (r.slots[n]).state ≠ .disabled ∨ e.commissioned = true
  powers : x.state.powered = true →
    (r.slots[n]).state.powered = true ∨ (g ∧ firstFailing (gates e r n) = none)

/-- Two records alike in what the form of a record and the order of the queue speak of. -/
structure Alike (x y : SlotRec) : Prop where
  state : x.state = y.state
  permit : x.permit = y.permit
  warn : x.warn = y.warn
  drain : x.drain.isSome = y.drain.isSome
  goodDeadline : x.goodDeadline.isSome = y.goodDeadline.isSome
  queueTime : x.queueTime = y.queueTime

/-- The moves of the rack's blocks; g says whether grants are among them. -/
inductive Reach (g : Prop) (e : Env) : Rack → Rack → Prop
  | refl (r : Rack) : Reach g e r r
  | same {a b c : Rack} : Reach g e a b → Same b c → Reach g e a c
  | raised {a b : Rack} (c : NotifClass) (k sub v : Nat) :
      Reach g e a b → Reach g e a (raise e c k sub v b)
  | offered {a b : Rack} (p : Pos) (c : ShelfCmd) : Reach g e a b → Reach g e a (offer e p c b)
  | changed {a b : Rack} (n : Fin 48) (x : SlotRec) :
      Reach g e a b → Takes g e b n x → Reach g e a (changeRecord e n x b)
  | noted {a b : Rack} (n : Fin 48) (x : SlotRec) :
      Reach g e a b → Alike x b.slots[n] → x.drain = (b.slots[n]).drain →
      Reach g e a { b with slots := put b.slots n x }
  | amended {a b : Rack} (n : Fin 48) (x : SlotRec) :
      Reach g e a b → Alike x b.slots[n] →
      Reach g e a
        { b with slots := put b.slots n x, acct.relief := shedRelief e (put b.slots n x) }
  | logged {a b : Rack} (f : FaultKind) (subject : Nat) :
      Reach g e a b → Reach g e a { b with faults := b.faults.log e.now f subject }
  | appended {a b : Rack} (x : HistEntry) :
      Reach g e a b → Reach g e a { b with queue.history := appendHistory b.queue.history x }
  | sorted {a b : Rack} :
      Reach g e a b →
      Reach g e a
        (followHead e { b with queue.entries := sortBy (queueBefore e b.slots) b.queue.entries })
  | listed {a b : Rack} (q : NotifQueue) :
      Reach g e a b → (b.notif.entries.length ≤ 32 → q.entries.length ≤ 32) →
      Reach g e a { b with notif := q }
  | banked {a b : Rack} (x : Faults) :
      Reach g e a b → (b.faults.Kept → x.Kept) → x.hold = b.faults.hold →
      Reach g e a { b with faults := x }

variable {g : Prop}

theorem Same.rfl' (r : Rack) : Same r r :=
  ⟨rfl, rfl, rfl, rfl, rfl, rfl, rfl, rfl, List.Sublist.refl _, id⟩

theorem Reach.trans {e : Env} {a b c : Rack} (h : Reach g e a b) (k : Reach g e b c) : Reach g e a c := by
  induction k with
  | refl => exact h
  | same _ s ih => exact ih.same s
  | raised c k sub v _ ih => exact ih.raised c k sub v
  | offered p c _ ih => exact ih.offered p c
  | changed n x _ hx ih => exact ih.changed n x hx
  | noted n x _ hx hd ih => exact ih.noted n x hx hd
  | amended n x _ hx ih => exact ih.amended n x hx
  | logged f subject _ ih => exact ih.logged f subject
  | appended x _ ih => exact ih.appended x
  | sorted _ ih => exact ih.sorted
  | listed q _ h ih => exact ih.listed q h
  | banked x _ h k ih => exact ih.banked x h k

/-- A rack that is the same in what `Reach` carries, reached from behind. -/
theorem Reach.upd {e : Env} {a b c : Rack} (s : Same b c) (h : Reach g e a b) : Reach g e a c := h.same s

/-- A step to a rack that is the same in what `Reach` carries. -/
theorem Same.reach {e : Env} {a b : Rack} (h : Same a b) : Reach g e a b := (Reach.refl a).same h

theorem forEach_reach {α : Type} {e : Env} {f : α → Rack → Rack}
    (h : ∀ x r, Reach g e r (f x r)) : ∀ (xs : List α) (r : Rack), Reach g e r (forEach f xs r)
  | [], r => .refl r
  | x :: xs, r => (h x r).trans (forEach_reach h xs (f x r))

theorem ite_reach {e : Env} {a b c : Rack} {p : Prop} [Decidable p] (hb : Reach g e a b)
    (hc : Reach g e a c) : Reach g e a (if p then b else c) := by split <;> assumption

/-! ### The Slot Sequencer -/

/-- A record that enters a state other than STARTING and DRAINING has its form. -/
theorem enter_formed (x : SlotRec) (t : Time) (st : SlotState) (c : Cause) (h : st ≠ .starting)
    (k : st ≠ .draining) : (x.enter t st c).Formed := by
  cases st <;> first | exact absurd rfl h | exact absurd rfl k | exact ⟨rfl, rfl, rfl, rfl, rfl⟩

/-- A record that enters an unpowered state has its form. -/
theorem enter_formed_off (x : SlotRec) (t : Time) (st : SlotState) (c : Cause)
    (h : st.powered = false) : (x.enter t st c).Formed :=
  enter_formed x t st c (by rintro rfl; cases h) (by rintro rfl; cases h)

/-- Entering a state is a change of record. -/
theorem enter_reach (e : Env) (n : Fin 48) (st : SlotState) (c : Cause) (r : Rack)
    (h : (r.slots[n]).state ≠ .disabled ∨ e.commissioned = true) (k : st.powered = false) :
    Reach g e r (enter e n st c r) :=
  (Reach.refl r).changed n _
    ⟨enter_formed_off _ _ _ _ k, h, fun p => by
      have : st.powered = true := p
      rw [k] at this; cases this⟩

theorem target_unpowered (d : DrainTarget) : d.state.powered = false := by cases d <;> rfl

/-- Whatever the head was, after following the queue it is the queue's first entry. -/
theorem followHead_first (e : Env) (r : Rack) : (followHead e r).queue.HeadFirst := by
  unfold followHead StartQueue.HeadFirst
  split
  · rename_i h
    split
    · rename_i k; rw [h]; simpa using k
    · exact h.symm
  · rename_i n h
    split
    · rename_i k; rw [h]; simpa using k
    · exact h.symm

theorem followHead_same (e : Env) (r : Rack) : Same r (followHead e r) := by
  refine ⟨?_, ?_, ?_, ?_, ?_, ?_, ?_, ?_, ?_, fun _ => followHead_first e r⟩ <;>
    unfold followHead <;> split <;> split <;> rfl

theorem followHead_reach (e : Env) (r : Rack) : Reach g e r (followHead e r) :=
  (followHead_same e r).reach

theorem resortQueue_reach (e : Env) (r : Rack) : Reach g e r (resortQueue e r) :=
  (Reach.refl r).sorted.same
    ⟨rfl, rfl, rfl, rfl, rfl, rfl, rfl, rfl, List.Sublist.refl _, id⟩

theorem logFault_reach (e : Env) (f : FaultKind) (subject : Nat) (r : Rack) :
    Reach g e r (logFault e f subject r) := by
  unfold logFault
  have h := (Reach.refl (g := g) (e := e) r).logged f subject
  have h := h.raised .fault 1 f.bank.val (f.code + 256 * f.severity + 65536 * subject)
  dsimp only
  split
  · exact (ite_reach (h.raised ..) h).same ⟨rfl, rfl, rfl, rfl, rfl, rfl, rfl, rfl, List.Sublist.refl _, id⟩
  · exact ite_reach (h.raised ..) h

theorem markFault_reach (e : Env) (n : Fin 48) (f : SlotFault) (k : FaultKind) (r : Rack) :
    Reach g e r (markFault e n f k r) := by
  unfold markFault change
  exact (Reach.noted n { r.slots[n] with lastFault := some f } (.refl r)
    ⟨rfl, rfl, rfl, rfl, rfl, rfl⟩ rfl).trans
    (logFault_reach e k n.val _)

theorem endDrain_reach (e : Env) (n : Fin 48) (c : Cause) (r : Rack) :
    Reach g e r (endDrain e n c r) := by
  unfold endDrain
  split
  · rename_i h _
    exact enter_reach e n _ c r (.inl (by rw [h]; exact fun h => by cases h)) (target_unpowered _)
  · exact .refl r

theorem followHead_slots (e : Env) (r : Rack) : (followHead e r).slots = r.slots :=
  (followHead_same e r).slots

theorem followQueue_slots (e : Env) (n : Fin 48) (a b : SlotState) (r : Rack) :
    (followQueue e n a b r).slots = r.slots := by
  unfold followQueue joinQueue leaveQueue
  split
  · exact followHead_slots ..
  · split
    · exact followHead_slots ..
    · rfl

/-- A change of record replaces that record and no other. -/
theorem changeRecord_slots (e : Env) (n : Fin 48) (x : SlotRec) (r : Rack) :
    (changeRecord e n x r).slots = put r.slots n x := by
  unfold changeRecord
  exact followQueue_slots ..

theorem put_self {α : Type} {k : Nat} (v : Vector α k) (i : Fin k) (x : α) : (put v i x)[i] = x := by
  simp [put]

theorem put_other {α : Type} {k : Nat} (v : Vector α k) (i j : Fin k) (x : α) (h : i ≠ j) :
    (put v i x)[j] = v[j] := by
  have : i.val ≠ j.val := fun h' => h (Fin.ext h')
  simp [put, this]

theorem changeRecord_self (e : Env) (n : Fin 48) (x : SlotRec) (r : Rack) :
    (changeRecord e n x r).slots[n] = x := by
  have h := changeRecord_slots e n x r
  rw [h]; exact put_self ..

theorem beginDrain_reach (e : Env) {between : Rack → Rack} (hb : ∀ r, Reach g e r (between r))
    (n : Fin 48) (q : DrainRequest) (r : Rack) (h : (r.slots[n]).state = .on) :
    Reach g e r (beginDrain e between n q r) := by
  unfold beginDrain
  dsimp only
  have hr := (Reach.refl (g := g) (e := e) r).changed n
    { (r.slots[n]).enter e.now .draining q.cause with
      drain := some ⟨q.target, ⟨e.now, drainLength e n q⟩⟩ }
    ⟨⟨rfl, rfl, rfl, rfl, rfl⟩, .inl (h ▸ by decide), fun _ => .inl (h ▸ rfl)⟩
  exact ite_reach ((hr.trans (hb _)).trans (endDrain_reach ..))
    (ite_reach ((hr.trans (hb _)).trans (endDrain_reach ..)) hr)

theorem holdDrain_reach (e : Env) (n : Fin 48) (d : Drain) (r : Rack)
    (h : (r.slots[n]).drain.isSome = true) : Reach g e r (holdDrain e n d r) := by
  unfold holdDrain change
  dsimp only
  refine Reach.raised _ _ _ _ ?_
  refine Reach.same (Reach.amended n { r.slots[n] with drain := some d } (.refl r)
    ⟨rfl, rfl, rfl, h.symm, rfl, rfl⟩) ?_
  exact ⟨rfl, rfl, rfl, rfl, rfl, rfl, rfl, rfl, List.Sublist.refl _, id⟩

theorem amendDrain_reach (e : Env) (n : Fin 48) (q : DrainRequest) (r : Rack) :
    Reach g e r (amendDrain e n q r) := by
  unfold amendDrain
  split
  · rename_i h
    dsimp only; split
    · exact .refl r
    · exact holdDrain_reach e n _ r (by rw [h]; rfl)
  · exact .refl r

theorem drainWith_reach (e : Env) {between : Rack → Rack} (hb : ∀ r, Reach g e r (between r))
    (q : DrainRequest) (n : Fin 48) (r : Rack) : Reach g e r (drainWith e between q n r) := by
  unfold drainWith
  have live : ∀ {x : SlotState}, (r.slots[n]).state = x → x ≠ .disabled →
      (r.slots[n]).state ≠ .disabled := fun h k => h ▸ k
  split
  · rename_i h; exact beginDrain_reach e hb n _ r h
  · rename_i h; exact enter_reach e n _ _ r (.inl (live h (by decide))) (target_unpowered _)
  · exact amendDrain_reach e n _ r
  · rename_i h; exact enter_reach e n _ _ r (.inl (live h (by decide))) rfl
  · rename_i h; exact enter_reach e n _ _ r (.inl (live h (by decide))) rfl
  · exact .refl r

theorem drain_reach (e : Env) (q : DrainRequest) (n : Fin 48) (r : Rack) :
    Reach g e r (drain e q n r) := drainWith_reach e (fun r => .refl r) q n r

theorem leakCut_reach (e : Env) (n : Fin 48) (r : Rack) : Reach g e r (leakCut e n r) := by
  unfold leakCut
  split <;> rename_i h <;>
    first
    | exact .refl r
    | exact enter_reach e n _ _ r (.inl (by rw [h]; exact fun h => by cases h)) rfl

theorem restore_reach (e : Env) (r : Rack) : Reach g e r (restore e r) := by
  refine forEach_reach (fun n r => ?_) _ r
  split
  · rename_i h
    exact enter_reach e n _ _ r (.inl (by rw [h.1]; exact fun h => by cases h)) rfl
  · exact .refl r

theorem drainAll_reach (e : Env) (q : DrainRequest) (p : Fin 48 → SlotRec → Bool) (r : Rack) :
    Reach g e r (drainAll e q p r) :=
  forEach_reach (fun n r => ite_reach (drain_reach e q n r) (.refl r)) _ r

/-! ### The Recharge Allocator -/

theorem reportRc_same (rc : Nat) (r : Rack) : Same r (reportRc rc r) := by
  unfold reportRc
  split
  · exact Same.rfl' r
  · exact ⟨rfl, rfl, rfl, rfl, rfl, rfl, rfl, rfl, List.Sublist.refl _, id⟩

theorem sendSetpoint_reach (e : Env) (j : Fin 12) (u : Nat) (r : Rack) :
    Reach g e r (sendSetpoint e j u r) := by
  unfold sendSetpoint
  refine Reach.offered _ _ (Reach.upd ?_ (.refl r))
  exact ⟨rfl, rfl, rfl, rfl, rfl, rfl, rfl, rfl, List.Sublist.refl _, id⟩

theorem memberLeave_reach (e : Env) (j : Fin 12) (r : Rack) : Reach g e r (memberLeave e j r) := by
  unfold memberLeave
  split
  · have h : Reach g e r { r with rech.members := put r.rech.members j none } :=
      (Reach.refl r).same ⟨rfl, rfl, rfl, rfl, rfl, rfl, rfl, rfl, List.Sublist.refl _, id⟩
    exact (h.trans (sendSetpoint_reach e j 0 _)).same (reportRc_same ..)
  · exact .refl r

theorem leaveMembers_reach (e : Env) (j : Fin 12) (r : Rack) :
    Reach g e r (leaveMembers e j r) := ite_reach (.refl r) (memberLeave_reach ..)

theorem sendSetpoints_reach (e : Env) (holds : Fin 12 → Bool) (p : Nat) (r : Rack) :
    Reach g e r (sendSetpoints e holds p r) := by
  refine forEach_reach (fun j r => ?_) _ r
  split
  · exact sendSetpoint_reach ..
  · exact ite_reach (sendSetpoint_reach ..) (.refl r)

theorem startFrame_reach (e : Env) (t : Time) (pool : Nat) (r : Rack) :
    Reach g e r (startFrame e t pool r) := by
  unfold startFrame
  dsimp only
  refine Reach.trans ?_ (sendSetpoints_reach e _ 1 _)
  refine Reach.same (b := { r with
    rech.pool := pool, rech.frame := some ⟨t, 1⟩, rech.carried := false
    rech.members := formMembers e
      { r with rech.pool := pool, rech.frame := some ⟨t, 1⟩, rech.carried := false } }) ?_
    (reportRc_same ..)
  exact (Reach.refl r).same ⟨rfl, rfl, rfl, rfl, rfl, rfl, rfl, rfl, List.Sublist.refl _, id⟩

theorem poolUpdate_reach (e : Env) (r : Rack) : Reach g e r (poolUpdate e r) := by
  unfold poolUpdate
  dsimp only
  have h : Reach g e r { r with rech.candidate := candidatePool e r } :=
    (Reach.refl r).same ⟨rfl, rfl, rfl, rfl, rfl, rfl, rfl, rfl, List.Sublist.refl _, id⟩
  exact ite_reach (h.trans (startFrame_reach ..)) h

theorem stopRecharge_reach (e : Env) (r : Rack) : Reach g e r (stopRecharge e r) := by
  unfold stopRecharge
  dsimp only
  refine Reach.same ?_ (reportRc_same ..)
  refine Reach.trans (b := { r with
    rech := initialRecharge, bu := r.bu.map fun b => { b with setpoint := 0 } }) ?_ ?_
  · exact (Reach.refl r).same ⟨rfl, rfl, rfl, rfl, rfl, rfl, rfl, rfl, List.Sublist.refl _, id⟩
  · exact forEach_reach (fun j r => ite_reach ((Reach.refl r).offered ..) (.refl r)) _ _

theorem beginRecharge_reach (e : Env) (r : Rack) : Reach g e r (beginRecharge e r) := by
  unfold beginRecharge
  dsimp only
  refine Reach.trans (b := { r with rech.candidate := candidatePool e r }) (Reach.upd ?_ (.refl r))
    (startFrame_reach ..)
  exact ⟨rfl, rfl, rfl, rfl, rfl, rfl, rfl, rfl, List.Sublist.refl _, id⟩

theorem healthSample_reach (e : Env) (j : Fin 12) (r : Rack) : Reach g e r (healthSample e j r) := by
  unfold healthSample
  dsimp only
  split
  · refine Reach.raised _ _ _ _ (Reach.upd ?_ (.refl r))
    exact ⟨rfl, rfl, rfl, rfl, rfl, rfl, rfl, rfl, List.Sublist.refl _, id⟩
  · refine Reach.upd ?_ (.refl r)
    exact ⟨rfl, rfl, rfl, rfl, rfl, rfl, rfl, rfl, List.Sublist.refl _, id⟩

/-! ### The Capacity Account -/

theorem shedSelection_reach (e : Env) (r : Rack) : Reach g e r (shedSelection e r) := by
  unfold shedSelection
  dsimp only
  have h := (forEach_reach (g := g) (e := e) (f := drain e .shed) (drain_reach e .shed) (selected e r) r).same
    (c := { forEach (drain e .shed) (selected e r) r with
      acct.recorded := uncovered e (forEach (drain e .shed) (selected e r) r) })
    ⟨rfl, rfl, rfl, rfl, rfl, rfl, rfl, rfl, List.Sublist.refl _, id⟩
  split
  · exact h
  · exact h.raised ..

theorem enterShortfall_reach (e : Env) (r : Rack) : Reach g e r (enterShortfall e r) := by
  unfold enterShortfall
  dsimp only
  have h : Reach g e r { r with acct.shortfall := true, acct.recorded := 0 } :=
    (Reach.refl r).same ⟨rfl, rfl, rfl, rfl, rfl, rfl, rfl, rfl, List.Sublist.refl _, id⟩
  exact (((h.trans (logFault_reach e _ _ _)).trans (poolUpdate_reach e _)).raised ..).trans
    (shedSelection_reach e _)

theorem clearShortfall_reach (e : Env) (r : Rack) : Reach g e r (clearShortfall e r) := by
  unfold clearShortfall
  refine Reach.raised _ _ _ _ (Reach.upd ?_ (.refl r))
  exact ⟨rfl, rfl, rfl, rfl, rfl, rfl, rfl, rfl, List.Sublist.refl _, id⟩

theorem evaluateShortfall_reach (e : Env) (r : Rack) : Reach g e r (evaluateShortfall e r) := by
  unfold evaluateShortfall followDeficit
  split
  · split
    · split
      · exact shedSelection_reach e r
      · exact (Reach.refl r).same ⟨rfl, rfl, rfl, rfl, rfl, rfl, rfl, rfl, List.Sublist.refl _, id⟩
    · exact clearShortfall_reach e r
  · split
    · exact enterShortfall_reach e r
    · exact .refl r

theorem holdFigure_reach (e : Env) (x : Account) (r : Rack) (h : x.s = r.acct.s)
    (k : x.relief = r.acct.relief) :
    Reach g e r (holdFigure x r) := by
  unfold holdFigure
  split
  · exact .refl r
  · exact (Reach.refl r).same ⟨rfl, h, k, rfl, rfl, rfl, rfl, rfl, List.Sublist.refl _, id⟩

theorem capacityRestored_reach (e : Env) (r : Rack) : Reach g e r (capacityRestored e r) := by
  unfold capacityRestored
  exact ite_reach (((Reach.refl r).raised ..).trans (restore_reach e _)) ((Reach.refl r).raised ..)

theorem computeAccount_reach (e : Env) (r : Rack) : Reach g e r (computeAccount e r) := by
  unfold computeAccount
  dsimp only
  split
  · have h := holdFigure_reach (g := g) e (figures e r) r rfl rfl
    have h2 := ite_reach (p := (figures e r).redundancy = r.acct.redundancy) h
      (h.raised .capacity 1 (figures e r).nOn (figures e r).redundancy.code)
    have h3 := h2.trans (evaluateShortfall_reach e _)
    exact ite_reach (h3.trans (capacityRestored_reach e _)) h3
  · exact .refl r

theorem takeUp_reach (e : Env) (r : Rack) : Reach g e r (takeUp e r) := by
  unfold takeUp
  refine ite_reach (.refl r) (Reach.trans ?_ (computeAccount_reach e _))
  exact (Reach.refl r).same ⟨rfl, rfl, rfl, rfl, rfl, rfl, rfl, rfl, List.Sublist.refl _, id⟩

/-! ### The Check Scheduler -/

theorem setDue_same (j : Fin 12) (n : Nat) (r : Rack) : Same r (setDue j n r) :=
  ⟨rfl, rfl, rfl, rfl, rfl, rfl, rfl, rfl, List.Sublist.refl _, id⟩

theorem setPhase_same (j : Fin 12) (p : CheckPhase) (d : Option Deadline) (r : Rack) :
    Same r (setPhase j p d r) := ⟨rfl, rfl, rfl, rfl, rfl, rfl, rfl, rfl, List.Sublist.refl _, id⟩

theorem endActive_same (j : Fin 12) (r : Rack) : Same r (endActive j r) :=
  ⟨rfl, rfl, rfl, rfl, rfl, rfl, rfl, rfl, List.Sublist.refl _, id⟩

theorem countAbort_same (j : Fin 12) (r : Rack) : Same r (countAbort j r) :=
  ⟨rfl, rfl, rfl, rfl, rfl, rfl, rfl, rfl, List.Sublist.refl _, id⟩

theorem checkEnded_reach (e : Env) (j : Fin 12) (o : Nat) (r : Rack) :
    Reach g e r (checkEnded e j o r) := (Reach.refl r).raised ..

theorem Reach.todo {e : Env} {a b : Rack} (h : Reach g e a b) (x : Todo) :
    Reach g e a { b with todo := x } :=
  Reach.upd (b := b) ⟨rfl, rfl, rfl, rfl, rfl, rfl, rfl, rfl, List.Sublist.refl _, id⟩ h

theorem evaluateFigures_same (e : Env) (r : Rack) : Same r (evaluateFigures e r) :=
  ⟨rfl, rfl, rfl, rfl, rfl, rfl, rfl, rfl, List.Sublist.refl _, id⟩

theorem postpone_reach (e : Env) (j : Fin 12) (k : Nat) (r : Rack) : Reach g e r (postpone e j k r) := by
  have key : ∀ (b : Rack) (p : Bool) (f : FaultKind) (n : Nat), Same r b →
      ∀ v, Reach g e r (if p = true then evaluateFigures e (logFault e f n
          { raise e .battery 4 j.val v b with
            todo := { (raise e .battery 4 j.val v b).todo with hold := true } })
        else raise e .battery 4 j.val v b) := by
    intro b p f n s v
    have h := ((Reach.refl (g := g) (e := e) r).same s).raised .battery 4 j.val v
    exact ite_reach (((h.todo _).trans (logFault_reach ..)).same (evaluateFigures_same ..)) h
  unfold postpone
  dsimp only
  refine key _ _ _ _ ?_ _
  exact ⟨rfl, rfl, rfl, rfl, rfl, rfl, rfl, rfl, List.Sublist.refl _, id⟩

theorem abortCheck_reach (e : Env) (j : Fin 12) (stop : Bool) (r : Rack) :
    Reach g e r (abortCheck e j stop r) := by
  unfold abortCheck
  dsimp only
  have h : Reach g e r (endActive j r) := (endActive_same j r).reach
  exact (((ite_reach (h.offered ..) h).same (setDue_same ..)).same (countAbort_same ..)).trans
    (checkEnded_reach ..)

theorem abortActive_reach (e : Env) (r : Rack) : Reach g e r (abortActive e r) := by
  unfold abortActive
  split
  · exact abortCheck_reach ..
  · exact .refl r

theorem notTaken_reach (e : Env) (j : Fin 12) (r : Rack) : Reach g e r (notTaken e j r) :=
  ((endActive_same j r).reach.trans (checkEnded_reach e j 3 _)).trans (postpone_reach ..)

theorem startCheck_reach (e : Env) (j : Fin 12) (r : Rack) : Reach g e r (startCheck e j r) := by
  unfold startCheck
  dsimp only
  have h : Reach g e r (memberLeave e j (setPhase j .requested none r)) :=
    (setPhase_same ..).reach.trans (memberLeave_reach ..)
  have h := h.same (c := { memberLeave e j (setPhase j .requested none r) with
    active := some (newCheck e j), todo.grid := true })
    ⟨rfl, rfl, rfl, rfl, rfl, rfl, rfl, rfl, List.Sublist.refl _, id⟩
  have h := (h.offered (.bu j) (.startCheck (newCheck e j).depth (newCheck e j).power)).raised
    .battery 3 j.val (newCheck e j).depth
  exact ite_reach h (h.trans (notTaken_reach ..))

theorem evaluateCheck_reach (e : Env) (j : Fin 12) (r : Rack) : Reach g e r (evaluateCheck e j r) := by
  unfold evaluateCheck
  exact ite_reach (ite_reach (startCheck_reach ..) (postpone_reach ..)) (.refl r)

theorem evaluateChecks_reach (e : Env) (p : Fin 12 → Bool) (r : Rack) :
    Reach g e r (evaluateChecks e p r) :=
  forEach_reach (fun j r => ite_reach (evaluateCheck_reach e j r) (.refl r)) _ r

theorem deliver_reach (e : Env) (j : Fin 12) (r : Rack) : Reach g e r (deliver e j r) := by
  unfold deliver
  dsimp only
  refine Reach.trans ?_ (checkEnded_reach ..)
  exact (Reach.refl r).same ⟨rfl, rfl, rfl, rfl, rfl, rfl, rfl, rfl, List.Sublist.refl _, id⟩

theorem dropSample_reach (e : Env) (j : Fin 12) (o : Nat) (r : Rack) :
    Reach g e r (dropSample e j o r) := (setPhase_same ..).reach.trans (checkEnded_reach ..)

theorem complete_reach (e : Env) (j : Fin 12) (r : Rack) : Reach g e r (complete e j r) := by
  unfold complete
  dsimp only
  refine ite_reach (Reach.trans ?_ (logFault_reach ..)) ?_ <;>
  · refine (Reach.upd (b := r) ?_ (.refl r)).trans (checkEnded_reach ..)
    exact ⟨rfl, rfl, rfl, rfl, rfl, rfl, rfl, rfl, List.Sublist.refl _, id⟩

theorem strayCheck_reach (e : Env) (j : Fin 12) (r : Rack) : Reach g e r (strayCheck e j r) := by
  unfold strayCheck
  dsimp only
  have h := ite_reach (p := (r.bu[j]).phase = .samplePending) (dropSample_reach e j 2 r)
    (Reach.refl (g := g) (e := e) r)
  exact ite_reach h (h.same ⟨rfl, rfl, rfl, rfl, rfl, rfl, rfl, rfl, List.Sublist.refl _, id⟩)

theorem reportRequested_reach (e : Env) (j : Fin 12) (a : Bool) (s : BuState) (r : Rack) :
    Reach g e r (reportRequested e j a s r) := by
  unfold reportRequested
  split
  · exact (setPhase_same ..).reach
  · exact ite_reach (notTaken_reach ..) (.refl r)
  · exact ite_reach (notTaken_reach ..) (.refl r)
  · exact ite_reach (notTaken_reach ..) (.refl r)
  all_goals exact ite_reach (notTaken_reach ..) (abortCheck_reach ..)

theorem reportRunning_reach (e : Env) (j : Fin 12) (s : BuState) (r : Rack) :
    Reach g e r (reportRunning e j s r) := by
  unfold reportRunning
  split
  · exact .refl r
  · exact ite_reach (deliver_reach ..) (abortCheck_reach ..)
  · exact ite_reach (deliver_reach ..) (abortCheck_reach ..)
  all_goals exact abortCheck_reach ..

theorem reportCheck_reach (e : Env) (j : Fin 12) (a f : Bool) (r : Rack) :
    Reach g e r (reportCheck e j a f r) := by
  unfold reportCheck
  dsimp only
  have h : Reach g e r (if (r.bu[j]).state = .checking then r
      else { r with bu := change r.bu j fun b => { b with strayCounted := false } }) :=
    ite_reach (.refl r) ((Reach.refl r).same ⟨rfl, rfl, rfl, rfl, rfl, rfl, rfl, rfl, List.Sublist.refl _, id⟩)
  split
  · exact h.trans (reportRequested_reach ..)
  · exact h.trans (reportRunning_reach ..)
  · exact ite_reach (h.trans (strayCheck_reach ..)) (ite_reach (h.trans (complete_reach ..)) h)
  · exact ite_reach (h.trans (strayCheck_reach ..)) h

/-! ### The Ride-Through Controller -/

theorem moveGrid_reach (e : Env) (x : Grid) (level : Nat) (r : Rack)
    (h : x.powered = r.grid.powered) : Reach g e r (moveGrid e x level r) := by
  unfold moveGrid
  refine Reach.raised _ _ _ _ (Reach.upd (b := r) ?_ (.refl r))
  exact ⟨rfl, rfl, rfl, h, rfl, rfl, rfl, rfl, List.Sublist.refl _, id⟩

theorem offerIsolate_reach (e : Env) (j : Fin 12) (r : Rack) : Reach g e r (offerIsolate e j r) := by
  unfold offerIsolate
  refine Reach.offered _ _ (Reach.upd (b := r) ?_ (.refl r))
  exact ⟨rfl, rfl, rfl, rfl, rfl, rfl, rfl, rfl, List.Sublist.refl _, id⟩

theorem offerRestore_reach (e : Env) (j : Fin 12) (r : Rack) : Reach g e r (offerRestore e j r) := by
  unfold offerRestore
  refine Reach.offered _ _ (Reach.upd (b := r) ?_ (.refl r))
  exact ⟨rfl, rfl, rfl, rfl, rfl, rfl, rfl, rfl, List.Sublist.refl _, id⟩

theorem enterDark_reach (e : Env) (r : Rack) : Reach g e r (enterDark e r) := by
  unfold enterDark
  dsimp only
  exact (moveGrid_reach e { r.grid with state := .dark } r.grid.level r rfl).trans
    (forEach_reach (fun j r => ite_reach (offerIsolate_reach e j r) (.refl r)) _ _)

theorem enterDrain_reach (e : Env) (r : Rack) : Reach g e r (enterDrain e r) := by
  unfold enterDrain
  dsimp only
  have h1 := moveGrid_reach (g := g) e { r.grid with state := .drain, drainFlag := true } r.grid.level r rfl
  generalize moveGrid e { r.grid with state := .drain, drainFlag := true } r.grid.level r = a at *
  have h2 := h1.trans (logFault_reach e .drainStarted a.hold.usableCount a)
  generalize logFault e .drainStarted a.hold.usableCount a = b at *
  have h3 := h2.trans (drainAll_reach e .rackDrain (fun _ x => x.state.powered) b)
  exact ite_reach (h3.trans (enterDark_reach e _)) h3

theorem energyShort_reach (e : Env) (r : Rack) : Reach g e r (energyShort e r) := by
  unfold energyShort
  refine ite_reach (Reach.trans ?_ (logFault_reach ..)) (.refl r)
  exact (Reach.refl r).same ⟨rfl, rfl, rfl, rfl, rfl, rfl, rfl, rfl, List.Sublist.refl _, id⟩

theorem raiseLevel_reach (e : Env) (r : Rack) : Reach g e r (raiseLevel e r) := by
  unfold raiseLevel
  refine ite_reach (Reach.raised _ _ _ _ (Reach.upd (b := r) ?_ (.refl r))) (.refl r)
  exact ⟨rfl, rfl, rfl, rfl, rfl, rfl, rfl, rfl, List.Sublist.refl _, id⟩

theorem actOnHold_reach (e : Env) (r : Rack) : Reach g e r (actOnHold e r) := by
  unfold actOnHold
  dsimp only
  split
  · have h := (energyShort_reach (g := g) e r).trans (raiseLevel_reach e _)
    exact ite_reach (h.trans (enterDrain_reach ..)) (h.trans (drainAll_reach ..))
  · exact .refl r

theorem evaluateHold_reach (e : Env) (r : Rack) : Reach g e r (evaluateHold e r) := by
  unfold evaluateHold
  have h : Reach g e r { r with todo.hold := false } :=
    (Reach.refl r).same ⟨rfl, rfl, rfl, rfl, rfl, rfl, rfl, rfl, List.Sublist.refl _, id⟩
  exact (h.same (evaluateFigures_same ..)).trans (actOnHold_reach ..)

theorem beginEvent_reach (e : Env) (r : Rack) : Reach g e r (beginEvent e r) := by
  unfold beginEvent
  dsimp only
  have h : Reach g e r { r with hold.shortLogged := false } :=
    Reach.upd (b := r) ⟨rfl, rfl, rfl, rfl, rfl, rfl, rfl, rfl, List.Sublist.refl _, id⟩ (.refl r)
  have h := h.trans (moveGrid_reach e (r.grid.begin e.now) 0 { r with hold.shortLogged := false } rfl)
  generalize moveGrid e (r.grid.begin e.now) 0 { r with hold.shortLogged := false } = a at *
  have h := h.trans (evaluateShortfall_reach e a)
  generalize evaluateShortfall e a = b at *
  have h := h.trans (stopRecharge_reach e b)
  generalize stopRecharge e b = c at *
  exact h.trans ((abortActive_reach e c).trans (evaluateHold_reach e _))

theorem enterQualify_reach (e : Env) (r : Rack) : Reach g e r (enterQualify e r) := by
  unfold enterQualify
  dsimp only
  exact (moveGrid_reach e { r.grid with
      state := .qualify, qualify := some ⟨e.now, 1000 * e.qualifyTime⟩ } r.grid.level r rfl).trans
    (forEach_reach (fun j r => ite_reach (offerRestore_reach e j r) (.refl r)) _ _)

theorem bounce_reach (e : Env) (r : Rack) : Reach g e r (bounce e r) := by
  unfold bounce
  dsimp only
  exact (moveGrid_reach e { r.grid with
      state := .rideThrough, qualify := none
      bounces := min Config.count8Max (r.grid.bounces + 1) } r.grid.level r rfl).trans
    (evaluateHold_reach e _)

theorem evaluateGrid_reach (e : Env) (r : Rack) : Reach g e r (evaluateGrid e r) := by
  unfold evaluateGrid
  split
  · exact ite_reach (beginEvent_reach ..) (.refl r)
  · exact ite_reach (enterQualify_reach ..) (.refl r)
  · exact ite_reach (ite_reach (bounce_reach ..) (beginEvent_reach ..)) (.refl r)
  · exact ite_reach (enterQualify_reach ..) (.refl r)
  all_goals exact .refl r

theorem leaveStartup_reach (e : Env) (r : Rack) : Reach g e r (leaveStartup e r) := by
  unfold leaveStartup
  exact ite_reach (ite_reach (beginEvent_reach ..) (enterQualify_reach ..)) (.refl r)

theorem takeCommit_reach (e : Env) (r : Rack) : Reach g e r (takeCommit e r) := by
  unfold takeCommit
  refine Reach.raised _ _ _ _ (Reach.trans (b := { r with todo.hold := true }) ?_
    (resortQueue_reach e _))
  exact Reach.upd (b := r) ⟨rfl, rfl, rfl, rfl, rfl, rfl, rfl, rfl, List.Sublist.refl _, id⟩ (.refl r)

theorem enterNormal_reach (e : Env) (armed : Bool) (r : Rack) :
    Reach g e r (enterNormal e armed r) := by
  unfold enterNormal
  dsimp only
  have h := moveGrid_reach (g := g) e { r.grid with state := .normal, qualify := none } r.grid.level r rfl
  generalize moveGrid e { r.grid with state := .normal, qualify := none } r.grid.level r = a at *
  have h := ite_reach (p := armed = true) (h.trans (takeCommit_reach e a)) h
  generalize (if armed = true then takeCommit e a else a) = b at *
  have h : Reach g e r { b with grid := { b.grid with level := 0, inEvent := false } } :=
    Reach.upd (b := b) ⟨rfl, rfl, rfl, rfl, rfl, rfl, rfl, rfl, List.Sublist.refl _, id⟩ h
  generalize ({ b with grid := { b.grid with level := 0, inEvent := false } } : Rack) = c at *
  have h := ite_reach (p := e.autoRestore = true) (h.trans (restore_reach e c)) h
  generalize (if e.autoRestore = true then restore e c else c) = d at *
  exact ((h.trans (evaluateShortfall_reach e d)).trans (beginRecharge_reach e _)).trans
    (evaluateChecks_reach e _ _)

/-! ### The head, the passes and the cycle's end -/

/-- Every gate passing means that gate 1 passes, and so that the part is COMMISSIONED (R94). -/
theorem commissioned_of_gates (e : Env) (r : Rack) (n : Fin 48)
    (h : firstFailing (gates e r n) = none) : e.commissioned = true := by
  have h1 := List.find?_eq_none.mp h (gate1 e r) (by simp [gates])
  by_contra hc
  have hc : e.commissioned = false := by simpa using hc
  apply h1
  unfold gate1
  dsimp only
  rw [hc]
  split_ifs <;> simp_all

theorem grant_reach (e : Env) (n : Fin 48) (r : Rack) (h : firstFailing (gates e r n) = none) :
    Reach True e r (grant e n r) := by
  unfold grant
  dsimp only
  have hr := (Reach.refl (g := True) (e := e) r).changed n
    ((r.slots[n]).grant e.now (e.profile n).goodDeadline)
    ⟨⟨rfl, rfl, rfl, rfl, rfl⟩, .inr (commissioned_of_gates e r n h), fun _ => .inr ⟨trivial, h⟩⟩
  exact (hr.appended ⟨e.now, some (e.cfg.record.slots[n]).group⟩).same
    ⟨rfl, rfl, rfl, rfl, rfl, rfl, rfl, rfl, List.Sublist.refl _, id⟩

theorem evaluateHead_reach (e : Env) (r : Rack) : Reach True e r (evaluateHead e r) := by
  unfold evaluateHead
  split
  · exact .refl r
  · rename_i q _
    dsimp only
    split <;> rename_i hg
    · exact grant_reach e _ r hg
    · exact (Reach.refl r).same ⟨rfl, rfl, rfl, rfl, rfl, rfl, rfl, rfl, List.Sublist.refl _, id⟩

theorem passBlocks_reach (e : Env) (r : Rack) : Reach g e r (passBlocks e r) := by
  unfold passBlocks
  dsimp only
  have h := ite_reach (g := g) (p := r.todo.grid = true)
    (Reach.trans (a := r) (b := { r with todo.grid := false })
      (.same (.refl r) ⟨rfl, rfl, rfl, rfl, rfl, rfl, rfl, rfl, List.Sublist.refl _, id⟩)
      (evaluateGrid_reach e _)) (.refl r)
  generalize (if r.todo.grid = true then evaluateGrid e { r with todo.grid := false } else r) = r1 at *
  have h := ite_reach (p := darkDue r1 = true) (h.trans (enterDark_reach e _)) h
  generalize (if darkDue r1 = true then enterDark e r1 else r1) = r2 at *
  have h := ite_reach (p := r2.todo.account = true)
    ((h.same (c := { r2 with todo.account := false })
      ⟨rfl, rfl, rfl, rfl, rfl, rfl, rfl, rfl, List.Sublist.refl _, id⟩).trans (evaluateShortfall_reach e _)) h
  generalize (if r2.todo.account = true then
    evaluateShortfall e { r2 with todo.account := false } else r2) = r3 at *
  have h := ite_reach (p := r3.todo.pool = true)
    ((h.same (c := { r3 with todo.pool := false })
      ⟨rfl, rfl, rfl, rfl, rfl, rfl, rfl, rfl, List.Sublist.refl _, id⟩).trans (poolUpdate_reach e _)) h
  generalize (if r3.todo.pool = true then
    poolUpdate e { r3 with todo.pool := false } else r3) = r4 at *
  have h := ite_reach (p := r4.todo.hold = true) (h.trans (evaluateHold_reach e _)) h
  generalize (if r4.todo.hold = true then evaluateHold e r4 else r4) = r5 at *
  exact ite_reach h ((h.same (c := { r5 with todo.checks := [] })
      ⟨rfl, rfl, rfl, rfl, rfl, rfl, rfl, rfl, List.Sublist.refl _, id⟩).trans (evaluateChecks_reach ..))

theorem handOn_reach (e : Env) (r : Rack) : Reach g e r (handOn e r) := by
  have key : ∀ (k : Nat) (r : Rack), Reach g e r (handOnFor e k r) := by
    intro k
    induction k with
    | zero => exact fun r => .refl r
    | succ k ih => exact fun r => ite_reach (.refl r) ((passBlocks_reach e r).trans (ih _))
  exact key _ r

theorem fillSample_reach (e : Env) (j : Fin 12) (r : Rack) : Reach g e r (fillSample e j r) :=
  ((handOn_reach e r).trans (healthSample_reach e j _)).trans (handOn_reach e _)

theorem drainInTurn_reach (e : Env) (q : DrainRequest) (n : Fin 48) (r : Rack) :
    Reach g e r (drainInTurn e q n r) := drainWith_reach e (handOn_reach e) q n r

theorem eachHandedOn_reach {e : Env} {f : Fin 48 → Rack → Rack} (h : ∀ n r, Reach g e r (f n r))
    (ns : List (Fin 48)) (r : Rack) : Reach g e r (eachHandedOn e f ns r) :=
  forEach_reach (fun n r => (h n r).trans (handOn_reach e _)) ns r

theorem pass_reach (e : Env) (r : Rack) : Reach True e r (pass e r) := by
  unfold pass
  dsimp only
  have h := passBlocks_reach (g := True) e r
  generalize passBlocks e r = a at *
  exact ite_reach ((h.todo { a.todo with head := false }).trans (evaluateHead_reach e _)) h

theorem settle_reach (e : Env) : ∀ (k : Nat) (r : Rack), Reach True e r (settle e k r)
  | 0, r => .refl r
  | k + 1, r => ite_reach (.refl r) ((pass_reach e r).trans (settle_reach e k _))

theorem takeSums_same (r : Rack) : Same r (takeSums r) := by
  unfold takeSums
  split
  · exact Same.rfl' r
  · exact ⟨rfl, rfl, rfl, rfl, rfl, rfl, rfl, rfl, List.Sublist.refl _, id⟩

theorem endCycle_reach (e : Env) (r : Rack) : Reach g e r (endCycle e r) := by
  unfold endCycle
  dsimp only
  have h : Reach g e r { r with bus := r.bus.endCycle e.now } :=
    (Reach.refl r).same ⟨rfl, rfl, rfl, rfl, rfl, rfl, rfl, rfl, List.Sublist.refl _, id⟩
  exact (((h.same (takeSums_same _)).trans (takeUp_reach ..)).trans (leaveStartup_reach ..)).same
    ⟨rfl, rfl, rfl, rfl, rfl, rfl, rfl, rfl, List.Sublist.refl _, id⟩

theorem followCycle_reach (e : Env) (r : Rack) : Reach True e r (followCycle e r) :=
  ite_reach ((endCycle_reach e r).trans (settle_reach ..)) (.refl r)

theorem arbitrate_same (e : Env) (r : Rack) : Same r (arbitrate e r) := by
  unfold arbitrate
  split
  · split
    · exact ⟨rfl, rfl, rfl, rfl, rfl, rfl, rfl, rfl, List.Sublist.refl _, id⟩
    · split
      · exact ⟨rfl, rfl, rfl, rfl, rfl, rfl, rfl, rfl, List.Sublist.refl _, id⟩
      · exact ⟨rfl, rfl, rfl, rfl, rfl, rfl, rfl, rfl, List.Sublist.refl _, id⟩
    · exact ⟨rfl, rfl, rfl, rfl, rfl, rfl, rfl, rfl, List.Sublist.refl _, id⟩
    · exact Same.rfl' r
  · exact Same.rfl' r

/-- What every command ends with in the rack is a run of the moves of `Reach`. -/
theorem finishRack_reach (e : Env) (r : Rack) : Reach True e r (finishRack e r) :=
  ((settle_reach e Config.settleRounds r).trans (followCycle_reach e _)).same (arbitrate_same e _)

end Sys2Proof.Machine
end

