-- ==== Sys2Proof/Laws/Kept.lean ====
section
/-! SUPPORT. What the moves of `Reach` keep: the form of the slot records, the figures that follow the
slots, the bounds of the queues, one shelf command for a position, and the fault flag. -/

namespace Sys2Proof.Machine

/-! ### Tables -/

theorem total_eq_sum (k : Nat) (f : Fin k → Nat) : total k f = ∑ i, f i :=
  (Fin.sum_univ_def f).symm

theorem countOf_eq_total (k : Nat) (f : Fin k → Bool) :
    countOf k f = total k fun i => if f i then 1 else 0 := by
  unfold countOf total
  induction List.finRange k with
  | nil => rfl
  | cons x xs ih => by_cases h : f x = true <;> simp [h, ih, Nat.add_comm]

/-- A sum over a table changes by one entry's figure when one entry does. -/
theorem total_move {k : Nat} (f g : Fin k → Nat) (n : Fin k) (h : ∀ i, i ≠ n → g i = f i) :
    total k g + f n = total k f + g n := by
  rw [total_eq_sum, total_eq_sum, ← Finset.add_sum_erase _ f (Finset.mem_univ n),
    ← Finset.add_sum_erase _ g (Finset.mem_univ n)]
  have : ∑ i ∈ Finset.univ.erase n, g i = ∑ i ∈ Finset.univ.erase n, f i :=
    Finset.sum_congr rfl fun i hi => h i (Finset.ne_of_mem_erase hi)
  omega

theorem put_get {α : Type} {k : Nat} (v : Vector α k) (i j : Fin k) (x : α) :
    (put v i x)[j] = if i = j then x else v[j] := by
  by_cases h : i = j
  · subst h; rw [put_self, if_pos rfl]
  · rw [put_other v i j x h, if_neg h]

/-! ### The parts of a change of record -/

/-- The Start Queue's entries after a slot joins or leaves it. -/
theorem followHead_queue (e : Env) (r : Rack) :
    (followHead e r).queue.entries = r.queue.entries := (followHead_same e r).entries

theorem insertBy_perm {α : Type} (b : α → α → Bool) (x : α) (xs : List α) :
    (insertBy b x xs).Perm (x :: xs) := by
  induction xs with
  | nil => exact .refl _
  | cons y ys ih =>
    unfold insertBy
    split
    · exact .refl _
    · exact (ih.cons y).trans (.swap x y ys)

theorem sortBy_perm {α : Type} (b : α → α → Bool) (xs : List α) : (sortBy b xs).Perm xs := by
  induction xs with
  | nil => exact .refl _
  | cons x xs ih => exact (insertBy_perm b x _).trans (ih.cons x)

/-- What following a change of state does to the queue's entries. -/
theorem followQueue_entries (e : Env) (n : Fin 48) (old new : SlotState) (r : Rack) :
    (followQueue e n old new r).queue.entries =
      if new = .queued then insertBy (queueBefore e r.slots) n (r.queue.entries.filter (· != n))
      else if old = .queued then r.queue.entries.filter (· != n)
      else r.queue.entries := by
  unfold followQueue joinQueue leaveQueue
  by_cases h : new = .queued
  · simp only [h, beq_self_eq_true, if_true, followHead_queue]
  · by_cases k : old = .queued
    · simp only [k, beq_self_eq_true, if_true, beq_iff_eq, h, if_false, followHead_queue]
    · simp only [beq_iff_eq, h, k, if_false]

/-- Following a change of state touches the queue and what is to be handed on. -/
theorem followQueue_same (e : Env) (n : Fin 48) (old new : SlotState) (r : Rack) :
    Same { r with queue.entries := (followQueue e n old new r).queue.entries }
      (followQueue e n old new r) := by
  unfold followQueue joinQueue leaveQueue
  split
  · have h := followHead_same e { r with
      queue.entries := insertBy (queueBefore e r.slots) n (r.queue.entries.filter (· != n)) }
    exact ⟨h.slots, h.s, h.relief, h.powered, h.notif, h.history, rfl, h.faults, h.commands, fun _ => followHead_first e _⟩
  · split
    · have h := followHead_same e { r with queue.entries := r.queue.entries.filter (· != n) }
      exact ⟨h.slots, h.s, h.relief, h.powered, h.notif, h.history, rfl, h.faults, h.commands, fun _ => followHead_first e _⟩
    · exact Same.rfl' r

/-- A change of record: what it leaves in the parts `Reach` carries. -/
theorem changeRecord_s (e : Env) (n : Fin 48) (x : SlotRec) (r : Rack) :
    (changeRecord e n x r).acct.s =
      moveDraw r.acct.s (drawOf e r n) (stateDraw (e.profile n) x.state) :=
  (followQueue_same e n (r.slots[n]).state x.state (takeRecord e n x r)).s

theorem changeRecord_powered (e : Env) (n : Fin 48) (x : SlotRec) (r : Rack) :
    (changeRecord e n x r).grid.powered =
      movePowered r.grid.powered (r.slots[n]).state x.state :=
  (followQueue_same e n (r.slots[n]).state x.state (takeRecord e n x r)).powered

theorem changeRecord_history (e : Env) (n : Fin 48) (x : SlotRec) (r : Rack) :
    (changeRecord e n x r).queue.history = r.queue.history :=
  (followQueue_same e n (r.slots[n]).state x.state (takeRecord e n x r)).history

theorem changeRecord_faults (e : Env) (n : Fin 48) (x : SlotRec) (r : Rack) :
    (changeRecord e n x r).faults = r.faults :=
  (followQueue_same e n (r.slots[n]).state x.state (takeRecord e n x r)).faults

theorem changeRecord_commands (e : Env) (n : Fin 48) (x : SlotRec) (r : Rack) :
    (changeRecord e n x r).bus.entries.Sublist r.bus.entries :=
  (followQueue_same e n (r.slots[n]).state x.state (takeRecord e n x r)).commands

theorem changeRecord_notif (e : Env) (n : Fin 48) (x : SlotRec) (r : Rack) :
    (changeRecord e n x r).notif =
      r.notif.offer ⟨.slot, 1, n.val, e.now, x.state.code + 16 * x.cause.code⟩ := by
  have h := (followQueue_same e n (r.slots[n]).state x.state (takeRecord e n x r)).notif
  show ((followQueue e n (r.slots[n]).state x.state (takeRecord e n x r)).notif).offer _ = _
  rw [h]; rfl

theorem changeRecord_entries (e : Env) (n : Fin 48) (x : SlotRec) (r : Rack) :
    (changeRecord e n x r).queue.entries =
      if x.state = .queued then
        insertBy (queueBefore e (put r.slots n x)) n (r.queue.entries.filter (· != n))
      else if (r.slots[n]).state = .queued then r.queue.entries.filter (· != n)
      else r.queue.entries :=
  followQueue_entries e n (r.slots[n]).state x.state (takeRecord e n x r)

/-! ### The bounds -/

theorem offer_length (q : NotifQueue) (x : Notif) (h : q.entries.length ≤ 32) :
    (q.offer x).entries.length ≤ 32 := by
  unfold NotifQueue.offer
  split
  · exact h
  · rename_i k
    have k : ¬ Config.notifQueueMax ≤ q.entries.length := fun h => k (by simp [h])
    unfold Config.notifQueueMax at k
    simp only [List.length_append, List.length_singleton]
    omega

theorem appendHistory_length (h : List HistEntry) (x : HistEntry) (k : h.length ≤ 4) :
    (appendHistory h x).length ≤ 4 := by
  unfold appendHistory Config.historyMax
  split <;> simp <;> omega

theorem Reach.notif_length {g : Prop} {e : Env} {a b : Rack} (h : Reach g e a b)
    (k : a.notif.entries.length ≤ 32) : b.notif.entries.length ≤ 32 := by
  induction h with
  | refl => exact k
  | same _ s ih => rw [s.notif]; exact ih
  | raised => exact offer_length _ _ (by assumption)
  | changed n x _ _ ih => rw [changeRecord_notif]; exact offer_length _ _ ih
  | listed q _ h ih => exact h ih
  | sorted _ ih => rw [(followHead_same e _).notif]; exact ih
  | offered | noted | amended | logged | appended | banked => assumption

theorem Reach.history_length {g : Prop} {e : Env} {a b : Rack} (h : Reach g e a b)
    (k : a.queue.history.length ≤ 4) : b.queue.history.length ≤ 4 := by
  induction h with
  | refl => exact k
  | same _ s ih => rw [s.history]; exact ih
  | changed n x _ _ ih => rw [changeRecord_history]; exact ih
  | appended x _ ih => exact appendHistory_length _ _ ih
  | sorted _ ih => rw [(followHead_same e _).history]; exact ih
  | raised | offered | noted | amended | logged | listed | banked => assumption

/-! ### One shelf command for a position -/

theorem Bus.accept_nodup (b : Bus) (t : Time) (p : Pos) (c : ShelfCmd)
    (h : (b.entries.map CmdEntry.pos).Nodup) : ((b.accept t p c).entries.map CmdEntry.pos).Nodup := by
  unfold Bus.accept Bus.discard
  simp only [List.map_append, List.map_cons, List.map_nil]
  rw [List.nodup_append]
  refine ⟨h.sublist (List.Sublist.map _ List.filter_sublist), by simp, ?_⟩
  intro x hx y hy
  simp only [List.mem_map, List.mem_filter, List.mem_singleton] at hx hy
  obtain ⟨z, ⟨_, hz⟩, rfl⟩ := hx
  subst hy
  simpa using hz

theorem Bus.offer_nodup (b : Bus) (t : Time) (o : Bool) (p : Pos) (c : ShelfCmd)
    (h : (b.entries.map CmdEntry.pos).Nodup) : ((b.offer t o p c).entries.map CmdEntry.pos).Nodup := by
  unfold Bus.offer
  split
  · exact h
  · split
    · exact b.accept_nodup t p c h
    · split
      · exact h
      · split
        · exact h
        · exact b.accept_nodup t p c h

theorem Reach.one_entry {g : Prop} {e : Env} {a b : Rack} (h : Reach g e a b)
    (k : (a.bus.entries.map CmdEntry.pos).Nodup) : (b.bus.entries.map CmdEntry.pos).Nodup := by
  induction h with
  | refl => exact k
  | same _ s ih => exact ih.sublist (s.commands.map _)
  | changed n x _ _ ih => exact ih.sublist ((changeRecord_commands e n x _).map _)
  | offered p c _ ih => exact Bus.offer_nodup _ _ _ _ _ ih
  | sorted _ ih => exact ih.sublist ((followHead_same e _).commands.map _)
  | raised | noted | amended | logged | appended | listed | banked => assumption

/-! ### The slot records -/

theorem formed_latched {x : SlotRec} (h : x.Formed) : x.Latched := by
  refine ⟨fun w => ?_, h.drain, h.goodDeadline, h.queueTime⟩
  have hw := h.warn
  rw [w] at hw
  have : x.state = .draining := by simpa using hw.symm
  rw [h.permit, this]; rfl

theorem Alike.formed {x y : SlotRec} (h : Alike x y) (k : y.Formed) : x.Formed :=
  ⟨by rw [h.permit, h.state]; exact k.permit, by rw [h.warn, h.state]; exact k.warn,
   by rw [h.drain, h.state]; exact k.drain, by rw [h.goodDeadline, h.state]; exact k.goodDeadline,
   by rw [h.queueTime, h.state]; exact k.queueTime⟩

theorem Alike.latched {x y : SlotRec} (h : Alike x y) (k : y.Latched) : x.Latched :=
  ⟨fun w => by rw [h.permit]; exact k.warn (by rw [← h.warn]; exact w),
   by rw [h.drain, h.state]; exact k.drain, by rw [h.goodDeadline, h.state]; exact k.goodDeadline,
   by rw [h.queueTime, h.state]; exact k.queueTime⟩

/-- A property of one slot's record that every formed record has and likeness keeps survives. -/
theorem Reach.record {g : Prop} {e : Env} {a b : Rack} (h : Reach g e a b) (P : SlotRec → Prop)
    (hf : ∀ x : SlotRec, x.Formed → P x) (ha : ∀ x y : SlotRec, Alike x y → P y → P x) (n : Fin 48)
    (k : P a.slots[n]) : P b.slots[n] := by
  induction h with
  | refl => exact k
  | same _ s ih => rw [s.slots]; exact ih
  | changed m x _ hx ih =>
    rw [changeRecord_slots, put_get]
    split
    · exact hf x hx.formed
    · exact ih
  | noted m x _ hx _ ih | amended m x _ hx ih =>
    show P (put _ m x)[n]
    rw [put_get]
    split
    · rename_i h; subst h; exact ha _ _ hx ih
    · exact ih
  | sorted _ ih => rw [(followHead_same e _).slots]; exact ih
  | raised | offered | logged | appended | listed | banked => assumption

theorem Reach.formed {g : Prop} {e : Env} {a b : Rack} (h : Reach g e a b) (n : Fin 48)
    (k : (a.slots[n]).Formed) : (b.slots[n]).Formed :=
  h.record SlotRec.Formed (fun _ h => h) (fun _ _ h => h.formed) n k

theorem Reach.latched {g : Prop} {e : Env} {a b : Rack} (h : Reach g e a b) (n : Fin 48)
    (k : (a.slots[n]).Latched) : (b.slots[n]).Latched :=
  h.record SlotRec.Latched (fun _ h => formed_latched h) (fun _ _ h => h.latched) n k

/-- While the part is UNCOMMISSIONED a DISABLED slot stays DISABLED. -/
theorem Reach.disabled {g : Prop} {e : Env} {a b : Rack} (h : Reach g e a b) (c : e.commissioned = false)
    (n : Fin 48) (k : (a.slots[n]).state = .disabled) : (b.slots[n]).state = .disabled := by
  induction h with
  | refl => exact k
  | same _ s ih => rw [s.slots]; exact ih
  | changed m x _ hx ih =>
    rw [changeRecord_slots, put_get]
    split
    · rename_i h; subst h
      rcases hx.live with h | h
      · exact absurd ih h
      · rw [c] at h; cases h
    · exact ih
  | noted m x _ hx _ ih | amended m x _ hx ih =>
    show ((put _ m x)[n]).state = _
    rw [put_get]
    split
    · rename_i h; subst h; rw [hx.state]; exact ih
    · exact ih
  | sorted _ ih => rw [(followHead_same e _).slots]; exact ih
  | raised | offered | logged | appended | listed | banked => assumption

/-! ### What follows the slots -/

theorem Rack.Follows.congr {e : Env} {a b : Rack} (k : a.Follows e)
    (hs : ∀ n : Fin 48, (b.slots[n]).state = (a.slots[n]).state)
    (hd : ∀ n : Fin 48, (b.slots[n]).drain = (a.slots[n]).drain) (h1 : b.acct.s = a.acct.s)
    (hr : b.acct.relief = a.acct.relief) (h2 : b.grid.powered = a.grid.powered) (h3 : b.queue.entries.Perm a.queue.entries) :
    b.Follows e := by
  refine ⟨?_, ?_, ?_, ?_, ?_⟩
  · rw [h1, k.s]; congr 1; funext n; unfold drawOf; rw [hs]
  · rw [hr, k.relief]; congr 1; funext n; rw [hs, hd]
  · rw [h2, k.powered]; congr 1; funext n; rw [hs]
  · exact h3.nodup_iff.mpr k.nodup
  · intro n; rw [h3.mem_iff, hs]; exact k.queued n

/-- A slot counts toward the shed relief when it is DRAINING with target SHED (R58). -/
theorem drainsToShed_iff (x : SlotRec) :
    drainsToShed x = true ↔ x.state = .draining ∧ x.drain.map Drain.target = some .shed := by
  unfold drainsToShed
  cases x.drain <;> simp

/-- The shed relief is the sum of peak_w over the slots DRAINING with target SHED (R58). -/
theorem shedRelief_eq (e : Env) (slots : Vector SlotRec 48) :
    shedRelief e slots = total 48 fun n =>
      if (slots[n]).state = .draining ∧ (slots[n]).drain.map Drain.target = some .shed then
        (e.profile n).peakW
      else 0 := by
  unfold shedRelief
  congr 1; funext n
  simp only [drainsToShed_iff]

/-- A change of record leaves the shed relief that its slots give. -/
theorem changeRecord_relief (e : Env) (n : Fin 48) (x : SlotRec) (r : Rack) :
    (changeRecord e n x r).acct.relief = shedRelief e (changeRecord e n x r).slots := by
  rw [changeRecord_slots]
  exact (followQueue_same e n (r.slots[n]).state x.state (takeRecord e n x r)).relief

theorem changeRecord_follows {e : Env} {r : Rack} (k : r.Follows e) (n : Fin 48) (x : SlotRec) :
    (changeRecord e n x r).Follows e := by
  have hg : ∀ i : Fin 48, (changeRecord e n x r).slots[i] = if n = i then x else r.slots[i] :=
    fun i => by rw [changeRecord_slots, put_get]
  refine ⟨?_, (changeRecord_relief e n x r).trans (shedRelief_eq e _), ?_, ?_, ?_⟩
  · have hd : ∀ i : Fin 48, drawOf e (changeRecord e n x r) i =
        stateDraw (e.profile i) (if n = i then x else r.slots[i]).state :=
      fun i => by unfold drawOf; rw [hg]
    have hm := total_move (drawOf e r) (drawOf e (changeRecord e n x r)) n fun i hi => by
      rw [hd, if_neg (Ne.symm hi)]; rfl
    have hn := hd n
    rw [if_pos rfl] at hn
    have hle : drawOf e r n ≤ total 48 (drawOf e r) := by
      rw [total_eq_sum]; exact Finset.single_le_sum (fun _ _ => Nat.zero_le _) (Finset.mem_univ n)
    rw [changeRecord_s, k.s]
    unfold moveDraw
    omega
  · have hm := total_move (fun i : Fin 48 => if (r.slots[i]).state.powered then 1 else 0)
      (fun i : Fin 48 => if ((changeRecord e n x r).slots[i]).state.powered then 1 else 0) n
      fun i hi => by simp only [hg]; rw [if_neg (Ne.symm hi)]
    have hle : (if (r.slots[n]).state.powered then 1 else 0) ≤
        total 48 fun i : Fin 48 => if (r.slots[i]).state.powered then 1 else 0 := by
      rw [total_eq_sum]
      exact Finset.single_le_sum (f := fun i : Fin 48 => if (r.slots[i]).state.powered then 1 else 0)
        (fun _ _ => Nat.zero_le _) (Finset.mem_univ n)
    rw [changeRecord_powered, k.powered, countOf_eq_total, countOf_eq_total]
    simp only [hg, if_true] at hm ⊢
    unfold movePowered
    cases h1 : (r.slots[n]).state.powered <;> cases h2 : x.state.powered <;>
      simp only [h1, h2, Bool.not_true, Bool.not_false, Bool.and_true, Bool.and_false, if_true,
        Bool.false_eq_true, if_false, Bool.and_self] at hm hle ⊢ <;> omega
  · rw [changeRecord_entries]
    split
    · refine (insertBy_perm _ _ _).nodup_iff.mpr (List.nodup_cons.mpr ⟨?_, k.nodup.filter _⟩)
      simp
    · split
      · exact k.nodup.filter _
      · exact k.nodup
  · intro i
    rw [changeRecord_entries, hg]
    by_cases hx : x.state = .queued
    · rw [if_pos hx, (insertBy_perm _ _ _).mem_iff]
      by_cases hi : n = i
      · subst hi; simp [hx]
      · rw [if_neg hi]
        simp only [List.mem_cons, List.mem_filter, bne_iff_ne, ne_eq, k.queued i]
        constructor
        · rintro (h | h)
          · exact absurd h.symm hi
          · exact h.1
        · exact fun h => .inr ⟨h, fun h' => hi h'.symm⟩
    · rw [if_neg hx]
      by_cases hi : n = i
      · subst hi
        rw [if_pos rfl]
        split
        · simp [hx]
        · rename_i ho; exact ⟨fun h => absurd ((k.queued n).mp h) ho, fun h => absurd h hx⟩
      · rw [if_neg hi]
        split
        · simp only [List.mem_filter, bne_iff_ne, ne_eq, k.queued i]
          exact ⟨fun h => h.1, fun h => ⟨h, fun h' => hi h'.symm⟩⟩
        · exact k.queued i

/-- The figures follow slots of the same states once the shed relief is taken afresh from them. -/
theorem Rack.Follows.relieved {e : Env} {a b : Rack} (k : a.Follows e)
    (hs : ∀ n : Fin 48, (b.slots[n]).state = (a.slots[n]).state) (h1 : b.acct.s = a.acct.s)
    (hr : b.acct.relief = shedRelief e b.slots) (h2 : b.grid.powered = a.grid.powered)
    (h3 : b.queue.entries = a.queue.entries) : b.Follows e := by
  refine ⟨?_, hr.trans (shedRelief_eq e _), ?_, h3 ▸ k.nodup, fun n => ?_⟩
  · rw [h1, k.s]; congr 1; funext n; unfold drawOf; rw [hs]
  · rw [h2, k.powered]; congr 1; funext n; rw [hs]
  · rw [h3, hs]; exact k.queued n

theorem Reach.follows {g : Prop} {e : Env} {a b : Rack} (h : Reach g e a b) (k : a.Follows e) : b.Follows e := by
  induction h with
  | refl => exact k
  | same _ s ih =>
    exact ih.congr (fun n => by rw [s.slots]) (fun n => by rw [s.slots]) s.s s.relief s.powered
      (by rw [s.entries])
  | changed n x _ _ ih => exact changeRecord_follows ih n x
  | noted n x _ hx hd ih =>
    refine ih.congr (fun m => ?_) (fun m => ?_) rfl rfl rfl (.refl _)
    · show ((put _ n x)[m]).state = _
      rw [put_get]
      split
      · rename_i h; subst h; exact hx.state
      · rfl
    · show ((put _ n x)[m]).drain = _
      rw [put_get]
      split
      · rename_i h; subst h; exact hd
      · rfl
  | amended n x _ hx ih =>
    refine ih.relieved (fun m => ?_) rfl rfl rfl rfl
    show ((put _ n x)[m]).state = _
    rw [put_get]
    split
    · rename_i h; subst h; exact hx.state
    · rfl
  | sorted _ ih =>
    have s := followHead_same e
    exact ih.congr (fun n => by rw [(s _).slots]) (fun n => by rw [(s _).slots]) (s _).s (s _).relief
      (s _).powered (by rw [(s _).entries]; exact sortBy_perm _ _)
  | raised _ _ _ _ _ ih | offered _ _ _ ih | logged _ _ _ ih | appended _ _ ih
  | listed _ _ _ ih | banked _ _ _ _ ih =>
    exact ih.congr (fun _ => rfl) (fun _ => rfl) rfl rfl rfl (.refl _)

/-! ### The order of the Start Queue -/

theorem Precedes.trans {e : Env} {v : Vector SlotRec 48} {a b c : Fin 48} (h : Precedes e v a b)
    (k : Precedes e v b c) : Precedes e v a c := by
  unfold Precedes at *
  omega

/-- What the queue's order puts first precedes. -/
theorem precedes_of_before {e : Env} {v : Vector SlotRec 48} {a b : Fin 48}
    (h : queueBefore e v a b = true) : Precedes e v a b := by
  unfold queueBefore at h
  unfold Precedes
  split at h
  · simp at h; omega
  · split at h <;> simp at h <;> omega

/-- What the queue's order does not put first is preceded. -/
theorem precedes_of_not_before {e : Env} {v : Vector SlotRec 48} {a b : Fin 48} (n : a ≠ b)
    (h : ¬ queueBefore e v a b = true) : Precedes e v b a := by
  have : a.val ≠ b.val := fun k => n (Fin.ext k)
  unfold queueBefore at h
  unfold Precedes
  split at h
  · simp at h; omega
  · split at h <;> simp at h <;> omega

theorem insertBy_order {e : Env} {v : Vector SlotRec 48} {n : Fin 48} {xs : List (Fin 48)}
    (h : xs.Pairwise (Precedes e v)) (k : n ∉ xs) :
    (insertBy (queueBefore e v) n xs).Pairwise (Precedes e v) := by
  induction xs with
  | nil => exact List.pairwise_singleton _ _
  | cons y ys ih =>
    rw [List.pairwise_cons] at h
    rw [List.mem_cons, not_or] at k
    unfold insertBy
    split
    · rename_i hb
      refine List.pairwise_cons.mpr ⟨fun z hz => ?_, List.pairwise_cons.mpr h⟩
      rcases List.mem_cons.mp hz with rfl | hz
      · exact precedes_of_before hb
      · exact (precedes_of_before hb).trans (h.1 z hz)
    · rename_i hb
      refine List.pairwise_cons.mpr ⟨fun z hz => ?_, ih h.2 k.2⟩
      rcases List.mem_cons.mp ((insertBy_perm _ n ys).mem_iff.mp hz) with rfl | hz
      · exact precedes_of_not_before k.1 hb
      · exact h.1 z hz

theorem sortBy_order {e : Env} {v : Vector SlotRec 48} {xs : List (Fin 48)} (h : xs.Nodup) :
    (sortBy (queueBefore e v) xs).Pairwise (Precedes e v) := by
  induction xs with
  | nil => exact List.Pairwise.nil
  | cons x xs ih =>
    rw [List.nodup_cons] at h
    exact insertBy_order (ih h.2) fun k => h.1 ((sortBy_perm _ xs).mem_iff.mp k)

/-- An order among slots whose queue times stand as before stands. -/
theorem order_congr {e : Env} {v w : Vector SlotRec 48} {xs : List (Fin 48)}
    (h : xs.Pairwise (Precedes e v))
    (k : ∀ n ∈ xs, (w[n]).queueTime = (v[n]).queueTime) : xs.Pairwise (Precedes e w) := by
  refine h.imp_of_mem fun ha hb p => ?_
  unfold Precedes queueAge at *
  rw [k _ ha, k _ hb]
  exact p

theorem changeRecord_order {e : Env} {r : Rack} (k : r.Follows e) (n : Fin 48) (x : SlotRec)
    (h : r.queue.entries.Pairwise (Precedes e r.slots)) :
    (changeRecord e n x r).queue.entries.Pairwise (Precedes e (changeRecord e n x r).slots) := by
  rw [changeRecord_entries, changeRecord_slots]
  have hf : (r.queue.entries.filter (· != n)).Pairwise (Precedes e (put r.slots n x)) := by
    refine order_congr (h.sublist List.filter_sublist) fun m hm => ?_
    have hm : m ≠ n := by simpa using (List.mem_filter.mp hm).2
    rw [put_other _ _ _ _ (Ne.symm hm)]
  split
  · exact insertBy_order hf (by simp)
  · split
    · exact hf
    · rename_i ho
      refine order_congr h fun m hm => ?_
      have hm : n ≠ m := fun e => ho (by rw [e]; exact (k.queued m).mp hm)
      rw [put_other _ _ _ _ hm]

/-- The moves of the rack's blocks keep the Start Queue in the order of R85. -/
theorem Reach.order {g : Prop} {e : Env} {a b : Rack} (h : Reach g e a b) (k : a.Follows e)
    (o : a.queue.entries.Pairwise (Precedes e a.slots)) :
    b.queue.entries.Pairwise (Precedes e b.slots) := by
  induction h with
  | refl => exact o
  | same _ s ih => rw [s.entries, s.slots]; exact ih
  | changed n x hr _ ih => exact changeRecord_order (hr.follows k) n x ih
  | noted n x _ hx _ ih | amended n x _ hx ih =>
    refine order_congr ih fun m _ => ?_
    show ((put _ n x)[m]).queueTime = _
    rw [put_get]
    split
    · rename_i h; subst h; exact hx.queueTime
    · rfl
  | sorted hr _ =>
    rw [(followHead_same e _).slots, (followHead_same e _).entries]
    exact sortBy_order (hr.follows k).nodup
  | raised | offered | logged | appended | listed | banked => assumption

theorem changeRecord_first (e : Env) (n : Fin 48) (x : SlotRec) (r : Rack)
    (h : r.queue.HeadFirst) : (changeRecord e n x r).queue.HeadFirst := by
  show (followQueue e n (r.slots[n]).state x.state (takeRecord e n x r)).queue.HeadFirst
  unfold followQueue joinQueue leaveQueue
  split
  · exact followHead_first ..
  · split
    · exact followHead_first ..
    · exact h

/-- The moves of the rack's blocks keep the head first in the Start Queue (R86). -/
theorem Reach.headFirst {g : Prop} {e : Env} {a b : Rack} (h : Reach g e a b)
    (k : a.queue.HeadFirst) : b.queue.HeadFirst := by
  induction h with
  | refl => exact k
  | same _ s ih => exact s.head ih
  | changed n x _ _ ih => exact changeRecord_first e n x _ ih
  | sorted => exact followHead_first ..
  | raised | offered | noted | amended | logged | appended | listed | banked => assumption

/-! ### Faults -/

/-- A fault that stands in a bank record has a severity of at most CRITICAL. -/
theorem severity_le (f : FaultKind) : f.severity ≤ 2 := by cases f <;> decide

theorem Bank.take_severity (b : Bank) (t : Time) (f : FaultKind) (n : Nat) (h : b.severity ≤ 2) :
    (b.take t f n).severity ≤ 2 := by
  have hf := severity_le f
  unfold Bank.take
  split
  · exact hf
  · split
    · exact hf
    · exact h

theorem Bank.take_critical (b : Bank) (t : Time) (f : FaultKind) (n : Nat) (h : b.severity ≤ 2) :
    (b.take t f n).critical = (b.critical || f.severity == 2) := by
  have hf := severity_le f
  unfold Bank.take Bank.critical
  split
  · rename_i k; simp at k; simp [k]
  · rename_i k
    have k : b.valid = true := by simpa using k
    split
    · have : ¬ b.severity = 2 := by omega
      simp [k, this]
    · rename_i k2
      have : f.severity = 2 → b.severity = 2 := by omega
      by_cases h2 : f.severity = 2 <;> simp [k, h2, this]

theorem vector_any_iff {α : Type} {k : Nat} (v : Vector α k) (p : α → Bool) :
    v.toList.any p = true ↔ ∃ i : Fin k, p v[i] = true := by
  rw [List.any_eq_true]
  constructor
  · rintro ⟨x, hx, hp⟩
    obtain ⟨i, hi, rfl⟩ := List.mem_iff_getElem.mp hx
    refine ⟨⟨i, by simpa using hi⟩, ?_⟩
    simpa using hp
  · rintro ⟨i, hp⟩
    refine ⟨v[i], ?_, hp⟩
    simp

theorem Faults.Kept.log {x : Faults} (h : x.Kept) (t : Time) (f : FaultKind) (n : Nat) :
    (x.log t f n).Kept := by
  unfold Faults.log change
  constructor
  · intro i
    show ((put x.banks f.bank ((x.banks[f.bank]).take t f n))[i]).severity ≤ 2
    rw [put_get]
    split
    · exact Bank.take_severity _ _ _ _ (h.severity _)
    · exact h.severity i
  · dsimp only
    rw [h.flag, Bool.eq_iff_iff, Bool.or_eq_true, vector_any_iff, vector_any_iff]
    constructor
    · rintro (⟨i, hi⟩ | hf)
      · refine ⟨i, ?_⟩
        rw [put_get]
        split
        · rename_i h'; subst h'
          rw [Bank.take_critical _ _ _ _ (h.severity _), hi]; rfl
        · exact hi
      · refine ⟨f.bank, ?_⟩
        rw [put_self, Bank.take_critical _ _ _ _ (h.severity _), hf, Bool.or_true]
    · rintro ⟨i, hi⟩
      rw [put_get] at hi
      split at hi
      · rename_i h'; subst h'
        rw [Bank.take_critical _ _ _ _ (h.severity _), Bool.or_eq_true] at hi
        exact hi.imp (fun h => ⟨_, h⟩) id
      · exact .inl ⟨i, hi⟩

theorem Reach.faults {g : Prop} {e : Env} {a b : Rack} (h : Reach g e a b) (k : a.faults.Kept) :
    b.faults.Kept := by
  induction h with
  | refl => exact k
  | same _ s ih => rw [s.faults]; exact ih
  | changed n x _ _ ih => rw [changeRecord_faults]; exact ih
  | logged f n _ ih => exact ih.log _ _ _
  | banked x _ h _ ih => exact h ih
  | sorted _ ih => rw [(followHead_same e _).faults]; exact ih
  | raised | offered | noted | amended | appended | listed => assumption

/-- Safe Hold, once on, stays on while no request leaves it (R176, R180). -/
theorem Reach.held {g : Prop} {e : Env} {a b : Rack} (h : Reach g e a b) (k : a.faults.held = true) :
    b.faults.held = true := by
  induction h with
  | refl => exact k
  | same _ s ih => rw [s.faults]; exact ih
  | changed n x _ _ ih => rw [changeRecord_faults]; exact ih
  | @logged b f n _ ih =>
    show ((b.faults.log e.now f n).hold).isSome = true
    unfold Faults.log
    dsimp only
    split
    · rfl
    · exact ih
  | banked x _ _ k ih => show x.hold.isSome = true; rw [k]; exact ih
  | sorted _ ih => rw [(followHead_same e _).faults]; exact ih
  | raised | offered | noted | amended | appended | listed => assumption

/-! ### Grants -/

/-- What every gate passing for a slot says of the part (R94, R96). -/
theorem gates_pass {e : Env} {r : Rack} {n : Fin 48} (h : firstFailing (gates e r n) = none) :
    e.commissioned = true ∧ e.firstWindow = true ∧ r.faults.held = false ∧
      e.slotZoneOpen n = true := by
  have hp := fun g hg => List.find?_eq_none.mp h g hg
  have h1 := hp (gate1 e r) (by simp [gates])
  have h3 := hp (gate3 e n) (by simp [gates])
  unfold gate1 at h1
  unfold gate3 at h3
  refine ⟨commissioned_of_gates e r n h, ?_, ?_, ?_⟩
  · by_contra hc
    apply h1
    rw [Bool.eq_false_iff.mpr hc]
    dsimp only
    split_ifs <;> simp_all
  · by_contra hc
    apply h1
    dsimp only
    split_ifs <;> simp_all
  · unfold Env.slotZoneOpen Env.zoneOpen
    split
    · rename_i z hz
      rw [hz] at h3
      simpa using h3
    · rfl

/-- A slot that comes to be powered by the moves of `Reach` had every gate passing for it: the part is
COMMISSIONED, the first window has passed, Safe Hold is off, and the slot's zone is open. -/
theorem Reach.powered {g : Prop} {e : Env} {a b : Rack} (h : Reach g e a b) (n : Fin 48)
    (k : (b.slots[n]).state.powered = true) :
    (a.slots[n]).state.powered = true ∨
      (g ∧ e.commissioned = true ∧ e.firstWindow = true ∧ a.faults.held = false ∧
        e.slotZoneOpen n = true) := by
  induction h with
  | refl => exact .inl k
  | same _ s ih => rw [s.slots] at k; exact ih k
  | @changed b m x hr hx ih =>
    rw [changeRecord_slots, put_get] at k
    split at k
    · rename_i h; subst h
      rcases hx.powers k with h | h
      · exact ih h
      · obtain ⟨h1, h2, h3, h4⟩ := gates_pass h.2
        refine .inr ⟨h.1, h1, h2, ?_, h4⟩
        by_contra hc
        have := hr.held (Bool.not_eq_false _ ▸ hc)
        rw [h3] at this; cases this
    · exact ih k
  | @noted b m x _ hx _ ih | @amended b m x _ hx ih =>
    replace k : ((put b.slots m x)[n]).state.powered = true := k
    rw [put_get] at k
    split at k
    · rename_i h; subst h; rw [hx.state] at k; exact ih k
    · exact ih k
  | sorted _ ih => rw [(followHead_same e _).slots] at k; exact ih k
  | raised _ _ _ _ _ ih | offered _ _ _ ih | logged _ _ _ ih | appended _ _ ih
  | listed _ _ _ ih | banked _ _ _ _ ih =>
    exact ih k

end Sys2Proof.Machine
end

