-- ==== Sys2Proof/Laws/Moves.lean ====
section
/-! SUPPORT. What an ordinary command does to the state, said once: `Moves g s t` says that t comes from
s by moves of the rack's blocks (`Reach`) and by changes beside them. The laws of Safety.lean survive
such moves. `Turn s t` says that t is s, or what `conclude` makes of such a run of moves. -/

namespace Sys2Proof.Machine

/-- u differs from t beside the rack's blocks, in nothing that decides a slot's draw or its form. -/
structure Beside (t u : State) : Prop where
  rack : u.rack = t.rack
  loaded : u.boot.loaded = t.boot.loaded
  adopting : u.boot.adopting = t.boot.adopting
  locked : u.cfg.locked = t.cfg.locked
  profiles : u.cfg.profiles = t.cfg.profiles
  sections : u.cfg.record.slots = t.cfg.record.slots
  rx : u.link.rx.length ≤ t.link.rx.length ∨ u.link.rx.length ≤ 4
  grace : GraceLaw t → GraceLaw u
  pace : PaceLaw t → PaceLaw u

/-- The moves of an ordinary command. -/
inductive Moves (g : Prop) (s : State) : State → Prop
  | refl : Moves g s s
  | rack {t : State} (r : Rack) : Moves g s t → Reach g t.env t.rack r → Moves g s { t with rack := r }
  | beside {t u : State} : Moves g s t → Beside t u → Moves g s u

theorem Moves.trans {g : Prop} {a b c : State} (h : Moves g a b) (k : Moves g b c) : Moves g a c := by
  induction k with
  | refl => exact h
  | rack r _ hr ih => exact ih.rack r hr
  | beside _ hb ih => exact ih.beside hb

theorem Takes.mono {g g' : Prop} (i : g → g') {e : Env} {r : Rack} {n : Fin 48} {x : SlotRec}
    (h : Takes g e r n x) : Takes g' e r n x :=
  ⟨h.formed, h.live, fun p => (h.powers p).imp id fun q => ⟨i q.1, q.2⟩⟩

theorem Reach.mono {g g' : Prop} (i : g → g') {e : Env} {a b : Rack} (h : Reach g e a b) :
    Reach g' e a b := by
  induction h with
  | refl => exact .refl _
  | same _ s ih => exact ih.same s
  | raised c k sub v _ ih => exact ih.raised c k sub v
  | offered p c _ ih => exact ih.offered p c
  | changed n x _ hx ih => exact ih.changed n x (hx.mono i)
  | noted n x _ hx hd ih => exact ih.noted n x hx hd
  | amended n x _ hx ih => exact ih.amended n x hx
  | logged f subject _ ih => exact ih.logged f subject
  | appended x _ ih => exact ih.appended x
  | sorted _ ih => exact ih.sorted
  | listed q _ h ih => exact ih.listed q h
  | banked x _ h k ih => exact ih.banked x h k

theorem Moves.mono {g g' : Prop} (i : g → g') {s t : State} (h : Moves g s t) : Moves g' s t := by
  induction h with
  | refl => exact .refl
  | rack r _ hr ih => exact ih.rack r (hr.mono i)
  | beside _ hb ih => exact ih.beside hb

/-- Moves after a change beside the rack. -/
theorem Moves.after {g : Prop} {a b c : State} (k : Moves g b c) (h : Beside a b) : Moves g a c :=
  (Moves.refl.beside h).trans k

/-! ### The laws survive -/

theorem Beside.env_profile {t u : State} (h : Beside t u) : u.env.profile = t.env.profile := by
  funext n
  show profileAt u.cfg (u.cfg.record.slots[n]).profile = profileAt t.cfg (t.cfg.record.slots[n]).profile
  unfold profileAt
  rw [h.profiles, h.sections]

theorem Follows_env {e e' : Env} {r : Rack} (h : e'.profile = e.profile) (k : r.Follows e) :
    r.Follows e' :=
  ⟨by rw [k.s]; congr 1; funext n; unfold drawOf; rw [h],
    by rw [k.relief]; congr 1; funext n; rw [h], k.powered, k.nodup, k.queued⟩

theorem Moves.locked {g : Prop} {s t : State} (h : Moves g s t) : t.cfg.locked = s.cfg.locked := by
  induction h with
  | refl => rfl
  | rack _ _ _ ih => exact ih
  | beside _ hb ih => rw [hb.locked, ih]

theorem Moves.form {g : Prop} {s t : State} (h : Moves g s t) (k : FormLaw s) : FormLaw t := by
  induction h with
  | refl => exact k
  | @rack t r _ hr ih =>
    intro n
    have hn := ih n
    show if t.boot.adopting = true then _ else _
    split at hn <;> rename_i ha
    · rw [if_pos ha]; exact hr.latched n hn
    · rw [if_neg ha]; exact hr.formed n hn
  | beside _ hb ih =>
    intro n
    have hn := ih n
    rw [← hb.rack, ← hb.adopting] at hn
    exact hn

theorem Moves.roster {g : Prop} {s t : State} (h : Moves g s t) (k : RosterLaw s) : RosterLaw t := by
  induction h with
  | refl => exact k
  | rack r _ hr ih =>
    exact ⟨ih.unloaded, fun hl n => hr.disabled hl n (ih.disabled hl n), hr.follows ih.follows⟩
  | beside _ hb ih =>
    refine ⟨fun hl => ?_, fun hl n => ?_, ?_⟩
    · rw [hb.locked]; exact ih.unloaded (hb.loaded ▸ hl)
    · rw [hb.rack]; exact ih.disabled (hb.locked ▸ hl) n
    · rw [hb.rack]; exact Follows_env hb.env_profile ih.follows

theorem Moves.bounds {g : Prop} {s t : State} (h : Moves g s t) (k : BoundsLaw s) : BoundsLaw t := by
  induction h with
  | refl => exact k
  | rack r _ hr ih => exact ⟨ih.rx, hr.notif_length ih.notif, hr.history_length ih.history⟩
  | beside _ hb ih =>
    exact ⟨hb.rx.elim (fun h => h.trans ih.rx) id, hb.rack ▸ ih.notif, hb.rack ▸ ih.history⟩

theorem Moves.oneEntry {g : Prop} {s t : State} (h : Moves g s t) (k : OneEntryLaw s) :
    OneEntryLaw t := by
  induction h with
  | refl => exact k
  | rack r _ hr ih => exact hr.one_entry ih
  | beside _ hb ih => unfold OneEntryLaw; rw [hb.rack]; exact ih

theorem Moves.grace {g : Prop} {s t : State} (h : Moves g s t) (k : GraceLaw s) : GraceLaw t := by
  induction h with
  | refl => exact k
  | rack r _ hr ih => exact ih
  | beside _ hb ih => exact hb.grace ih

theorem Moves.pace {g : Prop} {s t : State} (h : Moves g s t) (k : PaceLaw s) : PaceLaw t := by
  induction h with
  | refl => exact k
  | rack r _ hr ih => exact ih
  | beside _ hb ih => exact hb.pace ih

theorem Moves.fault {g : Prop} {s t : State} (h : Moves g s t) (k : FaultLaw s) : FaultLaw t := by
  induction h with
  | refl => exact k
  | rack r _ hr ih =>
    have := hr.faults ⟨ih.severity, ih.flag⟩
    exact ⟨this.severity, this.flag⟩
  | beside _ hb ih => exact ⟨hb.rack ▸ ih.severity, hb.rack ▸ ih.flag⟩

/-! ### The parts of a command -/

theorem onRack_moves {g : Prop} {s : State} {f : Env → Rack → Rack}
    (h : Reach g s.env s.rack (f s.env s.rack)) : Moves g s (s.onRack f) := Moves.refl.rack _ h

theorem Moves.onRack {g : Prop} {s t : State} (h : Moves g s t) {f : Env → Rack → Rack}
    (k : Reach g t.env t.rack (f t.env t.rack)) : Moves g s (t.onRack f) := h.rack _ k

/-- A change of the link alone that lengthens no receive queue. -/
theorem beside_link (s : State) (l : Link) (h : l.rx.length ≤ s.link.rx.length ∨ l.rx.length ≤ 4) :
    Beside s { s with link := l } := ⟨rfl, rfl, rfl, rfl, rfl, rfl, h, id, id⟩

theorem beside_store (s : State) (t : Store) (f : Nat) : Beside s { s with store := t, free := f } :=
  ⟨rfl, rfl, rfl, rfl, rfl, rfl, .inl (le_refl _), id, id⟩

theorem transmit_moves {g : Prop} (s : State) : Moves g s s.transmit := by
  unfold State.transmit
  split
  · split
    · exact .refl
    · split
      · exact Moves.refl.beside (beside_link s _ (.inl (le_refl _)))
      · exact Moves.refl.beside (beside_link s _ (.inl (le_refl _)))
      · exact .refl
  · exact .refl
  · exact .refl

theorem followStore_moves {g : Prop} (s : State) : Moves g s s.followStore := by
  have h : Moves g s { s with rack := { s.rack with todo := { s.rack.todo with battery := false } } } :=
    Moves.refl.rack _ ((Reach.refl _).todo _)
  exact h.beside (beside_store _ _ s.free)

theorem conclude_moves (s : State) : Moves True s s.conclude :=
  ((onRack_moves (finishRack_reach s.env s.rack)).trans (followStore_moves _)).trans (transmit_moves _)

/-- What an ordinary command answers: the state itself, or what `conclude` makes of moves among which
there is no grant. -/
inductive Turn (s : State) : State → Prop
  | still : Turn s s
  | acts {u : State} : Moves False s u → Turn s u.conclude

theorem Turn.moves {s t : State} (h : Turn s t) : Moves True s t := by
  cases h with
  | still => exact .refl
  | acts h => exact (h.mono False.elim).trans (conclude_moves _)

/-- A command answers a next state with a property. -/
def Ends (o : Outcome) (P : State → Prop) : Prop := ∃ t, o = .next t ∧ P t

theorem Ends.next {P : State → Prop} {t : State} (h : P t) : Ends (.next t) P := ⟨t, rfl, h⟩

theorem Ends.ite {P : State → Prop} {c : Prop} [Decidable c] {x y : Outcome} (hx : Ends x P)
    (hy : Ends y P) : Ends (if c then x else y) P := by split <;> assumption

theorem Ends.mono {P Q : State → Prop} {o : Outcome} (h : Ends o P) (i : ∀ t, P t → Q t) : Ends o Q :=
  let ⟨t, ho, hp⟩ := h; ⟨t, ho, i t hp⟩

/-! ### Requests -/

theorem take_beside (s : State) : Beside s s.take :=
  ⟨rfl, rfl, rfl, rfl, rfl, rfl, .inl (by simp [State.take]), id, id⟩

theorem reply_beside (s : State) (k t : Byte) (p : List Byte) : Beside s (s.reply k t p) :=
  ⟨rfl, rfl, rfl, rfl, rfl, rfl, .inl (le_refl _), id, id⟩

/-- A request's body makes moves without grants: so does the request. -/
theorem execute_turn {s : State} {early : Bool} {kind tag : Byte} {payload : List Byte}
    {body : State → State} (h : ∀ t, Moves False t (body t)) :
    Turn s (s.execute early kind tag payload body) := by
  have ht : Moves False s s.take := Moves.refl.beside (take_beside s)
  unfold State.execute
  dsimp only
  split
  · split
    · exact .acts (ht.beside (reply_beside ..))
    · split
      · exact .acts (ht.beside (reply_beside ..))
      · exact .acts (ht.trans (h _))
  · exact .still

theorem serve_turn {s : State} {early : Bool} {kind tag : Byte} {payload : List Byte}
    {body : State → Answer} (h : ∀ t, Moves False t (body t).1) :
    Turn s (s.serve early kind tag payload body) :=
  execute_turn fun t => (h t).beside (reply_beside ..)

/-- A request whose body may grant makes the body's moves and what concludes a step. -/
theorem serve_moves {s : State} {early : Bool} {kind tag : Byte} {payload : List Byte}
    {body : State → Answer} (h : ∀ t, Moves True t (body t).1) :
    Moves True s (s.serve early kind tag payload body) := by
  have ht : Moves True s s.take := Moves.refl.beside (take_beside s)
  unfold State.serve State.execute
  dsimp only
  split
  · split
    · exact (ht.beside (reply_beside ..)).trans (conclude_moves _)
    · split
      · exact (ht.beside (reply_beside ..)).trans (conclude_moves _)
      · exact ((ht.trans (h _)).beside (reply_beside ..)).trans (conclude_moves _)
  · exact .refl

theorem noPayload_moves {g : Prop} {payload : List Byte} {body : State → Answer} {s : State}
    (h : Moves g s (body s).1) : Moves g s (noPayload payload body s).1 := by
  unfold noPayload
  split
  · exact h
  · exact .refl

theorem indexed_moves {g : Prop} {k : Nat} {payload : List Byte} {body : Fin k → State → Answer}
    {s : State} (h : ∀ i, Moves g s (body i s).1) : Moves g s (indexed k payload body s).1 := by
  unfold indexed
  split
  · exact h _
  · exact .refl

theorem checked_moves {g : Prop} {bad : Bool} {code : Byte} {body : State → Answer} {s : State}
    (h : Moves g s (body s).1) : Moves g s (checked bad code body s).1 := by
  unfold checked
  split
  · exact .refl
  · exact h

end Sys2Proof.Machine
end

