-- ==== Sys2Proof/Laws/PerInstr.lean ====
section
/-! SUPPORT. A family of statements with one lemma per command: the payload of a command that the
surroundings can offer fits a frame of the rack link (R187). -/

namespace Sys2Proof.Laws.PayloadBound

/-- The payload of a well-formed request has at most 240 bytes, the most a frame carries (R187). -/
def Statement (i : Instr) : Prop :=
  i.wellFormed = true → ∀ p, i.payload? = some p → p.length ≤ 240

theorem of_wellFormed (i : Instr) : Statement i := by
  intro h p hp
  simp only [Instr.wellFormed, hp, Bool.and_eq_true, payloadFits, decide_eq_true_eq] at h
  exact h.2

theorem powerOn : Statement .powerOn := of_wellFormed _
theorem storeLoadComplete : Statement .storeLoadComplete := of_wellFormed _
theorem restartN : Statement .restartN := of_wellFormed _
theorem restartNRelease : Statement .restartNRelease := of_wellFormed _
theorem adoption (good : BitVec 48) : Statement (.adoption good) := of_wellFormed _
theorem timestampPin (target : PinTarget) : Statement (.timestampPin target) := of_wellFormed _
theorem strayByte (byte : Byte) : Statement (.strayByte byte) := of_wellFormed _
theorem frameEnd (bytes : List Byte) : Statement (.frameEnd bytes) := of_wellFormed _
theorem frameTimeout : Statement .frameTimeout := of_wellFormed _
theorem replySent : Statement .replySent := of_wellFormed _
theorem notificationSent : Statement .notificationSent := of_wellFormed _
theorem unknownKind (kind tag : Byte) (payload : List Byte) : Statement (.unknownKind kind tag payload) := of_wellFormed _
theorem identify (tag : Byte) (payload : List Byte) : Statement (.identify tag payload) := of_wellFormed _
theorem readRack (tag : Byte) (payload : List Byte) : Statement (.readRack tag payload) := of_wellFormed _
theorem readSlot (tag : Byte) (payload : List Byte) : Statement (.readSlot tag payload) := of_wellFormed _
theorem readModule (tag : Byte) (payload : List Byte) : Statement (.readModule tag payload) := of_wellFormed _
theorem readBattery (tag : Byte) (payload : List Byte) : Statement (.readBattery tag payload) := of_wellFormed _
theorem readZone (tag : Byte) (payload : List Byte) : Statement (.readZone tag payload) := of_wellFormed _
theorem readFaults (tag : Byte) (payload : List Byte) : Statement (.readFaults tag payload) := of_wellFormed _
theorem clearFault (tag : Byte) (payload : List Byte) : Statement (.clearFault tag payload) := of_wellFormed _
theorem slotOn (tag : Byte) (payload : List Byte) : Statement (.slotOn tag payload) := of_wellFormed _
theorem slotOff (tag : Byte) (payload : List Byte) : Statement (.slotOff tag payload) := of_wellFormed _
theorem slotCut (tag : Byte) (payload : List Byte) : Statement (.slotCut tag payload) := of_wellFormed _
theorem slotClear (tag : Byte) (payload : List Byte) : Statement (.slotClear tag payload) := of_wellFormed _
theorem rackStart (tag : Byte) (payload : List Byte) : Statement (.rackStart tag payload) := of_wellFormed _
theorem rackStop (tag : Byte) (payload : List Byte) : Statement (.rackStop tag payload) := of_wellFormed _
theorem stagePlan (tag : Byte) (payload : List Byte) : Statement (.stagePlan tag payload) := of_wellFormed _
theorem commitPlan (tag : Byte) (payload : List Byte) : Statement (.commitPlan tag payload) := of_wellFormed _
theorem discardPlan (tag : Byte) (payload : List Byte) : Statement (.discardPlan tag payload) := of_wellFormed _
theorem setProfile (tag : Byte) (payload : List Byte) : Statement (.setProfile tag payload) := of_wellFormed _
theorem setParam (tag : Byte) (payload : List Byte) : Statement (.setParam tag payload) := of_wellFormed _
theorem setLeakAction (tag : Byte) (payload : List Byte) : Statement (.setLeakAction tag payload) := of_wellFormed _
theorem leakClear (tag : Byte) (payload : List Byte) : Statement (.leakClear tag payload) := of_wellFormed _
theorem checkNow (tag : Byte) (payload : List Byte) : Statement (.checkNow tag payload) := of_wellFormed _
theorem setMask (tag : Byte) (payload : List Byte) : Statement (.setMask tag payload) := of_wellFormed _
theorem commissionWrite (tag : Byte) (payload : List Byte) : Statement (.commissionWrite tag payload) := of_wellFormed _
theorem commissionLock (tag : Byte) (payload : List Byte) : Statement (.commissionLock tag payload) := of_wellFormed _
theorem decommission (tag : Byte) (payload : List Byte) : Statement (.decommission tag payload) := of_wellFormed _
theorem saveConfig (tag : Byte) (payload : List Byte) : Statement (.saveConfig tag payload) := of_wellFormed _
theorem releaseHold (tag : Byte) (payload : List Byte) : Statement (.releaseHold tag payload) := of_wellFormed _
theorem restart (tag : Byte) (payload : List Byte) : Statement (.restart tag payload) := of_wellFormed _
theorem configWriteEnd (verified : Bool) : Statement (.configWriteEnd verified) := of_wellFormed _
theorem batteryWriteEnd (written : Bool) : Statement (.batteryWriteEnd written) := of_wellFormed _
theorem pollCycleBegin : Statement .pollCycleBegin := of_wellFormed _
theorem psuStatus (frame : List Byte) : Statement (.psuStatus frame) := of_wellFormed _
theorem buStatus (frame : List Byte) : Statement (.buStatus frame) := of_wellFormed _
theorem badFrame (frame : List Byte) : Statement (.badFrame frame) := of_wellFormed _
theorem responseWindowExpiry : Statement .responseWindowExpiry := of_wellFormed _
theorem goodRising (slot : Fin 48) (earlier later : Bool) : Statement (.goodRising slot earlier later) := of_wellFormed _
theorem goodFalling (slot : Fin 48) (earlier later : Bool) : Statement (.goodFalling slot earlier later) := of_wellFormed _
theorem parkedRising (slot : Fin 48) (earlier later : Bool) : Statement (.parkedRising slot earlier later) := of_wellFormed _
theorem parkedFalling (slot : Fin 48) (earlier later : Bool) : Statement (.parkedFalling slot earlier later) := of_wellFormed _
theorem goodDeadline (slot : Fin 48) : Statement (.goodDeadline slot) := of_wellFormed _
theorem drainDeadline (slot : Fin 48) : Statement (.drainDeadline slot) := of_wellFormed _
theorem gateTimer : Statement .gateTimer := of_wellFormed _
theorem startStalled : Statement .startStalled := of_wellFormed _
theorem qualifyTimer : Statement .qualifyTimer := of_wellFormed _
theorem controlPeriod : Statement .controlPeriod := of_wellFormed _
theorem frameBoundary : Statement .frameBoundary := of_wellFormed _
theorem checkDue (bu : Fin 12) : Statement (.checkDue bu) := of_wellFormed _
theorem sampleDeadline (bu : Fin 12) : Statement (.sampleDeadline bu) := of_wellFormed _
theorem leakSample (levels : Vector (BitVec 10) 16) : Statement (.leakSample levels) := of_wellFormed _
theorem graceExpiry (zone : Fin 8) : Statement (.graceExpiry zone) := of_wellFormed _
theorem frameBegin : Statement .frameBegin := of_wellFormed _

end Sys2Proof.Laws.PayloadBound
end

