-- ==== Sys2Proof/Laws/State.lean ====
section
/-! SUPPORT. One lemma for each field and each update of the state: what an operation leaves as it was,
and what it puts in place. All are true by unfolding, so that no later proof unfolds a record update. -/

namespace Sys2Proof.Machine

/-! ### An operation of the rack’s blocks -/

@[simp] theorem onRack_pending (s : State) (f : Env → Rack → Rack) :
    (s.onRack f).pending = s.pending := rfl

@[simp] theorem onRack_now (s : State) (f : Env → Rack → Rack) :
    (s.onRack f).now = s.now := rfl

@[simp] theorem onRack_boot (s : State) (f : Env → Rack → Rack) :
    (s.onRack f).boot = s.boot := rfl

@[simp] theorem onRack_cfg (s : State) (f : Env → Rack → Rack) :
    (s.onRack f).cfg = s.cfg := rfl

@[simp] theorem onRack_marks (s : State) (f : Env → Rack → Rack) :
    (s.onRack f).marks = s.marks := rfl

@[simp] theorem onRack_store (s : State) (f : Env → Rack → Rack) :
    (s.onRack f).store = s.store := rfl

@[simp] theorem onRack_link (s : State) (f : Env → Rack → Rack) :
    (s.onRack f).link = s.link := rfl

@[simp] theorem onRack_leak (s : State) (f : Env → Rack → Rack) :
    (s.onRack f).leak = s.leak := rfl

@[simp] theorem onRack_inputs (s : State) (f : Env → Rack → Rack) :
    (s.onRack f).inputs = s.inputs := rfl

@[simp] theorem onRack_free (s : State) (f : Env → Rack → Rack) :
    (s.onRack f).free = s.free := rfl

@[simp] theorem onRack_rack (s : State) (f : Env → Rack → Rack) :
    (s.onRack f).rack = f s.env s.rack := rfl

/-! ### Requests: the frame leaves the receive queue, the reply is placed -/

@[simp] theorem take_pending (s : State) :
    (s.take).pending = s.pending := rfl

@[simp] theorem take_now (s : State) :
    (s.take).now = s.now := rfl

@[simp] theorem take_boot (s : State) :
    (s.take).boot = s.boot := rfl

@[simp] theorem take_cfg (s : State) :
    (s.take).cfg = s.cfg := rfl

@[simp] theorem take_marks (s : State) :
    (s.take).marks = s.marks := rfl

@[simp] theorem take_store (s : State) :
    (s.take).store = s.store := rfl

@[simp] theorem take_leak (s : State) :
    (s.take).leak = s.leak := rfl

@[simp] theorem take_inputs (s : State) :
    (s.take).inputs = s.inputs := rfl

@[simp] theorem take_rack (s : State) :
    (s.take).rack = s.rack := rfl

@[simp] theorem take_free (s : State) :
    (s.take).free = s.free := rfl

@[simp] theorem take_rx (s : State) : s.take.link.rx = s.link.rx.drop 1 := rfl

@[simp] theorem take_rxState (s : State) :
    (s.take.link).rxState = s.link.rxState := rfl

@[simp] theorem take_holder (s : State) :
    (s.take.link).holder = s.link.holder := rfl

@[simp] theorem take_line (s : State) :
    (s.take.link).line = s.link.line := rfl

@[simp] theorem take_restartOwed (s : State) :
    (s.take.link).restartOwed = s.link.restartOwed := rfl

@[simp] theorem take_stray (s : State) :
    (s.take.link).stray = s.link.stray := rfl

@[simp] theorem take_lengthErrors (s : State) :
    (s.take.link).lengthErrors = s.link.lengthErrors := rfl

@[simp] theorem take_gaps (s : State) :
    (s.take.link).gaps = s.link.gaps := rfl

@[simp] theorem take_crcErrors (s : State) :
    (s.take.link).crcErrors = s.link.crcErrors := rfl

@[simp] theorem take_good (s : State) :
    (s.take.link).good = s.link.good := rfl

@[simp] theorem take_overruns (s : State) :
    (s.take.link).overruns = s.link.overruns := rfl

@[simp] theorem reply_pending (s : State) (k t : Byte) (p : List Byte) :
    (s.reply k t p).pending = s.pending := rfl

@[simp] theorem reply_now (s : State) (k t : Byte) (p : List Byte) :
    (s.reply k t p).now = s.now := rfl

@[simp] theorem reply_boot (s : State) (k t : Byte) (p : List Byte) :
    (s.reply k t p).boot = s.boot := rfl

@[simp] theorem reply_cfg (s : State) (k t : Byte) (p : List Byte) :
    (s.reply k t p).cfg = s.cfg := rfl

@[simp] theorem reply_marks (s : State) (k t : Byte) (p : List Byte) :
    (s.reply k t p).marks = s.marks := rfl

@[simp] theorem reply_store (s : State) (k t : Byte) (p : List Byte) :
    (s.reply k t p).store = s.store := rfl

@[simp] theorem reply_leak (s : State) (k t : Byte) (p : List Byte) :
    (s.reply k t p).leak = s.leak := rfl

@[simp] theorem reply_inputs (s : State) (k t : Byte) (p : List Byte) :
    (s.reply k t p).inputs = s.inputs := rfl

@[simp] theorem reply_rack (s : State) (k t : Byte) (p : List Byte) :
    (s.reply k t p).rack = s.rack := rfl

@[simp] theorem reply_free (s : State) (k t : Byte) (p : List Byte) :
    (s.reply k t p).free = s.free := rfl

@[simp] theorem reply_holder (s : State) (k t : Byte) (p : List Byte) :
    (s.reply k t p).link.holder = some ⟨replyKind k, t, p⟩ := rfl

@[simp] theorem reply_rxState (s : State) (k t : Byte) (p : List Byte) :
    ((s.reply k t p).link).rxState = s.link.rxState := rfl

@[simp] theorem reply_rx (s : State) (k t : Byte) (p : List Byte) :
    ((s.reply k t p).link).rx = s.link.rx := rfl

@[simp] theorem reply_line (s : State) (k t : Byte) (p : List Byte) :
    ((s.reply k t p).link).line = s.link.line := rfl

@[simp] theorem reply_restartOwed (s : State) (k t : Byte) (p : List Byte) :
    ((s.reply k t p).link).restartOwed = s.link.restartOwed := rfl

@[simp] theorem reply_stray (s : State) (k t : Byte) (p : List Byte) :
    ((s.reply k t p).link).stray = s.link.stray := rfl

@[simp] theorem reply_lengthErrors (s : State) (k t : Byte) (p : List Byte) :
    ((s.reply k t p).link).lengthErrors = s.link.lengthErrors := rfl

@[simp] theorem reply_gaps (s : State) (k t : Byte) (p : List Byte) :
    ((s.reply k t p).link).gaps = s.link.gaps := rfl

@[simp] theorem reply_crcErrors (s : State) (k t : Byte) (p : List Byte) :
    ((s.reply k t p).link).crcErrors = s.link.crcErrors := rfl

@[simp] theorem reply_good (s : State) (k t : Byte) (p : List Byte) :
    ((s.reply k t p).link).good = s.link.good := rfl

@[simp] theorem reply_overruns (s : State) (k t : Byte) (p : List Byte) :
    ((s.reply k t p).link).overruns = s.link.overruns := rfl

/-! ### The end of a command -/

@[simp] theorem followStore_pending (s : State) :
    (s.followStore).pending = s.pending := rfl

@[simp] theorem followStore_now (s : State) :
    (s.followStore).now = s.now := rfl

@[simp] theorem followStore_boot (s : State) :
    (s.followStore).boot = s.boot := rfl

@[simp] theorem followStore_cfg (s : State) :
    (s.followStore).cfg = s.cfg := rfl

@[simp] theorem followStore_marks (s : State) :
    (s.followStore).marks = s.marks := rfl

@[simp] theorem followStore_link (s : State) :
    (s.followStore).link = s.link := rfl

@[simp] theorem followStore_leak (s : State) :
    (s.followStore).leak = s.leak := rfl

@[simp] theorem followStore_inputs (s : State) :
    (s.followStore).inputs = s.inputs := rfl

@[simp] theorem followStore_free (s : State) :
    (s.followStore).free = s.free := rfl

@[simp] theorem followStore_bus (s : State) :
    (s.followStore.rack).bus = s.rack.bus := rfl

@[simp] theorem followStore_psu (s : State) :
    (s.followStore.rack).psu = s.rack.psu := rfl

@[simp] theorem followStore_bu (s : State) :
    (s.followStore.rack).bu = s.rack.bu := rfl

@[simp] theorem followStore_acct (s : State) :
    (s.followStore.rack).acct = s.rack.acct := rfl

@[simp] theorem followStore_slots (s : State) :
    (s.followStore.rack).slots = s.rack.slots := rfl

@[simp] theorem followStore_queue (s : State) :
    (s.followStore.rack).queue = s.rack.queue := rfl

@[simp] theorem followStore_grid (s : State) :
    (s.followStore.rack).grid = s.rack.grid := rfl

@[simp] theorem followStore_hold (s : State) :
    (s.followStore.rack).hold = s.rack.hold := rfl

@[simp] theorem followStore_rech (s : State) :
    (s.followStore.rack).rech = s.rack.rech := rfl

@[simp] theorem followStore_active (s : State) :
    (s.followStore.rack).active = s.rack.active := rfl

@[simp] theorem followStore_faults (s : State) :
    (s.followStore.rack).faults = s.rack.faults := rfl

@[simp] theorem followStore_notif (s : State) :
    (s.followStore.rack).notif = s.rack.notif := rfl

@[simp] theorem transmit_pending (s : State) :
    (s.transmit).pending = s.pending := by
  unfold State.transmit; split <;> (try split) <;> (try split) <;> rfl

@[simp] theorem transmit_now (s : State) :
    (s.transmit).now = s.now := by
  unfold State.transmit; split <;> (try split) <;> (try split) <;> rfl

@[simp] theorem transmit_boot (s : State) :
    (s.transmit).boot = s.boot := by
  unfold State.transmit; split <;> (try split) <;> (try split) <;> rfl

@[simp] theorem transmit_cfg (s : State) :
    (s.transmit).cfg = s.cfg := by
  unfold State.transmit; split <;> (try split) <;> (try split) <;> rfl

@[simp] theorem transmit_marks (s : State) :
    (s.transmit).marks = s.marks := by
  unfold State.transmit; split <;> (try split) <;> (try split) <;> rfl

@[simp] theorem transmit_store (s : State) :
    (s.transmit).store = s.store := by
  unfold State.transmit; split <;> (try split) <;> (try split) <;> rfl

@[simp] theorem transmit_leak (s : State) :
    (s.transmit).leak = s.leak := by
  unfold State.transmit; split <;> (try split) <;> (try split) <;> rfl

@[simp] theorem transmit_inputs (s : State) :
    (s.transmit).inputs = s.inputs := by
  unfold State.transmit; split <;> (try split) <;> (try split) <;> rfl

@[simp] theorem transmit_rack (s : State) :
    (s.transmit).rack = s.rack := by
  unfold State.transmit; split <;> (try split) <;> (try split) <;> rfl

@[simp] theorem transmit_free (s : State) :
    (s.transmit).free = s.free := by
  unfold State.transmit; split <;> (try split) <;> (try split) <;> rfl

@[simp] theorem transmit_rxState (s : State) :
    (s.transmit.link).rxState = s.link.rxState := by
  unfold State.transmit; split <;> (try split) <;> (try split) <;> rfl

@[simp] theorem transmit_rx (s : State) :
    (s.transmit.link).rx = s.link.rx := by
  unfold State.transmit; split <;> (try split) <;> (try split) <;> rfl

@[simp] theorem transmit_holder (s : State) :
    (s.transmit.link).holder = s.link.holder := by
  unfold State.transmit; split <;> (try split) <;> (try split) <;> rfl

@[simp] theorem transmit_restartOwed (s : State) :
    (s.transmit.link).restartOwed = s.link.restartOwed := by
  unfold State.transmit; split <;> (try split) <;> (try split) <;> rfl

@[simp] theorem transmit_stray (s : State) :
    (s.transmit.link).stray = s.link.stray := by
  unfold State.transmit; split <;> (try split) <;> (try split) <;> rfl

@[simp] theorem transmit_lengthErrors (s : State) :
    (s.transmit.link).lengthErrors = s.link.lengthErrors := by
  unfold State.transmit; split <;> (try split) <;> (try split) <;> rfl

@[simp] theorem transmit_gaps (s : State) :
    (s.transmit.link).gaps = s.link.gaps := by
  unfold State.transmit; split <;> (try split) <;> (try split) <;> rfl

@[simp] theorem transmit_crcErrors (s : State) :
    (s.transmit.link).crcErrors = s.link.crcErrors := by
  unfold State.transmit; split <;> (try split) <;> (try split) <;> rfl

@[simp] theorem transmit_good (s : State) :
    (s.transmit.link).good = s.link.good := by
  unfold State.transmit; split <;> (try split) <;> (try split) <;> rfl

@[simp] theorem transmit_overruns (s : State) :
    (s.transmit.link).overruns = s.link.overruns := by
  unfold State.transmit; split <;> (try split) <;> (try split) <;> rfl

@[simp] theorem conclude_pending (s : State) :
    (s.conclude).pending = s.pending := by
  simp only [State.conclude, transmit_pending, followStore_pending, onRack_pending]

@[simp] theorem conclude_now (s : State) :
    (s.conclude).now = s.now := by
  simp only [State.conclude, transmit_now, followStore_now, onRack_now]

@[simp] theorem conclude_boot (s : State) :
    (s.conclude).boot = s.boot := by
  simp only [State.conclude, transmit_boot, followStore_boot, onRack_boot]

@[simp] theorem conclude_cfg (s : State) :
    (s.conclude).cfg = s.cfg := by
  simp only [State.conclude, transmit_cfg, followStore_cfg, onRack_cfg]

@[simp] theorem conclude_marks (s : State) :
    (s.conclude).marks = s.marks := by
  simp only [State.conclude, transmit_marks, followStore_marks, onRack_marks]

@[simp] theorem conclude_leak (s : State) :
    (s.conclude).leak = s.leak := by
  simp only [State.conclude, transmit_leak, followStore_leak, onRack_leak]

@[simp] theorem conclude_inputs (s : State) :
    (s.conclude).inputs = s.inputs := by
  simp only [State.conclude, transmit_inputs, followStore_inputs, onRack_inputs]

@[simp] theorem conclude_free (s : State) :
    (s.conclude).free = s.free := by
  simp only [State.conclude, transmit_free, followStore_free, onRack_free]

@[simp] theorem conclude_rxState (s : State) :
    (s.conclude.link).rxState = s.link.rxState := by
  simp only [State.conclude, transmit_rxState, followStore_link, onRack_link]

@[simp] theorem conclude_rx (s : State) :
    (s.conclude.link).rx = s.link.rx := by
  simp only [State.conclude, transmit_rx, followStore_link, onRack_link]

@[simp] theorem conclude_holder (s : State) :
    (s.conclude.link).holder = s.link.holder := by
  simp only [State.conclude, transmit_holder, followStore_link, onRack_link]

@[simp] theorem conclude_restartOwed (s : State) :
    (s.conclude.link).restartOwed = s.link.restartOwed := by
  simp only [State.conclude, transmit_restartOwed, followStore_link, onRack_link]

@[simp] theorem conclude_stray (s : State) :
    (s.conclude.link).stray = s.link.stray := by
  simp only [State.conclude, transmit_stray, followStore_link, onRack_link]

@[simp] theorem conclude_lengthErrors (s : State) :
    (s.conclude.link).lengthErrors = s.link.lengthErrors := by
  simp only [State.conclude, transmit_lengthErrors, followStore_link, onRack_link]

@[simp] theorem conclude_gaps (s : State) :
    (s.conclude.link).gaps = s.link.gaps := by
  simp only [State.conclude, transmit_gaps, followStore_link, onRack_link]

@[simp] theorem conclude_crcErrors (s : State) :
    (s.conclude.link).crcErrors = s.link.crcErrors := by
  simp only [State.conclude, transmit_crcErrors, followStore_link, onRack_link]

@[simp] theorem conclude_good (s : State) :
    (s.conclude.link).good = s.link.good := by
  simp only [State.conclude, transmit_good, followStore_link, onRack_link]

@[simp] theorem conclude_overruns (s : State) :
    (s.conclude.link).overruns = s.link.overruns := by
  simp only [State.conclude, transmit_overruns, followStore_link, onRack_link]

/-! ### Zones -/

@[simp] theorem changeZone_pending (s : State) (z : Fin 8) (f : Zone → Zone) :
    (s.changeZone z f).pending = s.pending := rfl

@[simp] theorem changeZone_now (s : State) (z : Fin 8) (f : Zone → Zone) :
    (s.changeZone z f).now = s.now := rfl

@[simp] theorem changeZone_boot (s : State) (z : Fin 8) (f : Zone → Zone) :
    (s.changeZone z f).boot = s.boot := rfl

@[simp] theorem changeZone_cfg (s : State) (z : Fin 8) (f : Zone → Zone) :
    (s.changeZone z f).cfg = s.cfg := rfl

@[simp] theorem changeZone_marks (s : State) (z : Fin 8) (f : Zone → Zone) :
    (s.changeZone z f).marks = s.marks := rfl

@[simp] theorem changeZone_store (s : State) (z : Fin 8) (f : Zone → Zone) :
    (s.changeZone z f).store = s.store := rfl

@[simp] theorem changeZone_link (s : State) (z : Fin 8) (f : Zone → Zone) :
    (s.changeZone z f).link = s.link := rfl

@[simp] theorem changeZone_inputs (s : State) (z : Fin 8) (f : Zone → Zone) :
    (s.changeZone z f).inputs = s.inputs := rfl

@[simp] theorem changeZone_rack (s : State) (z : Fin 8) (f : Zone → Zone) :
    (s.changeZone z f).rack = s.rack := rfl

@[simp] theorem changeZone_free (s : State) (z : Fin 8) (f : Zone → Zone) :
    (s.changeZone z f).free = s.free := rfl

@[simp] theorem zoneRaised_pending (s : State) (z : Fin 8) :
    (s.zoneRaised z).pending = s.pending := rfl

@[simp] theorem zoneRaised_now (s : State) (z : Fin 8) :
    (s.zoneRaised z).now = s.now := rfl

@[simp] theorem zoneRaised_boot (s : State) (z : Fin 8) :
    (s.zoneRaised z).boot = s.boot := rfl

@[simp] theorem zoneRaised_cfg (s : State) (z : Fin 8) :
    (s.zoneRaised z).cfg = s.cfg := rfl

@[simp] theorem zoneRaised_marks (s : State) (z : Fin 8) :
    (s.zoneRaised z).marks = s.marks := rfl

@[simp] theorem zoneRaised_store (s : State) (z : Fin 8) :
    (s.zoneRaised z).store = s.store := rfl

@[simp] theorem zoneRaised_link (s : State) (z : Fin 8) :
    (s.zoneRaised z).link = s.link := rfl

@[simp] theorem zoneRaised_leak (s : State) (z : Fin 8) :
    (s.zoneRaised z).leak = s.leak := rfl

@[simp] theorem zoneRaised_inputs (s : State) (z : Fin 8) :
    (s.zoneRaised z).inputs = s.inputs := rfl

@[simp] theorem zoneRaised_free (s : State) (z : Fin 8) :
    (s.zoneRaised z).free = s.free := rfl

@[simp] theorem channelRaised_pending (s : State) (c : Fin 16) (n : Nat) :
    (s.channelRaised c n).pending = s.pending := rfl

@[simp] theorem channelRaised_now (s : State) (c : Fin 16) (n : Nat) :
    (s.channelRaised c n).now = s.now := rfl

@[simp] theorem channelRaised_boot (s : State) (c : Fin 16) (n : Nat) :
    (s.channelRaised c n).boot = s.boot := rfl

@[simp] theorem channelRaised_cfg (s : State) (c : Fin 16) (n : Nat) :
    (s.channelRaised c n).cfg = s.cfg := rfl

@[simp] theorem channelRaised_marks (s : State) (c : Fin 16) (n : Nat) :
    (s.channelRaised c n).marks = s.marks := rfl

@[simp] theorem channelRaised_store (s : State) (c : Fin 16) (n : Nat) :
    (s.channelRaised c n).store = s.store := rfl

@[simp] theorem channelRaised_link (s : State) (c : Fin 16) (n : Nat) :
    (s.channelRaised c n).link = s.link := rfl

@[simp] theorem channelRaised_leak (s : State) (c : Fin 16) (n : Nat) :
    (s.channelRaised c n).leak = s.leak := rfl

@[simp] theorem channelRaised_inputs (s : State) (c : Fin 16) (n : Nat) :
    (s.channelRaised c n).inputs = s.inputs := rfl

@[simp] theorem channelRaised_free (s : State) (c : Fin 16) (n : Nat) :
    (s.channelRaised c n).free = s.free := rfl

/-! ### The slot inputs -/

@[simp] theorem sawGood_pending (s : State) (n : Fin 48) :
    (s.sawGood n).pending = s.pending := rfl

@[simp] theorem sawGood_now (s : State) (n : Fin 48) :
    (s.sawGood n).now = s.now := rfl

@[simp] theorem sawGood_boot (s : State) (n : Fin 48) :
    (s.sawGood n).boot = s.boot := rfl

@[simp] theorem sawGood_cfg (s : State) (n : Fin 48) :
    (s.sawGood n).cfg = s.cfg := rfl

@[simp] theorem sawGood_marks (s : State) (n : Fin 48) :
    (s.sawGood n).marks = s.marks := rfl

@[simp] theorem sawGood_store (s : State) (n : Fin 48) :
    (s.sawGood n).store = s.store := rfl

@[simp] theorem sawGood_link (s : State) (n : Fin 48) :
    (s.sawGood n).link = s.link := rfl

@[simp] theorem sawGood_leak (s : State) (n : Fin 48) :
    (s.sawGood n).leak = s.leak := rfl

@[simp] theorem sawGood_rack (s : State) (n : Fin 48) :
    (s.sawGood n).rack = s.rack := rfl

@[simp] theorem sawGood_free (s : State) (n : Fin 48) :
    (s.sawGood n).free = s.free := rfl

@[simp] theorem sawParked_pending (s : State) (n : Fin 48) :
    (s.sawParked n).pending = s.pending := rfl

@[simp] theorem sawParked_now (s : State) (n : Fin 48) :
    (s.sawParked n).now = s.now := rfl

@[simp] theorem sawParked_boot (s : State) (n : Fin 48) :
    (s.sawParked n).boot = s.boot := rfl

@[simp] theorem sawParked_cfg (s : State) (n : Fin 48) :
    (s.sawParked n).cfg = s.cfg := rfl

@[simp] theorem sawParked_marks (s : State) (n : Fin 48) :
    (s.sawParked n).marks = s.marks := rfl

@[simp] theorem sawParked_store (s : State) (n : Fin 48) :
    (s.sawParked n).store = s.store := rfl

@[simp] theorem sawParked_link (s : State) (n : Fin 48) :
    (s.sawParked n).link = s.link := rfl

@[simp] theorem sawParked_leak (s : State) (n : Fin 48) :
    (s.sawParked n).leak = s.leak := rfl

@[simp] theorem sawParked_rack (s : State) (n : Fin 48) :
    (s.sawParked n).rack = s.rack := rfl

@[simp] theorem sawParked_free (s : State) (n : Fin 48) :
    (s.sawParked n).free = s.free := rfl

/-! ### Notifications, offers, phases and due counts -/

@[simp] theorem raise_bus (e : Env) (c : NotifClass) (k n v : Nat) (r : Rack) :
    (raise e c k n v r).bus = r.bus := rfl

@[simp] theorem raise_psu (e : Env) (c : NotifClass) (k n v : Nat) (r : Rack) :
    (raise e c k n v r).psu = r.psu := rfl

@[simp] theorem raise_bu (e : Env) (c : NotifClass) (k n v : Nat) (r : Rack) :
    (raise e c k n v r).bu = r.bu := rfl

@[simp] theorem raise_acct (e : Env) (c : NotifClass) (k n v : Nat) (r : Rack) :
    (raise e c k n v r).acct = r.acct := rfl

@[simp] theorem raise_slots (e : Env) (c : NotifClass) (k n v : Nat) (r : Rack) :
    (raise e c k n v r).slots = r.slots := rfl

@[simp] theorem raise_queue (e : Env) (c : NotifClass) (k n v : Nat) (r : Rack) :
    (raise e c k n v r).queue = r.queue := rfl

@[simp] theorem raise_grid (e : Env) (c : NotifClass) (k n v : Nat) (r : Rack) :
    (raise e c k n v r).grid = r.grid := rfl

@[simp] theorem raise_hold (e : Env) (c : NotifClass) (k n v : Nat) (r : Rack) :
    (raise e c k n v r).hold = r.hold := rfl

@[simp] theorem raise_rech (e : Env) (c : NotifClass) (k n v : Nat) (r : Rack) :
    (raise e c k n v r).rech = r.rech := rfl

@[simp] theorem raise_active (e : Env) (c : NotifClass) (k n v : Nat) (r : Rack) :
    (raise e c k n v r).active = r.active := rfl

@[simp] theorem raise_faults (e : Env) (c : NotifClass) (k n v : Nat) (r : Rack) :
    (raise e c k n v r).faults = r.faults := rfl

@[simp] theorem raise_todo (e : Env) (c : NotifClass) (k n v : Nat) (r : Rack) :
    (raise e c k n v r).todo = r.todo := rfl

@[simp] theorem offer_psu (e : Env) (p : Pos) (c : ShelfCmd) (r : Rack) :
    (offer e p c r).psu = r.psu := rfl

@[simp] theorem offer_bu (e : Env) (p : Pos) (c : ShelfCmd) (r : Rack) :
    (offer e p c r).bu = r.bu := rfl

@[simp] theorem offer_acct (e : Env) (p : Pos) (c : ShelfCmd) (r : Rack) :
    (offer e p c r).acct = r.acct := rfl

@[simp] theorem offer_slots (e : Env) (p : Pos) (c : ShelfCmd) (r : Rack) :
    (offer e p c r).slots = r.slots := rfl

@[simp] theorem offer_queue (e : Env) (p : Pos) (c : ShelfCmd) (r : Rack) :
    (offer e p c r).queue = r.queue := rfl

@[simp] theorem offer_grid (e : Env) (p : Pos) (c : ShelfCmd) (r : Rack) :
    (offer e p c r).grid = r.grid := rfl

@[simp] theorem offer_hold (e : Env) (p : Pos) (c : ShelfCmd) (r : Rack) :
    (offer e p c r).hold = r.hold := rfl

@[simp] theorem offer_rech (e : Env) (p : Pos) (c : ShelfCmd) (r : Rack) :
    (offer e p c r).rech = r.rech := rfl

@[simp] theorem offer_active (e : Env) (p : Pos) (c : ShelfCmd) (r : Rack) :
    (offer e p c r).active = r.active := rfl

@[simp] theorem offer_faults (e : Env) (p : Pos) (c : ShelfCmd) (r : Rack) :
    (offer e p c r).faults = r.faults := rfl

@[simp] theorem offer_notif (e : Env) (p : Pos) (c : ShelfCmd) (r : Rack) :
    (offer e p c r).notif = r.notif := rfl

@[simp] theorem offer_todo (e : Env) (p : Pos) (c : ShelfCmd) (r : Rack) :
    (offer e p c r).todo = r.todo := rfl

@[simp] theorem setPhase_bus (j : Fin 12) (p : CheckPhase) (d : Option Deadline) (r : Rack) :
    (setPhase j p d r).bus = r.bus := rfl

@[simp] theorem setPhase_psu (j : Fin 12) (p : CheckPhase) (d : Option Deadline) (r : Rack) :
    (setPhase j p d r).psu = r.psu := rfl

@[simp] theorem setPhase_acct (j : Fin 12) (p : CheckPhase) (d : Option Deadline) (r : Rack) :
    (setPhase j p d r).acct = r.acct := rfl

@[simp] theorem setPhase_slots (j : Fin 12) (p : CheckPhase) (d : Option Deadline) (r : Rack) :
    (setPhase j p d r).slots = r.slots := rfl

@[simp] theorem setPhase_queue (j : Fin 12) (p : CheckPhase) (d : Option Deadline) (r : Rack) :
    (setPhase j p d r).queue = r.queue := rfl

@[simp] theorem setPhase_grid (j : Fin 12) (p : CheckPhase) (d : Option Deadline) (r : Rack) :
    (setPhase j p d r).grid = r.grid := rfl

@[simp] theorem setPhase_hold (j : Fin 12) (p : CheckPhase) (d : Option Deadline) (r : Rack) :
    (setPhase j p d r).hold = r.hold := rfl

@[simp] theorem setPhase_rech (j : Fin 12) (p : CheckPhase) (d : Option Deadline) (r : Rack) :
    (setPhase j p d r).rech = r.rech := rfl

@[simp] theorem setPhase_active (j : Fin 12) (p : CheckPhase) (d : Option Deadline) (r : Rack) :
    (setPhase j p d r).active = r.active := rfl

@[simp] theorem setPhase_faults (j : Fin 12) (p : CheckPhase) (d : Option Deadline) (r : Rack) :
    (setPhase j p d r).faults = r.faults := rfl

@[simp] theorem setPhase_notif (j : Fin 12) (p : CheckPhase) (d : Option Deadline) (r : Rack) :
    (setPhase j p d r).notif = r.notif := rfl

@[simp] theorem setPhase_todo (j : Fin 12) (p : CheckPhase) (d : Option Deadline) (r : Rack) :
    (setPhase j p d r).todo = r.todo := rfl

@[simp] theorem setDue_bus (j : Fin 12) (n : Nat) (r : Rack) :
    (setDue j n r).bus = r.bus := rfl

@[simp] theorem setDue_psu (j : Fin 12) (n : Nat) (r : Rack) :
    (setDue j n r).psu = r.psu := rfl

@[simp] theorem setDue_acct (j : Fin 12) (n : Nat) (r : Rack) :
    (setDue j n r).acct = r.acct := rfl

@[simp] theorem setDue_slots (j : Fin 12) (n : Nat) (r : Rack) :
    (setDue j n r).slots = r.slots := rfl

@[simp] theorem setDue_queue (j : Fin 12) (n : Nat) (r : Rack) :
    (setDue j n r).queue = r.queue := rfl

@[simp] theorem setDue_grid (j : Fin 12) (n : Nat) (r : Rack) :
    (setDue j n r).grid = r.grid := rfl

@[simp] theorem setDue_hold (j : Fin 12) (n : Nat) (r : Rack) :
    (setDue j n r).hold = r.hold := rfl

@[simp] theorem setDue_rech (j : Fin 12) (n : Nat) (r : Rack) :
    (setDue j n r).rech = r.rech := rfl

@[simp] theorem setDue_active (j : Fin 12) (n : Nat) (r : Rack) :
    (setDue j n r).active = r.active := rfl

@[simp] theorem setDue_faults (j : Fin 12) (n : Nat) (r : Rack) :
    (setDue j n r).faults = r.faults := rfl

@[simp] theorem setDue_notif (j : Fin 12) (n : Nat) (r : Rack) :
    (setDue j n r).notif = r.notif := rfl

@[simp] theorem countAbort_bus (j : Fin 12) (r : Rack) :
    (countAbort j r).bus = r.bus := rfl

@[simp] theorem countAbort_psu (j : Fin 12) (r : Rack) :
    (countAbort j r).psu = r.psu := rfl

@[simp] theorem countAbort_acct (j : Fin 12) (r : Rack) :
    (countAbort j r).acct = r.acct := rfl

@[simp] theorem countAbort_slots (j : Fin 12) (r : Rack) :
    (countAbort j r).slots = r.slots := rfl

@[simp] theorem countAbort_queue (j : Fin 12) (r : Rack) :
    (countAbort j r).queue = r.queue := rfl

@[simp] theorem countAbort_grid (j : Fin 12) (r : Rack) :
    (countAbort j r).grid = r.grid := rfl

@[simp] theorem countAbort_hold (j : Fin 12) (r : Rack) :
    (countAbort j r).hold = r.hold := rfl

@[simp] theorem countAbort_rech (j : Fin 12) (r : Rack) :
    (countAbort j r).rech = r.rech := rfl

@[simp] theorem countAbort_active (j : Fin 12) (r : Rack) :
    (countAbort j r).active = r.active := rfl

@[simp] theorem countAbort_faults (j : Fin 12) (r : Rack) :
    (countAbort j r).faults = r.faults := rfl

@[simp] theorem countAbort_notif (j : Fin 12) (r : Rack) :
    (countAbort j r).notif = r.notif := rfl

@[simp] theorem countAbort_todo (j : Fin 12) (r : Rack) :
    (countAbort j r).todo = r.todo := rfl

/-! ### A change of grid state -/

@[simp] theorem moveGrid_bus (e : Env) (x : Grid) (l : Nat) (r : Rack) :
    (moveGrid e x l r).bus = r.bus := rfl

@[simp] theorem moveGrid_psu (e : Env) (x : Grid) (l : Nat) (r : Rack) :
    (moveGrid e x l r).psu = r.psu := rfl

@[simp] theorem moveGrid_bu (e : Env) (x : Grid) (l : Nat) (r : Rack) :
    (moveGrid e x l r).bu = r.bu := rfl

@[simp] theorem moveGrid_acct (e : Env) (x : Grid) (l : Nat) (r : Rack) :
    (moveGrid e x l r).acct = r.acct := rfl

@[simp] theorem moveGrid_slots (e : Env) (x : Grid) (l : Nat) (r : Rack) :
    (moveGrid e x l r).slots = r.slots := rfl

@[simp] theorem moveGrid_queue (e : Env) (x : Grid) (l : Nat) (r : Rack) :
    (moveGrid e x l r).queue = r.queue := rfl

@[simp] theorem moveGrid_hold (e : Env) (x : Grid) (l : Nat) (r : Rack) :
    (moveGrid e x l r).hold = r.hold := rfl

@[simp] theorem moveGrid_rech (e : Env) (x : Grid) (l : Nat) (r : Rack) :
    (moveGrid e x l r).rech = r.rech := rfl

@[simp] theorem moveGrid_active (e : Env) (x : Grid) (l : Nat) (r : Rack) :
    (moveGrid e x l r).active = r.active := rfl

@[simp] theorem moveGrid_faults (e : Env) (x : Grid) (l : Nat) (r : Rack) :
    (moveGrid e x l r).faults = r.faults := rfl

@[simp] theorem moveGrid_grid (e : Env) (x : Grid) (l : Nat) (r : Rack) :
    (moveGrid e x l r).grid = x := rfl

/-! ### The hold-up figures -/

@[simp] theorem evaluateFigures_bus (e : Env) (r : Rack) :
    (evaluateFigures e r).bus = r.bus := by
  unfold evaluateFigures; rfl

@[simp] theorem evaluateFigures_psu (e : Env) (r : Rack) :
    (evaluateFigures e r).psu = r.psu := by
  unfold evaluateFigures; rfl

@[simp] theorem evaluateFigures_bu (e : Env) (r : Rack) :
    (evaluateFigures e r).bu = r.bu := by
  unfold evaluateFigures; rfl

@[simp] theorem evaluateFigures_acct (e : Env) (r : Rack) :
    (evaluateFigures e r).acct = r.acct := by
  unfold evaluateFigures; rfl

@[simp] theorem evaluateFigures_slots (e : Env) (r : Rack) :
    (evaluateFigures e r).slots = r.slots := by
  unfold evaluateFigures; rfl

@[simp] theorem evaluateFigures_queue (e : Env) (r : Rack) :
    (evaluateFigures e r).queue = r.queue := by
  unfold evaluateFigures; rfl

@[simp] theorem evaluateFigures_grid (e : Env) (r : Rack) :
    (evaluateFigures e r).grid = r.grid := by
  unfold evaluateFigures; rfl

@[simp] theorem evaluateFigures_rech (e : Env) (r : Rack) :
    (evaluateFigures e r).rech = r.rech := by
  unfold evaluateFigures; rfl

@[simp] theorem evaluateFigures_active (e : Env) (r : Rack) :
    (evaluateFigures e r).active = r.active := by
  unfold evaluateFigures; rfl

@[simp] theorem evaluateFigures_faults (e : Env) (r : Rack) :
    (evaluateFigures e r).faults = r.faults := by
  unfold evaluateFigures; rfl

@[simp] theorem evaluateFigures_notif (e : Env) (r : Rack) :
    (evaluateFigures e r).notif = r.notif := by
  unfold evaluateFigures; rfl

/-! ### Faults -/

@[simp] theorem logFault_bus (e : Env) (f : FaultKind) (n : Nat) (r : Rack) :
    (logFault e f n r).bus = r.bus := by
  unfold logFault; dsimp only; split <;> split <;> rfl

@[simp] theorem logFault_psu (e : Env) (f : FaultKind) (n : Nat) (r : Rack) :
    (logFault e f n r).psu = r.psu := by
  unfold logFault; dsimp only; split <;> split <;> rfl

@[simp] theorem logFault_bu (e : Env) (f : FaultKind) (n : Nat) (r : Rack) :
    (logFault e f n r).bu = r.bu := by
  unfold logFault; dsimp only; split <;> split <;> rfl

@[simp] theorem logFault_acct (e : Env) (f : FaultKind) (n : Nat) (r : Rack) :
    (logFault e f n r).acct = r.acct := by
  unfold logFault; dsimp only; split <;> split <;> rfl

@[simp] theorem logFault_slots (e : Env) (f : FaultKind) (n : Nat) (r : Rack) :
    (logFault e f n r).slots = r.slots := by
  unfold logFault; dsimp only; split <;> split <;> rfl

@[simp] theorem logFault_queue (e : Env) (f : FaultKind) (n : Nat) (r : Rack) :
    (logFault e f n r).queue = r.queue := by
  unfold logFault; dsimp only; split <;> split <;> rfl

@[simp] theorem logFault_grid (e : Env) (f : FaultKind) (n : Nat) (r : Rack) :
    (logFault e f n r).grid = r.grid := by
  unfold logFault; dsimp only; split <;> split <;> rfl

@[simp] theorem logFault_hold (e : Env) (f : FaultKind) (n : Nat) (r : Rack) :
    (logFault e f n r).hold = r.hold := by
  unfold logFault; dsimp only; split <;> split <;> rfl

@[simp] theorem logFault_rech (e : Env) (f : FaultKind) (n : Nat) (r : Rack) :
    (logFault e f n r).rech = r.rech := by
  unfold logFault; dsimp only; split <;> split <;> rfl

@[simp] theorem logFault_active (e : Env) (f : FaultKind) (n : Nat) (r : Rack) :
    (logFault e f n r).active = r.active := by
  unfold logFault; dsimp only; split <;> split <;> rfl

@[simp] theorem logFault_faults (e : Env) (f : FaultKind) (n : Nat) (r : Rack) :
    (logFault e f n r).faults = r.faults.log e.now f n := by
  unfold logFault; dsimp only; split <;> split <;> rfl

/-! ### The arbiter -/

@[simp] theorem arbitrate_psu (e : Env) (r : Rack) :
    (arbitrate e r).psu = r.psu := by
  unfold arbitrate; split <;> (try split) <;> (try split) <;> rfl

@[simp] theorem arbitrate_bu (e : Env) (r : Rack) :
    (arbitrate e r).bu = r.bu := by
  unfold arbitrate; split <;> (try split) <;> (try split) <;> rfl

@[simp] theorem arbitrate_acct (e : Env) (r : Rack) :
    (arbitrate e r).acct = r.acct := by
  unfold arbitrate; split <;> (try split) <;> (try split) <;> rfl

@[simp] theorem arbitrate_slots (e : Env) (r : Rack) :
    (arbitrate e r).slots = r.slots := by
  unfold arbitrate; split <;> (try split) <;> (try split) <;> rfl

@[simp] theorem arbitrate_queue (e : Env) (r : Rack) :
    (arbitrate e r).queue = r.queue := by
  unfold arbitrate; split <;> (try split) <;> (try split) <;> rfl

@[simp] theorem arbitrate_grid (e : Env) (r : Rack) :
    (arbitrate e r).grid = r.grid := by
  unfold arbitrate; split <;> (try split) <;> (try split) <;> rfl

@[simp] theorem arbitrate_hold (e : Env) (r : Rack) :
    (arbitrate e r).hold = r.hold := by
  unfold arbitrate; split <;> (try split) <;> (try split) <;> rfl

@[simp] theorem arbitrate_rech (e : Env) (r : Rack) :
    (arbitrate e r).rech = r.rech := by
  unfold arbitrate; split <;> (try split) <;> (try split) <;> rfl

@[simp] theorem arbitrate_active (e : Env) (r : Rack) :
    (arbitrate e r).active = r.active := by
  unfold arbitrate; split <;> (try split) <;> (try split) <;> rfl

@[simp] theorem arbitrate_faults (e : Env) (r : Rack) :
    (arbitrate e r).faults = r.faults := by
  unfold arbitrate; split <;> (try split) <;> (try split) <;> rfl

@[simp] theorem arbitrate_notif (e : Env) (r : Rack) :
    (arbitrate e r).notif = r.notif := by
  unfold arbitrate; split <;> (try split) <;> (try split) <;> rfl

@[simp] theorem arbitrate_todo (e : Env) (r : Rack) :
    (arbitrate e r).todo = r.todo := by
  unfold arbitrate; split <;> (try split) <;> (try split) <;> rfl

/-! ### The slots, once a load or a reset has set them -/

@[simp] theorem loadSlots_bus (e : Env) (r : Rack) :
    (loadSlots e r).bus = r.bus := by simp only [loadSlots]

@[simp] theorem loadSlots_psu (e : Env) (r : Rack) :
    (loadSlots e r).psu = r.psu := by simp only [loadSlots]

@[simp] theorem loadSlots_bu (e : Env) (r : Rack) :
    (loadSlots e r).bu = r.bu := by simp only [loadSlots]

@[simp] theorem loadSlots_acct (e : Env) (r : Rack) :
    (loadSlots e r).acct = r.acct := by simp only [loadSlots]

@[simp] theorem loadSlots_queue (e : Env) (r : Rack) :
    (loadSlots e r).queue = r.queue := by simp only [loadSlots]

@[simp] theorem loadSlots_grid (e : Env) (r : Rack) :
    (loadSlots e r).grid = r.grid := by simp only [loadSlots]

@[simp] theorem loadSlots_hold (e : Env) (r : Rack) :
    (loadSlots e r).hold = r.hold := by simp only [loadSlots]

@[simp] theorem loadSlots_rech (e : Env) (r : Rack) :
    (loadSlots e r).rech = r.rech := by simp only [loadSlots]

@[simp] theorem loadSlots_active (e : Env) (r : Rack) :
    (loadSlots e r).active = r.active := by simp only [loadSlots]

@[simp] theorem loadSlots_faults (e : Env) (r : Rack) :
    (loadSlots e r).faults = r.faults := by simp only [loadSlots]

@[simp] theorem loadSlots_notif (e : Env) (r : Rack) :
    (loadSlots e r).notif = r.notif := by simp only [loadSlots]

@[simp] theorem loadSlots_todo (e : Env) (r : Rack) :
    (loadSlots e r).todo = r.todo := by simp only [loadSlots]

@[simp] theorem ofFn_slot {α : Type} {k : Nat} (f : Fin k → α) (i : Fin k) :
    (Vector.ofFn f)[i] = f i := by
  simp only [Fin.getElem_fin, Vector.getElem_ofFn]

theorem loadSlots_slots (e : Env) (r : Rack) (n : Fin 48) :
    (loadSlots e r).slots[n] =
      { r.slots[n] with
        state := if e.usable n then .off else .disabled, permit := false, warn := false } := by
  unfold loadSlots
  dsimp only
  rw [ofFn_slot]

theorem restart_slots (e : Env) (r : Rack) (n : Fin 48) :
    (r.restart e).slots[n] = (r.slots[n]).restart (e.usable n) := by
  unfold Rack.restart
  dsimp only
  rw [ofFn_slot]

@[simp] theorem loadTables_pending (s : State) :
    (s.loadTables).pending = s.pending := by simp only [State.loadTables]

@[simp] theorem loadTables_now (s : State) :
    (s.loadTables).now = s.now := by simp only [State.loadTables]

@[simp] theorem loadTables_store (s : State) :
    (s.loadTables).store = s.store := by simp only [State.loadTables]

@[simp] theorem loadTables_link (s : State) :
    (s.loadTables).link = s.link := by simp only [State.loadTables]

@[simp] theorem loadTables_leak (s : State) :
    (s.loadTables).leak = { s.leak with nextSample := some s.now } := by simp only [State.loadTables]

@[simp] theorem loadTables_inputs (s : State) :
    (s.loadTables).inputs = s.inputs := by simp only [State.loadTables]

@[simp] theorem loadTables_free (s : State) :
    (s.loadTables).free = s.free := by simp only [State.loadTables]

@[simp] theorem loadTables_bus (s : State) :
    (s.loadTables.rack).bus = s.rack.bus := by simp only [State.loadTables]

@[simp] theorem loadTables_acct (s : State) :
    (s.loadTables.rack).acct = s.rack.acct := by simp only [State.loadTables]

@[simp] theorem loadTables_slots (s : State) :
    (s.loadTables.rack).slots = s.rack.slots := by simp only [State.loadTables]

@[simp] theorem loadTables_queue (s : State) :
    (s.loadTables.rack).queue = s.rack.queue := by simp only [State.loadTables]

@[simp] theorem loadTables_grid (s : State) :
    (s.loadTables.rack).grid = s.rack.grid := by simp only [State.loadTables]

@[simp] theorem loadTables_hold (s : State) :
    (s.loadTables.rack).hold = s.rack.hold := by simp only [State.loadTables]

@[simp] theorem loadTables_rech (s : State) :
    (s.loadTables.rack).rech = s.rack.rech := by simp only [State.loadTables]

@[simp] theorem loadTables_active (s : State) :
    (s.loadTables.rack).active = s.rack.active := by simp only [State.loadTables]

@[simp] theorem loadTables_faults (s : State) :
    (s.loadTables.rack).faults = s.rack.faults := by simp only [State.loadTables]

@[simp] theorem loadTables_notif (s : State) :
    (s.loadTables.rack).notif = s.rack.notif := by simp only [State.loadTables]

@[simp] theorem loadTables_todo (s : State) :
    (s.loadTables.rack).todo = s.rack.todo := by simp only [State.loadTables]

@[simp] theorem warmRestart_pending (s : State) :
    (s.warmRestart).pending = s.pending := rfl

@[simp] theorem warmRestart_now (s : State) :
    (s.warmRestart).now = s.now := rfl

@[simp] theorem warmRestart_marks (s : State) :
    (s.warmRestart).marks = s.marks := rfl

@[simp] theorem warmRestart_leak (s : State) :
    (s.warmRestart).leak = s.leak := rfl

@[simp] theorem warmRestart_free (s : State) :
    (s.warmRestart).free = s.free := rfl

@[simp] theorem warmRestart_inputs (s : State) : s.warmRestart.inputs = firstSample s.now := rfl

@[simp] theorem sawGood_inputs (s : State) (n : Fin 48) :
    (s.sawGood n).inputs = { s.inputs with good := put s.inputs.good n 0 } := rfl

@[simp] theorem sawParked_inputs (s : State) (n : Fin 48) :
    (s.sawParked n).inputs = { s.inputs with parked := put s.inputs.parked n 0 } := rfl

/-! ### Store images -/

@[simp] theorem ConfigSlot.made_crcOk (n : Count32) (c : ConfigImage) :
    (ConfigSlot.made n c).crcOk = true := by simp [ConfigSlot.made, ConfigSlot.crcOk]

@[simp] theorem BatterySlot.made_crcOk (n : Count32) (c : Vector BatteryEntry 12) :
    (BatterySlot.made n c).crcOk = true := by simp [BatterySlot.made, BatterySlot.crcOk]

theorem wrongCrc_ne (free : Nat) (c : BitVec 16) : wrongCrc free c ≠ c := by
  unfold wrongCrc
  split
  · intro h
    have h := congrArg BitVec.toNat h
    rw [BitVec.toNat_not] at h
    omega
  · assumption

@[simp] theorem ConfigSlot.residue_crcOk (n : Nat) (c : ConfigImage) :
    (ConfigSlot.residue n c).crcOk = false := by
  simp [ConfigSlot.residue, ConfigSlot.crcOk, wrongCrc_ne]

@[simp] theorem BatterySlot.residue_crcOk (n : Nat) (c : Vector BatteryEntry 12) :
    (BatterySlot.residue n c).crcOk = false := by
  simp [BatterySlot.residue, BatterySlot.crcOk, wrongCrc_ne]

end Sys2Proof.Machine
end

