-- ==== Sys2Proof/Laws/Recharge.lean ====
section
/-! SUPPORT. What the Capacity Account and the Recharge Allocator leave of each other's figures: the
pool's update changes Rc alone of the Account, a shed selection changes nothing of the Allocator, and a
fall of the pool to 0 brings setpoints to 0 and nothing else of the BU records (R54, R56, R141). -/

namespace Sys2Proof.Machine

/-! ### A slot's change and the Allocator -/

/-- Two racks hold the same Allocator fields and the same Rc. -/
def SameRecharge (a b : Rack) : Prop := b.rech = a.rech ∧ b.acct.rc = a.acct.rc

theorem SameRecharge.refl (r : Rack) : SameRecharge r r := ⟨rfl, rfl⟩

theorem SameRecharge.trans {a b c : Rack} (h : SameRecharge a b) (k : SameRecharge b c) :
    SameRecharge a c := ⟨k.1.trans h.1, k.2.trans h.2⟩

theorem ite_sameRecharge {p : Prop} [Decidable p] {a b c : Rack} (h : SameRecharge a b)
    (k : SameRecharge a c) : SameRecharge a (if p then b else c) := by
  split <;> assumption

theorem followHead_sameRecharge (e : Env) (r : Rack) : SameRecharge r (followHead e r) := by
  unfold followHead
  split <;> exact ite_sameRecharge (.refl r) ⟨rfl, rfl⟩

theorem followQueue_sameRecharge (e : Env) (n : Fin 48) (old new : SlotState) (r : Rack) :
    SameRecharge r (followQueue e n old new r) := by
  have h : ∀ r', SameRecharge r r' → SameRecharge r (followHead e r') :=
    fun r' k => k.trans (followHead_sameRecharge e r')
  exact ite_sameRecharge (h _ ⟨rfl, rfl⟩) (ite_sameRecharge (h _ ⟨rfl, rfl⟩) (.refl r))

theorem changeRecord_sameRecharge (e : Env) (n : Fin 48) (x : SlotRec) (r : Rack) :
    SameRecharge r (changeRecord e n x r) := by
  have h : SameRecharge r (takeRecord e n x r) := ⟨rfl, rfl⟩
  exact (h.trans (followQueue_sameRecharge e n _ _ _)).trans ⟨rfl, rfl⟩

theorem endDrain_sameRecharge (e : Env) (n : Fin 48) (c : Cause) (r : Rack) :
    SameRecharge r (endDrain e n c r) := by
  unfold endDrain
  split
  · exact changeRecord_sameRecharge ..
  · exact .refl r

theorem beginDrain_sameRecharge (e : Env) (n : Fin 48) (q : DrainRequest) (r : Rack) :
    SameRecharge r (beginDrain e id n q r) := by
  unfold beginDrain
  dsimp only
  have h := changeRecord_sameRecharge e n { (r.slots[n]).enter e.now .draining q.cause with
    drain := some ⟨q.target, ⟨e.now, drainLength e n q⟩⟩ } r
  exact ite_sameRecharge (h.trans (endDrain_sameRecharge ..))
    (ite_sameRecharge (h.trans (endDrain_sameRecharge ..)) h)

theorem holdDrain_sameRecharge (e : Env) (n : Fin 48) (d : Drain) (r : Rack) :
    SameRecharge r (holdDrain e n d r) := by
  simp only [SameRecharge, holdDrain, raise_rech, raise_acct, and_self]

theorem amendDrain_sameRecharge (e : Env) (n : Fin 48) (q : DrainRequest) (r : Rack) :
    SameRecharge r (amendDrain e n q r) := by
  unfold amendDrain
  split
  · exact ite_sameRecharge (.refl r) (holdDrain_sameRecharge ..)
  · exact .refl r

/-- A drain request that a block makes leaves the Allocator's fields and Rc (R52, R70). -/
theorem drain_sameRecharge (e : Env) (q : DrainRequest) (n : Fin 48) (r : Rack) :
    SameRecharge r (drain e q n r) := by
  unfold drain drainWith
  split
  · exact beginDrain_sameRecharge ..
  · exact changeRecord_sameRecharge ..
  · exact amendDrain_sameRecharge ..
  · exact changeRecord_sameRecharge ..
  · exact changeRecord_sameRecharge ..
  · exact .refl r

theorem forEach_sameRecharge {α : Type} (f : α → Rack → Rack) (h : ∀ a r, SameRecharge r (f a r))
    (l : List α) (r : Rack) : SameRecharge r (forEach f l r) := by
  induction l generalizing r with
  | nil => exact .refl r
  | cons a l ih => exact (h a r).trans (ih _)

/-- A shed selection leaves the Allocator's fields and Rc (R58). -/
theorem shedSelection_sameRecharge (e : Env) (r : Rack) : SameRecharge r (shedSelection e r) := by
  unfold shedSelection
  dsimp only
  have h := forEach_sameRecharge (drain e .shed) (drain_sameRecharge e .shed) (selected e r) r
  exact ite_sameRecharge (h.trans ⟨rfl, rfl⟩) (h.trans ⟨rfl, rfl⟩)

/-! ### The Allocator's acts and the rest of the rack -/

/-- What the Allocator's acts leave of the rack: all but its own fields, the setpoints and the queue
entries of the BUs, Rc, and what is handed on. -/
def KeepsAccount (a b : Rack) : Prop :=
  b.psu = a.psu ∧ b.acct = { a.acct with rc := b.acct.rc } ∧ b.slots = a.slots ∧ b.queue = a.queue ∧
  b.grid = a.grid ∧ b.hold = a.hold ∧ b.active = a.active ∧ b.faults = a.faults ∧ b.notif = a.notif

theorem KeepsAccount.refl (r : Rack) : KeepsAccount r r := ⟨rfl, rfl, rfl, rfl, rfl, rfl, rfl, rfl, rfl⟩

theorem KeepsAccount.trans {a b c : Rack} (h : KeepsAccount a b) (k : KeepsAccount b c) :
    KeepsAccount a c := by
  obtain ⟨h1, h2, h3, h4, h5, h6, h7, h8, h9⟩ := h
  obtain ⟨k1, k2, k3, k4, k5, k6, k7, k8, k9⟩ := k
  refine ⟨k1.trans h1, ?_, k3.trans h3, k4.trans h4, k5.trans h5, k6.trans h6, k7.trans h7,
    k8.trans h8, k9.trans h9⟩
  rw [k2, h2]

theorem ite_keepsAccount {p : Prop} [Decidable p] {a b c : Rack} (h : KeepsAccount a b)
    (k : KeepsAccount a c) : KeepsAccount a (if p then b else c) := by
  split <;> assumption

theorem sendSetpoint_keepsAccount (e : Env) (j : Fin 12) (u : Nat) (r : Rack) :
    KeepsAccount r (sendSetpoint e j u r) := ⟨rfl, rfl, rfl, rfl, rfl, rfl, rfl, rfl, rfl⟩

theorem followRc_keepsAccount (r : Rack) : KeepsAccount r (followRc r) :=
  ite_keepsAccount (.refl r) ⟨rfl, rfl, rfl, rfl, rfl, rfl, rfl, rfl, rfl⟩

theorem sendSetpoints_keepsAccount (e : Env) (holds : Fin 12 → Bool) (p : Nat) (r : Rack) :
    KeepsAccount r (sendSetpoints e holds p r) := by
  unfold sendSetpoints
  generalize List.finRange 12 = l
  induction l generalizing r with
  | nil => exact .refl r
  | cons j l ih =>
    refine KeepsAccount.trans ?_ (ih _)
    dsimp only
    split
    · exact sendSetpoint_keepsAccount ..
    · exact ite_keepsAccount (sendSetpoint_keepsAccount ..) (.refl r)

/-- Sending setpoints leaves the Allocator's fields and Rc (R143). -/
theorem sendSetpoints_sameRecharge (e : Env) (holds : Fin 12 → Bool) (p : Nat) (r : Rack) :
    SameRecharge r (sendSetpoints e holds p r) := by
  refine forEach_sameRecharge _ (fun j r => ?_) _ r
  split
  · exact ⟨rfl, rfl⟩
  · exact ite_sameRecharge ⟨rfl, rfl⟩ (.refl r)

theorem followRc_rech (r : Rack) : (followRc r).rech = r.rech := by
  unfold followRc reportRc
  split <;> rfl

theorem followRc_rc (r : Rack) : (followRc r).acct.rc = rechargeDraw r.rech.members := by
  unfold followRc reportRc
  split
  · rename_i h; exact h.symm
  · rfl

/-- What a frame's start makes of the Allocator's fields (R142, R144). -/
theorem startFrame_rech (e : Env) (t : Time) (pool : Nat) (r : Rack) :
    (startFrame e t pool r).rech = { r.rech with
      pool := pool, frame := some ⟨t, 1⟩, carried := false
      members := (startFrame e t pool r).rech.members } := by
  unfold startFrame
  dsimp only
  rw [(sendSetpoints_sameRecharge ..).1, followRc_rech]

/-- A frame's start reports the Rc of its members (R54, R142). -/
theorem startFrame_rc (e : Env) (t : Time) (pool : Nat) (r : Rack) :
    (startFrame e t pool r).acct.rc = rechargeDraw (startFrame e t pool r).rech.members := by
  unfold startFrame
  dsimp only
  rw [(sendSetpoints_sameRecharge ..).2, (sendSetpoints_sameRecharge ..).1, followRc_rech, followRc_rc]

/-- A frame's start changes nothing of the Account but Rc (R54, R144). -/
theorem startFrame_keepsAccount (e : Env) (t : Time) (pool : Nat) (r : Rack) :
    KeepsAccount r (startFrame e t pool r) := by
  unfold startFrame
  dsimp only
  refine KeepsAccount.trans ?_ (sendSetpoints_keepsAccount ..)
  refine KeepsAccount.trans ?_ (followRc_keepsAccount _)
  exact ⟨rfl, rfl, rfl, rfl, rfl, rfl, rfl, rfl, rfl⟩

/-- The pool's update changes nothing of the Account but Rc (R54, R141). -/
theorem poolUpdate_keepsAccount (e : Env) (r : Rack) : KeepsAccount r (poolUpdate e r) := by
  unfold poolUpdate
  dsimp only
  have h : KeepsAccount r { r with rech.candidate := candidatePool e r } :=
    ⟨rfl, rfl, rfl, rfl, rfl, rfl, rfl, rfl, rfl⟩
  exact ite_keepsAccount (h.trans (startFrame_keepsAccount ..)) h

/-! ### A fall of the pool to 0 -/

/-- Every BU record is kept, or has its setpoint brought to 0 and is kept otherwise. -/
def Zeroed (a b : Rack) : Prop :=
  ∀ j : Fin 12, b.bu[j] = a.bu[j] ∨ b.bu[j] = { a.bu[j] with setpoint := 0 }

theorem Zeroed.of_eq {a b : Rack} (h : b.bu = a.bu) : Zeroed a b := fun j => .inl (by rw [h])

theorem Zeroed.trans {a b c : Rack} (h : Zeroed a b) (k : Zeroed b c) : Zeroed a c := by
  intro j
  rcases h j with h | h <;> rcases k j with k | k <;> simp [h, k]

theorem sendZero_zeroed (e : Env) (j : Fin 12) (r : Rack) : Zeroed r (sendSetpoint e j 0 r) := by
  intro k
  have h : (sendSetpoint e j 0 r).bu = put r.bu j { r.bu[j] with setpoint := 0 } := rfl
  by_cases hk : j = k
  · subst hk
    exact .inr (by simp [h, put])
  · have hv : j.val ≠ k.val := fun hv => hk (Fin.ext hv)
    exact .inl (by simp [h, put, hv])

theorem sendSetpoints_zeroed (e : Env) (holds : Fin 12 → Bool) (r : Rack)
    (h : ∀ (j : Fin 12) (x : Member), r.rech.members[j] = some x → x = memberOf 0) :
    Zeroed r (sendSetpoints e holds 1 r) := by
  unfold sendSetpoints
  generalize List.finRange 12 = l
  induction l generalizing r with
  | nil => exact .of_eq rfl
  | cons j l ih =>
    cases hm : r.rech.members[j] with
    | none =>
      simp only [forEach, hm]
      split
      · exact (sendZero_zeroed e j r).trans (ih _ h)
      · exact ih r h
    | some x =>
      simp only [forEach, hm]
      rw [h j x hm, show unitsIn 1 (memberOf 0) = 0 from rfl]
      exact (sendZero_zeroed e j r).trans (ih _ h)

/-- A frame that starts on a pool of 0 has members of share 0 alone (R142). -/
theorem formMembers_zero (e : Env) (r : Rack) (h : r.rech.pool = 0) (j : Fin 12) :
    (formMembers e r)[j] = if (r.bu[j]).joins then some (memberOf 0) else none := by
  simp [formMembers, shareOf, h]

/-- A frame that starts on a pool of 0 brings the BUs it reaches to 0 (R142, R143). -/
theorem startFrame_zeroed (e : Env) (t : Time) (r : Rack) : Zeroed r (startFrame e t 0 r) := by
  unfold startFrame
  dsimp only
  refine Zeroed.trans (.of_eq ?_) (sendSetpoints_zeroed e _ _ ?_)
  · unfold followRc reportRc
    split <;> rfl
  · intro j x hx
    rw [followRc_rech] at hx
    dsimp only at hx
    rw [formMembers_zero _ _ rfl] at hx
    split at hx
    · exact (Option.some.inj hx).symm
    · cases hx

/-- The pool's update in a shortfall (R56, R141). -/
theorem poolUpdate_zeroed (e : Env) (r : Rack) (h : r.acct.shortfall = true) :
    Zeroed r (poolUpdate e r) := by
  unfold poolUpdate
  dsimp only
  rw [show candidatePool e r = 0 by simp [candidatePool, h]]
  split
  · exact Zeroed.trans (.of_eq rfl) (startFrame_zeroed e e.now { r with rech.candidate := 0 })
  · exact .of_eq rfl

end Sys2Proof.Machine
end

