-- ==== Sys2Proof/Laws/Requests.lean ====
section
/-! SUPPORT. What the execution of a request answers: the checks before its own rule (R189, R190), and
the payload forms the requests share. -/

namespace Sys2Proof.Machine

/-! ### The checks before a request's own rule (R189, R190) -/

theorem State.execute_not {s : State} {early kind tag payload body}
    (h : s.executes ⟨kind, tag, payload⟩ = false) :
    s.execute early kind tag payload body = s := by
  unfold State.execute; rw [h]; rfl

theorem State.execute_zero {s : State} {early kind tag payload body}
    (h : s.executes ⟨kind, tag, payload⟩ = true) (ht : tag = 0) :
    s.execute early kind tag payload body = (s.take.reply kind tag [codeBadIndex]).conclude := by
  unfold State.execute; rw [if_pos h, if_pos ht]

theorem State.execute_busy {s : State} {kind tag payload body}
    (h : s.executes ⟨kind, tag, payload⟩ = true) (ht : tag ≠ 0) (hb : s.busy = true) :
    s.execute false kind tag payload body = (s.take.reply kind tag [codeBusy]).conclude := by
  have hb' : s.take.busy = true := hb
  unfold State.execute; rw [if_pos h, if_neg ht]; simp [hb']

theorem State.execute_early {s : State} {kind tag payload body}
    (h : s.executes ⟨kind, tag, payload⟩ = true) (ht : tag ≠ 0) :
    s.execute true kind tag payload body = (body s.take).conclude := by
  unfold State.execute; rw [if_pos h, if_neg ht]; simp

theorem State.execute_ready {s : State} {early kind tag payload body}
    (h : Ready s kind tag payload) :
    s.execute early kind tag payload body = (body s.take).conclude := by
  have hb' : s.take.busy = false := h.free
  unfold State.execute; rw [if_pos h.first, if_neg h.tag]; simp [hb']

theorem State.serve_ready {s : State} {early kind tag payload body}
    (h : Ready s kind tag payload) :
    s.serve early kind tag payload body
      = ((body s.take).1.reply kind tag (body s.take).2).conclude :=
  State.execute_ready h

theorem State.serve_early {s : State} {kind tag payload body}
    (h : s.executes ⟨kind, tag, payload⟩ = true) (ht : tag ≠ 0) :
    s.serve true kind tag payload body
      = ((body s.take).1.reply kind tag (body s.take).2).conclude :=
  State.execute_early h ht

/-! ### Payload forms -/

theorem toNat_u8 {n : Nat} (h : n < 256) : (BitVec.ofNat 8 n).toNat = n := by
  simp only [BitVec.toNat_ofNat]; omega

theorem fromBytes_u16 {n : Nat} (h : n < 65536) : fromBytes (u16 n) = n := by
  simp only [fromBytes, u16, List.foldl, BitVec.toNat_ofNat]; omega

theorem fromBytes_u32 {n : Nat} (h : n < 4294967296) : fromBytes (u32 n) = n := by
  simp only [fromBytes, u32, List.foldl, BitVec.toNat_ofNat]; omega

/-- A payload of one index below the bound reaches the body with that index. -/
theorem indexed_u8 {k : Nat} (hk : k ≤ 256) (i : Fin k) (body : Fin k → State → Answer) (s : State) :
    indexed k (u8 i.val) body s = body i s := by
  have h : (BitVec.ofNat 8 i.val).toNat = i.val := toNat_u8 (by omega)
  simp only [indexed, u8, oneIndex, h, i.isLt, dif_pos]

/-- A payload that is not one byte is answered BAD_LENGTH. -/
theorem indexed_length {k : Nat} {payload : List Byte} (h : payload.length ≠ 1)
    (body : Fin k → State → Answer) (s : State) :
    indexed k payload body s = s.answer codeBadLength [] := by
  match payload with
  | [] => rfl
  | [_] => exact absurd rfl h
  | _ :: _ :: _ => rfl

/-- An index at or above the bound is answered BAD_INDEX. -/
theorem indexed_bad {k : Nat} {b : Byte} (h : k ≤ b.toNat) (body : Fin k → State → Answer)
    (s : State) : indexed k [b] body s = s.answer codeBadIndex [] := by
  simp only [indexed, oneIndex, Nat.not_lt.mpr h, dif_neg, not_false_eq_true]

theorem noPayload_nil (body : State → Answer) (s : State) : noPayload [] body s = body s := rfl

theorem noPayload_ne {payload : List Byte} (h : payload ≠ []) (body : State → Answer) (s : State) :
    noPayload payload body s = s.answer codeBadLength [] := by
  cases payload with
  | nil => exact absurd rfl h
  | cons => rfl

theorem checked_true (code : Byte) (body : State → Answer) (s : State) :
    checked true code body s = s.answer code [] := rfl

theorem checked_false (code : Byte) (body : State → Answer) (s : State) :
    checked false code body s = body s := rfl

end Sys2Proof.Machine
end

