-- ==== Sys2Proof/Laws/Turns.lean ====
section
/-! SUPPORT. Every ordinary command as a `Turn`: the commands that change neither the lock state, the
SLOT sections and profiles, nor the tables as a reset or an adoption does. START_STALLED and SET_PARAM
evaluate the head within their own effect, and are runs of `Moves` with a grant among them. Time that passes, and
a store load, keep the pace of the leak samples. -/

namespace Sys2Proof.Machine

variable {g : Prop}

theorem answered {s t : State} {c : Byte} {x : List Byte} (h : Moves g s t) :
    Moves g s (t.answer c x).1 := h

/-! ### Requests that read -/

theorem execIdentify_turn (tag : Byte) (p : List Byte) (s : State) :
    Ends (execIdentify tag p s) (Turn s) :=
  .next (serve_turn fun t => by unfold identifyBody; split <;> exact .refl)

theorem execReadRack_turn (tag : Byte) (p : List Byte) (s : State) :
    Ends (execReadRack tag p s) (Turn s) := .next (serve_turn fun _ => indexed_moves fun _ => .refl)

theorem execReadSlot_turn (tag : Byte) (p : List Byte) (s : State) :
    Ends (execReadSlot tag p s) (Turn s) := .next (serve_turn fun _ => indexed_moves fun _ => .refl)

theorem execReadModule_turn (tag : Byte) (p : List Byte) (s : State) :
    Ends (execReadModule tag p s) (Turn s) := .next (serve_turn fun _ => indexed_moves fun _ => .refl)

theorem execReadBattery_turn (tag : Byte) (p : List Byte) (s : State) :
    Ends (execReadBattery tag p s) (Turn s) := .next (serve_turn fun _ => indexed_moves fun _ => .refl)

theorem execReadZone_turn (tag : Byte) (p : List Byte) (s : State) :
    Ends (execReadZone tag p s) (Turn s) := .next (serve_turn fun _ => indexed_moves fun _ => .refl)

theorem execReadFaults_turn (tag : Byte) (p : List Byte) (s : State) :
    Ends (execReadFaults tag p s) (Turn s) := .next (serve_turn fun _ => noPayload_moves .refl)

theorem execUnknownKind_turn (k tag : Byte) (p : List Byte) (s : State) :
    Ends (execUnknownKind k tag p s) (Turn s) := by
  unfold execUnknownKind
  refine .next ?_
  split
  · exact .still
  · exact serve_turn fun t => .refl

/-! ### Faults and notifications -/

theorem critical_iff (x : Faults) :
    x.critical.isSome = x.banks.toList.any Bank.critical := by
  rw [Bool.eq_iff_iff, vector_any_iff]
  unfold Faults.critical Bank.critical
  rw [List.find?_isSome]
  exact ⟨fun ⟨i, _, h⟩ => ⟨i, h⟩, fun ⟨i, h⟩ => ⟨i, List.mem_finRange i, h⟩⟩

theorem Faults.Kept.empty {x : Faults} (h : x.Kept) (b : Fin 6) : (x.empty b).Kept := by
  constructor
  · intro i
    show ((put x.banks b emptyBank)[i]).severity ≤ 2
    rw [put_get]
    split
    · decide
    · exact h.severity i
  · show (x.inProgress && _) = (put x.banks b emptyBank).toList.any Bank.critical
    rw [critical_iff]
    show (x.inProgress && (put x.banks b emptyBank).toList.any Bank.critical) = _
    rw [h.flag, Bool.eq_iff_iff, Bool.and_eq_true, vector_any_iff, vector_any_iff]
    refine ⟨fun h => h.2, fun ⟨i, hi⟩ => ⟨⟨i, ?_⟩, ⟨i, hi⟩⟩⟩
    rw [put_get] at hi
    split at hi
    · cases hi
    · exact hi

theorem emptyOne_reach (e : Env) (b : Fin 6) (r : Rack) : Reach g e r (emptyOne e b r) := by
  unfold emptyOne
  dsimp only
  have h : Reach g e r { r with faults := r.faults.empty b } :=
    (Reach.refl r).banked _ (fun k => k.empty b) rfl
  exact ite_reach (Reach.raised _ _ _ _ h) h

theorem execClearFault_turn (tag : Byte) (p : List Byte) (s : State) :
    Ends (execClearFault tag p s) (Turn s) :=
  .next (serve_turn fun t => indexed_moves fun b => by
    unfold clearFaultBody
    exact answered (onRack_moves (emptyOne_reach t.env b t.rack)))

theorem summarise_length (q : NotifQueue) (t : Time) (c : NotifClass)
    (h : q.entries.length ≤ 32) : (q.summarise t c).entries.length ≤ 32 := by
  unfold NotifQueue.summarise
  split
  · rename_i k
    unfold NotifQueue.owes Config.notifQueueMax at k
    have k : q.entries.length < 32 := by simp only [Bool.and_eq_true, decide_eq_true_eq] at k; exact k.2
    simp only [List.length_append, List.length_singleton]
    omega
  · exact h

theorem summaries_length (q : NotifQueue) (t : Time) (h : q.entries.length ≤ 32) :
    (q.summaries t).entries.length ≤ 32 := by
  unfold NotifQueue.summaries
  have key : ∀ (cs : List NotifClass) (q : NotifQueue), q.entries.length ≤ 32 →
      (forEach (fun c q => q.summarise t c) cs q).entries.length ≤ 32 := by
    intro cs
    induction cs with
    | nil => exact fun _ h => h
    | cons c cs ih => exact fun q h => ih _ (summarise_length q t c h)
  exact key _ q h

theorem execSetMask_turn (tag : Byte) (p : List Byte) (s : State) :
    Ends (execSetMask tag p s) (Turn s) := by
  refine .next (serve_turn fun t => ?_)
  unfold setMaskBody
  split
  · exact Moves.refl.rack _ ((Reach.refl _).listed _ fun h => summaries_length _ _ h)
  · exact .refl

theorem execRestart_turn (tag : Byte) (p : List Byte) (s : State) :
    Ends (execRestart tag p s) (Turn s) :=
  .next (serve_turn fun t => noPayload_moves
    (Moves.refl.beside (beside_link t _ (.inl (le_refl _)))))

/-! ### Slot lists -/

theorem run_reach {f : SlotRule} {e : Env}
    (h : ∀ n r, f.result e r n = .accepted → Reach g e r (f.effect e n r)) :
    ∀ (bs : List Byte) (t : Tally) (r : Rack), Reach g e r (f.run e bs t r).2
  | [], _, r => .refl r
  | b :: bs, t, r => by
    refine Reach.trans (b := f.handle e b r) ?_ (run_reach h bs _ _)
    unfold SlotRule.handle
    split
    · rename_i hj
      unfold SlotRule.judge at hj
      by_cases hc : (!e.commissioned) = true
      · rw [if_pos hc] at hj; cases hj
      · rw [if_neg hc] at hj
        split at hj
        · rename_i hlt
          rw [dif_pos hlt]
          split at hj
          · exact (h _ r hj).trans (handOn_reach e _)
          · cases hj
        · cases hj
    · exact .refl r

theorem slotList_moves {f : SlotRule} {p : List Byte} {s : State}
    (h : ∀ n r, f.result s.env r n = .accepted → Reach g s.env r (f.effect s.env n r)) :
    Moves g s (slotList f p s).1 := by
  unfold slotList
  split
  · exact Moves.refl.rack _ (run_reach h p _ _)
  · exact .refl

theorem slotOn_reach (e : Env) (n : Fin 48) (r : Rack) (h : slotOnRule.result e r n = .accepted) :
    Reach g e r (slotOnRule.effect e n r) := by
  refine enter_reach e n _ _ r (.inl fun hd => ?_) rfl
  have h : slotOnResult e r n = .accepted := h
  unfold slotOnResult at h
  rw [hd] at h; cases h

theorem execSlotOn_turn (tag : Byte) (p : List Byte) (s : State) :
    Ends (execSlotOn tag p s) (Turn s) := by
  refine .next (serve_turn fun t => ?_)
  unfold slotOnBody
  split
  · exact checked_moves (slotList_moves fun n r h => slotOn_reach _ n r h)
  · exact .refl

theorem slotOff_reach (e : Env) (n : Fin 48) (r : Rack) : Reach g e r (slotOff e n r) := by
  unfold slotOff
  split
  · rename_i h; exact enter_reach e n _ _ r (.inl (by rw [h]; exact fun h => by cases h)) rfl
  · rename_i h; exact enter_reach e n _ _ r (.inl (by rw [h]; exact fun h => by cases h)) rfl
  all_goals exact drainInTurn_reach ..

theorem execSlotOff_turn (tag : Byte) (p : List Byte) (s : State) :
    Ends (execSlotOff tag p s) (Turn s) :=
  .next (serve_turn fun _ => slotList_moves fun n r _ => slotOff_reach _ n r)

theorem cutState_unpowered (x : SlotRec) : x.cutState.powered = false := by
  unfold SlotRec.cutState
  split
  · split <;> rfl
  · rfl

theorem execSlotCut_turn (tag : Byte) (p : List Byte) (s : State) :
    Ends (execSlotCut tag p s) (Turn s) := by
  refine .next (serve_turn fun t => slotList_moves fun n r h => ?_)
  refine enter_reach _ n _ _ r (.inl fun hd => ?_) (cutState_unpowered _)
  have h : slotCutResult t.env r n = .accepted := h
  unfold slotCutResult at h
  rw [hd] at h; cases h

theorem clearedState_unpowered (e : Env) (n : Fin 48) : (clearedState e n).powered = false := by
  unfold clearedState
  split
  · rfl
  · split <;> rfl

theorem execSlotClear_turn (tag : Byte) (p : List Byte) (s : State) :
    Ends (execSlotClear tag p s) (Turn s) := by
  refine .next (serve_turn fun t => slotList_moves fun n r h => ?_)
  refine enter_reach _ n _ _ r (.inl fun hd => ?_) (clearedState_unpowered _ _)
  have h : slotClearResult t.env r n = .accepted := h
  unfold slotClearResult at h
  rw [hd] at h; cases h

theorem execRackStart_turn (tag : Byte) (p : List Byte) (s : State) :
    Ends (execRackStart tag p s) (Turn s) := by
  refine .next (serve_turn fun t => noPayload_moves (checked_moves ?_))
  unfold checked
  split
  · exact .refl
  · rename_i hl
    have hl : t.env.commissioned = true := by
      show t.cfg.locked = true
      simpa using hl
    unfold rackStartBody
    dsimp only
    exact answered (onRack_moves
      (forEach_reach (fun n r => enter_reach t.env n _ _ r (.inr hl) rfl) _ _))

theorem rackStopSlot_reach (e : Env) (n : Fin 48) (r : Rack) : Reach g e r (rackStopSlot e n r) := by
  unfold rackStopSlot
  split <;> rename_i h <;> first
    | exact .refl r
    | exact drainInTurn_reach ..
    | exact enter_reach e n _ _ r (.inl (by rw [h]; exact fun h => by cases h)) rfl

theorem rackStop_reach (e : Env) : ∀ (ns : List (Fin 48)) (t : StopCounts) (r : Rack),
    Reach g e r (rackStop e ns t r).2
  | [], _, r => .refl r
  | n :: ns, _, r => ((rackStopSlot_reach e n r).trans (handOn_reach e _)).trans
      (rackStop_reach e ns _ _)

theorem execRackStop_turn (tag : Byte) (p : List Byte) (s : State) :
    Ends (execRackStop tag p s) (Turn s) :=
  .next (serve_turn fun t => noPayload_moves (checked_moves (by
    unfold rackStopBody
    dsimp only
    exact Moves.refl.rack _ (rackStop_reach t.env _ _ _))))

/-! ### The plan and the parameters -/

theorem beside_cfg (s : State) (c : WorkCfg) (h1 : c.locked = s.cfg.locked)
    (h2 : c.profiles = s.cfg.profiles) (h3 : c.record.slots = s.cfg.record.slots) :
    Beside s { s with cfg := c } := ⟨rfl, rfl, rfl, h1, h2, h3, .inl (le_refl _), id, id⟩

theorem stage_kept (xs : List (Nat × Nat × Nat)) (c : WorkCfg) :
    (forEach stageEntry xs c).locked = c.locked ∧ (forEach stageEntry xs c).profiles = c.profiles ∧
      (forEach stageEntry xs c).record = c.record := by
  induction xs generalizing c with
  | nil => exact ⟨rfl, rfl, rfl⟩
  | cons x xs ih => exact ih (stageEntry x c)

theorem execStagePlan_turn (tag : Byte) (p : List Byte) (s : State) :
    Ends (execStagePlan tag p s) (Turn s) := by
  refine .next (serve_turn fun t => ?_)
  unfold stagePlanBody
  split
  · have h := stage_kept (planEntries p) t.cfg
    exact Moves.refl.beside (beside_cfg t _ h.1 h.2.1 (by rw [h.2.2]))
  · exact .refl

theorem execCommitPlan_turn (tag : Byte) (p : List Byte) (s : State) :
    Ends (execCommitPlan tag p s) (Turn s) := by
  refine .next (serve_turn fun t => noPayload_moves (checked_moves ?_))
  unfold commitPlanBody
  split
  · refine answered ((Moves.refl.beside (beside_cfg t t.cfg.commit rfl rfl rfl)).onRack ?_)
    exact Reach.trans ((Reach.refl _).todo _) (resortQueue_reach _ _)
  · exact Moves.refl.beside (beside_cfg t _ rfl rfl rfl)

theorem execDiscardPlan_turn (tag : Byte) (p : List Byte) (s : State) :
    Ends (execDiscardPlan tag p s) (Turn s) :=
  .next (serve_turn fun t => noPayload_moves (Moves.refl.beside (beside_cfg t _ rfl rfl rfl)))

/-! ### Leaks -/

/-- A change of one zone's record that sets no grace outside ALARM. -/
theorem beside_zone (s : State) (z : Fin 8) (f : Zone → Zone)
    (h : GraceLaw s → (f s.leak.zones[z]).grace.isSome = true → (s.leak.zones[z]).grace.isSome = true ∧
        (f s.leak.zones[z]).state = (s.leak.zones[z]).state ∨ (f s.leak.zones[z]).state = .alarm) :
    Beside s (s.changeZone z f) := by
  refine ⟨rfl, rfl, rfl, rfl, rfl, rfl, .inl (le_refl _), fun k i hi => ?_, id⟩
  have e : (s.changeZone z f).leak.zones[i] =
      if z = i then f s.leak.zones[z] else s.leak.zones[i] := put_get ..
  rw [e] at hi ⊢
  split at hi
  · rename_i hz
    rw [if_pos hz]
    rcases h k hi with ⟨h1, h2⟩ | h2
    · rw [h2]; subst hz; exact k z h1
    · exact h2
  · rename_i hz; rw [if_neg hz]; exact k i hi

theorem headZone_reach (e : Env) (z : Fin 8) (r : Rack) : Reach g e r (headZone e z r) := by
  unfold headZone
  split
  · exact ite_reach ((Reach.refl _).todo _) (.refl _)
  · exact .refl _

theorem zoneRaised_moves (s : State) (z : Fin 8) : Moves g s (s.zoneRaised z) := by
  unfold State.zoneRaised
  dsimp only
  exact onRack_moves (Reach.raised _ _ _ _ (headZone_reach ..))

theorem setZone_moves (s : State) (z : Fin 8) (x : ZoneState)
    (h : GraceLaw s → (s.leak.zones[z]).grace = none ∨ x = .alarm) : Moves g s (s.setZone z x) := by
  unfold State.setZone
  split
  · exact .refl
  · refine (Moves.refl.beside (beside_zone s z _ fun hl hg => ?_)).trans (zoneRaised_moves _ z)
    rcases h hl with h | h
    · have hg : (s.leak.zones[z]).grace.isSome = true := hg
      rw [h] at hg; cases hg
    · exact .inr h

theorem leakIsolate_reach (e : Env) (j : Fin 12) (r : Rack) : Reach g e r (leakIsolate e j r) := by
  unfold leakIsolate
  refine Reach.trans ?_ (memberLeave_reach ..)
  refine Reach.trans ?_ (offerIsolate_reach ..)
  exact Reach.upd (b := r) ⟨rfl, rfl, rfl, rfl, rfl, rfl, rfl, rfl, List.Sublist.refl _, id⟩ (.refl r)

theorem offerOutputOff_reach (e : Env) (i : Fin 18) (r : Rack) :
    Reach g e r (offerOutputOff e i r) := by
  unfold offerOutputOff
  refine Reach.offered _ _ (Reach.upd (b := r) ?_ (.refl r))
  exact ⟨rfl, rfl, rfl, rfl, rfl, rfl, rfl, rfl, List.Sublist.refl _, id⟩

theorem offerOutputOn_reach (e : Env) (i : Fin 18) (r : Rack) :
    Reach g e r (offerOutputOn e i r) := by
  unfold offerOutputOn
  refine Reach.offered _ _ (Reach.upd (b := r) ?_ (.refl r))
  exact ⟨rfl, rfl, rfl, rfl, rfl, rfl, rfl, rfl, List.Sublist.refl _, id⟩

theorem tellIsolated_reach (e : Env) (j : Fin 12) (r : Rack) : Reach g e r (tellIsolated e j r) :=
  ite_reach (abortCheck_reach ..) (.refl r)

theorem isolateModules_reach (e : Env) (h : Fin 3) (r : Rack) :
    Reach g e r (isolateModules e h r) := by
  unfold isolateModules
  dsimp only
  exact ((forEach_reach (offerOutputOff_reach e) _ r).trans
    (forEach_reach (leakIsolate_reach e) _ _)).trans (forEach_reach (tellIsolated_reach e) _ _)

theorem forEach_moves {α : Type} {f : α → State → State} (h : ∀ x s, Moves g s (f x s)) :
    ∀ (xs : List α) (s : State), Moves g s (forEach f xs s)
  | [], _ => .refl
  | x :: xs, s => (h x s).trans (forEach_moves h xs _)

theorem isolateShelves_moves (s : State) (z : Fin 8) : Moves g s (s.isolateShelves z) :=
  forEach_moves (fun _ t => (Moves.refl.beside (beside_zone t z _ fun _ hg => .inl ⟨hg, rfl⟩)).onRack
    (isolateModules_reach ..)) _ s

theorem isolateZone_moves (s : State) (z : Fin 8) : Moves g s (s.isolateZone z) := by
  unfold State.isolateZone
  dsimp only
  have h : Moves g s (s.changeZone z fun x => { x with grace := none, state := .isolated }) :=
    Moves.refl.beside (beside_zone s z _ fun _ hg => by cases hg)
  have h := (h.trans (zoneRaised_moves _ z)).onRack
    (f := fun e r => eachHandedOn e (leakCut e) (e.zoneSlots z) r)
    (eachHandedOn_reach (leakCut_reach _) _ _)
  split
  · exact h.trans (isolateShelves_moves _ z)
  · exact h

theorem leakDrains_moves (s : State) (z : Fin 8) (n : Nat) : Moves g s (s.leakDrains z n) :=
  onRack_moves (eachHandedOn_reach (drainInTurn_reach _ _) _ _)

theorem beginGrace_moves (s : State) (z : Fin 8) (h : (s.leak.zones[z]).state = .alarm) :
    Moves g s (s.beginGrace z) :=
  (Moves.refl.beside (beside_zone s z _ fun _ _ => .inr h)).trans (leakDrains_moves _ z _)

theorem changeZone_get (s : State) (z : Fin 8) (f : Zone → Zone) :
    (s.changeZone z f).leak.zones[z] = f s.leak.zones[z] := put_self ..

theorem enterAlarm_moves (s : State) (z : Fin 8) : Moves g s (s.enterAlarm z) := by
  unfold State.enterAlarm
  dsimp only
  have h : Moves g s
      (s.changeZone z fun x => { x with state := .alarm, alarmTime := some s.now }) :=
    Moves.refl.beside (beside_zone s z _ fun _ _ => .inr rfl)
  have h := (h.onRack (f := fun e r => logFault e .leakConfirmed z.val r)
    (logFault_reach ..)).trans (zoneRaised_moves _ z)
  split
  · exact h
  · refine h.trans (beginGrace_moves _ z ?_)
    show ((s.changeZone z _).leak.zones[z]).state = .alarm
    rw [changeZone_get]
  · exact h.trans (isolateZone_moves _ z)

theorem actAnew_moves (s : State) (z : Fin 8) (b : LeakEntry) : Moves g s (s.actAnew z b) := by
  unfold State.actAnew
  dsimp only
  split
  · rename_i ha
    split
    · exact isolateZone_moves s z
    · exact beginGrace_moves s z ha
    · exact .refl
    · exact Moves.refl.beside (beside_zone s z _ fun _ hg => by cases hg)
  · split
    · exact isolateShelves_moves s z
    · exact .refl
  all_goals exact .refl

theorem setLeakAction_moves (s : State) (z : Fin 8) (x : LeakEntry) :
    Moves g s (s.setLeakAction z x) := by
  unfold State.setLeakAction
  dsimp only
  have h := Moves.refl (g := g).beside (beside_cfg s
    { s.cfg with leakTable := put s.cfg.leakTable z x } rfl rfl rfl)
  split
  · exact h.trans (actAnew_moves ..)
  · exact h

theorem execSetLeakAction_turn (tag : Byte) (p : List Byte) (s : State) :
    Ends (execSetLeakAction tag p s) (Turn s) := by
  refine .next (serve_turn fun t => ?_)
  unfold setLeakActionBody
  split
  · split
    · exact checked_moves (answered (setLeakAction_moves t _ _))
    · exact .refl
  · exact .refl

theorem channelRaised_moves (s : State) (c : Fin 16) (n : Nat) : Moves g s (s.channelRaised c n) := by
  unfold State.channelRaised
  exact onRack_moves ((Reach.refl _).raised _ _ _ _)

theorem releaseChannel_moves (s : State) (c : Fin 16) : Moves g s (s.releaseChannel c) := by
  unfold State.releaseChannel
  dsimp only
  refine Moves.trans (Moves.refl.beside ?_) (channelRaised_moves _ c _)
  exact ⟨rfl, rfl, rfl, rfl, rfl, rfl, .inl (le_refl _), id, id⟩

theorem offState_unpowered (e : Env) (n : Fin 48) : (offState e n).powered = false := by
  unfold offState; split <;> rfl

theorem releaseSlot_reach (e : Env) (n : Fin 48) (r : Rack) : Reach g e r (releaseSlot e n r) := by
  unfold releaseSlot
  dsimp only
  split
  · rename_i h
    exact enter_reach e n _ _ r (.inl (by rw [h]; exact fun h => by cases h)) (offState_unpowered e n)
  · rename_i h
    exact ite_reach (holdDrain_reach e n _ r (by rw [h]; rfl)) (.refl r)
  · exact .refl r

theorem releaseBu_reach (e : Env) (j : Fin 12) (r : Rack) : Reach g e r (releaseBu e j r) := by
  unfold releaseBu
  dsimp only
  have h : Reach g e r { r with bu := change r.bu j fun b => { b with leakIsolated := false } } :=
    Reach.upd (b := r) ⟨rfl, rfl, rfl, rfl, rfl, rfl, rfl, rfl, List.Sublist.refl _, id⟩ (.refl r)
  exact ite_reach h (h.trans (offerRestore_reach ..))

theorem releaseModules_reach (e : Env) (h : Fin 3) (r : Rack) :
    Reach g e r (releaseModules e h r) := by
  unfold releaseModules
  dsimp only
  exact (forEach_reach (offerOutputOn_reach e) _ r).trans (forEach_reach (releaseBu_reach e) _ _)

theorem releaseShelves_moves (s : State) (z : Fin 8) : Moves g s (s.releaseShelves z) :=
  forEach_moves (fun _ t => (Moves.refl.beside (beside_zone t z _ fun _ hg => .inl ⟨hg, rfl⟩)).onRack
    (releaseModules_reach ..)) _ s

theorem clearZone_moves (s : State) (z : Fin 8) : Moves g s (s.clearZone z) := by
  unfold State.clearZone
  dsimp only
  refine Moves.trans (Moves.onRack (Moves.trans (Moves.trans
    (forEach_moves (fun c t => releaseChannel_moves t c) _ s)
    (Moves.refl.beside (beside_zone _ z _ fun _ hg => by cases hg)))
    (setZone_moves _ z .clear fun _ => .inl ?_)) (eachHandedOn_reach (releaseSlot_reach _) _ _))
    (releaseShelves_moves _ z)
  rw [changeZone_get]

theorem execLeakClear_turn (tag : Byte) (p : List Byte) (s : State) :
    Ends (execLeakClear tag p s) (Turn s) := by
  refine .next (serve_turn fun t => indexed_moves fun z => ?_)
  unfold leakClearBody
  split
  · exact .refl
  · exact clearZone_moves t z

theorem checkNow_reach (e : Env) (j : Fin 12) (r : Rack) : Reach g e r (checkNow e j r) := by
  unfold checkNow makeDue
  dsimp only
  exact (((ite_reach (dropSample_reach ..) (.refl r)).same (setDue_same ..)).todo _).trans
    (evaluateChecks_reach ..)

theorem execCheckNow_turn (tag : Byte) (p : List Byte) (s : State) :
    Ends (execCheckNow tag p s) (Turn s) :=
  .next (serve_turn fun _ => indexed_moves fun _ =>
    checked_moves (answered (onRack_moves (checkNow_reach ..))))

theorem followZone_moves (s : State) (z : Fin 8) : Moves g s (s.followZone z) := by
  unfold State.followZone
  split
  · exact .refl
  · rename_i hl
    split
    · split
      · exact .refl
      · exact enterAlarm_moves s z
    · refine setZone_moves s z _ fun h => .inl ?_
      by_contra hc
      have := h z (Option.isSome_iff_ne_none.mpr hc)
      rw [this] at hl
      exact hl rfl

theorem channelMoved_moves (s : State) (c : Fin 16) (n : Nat) : Moves g s (s.channelMoved c n) := by
  unfold State.channelMoved
  dsimp only
  have h := channelRaised_moves (g := g) s c n
  generalize s.channelRaised c n = t at *
  have h : Moves g s (if (t.leak.channels[c]).state = .opn then
      t.onRack fun e r => logFault e .sensorOpen c.val r else t) := by
    split
    · exact h.onRack (logFault_reach ..)
    · exact h
  generalize (if (t.leak.channels[c]).state = .opn then
      t.onRack fun e r => logFault e .sensorOpen c.val r else t) = u at *
  split
  · exact h.trans (followZone_moves u _)
  · exact h

theorem beside_channels (s : State) (l : Leak) (h : l.zones = s.leak.zones)
    (p : PaceLaw s → PaceLaw { s with leak := l }) : Beside s { s with leak := l } := by
  refine ⟨rfl, rfl, rfl, rfl, rfl, rfl, .inl (le_refl _), fun k z hz => ?_, p⟩
  replace hz : (l.zones[z]).grace.isSome = true := hz
  show (l.zones[z]).state = .alarm
  rw [h] at hz ⊢
  exact k z hz

theorem sampleChannel_moves (s : State) (c : Fin 16) (n : Nat) : Moves g s (s.sampleChannel c n) := by
  unfold State.sampleChannel
  dsimp only
  generalize (if (s.channelZone c).isSome = true then
    (s.leak.channels[c]).move (classify (s.wetAt c) (s.openAt c) n) else s.leak.channels[c]) = m
  split
  · exact Moves.refl.beside (beside_channels s _ rfl id)
  · exact (channelMoved_moves _ c n).after (beside_channels s _ rfl id)

/-- A sample that is due leaves the next one due 100 ms on (R159). -/
theorem sampled_pace {s : State} (h : s.sampleDue = true) (l : Leak)
    (hl : l.nextSample = some (s.now + BitVec.ofNat 32 Config.leakPeriod)) (k : PaceLaw s) :
    PaceLaw { s with leak := l } := by
  have h : s.leak.nextSample = some s.now := by simpa [State.sampleDue] using h
  refine ⟨?_, fun t ht => ?_⟩
  · show l.nextSample.isSome = s.boot.loaded
    rw [hl, ← k.1, h]
    rfl
  · replace ht : l.nextSample = some t := ht
    rw [hl] at ht
    cases ht
    show (s.now + BitVec.ofNat 32 Config.leakPeriod - s.now).toNat ≤ 100
    rw [BitVec.add_comm, BitVec.add_sub_cancel]
    decide

theorem execLeakSample_turn (l : Vector (BitVec 10) 16) (s : State) :
    Ends (execLeakSample l s) (Turn s) := by
  unfold execLeakSample
  split
  case isFalse => exact .next .still
  rename_i due
  refine .next (.acts ?_)
  unfold State.sampleAll
  have h : Moves False s (forEach (fun c t => State.sampleChannel t c (l[c]).toNat)
      (List.finRange 16) { s with leak := { s.leak with
        nextSample := some (s.now + BitVec.ofNat 32 Config.leakPeriod) } }) :=
    (forEach_moves (fun c t => sampleChannel_moves t c (l[c]).toNat) _ _).after
      (beside_channels s _ rfl (sampled_pace due _ rfl))
  refine h.trans ?_
  generalize forEach (fun c t => State.sampleChannel t c (l[c]).toNat)
      (List.finRange 16) { s with leak := { s.leak with
        nextSample := some (s.now + BitVec.ofNat 32 Config.leakPeriod) } } = t
  unfold State.countSample
  dsimp only
  split
  · have h : Moves False t { t with rack := { t.rack with todo := { t.rack.todo with head := true } } } :=
      Moves.refl.rack _ ((Reach.refl _).todo _)
    exact h.beside (beside_channels _ _ rfl id)
  · exact Moves.refl.beside (beside_channels t _ rfl id)

theorem execGraceExpiry_turn (z : Fin 8) (s : State) : Ends (execGraceExpiry z s) (Turn s) :=
  .ite (.next (.acts (isolateZone_moves s z))) (.next .still)

/-! ### The rack link's own events -/

theorem execStrayByte_turn (b : Byte) (s : State) : Ends (execStrayByte b s) (Turn s) :=
  .ite (.next (.acts (Moves.refl.beside (beside_link s _ (.inl (le_refl _)))))) (.next .still)

theorem execFrameBegin_turn (s : State) : Ends (execFrameBegin s) (Turn s) :=
  .ite (.next (.acts (Moves.refl.beside (beside_link s _ (.inl (le_refl _)))))) (.next .still)

theorem linkFault_moves (s : State) (f : FaultKind) : Moves g s (s.linkFault f) :=
  onRack_moves (logFault_reach ..)

theorem execFrameTimeout_turn (s : State) : Ends (execFrameTimeout s) (Turn s) :=
  .ite (.next (.acts ((linkFault_moves _ _).after (beside_link s _ (.inl (le_refl _)))))) (.next .still)

theorem receive_moves (s : State) (f : LinkFrame) : Moves g s (s.receive f) := by
  unfold State.receive Config.rxQueueMax
  split
  · exact Moves.refl.beside (beside_link s _ (.inr (by simp; omega)))
  · exact (linkFault_moves _ _).after (beside_link s _ (.inl (le_refl _)))

theorem endFrame_moves (s : State) (x : FrameEnd) : Moves g s (s.endFrame x) := by
  cases x with
  | tooLong =>
    exact (linkFault_moves _ _).after (beside_link s _ (.inl (le_refl _)))
  | badCrc =>
    exact (linkFault_moves _ _).after (beside_link s _ (.inl (le_refl _)))
  | good f => exact (receive_moves _ f).after (beside_link s _ (.inl (le_refl _)))

theorem execFrameEnd_turn (bytes : List Byte) (s : State) : Ends (execFrameEnd bytes s) (Turn s) :=
  .ite (.next (.acts ((endFrame_moves _ _).after (beside_link s _ (.inl (le_refl _)))))) (.next .still)

theorem depart_length (q : NotifQueue) (t : Time) (h : q.entries.length ≤ 32) :
    (q.depart t).entries.length ≤ 32 := by
  unfold NotifQueue.depart
  refine summaries_length _ _ ?_
  simp only [List.length_drop]
  omega

theorem execNotificationSent_turn (s : State) : Ends (execNotificationSent s) (Turn s) := by
  unfold execNotificationSent
  refine .ite (.next (.acts ?_)) (.next .still)
  have h : Moves False s { s with rack := { s.rack with notif := s.rack.notif.depart s.now } } :=
    Moves.refl.rack _ ((Reach.refl _).listed _ fun h => depart_length _ _ h)
  exact h.beside (beside_link _ _ (.inl (le_refl _)))

/-- REPLY_SENT with no RESTART owed. -/
theorem execReplySent_turn (s : State) (h : s.link.restartOwed = false) :
    Ends (execReplySent s) (Turn s) := by
  unfold execReplySent
  dsimp only
  rw [h]
  exact .ite (.next (.acts (Moves.refl.beside (beside_link s _ (.inl (le_refl _)))))) (.next .still)

theorem execRestartNRelease_turn (s : State) : Ends (execRestartNRelease s) (Turn s) :=
  .next (.acts (Moves.refl.beside ⟨rfl, rfl, rfl, rfl, rfl, rfl, .inl (le_refl _), id, id⟩))

/-! ### The store -/

theorem execSaveConfig_turn (tag : Byte) (p : List Byte) (s : State) :
    Ends (execSaveConfig tag p s) (Turn s) := by
  refine .next (execute_turn fun t => ?_)
  unfold saveConfigBody
  split
  · exact Moves.refl.beside (beside_store t _ t.free)
  · exact Moves.refl.beside (reply_beside ..)

theorem endWrite_moves (s : State) (good : Bool) (area : Nat) : Moves g s (s.endWrite good area) := by
  unfold State.endWrite
  split
  · exact Moves.refl.beside (beside_store s _ s.free)
  · exact (Moves.refl.beside (beside_store s _ _)).onRack (logFault_reach ..)

theorem replySaved_moves (s : State) (tag : Option Byte) (c : Byte) :
    Moves g s (s.replySaved tag c) := by
  unfold State.replySaved
  split
  · exact Moves.refl.beside (reply_beside ..)
  · exact .refl

theorem execConfigWriteEnd_turn (v : Bool) (s : State) : Ends (execConfigWriteEnd v s) (Turn s) :=
  .ite (.next (.acts ((endWrite_moves s v 0).trans (replySaved_moves ..)))) (.next .still)

theorem execBatteryWriteEnd_turn (v : Bool) (s : State) : Ends (execBatteryWriteEnd v s) (Turn s) :=
  .ite (.next (.acts (endWrite_moves s v 1))) (.next .still)

/-! ### The shelf bus -/

theorem execPollCycleBegin_turn (s : State) : Ends (execPollCycleBegin s) (Turn s) := by
  unfold execPollCycleBegin
  refine .ite (.next (.acts (onRack_moves ?_))) (.next .still)
  unfold beginCycle
  exact Reach.upd (b := s.rack) ⟨rfl, rfl, rfl, rfl, rfl, rfl, rfl, rfl, List.Sublist.refl _, id⟩ (.refl _)

theorem discard_sublist (b : Bus) (p : Pos) : (b.discard p).entries.Sublist b.entries :=
  List.filter_sublist

theorem answer_sublist (b : Bus) : b.answer.entries.Sublist b.entries := by
  unfold Bus.answer
  split
  · dsimp only
    split
    · exact discard_sublist { b with inFlight := none } _
    · exact List.Sublist.refl _
  · exact List.Sublist.refl _

theorem psuChanged_reach (e : Env) (i : Fin 18) (old : PsuRec) (r : Rack) :
    Reach g e r (psuChanged e i old r) := by
  unfold psuChanged
  dsimp only
  have h := ite_reach (g := g) (p := (r.psu[i]).state = old.state) (.refl r)
    ((Reach.refl (e := e) r).raised .module 1 (psuAddress i) (r.psu[i]).state.code)
  generalize (if (r.psu[i]).state = old.state then r else
    raise e .module 1 (psuAddress i) (r.psu[i]).state.code r) = a at *
  have h := ite_reach (p := (r.psu[i]).state = old.state ∧ (r.psu[i]).capability = old.capability) h
    (h.trans (computeAccount_reach e a))
  generalize (if (r.psu[i]).state = old.state ∧ (r.psu[i]).capability = old.capability then a else
    computeAccount e a) = b at *
  exact ite_reach h (h.todo _)

theorem psuIntent_reach (e : Env) (i : Fin 18) (o : Bool) (r : Rack) :
    Reach g e r (psuIntent e i o r) := by
  unfold psuIntent
  exact ite_reach (.refl r) ((Reach.refl r).offered _ _)

theorem psuReport_reach (e : Env) (i : Fin 18) (p : PsuReport) (r : Rack) :
    Reach g e r (psuReport e i p r) := by
  unfold psuReport
  dsimp only
  refine Reach.trans ?_ (psuIntent_reach ..)
  refine Reach.trans ?_ (psuChanged_reach ..)
  have h : Reach g e r { r with
      bus := r.bus.answer
      psu := put r.psu i ((r.psu[i]).report e.now (capabilityTop e i) p) } :=
    Reach.upd (b := r) ⟨rfl, rfl, rfl, rfl, rfl, rfl, rfl, rfl, answer_sublist _, id⟩ (.refl r)
  exact ite_reach (h.trans (logFault_reach ..)) h

theorem execPsuStatus_turn (f : List Byte) (s : State) : Ends (execPsuStatus f s) (Turn s) := by
  unfold execPsuStatus
  split
  · exact .next (.acts (onRack_moves (psuReport_reach ..)))
  · exact .next .still

theorem isolateInDark_reach (e : Env) (j : Fin 12) (w : Bool) (r : Rack) :
    Reach g e r (isolateInDark e j w r) := ite_reach (offerIsolate_reach ..) (.refl r)

theorem buStateChanged_reach (e : Env) (j : Fin 12) (old : BuRec) (r : Rack) :
    Reach g e r (buStateChanged e j old r) := by
  unfold buStateChanged
  dsimp only
  split
  · exact .refl r
  · have h := (Reach.refl (g := g) (e := e) r).raised .battery 1 j.val (r.bu[j]).state.code
    generalize raise e .battery 1 j.val (r.bu[j]).state.code r = a at *
    exact ((h.todo _).trans (leaveMembers_reach ..)).trans (isolateInDark_reach ..)

theorem buIntent_reach (e : Env) (j : Fin 12) (r : Rack) : Reach g e r (buIntent e j r) := by
  unfold buIntent
  dsimp only
  have h := fun c => (Reach.refl (g := g) (e := e) r).offered (.bu j) c
  split
  · exact .refl r
  · split
    · exact ite_reach (.refl r) (h _)
    all_goals first | exact ite_reach (h _) (.refl r) | exact .refl r

theorem stopStray_reach (e : Env) (j : Fin 12) (r : Rack) : Reach g e r (stopStray e j r) :=
  ite_reach ((Reach.refl r).offered _ _) (.refl r)

theorem buReport_reach (e : Env) (j : Fin 12) (p : BuReport) (r : Rack) :
    Reach g e r (buReport e j p r) := by
  unfold buReport
  dsimp only
  have h : Reach g e r { r with
      bus := r.bus.answer
      bu := put r.bu j ((r.bu[j]).report e.now (energyTop e j) p) } :=
    Reach.upd (b := r) ⟨rfl, rfl, rfl, rfl, rfl, rfl, rfl, rfl, answer_sublist _, id⟩ (.refl r)
  generalize ({ r with
      bus := r.bus.answer
      bu := put r.bu j ((r.bu[j]).report e.now (energyTop e j) p) } : Rack) = a at *
  have h := ite_reach (p := p.mode = .failed ∧ (r.bu[j]).state ≠ .failed)
    (h.trans (logFault_reach e .buFailed (buAddress j) a)) h
  generalize (if p.mode = .failed ∧ (r.bu[j]).state ≠ .failed then
    logFault e .buFailed (buAddress j) a else a) = b at *
  have h := h.trans (buStateChanged_reach e j r.bu[j] b)
  generalize buStateChanged e j r.bu[j] b = c at *
  have h := ite_reach (p := entersFull r.bu[j] ((r.bu[j]).report e.now (energyTop e j) p) = true)
    (h.trans (fillSample_reach e j c)) h
  generalize (if entersFull r.bu[j] ((r.bu[j]).report e.now (energyTop e j) p) = true then
    fillSample e j c else c) = d at *
  exact ((h.trans (reportCheck_reach ..)).trans (buIntent_reach ..)).trans (stopStray_reach ..)

theorem execBuStatus_turn (f : List Byte) (s : State) : Ends (execBuStatus f s) (Turn s) := by
  unfold execBuStatus
  split
  · exact .next (.acts (onRack_moves (buReport_reach ..)))
  · exact .next .still

theorem execBadFrame_turn (f : List Byte) (s : State) : Ends (execBadFrame f s) (Turn s) := by
  unfold execBadFrame
  refine .ite (.next .still) (.next (.acts (Moves.refl.rack _ ?_)))
  exact Reach.upd (b := s.rack) ⟨rfl, rfl, rfl, rfl, rfl, rfl, rfl, rfl, List.Sublist.refl _, id⟩ (.refl _)

theorem loseEntry_reach (e : Env) (p : Pos) (r : Rack) : Reach g e r (loseEntry e p r) := by
  unfold loseEntry
  refine ite_reach (Reach.trans (b := { r with bus := r.bus.discard p }) ?_ (logFault_reach ..))
    (.refl r)
  exact Reach.upd (b := r) ⟨rfl, rfl, rfl, rfl, rfl, rfl, rfl, rfl, discard_sublist _ _, id⟩ (.refl r)

theorem missPsu_reach (e : Env) (i : Fin 18) (r : Rack) : Reach g e r (missPsu e i r) := by
  unfold missPsu
  dsimp only
  refine ite_reach (((Reach.upd (b := r) ?_ (.refl r)).trans (loseEntry_reach ..)).trans
    (psuChanged_reach ..)) (Reach.upd (b := r) ?_ (.refl r)) <;>
  exact ⟨rfl, rfl, rfl, rfl, rfl, rfl, rfl, rfl, List.Sublist.refl _, id⟩

theorem missBu_reach (e : Env) (j : Fin 12) (r : Rack) : Reach g e r (missBu e j r) := by
  unfold missBu abortLost
  dsimp only
  split
  · refine Reach.trans (((Reach.upd (b := r) ?_ (.refl r)).trans (loseEntry_reach ..)).trans
      (buStateChanged_reach ..)) (ite_reach (abortCheck_reach ..) (.refl _))
    exact ⟨rfl, rfl, rfl, rfl, rfl, rfl, rfl, rfl, List.Sublist.refl _, id⟩
  · exact Reach.upd (b := r) ⟨rfl, rfl, rfl, rfl, rfl, rfl, rfl, rfl, List.Sublist.refl _, id⟩ (.refl r)

theorem expireWindow_reach (e : Env) (p : Pos) (r : Rack) : Reach g e r (expireWindow e p r) := by
  unfold expireWindow
  dsimp only
  have h : Reach g e r { r with bus := r.bus.expire } :=
    Reach.upd (b := r) ⟨rfl, rfl, rfl, rfl, rfl, rfl, rfl, rfl, List.Sublist.refl _, id⟩ (.refl r)
  split
  · exact h.trans (missPsu_reach ..)
  · exact h.trans (missBu_reach ..)

theorem execResponseWindowExpiry_turn (s : State) : Ends (execResponseWindowExpiry s) (Turn s) := by
  unfold execResponseWindowExpiry
  split
  · exact .ite (.next (.acts (onRack_moves (expireWindow_reach ..)))) (.next .still)
  · exact .next .still

/-! ### Slot inputs and deadlines -/

theorem beside_inputs (s : State) (x : Inputs) : Beside s { s with inputs := x } :=
  ⟨rfl, rfl, rfl, rfl, rfl, rfl, .inl (le_refl _), id, id⟩

theorem setGood_reach (e : Env) (n : Fin 48) (l : Bool) (r : Rack) : Reach g e r (setGood n l r) := by
  unfold setGood change
  exact Reach.noted n { r.slots[n] with good := l } (.refl r) ⟨rfl, rfl, rfl, rfl, rfl, rfl⟩ rfl

theorem setParked_reach (e : Env) (n : Fin 48) (l : Bool) (r : Rack) :
    Reach g e r (setParked n l r) := by
  unfold setParked change
  exact Reach.noted n { r.slots[n] with parked := l } (.refl r) ⟨rfl, rfl, rfl, rfl, rfl, rfl⟩ rfl

theorem joinRackDrain_reach (e : Env) (n : Fin 48) (r : Rack) :
    Reach g e r (joinRackDrain e n r) := ite_reach (drainInTurn_reach ..) (.refl r)

theorem unexpectedGood_reach (e : Env) (n : Fin 48) (r : Rack) :
    Reach g e r (unexpectedGood e n r) := by
  unfold unexpectedGood
  dsimp only
  refine Reach.trans ?_ (markFault_reach ..)
  split <;> rename_i h <;> first
    | exact .refl r
    | exact enter_reach e n _ _ r (.inl (by rw [h]; exact fun h => by cases h)) rfl

/-- A powered slot enters ON. -/
theorem enterOn_reach (e : Env) (n : Fin 48) (c : Cause) (r : Rack)
    (h : (r.slots[n]).state = .starting) : Reach g e r (enter e n .on c r) :=
  (Reach.refl r).changed n _ ⟨enter_formed _ _ _ _ (by decide) (by decide),
    .inl (by rw [h]; exact fun h => by cases h), fun _ => .inl (by rw [h]; rfl)⟩

theorem goodRises_reach (e : Env) (n : Fin 48) (r : Rack) : Reach g e r (goodRises e n r) := by
  unfold goodRises
  dsimp only
  refine Reach.trans (setGood_reach e n true r) ?_
  split
  · rename_i h; exact (enterOn_reach e n _ _ h).trans (joinRackDrain_reach ..)
  all_goals first | exact .refl _ | exact ite_reach (unexpectedGood_reach ..) (.refl _)

theorem execGoodRising_turn (n : Fin 48) (a b : Bool) (s : State) :
    Ends (execGoodRising n a b s) (Turn s) :=
  .ite (.next (.acts ((Moves.refl.beside (beside_inputs s _)).onRack (goodRises_reach ..)))) (.next .still)

theorem goodFalls_reach (e : Env) (n : Fin 48) (r : Rack) : Reach g e r (goodFalls e n r) := by
  unfold goodFalls
  dsimp only
  refine Reach.trans (setGood_reach e n false r) ?_
  split
  · rename_i h
    exact (enter_reach e n _ _ _ (.inl (by rw [h]; exact fun h => by cases h)) rfl).trans
      (markFault_reach ..)
  · rename_i h; exact endDrain_reach ..
  all_goals exact .refl _

theorem execGoodFalling_turn (n : Fin 48) (a b : Bool) (s : State) :
    Ends (execGoodFalling n a b s) (Turn s) :=
  .ite (.next (.acts ((Moves.refl.beside (beside_inputs s _)).onRack (goodFalls_reach ..)))) (.next .still)

theorem parkedRises_reach (e : Env) (n : Fin 48) (r : Rack) : Reach g e r (parkedRises e n r) := by
  unfold parkedRises
  dsimp only
  refine Reach.trans (setParked_reach e n true r) ?_
  split
  · rename_i h; exact endDrain_reach ..
  · exact .refl _

theorem execParkedRising_turn (n : Fin 48) (a b : Bool) (s : State) :
    Ends (execParkedRising n a b s) (Turn s) :=
  .ite (.next (.acts ((Moves.refl.beside (beside_inputs s _)).onRack (parkedRises_reach ..)))) (.next .still)

theorem execParkedFalling_turn (n : Fin 48) (a b : Bool) (s : State) :
    Ends (execParkedFalling n a b s) (Turn s) :=
  .ite (.next (.acts ((Moves.refl.beside (beside_inputs s _)).onRack (setParked_reach ..)))) (.next .still)

theorem execGoodDeadline_turn (n : Fin 48) (s : State) : Ends (execGoodDeadline n s) (Turn s) := by
  unfold execGoodDeadline
  split
  · rename_i h
    refine .next (.acts (onRack_moves ?_))
    exact (enter_reach s.env n _ _ _ (.inl (by rw [h.1]; exact fun h => by cases h)) rfl).trans
      (markFault_reach ..)
  · exact .next .still

theorem execDrainDeadline_turn (n : Fin 48) (s : State) : Ends (execDrainDeadline n s) (Turn s) := by
  unfold execDrainDeadline
  split
  · rename_i h
    exact .next (.acts (onRack_moves
      (endDrain_reach ..)))
  · exact .next .still

/-! ### The timers -/

theorem execGateTimer_turn (s : State) : Ends (execGateTimer s) (Turn s) := by
  unfold execGateTimer
  refine .ite (.next (.acts (Moves.refl.rack _ ?_))) (.next .still)
  exact Reach.upd (b := s.rack) ⟨rfl, rfl, rfl, rfl, rfl, rfl, rfl, rfl, List.Sublist.refl _, id⟩ (.refl _)

theorem takeArm_kept (c : WorkCfg) : c.takeArm.locked = c.locked ∧ c.takeArm.profiles = c.profiles ∧
    c.takeArm.record.slots = c.record.slots := by
  unfold WorkCfg.takeArm
  split <;> exact ⟨rfl, rfl, rfl⟩

theorem execQualifyTimer_turn (s : State) : Ends (execQualifyTimer s) (Turn s) := by
  unfold execQualifyTimer
  dsimp only
  have h := takeArm_kept s.cfg
  exact .ite (.next (.acts ((Moves.refl.beside (beside_cfg s s.cfg.takeArm h.1 h.2.1 h.2.2)).onRack
    (enterNormal_reach ..)))) (.next .still)

theorem nextPeriod_reach (e : Env) (f : RechargeFrame) (r : Rack) :
    Reach g e r (nextPeriod e f r) := by
  unfold nextPeriod
  dsimp only
  refine Reach.trans (Reach.upd (b := r) ?_ (.refl r)) (sendSetpoints_reach ..)
  exact ⟨rfl, rfl, rfl, rfl, rfl, rfl, rfl, rfl, List.Sublist.refl _, id⟩

theorem execControlPeriod_turn (s : State) : Ends (execControlPeriod s) (Turn s) := by
  unfold execControlPeriod
  split
  · exact .ite (.next (.acts (onRack_moves (nextPeriod_reach ..)))) (.next .still)
  · exact .next .still

theorem boundary_reach (e : Env) (f : RechargeFrame) (r : Rack) :
    Reach g e r (boundary e f r) := by
  unfold boundary
  dsimp only
  refine Reach.trans (Reach.upd (b := r) ?_ (.refl r)) (startFrame_reach ..)
  exact ⟨rfl, rfl, rfl, rfl, rfl, rfl, rfl, rfl, List.Sublist.refl _, id⟩

theorem execFrameBoundary_turn (s : State) : Ends (execFrameBoundary s) (Turn s) := by
  unfold execFrameBoundary
  split
  · exact .ite (.next (.acts (onRack_moves (boundary_reach ..)))) (.next .still)
  · exact .next .still

theorem execCheckDue_turn (j : Fin 12) (s : State) : Ends (execCheckDue j s) (Turn s) :=
  .ite (.next (.acts (onRack_moves (evaluateChecks_reach ..)))) (.next .still)

theorem execSampleDeadline_turn (j : Fin 12) (s : State) : Ends (execSampleDeadline j s) (Turn s) :=
  .ite (.next (.acts (onRack_moves ((dropSample_reach ..).same (setDue_same ..))))) (.next .still)

/-- A head whose wait has reached its limit: one evaluation, then perhaps a notification. -/
theorem stall_reach (e : Env) (r : Rack) : Reach True e r (stall e r) := by
  unfold stall
  split
  · refine Reach.trans (evaluateHead_reach ..) ?_
    generalize evaluateHead e r = r
    unfold raiseStall
    split
    · rename_i h hr
      refine ite_reach (Reach.raised _ _ _ _ (Reach.upd (b := r) ?_ (.refl r))) (.refl r)
      refine ⟨rfl, rfl, rfl, rfl, rfl, rfl, rfl, rfl, List.Sublist.refl _, fun k => ?_⟩
      unfold StartQueue.HeadFirst at k ⊢
      rw [hr] at k; exact k
    · exact .refl r
  · exact .refl _

/-- START_STALLED evaluates the head once before its hand-ons. -/
theorem execStartStalled_moves (s : State) : Ends (execStartStalled s) (Moves True s) :=
  .ite (.next ((onRack_moves (stall_reach ..)).trans (conclude_moves _))) (.next .refl)

theorem followParam_reach (e : Env) (id : Fin 16) (r : Rack) :
    Reach True e r (followParam e id r) := by
  unfold followParam
  split <;> first
    | exact .refl r
    | exact (Reach.refl r).todo _
    | exact ((Reach.refl r).todo _).trans (computeAccount_reach ..)
    | exact ite_reach (stall_reach ..) (.refl r)

/-- A lowered start wait limit evaluates the head once before the hand-ons of SET_PARAM. -/
theorem execSetParam_moves (tag : Byte) (p : List Byte) (s : State) :
    Ends (execSetParam tag p s) (Moves True s) := by
  refine .next (serve_moves fun t => ?_)
  unfold setParamBody
  split
  · split
    · split
      · refine checked_moves (checked_moves ?_)
        refine answered ?_
        unfold State.setParam
        refine (Moves.refl.beside (beside_cfg t _ ?_ ?_ ?_)).onRack (followParam_reach _ _ _) <;> rfl
      · exact .refl
    · exact .refl
  · exact .refl

/-! ### Time and the pace of the leak samples -/

/-- A store load makes the first leak sample due at its own instant (R159). -/
theorem loadTables_pace (s : State) : PaceLaw s.loadTables := by
  refine ⟨rfl, fun t ht => ?_⟩
  have ht : some s.now = some t := ht
  cases ht
  show (s.now - s.now).toNat ≤ 100
  rw [BitVec.sub_self]
  decide

/-- A millisecond that passes at an instant with no sample due brings the next sample nearer (R159). -/
theorem tick_pace {s : State} (h : s.sampleDue = false) (k : PaceLaw s) : PaceLaw s.tick := by
  have h : s.leak.nextSample ≠ some s.now := by simpa [State.sampleDue] using h
  refine ⟨k.1, fun t ht => ?_⟩
  have ht : s.leak.nextSample = some t := ht
  have := k.2 t ht
  have hn : t ≠ s.now := fun e => h (e ▸ ht)
  show (t - (s.now + 1)).toNat ≤ 100
  have h0 : (t - s.now).toNat ≠ 0 := fun e => hn (by bv_omega)
  bv_omega

/-- The part with no command waiting passes over no leak sample (R159). -/
theorem idle_pace {s : State} (k : PaceLaw s) : PaceLaw s.idle := by
  unfold State.idle
  split
  · split
    · exact k
    · rename_i h
      simp only [State.awaits, Bool.or_eq_true, not_or, Bool.not_eq_true] at h
      exact tick_pace h.2 k
  · exact k

end Sys2Proof.Machine
end

