-- ==== Sys2Proof/Tests/Slice0.lean ====
section
/-! SUPPORT. Tests: well-formedness, figures of the manual's worked examples, small commands, and for
each statement with hypotheses a state and operands that meet them. -/

namespace Sys2Proof.Tests

-- The tests are many and small: checked one after another they need little memory.
set_option Elab.async false

open Sys2Proof.Machine

/-! ### Well-formedness: each check refuses an ill-formed command -/

theorem test_wellFormed_stray : (Instr.strayByte 0xB5).wellFormed = true ∧
    (Instr.strayByte 0xB6).wellFormed = false := by decide

theorem test_wellFormed_frame : (Instr.frameEnd [241]).wellFormed = true ∧
    (Instr.frameEnd [241, 0]).wellFormed = false ∧
    (Instr.frameEnd [0, 1, 1, 0]).wellFormed = false := by decide

theorem test_wellFormed_kind : (Instr.unknownKind 0x55 1 []).wellFormed = true ∧
    (Instr.unknownKind 0x01 1 []).wellFormed = false := by decide

theorem test_wellFormed_payload (payload : List Byte) :
    (payload.length = 240 → (Instr.slotOn 1 payload).wellFormed = true) ∧
    (payload.length = 241 → (Instr.slotOn 1 payload).wellFormed = false) := by
  constructor <;> intro h <;>
    simp [Instr.wellFormed, Instr.ownCheck, Instr.payload?, payloadFits, h]

/-! ### No word of the table spells a command -/

theorem test_decode_none : ∀ nbits w : Nat, decodeTableWord nbits w = none := fun _ _ => rfl

/-! ### Small states -/

/-- The part with its store loaded, its first leak sample taken. -/
def up : State :=
  { State.reset with
    boot := ⟨true, false, 0, false⟩, leak := { initialLeak with nextSample := some 100 } }

/-- A state with a request as the oldest frame received. -/
def asked (s : State) (kind tag : Byte) (payload : List Byte) : State :=
  { s with link := { s.link with rx := [⟨kind, tag, payload⟩] } }

theorem asked_executes (s : State) (kind tag : Byte) (payload : List Byte)
    (h : s.link.holder = none) (k : s.store.saving = false) :
    (asked s kind tag payload).executes ⟨kind, tag, payload⟩ = true := by
  simp [State.executes, asked, h, k]

/-- A request asked of a part at rest is ready. -/
theorem asked_ready (s : State) (kind tag : Byte) (payload : List Byte)
    (h : s.link.holder = none) (k : s.store.saving = false) (b : s.busy = false) (t : tag ≠ 0) :
    Ready (asked s kind tag payload) kind tag payload :=
  ⟨asked_executes s kind tag payload h k, t, b⟩

/-- The part with its rack given. -/
def having (r : Rack) : State := { up with rack := r }

/-- A slot record in its form. -/
def slotIn (st : SlotState) : SlotRec :=
  { initialSlot with
    state := st, permit := st.powered, warn := st == .draining
    drain := if st = .draining then some ⟨.shed, ⟨0, 0⟩⟩ else none
    goodDeadline := if st = .starting then some ⟨0, 0⟩ else none
    queueTime := if st = .queued then some 0 else none }

/-- The rack with slot 0 given. -/
def slot0 (x : SlotRec) : Rack := { initialRack with slots := put initialRack.slots 0 x }

/-- The rack with BU 0 given. -/
def bu0 (b : BuRec) : Rack := { initialRack with bu := put initialRack.bu 0 b }

/-- The rack with PSU 0 given. -/
def psu0 (x : PsuRec) : Rack := { initialRack with psu := put initialRack.psu 0 x }

/-- The rack in a grid state. -/
def gridIn (g : GridState) : Rack := { initialRack with grid := { initialGrid with state := g } }

/-- A record of one shelf and one slot, which stands in zone 7. -/
def oneSlot : CommRecord :=
  { defaultRecord with rack := ⟨1, 0, 1⟩, slots := put defaultRecord.slots 0 ⟨0, 0, 7⟩ }

/-- That record locked. -/
def lockedCfg : WorkCfg := { defaultCfg with record := oneSlot, locked := true }

/-- The part COMMISSIONED with that record. -/
def lockedUp : State :=
  { up with cfg := lockedCfg, marks := { noMarks with slotOn := put noMarks.slotOn 0 true } }

/-- The environment of that part, with zone 7 in a state. -/
def env7 (z : ZoneState) : Env :=
  { lockedUp.env with zones := put lockedUp.env.zones 7 z, firstWindow := true }

/-- The part in Safe Hold. -/
def holding : State :=
  { up with rack := { initialRack with faults := { initialFaults with hold := some ⟨0, 0, 0⟩ } } }

/-- The part with a receiver state. -/
def receiving (x : RxState) (rx : List LinkFrame) : State :=
  { up with link := { initialLink with rxState := x, rx := rx } }

/-- The part with a transmit line. -/
def sending (x : TxLine) (owed : Bool) : State :=
  { up with link := { initialLink with line := x, restartOwed := owed } }

/-- The part with a store write in progress. -/
def writing (w : StoreWrite) : State := { up with store := { blankStore with writing := some w } }

/-- A marked config image whose CRC is correct or not. -/
def image (count : Count32) (ok : Bool) : ConfigSlot :=
  if ok then .made count blankContent
  else { ConfigSlot.made count blankContent with
    crc := wrongCrc 0 (imageCrc count (Config.configBytes blankContent)) }

theorem image_crcOk (count : Count32) (ok : Bool) : (image count ok).crcOk = ok := by
  cases ok
  · simp [image, ConfigSlot.made, ConfigSlot.crcOk, wrongCrc_ne]
  · simp [image]

theorem image_marked (count : Count32) (ok : Bool) : (image count ok).marked = true := by
  cases ok <;> rfl

/-- A marked battery image whose CRC is correct or not. -/
def battery (count : Count32) (ok : Bool) : BatterySlot :=
  if ok then .made count (Vector.replicate 12 initialEntry)
  else { BatterySlot.made count (Vector.replicate 12 initialEntry) with
    crc := wrongCrc 0 (imageCrc count (Config.batteryBytes (Vector.replicate 12 initialEntry))) }

theorem battery_crcOk (count : Count32) (ok : Bool) : (battery count ok).crcOk = ok := by
  cases ok
  · simp [battery, BatterySlot.made, BatterySlot.crcOk, wrongCrc_ne]
  · simp [battery]

theorem battery_marked (count : Count32) (ok : Bool) : (battery count ok).marked = true := by
  cases ok <;> rfl

/-- The part with a transaction in flight. -/
def inFlight (p : Pos) (began : Time) : State :=
  having { initialRack with bus := { initialBus with inFlight := some ⟨p, none, false, began, []⟩ } }

/-- The part with two samples of every slot input, the later of this instant. -/
def sampledTwice : State :=
  { up with inputs := ⟨0, Vector.replicate 48 2, Vector.replicate 48 2⟩ }

/-- A rack with slots 0 and 1 QUEUED, slot 0 the head. -/
def twoQueued : Rack :=
  { initialRack with
    slots := put (put initialRack.slots 0 (slotIn .queued)) 1 (slotIn .queued)
    queue := { initialQueue with entries := [0, 1], head := some ⟨0, 0, false⟩ } }

/-- The environment of a COMMISSIONED part whose plan puts slot 1 first. -/
def turnedPlan : Env :=
  { lockedUp.env with cfg := { lockedCfg with active := put (put defaultPlan 1 ⟨3, 0⟩) 0 ⟨3, 1⟩ } }

/-- A rack with one PSU and one BU of shelf 0, both polled and answering, the BU under a check. -/
def shelfOne : Rack :=
  { initialRack with
    psu := put initialRack.psu 0 { initialPsu with present := true, state := .online }
    bu := put initialRack.bu 0 { initialBu with present := true, state := .idle }
    bus := { initialBus with polledSet := [.psu 0, .bu 0] }
    active := some ⟨0, 0, 0, 0⟩ }

/-- A rack in RIDE_THROUGH with slot 0 ON. -/
def ridingOn : Rack :=
  { slot0 (slotIn .on) with grid := { initialGrid with state := .rideThrough, powered := 1 } }

/-- The COMMISSIONED part with zone 7 given. -/
def zone7 (g : Option Deadline) (st : ZoneState) : State :=
  { lockedUp with leak := { initialLeak with
      zones := put initialLeak.zones 7 { initialZone with state := st, grace := g } } }

/-- A record of one shelf with one PSU and one BU that pass their tests. -/
def oneShelf : CommRecord :=
  { oneSlot with
    shelves := put oneSlot.shelves 0 ⟨⟨1, [0]⟩, ⟨1, [0]⟩, 7⟩
    psus := put oneSlot.psus 0 ⟨6000⟩
    bus := put oneSlot.bus 0 ⟨16000, 1000, 12000, 5000, 10⟩ }

/-- The part at a time. -/
def at_ (t : Time) (s : State) : State := { s with now := t }

/-- A rack with PSU 0 present and ONLINE and one command queued for it. -/
def queuedFor (c : ShelfCmd) : Rack :=
  { psu0 { initialPsu with present := true, state := .online } with
    bus := { initialBus with entries := [⟨.psu 0, c, 0⟩], polledSet := [.psu 0] } }

/-- A recharge frame whose period ends at a time, with BU 0 a member. -/
def framed (period : Nat) (now : Time) : State :=
  at_ now (having { bu0 { initialBu with present := true, state := .idle } with
    bus := { initialBus with polledSet := [.bu 0] }
    rech := { initialRecharge with
      frame := some ⟨0, period⟩
      members := put initialRecharge.members 0 (some (memberOf 1337)) } })

/-! ### Worked figures of the manual -/

/-- The share of 1,337 W of R143: q is 26, f is 11, and the ceiling 27. -/
theorem test_share_1337 : memberOf 1337 = ⟨1337, 26, 11, 27⟩ := by decide

/-- R100's example: D = 7,221 kJ under 40,000 W and 2,400 W gives 170 s. -/
theorem test_energy_figure : holdTime 7221 (40000 + 2400) = 170 := by decide

/-- R24: the addresses of P0/0, P2/5, B0/0 and B2/3. -/
theorem test_addresses : psuAddress 0 = 0x10 ∧ psuAddress 17 = 0x35 ∧ buAddress 0 = 0x18 ∧
    buAddress 11 = 0x3B := by decide

/-- R26, R25: SET_RECHARGE carries its units, and START_CHECK depth and power. -/
theorem test_request_frames :
    (requestFrame (.bu 0) (some (.setRecharge 27))).take 4 = [0x18, 0x31, 1, 27] ∧
    (requestFrame (.bu 0) (some (.startCheck 1080 2000))).take 7
      = [0x18, 0x32, 4, 0x04, 0x38, 0x07, 0xD0] := by decide

/-- R19: a count one above is newer, equal counts and counts 2^31 apart leave the first newer. -/
theorem test_newer : secondNewer 4294967295 0 = true ∧ secondNewer 5 5 = false ∧
    secondNewer 0 2147483648 = false ∧ secondNewer 0 2147483647 = true := by decide

/-- R41: a charge counter that wraps from 65,535 to 0 gives a delta of 1. -/
theorem test_counter_wraps :
    ({ initialBu with baseline := true, lastCounter := 65535 } : BuRec).delta 0 = 1 := by decide

/-- R193: a SHELF section as carried. -/
theorem test_shelf_section :
    ((defaultRecord.write 1 2 [2, 0, 5, 0, 0, 0, 0, 1, 3, 0, 0, 0, 7]).shelves[(2 : Fin 3)])
      = ⟨⟨2, [0, 5]⟩, ⟨1, [3]⟩, 7⟩ := by decide

/-- R188: ten wet readings make a DRY channel WET, and nine do not. -/
theorem test_ten_wet :
    ((List.replicate 10 Reading.wet).foldl Channel.move initialChannel).state = .wet ∧
    ((List.replicate 9 Reading.wet).foldl Channel.move initialChannel).state = .suspect := by
  decide

/-! ### Small commands -/

/-- R188: a sync byte in HUNTING begins a frame. -/
theorem test_frame_begins :
    ∃ t, exec .frameBegin up = .next t ∧ t.link.rxState = .inFrame := ⟨_, rfl, rfl⟩

/-- R188: a stray byte is counted. -/
theorem test_stray_counted :
    ∃ t, exec (.strayByte 0) up = .next t ∧ t.link.stray = 1 := ⟨_, rfl, rfl⟩

/-- R22: a blank store loads the factory defaults, UNCOMMISSIONED. -/
theorem test_load_defaults :
    ∃ t, exec .storeLoadComplete State.reset = .next t ∧ t.cfg.locked = false ∧
      t.boot.loaded = true := ⟨_, rfl, rfl, rfl⟩

/-- R159: the first leak sample comes at the instant of the store load, here 7 ms after power-on, and the
second 100 ms after it. -/
theorem test_first_leak_sample :
    ∃ t, exec .storeLoadComplete (at_ 7 State.reset) = .next t ∧ t.leak.nextSample = some 7 ∧
      ∃ u, exec (.leakSample (Vector.replicate 16 500)) t = .next u ∧
        u.leak.nextSample = some 107 ∧ u.leak.samples = 1 :=
  ⟨_, rfl, rfl, _, rfl, by decide +kernel, by decide +kernel⟩

/-- R159: a LEAK_SAMPLE 1 ms before the instant takes no sample. -/
theorem test_early_leak_sample :
    exec (.leakSample (Vector.replicate 16 0)) (at_ 99 up) = .next (at_ 99 up) := rfl

/-- R87: SLOT_ON with no slot list is BAD_LENGTH. -/
theorem test_slot_on_empty :
    ∃ t, exec (.slotOn 9 []) (asked up 0x10 9 []) = .next t ∧
      t.link.holder = some ⟨0x90, 9, [codeBadLength]⟩ := ⟨_, rfl, rfl⟩

/-- R4: SLOT_ON while UNCOMMISSIONED refuses the index with REFUSED_STATE. -/
theorem test_slot_on_uncommissioned :
    ∃ t, exec (.slotOn 9 [5]) (asked up 0x10 9 [5]) = .next t ∧
      t.link.holder = some ⟨0x90, 9, [codeRefusedState, 0, 0, 1, 5, codeRefusedState]⟩ :=
  ⟨_, rfl, rfl⟩

/-- R190: tag 0 is BAD_INDEX. -/
theorem test_tag_zero :
    ∃ t, exec (.readFaults 0 []) (asked up 0x07 0 []) = .next t ∧
      t.link.holder = some ⟨0x87, 0, [codeBadIndex]⟩ := ⟨_, rfl, rfl⟩

/-- R190: a request before the store is loaded is BUSY. -/
theorem test_busy :
    ∃ t, exec (.readFaults 1 []) (asked State.reset 0x07 1 []) = .next t ∧
      t.link.holder = some ⟨0x87, 1, [codeBusy]⟩ := ⟨_, rfl, rfl⟩

/-- R195: IDENTIFY of a leaf above 2 answers the leaf number alone, before the store is loaded too. -/
theorem test_identify_leaf :
    ∃ t, exec (.identify 1 [3]) (asked State.reset 0x01 1 [3]) = .next t ∧
      t.link.holder = some ⟨0x81, 1, [codeOk, 3]⟩ := ⟨_, rfl, rfl⟩


/-! ### States and operands that meet the hypotheses of the statements

One theorem for each statement that has hypotheses, with one part for each of its clauses. -/

/-- The part at rest with a request. -/
theorem ready_up (kind : Byte) (payload : List Byte) :
    Ready (asked up kind 1 payload) kind 1 payload :=
  asked_ready up kind 1 payload rfl rfl rfl (by decide +kernel)

/-- The part in Safe Hold with a request. -/
theorem ready_holding (kind : Byte) (payload : List Byte) :
    Ready (asked holding kind 1 payload) kind 1 payload :=
  asked_ready holding kind 1 payload rfl rfl rfl (by decide +kernel)

/-- The COMMISSIONED part with a request. -/
theorem ready_locked (kind : Byte) (payload : List Byte) :
    Ready (asked lockedUp kind 1 payload) kind 1 payload :=
  asked_ready lockedUp kind 1 payload rfl rfl rfl (by decide +kernel)

theorem test_witness_StepRunsFront :
    ({ up with pending := [.gateTimer, .powerOn] } : State).pending = .gateTimer :: [.powerOn] := rfl

/-- A gate timer that is due. -/
def gateDue : State :=
  having { initialRack with queue := { initialQueue with timer := some ⟨0, 0⟩ } }

/-- A present BU of a COMMISSIONED part whose count ends within this ms, with no other event due. -/
def countsDown : State :=
  { lockedUp with
    leak := { initialLeak with nextSample := some 100 }
    rack := { bu0 { initialBu with present := true, due := 1, dueMs := 999 } with
      bus := { initialBus with lastBegan := some 0 } } }

/-- The last ms before the wrap, with every timestamp fresh. -/
def lastMs : State :=
  { State.reset with
    now := 4294967295
    rack := { initialRack with
      psu := Vector.replicate 18 { initialPsu with lastReport := 4294967295 }
      bu := Vector.replicate 12 { initialBu with lastReport := 4294967295 }
      slots := Vector.replicate 48 { initialSlot with offSince := 4294967295 } } }

/-- That part at the instant of a leak sample, with no event due. -/
def sampleOwed : State := { countsDown with leak := { initialLeak with nextSample := some 0 } }

/-- That part at the instant of an adoption that is owed, with no event due. -/
def owed : State := at_ 10 { countsDown with boot := ⟨true, true, 0, false⟩ }

theorem test_witness_IdleStep :
    (gateDue.pending = [] ∧ gateDue.dueEvents ≠ []) ∧
    (State.reset.pending = [] ∧ State.reset.dueEvents = []) ∧
    (lastMs.pending = [] ∧ lastMs.dueEvents = [] ∧ lastMs.now = 4294967295) ∧
    (countsDown.pending = [] ∧ countsDown.dueEvents = [] ∧
      ∃ t, step countsDown = .next t ∧ .checkDue 0 ∈ t.pending) ∧
    ((at_ 9 State.reset).dueEvents = [] ∧ ∃ t, step (at_ 9 State.reset) = .next t ∧
      10 ≤ (t.now - (at_ 9 State.reset).inputs.sampled).toNat) ∧
    ((at_ 8 State.reset).dueEvents = [] ∧ ∃ t, step (at_ 8 State.reset) = .next t ∧
      (t.now - (at_ 8 State.reset).inputs.sampled).toNat < 10) ∧
    (owed.pending = [] ∧ owed.dueEvents = [] ∧ owed.boot.adopting = true ∧
      (owed.now - owed.boot.restartAt).toNat = 10) ∧
    ((at_ 9 owed).dueEvents = [] ∧ ((at_ 9 owed).now - (at_ 9 owed).boot.restartAt).toNat ≠ 10 ∧
      (at_ 9 owed).leak.nextSample ≠ some (at_ 9 owed).now) ∧
    (sampleOwed.pending = [] ∧ sampleOwed.dueEvents = [] ∧ sampleOwed.boot.adopting = false ∧
      sampleOwed.leak.nextSample = some sampleOwed.now) ∧
    (State.reset.leak.nextSample ≠ some State.reset.now ∧
      countsDown.leak.nextSample ≠ some countsDown.now ∧
      lastMs.leak.nextSample ≠ some lastMs.now) ∧
    (let b := countsDown.rack.bu[(0 : Fin 12)]
     countsDown.cfg.locked = true ∧ b.present = true ∧ b.phase = .none ∧ 0 < b.due ∧
       999 ≤ b.dueMs) ∧
    (let b := { initialBu with present := true, due := 1, dueMs := 998 }
     ((bu0 b).bu[(0 : Fin 12)]).present = true ∧ ((bu0 b).bu[(0 : Fin 12)]).phase = .none ∧
       0 < ((bu0 b).bu[(0 : Fin 12)]).due ∧ ((bu0 b).bu[(0 : Fin 12)]).dueMs < 999) ∧
    ¬(initialBu.present = true) := by
  refine ⟨by decide +kernel, by decide +kernel, by decide +kernel,
    ⟨rfl, by decide +kernel, _, rfl, by decide +kernel⟩,
    ⟨by decide +kernel, _, rfl, by decide +kernel⟩,
    ⟨by decide +kernel, _, rfl, by decide +kernel⟩, by decide +kernel, by decide +kernel,
    by decide +kernel, by decide +kernel, by decide +kernel, by decide +kernel, by decide +kernel⟩

theorem test_witness_EndOfCommandFrame :
    settled initialRack = true ∧ settled (gridIn .drain) = false ∧
    (let r : Machine.Rack := { initialRack with todo := { emptyTodo with head := true } }
     (passBlocks up.env r).todo.head = true ∧
       settled { passBlocks up.env r with
         todo := { (passBlocks up.env r).todo with head := false } } = true) ∧
    (passBlocks up.env initialRack).todo.head = false := by decide +kernel

theorem test_witness_TransmitLine :
    ({ up.link with holder := some ⟨0x81, 1, []⟩ } : Link).line = .idle ∧
    (up.link.line = .idle ∧ up.boot.pinLow = false ∧ up.link.holder = none) ∧
    (sending (.reply []) false).link.line ≠ .idle ∧
    ({ up with boot := ⟨true, false, 0, true⟩ } : State).boot.pinLow = true := by decide +kernel

theorem test_witness_StoreLoad : State.reset.boot.loaded = false := rfl

/-- A store with two config images. -/
def images (a b : ConfigSlot) : Store := { blankStore with configFirst := a, configSecond := b }

/-- A store with a config write in progress over an intact image. -/
def overIntact : Store :=
  { images (image 5 true) blankStore.configSecond with writing := some (.config blankContent) }

/-- A store with two battery images. -/
def batteries (a b : BatterySlot) : Store := { blankStore with batteryFirst := a, batterySecond := b }

/-- A store with a battery write in progress over an intact image. -/
def overIntactBattery : Store :=
  { batteries (battery 5 true) blankStore.batterySecond with
    writing := some (.battery (Vector.replicate 12 initialEntry)) }

theorem test_witness_PowerOn :
    ((∀ c, blankStore.writing ≠ some (.config c)) ∧
      (∀ c, blankStore.writing ≠ some (.battery c))) ∧
    (overIntact.writing = some (.config blankContent) ∧ overIntact.configA.valid = true ∧
      overIntact.configB.valid = false) ∧
    (overIntactBattery.writing = some (.battery (Vector.replicate 12 initialEntry)) ∧
      overIntactBattery.batteryA.valid = true ∧ overIntactBattery.batteryB.valid = false) ∧
    ((writing (.config blankContent)).store.writing = some (.config blankContent) ∧
      (writing (.config blankContent)).store.configA.valid = false) ∧
    ((writing (.battery blankStore.batteryFirst.content)).store.writing
        = some (.battery blankStore.batteryFirst.content) ∧
      (writing (.battery blankStore.batteryFirst.content)).store.batteryA.valid = false) := by
  have h : overIntact.configFirst.crcOk = true := image_crcOk 5 true
  have k : overIntactBattery.batteryFirst.crcOk = true := battery_crcOk 5 true
  refine ⟨⟨fun _ => nofun, fun _ => nofun⟩, ⟨rfl, ?_, rfl⟩, ⟨rfl, ?_, rfl⟩, ⟨rfl, rfl⟩, rfl, rfl⟩
  · show (true && overIntact.configFirst.crcOk) = true
    rw [h]; rfl
  · show (true && overIntactBattery.batteryFirst.crcOk) = true
    rw [k]; rfl

theorem test_witness_ConfigLoadTable :
    (blankStore.configFirst.marked = false ∧ blankStore.configSecond.marked = false) ∧
    ((image 5 true).marked = true ∧ (image 5 true).crcOk = true ∧
      secondNewer (image 5 true).count (image 5 true).count = false) ∧
    ((image 0 true).marked = true ∧ (image 0 true).crcOk = true ∧
      secondNewer (image 4294967295 true).count (image 0 true).count = true) ∧
    ((image 5 true).crcOk = true ∧ (image 6 false).crcOk = false ∧
      secondNewer (image 5 true).count (image 6 false).count = true) ∧
    ((image 6 false).crcOk = false ∧ (image 5 true).crcOk = true ∧
      secondNewer (image 6 false).count (image 5 true).count = false) ∧
    ((image 6 false).marked = true ∧ (image 6 false).crcOk = false ∧
      blankStore.configSecond.marked = false) ∧
    (blankStore.batteryFirst.marked = false ∧ blankStore.batterySecond.marked = false) ∧
    ((battery 5 true).marked = true ∧ (battery 5 true).crcOk = true ∧
      secondNewer (battery 5 true).count (battery 5 true).count = false) ∧
    ((battery 0 true).marked = true ∧ (battery 0 true).crcOk = true ∧
      secondNewer (battery 4294967295 true).count (battery 0 true).count = true) ∧
    ((battery 5 true).crcOk = true ∧ (battery 6 false).crcOk = false ∧
      secondNewer (battery 5 true).count (battery 6 false).count = true) ∧
    ((battery 6 false).crcOk = false ∧ (battery 5 true).crcOk = true ∧
      secondNewer (battery 6 false).count (battery 5 true).count = false) ∧
    (∀ t : Store, t.configFirst = image 6 false → t.configSecond.marked = false →
      t.batteryFirst = battery 6 false → t.batterySecond.marked = false →
      t.loadFaults = [(.storeCorrupt, 0), (.batteryAreaReset, 1)]) := by
  refine ⟨by decide, ?_, ?_, ?_, ?_, ?_, by decide, ?_, ?_, ?_, ?_, fun t a b c d => ?_⟩
  case refine_10 =>
    simp [Store.loadFaults, Store.configA, Store.configB, Store.batteryA, Store.batteryB, loadFrom,
      a, b, c, d, image_crcOk, image_marked, battery_crcOk, battery_marked]
  all_goals
    simp only [image_crcOk, image_marked, battery_crcOk, battery_marked]
    decide

theorem test_witness_ConfigWriteSafe :
    (overIntact.writing = some (.config blankContent) ∧ overIntact.configA.valid = true ∧
      overIntact.configFirst.crcOk = true ∧ overIntact.configSecond.marked = false) ∧
    (overIntactBattery.writing = some (.battery (Vector.replicate 12 initialEntry)) ∧
      overIntactBattery.batteryA.valid = true ∧ overIntactBattery.batteryFirst.crcOk = true ∧
      overIntactBattery.batterySecond.marked = false ∧ overIntactBattery.batteryB.valid = false) ∧
    overIntact.configB.valid = false ∧
    ((writing (.config blankContent)).store.configA.valid = false ∧
      (writing (.config blankContent)).store.configA.marked = false ∧
      (writing (.config blankContent)).store.configB.marked = false) ∧
    ((writing (.battery blankStore.batteryFirst.content)).store.batteryA.valid = false ∧
      (writing (.battery blankStore.batteryFirst.content)).store.batteryA.marked = false ∧
      (writing (.battery blankStore.batteryFirst.content)).store.batteryB.marked = false) ∧
    (image 0 true).marked = true ∧ (battery 0 true).marked = true ∧
    (1 ≤ ((0 : Count32) - 4294967295).toNat ∧
      ((0 : Count32) - 4294967295).toNat ≤ 2147483647) := by
  have h : overIntact.configFirst.crcOk = true := image_crcOk 5 true
  have k : overIntactBattery.batteryFirst.crcOk = true := battery_crcOk 5 true
  refine ⟨⟨rfl, ?_, h, rfl⟩, ⟨rfl, ?_, k, rfl, rfl⟩, rfl, ⟨rfl, rfl, rfl⟩, ⟨rfl, rfl, rfl⟩,
    image_marked 0 true, battery_marked 0 true, by decide⟩
  · show (true && overIntact.configFirst.crcOk) = true
    rw [h]; rfl
  · show (true && overIntactBattery.batteryFirst.crcOk) = true
    rw [k]; rfl

theorem test_witness_RestartsAndRepliesSent :
    up.boot.pinLow = false ∧
    ((sending (.reply [0xB6]) true).link.line = .reply [0xB6] ∧
      (sending (.reply [0xB6]) true).link.restartOwed = true) ∧
    ((sending (.reply [0xB6]) false).link.line = .reply [0xB6] ∧
      (sending (.reply [0xB6]) false).link.restartOwed = false) := by decide +kernel

theorem test_witness_WarmRestart :
    ((psu0 { initialPsu with present := true }).psu[(0 : Fin 18)]).present = true ∧
    (initialRack.psu[(0 : Fin 18)]).present = false := by decide +kernel

/-- The part 10 ms after a warm restart. -/
def adopting : State := at_ 10 { up with boot := ⟨true, true, 0, false⟩ }

theorem test_witness_AdoptionCompletes :
    (adopting.boot.adopting = true ∧ (adopting.now - adopting.boot.restartAt).toNat = 10) ∧
    up.boot.adopting = false ∧
    ((at_ 11 adopting).now - (at_ 11 adopting).boot.restartAt).toNat ≠ 10 ∧
    (((1 : BitVec 48).getLsbD 0 = true ∧ (0 : BitVec 48).getLsbD 0 = false) ∧
      (({ initialSlot with good := true } : SlotRec)).good = true) ∧
    (((slot0 (slotIn .queued)).slots[(0 : Fin 48)]).good = false ∧
      lockedUp.env.insideRack 0 = true ∧ lockedUp.env.insideRack 1 = false ∧
      ((slot0 (slotIn .queued)).slots[(0 : Fin 48)]).state = .queued ∧
      ((slot0 (slotIn .faulted)).slots[(0 : Fin 48)]).state = .faulted) ∧
    (∀ (x : ZoneState) (d : Option Deadline),
      ((zone7 d x).leak.zones[(7 : Fin 8)]).state = x ∧
      ((zone7 d x).leak.zones[(7 : Fin 8)]).grace = d) ∧
    (5 ≤ ((10 : Time) - 0).toNat ∧ ((10 : Time) - 0).toNat < 11) := by
  refine ⟨by decide +kernel, by decide +kernel, by decide +kernel, by decide +kernel,
    by decide +kernel, fun x d => ?_, by decide +kernel⟩
  simp [zone7, put]

/-- A slot that stands OFF after a warm restart with PERMIT latched on or off. -/
def latched (permit : Bool) : SlotRec := { slotIn .off with permit := permit }

theorem test_witness_AdoptSlotTable :
    ((1 : Fin 48) ≠ 0) ∧
    (((slot0 { initialSlot with permit := true }).slots[(0 : Fin 48)]).state = .disabled ∧
      ((slot0 { initialSlot with permit := true }).slots[(0 : Fin 48)]).permit = true) ∧
    ((initialRack.slots[(0 : Fin 48)]).state = .disabled ∧
      (initialRack.slots[(0 : Fin 48)]).permit = false) ∧
    (((slot0 (latched true)).slots[(0 : Fin 48)]).state ≠ .disabled ∧
      ((slot0 (latched true)).slots[(0 : Fin 48)]).permit = true ∧
      (env7 .clear).slotZoneIsolated 0 = false) ∧
    (((slot0 (latched false)).slots[(0 : Fin 48)]).state ≠ .disabled ∧
      ((slot0 (latched false)).slots[(0 : Fin 48)]).permit = false ∧
      (env7 .alarm).slotZoneIsolated 0 = false) ∧
    (((slot0 (latched true)).slots[(0 : Fin 48)]).state ≠ .disabled ∧
      ((slot0 (latched true)).slots[(0 : Fin 48)]).permit = true ∧
      ((slot0 (latched false)).slots[(0 : Fin 48)]).permit = false ∧
      (env7 .isolated).slotZoneIsolated 0 = true) ∧
    ((gridIn .drain).grid.state = .drain ∧ initialRack.grid.state ≠ .drain) := by decide +kernel

/-- R115: a slot adopted with power while the rack drains is handed the rack drain. -/
theorem test_adopted_in_drain_drains :
    (let r : Rack := { slot0 (latched true) with grid := { initialGrid with state := .drain } }
     let x := (adoptInTurn (env7 .clear) 1 0 r).slots[(0 : Fin 48)]
     x.state = .draining ∧ x.cause = .rackDrain) := by decide +kernel

theorem test_witness_TimestampPinned :
    2 ^ 30 ≤ elapsed 1073741824 0 ∧ elapsed 1073741823 0 < 2 ^ 30 ∧
    (PinTarget.offSince 0) ≠ .headSince := by decide +kernel

theorem test_witness_Receiver :
    (up.link.rxState = .hunting ∧ up.boot.pinLow = false) ∧ (0xB5 : Byte) ≠ 0xB6 ∧
    ({ up with boot := ⟨true, false, 0, true⟩ } : State).boot.pinLow = true ∧
    (receiving .inFrame []).link.rxState = .inFrame := by decide +kernel

theorem test_witness_FrameEnds :
    (receiving .inFrame (List.replicate 3 ⟨7, 1, []⟩)).link.rx.length < 4 ∧
    4 ≤ (receiving .inFrame (List.replicate 4 ⟨7, 1, []⟩)).link.rx.length ∧
    ((receiving .inFrame []).link.rxState = .inFrame ∧ ([] : List Byte).length ≤ 240) ∧
    [0, 0] ≠ u16 (crc16 (u8 0 ++ [7, 1] ++ [])).toNat ∧ 240 < (241 : Byte).toNat := by decide +kernel

/-- A full Notification Queue with a class pending. -/
def fullQueue : NotifQueue :=
  { emptyNotifQueue with
    entries := List.replicate 32 ⟨.grid, 1, 0, 0, 0⟩, pending := put emptyNotifQueue.pending 2 true }

theorem test_witness_Notifications :
    (sending (.notification []) false).link.line = .notification [] ∧
    (∀ c : Fin 8, emptyNotifQueue.pending[c] = false) ∧
    (fullQueue.entries.length ≤ 32 ∧ fullQueue.entries ≠ [] ∧
      fullQueue.pending[NotifClass.slot.index] = true ∧ fullQueue.blocked .slot = false ∧
      ∀ d : NotifClass, d.index < NotifClass.slot.index → fullQueue.pending[d.index] = false) ∧
    (emptyNotifQueue.blocked .slot = false ∧
      ({ emptyNotifQueue with entries := fullQueue.entries.drop 1 } : NotifQueue).entries.length
        < 32) ∧
    32 ≤ fullQueue.entries.length ∧
    ({ emptyNotifQueue with globalMask := true } : NotifQueue).blocked .slot = true := by
  refine ⟨by decide +kernel, by decide +kernel, ⟨by decide +kernel, by decide +kernel, by decide +kernel, by decide +kernel, ?_⟩, by decide +kernel,
    by decide +kernel, by decide +kernel⟩
  intro d; cases d <;> decide +kernel

/-- R184: a departure gives one summary, to the lowest class; room for more gives more, in class order. -/
theorem test_summaries_in_class_order :
    (let q := { fullQueue with pending := put fullQueue.pending 5 true }
     (q.depart 7).entries.drop 31 = [⟨.slot, 0, 2, 7, 0⟩] ∧
     (q.depart 7).pending[(5 : Fin 8)] = true ∧
     (({ q with entries := [] } : NotifQueue).summaries 7).entries
       = [⟨.slot, 0, 2, 7, 0⟩, ⟨.module, 0, 5, 7, 0⟩]) := by decide +kernel

theorem test_witness_RequestsTurnedAway :
    up.executes ⟨0x07, 1, []⟩ = false ∧
    (asked up 0x07 0 []).executes ⟨0x07, 0, []⟩ = true ∧
    ((asked State.reset 0x07 1 []).executes ⟨0x07, 1, []⟩ = true ∧
      (asked State.reset 0x07 1 []).busy = true ∧ (0x07 : Byte) ∈ requestKinds) ∧
    ((asked up 0x55 1 []).executes ⟨0x55, 1, []⟩ = true ∧ (0x55 : Byte) ∉ requestKinds) := by decide +kernel

theorem test_witness_LengthsAndIndices :
    Ready (asked up 0x07 1 [0]) 0x07 1 [0] ∧ Ready (asked up 0x01 1 []) 0x01 1 [] ∧
    Ready (asked up 0x10 1 (List.replicate 49 0)) 0x10 1 (List.replicate 49 0) ∧
    Ready (asked up 0x18 1 (List.replicate 147 0)) 0x18 1 (List.replicate 147 0) ∧
    Ready (asked up 0x20 1 (List.replicate 10 0)) 0x20 1 (List.replicate 10 0) ∧
    Ready (asked up 0x21 1 (List.replicate 4 0)) 0x21 1 (List.replicate 4 0) ∧
    Ready (asked up 0x25 1 (List.replicate 8 0)) 0x25 1 (List.replicate 8 0) ∧
    (Ready (asked up 0x30 1 [0, 0, 1, 0]) 0x30 1 [0, 0, 1, 0] ∧ sectionFits [0, 0, 1, 0] = false) ∧
    Ready (asked up 0x02 1 [5]) 0x02 1 [5] ∧ Ready (asked up 0x03 1 [48]) 0x03 1 [48] ∧
    Ready (asked up 0x04 1 [18]) 0x04 1 [18] ∧ Ready (asked up 0x24 1 [12]) 0x24 1 [12] ∧
    Ready (asked up 0x06 1 [8]) 0x06 1 [8] ∧ Ready (asked up 0x08 1 [6]) 0x08 1 [6] ∧
    Ready (asked up 0x20 1 (8 :: List.replicate 10 0)) 0x20 1 (8 :: List.replicate 10 0) ∧
    Ready (asked up 0x21 1 [16, 0, 0, 0, 0]) 0x21 1 [16, 0, 0, 0, 0] ∧
    Ready (asked up 0x22 1 [8, 0, 0, 0, 0]) 0x22 1 [8, 0, 0, 0, 0] ∧
    Ready (asked up 0x22 1 [7, 3, 0, 0, 0]) 0x22 1 [7, 3, 0, 0, 0] :=
  ⟨ready_up _ _, ready_up _ _, ready_up _ _, ready_up _ _, ready_up _ _, ready_up _ _,
    ready_up _ _, ⟨ready_up _ _, rfl⟩, ready_up _ _, ready_up _ _, ready_up _ _, ready_up _ _,
    ready_up _ _, ready_up _ _, ready_up _ _, ready_up _ _, ready_up _ _, ready_up _ _⟩

theorem test_witness_HeldRefusals :
    holding.held = true ∧ Ready (asked holding 0x10 1 [0]) 0x10 1 [0] ∧
    Ready (asked holding 0x14 1 []) 0x14 1 [] ∧
    Ready (asked holding 0x20 1 (7 :: List.replicate 10 0)) 0x20 1 (7 :: List.replicate 10 0) ∧
    Ready (asked holding 0x21 1 [15, 0, 0, 0, 0]) 0x21 1 [15, 0, 0, 0, 0] ∧
    Ready (asked holding 0x22 1 [7, 2, 0, 0, 0]) 0x22 1 [7, 2, 0, 0, 0] ∧
    (Ready (asked holding 0x30 1 [0, 0, 1, 0, 1]) 0x30 1 [0, 0, 1, 0, 1] ∧
      sectionFits [0, 0, 1, 0, 1] = true) :=
  ⟨rfl, ready_holding _ _, ready_holding _ _, ready_holding _ _, ready_holding _ _,
    ready_holding _ _, ready_holding _ _, rfl⟩

theorem test_witness_ReadRequests :
    ((asked State.reset 0x01 1 [2]).executes ⟨0x01, 1, [2]⟩ = true ∧ (1 : Byte) ≠ 0) ∧
    Ready (asked up 0x02 1 (u8 4)) 0x02 1 (u8 4) ∧ Ready (asked up 0x03 1 (u8 47)) 0x03 1 (u8 47) ∧
    Ready (asked up 0x04 1 (u8 17)) 0x04 1 (u8 17) ∧
    Ready (asked up 0x05 1 (u8 11)) 0x05 1 (u8 11) ∧ Ready (asked up 0x06 1 (u8 7)) 0x06 1 (u8 7) ∧
    Ready (asked up 0x07 1 []) 0x07 1 [] ∧
    ((asked up 0x55 1 []).executes ⟨0x55, 1, []⟩ = true ∧ (0x55 : Byte) ∉ requestKinds) ∧
    (lockedUp.cfg.locked = true ∧ up.cfg.locked = false ∧ 3 ≤ (255 : Byte).toNat ∧
      (List.replicate 48 (0 : Fin 48)).length ≤ 48 ∧ up.rack.queue.history.length ≤ 4) :=
  ⟨by decide +kernel, ready_up _ _, ready_up _ _, ready_up _ _, ready_up _ _, ready_up _ _, ready_up _ _,
    by decide +kernel, by decide +kernel⟩

/-- Fault Banks with a CRITICAL record in bank 3. -/
def critical3 : Faults := ⟨put initialFaults.banks 3 ⟨true, 7, 2, 0, 0, 0⟩, true, none⟩

theorem test_witness_FaultRequests :
    Ready (asked up 0x08 1 (u8 5)) 0x08 1 (u8 5) ∧
    (Ready (asked (having { initialRack with faults := critical3 }) 0x39 1 []) 0x39 1 [] ∧
      critical3.inProgress = true ∧ (critical3.banks[(3 : Fin 6)]).critical = true) ∧
    (Ready (asked holding 0x39 1 []) 0x39 1 [] ∧ holding.rack.faults.inProgress = false ∧
      holding.held = true) ∧
    (Ready (asked up 0x39 1 []) 0x39 1 [] ∧ up.rack.faults.inProgress = false ∧ up.held = false) ∧
    (Ready (asked up 0x25 1 (List.replicate 9 1)) 0x25 1 (List.replicate 9 1) ∧
      (List.replicate 9 (1 : Byte)).length = 9) ∧
    Ready (asked up 0x3A 1 []) 0x3A 1 [] ∧
    (critical3.inProgress = critical3.banks.toList.any Bank.critical ∧
      (critical3.empty 3).inProgress = false ∧ (critical3.empty 2).inProgress = true ∧
      initialFaults.inProgress = false) ∧
    (fullQueue.pending[NotifClass.slot.index] = true ∧ fullQueue.blocked .slot = false ∧
      fullQueue.pending[NotifClass.grid.index] = false) :=
  ⟨ready_up _ _,
    ⟨asked_ready _ _ _ _ rfl rfl rfl (by decide +kernel), rfl, by decide +kernel⟩,
    ⟨ready_holding _ _, rfl, rfl⟩, ⟨ready_up _ _, rfl, rfl⟩, ⟨ready_up _ _, rfl⟩, ready_up _ _,
    by decide +kernel, by decide +kernel⟩

theorem test_witness_ChangeOfState :
    (slot0 (slotIn .off)).Follows lockedUp.env ∧ twoQueued.Follows lockedUp.env ∧
    twoQueued.queue.entries.Pairwise (Precedes lockedUp.env twoQueued.slots) ∧
    ((twoQueued.slots[(1 : Fin 48)]).state = .queued ∧
      twoQueued.queue.head.map QueueHead.slot
        = (enter lockedUp.env 1 .off .offRequest twoQueued).queue.entries.head?) ∧
    twoQueued.queue.head.map QueueHead.slot
      ≠ (enter lockedUp.env 0 .off .offRequest twoQueued).queue.entries.head? ∧
    (enter lockedUp.env 0 .off .offRequest
      (enter lockedUp.env 1 .off .offRequest twoQueued)).queue.entries = [] ∧
    ((twoQueued.slots[(2 : Fin 48)]).state ≠ .queued ∧ SlotState.on.powered = true) := by
  refine ⟨⟨?_, ?_, ?_, ?_, ?_⟩, ⟨?_, ?_, ?_, ?_, ?_⟩, ?_, ?_, ?_, ?_, ?_⟩ <;>
    first | decide +kernel | skip
  unfold Precedes; decide +kernel

theorem test_witness_DrainsAndCuts :
    (1 : Fin 48) ≠ 0 ∧
    (((slot0 (slotIn .on)).slots[(0 : Fin 48)]).state = .on ∧
      ((slot0 (slotIn .on)).slots[(0 : Fin 48)]).parked = false ∧
      lockedUp.env.param 7 ≠ 0) ∧
    (((slot0 { slotIn .on with parked := true }).slots[(0 : Fin 48)]).state = .on ∧
      ((slot0 { slotIn .on with parked := true }).slots[(0 : Fin 48)]).parked = true) ∧
    DrainRequest.leak 0 = .leak 0 ∧
    ((slot0 (slotIn .starting)).slots[(0 : Fin 48)]).state = .starting ∧
    (((slot0 (slotIn .draining)).slots[(0 : Fin 48)]).state = .draining ∧
      ((slot0 (slotIn .draining)).slots[(0 : Fin 48)]).drain = some ⟨.shed, ⟨0, 0⟩⟩) ∧
    ((slot0 (slotIn .queued)).slots[(0 : Fin 48)]).state = .queued ∧
    ((slot0 (slotIn .shed)).slots[(0 : Fin 48)]).state = .shed ∧
    (∀ left : Nat, DrainRequest.shed ≠ .leak left) ∧
    ((slot0 (slotIn .faulted)).slots[(0 : Fin 48)]).state = .faulted ∧
    ¬(((slot0 (slotIn .on)).slots[(0 : Fin 48)]).state = .on ∧
      (((slot0 (slotIn .on)).slots[(0 : Fin 48)]).parked = true ∨ (1 : Nat) = 0)) ∧
    (((slot0 { slotIn .draining with drain := some ⟨.isolated, ⟨0, 0⟩⟩ }).slots[(0 : Fin 48)]).drain
      = some ⟨.isolated, ⟨0, 0⟩⟩) ∧
    (DrainRequest.shed.target = .shed ∧ ¬lockedUp.env.param 7 < (⟨0, 0⟩ : Deadline).left 0) ∧
    DrainTarget.shed.rank < (DrainRequest.leak 0).target.rank := by
  refine ⟨by decide +kernel, by decide +kernel, by decide +kernel, rfl, by decide +kernel, by decide +kernel, by decide +kernel, by decide +kernel,
    fun _ => nofun, by decide +kernel, by decide +kernel, by decide +kernel, by decide +kernel,
    by decide +kernel⟩

/-- R73, R58: a leak drain request takes a shed drain's draw out of the relief and raises DRAIN_CHANGED; a
request that changes nothing has no effect. -/
theorem test_drain_amended :
    (let r := slot0 (slotIn .draining)
     drain lockedUp.env .shed 0 r = r ∧
     (drain lockedUp.env (.leak 9) 0 { r with acct := { r.acct with relief := 2400 } }).acct.relief = 0 ∧
     (drain lockedUp.env (.leak 9) 0 r).notif.entries =
       [⟨.slot, 2, 0, 0, SlotState.isolated.code⟩]) := by decide +kernel

theorem test_witness_SlotLists :
    (1 ≤ [(0 : Byte)].length ∧ (List.replicate 48 (0 : Byte)).length ≤ 48 ∧ up.held = false) ∧
    (∀ kind ∈ [(0x10 : Byte), 0x11, 0x12, 0x13],
      Ready (asked up kind 1 [0]) kind 1 [0] ∧
      Ready (asked up kind 1 (List.replicate 48 0)) kind 1 (List.replicate 48 0)) :=
  ⟨by decide +kernel, fun _ _ => ⟨ready_up _ _, ready_up _ _⟩⟩

theorem test_witness_SlotListsCount :
    up.env.commissioned = false ∧
    (slotOnRule.run lockedUp.env [0] ⟨0, 0, []⟩ initialRack).1.accepted = 0 ∧
    blocksSettled initialRack = true ∧ ((slot0 (slotIn .off)).slots[(0 : Fin 48)]).state.powered = false ∧
    ((slot0 (slotIn .on)).slots[(0 : Fin 48)]).state.powered = true := by decide +kernel

theorem test_witness_SlotRequestTable :
    (lockedUp.env.commissioned = true ∧ (0 : Fin 48).val < lockedUp.env.cfg.record.rack.slotCount) ∧
    ((env7 .watch).slotZoneOpen 0 = true ∧ (env7 .alarm).slotZoneOpen 0 = false ∧
      (env7 .isolated).commissioned = true) ∧
    (∀ st : SlotState, ((slot0 (slotIn st)).slots[(0 : Fin 48)]).state = st) ∧
    (((slot0 { slotIn .faulted with good := true }).slots[(0 : Fin 48)]).state = .faulted ∧
      ((slot0 { slotIn .faulted with good := true }).slots[(0 : Fin 48)]).good = true ∧
      ((slot0 (slotIn .faulted)).slots[(0 : Fin 48)]).good = false) ∧
    drain lockedUp.env .off 0 (slot0 { slotIn .draining with drain := some ⟨.off, ⟨0, 0⟩⟩ })
      = slot0 { slotIn .draining with drain := some ⟨.off, ⟨0, 0⟩⟩ } ∧
    drain lockedUp.env .off 0 (slot0 (slotIn .draining)) ≠ slot0 (slotIn .draining) ∧
    48 ≤ (48 : Byte).toNat ∧
    ((1 : Byte).toNat < 48 ∧ lockedUp.env.cfg.record.rack.slotCount ≤ (1 : Byte).toNat) := by
  refine ⟨by decide +kernel, by decide +kernel, fun st => by cases st <;> decide +kernel,
    by decide +kernel, by decide +kernel, by decide +kernel, by decide +kernel, by decide +kernel⟩

theorem test_witness_RackStartAndStop :
    (Ready (asked up 0x14 1 []) 0x14 1 [] ∧ up.held = false ∧ up.cfg.locked = false) ∧
    (Ready (asked lockedUp 0x14 1 []) 0x14 1 [] ∧ lockedUp.held = false ∧
      lockedUp.cfg.locked = true) ∧
    Ready (asked up 0x15 1 []) 0x15 1 [] ∧ Ready (asked lockedUp 0x15 1 []) 0x15 1 [] ∧
    (∀ st : SlotState, ((slot0 (slotIn st)).slots[(0 : Fin 48)]).state = st) :=
  ⟨⟨ready_up _ _, rfl, rfl⟩, ⟨ready_locked _ _, rfl, rfl⟩, ready_up _ _, ready_locked _ _,
    fun st => by cases st <;> decide +kernel⟩

theorem test_witness_SlotInputs :
    (∀ n : Fin 48, sampledTwice.boot.adopting = false ∧ sampledTwice.inputs.sampled = sampledTwice.now ∧
      2 ≤ sampledTwice.inputs.good[n] ∧ 2 ≤ sampledTwice.inputs.parked[n] ∧
      up.inputs.good[n] < 2 ∧ up.inputs.parked[n] < 2) ∧
    adopting.boot.adopting = true ∧
    (at_ 1 sampledTwice).inputs.sampled ≠ (at_ 1 sampledTwice).now ∧
    (∀ st : SlotState, ((slot0 (slotIn st)).slots[(0 : Fin 48)]).state = st ∧
      ((slot0 (slotIn st)).slots[(0 : Fin 48)]).good = false ∧
      ((slot0 (slotIn st)).slots[(0 : Fin 48)]).parked = false ∧
      ((slot0 { slotIn st with good := true, parked := true }).slots[(0 : Fin 48)]).state = st ∧
      ((slot0 { slotIn st with good := true, parked := true }).slots[(0 : Fin 48)]).good = true ∧
      ((slot0 { slotIn st with good := true, parked := true }).slots[(0 : Fin 48)]).parked = true) ∧
    lockedUp.env.insideRack 0 = true ∧ lockedUp.env.insideRack 1 = false ∧
    (initialRack.slots[(1 : Fin 48)]).state.powered = false ∧
    ((slot0 { slotIn .draining with good := true }).slots[(0 : Fin 48)]).drain
      = some ⟨.shed, ⟨0, 0⟩⟩ ∧
    ¬(true = true ∧ false = true) := by
  refine ⟨by decide +kernel, by decide +kernel, by decide +kernel,
    fun st => by cases st <;> decide +kernel, by decide +kernel, by decide +kernel, by decide +kernel,
    by decide +kernel, by decide +kernel⟩

/-- A rack whose head, slot 0, every gate lets through at 20 s. -/
def grantable : Rack :=
  { slot0 (slotIn .queued) with
    grid := { initialGrid with state := .normal }
    queue := { initialQueue with entries := [0], head := some ⟨0, 0, false⟩ }
    acct := { initialAccount with takenUp := true, a := 60000, adm := 60000 } }

/-- The environment of that rack, its energy gate off. -/
def grantEnv : Env :=
  { env7 .clear with
    now := 20000, cfg := { lockedCfg with params := put defaultParams 12 0 } }

/-- The part whose gate timer ends with a head that every gate lets through. -/
def grants : State :=
  at_ 20000 { lockedUp with
    cfg := grantEnv.cfg
    leak := { initialLeak with firstWindow := true }
    rack := { grantable with queue := { grantable.queue with timer := some ⟨0, 0⟩ } } }

/-- A head that has waited the start wait limit. -/
def waited : State :=
  at_ 600000 (having { initialRack with
    queue := { initialQueue with entries := [0], head := some ⟨0, 0, false⟩ } })

/-- A qualify timer that is due. -/
def qualified : State :=
  having { initialRack with
    grid := { initialGrid with state := .qualify, qualify := some ⟨0, 0⟩ } }

theorem test_witness_Deadlines :
    (((slot0 (slotIn .starting)).slots[(0 : Fin 48)]).state = .starting ∧
      ((slot0 (slotIn .starting)).slots[(0 : Fin 48)]).goodDeadline = some ⟨0, 0⟩) ∧
    (((slot0 (slotIn .draining)).slots[(0 : Fin 48)]).state = .draining ∧
      ((slot0 (slotIn .draining)).slots[(0 : Fin 48)]).drain = some ⟨.shed, ⟨0, 0⟩⟩) ∧
    gateDue.rack.queue.timer = some ⟨0, 0⟩ ∧
    (waited.rack.queue.head = some ⟨0, 0, false⟩ ∧
      1000 * waited.env.param 4 ≤ (waited.now - 0).toNat ∧
      firstFailing (gates waited.env waited.rack 0) = some (gate1 waited.env waited.rack)) ∧
    (let s := at_ 600000 grants
     s.rack.queue.head = some ⟨0, 0, false⟩ ∧ 1000 * s.env.param 4 ≤ (s.now - 0).toNat ∧
      firstFailing (gates s.env s.rack 0) = none ∧ (s.rack.slots[(0 : Fin 48)]).state = .queued) ∧
    (qualified.rack.grid.state = .qualify ∧ qualified.rack.grid.qualify = some ⟨0, 0⟩) ∧
    (lockedUp.env.autoRestore = true ∧ ((slot0 (slotIn .shed)).slots[(0 : Fin 48)]).state = .shed ∧
      lockedUp.env.slotZoneOpen 0 = true) ∧
    (grantEnv.param 12 = 0 ∧
      ({ grantEnv with cfg := { lockedCfg with params := put defaultParams 13 0 } } : Env).param 13 = 0) ∧
    (total 48 (drawOf turnedPlan twoQueued) = 0 ∧ twoQueued.queue.entries.Nodup ∧
      ∀ n : Fin 48, n ∈ twoQueued.queue.entries ↔ (twoQueued.slots[n]).state = .queued) := by
  decide +kernel

/-- R14, R118: an armed commit taken at the entry to NORMAL sorts the Start Queue under its plan, and with
auto-restore off a SHED slot stays. -/
theorem test_armed_entry_to_normal :
    (enterNormal turnedPlan true twoQueued).queue.entries = [1, 0] ∧
    (enterNormal turnedPlan false twoQueued).queue.entries = [0, 1] ∧
    (let e : Env := { lockedUp.env with cfg := { lockedCfg with params := put defaultParams 13 0 } }
     ((enterNormal e true (slot0 (slotIn .shed))).slots[(0 : Fin 48)]).state = .shed) := by
  decide +kernel

/-- R16, R104: a start wait limit lowered to the present wait sends START_STALLED within SET_PARAM. -/
theorem test_lowered_wait_limit_stalls :
    stallDue (at_ 90000 waited).env waited.rack = false ∧
    (((at_ 90000 waited).setParam 4 60).rack.queue.head.map QueueHead.stallSent) = some true := by
  decide +kernel

theorem test_witness_PlanRequests :
    Ready (asked up 0x18 1 (u8 47 ++ [5, 255])) 0x18 1 (u8 47 ++ [5, 255]) ∧
    (let p : List Byte := [47, 1, 0, 48, 5, 0, 255, 0, 0]
     Ready (asked up 0x18 1 p) 0x18 1 p ∧ p.length % 3 = 0 ∧ p ≠ [] ∧ p.length ≤ 144 ∧
      planEntries p = [(47, 1, 0), (48, 5, 0), (255, 0, 0)]) ∧
    (Ready (asked (having (gridIn .normal)) 0x19 1 []) 0x19 1 [] ∧
      (having (gridIn .normal)).held = false ∧ (gridIn .normal).grid.state = .normal) ∧
    (Ready (asked up 0x19 1 []) 0x19 1 [] ∧ up.rack.grid.state ≠ .normal) ∧
    Ready (asked up 0x1A 1 []) 0x1A 1 [] ∧
    (twoQueued.queue.entries.Nodup ∧
      twoQueued.queue.head.map QueueHead.slot
        = (resortQueue lockedUp.env twoQueued).queue.entries.head? ∧
      twoQueued.queue.head.map QueueHead.slot
        ≠ (resortQueue turnedPlan twoQueued).queue.entries.head?) :=
  ⟨ready_up _ _, ⟨ready_up _ _, by decide +kernel⟩,
    ⟨asked_ready _ _ _ _ rfl rfl rfl (by decide +kernel), rfl, rfl⟩, ⟨ready_up _ _, by decide +kernel⟩,
    ready_up _ _, by decide +kernel⟩

/-- The COMMISSIONED part with slot 0 ON, which holds profile 0 in use. -/
def inUse : State := { lockedUp with rack := slot0 (slotIn .on) }

theorem test_witness_ProfileAndParameter :
    (up.held = false ∧ inUse.held = false) ∧
    (let p := u8 0 ++ u16 65535 ++ u16 0 ++ u16 0 ++ u16 0 ++ u16 0
     Ready (asked inUse 0x20 1 p) 0x20 1 p ∧ inUse.profileInUse 0 = true) ∧
    (let p := u8 7 ++ u16 65535 ++ u16 0 ++ u16 0 ++ u16 0 ++ u16 0
     Ready (asked up 0x20 1 p) 0x20 1 p ∧ up.profileInUse 7 = false) ∧
    (Ready (asked up 0x21 1 (u8 5 ++ u32 60)) 0x21 1 (u8 5 ++ u32 60) ∧
      up.rack.grid.state ≠ .normal) ∧
    (Ready (asked up 0x21 1 (u8 15 ++ u32 4294967295)) 0x21 1 (u8 15 ++ u32 4294967295) ∧
      (15 : Fin 16) ∉ [(5 : Fin 16), 6, 7, 11]) ∧
    (lockedUp.env.cfg.locked = true ∧ lockedUp.env.marks.slotOn[(0 : Fin 48)] = true ∧
      (lockedUp.env.cfg.record.slots[(0 : Fin 48)]).profile = (0 : Fin 8).val) ∧
    up.env.cfg.locked = false ∧
    (∀ st : SlotState, ((slot0 (slotIn st)).slots[(0 : Fin 48)]).state = st) ∧
    (zeroProfile.valid = (up.cfg.profiles[(7 : Fin 8)]).valid ∧
      zeroProfile.valid ≠ (up.cfg.profiles[(0 : Fin 8)]).valid) ∧
    (grants.rack.queue.head = some ⟨0, 0, false⟩ ∧
      (grants.cfg.record.slots[(0 : Fin 48)]).profile = (0 : Fin 8).val ∧
      (grants.cfg.record.slots[(0 : Fin 48)]).profile ≠ (7 : Fin 8).val ∧
      1000 * 20 ≤ (grants.now - 0).toNat ∧ ¬1000 * 21 ≤ (grants.now - 0).toNat) :=
  ⟨⟨rfl, rfl⟩, ⟨asked_ready _ _ _ _ rfl rfl rfl (by decide +kernel), by decide +kernel⟩, ⟨ready_up _ _, by decide +kernel⟩,
    ⟨ready_up _ _, by decide +kernel⟩, ⟨ready_up _ _, by decide +kernel⟩, by decide +kernel, rfl,
    fun st => by cases st <;> decide +kernel, by decide +kernel, by decide +kernel⟩

/-- The part UNCOMMISSIONED with a record that locks. -/
def lockableUp : State := { up with cfg := { defaultCfg with record := oneSlot } }

/-- That part with a WET channel. -/
def wetUp : State :=
  { lockableUp with leak := { initialLeak with
      channels := put initialLeak.channels 15 { initialChannel with state := .wet } } }

/-- That part with a SUSPECT channel and no WET one. -/
def suspectUp : State :=
  { lockableUp with leak := { initialLeak with
      channels := put initialLeak.channels 15 { initialChannel with state := .suspect } } }

/-- The part COMMISSIONED, in NORMAL with no slot powered. -/
def unlockable : State := { lockedUp with rack := gridIn .normal }

theorem test_witness_CommissionRequests :
    (Ready (asked lockedUp 0x30 1 [0, 0, 1, 0, 1]) 0x30 1 [0, 0, 1, 0, 1] ∧
      lockedUp.held = false ∧ fieldLength 0 = some [(1 : Byte), 0, 1].length ∧
      sectionCount 0 ≤ (1 : Byte).toNat) ∧
    Ready (asked up 0x30 1 [0, 1, 1, 0, 1]) 0x30 1 [0, 1, 1, 0, 1] ∧
    (Ready (asked lockedUp 0x31 1 []) 0x31 1 [] ∧ lockedUp.cfg.locked = true) ∧
    (Ready (asked up 0x31 1 []) 0x31 1 [] ∧ up.cfg.locked = false ∧
      up.cfg.record.rack.lockable = false) ∧
    (Ready (asked wetUp 0x31 1 []) 0x31 1 [] ∧ wetUp.leak.latched = true) ∧
    (Ready (asked lockableUp 0x31 1 []) 0x31 1 [] ∧ lockableUp.cfg.locked = false ∧
      lockableUp.cfg.record.rack.lockable = true ∧ lockableUp.leak.latched = false) ∧
    (Ready (asked up 0x32 1 []) 0x32 1 [] ∧ up.cfg.locked = false) ∧
    (Ready (asked lockedUp 0x32 1 []) 0x32 1 [] ∧ lockedUp.canUnlock = false) ∧
    (Ready (asked unlockable 0x32 1 []) 0x32 1 [] ∧ unlockable.cfg.locked = true ∧
      unlockable.canUnlock = true) ∧
    ((List.replicate 6 (255 : Byte)).length = 6 ∧ (List.replicate 4 (255 : Byte)).length = 4) ∧
    (let l := (List.finRange 48).filter fun n => n.val < oneSlot.rack.slotCount
     l.Nodup ∧ l.length = 1) :=
  ⟨⟨ready_locked _ _, rfl, rfl, by decide +kernel⟩, ready_up _ _, ⟨ready_locked _ _, rfl⟩,
    ⟨ready_up _ _, rfl, by decide +kernel⟩, ⟨asked_ready _ _ _ _ rfl rfl rfl (by decide +kernel), by decide +kernel⟩,
    ⟨asked_ready _ _ _ _ rfl rfl rfl (by decide +kernel), rfl, by decide +kernel, by decide +kernel⟩,
    ⟨ready_up _ _, rfl⟩, ⟨ready_locked _ _, by decide +kernel⟩,
    ⟨asked_ready _ _ _ _ rfl rfl rfl (by decide +kernel), rfl, by decide +kernel⟩, by decide +kernel,
    by decide +kernel⟩

/-- The UNCOMMISSIONED part in NORMAL with that record, a command waiting for BU 0, and a recharge frame
running on a pool. -/
def framedUp (pool : Nat) : State :=
  { lockableUp with
    cfg := { defaultCfg with record := oneShelf }
    rack := { initialRack with
      bus := { initialBus with entries := [⟨.bu 0, .restore, 0⟩] }
      grid := { initialGrid with state := .normal }
      acct := { initialAccount with takenUp := true }
      rech := { initialRecharge with pool := pool, frame := some ⟨0, 1⟩ } } }

/-- R35, R44, R56: a lock keeps the queue entry of a present position whose record it makes LOST (log entry
50), and a shortfall entered at the lock restarts the frame on a pool of 0. -/
theorem test_lock_entries_and_frame :
    (∀ pool : Fin 2,
      (let s := framedUp pool.val
       s.rack.acct.shortfall = false ∧ s.lock.rack.acct.shortfall = true ∧
       s.rack.rech.frame ≠ none ∧ s.lock.rack.rech.pool = 0 ∧
       (s.lock.rack.bu[(0 : Fin 12)]).state = .lost ∧
       s.rack.rech.members[(0 : Fin 12)] = none ∧
       s.lock.rack.bus.entry (.bu 0) = some ⟨.bu 0, .restore, 0⟩)) := by decide +kernel

theorem test_witness_LockAndUnlock :
    (∀ n : Fin 48, (lockableUp.rack.slots[n]).state = .disabled) ∧
    (let s : State := { lockableUp with cfg := { defaultCfg with record := oneShelf } }
     (s.lock.rack.psu[(0 : Fin 18)]).present = true ∧ (s.lock.rack.bu[(0 : Fin 12)]).present = true ∧
     (s.rack.bu[(0 : Fin 12)]).lockPresent = false ∧
     (s.lock.rack.bu[(1 : Fin 12)]).present = false ∧
     (s.lock.rack.psu[(1 : Fin 18)]).present = false ∧
     ({ s.rack.bu[(0 : Fin 12)] with lockPresent := true } : BuRec).lockPresent = true ∧
     (s.rack.bu[(0 : Fin 12)]).state = .absent ∧
     (shelfOne.bu[(0 : Fin 12)]).state ≠ .absent) ∧
    (wetUp.leak.channels[(15 : Fin 16)]).state = .wet ∧
    ((∀ c : Fin 16, (suspectUp.leak.channels[c]).state ≠ .wet) ∧
      (suspectUp.leak.channels[(15 : Fin 16)]).state = .suspect) ∧
    (∀ c : Fin 16, (lockableUp.leak.channels[c]).state = .dry) ∧ (7 : Fin 8) ≠ 0 := by
  decide +kernel

theorem test_witness_StoreCommands :
    Ready (asked up 0x38 1 []) 0x38 1 [] ∧
    (writing (.config blankContent)).store.writing = some (.config blankContent) ∧
    (writing (.battery blankStore.batteryFirst.content)).store.writing
      = some (.battery blankStore.batteryFirst.content) ∧
    (({ blankStore with saving := true } : Store).writing = none ∧
      ({ blankStore with saving := true } : Store).saving = true) ∧
    (({ blankStore with batteryWaiting := true } : Store).saving = false ∧
      ({ blankStore with batteryWaiting := true } : Store).batteryWaiting = true) ∧
    (writing (.config blankContent)).store.writing ≠ none :=
  ⟨ready_up _ _, rfl, rfl, ⟨rfl, rfl⟩, ⟨rfl, rfl⟩, nofun⟩

theorem test_witness_ChannelMoves :
    ((20 : Nat) ≤ 20 ∧ (20 : Nat) < 21 ∧ (30 : Nat) ≤ 30 ∧ (29 : Nat) < 30) ∧
    (∀ st : ChanState, ∀ k : Nat, ({ initialChannel with
      state := st, wetCount := k, openCount := k, dryCount := k } : Channel).state = st) ∧
    (({ initialChannel with wetCount := 8 } : Channel).wetCount < 9 ∧
      ({ initialChannel with wetCount := 9 } : Channel).wetCount = 9 ∧
      ({ initialChannel with openCount := 3 } : Channel).openCount < 4 ∧
      ({ initialChannel with openCount := 4 } : Channel).openCount = 4 ∧
      ({ initialChannel with dryCount := 3 } : Channel).dryCount < 4 ∧
      ({ initialChannel with dryCount := 4 } : Channel).dryCount = 4) :=
  ⟨by decide +kernel, fun _ _ => rfl, by decide +kernel⟩

/-- A zone in ALARM whose grace ends now. -/
def graceEnds : State :=
  { up with leak := { initialLeak with
      zones := put initialLeak.zones 7 { initialZone with state := .alarm, grace := some ⟨0, 0⟩ } } }

/-- The COMMISSIONED part with channel 0 used in zone 7, WET, with a dry run. -/
def wetZone (run : Nat) : State :=
  { lockedUp with
    cfg := { lockedCfg with record := { oneSlot with
      channels := put oneSlot.channels 0 ⟨7, 100, 900⟩ } }
    marks := { lockedUp.marks with channelUsed := put noMarks.channelUsed 0 true }
    leak := { initialLeak with
      channels := put initialLeak.channels 0 { initialChannel with state := .wet, dryRun := run } }
    rack := slot0 (slotIn .isolated) }

theorem test_witness_LeakEvents :
    ((at_ 100 up).leak.nextSample = some (at_ 100 up).now ∧
      (at_ 99 up).leak.nextSample ≠ some (at_ 99 up).now) ∧
    ((at_ 100 lockedUp).leak.nextSample = some (at_ 100 lockedUp).now) ∧
    (lockedUp.channelZone 0 = none ∧
      ({ lockedUp with
        cfg := { lockedCfg with record := { oneSlot with
          channels := put oneSlot.channels 0 ⟨7, 100, 900⟩ } }
        marks := { noMarks with channelUsed := put noMarks.channelUsed 0 true } } : State).channelZone 0
          ≠ none) ∧
    ((graceEnds.leak.zones[(7 : Fin 8)]).state = .alarm ∧
      (graceEnds.leak.zones[(7 : Fin 8)]).grace = some ⟨0, 0⟩ ∧ graceEnds.boot.adopting = false) ∧
    (∀ x : ZoneState, ((zone7 none x).leak.zones[(7 : Fin 8)]).state = x) ∧
    ((wetZone 0).channelZone 0 = some 7 ∧ ((wetZone 0).leak.channels[(0 : Fin 16)]).state = .wet ∧
      (wetZone 0).boot.adopting = false ∧ adopting.boot.adopting = true) ∧
    (suspectUp.channelZone 15 = some 0 ∧
      (suspectUp.leak.channels[(15 : Fin 16)]).state = .suspect) ∧
    (∀ c : Fin 16, (up.leak.channels[c]).state = .dry) ∧
    (twoQueued.queue.head = some ⟨0, 0, false⟩ ∧ lockedUp.env.slotZone 0 = some 7) ∧
    (let old := up.leak.channels[(0 : Fin 16)]
     let read := fun level => (old.move (classify (up.wetAt 0) (up.openAt 0) level)).state
     up.channelZone 0 = some 0 ∧ read 256 ≠ old.state ∧ read 257 = old.state ∧
       read 960 = old.state) := by
  refine ⟨by decide +kernel, by decide +kernel, by decide +kernel, by decide +kernel,
    fun x => by cases x <;> decide +kernel, by decide +kernel, by decide +kernel, by decide +kernel,
    by decide +kernel, by decide +kernel⟩

theorem test_witness_ZoneIsolation :
    up.action 7 = .isolateAfterGrace ∧
    ({ up with cfg := { defaultCfg with
      leakTable := put defaultLeakTable 7 ⟨.notifyOnly, 30, false⟩ } } : State).action 7
        = .notifyOnly ∧
    ({ up with cfg := { defaultCfg with
      leakTable := put defaultLeakTable 7 ⟨.isolateNow, 30, false⟩ } } : State).action 7
        = .isolateNow ∧
    (lockedUp.env.slotZone 0 = some 7 ∧ lockedUp.env.slotZone 1 ≠ some 7) ∧
    (∀ st : SlotState, ((slot0 (slotIn st)).slots[(0 : Fin 48)]).state = st) ∧
    (SlotState.on.powered = true ∧ SlotState.off.powered = false) ∧
    (psuShelf 0 = 0 ∧ (shelfOne.psu[(0 : Fin 18)]).present = true ∧
      takesOffers lockedUp.env shelfOne (.psu 0) = true ∧
      (shelfOne.psu[(1 : Fin 18)]).present = false) ∧
    (buShelf 0 = 0 ∧ (shelfOne.bu[(0 : Fin 12)]).present = true ∧
      takesOffers lockedUp.env shelfOne (.bu 0) = true ∧
      (shelfOne.bu[(1 : Fin 12)]).present = false ∧ shelfOne.active = some ⟨0, 0, 0, 0⟩) := by
  refine ⟨by decide +kernel, by decide +kernel, by decide +kernel, by decide +kernel,
    fun st => by cases st <;> decide +kernel, by decide +kernel, by decide +kernel, by decide +kernel⟩

/-- The COMMISSIONED part with the modules of one shelf, which stands in zone 7 and is held isolated
there. -/
def heldShelf : State :=
  { lockedUp with
    cfg := { lockedCfg with record := oneShelf }
    marks := { lockedUp.marks with shelfOn := put noMarks.shelfOn 0 true }
    leak := { initialLeak with
      zones := put initialLeak.zones 7
        { initialZone with state := .isolated, shelves := put initialZone.shelves 0 true } }
    rack := shelfOne }

/-- R167, R171: the hypotheses of the clauses on one shelf's modules, isolated and given back. -/
theorem test_witness_shelves :
    heldShelf.zoneShelves 7 = [0] ∧ heldShelf.heldShelves 7 = [0] ∧
    (heldShelf.rack.bu[(0 : Fin 12)]).present = true ∧
    (heldShelf.rack.psu[(0 : Fin 18)]).present = true ∧
    takesOffers heldShelf.env heldShelf.rack (.bu 0) = true ∧
    takesOffers heldShelf.env heldShelf.rack (.psu 0) = true ∧
    heldShelf.rack.bus.entry (.bu 0) = none ∧ heldShelf.rack.bus.entry (.psu 0) = none ∧
    heldShelf.rack.grid.state = .startup ∧ (heldShelf.rack.bu[(1 : Fin 12)]).present = false ∧
    ((heldShelf.clearZone 7).rack.bus.entry (.bu 0)).map CmdEntry.cmd = some .restore := by
  decide +kernel

theorem test_witness_LeakRequests :
    (let p := u8 7 ++ u8 LeakAction.isolateNow.code ++ u16 65535 ++ [2]
     Ready (asked up 0x22 1 p) 0x22 1 p ∧ up.held = false ∧ up.cfg.locked = false) ∧
    (∀ (g : Option Deadline) (st : ZoneState),
      ((zone7 g st).leak.zones[(7 : Fin 8)]).state = st ∧
      ((zone7 g st).leak.zones[(7 : Fin 8)]).grace = g ∧ (zone7 g st).cfg.locked = true ∧
      ((zone7 g st).cfg.leakTable[(7 : Fin 8)]).shelfIsolate = false) ∧
    (Ready (asked (wetZone 9) 0x23 1 (u8 7)) 0x23 1 (u8 7) ∧ (wetZone 9).channelZone 0 = some 7 ∧
      ((wetZone 9).leak.channels[(0 : Fin 16)]).dryRun ≠ 10 ∧
      ∀ d : Fin 16, ¬d < 0) ∧
    (Ready (asked (wetZone 10) 0x23 1 (u8 7)) 0x23 1 (u8 7) ∧
      (∀ c : Fin 16, (wetZone 10).channelZone c = some 7 →
        ((wetZone 10).leak.channels[c]).dryRun = 10) ∧
      ((wetZone 10).leak.channels[(0 : Fin 16)]).state = .wet ∧
      (wetZone 10).env.slotZone 0 = some 7 ∧ (wetZone 10).env.slotZone 1 ≠ some 7 ∧
      ((wetZone 10).rack.slots[(0 : Fin 48)]).state = .isolated ∧ (6 : Fin 8) ≠ 7) ∧
    (((slot0 { slotIn .draining with drain := some ⟨.isolated, ⟨0, 0⟩⟩ }).slots[(0 : Fin 48)]).drain
        = some ⟨.isolated, ⟨0, 0⟩⟩ ∧
      (put initialZone.shelves 0 true)[psuShelf 0] = true ∧
      (put initialZone.shelves 0 true)[buShelf 0] = true) ∧
    ((shelfOne.psu[(0 : Fin 18)]).present = true ∧ (shelfOne.bu[(0 : Fin 12)]).present = true ∧
      takesOffers lockedUp.env shelfOne (.psu 0) = true ∧
      takesOffers lockedUp.env shelfOne (.bu 0) = true ∧
      shelfOne.bus.entry (.psu 0) = none ∧ shelfOne.bus.entry (.bu 0) = none ∧
      shelfOne.grid.state ≠ .drain ∧ shelfOne.grid.state ≠ .dark ∧ up.env.cfg.locked = false ∧
      (gridIn .dark).grid.state = .dark ∧ (shelfOne.psu[(1 : Fin 18)]).present = false) :=
  ⟨⟨ready_up _ _, rfl, rfl⟩, fun _ _ => ⟨rfl, rfl, rfl, rfl⟩,
    ⟨asked_ready _ _ _ _ rfl rfl rfl (by decide +kernel), by decide +kernel, by decide +kernel, fun d => by omega⟩,
    ⟨asked_ready _ _ _ _ rfl rfl rfl (by decide +kernel), by decide +kernel, by decide +kernel, by decide +kernel, by decide +kernel,
      by decide +kernel, by decide +kernel⟩, by decide +kernel, by decide +kernel⟩

theorem test_witness_BusEvents :
    (up.boot.loaded = true ∧ up.rack.bus.cycle = none ∧ up.rack.bus.lastBegan = none ∧
      up.rack.bus.abandoned = none) ∧
    (validResponse 0 initialBus [] = false ∧ initialBus.inFlight = none) ∧
    ((at_ 5 (inFlight (.psu 0) 0)).rack.bus.inFlight = some ⟨.psu 0, none, false, 0, []⟩ ∧
      5 ≤ ((at_ 5 (inFlight (.psu 0) 0)).now - 0).toNat) ∧
    (((psu0 { initialPsu with miss := 2 }).psu[(0 : Fin 18)]).miss = 2 ∧
      (initialRack.psu[(0 : Fin 18)]).miss ≠ 2 ∧ (1 : Fin 18) ≠ 0) ∧
    (((bu0 { initialBu with miss := 2 }).bu[(0 : Fin 12)]).miss = 2 ∧
      (initialRack.bu[(0 : Fin 12)]).miss ≠ 2 ∧ (1 : Fin 12) ≠ 0) ∧
    lockedUp.env.cfg.locked = true ∧ up.env.cfg.locked = false ∧
    (shelfOne.active = some ⟨0, 0, 0, 0⟩ ∧ initialRack.active = none) := by decide +kernel

/-- R28: a response is valid within the window, from its address, with an input status up to 2. -/
theorem test_valid_response :
    (let b := (inFlight (.psu 17) 0).rack.bus
     let frame := fun input : Byte => shelfFrame 0x35 0x90 [1, input, 23, 112, 0, 0]
     validResponse 5 b (frame 2) = true ∧ validResponse 6 b (frame 2) = false ∧
     validResponse 5 b (frame 3) = false ∧
     validResponse 5 b (shelfFrame 0x34 0x90 [1, 2, 23, 112, 0, 0]) = false) := by decide +kernel

theorem test_witness_PsuReports :
    ((at_ 5 (inFlight (.psu 17) 0)).rack.bus.inFlight = some ⟨.psu 17, none, false, 0, []⟩ ∧
      ((at_ 5 (inFlight (.psu 17) 0)).now - 0).toNat ≤ 5) ∧
    (1 : Fin 18) ≠ 17 ∧
    ((⟨true, true, .ok, 6000, 0⟩ : PsuReport).fault = true ∧
      (⟨false, true, .ok, 6000, 0⟩ : PsuReport).fault = false ∧
      (initialRack.psu[(17 : Fin 18)]).state ≠ .failed) ∧
    (initialPsu.state = initialRack.psu[(17 : Fin 18)].state ∧
      ({ initialPsu with state := .lost } : PsuRec).state ≠ initialPsu.state ∧
      ({ initialPsu with capability := 1 } : PsuRec).capability ≠ initialPsu.capability ∧
      ({ initialPsu with input := .ok } : PsuRec).input ≠ initialPsu.input) ∧
    (initialBus.entry (.psu 17) = none ∧
      (queuedFor .outputOff).bus.entry (.psu 0) ≠ none ∧
      ((psu0 { initialPsu with commandedOn := true }).psu[(0 : Fin 18)]).commandedOn = true ∧
      ((psu0 { initialPsu with commandedOn := false }).psu[(0 : Fin 18)]).commandedOn = false) ∧
    (inFlight (.psu 17) 0).rack.bus.inFlight = some ⟨.psu 17, none, false, 0, []⟩ := by
  decide +kernel

theorem test_witness_BuReports :
    ((at_ 5 (inFlight (.bu 11) 0)).rack.bus.inFlight = some ⟨.bu 11, none, false, 0, []⟩ ∧
      ((at_ 5 (inFlight (.bu 11) 0)).now - 0).toNat ≤ 5) ∧
    ((⟨.idle, 0, 0, 0, 0⟩ : BuReport).mode ≠ .full ∧
      (initialRack.bu[(11 : Fin 12)]).phase = .none) ∧
    (1 : Fin 12) ≠ 11 ∧
    ((⟨.failed, 0, 0, 0, 0⟩ : BuReport).mode = .failed ∧
      (initialRack.bu[(11 : Fin 12)]).state ≠ .failed) ∧
    (let b := { initialBu with present := true, phase := .running }
     (⟨.full, 0, 0, 0, 0⟩ : BuReport).mode = .full ∧ b.present = true ∧ b.state ≠ .full ∧
     b.phase = .running ∧ (⟨.idle, 0, 0, 0, 0⟩ : BuReport).mode = .idle ∧
     shelfOne.active = some ⟨0, 0, 0, 0⟩) ∧
    (∃ (x : Transaction) (depth power : Nat), x.cmd = some (.startCheck depth power)) ∧
    (∀ st : BuState, ((bu0 { initialBu with state := st }).bu[(0 : Fin 12)]).state = st) ∧
    ((gridIn .dark).grid.state = .dark ∧
      ((bu0 { initialBu with state := .idle }).bu[(0 : Fin 12)]).usable = false ∨
      ((bu0 { initialBu with present := true, state := .idle }).bu[(0 : Fin 12)]).usable = true) ∧
    ((framed 1 0).rack.rech.members[(0 : Fin 12)]).isSome = true ∧
    (initialBus.entry (.bu 0) = none ∧
      ({ initialBu with commandedIsolate := true } : BuRec).commandedIsolate = true ∧
      initialBu.commandedIsolate = false) :=
  ⟨by decide +kernel, by decide +kernel, by decide +kernel, by decide +kernel, by decide +kernel,
    ⟨⟨.bu 0, some (.startCheck 0 0), false, 0, []⟩, 0, 0, rfl⟩,
    fun st => by cases st <;> decide +kernel, by decide +kernel, by decide +kernel, by decide +kernel⟩

theorem test_witness_OfferTable :
    (.psu 0) ∉ initialRack.bus.polledSet ∧
    polled lockedUp.env initialRack (.psu 0) = false ∧
    isLost (psu0 { initialPsu with present := true, state := .lost }) (.psu 0) = true ∧
    ((.psu 0) ∈ (queuedFor .outputOff).bus.polledSet ∧
      polled lockedUp.env (queuedFor .outputOff) (.psu 0) = true ∧
      isLost (queuedFor .outputOff) (.psu 0) = false ∧
      (queuedFor .outputOff).bus.entry (.psu 0) = some ⟨.psu 0, .outputOff, 0⟩) ∧
    ((.psu 0) ∈ shelfOne.bus.polledSet ∧ polled lockedUp.env shelfOne (.psu 0) = true ∧
      isLost shelfOne (.psu 0) = false ∧ shelfOne.bus.entries = []) ∧
    (ShelfCmd.outputOff.cls = 1 ∧ ShelfCmd.outputOn.cls ≠ 1 ∧ ShelfCmd.outputOn ≠ .outputOff ∧
      (queuedFor .outputOn).bus.entry (.psu 0) = some ⟨.psu 0, .outputOn, 0⟩) ∧
    ((queuedFor .outputOff).bus.entries.map CmdEntry.pos).Nodup := by decide +kernel

/-- R35: an entry replaced while its command is in flight leaves the transaction marked. -/
theorem test_replaced_in_flight :
    (let r := queuedFor .outputOn
     let sent : Transaction := ⟨.psu 0, some .outputOn, false, 0, []⟩
     (offer lockedUp.env (.psu 0) .outputOff
       { r with bus := { r.bus with inFlight := some sent } }).bus.inFlight
         = some { sent with replaced := true }) := by decide +kernel

/-- A bus with a poll cycle that has PSU 0 due. -/
def cycling (entries : List CmdEntry) (since : Nat) : Rack :=
  { psu0 { initialPsu with present := true } with
    bus := { initialBus with
      entries := entries, sincePoll := since, cycle := some ⟨0, [.psu 0]⟩ } }

theorem test_witness_ArbiterOrder :
    busFree up.env (inFlight (.psu 0) 0).rack = false ∧
    (initialBus.entries = [] ∧ duePolls lockedUp.env initialRack = []) ∧
    (busFree lockedUp.env (cycling [⟨.psu 0, .outputOff, 0⟩] 3) = true ∧
      (cycling [⟨.psu 0, .outputOff, 0⟩] 3).bus.entries ≠ [] ∧
      (cycling [⟨.psu 0, .outputOff, 0⟩] 3).bus.sincePoll < 4) ∧
    (busFree lockedUp.env (cycling [⟨.psu 0, .outputOff, 0⟩] 4) = true ∧
      duePolls lockedUp.env (cycling [⟨.psu 0, .outputOff, 0⟩] 4) = [.psu 0] ∧
      4 ≤ (cycling [⟨.psu 0, .outputOff, 0⟩] 4).bus.sincePoll) ∧
    (duePolls lockedUp.env (cycling [] 0) = [.psu 0] ∧ (cycling [] 0).bus.entries = []) ∧
    initialRack.bus.cycle = none ∧
    ((cycling [] 0).bus.cycle = some ⟨0, [.psu 0]⟩ ∧ [Pos.psu 0].Nodup) := by decide +kernel

/-- A COMMISSIONED environment of redundancy k. -/
def envK (k : Nat) : Env :=
  { lockedUp.env with cfg := { lockedCfg with record := { oneSlot with
      rack := ⟨1, k, 1⟩, psus := put oneSlot.psus 0 ⟨6000⟩ } } }

theorem test_witness_CapacityFigures :
    (let r := psu0 { initialPsu with present := true, state := .online, capability := 5000 }
     (r.psu[(0 : Fin 18)]).present = true ∧ (r.psu[(0 : Fin 18)]).state = .online ∧
     (figures (envK 1) r).nOn ≤ (envK 1).cfg.record.rack.k ∧
     (envK 0).cfg.record.rack.k < (figures (envK 0) r).nOn) ∧
    (initialRack.psu[(1 : Fin 18)]).present = false ∧ (envK 0).param 9 ≤ 256 := by decide +kernel

/-- A COMMISSIONED rack in NORMAL with slot 0 ON, its figures taken up with an available capacity. -/
def supplied (a : Nat) (short : Bool) (recorded : Nat) : Rack :=
  { slot0 (slotIn .on) with
    grid := { initialGrid with state := .normal, powered := 1 }
    acct := { initialAccount with
      takenUp := true, a := a, s := 3000, shortfall := short, recorded := recorded } }

/-- A COMMISSIONED rack in NORMAL whose PSU 0 now delivers 2,000 W of the 6,000 W held before, with slot 0
STARTING at 1,500 W, B at 1,500 W and a recharge frame running on a pool of 1,000 W. -/
def falling : Rack :=
  { psu0 { initialPsu with present := true, state := .online, capability := 2000 } with
    slots := put initialRack.slots 0 (slotIn .starting)
    grid := { initialGrid with state := .normal, powered := 1 }
    acct := { initialAccount with takenUp := true, nOn := 1, a := 6000, adm := 5390, s := 1500 }
    rech := { initialRecharge with pool := 1000, candidate := 2390, frame := some ⟨0, 3⟩ } }

/-- R56, R59, R141: the cut of the selection clears the flag within the step, and the pool has fallen to 0
all the same; the candidate then stands at floor(2,000 × 230 / 256) less B. -/
theorem test_shortfall_pool_falls :
    (let r := settle (envK 0) 4 (computeAccount (envK 0) falling)
     r.acct.shortfall = false ∧ r.acct.s = 0 ∧ r.rech.pool = 0 ∧ r.rech.candidate = 296 ∧
     r.rech.frame = some ⟨0, 1⟩ ∧ settled r = true) := by decide +kernel

theorem test_witness_ShedSelection :
    (selected lockedUp.env (supplied 0 false 0) = [0] ∧
      0 < uncovered lockedUp.env (supplied 0 false 0) ∧
      selected lockedUp.env (supplied 60000 false 0) = [] ∧
      uncovered lockedUp.env (supplied 60000 false 0) = 0) ∧
    ((supplied 0 false 0).acct.a < (supplied 0 false 0).acct.s + lockedUp.env.param 10 ∧
      lockedUp.env.cfg.locked = true ∧ (supplied 0 false 0).grid.state = .normal ∧
      ¬(supplied 60000 false 0).acct.a < (supplied 60000 false 0).acct.s + lockedUp.env.param 10) ∧
    (shortfallHolds (envK 0) { falling with acct := figures (envK 0) falling } = true ∧
      falling.acct.shortfall = false ∧ falling.rech.frame ≠ none ∧ 0 < falling.rech.pool) ∧
    ((supplied 0 true 0).acct.recorded < uncovered lockedUp.env (supplied 0 true 0) ∧
      uncovered lockedUp.env (supplied 0 true 99999) ≤ (supplied 0 true 99999).acct.recorded) ∧
    (initialAccount.takenUp = false ∧ (supplied 0 false 0).acct.takenUp = true) ∧
    (let r := psu0 { initialPsu with present := true, state := .online, capability := 5000 }
     0 < (figures (envK 0) r).a) ∧
    (((slot0 (slotIn .shed)).slots[(0 : Fin 48)]).state = .shed ∧
      (env7 .clear).slotZoneOpen 0 = true ∧ (env7 .alarm).slotZoneOpen 0 = false) ∧
    (({ initialSlot with grantTime := some 0 } : SlotRec).grantTime = some 0 ∧
      initialSlot.grantTime = none) ∧
    ({ slot0 (slotIn .draining) with
      grid := { initialGrid with state := .normal, powered := 1 }
      acct := { initialAccount with takenUp := true, s := 3000, relief := 3000 } } :
        Machine.Rack).Follows lockedUp.env := by
  refine ⟨by decide +kernel, by decide +kernel, by decide +kernel, by decide +kernel,
    by decide +kernel, by decide +kernel, by decide +kernel, by decide +kernel,
    ⟨by decide +kernel, by decide +kernel, by decide +kernel, by decide +kernel, by decide +kernel⟩⟩

theorem test_witness_HoldUpFigures :
    (let r := bu0 { initialBu with present := true, state := .checking, energy := 16000 }
     (r.bu[(0 : Fin 12)]).present = true ∧ (r.bu[(0 : Fin 12)]).state.code ≤ 4 ∧
     0 < (holdFigures up.env r).l) ∧
    (initialRack.bu[(0 : Fin 12)]).present = false ∧
    (holdFigures { up.env with cfg := { defaultCfg with params := put defaultParams 10 0 } }
      initialRack).l = 0 ∧
    (holdFigures up.env initialRack).required = 3 ∧
    (holdFigures { up.env with cfg := { defaultCfg with params := put defaultParams 10 0 } }
      initialRack).required < 3 := by decide +kernel

/-- The rack in a grid state with PSU 0 ONLINE and its input given. -/
def fed (g : GridState) (x : InputStatus) : Rack :=
  { psu0 { initialPsu with present := true, state := .online, input := x } with
    grid := { initialGrid with state := g, inEvent := true } }

theorem test_witness_GridMoves :
    (∀ g : GridState, (fed g .ok).grid.state = g ∧ (fed g .low).grid.state = g ∧
      (fed g .ok).grid.inEvent = true ∧ (gridIn g).grid.state = g ∧
      (gridIn g).grid.inEvent = false) ∧
    lossHolds lockedUp.env (fed .normal .ok) = false ∧
    lossHolds lockedUp.env (fed .normal .low) = true ∧
    returnHolds lockedUp.env (fed .rideThrough .ok) = true ∧
    returnHolds lockedUp.env { initialRack with
      grid := { initialGrid with state := .rideThrough } } = false ∧
    lossHolds lockedUp.env (fed .qualify .ok) = false ∧
    lossHolds lockedUp.env (fed .qualify .low) = true ∧
    lossHolds lockedUp.env { fed .qualify .low with
      grid := { initialGrid with state := .qualify } } = true ∧
    psuReturn lockedUp.env (fed .dark .ok) = true ∧
    psuReturn lockedUp.env initialRack = false ∧
    lossHolds lockedUp.env (fed .startup .low) = true ∧
    lossHolds lockedUp.env (fed .startup .ok) = false ∧
    lockedUp.env.cfg.locked = true ∧ up.env.cfg.locked = false ∧
    (let b := { initialBu with present := true, state := .idle, commandedIsolate := true }
     b.present = true ∧ b.commandedIsolate = true ∧ b.leakIsolated = false ∧
     takesOffers lockedUp.env shelfOne (.bu 0) = true ∧
     shelfOne.bus.entry (.bu 0) = none ∧ initialBu.present = false ∧ b.state.code ≤ 4) ∧
    ((enterDrain lockedUp.env (gridIn .rideThrough)).grid.powered = 0 ∧
      (enterDrain lockedUp.env ridingOn).grid.powered ≠ 0) ∧
    (settled { gridIn .drain with grid := { initialGrid with state := .drain, powered := 1 } } = true) ∧
    ({ initialHoldUp with drainHolds := true }.drainHolds = true ∧
      initialHoldUp.drainHolds = false) ∧
    ((ridingOn.slots[(0 : Fin 48)]).state = .on ∧ ridingOn.hold.t3 < lockedUp.env.param 5 ∧
      ridingOn.hold.shortLogged = false ∧ ridingOn.grid.level < 3 ∧
      { initialHoldUp with shortLogged := true }.shortLogged = true) ∧
    (cycleOver lockedUp.env { initialRack with
        bus := { initialBus with cycle := some ⟨0, [.psu 0]⟩ } } = true ∧
      cycleOver lockedUp.env shelfOne = false ∧
      { initialHoldUp with removal := true }.removal = true ∧ initialHoldUp.removal = false ∧
      initialAccount.takenUp = false ∧ (supplied 0 false 0).acct.takenUp = true) := by
  refine ⟨fun g => by cases g <;> decide +kernel, ?_⟩
  decide +kernel

theorem test_witness_HeadAndGrants :
    (grantable.queue.head = some ⟨0, 0, false⟩ ∧
      ∀ g ∈ gates grantEnv grantable 0, g.passes = true) ∧
    (gate1 up.env grantable ∈ gates up.env grantable 0 ∧
      (gate1 up.env grantable).passes = false ∧
      ∀ k ∈ gates up.env grantable 0, ¬k.number < (gate1 up.env grantable).number) ∧
    grantEnv.slotZone 0 = some 7 := by decide +kernel

theorem test_witness_RechargeTimers :
    ((framed 15 15000).rack.rech.frame = some ⟨0, 15⟩ ∧
      1000 * 15 ≤ ((framed 15 15000).now - 0).toNat) ∧
    ((framed 16 16000).rack.rech.frame = some ⟨0, 16⟩ ∧
      1000 * 16 ≤ ((framed 16 16000).now - 0).toNat) ∧
    ((framed 15 15000).rack.rech.members[(0 : Fin 12)] = some (memberOf 1337) ∧
      (framed 15 15000).rack.rech.members[(1 : Fin 12)] = none) ∧
    (takesOffers (framed 15 15000).env (framed 15 15000).rack (.bu 0) = true ∧
      (framed 15 15000).rack.bus.entry (.bu 0) = none) ∧
    (let u : State := { framed 16 16000 with
       rack := { (framed 16 16000).rack with bu := initialRack.bu } }
     (boundary u.env ⟨0, 16⟩ u.rack).rech.members[(0 : Fin 12)] = none ∧
     u.rack.rech.members[(0 : Fin 12)] ≠ none ∧ u.rack.rech.members[(1 : Fin 12)] = none ∧
     takesOffers u.env u.rack (.bu 0) = true) ∧
    (({ initialBu with offered := 16777215, offeredRem := 999 } : BuRec).offered ≤ 16777215 ∧
      ({ initialBu with offered := 16777215, offeredRem := 999 } : BuRec).offeredRem < 1000 ∧
      ({ initialBu with setpoint := 100 } : BuRec).charge.offered < 16777215) ∧
    (initialRecharge.frame = none ∧ (framed 1 0).rack.rech.frame ≠ none ∧
      (0 : Nat) < { (framed 1 0).rack.rech with pool := 1 }.pool) ∧
    (let r : Machine.Rack := { bu0 { initialBu with present := true, state := .full } with
       bus := { initialBus with polledSet := [.bu 0] }
       rech := { initialRecharge with carried := true } }
     r.rech.carried = true ∧ (r.bu[(0 : Fin 12)]).present = true ∧
       (r.bu[(0 : Fin 12)]).joins = false ∧ takesOffers lockedUp.env r (.bu 0) = true ∧
       r.bus.entry (.bu 0) = none) := by
  decide +kernel

theorem test_witness_RechargeShares :
    ∃ x, (formMembers up.env (framed 1 0).rack)[(0 : Fin 12)] = some x := ⟨_, rfl⟩

theorem test_witness_HealthSample :
    (let b := (bu0 { initialBu with offered := 100, accepted := 90 }).bu[(0 : Fin 12)]
     100 ≤ b.offered ∧ b.offered < 16777215 ∧ b.accepted < 16777215) ∧
    ¬100 ≤ ((bu0 { initialBu with offered := 99 }).bu[(0 : Fin 12)]).offered ∧
    (1 : Fin 12) ≠ 0 := by decide +kernel

/-- The COMMISSIONED part in a grid state with BU 0 given. -/
def checking (g : GridState) (b : BuRec) : State :=
  { lockedUp with rack := { bu0 b with grid := { initialGrid with state := g } } }

theorem test_witness_Checks :
    (((checking .normal initialBu).rack.bu[(0 : Fin 12)]).due = 0 ∧
      ((checking .normal initialBu).rack.bu[(0 : Fin 12)]).phase = .none) ∧
    (let b := { initialBu with phase := .samplePending, sampleDeadline := some ⟨0, 0⟩ }
     ((checking .normal b).rack.bu[(0 : Fin 12)]).phase = .samplePending ∧
      ((checking .normal b).rack.bu[(0 : Fin 12)]).sampleDeadline = some ⟨0, 0⟩) ∧
    (Ready (asked up 0x24 1 (u8 11)) 0x24 1 (u8 11) ∧ up.cfg.locked = false) ∧
    (let s := checking .normal { initialBu with present := true }
     Ready (asked s 0x24 1 (u8 0)) 0x24 1 (u8 0) ∧ s.cfg.locked = true ∧
      (s.rack.bu[(0 : Fin 12)]).present = true ∧ (s.rack.bu[(0 : Fin 12)]).phase = .none) ∧
    ((checking .dark { initialBu with present := true }).rack.grid.state ≠ .normal ∧
      (checking .normal { initialBu with present := true }).rack.grid.state = .normal) ∧
    (takesOffers lockedUp.env shelfOne (.bu 0) = true ∧ shelfOne.bus.entry (.bu 0) = none) ∧
    (takesOffers lockedUp.env initialRack (.bu 0) = false ∧ initialRack.bus.entry (.bu 0) = none) ∧
    (({ shelfOne with bus := { shelfOne.bus with entries := [⟨.bu 0, .isolate, 0⟩] } } :
      Machine.Rack).bus.entry (.bu 0) = some ⟨.bu 0, .isolate, 0⟩ ∧ ShelfCmd.isolate.cls = 1) ∧
    (1 : Fin 12) ≠ 0 ∧
    (∀ (p : CheckPhase) (st : BuState) (m : Bool),
      (let b := { initialBu with phase := p, state := st, strayCounted := m }
       ((bu0 b).bu[(0 : Fin 12)]).phase = p ∧ ((bu0 b).bu[(0 : Fin 12)]).state = st ∧
       ((bu0 b).bu[(0 : Fin 12)]).strayCounted = m)) ∧
    shelfOne.active = some ⟨0, 0, 0, 0⟩ :=
  ⟨by decide +kernel, by decide +kernel, ⟨ready_up _ _, rfl⟩,
    ⟨asked_ready _ _ _ _ rfl rfl rfl (by decide +kernel), rfl, by decide +kernel, by decide +kernel⟩, by decide +kernel,
    by decide +kernel, by decide +kernel, by decide +kernel, by decide +kernel,
    fun p st m => by cases p <;> cases st <;> cases m <;> decide +kernel, by decide +kernel⟩

/-- After reset the laws that steps keep hold, so a step from reset meets their statements. -/
theorem test_witness_SlotsKept :
    (∃ t, step State.reset = .next t) ∧ FormLaw State.reset ∧
    RosterLaw State.reset ∧ QueueLaw State.reset := by
  refine ⟨⟨_, rfl⟩, fun n => ?_, ⟨fun _ => rfl, fun _ => by decide +kernel, ?_⟩, ?_⟩
  · have h : State.reset.rack.slots[n] = initialSlot := by
      simp [State.reset, State.powerOn, initialRack]
    show (State.reset.rack.slots[n]).Formed
    rw [h]
    exact ⟨rfl, rfl, rfl, rfl, rfl⟩
  · exact ⟨by decide +kernel, by decide +kernel, by decide +kernel, by decide +kernel,
      by decide +kernel⟩
  · exact ⟨List.Pairwise.nil, rfl⟩

theorem test_witness_BoundsKept :
    (∃ t, step State.reset = .next t) ∧ BoundsLaw State.reset ∧ OneEntryLaw State.reset ∧
    (∃ t, step up = .next t) ∧ up.boot.loaded = true ∧ PaceLaw up :=
  ⟨⟨_, rfl⟩, ⟨by decide +kernel, by decide +kernel, by decide +kernel⟩, List.nodup_nil, ⟨_, rfl⟩, rfl,
    rfl, fun _ h => by cases h; decide⟩

theorem test_witness_GraceKept :
    GraceLaw graceEnds ∧ ∃ t, step graceEnds = .next t :=
  ⟨by unfold GraceLaw; decide, _, rfl⟩

theorem test_witness_FaultFlagKept :
    FaultLaw (having { initialRack with faults := critical3 }) ∧
    ∃ t, step (having { initialRack with faults := critical3 }) = .next t :=
  ⟨⟨by decide +kernel, by decide +kernel⟩, _, rfl⟩

theorem test_witness_GrantNeedsLockWindowZoneNoHold :
    (∀ good : BitVec 48, Instr.gateTimer ≠ .adoption good) ∧
    (grants.rack.slots[(0 : Fin 48)]).state.powered = false ∧
    ∃ t, exec .gateTimer grants = .next t ∧
      (t.rack.slots[(0 : Fin 48)]).state.powered = true :=
  ⟨fun _ => nofun, by decide +kernel, _, rfl, by decide +kernel⟩

end Sys2Proof.Tests
end

