-- ==== Sys2Proof/Proofs/Keeps.lean ====
section
/-! PROOF. What every command but POWER_ON keeps, said once: `Keeps s t` says that from s to t no time
passes, the queue of commands is left alone, and the laws of the slot records, of the figures that follow
the slots, of the Start Queue and of the graces survive. It is a preorder, so each operation of the state
needs one lemma, and a command's is their composition. -/

namespace Sys2Proof.Machine

variable {g : Prop}

/-- What the steps of one command keep. -/
structure Keeps (s t : State) : Prop where
  now : t.now = s.now
  pending : t.pending = s.pending
  grace : GraceLaw s → GraceLaw t
  laws : FormLaw s → RosterLaw s → FormLaw t ∧ RosterLaw t ∧ (QueueLaw s → QueueLaw t)

theorem Keeps.refl (s : State) : Keeps s s := ⟨rfl, rfl, id, fun f r => ⟨f, r, id⟩⟩

theorem Keeps.trans {a b c : State} (h : Keeps a b) (k : Keeps b c) : Keeps a c := by
  refine ⟨k.now.trans h.now, k.pending.trans h.pending, k.grace ∘ h.grace, fun f r => ?_⟩
  obtain ⟨fb, rb, qb⟩ := h.laws f r
  obtain ⟨fc, rc, qc⟩ := k.laws fb rb
  exact ⟨fc, rc, qc ∘ qb⟩

/-- What is kept after a first change. -/
theorem Keeps.after {a b c : State} (k : Keeps b c) (h : Keeps a b) : Keeps a c := h.trans k

/-- Two slots stand by their order numbers and by the ages of their queue times alone (R85). -/
theorem Precedes.congr {e e' : Env} {v w : Vector SlotRec 48} {a b : Fin 48} (h : Precedes e v a b)
    (ho : e'.order = e.order) (ha : queueAge e' w a = queueAge e v a)
    (hb : queueAge e' w b = queueAge e v b) : Precedes e' w a b := by
  unfold Precedes at *
  rw [ho, ha, hb]
  exact h

theorem queueAge_env {e e' : Env} (h : e'.now = e.now) (v : Vector SlotRec 48) (n : Fin 48) :
    queueAge e' v n = queueAge e v n := by
  unfold queueAge
  rw [h]

/-- A change beside the rack that moves neither the time nor the active plan. -/
theorem Beside.keeps {s t : State} (h : Beside s t) (hn : t.now = s.now) (hp : t.pending = s.pending)
    (ha : t.cfg.active = s.cfg.active) : Keeps s t := by
  refine ⟨hn, hp, h.grace, fun f r => ⟨(Moves.refl (g := True).beside h).form f,
    (Moves.refl (g := True).beside h).roster r, fun q => ?_⟩⟩
  have ho : t.env.order = s.env.order := by
    funext n
    show (t.cfg.active[n]).order = _
    rw [ha]
    rfl
  refine ⟨?_, by rw [h.rack]; exact q.head⟩
  rw [h.rack]
  exact q.order.imp fun p => p.congr ho (queueAge_env hn _ _) (queueAge_env hn _ _)

/-- An operation of the rack's blocks made of the moves of `Reach`. -/
theorem Keeps.rack (s : State) {r : Rack} (h : Reach g s.env s.rack r) :
    Keeps s { s with rack := r } := by
  have m : Moves g s { s with rack := r } := Moves.refl.rack r h
  exact ⟨rfl, rfl, m.grace, fun f k => ⟨m.form f, m.roster k, fun q =>
    ⟨h.order k.follows q.order, h.headFirst q.head⟩⟩⟩

theorem onRack_keeps (s : State) {f : Env → Rack → Rack} (h : Reach g s.env s.rack (f s.env s.rack)) :
    Keeps s (s.onRack f) := Keeps.rack s h

theorem Keeps.onRack {s t : State} (h : Keeps s t) {f : Env → Rack → Rack}
    (k : Reach g t.env t.rack (f t.env t.rack)) : Keeps s (t.onRack f) := h.trans (onRack_keeps t k)

theorem link_keeps (s : State) (l : Link) (h : l.rx.length ≤ s.link.rx.length ∨ l.rx.length ≤ 4) :
    Keeps s { s with link := l } := (beside_link s l h).keeps rfl rfl rfl

theorem store_keeps (s : State) (t : Store) (f : Nat) : Keeps s { s with store := t, free := f } :=
  (beside_store s t f).keeps rfl rfl rfl

theorem forEach_keeps {α : Type} {f : α → State → State} (h : ∀ x s, Keeps s (f x s)) :
    ∀ (xs : List α) (s : State), Keeps s (forEach f xs s)
  | [], s => .refl s
  | x :: xs, s => (h x s).trans (forEach_keeps h xs _)

/-! ### The end of a command and the execution of a request -/

theorem transmit_keeps (s : State) : Keeps s s.transmit := by
  unfold State.transmit
  split
  · split
    · exact .refl s
    · split
      · exact link_keeps s _ (.inl (le_refl _))
      · exact link_keeps s _ (.inl (le_refl _))
      · exact .refl s
  · exact .refl s
  · exact .refl s

theorem followStore_keeps (s : State) : Keeps s s.followStore := by
  have h : Keeps s { s with rack := { s.rack with todo := { s.rack.todo with battery := false } } } :=
    Keeps.rack (g := True) s ((Reach.refl _).todo _)
  exact h.trans (store_keeps _ _ s.free)

theorem conclude_keeps (s : State) : Keeps s s.conclude :=
  ((onRack_keeps s (finishRack_reach s.env s.rack)).trans (followStore_keeps _)).trans
    (transmit_keeps _)

theorem Keeps.conclude {s t : State} (h : Keeps s t) : Keeps s t.conclude :=
  h.trans (conclude_keeps t)

theorem take_keeps (s : State) : Keeps s s.take := (take_beside s).keeps rfl rfl rfl

theorem reply_keeps (s : State) (k t : Byte) (p : List Byte) : Keeps s (s.reply k t p) :=
  (reply_beside s k t p).keeps rfl rfl rfl

/-- A request keeps what its body keeps; a body that is not taken early is run on a part that has loaded
and adopted. -/
theorem execute_keeps {s : State} {early : Bool} {kind tag : Byte} {payload : List Byte}
    {body : State → State} (h : ∀ t, (early = false → t.busy = false) → Keeps t (body t)) :
    Keeps s (s.execute early kind tag payload body) := by
  unfold State.execute
  dsimp only
  split
  · split
    · exact ((take_keeps s).trans (reply_keeps ..)).conclude
    · split
      · exact ((take_keeps s).trans (reply_keeps ..)).conclude
      · rename_i hb
        exact ((take_keeps s).trans (h _ fun he => by simpa [he] using hb)).conclude
  · exact .refl s

theorem serve_keeps {s : State} {early : Bool} {kind tag : Byte} {payload : List Byte}
    {body : State → Answer} (h : ∀ t, (early = false → t.busy = false) → Keeps t (body t).1) :
    Keeps s (s.serve early kind tag payload body) :=
  execute_keeps fun t hb => (h t hb).trans (reply_keeps ..)

theorem noPayload_keeps {payload : List Byte} {body : State → Answer} {s : State}
    (h : Keeps s (body s).1) : Keeps s (noPayload payload body s).1 := by
  unfold noPayload
  split
  · exact h
  · exact .refl s

theorem indexed_keeps {k : Nat} {payload : List Byte} {body : Fin k → State → Answer}
    {s : State} (h : ∀ i, Keeps s (body i s).1) : Keeps s (indexed k payload body s).1 := by
  unfold indexed
  split
  · exact h _
  · exact .refl s

theorem checked_keeps {bad : Bool} {code : Byte} {body : State → Answer} {s : State}
    (h : bad = false → Keeps s (body s).1) : Keeps s (checked bad code body s).1 := by
  cases bad
  · exact h rfl
  · exact .refl s

theorem slotList_keeps {f : SlotRule} {p : List Byte} {s : State}
    (h : ∀ n r, f.result s.env r n = .accepted → Reach g s.env r (f.effect s.env n r)) :
    Keeps s (slotList f p s).1 := by
  unfold slotList
  split
  · exact Keeps.rack s (run_reach h p _ _)
  · exact .refl s

/-! ### Zones and channels -/

theorem zoneRaised_keeps (s : State) (z : Fin 8) : Keeps s (s.zoneRaised z) := by
  unfold State.zoneRaised
  dsimp only
  exact onRack_keeps (g := True) s (Reach.raised _ _ _ _ (headZone_reach ..))

/-- A change of one zone's record that sets no grace outside ALARM. -/
theorem changeZone_keeps (s : State) (z : Fin 8) (f : Zone → Zone)
    (h : GraceLaw s → (f s.leak.zones[z]).grace.isSome = true →
      (s.leak.zones[z]).grace.isSome = true ∧
        (f s.leak.zones[z]).state = (s.leak.zones[z]).state ∨ (f s.leak.zones[z]).state = .alarm) :
    Keeps s (s.changeZone z f) := (beside_zone s z f h).keeps rfl rfl rfl

theorem setZone_keeps (s : State) (z : Fin 8) (x : ZoneState)
    (h : GraceLaw s → (s.leak.zones[z]).grace = none ∨ x = .alarm) : Keeps s (s.setZone z x) := by
  unfold State.setZone
  split
  · exact .refl s
  · refine (changeZone_keeps s z _ fun hl hg => ?_).trans (zoneRaised_keeps _ z)
    rcases h hl with h | h
    · replace hg : (s.leak.zones[z]).grace.isSome = true := hg
      rw [h] at hg; cases hg
    · exact .inr h

theorem isolateShelves_keeps (s : State) (z : Fin 8) : Keeps s (s.isolateShelves z) :=
  forEach_keeps (fun h t => (changeZone_keeps t z _ fun _ hg => .inl ⟨hg, rfl⟩).onRack
    (isolateModules_reach (g := True) _ h _)) _ s

theorem isolateZone_keeps (s : State) (z : Fin 8) : Keeps s (s.isolateZone z) := by
  unfold State.isolateZone
  dsimp only
  have h := ((changeZone_keeps s z (fun x => { x with grace := none, state := .isolated })
    fun _ hg => by cases hg).trans (zoneRaised_keeps _ z)).onRack
    (f := fun e r => eachHandedOn e (leakCut e) (e.zoneSlots z) r)
    (eachHandedOn_reach (g := True) (leakCut_reach _) _ _)
  split
  · exact h.trans (isolateShelves_keeps _ z)
  · exact h

theorem leakDrains_keeps (s : State) (z : Fin 8) (n : Nat) : Keeps s (s.leakDrains z n) :=
  onRack_keeps (g := True) s (eachHandedOn_reach (drainInTurn_reach _ _) _ _)

theorem beginGrace_keeps (s : State) (z : Fin 8) (h : (s.leak.zones[z]).state = .alarm) :
    Keeps s (s.beginGrace z) :=
  (changeZone_keeps s z _ fun _ _ => .inr h).trans (leakDrains_keeps _ z _)

theorem enterAlarm_keeps (s : State) (z : Fin 8) : Keeps s (s.enterAlarm z) := by
  unfold State.enterAlarm
  dsimp only
  have h := ((changeZone_keeps s z (fun x => { x with state := .alarm, alarmTime := some s.now })
    fun _ _ => .inr rfl).onRack (f := fun e r => logFault e .leakConfirmed z.val r)
    (logFault_reach (g := True) ..)).trans (zoneRaised_keeps _ z)
  split
  · exact h
  · refine h.trans (beginGrace_keeps _ z ?_)
    show ((s.changeZone z _).leak.zones[z]).state = .alarm
    rw [changeZone_get]
  · exact h.trans (isolateZone_keeps _ z)

theorem followZone_keeps (s : State) (z : Fin 8) : Keeps s (s.followZone z) := by
  unfold State.followZone
  split
  · exact .refl s
  · rename_i hl
    split
    · split
      · exact .refl s
      · exact enterAlarm_keeps s z
    · refine setZone_keeps s z _ fun h => .inl ?_
      by_contra hc
      have := h z (Option.isSome_iff_ne_none.mpr hc)
      rw [this] at hl
      exact hl rfl

theorem actAnew_keeps (s : State) (z : Fin 8) (b : LeakEntry) : Keeps s (s.actAnew z b) := by
  unfold State.actAnew
  dsimp only
  split
  · rename_i ha
    split
    · exact isolateZone_keeps s z
    · exact beginGrace_keeps s z ha
    · exact .refl s
    · exact changeZone_keeps s z _ fun _ hg => by cases hg
  · split
    · exact isolateShelves_keeps s z
    · exact .refl s
  all_goals exact .refl s

theorem adoptZone_keeps (s : State) (z : Fin 8) : Keeps s (s.adoptZone z) := by
  unfold State.adoptZone
  dsimp only
  split
  · split
    · exact isolateZone_keeps s z
    · exact leakDrains_keeps s z _
  · exact followZone_keeps s z
  · exact followZone_keeps s z
  · exact .refl s
  · exact .refl s

theorem channelRaised_keeps (s : State) (c : Fin 16) (n : Nat) : Keeps s (s.channelRaised c n) := by
  unfold State.channelRaised
  exact onRack_keeps (g := True) s ((Reach.refl _).raised _ _ _ _)

theorem releaseChannel_keeps (s : State) (c : Fin 16) : Keeps s (s.releaseChannel c) := by
  unfold State.releaseChannel
  dsimp only
  refine Keeps.trans ?_ (channelRaised_keeps _ c _)
  refine Beside.keeps ?_ rfl rfl rfl
  exact ⟨rfl, rfl, rfl, rfl, rfl, rfl, .inl (le_refl _), id, id⟩

theorem releaseShelves_keeps (s : State) (z : Fin 8) : Keeps s (s.releaseShelves z) :=
  forEach_keeps (fun h t => (changeZone_keeps t z _ fun _ hg => .inl ⟨hg, rfl⟩).onRack
    (releaseModules_reach (g := True) _ h _)) _ s

theorem clearZone_keeps (s : State) (z : Fin 8) : Keeps s (s.clearZone z) := by
  unfold State.clearZone
  dsimp only
  refine (Keeps.onRack (g := True) (((forEach_keeps (fun c t => releaseChannel_keeps t c) _ s).trans
    (changeZone_keeps _ z _ fun _ hg => by cases hg)).trans
    (setZone_keeps _ z .clear fun _ => .inl ?_)) (eachHandedOn_reach (releaseSlot_reach _) _ _)).trans
    (releaseShelves_keeps _ z)
  rw [changeZone_get]

/-- A change of the Leak Monitor alone. -/
theorem leak_keeps (s : State) (l : Leak) (h : GraceLaw s → GraceLaw { s with leak := l }) :
    Keeps s { s with leak := l } :=
  ⟨rfl, rfl, h, fun f r => ⟨f, ⟨r.unloaded, r.disabled, Follows_env (e := s.env) rfl r.follows⟩,
    fun q => ⟨q.order.imp fun p => p.congr rfl (queueAge_env rfl _ _) (queueAge_env rfl _ _),
      q.head⟩⟩⟩

/-- A change of the Leak Monitor beside its zones. -/
theorem channels_keeps (s : State) (l : Leak) (h : l.zones = s.leak.zones) :
    Keeps s { s with leak := l } := by
  refine leak_keeps s l fun k z => ?_
  show (l.zones[z]).grace.isSome = true → (l.zones[z]).state = .alarm
  rw [h]
  exact k z

theorem channelMoved_keeps (s : State) (c : Fin 16) (n : Nat) : Keeps s (s.channelMoved c n) := by
  unfold State.channelMoved
  dsimp only
  have h := channelRaised_keeps s c n
  generalize s.channelRaised c n = t at *
  have h : Keeps s (if (t.leak.channels[c]).state = .opn then
      t.onRack fun e r => logFault e .sensorOpen c.val r else t) := by
    split
    · exact h.onRack (logFault_reach (g := True) ..)
    · exact h
  generalize (if (t.leak.channels[c]).state = .opn then
      t.onRack fun e r => logFault e .sensorOpen c.val r else t) = u at *
  split
  · exact h.trans (followZone_keeps u _)
  · exact h

theorem sampleChannel_keeps (s : State) (c : Fin 16) (n : Nat) : Keeps s (s.sampleChannel c n) := by
  unfold State.sampleChannel
  dsimp only
  generalize (if (s.channelZone c).isSome = true then
    (s.leak.channels[c]).move (classify (s.wetAt c) (s.openAt c) n) else s.leak.channels[c]) = m
  have h := channels_keeps s { s.leak with
    channels := put s.leak.channels c { m with level := some n } } rfl
  split
  · exact h
  · exact h.trans (channelMoved_keeps _ c n)

theorem countSample_keeps (s : State) : Keeps s s.countSample := by
  unfold State.countSample
  dsimp only
  split
  · have h : Keeps s { s with rack := { s.rack with todo := { s.rack.todo with head := true } } } :=
      Keeps.rack (g := True) s ((Reach.refl _).todo _)
    exact h.trans (channels_keeps _ _ rfl)
  · exact channels_keeps s _ rfl

theorem sampleAll_keeps (s : State) (l : Vector (BitVec 10) 16) : Keeps s (s.sampleAll l) :=
  (countSample_keeps _).after
    ((forEach_keeps (fun c t => sampleChannel_keeps t c (l[c]).toNat) _ _).after
      (channels_keeps s _ rfl))

/-! ### The working configuration, the rack link and the store -/

/-- A change of the working configuration that leaves the lock state, the profiles, the slot sections and
the active plan. -/
theorem cfg_keeps (s : State) (c : WorkCfg) (h1 : c.locked = s.cfg.locked)
    (h2 : c.profiles = s.cfg.profiles) (h3 : c.record.slots = s.cfg.record.slots)
    (h4 : c.active = s.cfg.active) : Keeps s { s with cfg := c } :=
  (beside_cfg s c h1 h2 h3).keeps rfl rfl h4

theorem stage_active (xs : List (Nat × Nat × Nat)) (c : WorkCfg) :
    (forEach stageEntry xs c).active = c.active := by
  induction xs generalizing c with
  | nil => rfl
  | cons x xs ih => exact ih (stageEntry x c)

theorem linkFault_keeps (s : State) (f : FaultKind) : Keeps s (s.linkFault f) :=
  onRack_keeps (g := True) s (logFault_reach ..)

theorem receive_keeps (s : State) (f : LinkFrame) : Keeps s (s.receive f) := by
  unfold State.receive Config.rxQueueMax
  split
  · exact link_keeps s _ (.inr (by simp; omega))
  · exact (linkFault_keeps _ _).after (link_keeps s _ (.inl (le_refl _)))

theorem endFrame_keeps (s : State) (x : FrameEnd) : Keeps s (s.endFrame x) := by
  cases x with
  | tooLong => exact (linkFault_keeps _ _).after (link_keeps s _ (.inl (le_refl _)))
  | badCrc => exact (linkFault_keeps _ _).after (link_keeps s _ (.inl (le_refl _)))
  | good f => exact (receive_keeps _ f).after (link_keeps s _ (.inl (le_refl _)))

theorem endWrite_keeps (s : State) (good : Bool) (area : Nat) : Keeps s (s.endWrite good area) := by
  unfold State.endWrite
  split
  · exact store_keeps s _ s.free
  · exact (store_keeps s _ _).onRack (logFault_reach (g := True) ..)

theorem replySaved_keeps (s : State) (tag : Option Byte) (c : Byte) :
    Keeps s (s.replySaved tag c) := by
  unfold State.replySaved
  split
  · exact reply_keeps ..
  · exact .refl s

theorem inputs_keeps (s : State) (x : Inputs) : Keeps s { s with inputs := x } :=
  (beside_inputs s x).keeps rfl rfl rfl

end Sys2Proof.Machine
end

