-- ==== Sys2Proof/Proofs/KeepsCommands.lean ====
section
/-! PROOF. The ordinary commands under `Keeps`: those that move neither the lock state nor the profiles nor
the slot sections nor the active plan, and reset nothing. -/

namespace Sys2Proof.Machine

/-! ### Requests that read, faults and notifications -/

/-- A request answered without an effect. -/
theorem answer_keeps (s : State) (c : Byte) (x : List Byte) : Keeps s (s.answer c x).1 := .refl s

theorem execUnknownKind_keeps (k tag : Byte) (p : List Byte) (s : State) :
    Ends (execUnknownKind k tag p s) (Keeps s) := by
  refine .next ?_
  split
  · exact .refl s
  · exact serve_keeps fun t _ => answer_keeps t _ _

theorem execIdentify_keeps (tag : Byte) (p : List Byte) (s : State) :
    Ends (execIdentify tag p s) (Keeps s) := by
  refine .next (serve_keeps fun t _ => ?_)
  unfold identifyBody
  split <;> exact answer_keeps t _ _

theorem answered_keeps {s t : State} {c : Byte} {x : List Byte} (h : Keeps s t) :
    Keeps s (t.answer c x).1 := h

theorem Ends.concludes {s t : State} (h : Keeps s t) : Ends (.next t.conclude) (Keeps s) :=
  .next h.conclude

/-- A request of one index that only reads. -/
theorem readIndexed_keeps {s : State} {k : Nat} {kind tag : Byte} {p : List Byte}
    (f : Fin k → State → List Byte) :
    Keeps s (s.serve false kind tag p (indexed k p fun i t => t.answer codeOk (f i t))) :=
  serve_keeps fun t _ => indexed_keeps fun _ => answer_keeps t _ _

theorem execReadFaults_keeps (tag : Byte) (p : List Byte) (s : State) :
    Ends (execReadFaults tag p s) (Keeps s) :=
  .next (serve_keeps fun t _ => noPayload_keeps (answer_keeps t _ _))

theorem execClearFault_keeps (tag : Byte) (p : List Byte) (s : State) :
    Ends (execClearFault tag p s) (Keeps s) :=
  .next (serve_keeps fun t _ => indexed_keeps fun b =>
    answered_keeps (onRack_keeps (g := True) t (emptyOne_reach _ b _)))

theorem execSetMask_keeps (tag : Byte) (p : List Byte) (s : State) :
    Ends (execSetMask tag p s) (Keeps s) := by
  refine .next (serve_keeps fun t _ => ?_)
  unfold setMaskBody
  split
  · exact Keeps.rack (g := True) t
      ((Reach.refl _).listed _ fun h => summaries_length _ _ h)
  · exact .refl t

theorem execReleaseHold_keeps (tag : Byte) (p : List Byte) (s : State) :
    Ends (execReleaseHold tag p s) (Keeps s) := by
  refine .next (serve_keeps fun t _ => noPayload_keeps ?_)
  unfold releaseHoldBody
  split
  · exact .refl t
  · split
    · refine Keeps.trans (b := { t with rack.faults := { t.rack.faults with hold := none } }) ?_ ?_
      · exact ⟨rfl, rfl, id, fun f r => ⟨f, ⟨r.unloaded, r.disabled, r.follows.congr (fun _ => rfl)
          (fun _ => rfl) rfl rfl rfl (.refl _)⟩, fun q => ⟨q.order, q.head⟩⟩⟩
      · exact Keeps.rack (g := True) _
          (((Reach.refl _).todo { t.rack.todo with head := true }).raised _ _ _ _)
    · exact .refl t

theorem execRestart_keeps (tag : Byte) (p : List Byte) (s : State) :
    Ends (execRestart tag p s) (Keeps s) :=
  .next (serve_keeps fun t _ => noPayload_keeps (link_keeps t _ (.inl (le_refl _))))

/-! ### Slot lists, RACK_START and RACK_STOP -/

theorem execSlotOn_keeps (tag : Byte) (p : List Byte) (s : State) :
    Ends (execSlotOn tag p s) (Keeps s) := by
  refine .next (serve_keeps fun t _ => ?_)
  unfold slotOnBody
  split
  · exact checked_keeps fun _ => slotList_keeps (g := True) fun n r h => slotOn_reach _ n r h
  · exact .refl t

theorem execSlotOff_keeps (tag : Byte) (p : List Byte) (s : State) :
    Ends (execSlotOff tag p s) (Keeps s) :=
  .next (serve_keeps fun _ _ => slotList_keeps (g := True) fun n r _ => slotOff_reach _ n r)

/-- An accepted SLOT_CUT moves no DISABLED slot. -/
theorem slotCut_reach {g : Prop} (e : Env) (n : Fin 48) (r : Rack)
    (h : slotCutRule.result e r n = .accepted) : Reach g e r (slotCutRule.effect e n r) := by
  refine enter_reach _ n _ _ r (.inl fun hd => ?_) (cutState_unpowered _)
  have h : slotCutResult e r n = .accepted := h
  unfold slotCutResult at h
  rw [hd] at h; cases h

/-- An accepted SLOT_CLEAR moves no DISABLED slot. -/
theorem slotClear_reach {g : Prop} (e : Env) (n : Fin 48) (r : Rack)
    (h : slotClearRule.result e r n = .accepted) : Reach g e r (slotClearRule.effect e n r) := by
  refine enter_reach _ n _ _ r (.inl fun hd => ?_) (clearedState_unpowered _ _)
  have h : slotClearResult e r n = .accepted := h
  unfold slotClearResult at h
  rw [hd] at h; cases h

theorem execSlotCut_keeps (tag : Byte) (p : List Byte) (s : State) :
    Ends (execSlotCut tag p s) (Keeps s) :=
  .next (serve_keeps fun _ _ => slotList_keeps (g := True) fun n r h => slotCut_reach _ n r h)

theorem execSlotClear_keeps (tag : Byte) (p : List Byte) (s : State) :
    Ends (execSlotClear tag p s) (Keeps s) :=
  .next (serve_keeps fun _ _ => slotList_keeps (g := True) fun n r h => slotClear_reach _ n r h)

theorem execRackStart_keeps (tag : Byte) (p : List Byte) (s : State) :
    Ends (execRackStart tag p s) (Keeps s) := by
  refine .next (serve_keeps fun t _ => noPayload_keeps (checked_keeps fun _ =>
    checked_keeps fun hl => ?_))
  have hl : t.env.commissioned = true := by
    show t.cfg.locked = true
    simpa using hl
  unfold rackStartBody
  dsimp only
  exact answered_keeps (onRack_keeps (g := True) t
    (forEach_reach (fun n r => enter_reach t.env n _ _ r (.inr hl) rfl) _ _))

theorem execRackStop_keeps (tag : Byte) (p : List Byte) (s : State) :
    Ends (execRackStop tag p s) (Keeps s) := by
  refine .next (serve_keeps fun t _ => noPayload_keeps (checked_keeps fun _ => ?_))
  unfold rackStopBody
  dsimp only
  exact Keeps.rack (g := True) t (rackStop_reach t.env _ _ _)

/-! ### The plan, the parameters, leak actions and checks -/

theorem execStagePlan_keeps (tag : Byte) (p : List Byte) (s : State) :
    Ends (execStagePlan tag p s) (Keeps s) := by
  refine .next (serve_keeps fun t _ => ?_)
  unfold stagePlanBody
  split
  · obtain ⟨hl, hp, hr⟩ := stage_kept (planEntries p) t.cfg
    exact cfg_keeps t _ hl hp (by rw [hr]) (stage_active _ _)
  · exact .refl t

theorem execDiscardPlan_keeps (tag : Byte) (p : List Byte) (s : State) :
    Ends (execDiscardPlan tag p s) (Keeps s) :=
  .next (serve_keeps fun t _ => noPayload_keeps (cfg_keeps t _ rfl rfl rfl rfl))

theorem execSetParam_keeps (tag : Byte) (p : List Byte) (s : State) :
    Ends (execSetParam tag p s) (Keeps s) := by
  refine .next (serve_keeps fun t _ => ?_)
  unfold setParamBody
  split
  · split
    · split
      · refine checked_keeps fun _ => checked_keeps fun _ => answered_keeps ?_
        unfold State.setParam
        refine Keeps.onRack (cfg_keeps t _ ?_ ?_ ?_ ?_) (followParam_reach _ _ _) <;> rfl
      · exact .refl t
    · exact .refl t
  · exact .refl t

theorem setLeakAction_keeps (s : State) (z : Fin 8) (x : LeakEntry) :
    Keeps s (s.setLeakAction z x) := by
  unfold State.setLeakAction
  dsimp only
  have h := cfg_keeps s { s.cfg with leakTable := put s.cfg.leakTable z x } rfl rfl rfl rfl
  split
  · exact h.trans (actAnew_keeps ..)
  · exact h

theorem execSetLeakAction_keeps (tag : Byte) (p : List Byte) (s : State) :
    Ends (execSetLeakAction tag p s) (Keeps s) := by
  refine .next (serve_keeps fun t _ => ?_)
  unfold setLeakActionBody
  split
  · split
    · exact checked_keeps fun _ => setLeakAction_keeps t _ _
    · exact .refl t
  · exact .refl t

theorem execLeakClear_keeps (tag : Byte) (p : List Byte) (s : State) :
    Ends (execLeakClear tag p s) (Keeps s) := by
  refine .next (serve_keeps fun t _ => indexed_keeps fun z => ?_)
  unfold leakClearBody
  split
  · exact .refl t
  · exact clearZone_keeps t z

theorem execCheckNow_keeps (tag : Byte) (p : List Byte) (s : State) :
    Ends (execCheckNow tag p s) (Keeps s) :=
  .next (serve_keeps fun t _ => indexed_keeps fun _ => checked_keeps fun _ =>
    answered_keeps (onRack_keeps (g := True) t (checkNow_reach ..)))

/-! ### The store -/

theorem execSaveConfig_keeps (tag : Byte) (p : List Byte) (s : State) :
    Ends (execSaveConfig tag p s) (Keeps s) := by
  refine .next (execute_keeps fun t _ => ?_)
  unfold saveConfigBody
  split
  · exact store_keeps t _ t.free
  · exact reply_keeps ..

theorem execConfigWriteEnd_keeps (v : Bool) (s : State) :
    Ends (execConfigWriteEnd v s) (Keeps s) :=
  .ite (.concludes ((endWrite_keeps s v 0).trans (replySaved_keeps ..))) (.next (.refl s))

theorem execBatteryWriteEnd_keeps (v : Bool) (s : State) :
    Ends (execBatteryWriteEnd v s) (Keeps s) :=
  .ite (.concludes (endWrite_keeps s v 1)) (.next (.refl s))

/-! ### The rack link's own events and the pin -/

theorem execStrayByte_keeps (b : Byte) (s : State) : Ends (execStrayByte b s) (Keeps s) :=
  .ite (.concludes (link_keeps s _ (.inl (le_refl _)))) (.next (.refl s))

theorem execFrameBegin_keeps (s : State) : Ends (execFrameBegin s) (Keeps s) :=
  .ite (.concludes (link_keeps s _ (.inl (le_refl _)))) (.next (.refl s))

theorem execFrameEnd_keeps (bytes : List Byte) (s : State) :
    Ends (execFrameEnd bytes s) (Keeps s) :=
  .ite (.concludes ((endFrame_keeps _ _).after (link_keeps s _ (.inl (le_refl _)))))
    (.next (.refl s))

theorem execFrameTimeout_keeps (s : State) : Ends (execFrameTimeout s) (Keeps s) :=
  .ite (.concludes ((linkFault_keeps _ _).after (link_keeps s _ (.inl (le_refl _)))))
    (.next (.refl s))

theorem execNotificationSent_keeps (s : State) : Ends (execNotificationSent s) (Keeps s) := by
  unfold execNotificationSent
  refine .ite (.concludes ?_) (.next (.refl s))
  have h : Keeps s { s with rack := { s.rack with notif := s.rack.notif.depart s.now } } :=
    Keeps.rack (g := True) s ((Reach.refl _).listed _ fun h => depart_length _ _ h)
  exact h.trans (link_keeps _ _ (.inl (le_refl _)))

theorem pin_keeps (s : State) (low : Bool) :
    Keeps s { s with boot := { s.boot with pinLow := low } } := by
  refine Beside.keeps ?_ rfl rfl rfl
  exact ⟨rfl, rfl, rfl, rfl, rfl, rfl, .inl (le_refl _), id, id⟩

theorem execRestartNRelease_keeps (s : State) : Ends (execRestartNRelease s) (Keeps s) :=
  .concludes (pin_keeps s false)

/-! ### The shelf bus -/

theorem execPollCycleBegin_keeps (s : State) : Ends (execPollCycleBegin s) (Keeps s) := by
  refine .ite (.concludes (onRack_keeps (g := True) s (Same.reach ?_))) (.next (.refl s))
  exact ⟨rfl, rfl, rfl, rfl, rfl, rfl, rfl, rfl, List.Sublist.refl _, id⟩

theorem execPsuStatus_keeps (f : List Byte) (s : State) : Ends (execPsuStatus f s) (Keeps s) := by
  unfold execPsuStatus
  split
  · exact .concludes (onRack_keeps (g := True) s (psuReport_reach ..))
  · exact .next (.refl s)

theorem execBuStatus_keeps (f : List Byte) (s : State) : Ends (execBuStatus f s) (Keeps s) := by
  unfold execBuStatus
  split
  · exact .concludes (onRack_keeps (g := True) s (buReport_reach ..))
  · exact .next (.refl s)

theorem execBadFrame_keeps (f : List Byte) (s : State) : Ends (execBadFrame f s) (Keeps s) := by
  refine .ite (.next (.refl s)) (.concludes (Keeps.rack (g := True) s (Same.reach ?_)))
  exact ⟨rfl, rfl, rfl, rfl, rfl, rfl, rfl, rfl, List.Sublist.refl _, id⟩

theorem execResponseWindowExpiry_keeps (s : State) :
    Ends (execResponseWindowExpiry s) (Keeps s) := by
  unfold execResponseWindowExpiry
  split
  · exact .ite (.concludes (onRack_keeps (g := True) s (expireWindow_reach ..)))
      (.next (.refl s))
  · exact .next (.refl s)

/-! ### Slot inputs and deadlines -/

theorem execGoodRising_keeps (n : Fin 48) (a b : Bool) (s : State) :
    Ends (execGoodRising n a b s) (Keeps s) :=
  .ite (.concludes ((inputs_keeps s _).onRack (goodRises_reach (g := True) ..)))
    (.next (.refl s))

theorem execGoodFalling_keeps (n : Fin 48) (a b : Bool) (s : State) :
    Ends (execGoodFalling n a b s) (Keeps s) :=
  .ite (.concludes ((inputs_keeps s _).onRack (goodFalls_reach (g := True) ..)))
    (.next (.refl s))

theorem execParkedRising_keeps (n : Fin 48) (a b : Bool) (s : State) :
    Ends (execParkedRising n a b s) (Keeps s) :=
  .ite (.concludes ((inputs_keeps s _).onRack (parkedRises_reach (g := True) ..)))
    (.next (.refl s))

theorem execParkedFalling_keeps (n : Fin 48) (a b : Bool) (s : State) :
    Ends (execParkedFalling n a b s) (Keeps s) :=
  .ite (.concludes ((inputs_keeps s _).onRack (setParked_reach (g := True) ..)))
    (.next (.refl s))

theorem execGoodDeadline_keeps (n : Fin 48) (s : State) :
    Ends (execGoodDeadline n s) (Keeps s) := by
  unfold execGoodDeadline
  split
  · rename_i h
    refine .concludes (onRack_keeps (g := True) s ?_)
    exact (enter_reach s.env n _ _ _ (.inl (by rw [h.1]; exact fun h => by cases h)) rfl).trans
      (markFault_reach ..)
  · exact .next (.refl s)

theorem execDrainDeadline_keeps (n : Fin 48) (s : State) :
    Ends (execDrainDeadline n s) (Keeps s) :=
  .ite (.concludes (onRack_keeps (g := True) s (endDrain_reach ..))) (.next (.refl s))

/-! ### The timers -/

theorem execGateTimer_keeps (s : State) : Ends (execGateTimer s) (Keeps s) := by
  refine .ite (.concludes (Keeps.rack (g := True) s (Same.reach ?_))) (.next (.refl s))
  exact ⟨rfl, rfl, rfl, rfl, rfl, rfl, rfl, rfl, List.Sublist.refl _, id⟩

theorem execStartStalled_keeps (s : State) : Ends (execStartStalled s) (Keeps s) :=
  .ite (.concludes (onRack_keeps s (stall_reach ..))) (.next (.refl s))

theorem execControlPeriod_keeps (s : State) : Ends (execControlPeriod s) (Keeps s) := by
  unfold execControlPeriod
  split
  · exact .ite (.concludes (onRack_keeps (g := True) s (nextPeriod_reach ..))) (.next (.refl s))
  · exact .next (.refl s)

theorem execFrameBoundary_keeps (s : State) : Ends (execFrameBoundary s) (Keeps s) := by
  unfold execFrameBoundary
  split
  · exact .ite (.concludes (onRack_keeps (g := True) s (boundary_reach ..))) (.next (.refl s))
  · exact .next (.refl s)

theorem execCheckDue_keeps (j : Fin 12) (s : State) : Ends (execCheckDue j s) (Keeps s) :=
  .ite (.concludes (onRack_keeps (g := True) s (evaluateChecks_reach ..))) (.next (.refl s))

theorem execSampleDeadline_keeps (j : Fin 12) (s : State) :
    Ends (execSampleDeadline j s) (Keeps s) :=
  .ite (.concludes (onRack_keeps (g := True) s
    ((dropSample_reach ..).same (setDue_same ..)))) (.next (.refl s))

theorem execLeakSample_keeps (l : Vector (BitVec 10) 16) (s : State) :
    Ends (execLeakSample l s) (Keeps s) :=
  .ite (.concludes (sampleAll_keeps s l)) (.next (.refl s))

theorem execGraceExpiry_keeps (z : Fin 8) (s : State) : Ends (execGraceExpiry z s) (Keeps s) :=
  .ite (.concludes (isolateZone_keeps s z)) (.next (.refl s))

end Sys2Proof.Machine
end

