-- ==== Sys2Proof/Proofs/KeepsResets.lean ====
section
/-! PROOF. The resets under `Keeps`: the store load, the warm restart, the adoption and the pinning of
timestamps, with the laws of the part right after a power-on. -/

namespace Sys2Proof.Machine

/-! ### A rack at rest -/

/-- No slot draws and none is queued. -/
def Rack.Resting (r : Rack) : Prop :=
  ∀ n : Fin 48, (r.slots[n]).state.powered = false ∧ (r.slots[n]).state ≠ .queued

theorem stateDraw_unpowered (p : Profile) {st : SlotState} (h : st.powered = false) :
    stateDraw p st = 0 := by
  cases st with
  | starting | on | draining => cases h
  | disabled | off | queued | shed | isolated | faulted => rfl

theorem Rack.Resting.of_disabled {r : Rack} (h : ∀ n : Fin 48, (r.slots[n]).state = .disabled) :
    r.Resting := fun n => by rw [h n]; exact ⟨rfl, fun k => by cases k⟩

/-- Over a rack at rest every figure that follows the slots is 0, and no slot waits. -/
theorem Rack.Resting.follows_iff {r : Rack} (h : r.Resting) (e : Env) :
    r.Follows e ↔ r.acct.s = 0 ∧ r.acct.relief = 0 ∧ r.grid.powered = 0 ∧ r.queue.entries = [] := by
  have hs : total 48 (drawOf e r) = 0 := by
    rw [total_eq_sum]
    exact Finset.sum_eq_zero fun n _ => stateDraw_unpowered _ (h n).1
  have hr : (total 48 fun n =>
      if (r.slots[n]).state = .draining ∧ (r.slots[n]).drain.map Drain.target = some .shed then
        (e.profile n).peakW
      else 0) = 0 := by
    rw [total_eq_sum]
    refine Finset.sum_eq_zero fun n _ => if_neg fun k => ?_
    have := (h n).1
    rw [k.1] at this
    cases this
  have hp : (countOf 48 fun n => (r.slots[n]).state.powered) = 0 := by
    unfold countOf
    rw [List.length_eq_zero_iff, List.filter_eq_nil_iff]
    exact fun n _ => by rw [(h n).1]; decide
  constructor
  · intro k
    refine ⟨k.s.trans hs, k.relief.trans hr, k.powered.trans hp, ?_⟩
    exact List.eq_nil_iff_forall_not_mem.mpr fun n hn => (h n).2 ((k.queued n).mp hn)
  · rintro ⟨h1, h2, h3, h4⟩
    refine ⟨h1.trans hs.symm, h2.trans hr.symm, h3.trans hp.symm, by rw [h4]; exact List.nodup_nil,
      fun n => ?_⟩
    rw [h4]
    exact ⟨fun k => (List.not_mem_nil k).elim, fun k => ((h n).2 k).elim⟩

theorem QueueLaw.of_empty {s : State} (h : s.rack.queue.entries = [])
    (k : s.rack.queue.HeadFirst) : QueueLaw s := ⟨by rw [h]; exact List.Pairwise.nil, k⟩

/-! ### Power-on (R22) -/

theorem powerOn_slot (t : Store) (f : Nat) (n : Fin 48) :
    (State.powerOn t f).rack.slots[n] = initialSlot := Vector.getElem_replicate ..

theorem powerOn_resting (t : Store) (f : Nat) : (State.powerOn t f).rack.Resting :=
  .of_disabled fun n => by rw [powerOn_slot]; rfl

theorem powerOn_form (t : Store) (f : Nat) : FormLaw (State.powerOn t f) := by
  intro n
  rw [powerOn_slot]
  exact ⟨rfl, rfl, rfl, rfl, rfl⟩

theorem powerOn_roster (t : Store) (f : Nat) : RosterLaw (State.powerOn t f) :=
  ⟨fun _ => rfl, fun _ n => by rw [powerOn_slot]; rfl,
    ((powerOn_resting t f).follows_iff _).mpr ⟨rfl, rfl, rfl, rfl⟩⟩

theorem powerOn_queue (t : Store) (f : Nat) : QueueLaw (State.powerOn t f) := .of_empty rfl rfl

theorem powerOn_grace (t : Store) (f : Nat) : GraceLaw (State.powerOn t f) := by
  intro z h
  have hz : (State.powerOn t f).leak.zones[z] = initialZone := Vector.getElem_replicate ..
  rw [hz] at h
  cases h

/-! ### The store load (R22, R23) -/

theorem FormLaw.latched {s : State} (f : FormLaw s) (n : Fin 48) : (s.rack.slots[n]).Latched := by
  have h := f n
  split at h
  · exact h
  · exact formed_latched h

/-- A slot that stands OFF or DISABLED with both latches off has its form. -/
theorem formed_at_rest {x : SlotRec} {p : Prop} [Decidable p]
    (hs : x.state = if p then .off else .disabled) (hp : x.permit = false) (hw : x.warn = false)
    (hd : x.drain = none) (hg : x.goodDeadline = none) (hq : x.queueTime = none) : x.Formed := by
  refine ⟨?_, ?_, ?_, ?_, ?_⟩ <;> simp only [hs, hp, hw, hd, hg, hq] <;> split <;> rfl

/-- A DISABLED slot holds no drain, no good deadline and no queue time (R62). -/
theorem SlotRec.Latched.at_disabled {x : SlotRec} (h : x.Latched) (k : x.state = .disabled) :
    x.drain = none ∧ x.goodDeadline = none ∧ x.queueTime = none := by
  obtain ⟨-, hd, hg, hq⟩ := h
  rw [k] at hd hg hq
  exact ⟨Option.isSome_eq_false_iff.mp hd |> Option.isNone_iff_eq_none.mp,
    Option.isSome_eq_false_iff.mp hg |> Option.isNone_iff_eq_none.mp,
    Option.isSome_eq_false_iff.mp hq |> Option.isNone_iff_eq_none.mp⟩

theorem ite_rest {p : Prop} [Decidable p] {st : SlotState}
    (h : st = if p then .off else .disabled) : st.powered = false ∧ st ≠ .queued := by
  rw [h]
  split <;> exact ⟨rfl, fun k => by cases k⟩

/-- No slot of an UNCOMMISSIONED part is usable. -/
theorem usable_of_unlocked {e : Env} (h : e.cfg.locked = false) (n : Fin 48) :
    e.usable n = false := by
  unfold Env.usable
  rw [h]
  rfl

/-- The slots that a load leaves: at rest, and DISABLED on an UNCOMMISSIONED part. -/
theorem loadSlots_rest (e : Env) (r : Rack) (n : Fin 48) :
    ((loadSlots e r).slots[n]).state = if e.usable n = true then .off else .disabled := by
  rw [loadSlots_slots]

theorem loadSlots_formed (e : Env) {r : Rack} (n : Fin 48) (h : (r.slots[n]).Latched)
    (k : (r.slots[n]).state = .disabled) : ((loadSlots e r).slots[n]).Formed := by
  rw [loadSlots_slots]
  obtain ⟨hd, hg, hq⟩ := h.at_disabled k
  exact formed_at_rest rfl rfl rfl hd hg hq

theorem load_keeps {s : State} (h : s.boot.loaded = false) :
    Keeps s (s.loadTables.onRack loadSlots) := by
  have rest : (loadSlots s.loadTables.env s.loadTables.rack).Resting := fun n =>
    ite_rest (loadSlots_rest _ _ n)
  refine ⟨by simp, by simp, fun k => ?_, fun f r => ?_⟩
  · rw [GraceLaw, onRack_leak, loadTables_leak]
    exact k
  have hd := r.disabled (r.unloaded h)
  obtain ⟨h1, h2, h3, h4⟩ := ((Rack.Resting.of_disabled hd).follows_iff _).mp r.follows
  have formed : ∀ n : Fin 48, ((s.loadTables.onRack loadSlots).rack.slots[n]).Formed := fun n => by
    rw [onRack_rack]
    refine loadSlots_formed _ n ?_ ?_ <;> rw [loadTables_slots]
    · exact f.latched n
    · exact hd n
  refine ⟨fun n => ?_, RosterLaw.mk (fun hl => ?_) (fun hl n => ?_) ?_, fun q => .of_empty ?_ ?_⟩
  · split
    · exact formed_latched (formed n)
    · exact formed n
  · have hload : (s.loadTables.onRack loadSlots).boot.loaded = true := rfl
    rw [hload] at hl
    cases hl
  · rw [onRack_rack, loadSlots_rest, usable_of_unlocked hl]
    rfl
  · exact (rest.follows_iff _).mpr ⟨by simp [h1], by simp [h2], by simp [h3], by simp [h4]⟩
  · simp [h4]
  · simpa using q.head

theorem execStoreLoadComplete_keeps (s : State) : Ends (execStoreLoadComplete s) (Keeps s) := by
  unfold execStoreLoadComplete
  split
  · exact .next (.refl s)
  · rename_i h
    exact .concludes ((load_keeps (by simpa using h)).onRack (g := True)
      (forEach_reach (fun _ _ => logFault_reach ..) _ _))

/-! ### The warm restart (R82, R196) -/

theorem warmRestart_slot (s : State) (n : Fin 48) :
    s.warmRestart.rack.slots[n] = (s.rack.slots[n]).restart (s.env.usable n) := restart_slots ..

theorem warmRestart_keeps (s : State) : Keeps s s.warmRestart := by
  have rest : s.warmRestart.rack.Resting := fun n =>
    ite_rest (p := s.env.usable n = true) (by rw [warmRestart_slot]; rfl)
  refine ⟨rfl, rfl, id, fun f r => ⟨fun n => ?_, ⟨r.unloaded, fun hl n => ?_,
    (rest.follows_iff _).mpr ⟨rfl, rfl, rfl, rfl⟩⟩, fun _ => .of_empty rfl rfl⟩⟩
  · show (s.warmRestart.rack.slots[n]).Latched
    rw [warmRestart_slot]
    refine ⟨(f.latched n).warn, ?_, ?_, ?_⟩ <;> show false = _ <;>
      unfold SlotRec.restart <;> dsimp only <;> split <;> rfl
  · rw [warmRestart_slot]
    rw [usable_of_unlocked (e := s.env) hl n]
    rfl

theorem execRestartN_keeps (s : State) : Ends (execRestartN s) (Keeps s) :=
  .ite (.next (.refl s)) (.concludes ((warmRestart_keeps s).trans (pin_keeps _ true)))

theorem execReplySent_keeps (s : State) : Ends (execReplySent s) (Keeps s) := by
  unfold execReplySent
  refine .ite (.concludes ?_) (.next (.refl s))
  have h := link_keeps s { s.link with line := .idle, holder := none } (.inl (le_refl _))
  split
  · exact (warmRestart_keeps _).after h
  · exact h

/-! ### The adoption (R83, R84) -/

theorem enter_self (e : Env) (n : Fin 48) (st : SlotState) (c : Cause) (r : Rack) :
    (enter e n st c r).slots[n] = (r.slots[n]).enter e.now st c := changeRecord_self ..

theorem enter_other (e : Env) (n m : Fin 48) (st : SlotState) (c : Cause) (r : Rack) (h : n ≠ m) :
    (enter e n st c r).slots[m] = r.slots[m] := by
  unfold enter
  rw [changeRecord_slots, put_other _ _ _ _ h]

/-- What survives an act of the rack's blocks beside the form of the slot records. -/
structure Bears (e : Env) (a b : Rack) : Prop where
  follows : a.Follows e → b.Follows e
  order : a.Follows e → a.queue.entries.Pairwise (Precedes e a.slots) →
    b.queue.entries.Pairwise (Precedes e b.slots)
  head : a.queue.HeadFirst → b.queue.HeadFirst
  disabled : e.commissioned = false → ∀ n : Fin 48, (a.slots[n]).state = .disabled →
    (b.slots[n]).state = .disabled

theorem Bears.trans {e : Env} {a b c : Rack} (h : Bears e a b) (k : Bears e b c) : Bears e a c :=
  ⟨k.follows ∘ h.follows, fun f o => k.order (h.follows f) (h.order f o), k.head ∘ h.head,
    fun l n d => k.disabled l n (h.disabled l n d)⟩

theorem Reach.bears {g : Prop} {e : Env} {a b : Rack} (h : Reach g e a b) : Bears e a b :=
  ⟨h.follows, h.order, h.headFirst, fun l n => h.disabled l n⟩

theorem changeRecord_bears (e : Env) (n : Fin 48) (x : SlotRec) (r : Rack)
    (h : (r.slots[n]).state ≠ .disabled) : Bears e r (changeRecord e n x r) := by
  refine ⟨fun f => changeRecord_follows f n x, fun f o => changeRecord_order f n x o,
    changeRecord_first e n x r, fun _ m hm => ?_⟩
  rw [changeRecord_slots, put_other _ _ _ _ fun k : n = m => h (k ▸ hm)]
  exact hm

theorem keepDisabled_kept (t : Time) (x : SlotRec) :
    (keepDisabled t x).state = x.state ∧ (keepDisabled t x).drain = x.drain ∧
      (keepDisabled t x).queueTime = x.queueTime := by
  unfold keepDisabled
  split <;> exact ⟨rfl, rfl, rfl⟩

theorem keepDisabled_bears (e : Env) (n : Fin 48) (r : Rack) :
    Bears e r { r with slots := put r.slots n (keepDisabled e.now r.slots[n]) } := by
  obtain ⟨hs, hd, hq⟩ := keepDisabled_kept e.now r.slots[n]
  have get : ∀ m : Fin 48, (put r.slots n (keepDisabled e.now r.slots[n]))[m] =
      if n = m then keepDisabled e.now r.slots[n] else r.slots[m] := fun m => put_get ..
  refine ⟨fun f => f.congr (fun m => ?_) (fun m => ?_) rfl rfl rfl (.refl _),
    fun _ o => order_congr o fun m _ => ?_, id, fun _ m hm => ?_⟩ <;> dsimp only <;> rw [get] <;>
    split <;> rename_i h
  · subst h; exact hs
  · rfl
  · subst h; exact hd
  · rfl
  · subst h; exact hq
  · rfl
  · subst h; exact hs.trans hm
  · exact hm

/-- The record that the adoption leaves of a slot. -/
def adoptedRec (e : Env) (good : BitVec 48) (n : Fin 48) (x : SlotRec) : SlotRec :=
  if x.state = .disabled then keepDisabled e.now x
  else if x.permit then x.adopt e.now (good.getLsbD n.val) (e.profile n).goodDeadline
  else x.adoptOff e.now (if e.slotZoneIsolated n then .isolated else .off)

theorem adoptSlot_slots (e : Env) (good : BitVec 48) (n : Fin 48) (r : Rack) :
    (adoptSlot e good n r).slots = put r.slots n (adoptedRec e good n r.slots[n]) := by
  unfold adoptSlot adoptedRec
  dsimp only
  split
  · rfl
  · split <;> exact changeRecord_slots ..

theorem adoptSlot_bears (e : Env) (good : BitVec 48) (n : Fin 48) (r : Rack) :
    Bears e r (adoptSlot e good n r) := by
  unfold adoptSlot
  dsimp only
  split
  · exact keepDisabled_bears e n r
  · rename_i h
    split <;> exact changeRecord_bears e n _ r h

theorem adoptSlot_other (e : Env) (good : BitVec 48) (n m : Fin 48) (r : Rack) (h : n ≠ m) :
    (adoptSlot e good n r).slots[m] = r.slots[m] := by
  rw [adoptSlot_slots, put_other _ _ _ _ h]

theorem keepDisabled_formed {x : SlotRec} (t : Time) (h : x.Latched) (k : x.state = .disabled) :
    (keepDisabled t x).Formed := by
  obtain ⟨hd, hg, hq⟩ := h.at_disabled k
  unfold keepDisabled
  split
  · exact formed_at_rest (p := False) k rfl rfl hd hg hq
  · rename_i hp
    have hw : x.warn = false := Bool.eq_false_iff.mpr fun hw => hp (h.warn hw)
    exact formed_at_rest (p := False) k (by simpa using hp) hw hd hg hq

theorem adopt_formed (x : SlotRec) (t : Time) (good : Bool) (len : Nat) :
    (x.adopt t good len).Formed := by
  unfold SlotRec.adopt
  split <;> exact ⟨rfl, rfl, rfl, rfl, rfl⟩

theorem adoptOff_formed (x : SlotRec) (t : Time) {st : SlotState} (h : st.powered = false) :
    (x.adoptOff t st).Formed := by
  obtain ⟨h1, h2, h3, h4, h5⟩ := enter_formed_off x t st .configuration h
  exact ⟨h1, h2, h3, h4, h5⟩

theorem adoptSlot_formed (e : Env) (good : BitVec 48) (n : Fin 48) (r : Rack)
    (h : (r.slots[n]).Latched) : ((adoptSlot e good n r).slots[n]).Formed := by
  rw [adoptSlot_slots, put_self]
  unfold adoptedRec
  split
  · rename_i k; exact keepDisabled_formed _ h k
  · split
    · exact adopt_formed ..
    · exact adoptOff_formed _ _ (by split <;> rfl)

/-- What follows the adoption of one slot within its turn. -/
theorem adoptInTurn_reach (e : Env) (good : BitVec 48) (n : Fin 48) (r : Rack) :
    Reach True e (adoptSlot e good n r) (adoptInTurn e good n r) := by
  unfold adoptInTurn
  dsimp only
  have h := (joinRackDrain_reach (g := True) e n (adoptSlot e good n r)).trans (handOn_reach e _)
  exact ite_reach (h.trans ((leakCut_reach e n _).trans (handOn_reach e _))) h

theorem adoptInTurn_bears (e : Env) (good : BitVec 48) (n : Fin 48) (r : Rack) :
    Bears e r (adoptInTurn e good n r) :=
  (adoptSlot_bears e good n r).trans (adoptInTurn_reach e good n r).bears

theorem adoptAll_bears (e : Env) (good : BitVec 48) :
    ∀ (ns : List (Fin 48)) (r : Rack), Bears e r (forEach (adoptInTurn e good) ns r)
  | [], r => (Reach.refl (g := True) r).bears
  | n :: ns, r => (adoptInTurn_bears e good n r).trans (adoptAll_bears e good ns _)

/-- Once every slot has had its turn, every record has its form. -/
theorem adoptAll_formed (e : Env) (good : BitVec 48) (ns : List (Fin 48)) (r : Rack)
    (hl : ∀ n : Fin 48, (r.slots[n]).Latched)
    (hf : ∀ n : Fin 48, n ∉ ns → (r.slots[n]).Formed) (n : Fin 48) :
    ((forEach (adoptInTurn e good) ns r).slots[n]).Formed := by
  induction ns generalizing r with
  | nil => exact hf n (List.not_mem_nil)
  | cons m ms ih =>
    have turn := adoptInTurn_reach e good m r
    refine ih _ (fun k => turn.latched k ?_) (fun k hk => turn.formed k ?_)
    · by_cases h : m = k
      · subst h; exact formed_latched (adoptSlot_formed e good m r (hl m))
      · rw [adoptSlot_other e good m k r h]; exact hl k
    · by_cases h : m = k
      · subst h; exact adoptSlot_formed e good m r (hl m)
      · rw [adoptSlot_other e good m k r h]
        exact hf k fun hmem => (List.mem_cons.mp hmem).elim (fun e => h e.symm) hk

theorem lateGood_reach {g : Prop} (e : Env) (good : BitVec 48) (n : Fin 48) (r : Rack) :
    Reach g e r (lateGood e good n r) := by
  have h := setGood_reach (g := g) e n true r
  exact ite_reach (ite_reach (h.trans (unexpectedGood_reach e n _)) h) (.refl r)

/-- The rack that an adoption leaves, with its records formed. -/
theorem adopted_keeps (s : State) (a : Rack) (x : Inputs) (b : Bears s.env s.rack a)
    (hf : ∀ n : Fin 48, (a.slots[n]).Formed) :
    Keeps s { s with boot := { s.boot with adopting := false }, inputs := x, rack := a } :=
  ⟨rfl, rfl, id, fun _ r => ⟨hf, ⟨r.unloaded, fun hl n => b.disabled hl n (r.disabled hl n),
    b.follows r.follows⟩, fun q => ⟨b.order r.follows q.order, b.head q.head⟩⟩⟩

/-- Every slot is adopted (R83, R84). -/
theorem adoptSlots_laws (s : State) (good : BitVec 48) (x : Inputs) (f : FormLaw s) :
    Keeps s (({ s with boot := { s.boot with adopting := false }, inputs := x } : State).onRack
      fun e r => forEach (adoptInTurn e good) (List.finRange 48) r) :=
  adopted_keeps s _ x (adoptAll_bears s.env good _ s.rack)
    (adoptAll_formed s.env good _ s.rack f.latched fun m hm => (hm (List.mem_finRange m)).elim)

/-- A law that the form of the slot records is needed for. -/
theorem Keeps.of_form {s t : State} (hn : t.now = s.now) (hp : t.pending = s.pending)
    (hg : GraceLaw s → GraceLaw t) (h : FormLaw s → Keeps s t) : Keeps s t :=
  ⟨hn, hp, hg, fun f => (h f).laws f⟩

theorem adoptSlots_keeps (s : State) (good : BitVec 48) (x : Inputs) :
    Keeps s (({ s with boot := { s.boot with adopting := false }, inputs := x } : State).onRack
      fun e r => forEach (adoptInTurn e good) (List.finRange 48) r) :=
  .of_form rfl rfl id (adoptSlots_laws s good x)

theorem execAdoption_keeps (good : BitVec 48) (s : State) :
    Ends (execAdoption good s) (Keeps s) := by
  unfold execAdoption
  refine .ite (.concludes ?_) (.next (.refl s))
  dsimp only
  exact (forEach_keeps (fun z t => adoptZone_keeps t z) _ _).after
    ((adoptSlots_keeps s good _).onRack (g := True) (eachHandedOn_reach (lateGood_reach _ good) _ _))

/-! ### The pinning of timestamps (R18) -/

/-- A pin leaves every age as it is. -/
theorem age_pin (now t : Time) : age now (pin now t) = age now t := by
  unfold pin age elapsed Config.pinAge
  split
  · rename_i h
    bv_omega
  · rfl

/-- A slot record after the pinning of some of its timestamps: what the laws read of it is left. -/
structure Pinned (now : Time) (x y : SlotRec) : Prop where
  state : y.state = x.state
  permit : y.permit = x.permit
  warn : y.warn = x.warn
  drain : y.drain = x.drain
  goodDeadline : y.goodDeadline = x.goodDeadline
  queueTime : y.queueTime = x.queueTime ∨ y.queueTime = x.queueTime.map (pin now)

theorem Pinned.isSome {now : Time} {x y : SlotRec} (h : Pinned now x y) :
    y.queueTime.isSome = x.queueTime.isSome := by
  rcases h.queueTime with k | k <;> rw [k]
  exact Option.isSome_map

theorem Pinned.formed {now : Time} {x y : SlotRec} (h : Pinned now x y) (k : x.Formed) :
    y.Formed := by
  obtain ⟨h1, h2, h3, h4, h5⟩ := k
  exact ⟨by rw [h.permit, h.state, h1], by rw [h.warn, h.state, h2], by rw [h.drain, h.state, h3],
    by rw [h.goodDeadline, h.state, h4], by rw [h.isSome, h.state, h5]⟩

theorem Pinned.latched {now : Time} {x y : SlotRec} (h : Pinned now x y) (k : x.Latched) :
    y.Latched := by
  obtain ⟨h1, h2, h3, h4⟩ := k
  exact ⟨by rw [h.warn, h.permit]; exact h1, by rw [h.drain, h.state, h2],
    by rw [h.goodDeadline, h.state, h3], by rw [h.isSome, h.state, h4]⟩

theorem queueAge_pinned {e : Env} {v w : Vector SlotRec 48} {n : Fin 48}
    (h : Pinned e.now v[n] w[n]) : queueAge e w n = queueAge e v n := by
  unfold queueAge
  rcases h.queueTime with k | k <;> rw [k]
  cases (v[n]).queueTime with
  | none => rfl
  | some t => exact age_pin e.now t

/-- A pin of a slot's timestamp keeps what a command keeps. -/
theorem pinSlot_keeps (s : State) (n : Fin 48) (f : SlotRec → SlotRec)
    (h : Pinned s.now s.rack.slots[n] (f s.rack.slots[n])) :
    Keeps s { s with rack.slots := change s.rack.slots n f } := by
  have pinned : ∀ m : Fin 48, Pinned s.now s.rack.slots[m] (change s.rack.slots n f)[m] := by
    intro m
    unfold change
    rw [put_get]
    split
    · rename_i hm; subst hm; exact h
    · exact ⟨rfl, rfl, rfl, rfl, rfl, .inl rfl⟩
  refine ⟨rfl, rfl, id, fun k r => ⟨fun m => ?_, ⟨r.unloaded, fun hl m => ?_,
    r.follows.congr (fun m => (pinned m).state) (fun m => (pinned m).drain) rfl rfl rfl (.refl _)⟩,
    fun q => ⟨?_, q.head⟩⟩⟩
  · have hm := k m
    split at hm <;> rename_i ha
    · exact (if_pos ha).mpr ((pinned m).latched hm)
    · exact (if_neg ha).mpr ((pinned m).formed hm)
  · exact (pinned m).state.trans (r.disabled hl m)
  · exact q.order.imp fun p => p.congr rfl (queueAge_pinned (e := s.env) (pinned _))
      (queueAge_pinned (e := s.env) (pinned _))

theorem execTimestampPin_keeps (p : PinTarget) (s : State) :
    Ends (execTimestampPin p s) (Keeps s) := by
  refine .next ?_
  cases p with
  | offSince n => exact pinSlot_keeps s n _ ⟨rfl, rfl, rfl, rfl, rfl, .inl rfl⟩
  | grantTime n => exact pinSlot_keeps s n _ ⟨rfl, rfl, rfl, rfl, rfl, .inl rfl⟩
  | queueTime n => exact pinSlot_keeps s n _ ⟨rfl, rfl, rfl, rfl, rfl, .inr rfl⟩
  | alarmTime z => exact changeZone_keeps s z _ fun _ hg => .inl ⟨hg, rfl⟩
  | history i =>
    exact ⟨rfl, rfl, id, fun f r => ⟨f, ⟨r.unloaded, r.disabled, r.follows.congr (fun _ => rfl)
      (fun _ => rfl) rfl rfl rfl (.refl _)⟩, fun q => ⟨q.order, q.head⟩⟩⟩
  | psuReport i =>
    refine Keeps.rack (g := True) s (Same.reach ?_)
    exact ⟨rfl, rfl, rfl, rfl, rfl, rfl, rfl, rfl, List.Sublist.refl _, id⟩
  | buReport j =>
    refine Keeps.rack (g := True) s (Same.reach ?_)
    exact ⟨rfl, rfl, rfl, rfl, rfl, rfl, rfl, rfl, List.Sublist.refl _, id⟩
  | headSince =>
    refine Keeps.rack (g := True) s (Same.reach ?_)
    refine ⟨rfl, rfl, rfl, rfl, rfl, rfl, rfl, rfl, List.Sublist.refl _, fun k => ?_⟩
    unfold StartQueue.HeadFirst at *
    rw [← k, Option.map_map]
    rfl

end Sys2Proof.Machine
end

