-- ==== Sys2Proof/Proofs/KeepsConfig.lean ====
section
/-! PROOF. The commands that change the plan in force, the profiles, the slot sections or the lock state,
under `Keeps`. -/

namespace Sys2Proof.Machine

/-! ### The plan in force (R13, R92, R118) -/

/-- A queue sorted again stands in the order of R85. -/
theorem resortQueue_order (e : Env) (r : Rack) (h : r.queue.entries.Nodup) :
    (resortQueue e r).queue.entries.Pairwise (Precedes e (resortQueue e r).slots) := by
  have hs : (resortQueue e r).slots = r.slots := followHead_slots ..
  have hq : (resortQueue e r).queue.entries = sortBy (queueBefore e r.slots) r.queue.entries :=
    followHead_queue ..
  rw [hs, hq]
  exact sortBy_order h

/-- A plan comes into force, and the rack moves to a queue sorted under it. -/
theorem replan_keeps (s : State) (c : WorkCfg) {f : Env → Rack → Rack}
    (h1 : c.locked = s.cfg.locked) (h2 : c.profiles = s.cfg.profiles)
    (h3 : c.record.slots = s.cfg.record.slots) (h : ∀ e r, Reach True e r (f e r))
    (ho : ∀ e r, r.Follows e → (f e r).queue.entries.Pairwise (Precedes e (f e r).slots)) :
    Keeps s (({ s with cfg := c } : State).onRack f) := by
  have b := Moves.refl (g := True).beside (beside_cfg s c h1 h2 h3)
  have m : Moves True s (({ s with cfg := c } : State).onRack f) := b.onRack (h _ _)
  exact ⟨rfl, rfl, m.grace, fun k r => ⟨m.form k, m.roster r,
    fun q => ⟨ho _ _ (b.roster r).follows, (h _ _).headFirst q.head⟩⟩⟩

theorem commitPlan_keeps (s : State) : Keeps s (commitPlanBody s).1 := by
  unfold commitPlanBody
  split
  · exact answered_keeps (replan_keeps s s.cfg.commit rfl rfl rfl
      (fun _ r => ((Reach.refl r).todo { r.todo with hold := true }).trans (resortQueue_reach _ _))
      fun _ _ f => resortQueue_order _ _ f.nodup)
  · exact answered_keeps (cfg_keeps s _ rfl rfl rfl rfl)

theorem execCommitPlan_keeps (tag : Byte) (p : List Byte) (s : State) :
    Ends (execCommitPlan tag p s) (Keeps s) :=
  .next (serve_keeps fun t _ => noPayload_keeps (checked_keeps fun _ => commitPlan_keeps t))

/-- What the entry to NORMAL does once an armed commit is taken (R118, steps 3 to 8). -/
theorem enterNormal_rest {g : Prop} (e : Env) (armed : Bool) (r : Rack) :
    ∃ u : Rack, (u.grid = { r.grid with state := .normal, qualify := none } ∧
      u.slots = r.slots ∧ u.queue = r.queue ∧ u.acct = r.acct) ∧
      Reach g e (if armed then takeCommit e u else u) (enterNormal e armed r) := by
  refine ⟨moveGrid e { r.grid with state := .normal, qualify := none } r.grid.level r,
    ⟨rfl, rfl, rfl, rfl⟩, ?_⟩
  unfold enterNormal
  dsimp only
  generalize (if armed = true then takeCommit e _ else _ : Rack) = a
  refine Reach.trans ?_ (evaluateChecks_reach ..)
  refine Reach.trans ?_ (beginRecharge_reach ..)
  refine Reach.trans ?_ (evaluateShortfall_reach ..)
  have h : Reach g e a { a with grid := { a.grid with level := 0, inEvent := false } } :=
    Same.reach ⟨rfl, rfl, rfl, rfl, rfl, rfl, rfl, rfl, List.Sublist.refl _, id⟩
  exact ite_reach (h.trans (restore_reach ..)) h

/-- With an armed commit the entry to NORMAL leaves the queue in the order of the plan it takes. -/
theorem enterNormal_order (e : Env) (r : Rack) (h : r.Follows e) :
    (enterNormal e true r).queue.entries.Pairwise (Precedes e (enterNormal e true r).slots) := by
  obtain ⟨u, ⟨hg, hs, hq, ha⟩, k⟩ := enterNormal_rest (g := True) e true r
  have hu : u.Follows e := h.congr (fun n => by rw [hs]) (fun n => by rw [hs]) (by rw [ha])
    (by rw [ha]) (by rw [hg]) (by rw [hq])
  exact k.order ((takeCommit_reach (g := True) e u).follows hu)
    (resortQueue_order e { u with todo := { u.todo with hold := true } } hu.nodup)

theorem enterNormal_keeps (s : State) : Keeps s
    (({ s with cfg := s.cfg.takeArm } : State).onRack fun e r => enterNormal e s.cfg.armed r) := by
  obtain ⟨h1, h2, h3⟩ := takeArm_kept s.cfg
  cases ha : s.cfg.armed with
  | true =>
    exact replan_keeps s s.cfg.takeArm h1 h2 h3 (fun e r => enterNormal_reach e true r)
      enterNormal_order
  | false =>
    refine (cfg_keeps s s.cfg.takeArm h1 h2 h3 ?_).onRack (g := True) (enterNormal_reach ..)
    unfold WorkCfg.takeArm
    rw [ha]
    rfl

theorem execQualifyTimer_keeps (s : State) : Ends (execQualifyTimer s) (Keeps s) :=
  .ite (.concludes (enterNormal_keeps s)) (.next (.refl s))

/-! ### The profiles (R10, R11) -/

/-- The figures of the slots read the profiles of the powered ones alone (R52, R58). -/
theorem Rack.Follows.of_powered {e e' : Env} {r : Rack} (k : r.Follows e)
    (h : ∀ n : Fin 48, (r.slots[n]).state.powered = true → e'.profile n = e.profile n) :
    r.Follows e' := by
  refine ⟨?_, ?_, k.powered, k.nodup, k.queued⟩
  · rw [k.s]
    refine congrArg (total 48) (funext fun n => ?_)
    unfold drawOf
    cases hp : (r.slots[n]).state.powered with
    | true => rw [h n hp]
    | false => rw [stateDraw_unpowered _ hp, stateDraw_unpowered _ hp]
  · rw [k.relief]
    refine congrArg (total 48) (funext fun n => ?_)
    by_cases hd : (r.slots[n]).state = .draining ∧
        (r.slots[n]).drain.map Drain.target = some .shed
    · rw [if_pos hd, if_pos hd, h n (by rw [hd.1]; rfl)]
    · rw [if_neg hd, if_neg hd]

theorem profileAt_other (c : WorkCfg) (p : Fin 8) (x : Profile) (k : Nat) (h : k ≠ p.val) :
    profileAt { c with profiles := put c.profiles p x } k = profileAt c k := by
  unfold profileAt put
  rw [Vector.getElem?_set_ne p.isLt (Ne.symm h)]

theorem applyValidity_reach {g : Prop} (e : Env) (p : Fin 8) (v : Bool) (n : Fin 48) (r : Rack) :
    Reach g e r (applyValidity e p v n r) := by
  unfold applyValidity
  split
  · rename_i hf
    have hc : e.commissioned = true := by
      unfold followsProfile at hf
      simp only [Bool.and_eq_true] at hf
      exact hf.1.1
    split
    · exact enter_reach e n _ _ r (.inr hc) rfl
    · exact enter_reach e n _ _ r (.inr hc) rfl
    · exact enter_reach e n _ _ r (.inr hc) rfl
    · exact enter_reach e n _ _ r (.inr hc) rfl
    · exact .refl r
  · exact .refl r

theorem headProfile_reach {g : Prop} (e : Env) (p : Fin 8) (r : Rack) :
    Reach g e r (headProfile e p r) := by
  unfold headProfile
  split
  · exact ite_reach ((Reach.refl r).todo _) (.refl r)
  · exact .refl r

/-- A profile that no powered slot names is replaced (R10). -/
theorem putProfile_keeps (s : State) (p : Fin 8) (x : Profile) (h : s.profileInUse p = false) :
    Keeps s { s with cfg := { s.cfg with profiles := put s.cfg.profiles p x } } := by
  refine ⟨rfl, rfl, id, fun f r => ⟨f, ⟨r.unloaded, r.disabled, r.follows.of_powered fun n hn => ?_⟩,
    fun q => ⟨q.order.imp fun k => k.congr rfl (queueAge_env rfl _ _) (queueAge_env rfl _ _),
      q.head⟩⟩⟩
  refine profileAt_other s.cfg p x _ fun hp => ?_
  have := List.any_eq_false.mp h n (List.mem_finRange n)
  refine this (Bool.and_eq_true_iff.mpr ⟨?_, hn⟩)
  unfold State.namesProfile
  exact beq_iff_eq.mpr hp

theorem setProfile_keeps (s : State) (p : Fin 8) (x : Profile) (h : s.profileInUse p = false) :
    Keeps s (s.setProfile p x) := by
  unfold State.setProfile
  dsimp only
  have k := putProfile_keeps s p x h
  refine Keeps.onRack (g := True) ?_ (headProfile_reach ..)
  split
  · exact k
  · exact k.onRack (g := True) (eachHandedOn_reach (applyValidity_reach _ p _) _ _)

theorem execSetProfile_keeps (tag : Byte) (p : List Byte) (s : State) :
    Ends (execSetProfile tag p s) (Keeps s) := by
  refine .next (serve_keeps fun t _ => ?_)
  unfold setProfileBody
  split
  · split
    · split
      · exact checked_keeps fun _ => checked_keeps fun hu =>
          answered_keeps (setProfile_keeps t _ _ hu)
      · exact .refl t
    · exact .refl t
  · exact .refl t

/-! ### COMMISSION_WRITE (R3) -/

/-- On an UNCOMMISSIONED part no slot reads its section. -/
theorem writeSection_keeps (s : State) (kind index : Nat) (x : List Byte)
    (h : s.cfg.locked = false) : Keeps s (writeSection kind index x s).1 := by
  refine ⟨rfl, rfl, id, fun f r => ?_⟩
  have rest := Rack.Resting.of_disabled (r.disabled h)
  exact ⟨f, ⟨r.unloaded, r.disabled, (rest.follows_iff _).mpr ((rest.follows_iff _).mp r.follows)⟩,
    fun q => ⟨q.order.imp fun k => k.congr rfl (queueAge_env rfl _ _) (queueAge_env rfl _ _),
      q.head⟩⟩

theorem execCommissionWrite_keeps (tag : Byte) (p : List Byte) (s : State) :
    Ends (execCommissionWrite tag p s) (Keeps s) := by
  refine .next (serve_keeps fun t _ => ?_)
  unfold commissionWriteBody
  split
  · split
    · exact checked_keeps fun _ => checked_keeps fun hl => checked_keeps fun _ =>
        writeSection_keeps t _ _ _ hl
    · exact .refl t
  · exact .refl t

/-! ### COMMISSION_LOCK (R5 to R7) -/

theorem discardAll_sublist (r : Rack) : ∀ (ps : List Pos) (b : Bus),
    (forEach (fun p b => if r.present p then b else b.discard p) ps b).entries.Sublist b.entries
  | [], b => List.Sublist.refl _
  | p :: ps, b => by
    refine (discardAll_sublist r ps _).trans ?_
    dsimp only
    split
    · exact List.Sublist.refl _
    · exact discard_sublist b p

theorem lockTables_reach {g : Prop} (e : Env) (c : CommRecord) (r : Rack) :
    Reach g e r (lockTables c r) := by
  unfold lockTables discardAbsent
  dsimp only
  exact Same.reach ⟨rfl, rfl, rfl, rfl, rfl, rfl, rfl, rfl, discardAll_sublist _ _ _, id⟩

theorem lockSlots_reach {g : Prop} (e : Env) (r : Rack) (h : e.commissioned = true) :
    Reach g e r (lockSlots e r) :=
  forEach_reach (fun n r => ite_reach (enter_reach e n _ _ r (.inr h) rfl) (.refl r)) _ r

theorem lockHanded_reach {g : Prop} (e : Env) (r : Rack) : Reach g e r (lockHanded e r) :=
  (computeAccount_reach e r).todo _

theorem lockLeak_keeps (s : State) : Keeps s s.lockLeak := by
  unfold State.lockLeak
  dsimp only
  refine (forEach_keeps (fun z t => ?_) _ _).after (channels_keeps s _ rfl)
  refine (setZone_keeps _ z .clear fun _ => .inl ?_).after
    (changeZone_keeps t z _ fun _ hg => by cases hg)
  rw [changeZone_get]

theorem lock_keeps (s : State) (h : s.boot.loaded = true) : Keeps s s.lock := by
  have k : Keeps s { s with
      cfg := { s.cfg with
        record := { s.cfg.record with
          rack := { s.cfg.record.rack with k := lockedK s.cfg.record.rack.k } }
        locked := true }
      marks := validate { s.cfg.record with
        rack := { s.cfg.record.rack with k := lockedK s.cfg.record.rack.k } } s.cfg.profiles } := by
    refine ⟨rfl, rfl, id, fun f r => ⟨f, ⟨fun hl => ?_, fun hl => Bool.noConfusion (show true = false from hl),
      Follows_env (e := s.env) rfl r.follows⟩, fun q => ⟨q.order.imp fun p =>
        p.congr rfl (queueAge_env rfl _ _) (queueAge_env rfl _ _), q.head⟩⟩⟩
    exact absurd (h.symm.trans hl) (by decide)
  unfold State.lock
  dsimp only
  refine Keeps.onRack (g := True) ?_ (lockHanded_reach ..)
  refine Keeps.trans ?_ (lockLeak_keeps _)
  refine Keeps.onRack (g := True) ?_ (lockSlots_reach _ _ rfl)
  exact k.onRack (g := True) ((lockTables_reach ..).trans (forEach_reach (leaveMembers_reach _) _ _))

theorem busy_false {s : State} (h : s.busy = false) :
    s.boot.loaded = true ∧ s.boot.adopting = false := by
  simpa [State.busy] using h

theorem execCommissionLock_keeps (tag : Byte) (p : List Byte) (s : State) :
    Ends (execCommissionLock tag p s) (Keeps s) :=
  .next (serve_keeps fun t hb => noPayload_keeps (checked_keeps fun _ => checked_keeps fun _ =>
    checked_keeps fun _ => checked_keeps fun _ =>
      answered_keeps (lock_keeps t (busy_false (hb rfl)).1)))

/-! ### DECOMMISSION (R8) -/

theorem unlockSlots_reach {g : Prop} (e : Env) (r : Rack) : Reach g e r (unlockSlots e r) := by
  refine forEach_reach (fun n r => ?_) _ r
  split
  · exact .refl r
  · rename_i h; exact enter_reach e n _ _ r (.inl h) rfl

/-- The slots that DECOMMISSION has taken stand DISABLED. -/
theorem disableAll (e : Env) (ns : List (Fin 48)) (r : Rack)
    (h : ∀ n : Fin 48, n ∉ ns → (r.slots[n]).state = .disabled) (n : Fin 48) :
    ((forEach (fun n r => if (r.slots[n]).state = .disabled then r
      else enter e n .disabled .configuration r) ns r).slots[n]).state = .disabled := by
  induction ns generalizing r with
  | nil => exact h n List.not_mem_nil
  | cons m ms ih =>
    refine ih _ fun k hk => ?_
    by_cases hm : m = k
    · subst hm
      dsimp only
      split
      · assumption
      · rw [enter_self]
        rfl
    · have hk : (r.slots[k]).state = .disabled :=
        h k fun hmem => (List.mem_cons.mp hmem).elim (fun e => hm e.symm) hk
      dsimp only
      split
      · exact hk
      · exact (congrArg SlotRec.state (enter_other e m k _ _ r hm)).trans hk

theorem unlockSlots_disabled (e : Env) (r : Rack) (n : Fin 48) :
    ((unlockSlots e r).slots[n]).state = .disabled :=
  disableAll e (List.finRange 48) r (fun m hm => (hm (List.mem_finRange m)).elim) n

/-- The lock state falls, and the rack moves to slots that all stand DISABLED. -/
theorem unlocked_keeps (s : State) (m : Marks) {r : Rack}
    (h : Reach True ({ s with cfg := { s.cfg with locked := false }, marks := m } : State).env s.rack r)
    (hd : ∀ n : Fin 48, (r.slots[n]).state = .disabled) :
    Keeps s { s with cfg := { s.cfg with locked := false }, marks := m, rack := r } := by
  refine ⟨rfl, rfl, id, fun f k => ?_⟩
  have follows : s.rack.Follows
      ({ s with cfg := { s.cfg with locked := false }, marks := m } : State).env :=
    Follows_env (e := s.env) rfl k.follows
  refine ⟨fun n => ?_, ⟨fun _ => rfl, fun _ => hd, h.follows follows⟩, fun q =>
    ⟨h.order follows (q.order.imp fun p =>
      p.congr rfl (queueAge_env rfl _ _) (queueAge_env rfl _ _)), h.headFirst q.head⟩⟩
  have hn := f n
  split at hn <;> rename_i ha
  · exact (if_pos ha).mpr (h.latched n hn)
  · exact (if_neg ha).mpr (h.formed n hn)

theorem changeZone_zone (s : State) (z i : Fin 8) (f : Zone → Zone) :
    (s.changeZone z f).leak.zones[i] = if z = i then f s.leak.zones[z] else s.leak.zones[i] :=
  put_get ..

theorem setZone_zone (s : State) (z i : Fin 8) (x : ZoneState) :
    (s.setZone z x).leak.zones[i] =
      if z = i then { s.leak.zones[i] with state := x } else s.leak.zones[i] := by
  unfold State.setZone
  split
  · rename_i h
    split
    · rename_i hz; subst hz; subst h; rfl
    · rfl
  · refine (changeZone_zone s z i _).trans ?_
    split
    · rename_i hz; subst hz; rfl
    · rfl

theorem setZone_grace (s : State) (z i : Fin 8) (x : ZoneState) :
    ((s.setZone z x).leak.zones[i]).grace = (s.leak.zones[i]).grace := by
  rw [setZone_zone]
  split <;> rfl

/-- Zones without a grace take any state. -/
theorem setZones_keeps (f : State → Fin 8 → ZoneState) : ∀ (zs : List (Fin 8)) (s : State),
    (∀ i : Fin 8, (s.leak.zones[i]).grace = none) →
      Keeps s (forEach (fun z s => s.setZone z (f s z)) zs s)
  | [], s, _ => .refl s
  | z :: zs, s, h => (setZone_keeps s z _ fun _ => .inl (h z)).trans
      (setZones_keeps f zs _ fun i => by rw [setZone_grace, h])

theorem unlock_grace (l : Leak) (i : Fin 8) : (l.unlock.zones[i]).grace = none := by
  unfold Leak.unlock
  dsimp only
  rw [ofFn_slot]

theorem unlockLeak_keeps (s : State) : Keeps s s.unlockLeak := by
  unfold State.unlockLeak
  refine (setZones_keeps (fun t z => if z.val = 0 then zoneFollows (t.zoneChannelStates z)
    else .clear) _ _ (unlock_grace s.leak)).after (leak_keeps s _ fun _ z hz => ?_)
  rw [show (({ s with leak := s.leak.unlock } : State).leak.zones[z]).grace = none from
    unlock_grace s.leak z] at hz
  cases hz

theorem unlock_keeps (s : State) : Keeps s s.unlock := by
  unfold State.unlock
  dsimp only
  refine Keeps.onRack (g := True) ?_ (lockHanded_reach ..)
  refine Keeps.trans ?_ (unlockLeak_keeps _)
  refine unlocked_keeps s noMarks ?_ (unlockSlots_disabled _ _)
  refine Reach.trans (Same.reach ?_) (unlockSlots_reach ..)
  exact ⟨rfl, rfl, rfl, rfl, rfl, rfl, rfl, rfl, List.Sublist.refl _, id⟩

theorem execDecommission_keeps (tag : Byte) (p : List Byte) (s : State) :
    Ends (execDecommission tag p s) (Keeps s) :=
  .next (serve_keeps fun t _ => noPayload_keeps (checked_keeps fun _ => checked_keeps fun _ =>
    checked_keeps fun _ => answered_keeps (unlock_keeps t)))

end Sys2Proof.Machine
end

