-- ==== Sys2Proof/Proofs/StepLaws.lean ====
section
/-! PROOF. What every command and every step keeps: no command stops the part (O3), the laws of the slots
(O55) and of the graces (O57) survive each step, and the part meets every law after reset (O59). -/

namespace Sys2Proof.Machine

/-! ### Every command -/

/-- Every command but POWER_ON answers a next state and keeps what `Keeps` says. -/
theorem exec_keeps (c : Instr) (s : State) (h : c ≠ .powerOn) : Ends (exec c s) (Keeps s) := by
  cases c with
  | powerOn => exact absurd rfl h
  | storeLoadComplete => exact execStoreLoadComplete_keeps s
  | restartN => exact execRestartN_keeps s
  | restartNRelease => exact execRestartNRelease_keeps s
  | adoption good => exact execAdoption_keeps good s
  | timestampPin p => exact execTimestampPin_keeps p s
  | strayByte b => exact execStrayByte_keeps b s
  | frameEnd bytes => exact execFrameEnd_keeps bytes s
  | frameTimeout => exact execFrameTimeout_keeps s
  | replySent => exact execReplySent_keeps s
  | notificationSent => exact execNotificationSent_keeps s
  | unknownKind kind tag p => exact execUnknownKind_keeps kind tag p s
  | identify tag p => exact execIdentify_keeps tag p s
  | readRack | readSlot | readModule | readBattery | readZone => exact .next (readIndexed_keeps _)
  | readFaults tag p => exact execReadFaults_keeps tag p s
  | clearFault tag p => exact execClearFault_keeps tag p s
  | slotOn tag p => exact execSlotOn_keeps tag p s
  | slotOff tag p => exact execSlotOff_keeps tag p s
  | slotCut tag p => exact execSlotCut_keeps tag p s
  | slotClear tag p => exact execSlotClear_keeps tag p s
  | rackStart tag p => exact execRackStart_keeps tag p s
  | rackStop tag p => exact execRackStop_keeps tag p s
  | stagePlan tag p => exact execStagePlan_keeps tag p s
  | commitPlan tag p => exact execCommitPlan_keeps tag p s
  | discardPlan tag p => exact execDiscardPlan_keeps tag p s
  | setProfile tag p => exact execSetProfile_keeps tag p s
  | setParam tag p => exact execSetParam_keeps tag p s
  | setLeakAction tag p => exact execSetLeakAction_keeps tag p s
  | leakClear tag p => exact execLeakClear_keeps tag p s
  | checkNow tag p => exact execCheckNow_keeps tag p s
  | setMask tag p => exact execSetMask_keeps tag p s
  | commissionWrite tag p => exact execCommissionWrite_keeps tag p s
  | commissionLock tag p => exact execCommissionLock_keeps tag p s
  | decommission tag p => exact execDecommission_keeps tag p s
  | saveConfig tag p => exact execSaveConfig_keeps tag p s
  | releaseHold tag p => exact execReleaseHold_keeps tag p s
  | restart tag p => exact execRestart_keeps tag p s
  | configWriteEnd v => exact execConfigWriteEnd_keeps v s
  | batteryWriteEnd v => exact execBatteryWriteEnd_keeps v s
  | pollCycleBegin => exact execPollCycleBegin_keeps s
  | psuStatus f => exact execPsuStatus_keeps f s
  | buStatus f => exact execBuStatus_keeps f s
  | badFrame f => exact execBadFrame_keeps f s
  | responseWindowExpiry => exact execResponseWindowExpiry_keeps s
  | goodRising n a b => exact execGoodRising_keeps n a b s
  | goodFalling n a b => exact execGoodFalling_keeps n a b s
  | parkedRising n a b => exact execParkedRising_keeps n a b s
  | parkedFalling n a b => exact execParkedFalling_keeps n a b s
  | goodDeadline n => exact execGoodDeadline_keeps n s
  | drainDeadline n => exact execDrainDeadline_keeps n s
  | gateTimer => exact execGateTimer_keeps s
  | startStalled => exact execStartStalled_keeps s
  | qualifyTimer => exact execQualifyTimer_keeps s
  | controlPeriod => exact execControlPeriod_keeps s
  | frameBoundary => exact execFrameBoundary_keeps s
  | checkDue j => exact execCheckDue_keeps j s
  | sampleDeadline j => exact execSampleDeadline_keeps j s
  | leakSample l => exact execLeakSample_keeps l s
  | graceExpiry z => exact execGraceExpiry_keeps z s
  | frameBegin => exact execFrameBegin_keeps s

theorem exec_powerOn (s : State) : exec .powerOn s =
    .next { State.powerOn (s.store.powerOn s.free) (s.free + 1) with pending := s.pending } := rfl

/-! ### The part with no command waiting -/

/-- A timestamp that no due pin names is at most 2^30 ms old (R18). -/
theorem young_of_idle {s : State} (h : s.dueEvents = []) (n : Fin 48) {t : Time}
    (ht : (s.rack.slots[n]).queueTime = some t) : (s.now - t).toNat ≤ 2 ^ 30 := by
  by_contra hc
  have hold : s.outgrown (.queueTime n) = true := by
    unfold State.outgrown
    rw [show s.pinned (.queueTime n) = some t from ht]
    exact decide_eq_true (not_le.mp hc)
  have hmem : (PinTarget.queueTime n) ∈ pinTargets := by
    simp [pinTargets]
  have due : Instr.timestampPin (.queueTime n) ∈ s.dueEvents := by
    unfold State.dueEvents
    refine List.mem_append_right _ (List.mem_flatMap.mpr ⟨_, hmem, ?_⟩)
    unfold dueIf
    rw [hold]
    exact List.mem_singleton.mpr rfl
  rw [h] at due
  exact List.not_mem_nil due

/-- A millisecond adds one to the age of a young timestamp, up to 2^30 (R18). -/
theorem age_succ {now t : Time} (h : (now - t).toNat ≤ 2 ^ 30) :
    age (now + 1) t = min (age now t + 1) (2 ^ 30) := by
  unfold age elapsed Config.pinAge
  bv_omega

/-- The order of two ages is the order of their successors up to 2^30. -/
theorem Precedes.aged {e e' : Env} {v : Vector SlotRec 48} {a b : Fin 48} (h : Precedes e v a b)
    (ho : e'.order = e.order) (ha : queueAge e' v a = min (queueAge e v a + 1) (2 ^ 30))
    (hb : queueAge e' v b = min (queueAge e v b + 1) (2 ^ 30))
    (la : queueAge e v a ≤ 2 ^ 30) : Precedes e' v a b := by
  unfold Precedes at *
  rw [ho, ha, hb]
  omega

/-- A queue time ages by the millisecond while no pin is due. -/
theorem queueAge_tick {s : State} (h : s.dueEvents = []) (n : Fin 48)
    (hq : (s.rack.slots[n]).queueTime.isSome = true) :
    queueAge s.tick.env s.rack.slots n = min (queueAge s.env s.rack.slots n + 1) (2 ^ 30) := by
  obtain ⟨t, ht⟩ := Option.isSome_iff_exists.mp hq
  unfold queueAge
  rw [ht]
  exact age_succ (young_of_idle h n ht)

theorem queueAge_le (e : Env) (v : Vector SlotRec 48) (n : Fin 48) : queueAge e v n ≤ 2 ^ 30 := by
  unfold queueAge
  split
  · exact Nat.min_le_right _ _
  · exact Nat.zero_le _

/-- A millisecond keeps the laws of the slots. -/
theorem tick_laws {s : State} (h : s.dueEvents = []) (f : FormLaw s) (r : RosterLaw s) :
    FormLaw s.tick ∧ RosterLaw s.tick ∧ (QueueLaw s → QueueLaw s.tick) := by
  refine ⟨f, ⟨r.unloaded, r.disabled, ?_⟩, fun q => ⟨?_, q.head⟩⟩
  · exact Follows_env (e := s.env) rfl
      (r.follows.congr (b := s.tick.rack) (fun _ => rfl) (fun _ => rfl) rfl rfl rfl (.refl _))
  · have some : ∀ n ∈ s.rack.queue.entries, (s.rack.slots[n]).queueTime.isSome = true := by
      intro n hn
      rw [(f.latched n).queueTime, (r.follows.queued n).mp hn]
      rfl
    exact q.order.imp_of_mem fun ha hb p => p.aged rfl (queueAge_tick h _ (some _ ha))
      (queueAge_tick h _ (some _ hb)) (queueAge_le _ _ _)

/-- The part with no command waiting keeps the laws of the slots. -/
theorem idle_laws {s : State} (f : FormLaw s) (r : RosterLaw s) :
    FormLaw s.idle ∧ RosterLaw s.idle ∧ (QueueLaw s → QueueLaw s.idle) := by
  unfold State.idle
  split
  · rename_i h
    split
    · exact ⟨f, r, id⟩
    · exact tick_laws (List.isEmpty_iff.mp h) f r
  · exact ⟨f, ⟨r.unloaded, r.disabled, r.follows⟩, fun q => ⟨q.order, q.head⟩⟩

theorem idle_leak_zones (s : State) : s.idle.leak = s.leak := by
  unfold State.idle
  split
  · split <;> rfl
  · rfl

/-! ### Steps -/

/-- A step runs the front command on the state with the queue's rest. -/
theorem step_cons {s : State} {c : Instr} {rest : List Instr} (h : s.pending = c :: rest) :
    step s = exec c { s with pending := rest } := by
  unfold step
  rw [h]

theorem step_nil {s : State} (h : s.pending = []) : step s = .next s.idle := by
  unfold step
  rw [h]

/-- What a step answers: what idling gives, a power-on, or what `Keeps` says of a state with the queue's
rest. -/
theorem step_cases {s t : State} (h : step s = .next t) :
    t = s.idle ∨ (∃ (u : Store) (n : Nat) (p : List Instr), t = { State.powerOn u n with pending := p }) ∨
      ∃ p : List Instr, Keeps { s with pending := p } t := by
  cases hp : s.pending with
  | nil =>
    rw [step_nil hp] at h
    cases h
    exact .inl rfl
  | cons c rest =>
    rw [step_cons hp] at h
    by_cases hc : c = .powerOn
    · subst hc
      rw [exec_powerOn] at h
      cases h
      exact .inr (.inl ⟨_, _, _, rfl⟩)
    · obtain ⟨u, hu, k⟩ := exec_keeps c { s with pending := rest } hc
      rw [hu] at h
      cases h
      exact .inr (.inr ⟨rest, k⟩)

end Sys2Proof.Machine

section
open Sys2Proof Sys2Proof.Machine

/-- Settles O55: each command keeps the laws by composition of `Keeps`, and a millisecond lets every queue
time grow older together. -/
theorem slotsKept : Obligations.SlotsKept := by
  intro s t f r h
  rcases step_cases h with rfl | ⟨u, n, p, rfl⟩ | ⟨p, k⟩
  · exact idle_laws f r
  · obtain ⟨h1, h2, h3⟩ := powerOn_roster u n
    exact ⟨powerOn_form u n, ⟨h1, h2, h3⟩, fun _ => ⟨(powerOn_queue u n).order, rfl⟩⟩
  · obtain ⟨ft, rt, qt⟩ := k.laws f ⟨r.unloaded, r.disabled, r.follows⟩
    exact ⟨ft, rt, fun q => qt ⟨q.order, q.head⟩⟩

/-- Settles O57, as O55. -/
theorem graceKept : Obligations.GraceKept := by
  intro s t g h
  rcases step_cases h with rfl | ⟨u, n, p, rfl⟩ | ⟨p, k⟩
  · intro z
    rw [idle_leak_zones]
    exact g z
  · exact powerOn_grace u n
  · exact k.grace g

/-- Settles O3: POWER_ON by its own answer, every other command by `Keeps`. -/
theorem commandsAnswerAndTakeNoTime : Obligations.CommandsAnswerAndTakeNoTime := by
  intro c s
  by_cases hc : c = .powerOn
  · subst hc
    exact ⟨_, exec_powerOn s, rfl, .inl rfl⟩
  · obtain ⟨t, ht, k⟩ := exec_keeps c s hc
    exact ⟨t, ht, k.pending, .inr k.now⟩

/-- Settles O59: reset is a power-on of a store never written. -/
theorem resetMeetsLaws : Obligations.ResetMeetsLaws := by
  have bank : ∀ i : Fin 6, State.reset.rack.faults.banks[i] = emptyBank :=
    fun i => Vector.getElem_replicate ..
  refine ⟨powerOn_form _ _, powerOn_roster _ _, powerOn_queue _ _,
    ⟨Nat.zero_le _, Nat.zero_le _, Nat.zero_le _⟩, List.nodup_nil, ⟨rfl, fun t ht => by cases ht⟩,
    powerOn_grace _ _, ⟨fun i => by rw [bank]; exact Nat.zero_le _, ?_⟩,
    fun n => congrArg SlotRec.state (powerOn_slot blankStore 0 n),
    fun i => congrArg PsuRec.state (Vector.getElem_replicate ..),
    fun j => congrArg BuRec.state (Vector.getElem_replicate ..), rfl, rfl, rfl⟩
  refine (Bool.eq_false_iff.mpr fun h => ?_).symm
  obtain ⟨i, hi⟩ := (vector_any_iff _ _).mp h
  rw [bank] at hi
  cases hi

end
end

