-- ==== Sys2Proof/Proofs/Time.lean ====
section
/-! PROOF. Timestamps and the part with no command waiting: what a pin reads and leaves (O14), what a
millisecond does, and which events are due (O2). -/

namespace Sys2Proof.Machine

/-- The time from a timestamp to the present, through the wrap of the counter (R17). -/
theorem elapsed_eq (now t : Time) : elapsed now t = (now - t).toNat := rfl

/-! ### Pinned timestamps (R18) -/

theorem change_get {α : Type} {k : Nat} (v : Vector α k) (i j : Fin k) (f : α → α) :
    (change v i f)[j] = if i = j then f v[j] else v[j] := by
  unfold change
  rw [put_get]
  split
  · rename_i h; subst h; rfl
  · rfl

/-- A change of one entry, read through a figure that it leaves. -/
theorem change_figure {α β : Type} {k : Nat} (v : Vector α k) (i j : Fin k) (f : α → α) (g : α → β)
    (h : i = j → g (f v[j]) = g v[j]) : g (change v i f)[j] = g v[j] := by
  rw [change_get]
  split
  · rename_i k; exact h k
  · rfl

theorem change_self {α : Type} {k : Nat} (v : Vector α k) (i : Fin k) (f : α → α) :
    (change v i f)[i] = f v[i] := put_self ..

/-- The target of a pin reads its timestamp replaced. -/
theorem repin_pinned (s : State) (f : Time → Time) (p : PinTarget) :
    (s.repin f p).pinned p = (s.pinned p).map f := by
  cases p with
  | offSince n => exact congrArg (fun x : SlotRec => some x.offSince) (change_self ..)
  | grantTime n => exact congrArg SlotRec.grantTime (change_self ..)
  | queueTime n => exact congrArg SlotRec.queueTime (change_self ..)
  | psuReport i => exact congrArg (fun x : PsuRec => some x.lastReport) (change_self ..)
  | buReport j => exact congrArg (fun b : BuRec => some b.lastReport) (change_self ..)
  | alarmTime z => exact congrArg Zone.alarmTime (change_self ..)
  | history i =>
    show ((s.rack.queue.history.modify i.val _)[i.val]?).map HistEntry.time = _
    show _ = ((s.rack.queue.history[i.val]?).map HistEntry.time).map f
    rw [List.getElem?_modify]
    simp only [if_true, Option.map_eq_map, Option.map_map]
    rfl
  | headSince =>
    show (s.rack.queue.head.map _).map QueueHead.since = (s.rack.queue.head.map QueueHead.since).map f
    rw [Option.map_map, Option.map_map]
    rfl

/-- A pin of one timestamp leaves every other. -/
theorem repin_other (s : State) (f : Time → Time) (p q : PinTarget) (h : q ≠ p) :
    (s.repin f p).pinned q = s.pinned q := by
  have other : ∀ {α : Type} {k : Nat} {c : Fin k → PinTarget} {i j : Fin k} {x y : α},
      c j ≠ c i → i = j → x = y := fun hc hij => absurd (congrArg _ hij.symm) hc
  cases p with
  | offSince n =>
    cases q with
    | offSince m => exact change_figure _ n m _ (fun x : SlotRec => some x.offSince) (other h)
    | grantTime m => exact change_figure _ n m _ SlotRec.grantTime fun _ => rfl
    | queueTime m => exact change_figure _ n m _ SlotRec.queueTime fun _ => rfl
    | _ => rfl
  | grantTime n =>
    cases q with
    | offSince m => exact change_figure _ n m _ (fun x : SlotRec => some x.offSince) fun _ => rfl
    | grantTime m => exact change_figure _ n m _ SlotRec.grantTime (other h)
    | queueTime m => exact change_figure _ n m _ SlotRec.queueTime fun _ => rfl
    | _ => rfl
  | queueTime n =>
    cases q with
    | offSince m => exact change_figure _ n m _ (fun x : SlotRec => some x.offSince) fun _ => rfl
    | grantTime m => exact change_figure _ n m _ SlotRec.grantTime fun _ => rfl
    | queueTime m => exact change_figure _ n m _ SlotRec.queueTime (other h)
    | _ => rfl
  | psuReport i =>
    cases q with
    | psuReport k => exact change_figure _ i k _ (fun x : PsuRec => some x.lastReport) (other h)
    | _ => rfl
  | buReport j =>
    cases q with
    | buReport k => exact change_figure _ j k _ (fun b : BuRec => some b.lastReport) (other h)
    | _ => rfl
  | alarmTime z =>
    cases q with
    | alarmTime k => exact change_figure _ z k _ Zone.alarmTime (other h)
    | _ => rfl
  | history i =>
    cases q with
    | history k =>
      show ((s.rack.queue.history.modify i.val _)[k.val]?).map HistEntry.time = _
      have hk : ¬ i.val = k.val := fun e => h (congrArg _ (Fin.ext e.symm))
      rw [List.getElem?_modify]
      simp only [hk, if_false, Option.map_eq_map, Option.map_id']
      rfl
    | _ => rfl
  | headSince =>
    cases q with
    | headSince => exact absurd rfl h
    | _ => rfl

/-- A timestamp that has reached 2^30 ms is brought back to that age (R18). -/
theorem elapsed_pin {now t : Time} (h : 2 ^ 30 ≤ elapsed now t) :
    elapsed now (pin now t) = 2 ^ 30 := by
  unfold pin
  rw [if_pos (show Config.pinAge ≤ _ from h)]
  unfold elapsed Config.pinAge
  bv_omega

theorem pin_young {now t : Time} (h : elapsed now t < 2 ^ 30) : pin now t = t :=
  if_neg (not_le.mpr h)

/-! ### A millisecond (R17, R64, R148) -/

theorem mem_dueIf {c i : Instr} {p : Bool} : c ∈ dueIf p i ↔ c = i ∧ p = true := by
  unfold dueIf
  cases p <;> simp

theorem flatMap_dueIf {α : Type} (xs : List α) (p : α → Bool) (i : α → Instr) :
    (xs.flatMap fun x => dueIf (p x) (i x)) = (xs.filter p).map i := by
  induction xs with
  | nil => rfl
  | cons x xs ih =>
    rw [List.flatMap_cons, ih, List.filter_cons]
    cases p x <;> rfl

/-- What counts a due count down (R148). -/
theorem counts_iff (b : BuRec) (c : Bool) :
    b.counts c = true ↔ c = true ∧ b.present = true ∧ b.phase = .none ∧ 0 < b.due := by
  unfold BuRec.counts
  simp [and_assoc]

theorem tick_of_not_counts {b : BuRec} {c : Bool} (h : b.counts c = false) : b.tick c = b := by
  unfold BuRec.tick
  rw [h]
  rfl

theorem tick_within {b : BuRec} {c : Bool} (h : b.counts c = true) (k : b.dueMs < 999) :
    b.tick c = { b with dueMs := b.dueMs + 1 } := by
  unfold BuRec.tick
  rw [if_pos h, if_pos (by omega)]

theorem tick_over {b : BuRec} {c : Bool} (h : b.counts c = true) (k : 999 ≤ b.dueMs) :
    b.tick c = { b with due := b.due - 1, dueMs := 0 } := by
  unfold BuRec.tick
  rw [if_pos h, if_neg (by omega)]

theorem tick_bu (s : State) (j : Fin 12) : s.tick.rack.bu[j] = (s.rack.bu[j]).tick s.cfg.locked :=
  Vector.getElem_map ..

/-- A due count falls to 0 where the ms ends its last second (R149). -/
theorem fallsDue_iff (s : State) (j : Fin 12) :
    s.fallsDue j = decide ((s.rack.bu[j]).due = 1 ∧ (s.tick.rack.bu[j]).due = 0) := by
  rw [tick_bu]
  unfold State.fallsDue
  generalize s.rack.bu[j] = b
  cases hc : b.counts s.cfg.locked with
  | false =>
    rw [tick_of_not_counts hc]
    symm
    simp only [Bool.false_and, decide_eq_false_iff_not]
    omega
  | true =>
    have hpos : 0 < b.due := ((counts_iff _ _).mp hc).2.2.2
    rcases Nat.lt_or_ge b.dueMs 999 with k | k
    · rw [tick_within hc k, Bool.true_and, Bool.eq_iff_iff, beq_iff_eq, decide_eq_true_iff]
      dsimp only
      omega
    · rw [tick_over hc k, Bool.true_and, Bool.eq_iff_iff, beq_iff_eq, decide_eq_true_iff]
      dsimp only
      omega

theorem tick_pending (s : State) : s.tick.pending =
    ((List.finRange 12).filter fun j =>
      (s.rack.bu[j]).due = 1 ∧ (s.tick.rack.bu[j]).due = 0).map Instr.checkDue := by
  show ((List.finRange 12).flatMap fun j => dueIf (s.fallsDue j) (.checkDue j)) = _
  rw [flatMap_dueIf]
  congr 1
  exact List.filter_congr fun j _ => fallsDue_iff s j

theorem inputs_tick_due {x : Inputs} {now : Time} (h : 10 ≤ (now - x.sampled).toNat) :
    (x.tick now).sampled = now ∧ ∀ n : Fin 48,
      (x.tick now).good[n] = min 2 (x.good[n] + 1) ∧
      (x.tick now).parked[n] = min 2 (x.parked[n] + 1) := by
  unfold Inputs.tick
  rw [if_pos (show Config.slotSamplePeriod ≤ elapsed now x.sampled from h)]
  exact ⟨rfl, fun n => ⟨Vector.getElem_map .., Vector.getElem_map ..⟩⟩

theorem inputs_tick_not {x : Inputs} {now : Time} (h : (now - x.sampled).toNat < 10) :
    x.tick now = x := if_neg (not_le.mpr h)

theorem idle_due {s : State} (h : s.dueEvents ≠ []) : s.idle = { s with pending := s.dueEvents } := by
  unfold State.idle
  rw [if_neg (by simpa using h)]

theorem idle_waits {s : State} (h : s.dueEvents = []) (k : s.awaits = true) : s.idle = s := by
  unfold State.idle
  rw [if_pos (by simp [h]), if_pos k]

theorem idle_tick {s : State} (h : s.dueEvents = []) (k : s.awaits = false) : s.idle = s.tick := by
  unfold State.idle
  rw [if_pos (by simp [h]), if_neg (by simp [k])]

theorem adoptionDue_iff (s : State) : s.adoptionDue = true ↔
    s.boot.adopting = true ∧ (s.now - s.boot.restartAt).toNat = 10 := by
  simp [State.adoptionDue, elapsed_eq, -BitVec.toNat_sub, Config.slotSamplePeriod]

theorem sampleDue_iff (s : State) : s.sampleDue = true ↔ s.leak.nextSample = some s.now := by
  simp [State.sampleDue]

/-! ### Events due -/

theorem reached_iff (now : Time) (d : Option Deadline) :
    reached now d = true ↔ ∃ x, d = some x ∧ x.len ≤ (now - x.set).toNat := by
  cases d with
  | none => simp [reached]
  | some d => exact decide_eq_true_iff.trans (by simp only [Option.some.injEq, exists_eq_left']; rfl)

theorem mem_requestDue (s : State) (c : Instr) : c ∈ s.requestDue ↔
    ∃ f : LinkFrame, s.link.rx.head? = some f ∧ s.link.holder = none ∧ s.store.saving = false ∧
      c = requestOf f := by
  unfold State.requestDue State.executes
  cases hr : s.link.rx with
  | nil => simp
  | cons f fs =>
    simp only [List.head?_cons, Option.some.injEq, exists_eq_left', mem_dueIf, Bool.and_eq_true,
      Bool.not_eq_true', Option.isNone_iff_eq_none, beq_self_eq_true, true_and]
    exact and_rotate

theorem windowDue_iff (s : State) : s.windowDue = true ↔
    ∃ x, s.rack.bus.inFlight = some x ∧ 5 ≤ (s.now - x.began).toNat := by
  unfold State.windowDue
  cases s.rack.bus.inFlight with
  | none => simp
  | some t => exact decide_eq_true_iff.trans (by simp only [Option.some.injEq, exists_eq_left']; rfl)

theorem cycleDue_iff (e : Env) (r : Rack) : cycleDue e r = true ↔ r.bus.cycle = none ∧
    (∀ t, r.bus.lastBegan = some t → 100 ≤ (e.now - t).toNat) ∧
    (∀ t, r.bus.abandoned = some t → 5 ≤ (e.now - t).toNat) := by
  unfold cycleDue
  rw [Bool.and_eq_true, Bool.and_eq_true, and_assoc, Option.isNone_iff_eq_none]
  refine and_congr_right fun _ => and_congr ?_ ?_
  · cases r.bus.lastBegan with
    | none => simp
    | some t => exact decide_eq_true_iff.trans (by simp only [Option.some.injEq, forall_eq']; rfl)
  · cases r.bus.abandoned with
    | none => simp
    | some t => exact decide_eq_true_iff.trans (by simp only [Option.some.injEq, forall_eq']; rfl)

theorem mem_slotDue (s : State) (n : Fin 48) (c : Instr) : c ∈ s.slotDue n ↔
    (c = .goodDeadline n ∧ (s.rack.slots[n]).state = .starting ∧
      ∃ d, (s.rack.slots[n]).goodDeadline = some d ∧ d.len ≤ (s.now - d.set).toNat) ∨
    (c = .drainDeadline n ∧ (s.rack.slots[n]).state = .draining ∧
      ∃ d, (s.rack.slots[n]).drain = some d ∧ d.deadline.len ≤ (s.now - d.deadline.set).toNat) := by
  unfold State.slotDue
  generalize s.rack.slots[n] = x
  simp only [List.mem_append, mem_dueIf, Bool.and_eq_true, beq_iff_eq, reached_iff,
    Option.map_eq_some_iff]
  constructor
  · rintro (⟨hc, hs, hd⟩ | ⟨hc, hs, _, ⟨d, hd, rfl⟩, hr⟩)
    · exact .inl ⟨hc, hs, hd⟩
    · exact .inr ⟨hc, hs, d, hd, hr⟩
  · rintro (⟨hc, hs, hd⟩ | ⟨hc, hs, d, hd, hr⟩)
    · exact .inl ⟨hc, hs, hd⟩
    · exact .inr ⟨hc, hs, _, ⟨d, hd, rfl⟩, hr⟩

theorem stallDue_iff (e : Env) (r : Rack) : stallDue e r = true ↔
    ∃ h, r.queue.head = some h ∧ h.stallSent = false ∧
      1000 * e.param 4 ≤ (e.now - h.since).toNat := by
  unfold stallDue
  cases r.queue.head with
  | none => simp
  | some h =>
    simp only [Option.some.injEq, exists_eq_left', Bool.and_eq_true, Bool.not_eq_true']
    exact and_congr_right fun _ => decide_eq_true_iff

theorem mem_periodDue (s : State) (c : Instr) : c ∈ s.periodDue ↔
    ∃ f, s.rack.rech.frame = some f ∧ 1000 * f.period ≤ (s.now - f.start).toNat ∧
      (c = .controlPeriod ∧ f.period < 16 ∨ c = .frameBoundary ∧ f.period = 16) := by
  unfold State.periodDue
  cases s.rack.rech.frame with
  | none => simp
  | some f =>
    have hov : periodOver s.now f = true ↔ 1000 * f.period ≤ (s.now - f.start).toNat := by
      exact decide_eq_true_iff
    simp only [Option.some.injEq, exists_eq_left']
    rw [← hov]
    cases periodOver s.now f
    · simp
    · simp only [if_true, List.mem_append, mem_dueIf, beq_iff_eq, decide_eq_true_iff, true_and]
      rfl

theorem sampleOver_iff (s : State) (j : Fin 12) : s.sampleOver j = true ↔
    (s.rack.bu[j]).phase = .samplePending ∧
      ∃ d, (s.rack.bu[j]).sampleDeadline = some d ∧ d.len ≤ (s.now - d.set).toNat := by
  unfold State.sampleOver
  rw [Bool.and_eq_true, beq_iff_eq, reached_iff]

theorem graceOver_iff (s : State) (z : Fin 8) : s.graceOver z = true ↔
    (s.leak.zones[z]).state = .alarm ∧ s.boot.adopting = false ∧
      ∃ d, (s.leak.zones[z]).grace = some d ∧ d.len ≤ (s.now - d.set).toNat := by
  unfold State.graceOver
  rw [Bool.and_eq_true, Bool.and_eq_true, beq_iff_eq, reached_iff, Bool.not_eq_true']
  exact ⟨fun ⟨⟨a, b⟩, c⟩ => ⟨a, c, b⟩, fun ⟨a, c, b⟩ => ⟨⟨a, b⟩, c⟩⟩

theorem outgrown_iff (s : State) (p : PinTarget) : s.outgrown p = true ↔
    ∃ t, s.pinned p = some t ∧ 2 ^ 30 < (s.now - t).toNat := by
  unfold State.outgrown
  cases s.pinned p with
  | none => simp
  | some t => exact decide_eq_true_iff.trans (by simp only [Option.some.injEq, exists_eq_left']; rfl)

theorem mem_pinTargets (p : PinTarget) : p ∈ pinTargets := by
  cases p <;> simp [pinTargets]

/-- What a ms without an event leaves (R17, R64, R148). -/
theorem step_tick {s : State} (hp : s.pending = []) (hd : s.dueEvents = []) (hw : s.awaits = false) :
    step s = .next s.tick := by
  rw [step_nil hp, idle_tick hd hw]

theorem tick_now (s : State) : s.tick.now = s.now + 1 := rfl

theorem awaits_eq (s : State) : s.awaits = (s.adoptionDue || s.sampleDue) := rfl

theorem awaits_of_adoption {s : State} (ha : s.boot.adopting = true)
    (ht : (s.now - s.boot.restartAt).toNat = 10) : s.awaits = true := by
  rw [awaits_eq, (adoptionDue_iff s).mpr ⟨ha, ht⟩, Bool.true_or]

theorem awaits_of_sample {s : State} (h : s.leak.nextSample = some s.now) : s.awaits = true := by
  rw [awaits_eq, (sampleDue_iff s).mpr h, Bool.or_true]

theorem not_awaits {s : State} (ha : s.boot.adopting = false ∨ (s.now - s.boot.restartAt).toNat ≠ 10)
    (hs : s.leak.nextSample ≠ some s.now) : s.awaits = false := by
  rw [awaits_eq, Bool.or_eq_false_iff]
  refine ⟨Bool.eq_false_iff.mpr fun h => ?_, Bool.eq_false_iff.mpr fun h => ?_⟩
  · obtain ⟨h₁, h₂⟩ := (adoptionDue_iff s).mp h
    exact ha.elim (fun k => by rw [h₁] at k; cases k) (absurd h₂)
  · exact hs ((sampleDue_iff s).mp h)

end Sys2Proof.Machine

section
open Sys2Proof Sys2Proof.Machine

/-- Settles O14: the pin of a timestamp is a function of that timestamp and the time alone. -/
theorem timestampPinned : Obligations.TimestampPinned :=
  ⟨fun _ _ => ⟨elapsed_pin, pin_young⟩, fun p _ =>
    ⟨_, rfl, rfl, repin_pinned .., fun q h => repin_other _ _ p q h⟩⟩

/-- Settles O2: an empty queue takes the due events in, or waits, or a millisecond passes. -/
theorem idleStep : Obligations.IdleStep := by
  refine ⟨fun s hp => ⟨fun hd => ?_, fun hd ha ht => ?_, fun hd hs => ?_, fun hd ha hs => ?_⟩,
    fun s c => ?_⟩
  · rw [step_nil hp, idle_due hd]
  · rw [step_nil hp, idle_waits hd (awaits_of_adoption ha ht)]
  · rw [step_nil hp, idle_waits hd (awaits_of_sample hs)]
  · refine ⟨s.tick, step_tick hp hd (not_awaits ha hs), rfl, fun h => ?_, tick_pending s,
      fun j => ?_, inputs_tick_due, inputs_tick_not, rfl⟩
    · rw [tick_now, h]; rfl
    · rw [tick_bu]
      refine ⟨fun h => tick_of_not_counts ?_, fun h => tick_within ?_, fun h => tick_over ?_⟩
      · exact Bool.eq_false_iff.mpr fun k => h ((counts_iff _ _).mp k)
      · exact (counts_iff _ _).mpr h
      · exact (counts_iff _ _).mpr h
  · unfold State.dueEvents
    simp only [List.mem_append, List.mem_flatMap, List.mem_finRange, true_and, or_assoc, mem_dueIf,
      mem_requestDue, windowDue_iff, cycleDue_iff, Bool.and_eq_true, mem_slotDue, reached_iff,
      stallDue_iff, beq_iff_eq, mem_periodDue, sampleOver_iff, graceOver_iff, outgrown_iff,
      mem_pinTargets, exists_or,
      exists_and_left]
    rfl

end
end

