-- ==== Sys2Proof/Proofs/HandingOn.lean ====
section
/-! PROOF. What the blocks of a pass leave: the PSU records, the records of unpowered slots, and, short of
a move of the grid, the Controller's fields. What every command ends with (O4). -/

namespace Sys2Proof.Machine

/-- What the blocks of a pass leave of the rack and may do to a slot: an unpowered slot is left, and a
powered one goes to SHED at most (R58, R111, R114). `still` says that no move of the grid is among them;
then the Controller keeps all but the count of powered slots. -/
structure HandsOn (still : Prop) (a b : Rack) : Prop where
  psu : b.psu = a.psu
  rest : ∀ n : Fin 48, (a.slots[n]).state.powered = false → b.slots[n] = a.slots[n]
  shed : ∀ n : Fin 48, (a.slots[n]).state.powered = true →
    (b.slots[n]).state.powered = true ∨ (b.slots[n]).state = .shed
  grid : still → b.grid = { a.grid with powered := b.grid.powered }

variable {still : Prop} {a b c r : Rack}

theorem HandsOn.of_eq (hp : b.psu = a.psu) (hs : b.slots = a.slots) (hg : still → b.grid = a.grid) :
    HandsOn still a b :=
  ⟨hp, fun _ _ => by rw [hs], fun _ h => .inl (by rw [hs]; exact h), fun h => by rw [hg h]⟩

theorem HandsOn.refl (r : Rack) : HandsOn still r r := .of_eq rfl rfl fun _ => rfl

theorem HandsOn.trans (h : HandsOn still a b) (k : HandsOn still b c) : HandsOn still a c where
  psu := k.psu.trans h.psu
  rest n hn := by
    have hb := h.rest n hn
    rw [k.rest n (by rw [hb]; exact hn), hb]
  shed n hn := by
    rcases h.shed n hn with hb | hb
    · exact k.shed n hb
    · exact .inr (by rw [k.rest n (by rw [hb]; rfl), hb])
  grid w := by rw [k.grid w, h.grid w]

theorem HandsOn.ite {p : Prop} [Decidable p] (h : HandsOn still a b) (k : HandsOn still a c) :
    HandsOn still a (if p then b else c) := by
  split <;> assumption

/-- A change of what is only handed on, or of a block that `HandsOn` does not speak of. -/
theorem HandsOn.after (k : HandsOn still b c) (hp : b.psu = a.psu) (hs : b.slots = a.slots)
    (hg : b.grid = a.grid) : HandsOn still a c :=
  (HandsOn.of_eq hp hs fun _ => hg).trans k

theorem HandsOn.done (h : HandsOn still a b) (hp : c.psu = b.psu) (hs : c.slots = b.slots)
    (hg : c.grid = b.grid) : HandsOn still a c :=
  h.trans (.of_eq hp hs fun _ => hg)

theorem forEach_handsOn {α : Type} {f : α → Rack → Rack} (h : ∀ x r, HandsOn still r (f x r)) :
    ∀ (xs : List α) (r : Rack), HandsOn still r (forEach f xs r)
  | [], r => .refl r
  | x :: xs, r => (h x r).trans (forEach_handsOn h xs (f x r))

/-! ### A change of a slot's record -/

theorem followHead_psu (e : Env) (r : Rack) : (followHead e r).psu = r.psu := by
  unfold followHead; split <;> split <;> rfl

theorem followHead_grid (e : Env) (r : Rack) : (followHead e r).grid = r.grid := by
  unfold followHead; split <;> split <;> rfl

theorem followQueue_psu (e : Env) (n : Fin 48) (old new : SlotState) (r : Rack) :
    (followQueue e n old new r).psu = r.psu := by
  unfold followQueue
  split
  · exact followHead_psu ..
  · split
    · exact followHead_psu ..
    · rfl

theorem followQueue_grid (e : Env) (n : Fin 48) (old new : SlotState) (r : Rack) :
    (followQueue e n old new r).grid = r.grid := by
  unfold followQueue
  split
  · exact followHead_grid ..
  · split
    · exact followHead_grid ..
    · rfl

@[simp] theorem changeRecord_psu (e : Env) (n : Fin 48) (x : SlotRec) (r : Rack) :
    (changeRecord e n x r).psu = r.psu := (followQueue_psu ..).trans rfl

theorem changeRecord_grid (e : Env) (n : Fin 48) (x : SlotRec) (r : Rack) :
    (changeRecord e n x r).grid = { r.grid with
      powered := movePowered r.grid.powered (r.slots[n]).state x.state } :=
  (followQueue_grid ..).trans rfl

theorem changeRecord_other (e : Env) (n m : Fin 48) (x : SlotRec) (r : Rack) (h : n ≠ m) :
    (changeRecord e n x r).slots[m] = r.slots[m] := by
  have hs := changeRecord_slots e n x r
  exact (congrArg (fun v : Vector SlotRec 48 => v[m]) hs).trans (put_other _ _ _ _ h)

/-- A powered slot that stays powered or is SHED. -/
theorem changeRecord_handsOn (e : Env) (n : Fin 48) (x : SlotRec) (r : Rack)
    (h : (r.slots[n]).state.powered = true) (k : x.state.powered = true ∨ x.state = .shed) :
    HandsOn still r (changeRecord e n x r) where
  psu := changeRecord_psu ..
  rest m hm := changeRecord_other _ _ _ _ _ (by rintro rfl; rw [h] at hm; cases hm)
  shed m hm := by
    by_cases hmn : n = m
    · subst hmn; rw [changeRecord_self]; exact k
    · rw [changeRecord_other _ _ _ _ _ hmn]; exact .inl hm
  grid _ := by rw [changeRecord_grid]

theorem enter_handsOn (e : Env) (n : Fin 48) (st : SlotState) (c : Cause) (r : Rack)
    (h : (r.slots[n]).state.powered = true) (k : st.powered = true ∨ st = .shed) :
    HandsOn still r (enter e n st c r) := changeRecord_handsOn e n _ r h k

/-! ### The Sequencer's drains -/

theorem raise_handsOn (e : Env) (c : NotifClass) (k n v : Nat) (r : Rack) :
    HandsOn still r (raise e c k n v r) := .of_eq rfl rfl fun _ => rfl

theorem offer_handsOn (e : Env) (p : Pos) (c : ShelfCmd) (r : Rack) :
    HandsOn still r (offer e p c r) := .of_eq rfl rfl fun _ => rfl

theorem logFault_handsOn (e : Env) (f : FaultKind) (n : Nat) (r : Rack) :
    HandsOn still r (logFault e f n r) :=
  .of_eq (logFault_psu ..) (logFault_slots ..) fun _ => logFault_grid ..

/-- The end of a drain to SHED (R72). -/
theorem endDrain_handsOn (e : Env) (n : Fin 48) (c : Cause) (r : Rack)
    (h : ∀ d, (r.slots[n]).drain = some d → d.target = .shed) :
    HandsOn still r (endDrain e n c r) := by
  unfold endDrain
  split
  · rename_i d hs hd
    exact changeRecord_handsOn _ _ _ _ (by rw [hs]; rfl) (.inr (by rw [h d hd]; rfl))
  · exact .refl r

theorem beginDrain_handsOn (e : Env) (n : Fin 48) (q : DrainRequest) (r : Rack) (hq : q.target = .shed)
    (h : (r.slots[n]).state = .on) : HandsOn still r (beginDrain e id n q r) := by
  unfold beginDrain
  dsimp only [id]
  have drains (x : SlotRec) (hx : x.state = .draining) (hd : ∀ d, x.drain = some d → d.target = .shed)
      (c : Cause) : HandsOn still r (endDrain e n c (changeRecord e n x r)) :=
    (changeRecord_handsOn e n x r (by rw [h]; rfl) (.inl (by rw [hx]; rfl))).trans
      (endDrain_handsOn _ _ _ _ (by rw [changeRecord_self]; exact hd))
  have target : ∀ d, some (⟨q.target, ⟨e.now, drainLength e n q⟩⟩ : Drain) = some d → d.target = .shed :=
    fun d hd => by cases hd; exact hq
  exact .ite (drains _ rfl target _)
    (.ite (drains _ rfl target _) (changeRecord_handsOn _ _ _ _ (by rw [h]; rfl) (.inl rfl)))

theorem holdDrain_slots (e : Env) (n : Fin 48) (d : Drain) (r : Rack) :
    (holdDrain e n d r).slots = change r.slots n fun x => { x with drain := some d } := by
  simp only [holdDrain, raise_slots]

theorem holdDrain_psu (e : Env) (n : Fin 48) (d : Drain) (r : Rack) :
    (holdDrain e n d r).psu = r.psu := by simp only [holdDrain, raise_psu]

theorem holdDrain_grid (e : Env) (n : Fin 48) (d : Drain) (r : Rack) :
    (holdDrain e n d r).grid = r.grid := by simp only [holdDrain, raise_grid]

theorem holdDrain_handsOn (e : Env) (n : Fin 48) (d : Drain) (r : Rack)
    (h : (r.slots[n]).state = .draining) : HandsOn still r (holdDrain e n d r) where
  psu := holdDrain_psu ..
  rest m hm := by
    rw [holdDrain_slots, change_get, if_neg]
    rintro rfl
    rw [h] at hm
    cases hm
  shed m hm := .inl (by
    rw [holdDrain_slots, change_figure r.slots n m _ (fun x : SlotRec => x.state) fun _ => rfl]
    exact hm)
  grid _ := by rw [holdDrain_grid]

/-- A drain to SHED, for a block's own request (R58, R111, R114). -/
theorem drain_handsOn (e : Env) (q : DrainRequest) (n : Fin 48) (r : Rack) (hq : q.target = .shed) :
    HandsOn still r (drain e q n r) := by
  unfold drain drainWith
  split
  · rename_i h; exact beginDrain_handsOn e n _ r hq h
  · rename_i h; exact enter_handsOn e n _ _ r (by rw [h]; rfl) (.inr (by rw [hq]; rfl))
  · rename_i h
    unfold amendDrain
    split
    · exact .ite (.refl r) (holdDrain_handsOn _ _ _ _ h)
    · exact .refl r
  · cases hq
  · cases hq
  · exact .refl r

theorem drainAll_handsOn (e : Env) (q : DrainRequest) (pick : Fin 48 → SlotRec → Bool) (r : Rack)
    (hq : q.target = .shed) : HandsOn still r (drainAll e q pick r) :=
  forEach_handsOn (fun n r => .ite (drain_handsOn e q n r hq) (.refl r)) _ r

/-! ### The Account and the Allocator -/

theorem KeepsAccount.handsOn (h : KeepsAccount a b) : HandsOn still a b := by
  obtain ⟨hp, _, hs, _, hg, _⟩ := h
  exact .of_eq hp hs fun _ => hg

theorem shedSelection_handsOn (e : Env) (r : Rack) : HandsOn still r (shedSelection e r) := by
  unfold shedSelection
  dsimp only
  have h : HandsOn still r (forEach (drain e .shed) (selected e r) r) :=
    forEach_handsOn (fun n r => drain_handsOn e .shed n r rfl) _ r
  refine .ite (h.done rfl rfl rfl) ?_
  refine HandsOn.trans ?_ (raise_handsOn ..)
  exact h.done rfl rfl rfl

theorem enterShortfall_handsOn (e : Env) (r : Rack) : HandsOn still r (enterShortfall e r) := by
  unfold enterShortfall
  dsimp only
  refine HandsOn.trans ?_ (shedSelection_handsOn ..)
  refine HandsOn.trans ?_ (raise_handsOn ..)
  refine HandsOn.trans ?_ (poolUpdate_keepsAccount ..).handsOn
  exact (logFault_handsOn ..).after rfl rfl rfl

theorem evaluateShortfall_handsOn (e : Env) (r : Rack) : HandsOn still r (evaluateShortfall e r) := by
  unfold evaluateShortfall followDeficit
  exact .ite (.ite (.ite (shedSelection_handsOn ..) (.of_eq rfl rfl fun _ => rfl))
    (.of_eq rfl rfl fun _ => rfl)) (.ite (enterShortfall_handsOn ..) (.refl r))

theorem followRc_handsOn (r : Rack) : HandsOn still r (followRc r) := (followRc_keepsAccount r).handsOn

theorem beginRecharge_handsOn (e : Env) (r : Rack) : HandsOn still r (beginRecharge e r) :=
  ((startFrame_keepsAccount ..).handsOn).after rfl rfl rfl

theorem reportRc_handsOn (rc : Nat) (r : Rack) : HandsOn still r (reportRc rc r) :=
  .ite (.refl r) (.of_eq rfl rfl fun _ => rfl)

theorem stopRecharge_handsOn (e : Env) (r : Rack) : HandsOn still r (stopRecharge e r) := by
  unfold stopRecharge
  dsimp only
  refine HandsOn.trans ?_ (reportRc_handsOn ..)
  refine HandsOn.trans ?_ (forEach_handsOn (fun _ r => .ite (offer_handsOn ..) (.refl r)) ..)
  exact .of_eq rfl rfl fun _ => rfl

/-! ### The Check Scheduler -/

theorem memberLeave_handsOn (e : Env) (j : Fin 12) (r : Rack) :
    HandsOn still r (memberLeave e j r) := by
  unfold memberLeave
  split
  · exact (followRc_handsOn _).after rfl rfl rfl
  · exact .refl r

theorem evaluateFigures_handsOn (e : Env) (r : Rack) : HandsOn still r (evaluateFigures e r) :=
  .of_eq rfl rfl fun _ => rfl

theorem postpone_handsOn (e : Env) (j : Fin 12) (reason : Nat) (r : Rack) :
    HandsOn still r (postpone e j reason r) := by
  unfold postpone
  dsimp only
  refine .ite ?_ (.of_eq rfl rfl fun _ => rfl)
  refine HandsOn.trans ?_ (evaluateFigures_handsOn ..)
  refine HandsOn.trans ?_ (logFault_handsOn ..)
  exact .of_eq rfl rfl fun _ => rfl

theorem notTaken_handsOn (e : Env) (j : Fin 12) (r : Rack) : HandsOn still r (notTaken e j r) :=
  (postpone_handsOn ..).after rfl rfl rfl

theorem abortActive_handsOn (e : Env) (r : Rack) : HandsOn still r (abortActive e r) := by
  unfold abortActive
  split
  · exact .of_eq rfl rfl fun _ => rfl
  · exact .refl r

theorem startCheck_handsOn (e : Env) (j : Fin 12) (r : Rack) : HandsOn still r (startCheck e j r) := by
  unfold startCheck
  dsimp only
  have left : HandsOn still r (memberLeave e j (setPhase j .requested none r)) :=
    (memberLeave_handsOn ..).after rfl rfl rfl
  have asked : HandsOn still r (raise e .battery 3 j.val (newCheck e j).depth
      (offer e (.bu j) (.startCheck (newCheck e j).depth (newCheck e j).power)
        { memberLeave e j (setPhase j .requested none r) with
          active := some (newCheck e j), todo.grid := true })) := left.done rfl rfl rfl
  exact .ite asked (asked.trans (notTaken_handsOn ..))

theorem evaluateChecks_handsOn (e : Env) (pick : Fin 12 → Bool) (r : Rack) :
    HandsOn still r (evaluateChecks e pick r) := by
  unfold evaluateChecks evaluateCheck
  exact forEach_handsOn (fun j r => .ite (.ite (.ite (startCheck_handsOn ..) (postpone_handsOn ..))
    (.refl r)) (.refl r)) _ r

/-! ### The Controller -/

theorem moveGrid_handsOn (e : Env) (g : Grid) (level : Nat) (r : Rack) :
    HandsOn False r (moveGrid e g level r) := .of_eq rfl rfl False.elim

theorem offerIsolate_handsOn (e : Env) (j : Fin 12) (r : Rack) :
    HandsOn still r (offerIsolate e j r) := by
  unfold offerIsolate
  exact .of_eq (offer_psu ..) (offer_slots ..) fun _ => offer_grid ..

theorem offerRestore_handsOn (e : Env) (j : Fin 12) (r : Rack) :
    HandsOn still r (offerRestore e j r) := by
  unfold offerRestore
  exact .of_eq (offer_psu ..) (offer_slots ..) fun _ => offer_grid ..

theorem enterDark_handsOn (e : Env) (r : Rack) : HandsOn False r (enterDark e r) :=
  (moveGrid_handsOn ..).trans
    (forEach_handsOn (fun _ r => .ite (offerIsolate_handsOn ..) (.refl r)) _ _)

theorem enterDrain_handsOn (e : Env) (r : Rack) : HandsOn False r (enterDrain e r) := by
  unfold enterDrain
  dsimp only
  have h : HandsOn False r _ := ((moveGrid_handsOn e { r.grid with state := .drain, drainFlag := true }
    r.grid.level r).trans (logFault_handsOn e .drainStarted r.hold.usableCount _)).trans
      (drainAll_handsOn e .rackDrain (fun _ x => x.state.powered) _ rfl)
  exact .ite (h.trans (enterDark_handsOn ..)) h

theorem actOnHold_handsOn (e : Env) (r : Rack) : HandsOn False r (actOnHold e r) := by
  unfold actOnHold
  split
  · dsimp only
    have h : HandsOn False r (raiseLevel e (energyShort e r)) := by
      unfold energyShort raiseLevel
      have short : HandsOn False r _ := HandsOn.ite (p := r.hold.t3 < e.target ∧ ¬ r.hold.shortLogged)
        ((logFault_handsOn (still := False) e .energyShort r.hold.usableCount
          { r with hold.shortLogged := true }).after rfl rfl rfl) (.refl r)
      exact short.trans (.ite (.of_eq rfl rfl False.elim) (.refl _))
    exact .ite (h.trans (enterDrain_handsOn ..)) (h.trans (drainAll_handsOn _ _ _ _ rfl))
  · exact .refl r

theorem evaluateHold_handsOn (e : Env) (r : Rack) : HandsOn False r (evaluateHold e r) :=
  ((evaluateFigures_handsOn ..).trans (actOnHold_handsOn ..)).after rfl rfl rfl

theorem beginEvent_handsOn (e : Env) (r : Rack) : HandsOn False r (beginEvent e r) := by
  unfold beginEvent
  dsimp only
  refine HandsOn.trans ?_ (evaluateHold_handsOn ..)
  refine HandsOn.trans ?_ (abortActive_handsOn ..)
  refine HandsOn.trans ?_ (stopRecharge_handsOn ..)
  refine HandsOn.trans ?_ (evaluateShortfall_handsOn ..)
  exact (moveGrid_handsOn ..).after rfl rfl rfl

theorem enterQualify_handsOn (e : Env) (r : Rack) : HandsOn False r (enterQualify e r) :=
  (moveGrid_handsOn ..).trans
    (forEach_handsOn (fun _ r => .ite (offerRestore_handsOn ..) (.refl r)) _ _)

theorem bounce_handsOn (e : Env) (r : Rack) : HandsOn False r (bounce e r) :=
  (moveGrid_handsOn ..).trans (evaluateHold_handsOn ..)

theorem evaluateGrid_handsOn (e : Env) (r : Rack) : HandsOn False r (evaluateGrid e r) := by
  unfold evaluateGrid
  split
  · exact .ite (beginEvent_handsOn ..) (.refl r)
  · exact .ite (enterQualify_handsOn ..) (.refl r)
  · exact .ite (.ite (bounce_handsOn ..) (beginEvent_handsOn ..)) (.refl r)
  · exact .ite (enterQualify_handsOn ..) (.refl r)
  · exact .refl r
  · exact .refl r

theorem leaveStartup_handsOn (e : Env) (r : Rack) : HandsOn False r (leaveStartup e r) := by
  unfold leaveStartup
  exact .ite (.ite (beginEvent_handsOn ..) (enterQualify_handsOn ..)) (.refl r)

/-! ### A pass -/

/-- The turn of the grid in a pass. -/
def gridTurn (e : Env) (r : Rack) : Rack :=
  if r.todo.grid then evaluateGrid e { r with todo.grid := false } else r

/-- The turn of an entry to DARK. -/
def darkTurn (e : Env) (r : Rack) : Rack := if darkDue r then enterDark e r else r

/-- The turn of the Account. -/
def accountTurn (e : Env) (r : Rack) : Rack :=
  if r.todo.account then evaluateShortfall e { r with todo.account := false } else r

/-- The turn of the Allocator. -/
def poolTurn (e : Env) (r : Rack) : Rack :=
  if r.todo.pool then poolUpdate e { r with todo.pool := false } else r

/-- The turn of the Hold-Up Calculator. -/
def holdTurn (e : Env) (r : Rack) : Rack := if r.todo.hold then evaluateHold e r else r

/-- The turn of the BUs newly due. -/
def checksTurn (e : Env) (r : Rack) : Rack :=
  if r.todo.checks.isEmpty then r
  else evaluateChecks e (fun j => r.todo.checks.contains j) { r with todo.checks := [] }

/-- A pass is its blocks' turns, one after another. -/
theorem passBlocks_eq (e : Env) (r : Rack) : passBlocks e r =
    checksTurn e (holdTurn e (poolTurn e (accountTurn e (darkTurn e (gridTurn e r))))) := rfl

theorem passBlocks_handsOn (e : Env) (r : Rack) : HandsOn False r (passBlocks e r) := by
  have grid (r : Rack) : HandsOn False r (gridTurn e r) :=
    .ite (.after (evaluateGrid_handsOn ..) rfl rfl rfl) (.refl r)
  have dark (r : Rack) : HandsOn False r (darkTurn e r) := .ite (enterDark_handsOn ..) (.refl r)
  have account (r : Rack) : HandsOn False r (accountTurn e r) :=
    .ite (.after (evaluateShortfall_handsOn ..) rfl rfl rfl) (.refl r)
  have pool (r : Rack) : HandsOn False r (poolTurn e r) :=
    .ite (.after (poolUpdate_keepsAccount ..).handsOn rfl rfl rfl) (.refl r)
  have hold (r : Rack) : HandsOn False r (holdTurn e r) := .ite (evaluateHold_handsOn ..) (.refl r)
  have checks (r : Rack) : HandsOn False r (checksTurn e r) :=
    .ite (.refl r) (.after (evaluateChecks_handsOn ..) rfl rfl rfl)
  rw [passBlocks_eq]
  exact (grid r).trans ((dark _).trans ((account _).trans ((pool _).trans
    ((hold _).trans (checks _)))))

theorem handOnFor_handsOn (e : Env) : ∀ (k : Nat) (r : Rack), HandsOn False r (handOnFor e k r)
  | 0, r => .refl r
  | k + 1, r => .ite (.refl r) ((passBlocks_handsOn e r).trans (handOnFor_handsOn e k _))

theorem handOn_handsOn (e : Env) (r : Rack) : HandsOn False r (handOn e r) :=
  handOnFor_handsOn e _ r

/-! ### The PSU records at the end of a command -/

@[simp] theorem passBlocks_psu (e : Env) (r : Rack) : (passBlocks e r).psu = r.psu :=
  (passBlocks_handsOn e r).psu

@[simp] theorem evaluateHead_psu (e : Env) (r : Rack) : (evaluateHead e r).psu = r.psu := by
  unfold evaluateHead
  split
  · rfl
  · dsimp only
    split
    · exact changeRecord_psu ..
    · rfl

@[simp] theorem pass_psu (e : Env) (r : Rack) : (pass e r).psu = r.psu := by
  unfold pass
  dsimp only
  split
  · rw [evaluateHead_psu, passBlocks_psu]
  · exact passBlocks_psu e r

@[simp] theorem settle_psu (e : Env) (k : Nat) (r : Rack) : (settle e k r).psu = r.psu := by
  induction k generalizing r with
  | zero => rfl
  | succ k ih =>
    unfold settle
    split
    · rfl
    · rw [ih, pass_psu]

theorem forEach_psu {α : Type} {f : α → Rack → Rack} (h : ∀ x r, (f x r).psu = r.psu) :
    ∀ (xs : List α) (r : Rack), (forEach f xs r).psu = r.psu
  | [], _ => rfl
  | x :: xs, r => (forEach_psu h xs (f x r)).trans (h x r)

@[simp] theorem restore_psu (e : Env) (r : Rack) : (restore e r).psu = r.psu := by
  refine forEach_psu (fun n r => ?_) _ r
  split
  · exact changeRecord_psu ..
  · rfl

@[simp] theorem evaluateShortfall_psu (e : Env) (r : Rack) : (evaluateShortfall e r).psu = r.psu :=
  (evaluateShortfall_handsOn (still := False) e r).psu

@[simp] theorem capacityRestored_psu (e : Env) (r : Rack) : (capacityRestored e r).psu = r.psu := by
  unfold capacityRestored
  dsimp only
  split
  · rw [restore_psu, raise_psu]
  · rw [raise_psu]

@[simp] theorem holdFigure_psu (x : Account) (r : Rack) : (holdFigure x r).psu = r.psu := by
  unfold holdFigure; split <;> rfl

@[simp] theorem computeAccount_psu (e : Env) (r : Rack) : (computeAccount e r).psu = r.psu := by
  unfold computeAccount
  dsimp only
  split
  · rw [apply_ite Rack.psu, capacityRestored_psu, ite_self, evaluateShortfall_psu, apply_ite Rack.psu,
      raise_psu, ite_self, holdFigure_psu]
  · rfl

@[simp] theorem takeUp_psu (e : Env) (r : Rack) : (takeUp e r).psu = r.psu := by
  unfold takeUp
  split
  · rfl
  · rw [computeAccount_psu]

@[simp] theorem takeSums_psu (r : Rack) : (takeSums r).psu = r.psu := by
  unfold takeSums; split <;> rfl

@[simp] theorem endCycle_psu (e : Env) (r : Rack) : (endCycle e r).psu = r.psu := by
  unfold endCycle
  dsimp only
  rw [(leaveStartup_handsOn ..).psu, takeUp_psu, takeSums_psu]

@[simp] theorem followCycle_psu (e : Env) (r : Rack) : (followCycle e r).psu = r.psu := by
  unfold followCycle
  split
  · rw [settle_psu, endCycle_psu]
  · rfl

/-- No command's end changes a PSU record. -/
@[simp] theorem finishRack_psu (e : Env) (r : Rack) : (finishRack e r).psu = r.psu := by
  unfold finishRack
  rw [arbitrate_psu, followCycle_psu, settle_psu]

/-! ### What every command ends with -/

theorem conclude_rack (s : State) : s.conclude.rack =
    { finishRack s.env s.rack with
      todo := { (finishRack s.env s.rack).todo with battery := false } } := by
  unfold State.conclude
  rw [transmit_rack]
  rfl

theorem conclude_store (s : State) : s.conclude.store =
    (if (finishRack s.env s.rack).todo.battery then s.store.trigger else s.store).nextWrite s.cfg
      (finishRack s.env s.rack).bu := by
  unfold State.conclude
  rw [transmit_store]
  rfl

theorem conclude_psu (s : State) : s.conclude.rack.psu = s.rack.psu := by
  rw [conclude_rack, finishRack_psu]

/-- The transmit line is all that the end of a command changes of the Rack Link Port (R191). -/
theorem transmit_link (s : State) : s.transmit.link = { s.link with line := s.transmit.link.line } := by
  unfold State.transmit
  split
  · split
    · rfl
    · split <;> rfl
  · rfl
  · rfl

theorem conclude_link (s : State) : s.conclude.link = { s.link with line := s.conclude.link.line } := by
  unfold State.conclude
  rw [transmit_link, followStore_link, onRack_link]

/-- Beginning a write leaves the four images (R20, R21). -/
theorem nextWrite_images (t : Store) (c : WorkCfg) (bu : Vector BuRec 12) :
    (t.nextWrite c bu).configFirst = t.configFirst ∧ (t.nextWrite c bu).configSecond = t.configSecond ∧
    (t.nextWrite c bu).batteryFirst = t.batteryFirst ∧
    (t.nextWrite c bu).batterySecond = t.batterySecond := by
  unfold Store.nextWrite
  split
  · exact ⟨rfl, rfl, rfl, rfl⟩
  · split
    · exact ⟨rfl, rfl, rfl, rfl⟩
    · split <;> exact ⟨rfl, rfl, rfl, rfl⟩

theorem conclude_images (s : State) :
    s.conclude.store.configFirst = s.store.configFirst ∧
    s.conclude.store.configSecond = s.store.configSecond ∧
    s.conclude.store.batteryFirst = s.store.batteryFirst ∧
    s.conclude.store.batterySecond = s.store.batterySecond := by
  rw [conclude_store]
  split
  · exact nextWrite_images s.store.trigger _ _
  · exact nextWrite_images s.store _ _

theorem darkDue_iff (r : Rack) : darkDue r = true ↔ r.grid.state = .drain ∧ r.grid.powered = 0 := by
  unfold darkDue
  rw [Bool.and_eq_true, beq_iff_eq, beq_iff_eq]

theorem settled_iff (r : Rack) : settled r = true ↔ r.todo.grid = false ∧ r.todo.account = false ∧
    r.todo.pool = false ∧ r.todo.hold = false ∧ r.todo.head = false ∧ r.todo.checks = [] ∧
    ¬(r.grid.state = .drain ∧ r.grid.powered = 0) := by
  unfold settled
  simp only [Bool.and_eq_true, Bool.not_eq_true', List.isEmpty_iff, and_assoc, ← darkDue_iff,
    Bool.not_eq_true]

theorem settle_settled {e : Env} {k : Nat} {r : Rack} (h : settled r = true) : settle e k r = r := by
  cases k with
  | zero => rfl
  | succ k => exact if_pos h

theorem settle_pass {e : Env} {k : Nat} {r : Rack} (h : settled r = false) :
    settle e (k + 1) r = settle e k (pass e r) := if_neg (by rw [h]; exact Bool.false_ne_true)

/-- A pass judges the head where nothing else is left to hand on, and ends with its blocks' turns
otherwise (R101). -/
theorem pass_judges {e : Env} {r : Rack} (h : (passBlocks e r).todo.head = true)
    (k : settled { passBlocks e r with todo.head := false } = true) :
    pass e r = evaluateHead e { passBlocks e r with todo.head := false } :=
  if_pos (by rw [h, k]; rfl)

theorem pass_blocks {e : Env} {r : Rack} (h : (passBlocks e r).todo.head = false ∨
    settled { passBlocks e r with todo.head := false } = false) : pass e r = passBlocks e r := by
  refine if_neg ?_
  rcases h with h | h
  · rw [h, Bool.false_and]; exact Bool.false_ne_true
  · rw [h, Bool.and_false]; exact Bool.false_ne_true

/-- The turn of an entry to DARK, by the fields it looks at. -/
theorem darkTurn_eq (e : Env) (r : Rack) : darkTurn e r =
    if r.grid.state = .drain ∧ r.grid.powered = 0 then enterDark e r else r :=
  if_congr (darkDue_iff r) rfl rfl

theorem checksTurn_eq (e : Env) (r : Rack) : checksTurn e r =
    if r.todo.checks = [] then r
    else evaluateChecks e (fun j => decide (j ∈ r.todo.checks))
      { r with todo := { r.todo with checks := [] } } := by
  unfold checksTurn
  rw [if_congr List.isEmpty_iff rfl rfl]
  simp only [List.contains_eq_mem]

end Sys2Proof.Machine

section
open Sys2Proof Sys2Proof.Machine

/-- Settles O4: the end of a command by its parts, and what each part leaves. -/
theorem endOfCommandFrame : Obligations.EndOfCommandFrame := by
  refine ⟨fun s => ⟨⟨conclude_rack s, conclude_store s⟩, conclude_pending s, conclude_now s,
    conclude_boot s, conclude_cfg s, conclude_marks s, conclude_leak s, conclude_inputs s,
    conclude_free s, conclude_psu s, ?_⟩, fun e r => ⟨settled_iff r, fun k => ⟨settle_settled, settle_pass⟩⟩,
    fun e r => ?_⟩
  · obtain ⟨h₁, h₂, h₃, h₄⟩ := conclude_images s
    exact ⟨h₁, h₂, h₃, h₄, conclude_link s⟩
  · have blocks := passBlocks_eq e r
    rw [checksTurn_eq, darkTurn_eq] at blocks
    have judges := pass_judges (e := e) (r := r)
    have only := pass_blocks (e := e) (r := r)
    rw [blocks] at judges only
    exact ⟨judges, only⟩

end
end

