-- ==== Sys2Proof/Proofs/SlotLists.lean ====
section
/-! PROOF. Slot lists, counted index by index (O27), and the requests for the whole rack (O29). -/

namespace Sys2Proof.Machine

/-! ### Slot lists (R80) -/

/-- How many indices a tally holds. -/
def Tally.counted (t : Tally) : Nat := t.accepted + t.unchanged + t.refused.length

theorem Tally.counted_add (t : Tally) (b : Byte) (x : SlotResult) :
    (t.add b x).counted = t.counted + 1 := by
  cases x with
  | accepted => simp only [Tally.counted, Tally.add]; omega
  | unchanged => simp only [Tally.counted, Tally.add]; omega
  | refused why => simp only [Tally.counted, Tally.add, List.length_append, List.length_singleton]; omega

theorem Tally.mem_refused_add {t : Tally} {b : Byte} {x : SlotResult} {y : Byte × Byte}
    (h : y ∈ (t.add b x).refused) : y ∈ t.refused ∨ y.1 = b := by
  cases x with
  | accepted => exact .inl h
  | unchanged => exact .inl h
  | refused why =>
    rcases List.mem_append.mp h with h | h
    · exact .inl h
    · exact .inr (by rw [List.mem_singleton.mp h])

theorem Tally.accepted_add_le (t : Tally) (b : Byte) (x : SlotResult) :
    t.accepted ≤ (t.add b x).accepted := by
  cases x with
  | accepted => exact Nat.le_succ _
  | unchanged => exact Nat.le_refl _
  | refused why => exact Nat.le_refl _

namespace SlotRule

variable (f : SlotRule) (e : Env)

theorem run_append (bs cs : List Byte) (t : Tally) (r : Rack) :
    f.run e (bs ++ cs) t r = f.run e cs (f.run e bs t r).1 (f.run e bs t r).2 := by
  induction bs generalizing t r with
  | nil => rfl
  | cons b bs ih => exact ih _ _

theorem run_counted (bs : List Byte) (t : Tally) (r : Rack) :
    (f.run e bs t r).1.counted = t.counted + bs.length := by
  induction bs generalizing t r with
  | nil => rfl
  | cons b bs ih =>
    rw [run, ih, Tally.counted_add, List.length_cons]
    omega

theorem mem_run_refused (bs : List Byte) (t : Tally) (r : Rack) :
    ∀ y ∈ (f.run e bs t r).1.refused, y ∈ t.refused ∨ y.1 ∈ bs := by
  induction bs generalizing t r with
  | nil => exact fun _ => .inl
  | cons b bs ih =>
    intro y hy
    rcases ih _ _ y hy with h | h
    · exact (Tally.mem_refused_add h).imp_right (fun (hb : y.1 = b) => by rw [hb]; exact List.mem_cons_self)
    · exact .inr (List.mem_cons_of_mem _ h)

theorem accepted_le_run (bs : List Byte) (t : Tally) (r : Rack) :
    t.accepted ≤ (f.run e bs t r).1.accepted := by
  induction bs generalizing t r with
  | nil => exact Nat.le_refl _
  | cons b bs ih => exact (Tally.accepted_add_le t b _).trans (ih _ _)

/-- An index that is not accepted has no effect (R80). -/
theorem handle_eq {b : Byte} {r : Rack} (h : f.judge e r b ≠ .accepted) : f.handle e b r = r := if_neg h

/-- A list none of whose indices is accepted has no effect (R80). -/
theorem run_rack (bs : List Byte) (t : Tally) (r : Rack)
    (h : (f.run e bs t r).1.accepted = t.accepted) : (f.run e bs t r).2 = r := by
  induction bs generalizing t r with
  | nil => rfl
  | cons b bs ih =>
    rw [run] at h ⊢
    have hle := accepted_le_run f e bs (t.add b (f.judge e r b)) (f.handle e b r)
    cases hj : f.judge e r b with
    | accepted =>
      rw [hj] at h hle
      exact absurd h (Nat.ne_of_gt hle)
    | unchanged =>
      have hr : f.handle e b r = r := handle_eq f e (by rw [hj]; exact SlotResult.noConfusion)
      rw [hj, hr] at h
      rw [hr]
      exact ih _ _ h
    | refused why =>
      have hr : f.handle e b r = r := handle_eq f e (by rw [hj]; exact SlotResult.noConfusion)
      rw [hj, hr] at h
      rw [hr]
      exact ih _ _ h

/-- No part commissioned: every index is refused (R4). -/
theorem run_uncommissioned (h : e.commissioned = false) (bs : List Byte) (t : Tally) (r : Rack) :
    f.run e bs t r =
      ({ t with refused := t.refused ++ bs.map fun b => (b, codeRefusedState) }, r) := by
  induction bs generalizing t with
  | nil => simp [run]
  | cons b bs ih =>
    have hj : f.judge e r b = .refused codeRefusedState := if_pos (by rw [h]; rfl)
    rw [run, handle_eq f e (by rw [hj]; exact SlotResult.noConfusion), hj, ih]
    simp [Tally.add]

end SlotRule

/-- Nothing owed, nothing handed on. -/
theorem handOn_settled {e : Env} {r : Rack} (h : blocksSettled r = true) : handOn e r = r := if_pos h

/-! ### The whole rack (R88, R90) -/

theorem exec_rackStart (tag : Byte) (p : List Byte) (s : State) :
    exec (.rackStart tag p) s = execRackStart tag p s := by rfl

theorem exec_rackStop (tag : Byte) (p : List Byte) (s : State) :
    exec (.rackStop tag p) s = execRackStop tag p s := by rfl

/-- What RACK_START's checks let through (R88, R190). -/
theorem execRackStart_ready {s : State} {tag : Byte} (h : Ready s 0x14 tag []) (hh : s.held = false) :
    execRackStart tag [] s =
      .next (let x := checked (!s.cfg.locked) codeRefusedState rackStartBody s.take
        (x.1.reply 0x14 tag x.2).conclude) := by
  unfold execRackStart
  rw [State.serve_ready h, noPayload_nil, show s.take.held = false from hh, checked_false]
  rfl

/-- What RACK_STOP's checks let through (R90, R190). -/
theorem execRackStop_ready {s : State} {tag : Byte} (h : Ready s 0x15 tag []) :
    execRackStop tag [] s =
      .next (let x := checked (!s.cfg.locked) codeRefusedState rackStopBody s.take
        (x.1.reply 0x15 tag x.2).conclude) := by
  unfold execRackStop
  rw [State.serve_ready h, noPayload_nil]

/-- How RACK_STOP counts a slot (R90). -/
theorem StopCounts.add_eq (t : StopCounts) (st : SlotState) : t.add st = match st with
    | .queued => { t with dequeued := t.dequeued + 1 }
    | .starting => { t with cut := t.cut + 1 }
    | .on => { t with drained := t.drained + 1 }
    | .shed => { t with unshed := t.unshed + 1 }
    | _ => t := by
  cases st <;> rfl

theorem rackStopSlot_off {e : Env} {n : Fin 48} {r : Rack}
    (h : (r.slots[n]).state ∈ [SlotState.queued, .shed]) :
    rackStopSlot e n r = enter e n .off .offRequest r := by
  simp only [List.mem_cons, List.not_mem_nil, or_false] at h
  rcases h with h | h <;> simp only [rackStopSlot, h]

theorem rackStopSlot_drains {e : Env} {n : Fin 48} {r : Rack}
    (h : (r.slots[n]).state ∈ [SlotState.starting, .on]) :
    rackStopSlot e n r = drainInTurn e .off n r := by
  simp only [List.mem_cons, List.not_mem_nil, or_false] at h
  rcases h with h | h <;> simp only [rackStopSlot, h]

theorem rackStopSlot_leaves {e : Env} {n : Fin 48} {r : Rack}
    (h : (r.slots[n]).state ∈ [SlotState.disabled, .off, .draining, .isolated, .faulted]) :
    rackStopSlot e n r = r := by
  simp only [List.mem_cons, List.not_mem_nil, or_false] at h
  rcases h with h | h | h | h | h <;> simp only [rackStopSlot, h]

end Sys2Proof.Machine

section
open Sys2Proof Sys2Proof.Machine

/-- Settles O27: every index of a list counts once, in order, and what a change hands on keeps to SHED. -/
theorem slotListsCount : Obligations.SlotListsCount := by
  refine ⟨fun f e bs cs t r => ⟨f.run_counted e bs t r, f.run_append e bs cs t r,
    f.mem_run_refused e bs t r, f.run_rack e bs t r, fun h => ?_⟩,
    fun e r => ⟨handOn_settled, fun n =>
      ⟨(handOn_handsOn e r).rest n, (handOn_handsOn e r).shed n⟩⟩⟩
  rw [f.run_uncommissioned e h]
  exact ⟨rfl, rfl⟩

/-- Settles O29: the checks of both requests, their effects and RACK_STOP slot by slot. -/
theorem rackStartAndStop : Obligations.RackStartAndStop := by
  intro s tag
  refine ⟨fun hr hh hl => ?_, fun hr hh hl => ?_, fun hr hl => ?_, fun hr hl => ?_,
    fun e n ns t r => ⟨rfl, ?_⟩, fun e n r =>
      ⟨rackStopSlot_off, rackStopSlot_drains, rackStopSlot_leaves⟩⟩
  · rw [exec_rackStart, execRackStart_ready hr hh, hl]; rfl
  · rw [exec_rackStart, execRackStart_ready hr hh, hl]; rfl
  · rw [exec_rackStop, execRackStop_ready hr, hl]; rfl
  · rw [exec_rackStop, execRackStop_ready hr, hl]; rfl
  · exact congrArg (fun c => rackStop e ns c (handOn e (rackStopSlot e n r))) (StopCounts.add_eq t _)

end
end

