-- ==== Sys2Proof/Proofs/DeadlineEvents.lean ====
section
/-! PROOF. The deadlines of the slots, the Start Queue and the grid (O31). -/

namespace Sys2Proof.Machine

/-! ### The events -/

theorem exec_goodDeadline {s : State} {n : Fin 48} (hs : (s.rack.slots[n]).state = .starting)
    (hd : reached s.now (s.rack.slots[n]).goodDeadline = true) :
    exec (.goodDeadline n) s = .next (s.onRack fun e r => failStart e n r).conclude :=
  if_pos ⟨hs, hd⟩

theorem exec_drainDeadline {s : State} {n : Fin 48} (hs : (s.rack.slots[n]).state = .draining)
    (hd : reached s.now ((s.rack.slots[n]).drain.map Drain.deadline) = true) :
    exec (.drainDeadline n) s = .next (s.onRack fun e r => endDrain e n .drainDeadline r).conclude :=
  if_pos ⟨hs, hd⟩

theorem exec_gateTimer {s : State} (h : reached s.now s.rack.queue.timer = true) :
    exec .gateTimer s = .next { s with rack.queue.timer := none, rack.todo.head := true }.conclude :=
  if_pos h

theorem exec_startStalled {s : State} (h : stallDue s.env s.rack = true) :
    exec .startStalled s = .next (s.onRack stall).conclude := if_pos h

theorem exec_qualifyTimer {s : State} (hs : s.rack.grid.state = .qualify)
    (hd : reached s.now s.rack.grid.qualify = true) : exec .qualifyTimer s =
      .next ({ s with cfg := s.cfg.takeArm }.onRack fun e r => enterNormal e s.cfg.armed r).conclude :=
  if_pos ⟨hs, hd⟩

/-- A drain that ends takes the slot to its target as it stands (R72). -/
theorem endDrain_of {e : Env} {n : Fin 48} {c : Cause} {r : Rack} {d : Drain}
    (hs : (r.slots[n]).state = .draining) (hd : (r.slots[n]).drain = some d) :
    endDrain e n c r = enter e n d.target.state c r := by
  unfold endDrain
  rw [hs, hd]

theorem takeArm_eq (c : WorkCfg) : c.takeArm =
    { c with armed := false, active := if c.armed then c.staged else c.active } := by
  obtain ⟨record, locked, profiles, staged, active, armed, params, leakTable⟩ := c
  cases armed <;> rfl

/-! ### The head of the Start Queue (R101 to R104) -/

/-- The queue with the head held back by a gate (R103). -/
def holdHead (e : Env) (n : Fin 48) (g : GateView) (r : Rack) : Rack :=
  { r with
    queue.gate := g.number
    queue.detail := g.detail
    queue.timer := if gateWait (gates e r n) = 0 then none else some ⟨e.now, gateWait (gates e r n)⟩ }

/-- A failing gate is recorded, with the gate timer set afresh (R103). -/
theorem evaluateHead_fails {e : Env} {r : Rack} {h : QueueHead} {g : GateView}
    (hh : r.queue.head = some h) (hg : firstFailing (gates e r h.slot) = some g) :
    evaluateHead e r = holdHead e h.slot g r := by
  unfold evaluateHead
  rw [hh]
  dsimp only
  rw [hg]
  rfl

/-- Every gate passing grants the head (R102). -/
theorem evaluateHead_grants {e : Env} {r : Rack} {h : QueueHead} (hh : r.queue.head = some h)
    (hg : firstFailing (gates e r h.slot) = none) : evaluateHead e r = grant e h.slot r := by
  unfold evaluateHead
  rw [hh]
  dsimp only
  rw [hg]

theorem stall_eq {e : Env} {r : Rack} {h : QueueHead} (hh : r.queue.head = some h) :
    stall e r = raiseStall e h.slot (evaluateHead e r) := by
  unfold stall
  rw [hh]

theorem raiseStall_same {e : Env} {r : Rack} {h : QueueHead} (hh : r.queue.head = some h) :
    raiseStall e h.slot r = raise e .sequence 1 h.slot.val (r.queue.gate + 16 * r.queue.detail)
      { r with queue.head := some { h with stallSent := true } } := by
  unfold raiseStall
  rw [hh]
  exact if_pos rfl

theorem raiseStall_other {e : Env} {n : Fin 48} {r : Rack}
    (hh : ∀ h, r.queue.head = some h → h.slot ≠ n) : raiseStall e n r = r := by
  unfold raiseStall
  split
  · rename_i h hr; exact if_neg (hh h hr)
  · rfl

/-- START_STALLED is sent for a head that a gate holds back (R104). -/
theorem stall_fails {e : Env} {r : Rack} {h : QueueHead} {g : GateView}
    (hh : r.queue.head = some h) (hg : firstFailing (gates e r h.slot) = some g) :
    (stall e r).slots = r.slots ∧ (stall e r).queue.head = some { h with stallSent := true } ∧
    (stall e r).notif = r.notif.offer ⟨.sequence, 1, h.slot.val, e.now, g.number + 16 * g.detail⟩ := by
  have held : (holdHead e h.slot g r).queue.head = some h := hh
  rw [stall_eq hh, evaluateHead_fails hh hg, raiseStall_same held]
  exact ⟨raise_slots .., congrArg StartQueue.head (raise_queue ..), rfl⟩

/-- A first entry that is not the head's slot becomes the head, with a fresh wait, and an empty queue has
none (R86). -/
theorem followHead_moves {e : Env} {r : Rack} {h : QueueHead} (hh : r.queue.head = some h)
    (hn : h.slot ∉ r.queue.entries) :
    (followHead e r).queue.head = r.queue.entries.head?.map fun m => ⟨m, e.now, false⟩ := by
  unfold followHead
  cases hq : r.queue.entries with
  | nil =>
    rw [hh]
    rfl
  | cons m l =>
    have hm : ¬ (some h.slot == some m) = true := fun k =>
      hn (by rw [hq, Option.some.inj (eq_of_beq k)]; exact List.mem_cons_self)
    rw [hh]
    dsimp only [List.head?_cons, Option.map_some]
    rw [if_neg hm]

/-- The queue closes up behind its head (R86, R91). -/
theorem leaveQueue_head {e : Env} {r : Rack} {h : QueueHead} (hh : r.queue.head = some h) :
    (leaveQueue e h.slot r).queue.head =
      (r.queue.entries.filter (· != h.slot)).head?.map fun m => ⟨m, e.now, false⟩ := by
  refine followHead_moves (r := { r with queue.entries := r.queue.entries.filter (· != h.slot) }) hh ?_
  simp

/-- A change of record out of QUEUED takes the slot from the queue (R85, R91). -/
theorem changeRecord_leaves {e : Env} {n : Fin 48} {x : SlotRec} {r : Rack}
    (hs : (r.slots[n]).state = .queued) (hx : x.state ≠ .queued) :
    (changeRecord e n x r).queue = (leaveQueue e n (takeRecord e n x r)).queue ∧
    (changeRecord e n x r).notif =
      r.notif.offer ⟨.slot, 1, n.val, e.now, x.state.code + 16 * x.cause.code⟩ := by
  have hq : followQueue e n (r.slots[n]).state x.state (takeRecord e n x r)
      = leaveQueue e n (takeRecord e n x r) := by
    unfold followQueue
    rw [if_neg (by simpa using hx), hs]
    rfl
  unfold changeRecord
  dsimp only
  rw [hq]
  refine ⟨raise_queue .., congrArg (fun q : NotifQueue => q.offer _) (followHead_same ..).notif⟩

/-- A grant takes the head from the queue: the queue closes up behind it (R66, R86, R91, R102). -/
theorem grant_queue {e : Env} {r : Rack} {h : QueueHead} (hh : r.queue.head = some h)
    (hs : (r.slots[h.slot]).state = .queued) :
    (grant e h.slot r).queue.entries = r.queue.entries.filter (· != h.slot) ∧
    (grant e h.slot r).queue.head =
      (r.queue.entries.filter (· != h.slot)).head?.map fun m => ⟨m, e.now, false⟩ := by
  obtain ⟨hq, -⟩ := changeRecord_leaves (e := e)
    (x := (r.slots[h.slot]).grant e.now (e.profile h.slot).goodDeadline) hs (fun h => by cases h)
  exact ⟨(congrArg StartQueue.entries hq).trans (followHead_queue ..),
    (congrArg StartQueue.head hq).trans (leaveQueue_head (r := takeRecord e h.slot _ r) hh)⟩

/-- What a grant makes of the head's slot, and leaves of the others (R66, R102). -/
theorem grant_self (e : Env) (n : Fin 48) (r : Rack) : (grant e n r).slots[n] =
    (r.slots[n]).grant e.now (e.profile n).goodDeadline := changeRecord_self ..

theorem grant_other {e : Env} {n m : Fin 48} {r : Rack} (h : n ≠ m) :
    (grant e n r).slots[m] = r.slots[m] := changeRecord_other _ _ _ _ _ h

theorem grant_notif {e : Env} {n : Fin 48} {r : Rack} (hs : (r.slots[n]).state = .queued) :
    (grant e n r).notif = r.notif.offer
      ⟨.slot, 1, n.val, e.now, SlotState.starting.code + 16 * Cause.grant.code⟩ :=
  (changeRecord_leaves hs fun h => by cases h).2

/-- A head granted at the start wait limit has no START_STALLED sent for it (R104). -/
theorem stall_grants {e : Env} {r : Rack} {h : QueueHead} (hh : r.queue.head = some h)
    (hg : firstFailing (gates e r h.slot) = none) (hs : (r.slots[h.slot]).state = .queued) :
    stall e r = grant e h.slot r := by
  rw [stall_eq hh, evaluateHead_grants hh hg]
  refine raiseStall_other fun k hk => ?_
  rw [(grant_queue hh hs).2] at hk
  obtain ⟨m, hm, rfl⟩ := Option.map_eq_some_iff.mp hk
  have := List.mem_of_mem_head? hm
  simpa using (List.mem_filter.mp this).2

/-! ### The entry to NORMAL (R118) -/

/-- A restore of one slot (R89). -/
def restoreSlot (e : Env) (n : Fin 48) (r : Rack) : Rack :=
  if (r.slots[n]).state = .shed ∧ e.slotZoneOpen n then enter e n .queued .queued r else r

theorem restore_eq (e : Env) (r : Rack) : restore e r = forEach (restoreSlot e) (List.finRange 48) r :=
  rfl

theorem restoreSlot_kept {e : Env} {n m : Fin 48} {r : Rack}
    (h : (r.slots[n]).state ≠ .shed ∨ n ≠ m) : (restoreSlot e m r).slots[n] = r.slots[n] := by
  unfold restoreSlot
  split
  · rename_i k
    refine changeRecord_other _ _ _ _ _ ?_
    rintro rfl
    exact h.elim (absurd k.1) (absurd rfl)
  · rfl

theorem restoreSlot_grid (e : Env) (n : Fin 48) (r : Rack) : (restoreSlot e n r).grid =
    { r.grid with powered := (restoreSlot e n r).grid.powered } := by
  unfold restoreSlot
  split
  · exact (changeRecord_grid ..).trans (by rw [enter, changeRecord_grid])
  · rfl

/-- A restore leaves a slot that is not SHED, and queues a SHED one of an open zone (R89). -/
theorem restoreEach_kept (e : Env) {n : Fin 48} : ∀ (l : List (Fin 48)) (r : Rack),
    (r.slots[n]).state ≠ .shed → (forEach (restoreSlot e) l r).slots[n] = r.slots[n]
  | [], _, _ => rfl
  | m :: l, r, h => by
    have hm : (restoreSlot e m r).slots[n] = r.slots[n] := restoreSlot_kept (.inl h)
    exact (restoreEach_kept e l _ (by rw [hm]; exact h)).trans hm

theorem restoreEach_queues (e : Env) {n : Fin 48} (hz : e.slotZoneOpen n = true) :
    ∀ (l : List (Fin 48)) (r : Rack), (r.slots[n]).state = .shed → n ∈ l →
      ((forEach (restoreSlot e) l r).slots[n]).state = .queued
  | [], _, _, h => absurd h List.not_mem_nil
  | m :: l, r, hs, h => by
    by_cases hm : n = m
    · subst hm
      have hq : ((restoreSlot e n r).slots[n]).state = .queued := by
        rw [restoreSlot, if_pos ⟨hs, hz⟩, enter, changeRecord_self]
        rfl
      exact (congrArg SlotRec.state (restoreEach_kept e l _ (by rw [hq]; exact fun h => by cases h))).trans hq
    · have hk : (restoreSlot e m r).slots[n] = r.slots[n] := restoreSlot_kept (.inr hm)
      exact restoreEach_queues e hz l _ (by rw [hk]; exact hs)
        ((List.mem_cons.mp h).resolve_left hm)

theorem restore_queues {e : Env} {n : Fin 48} {r : Rack} (hz : e.slotZoneOpen n = true)
    (hs : (r.slots[n]).state = .shed) : ((restore e r).slots[n]).state = .queued :=
  restoreEach_queues e hz _ r hs (List.mem_finRange n)

theorem restore_grid (e : Env) (r : Rack) :
    (restore e r).grid = { r.grid with powered := (restore e r).grid.powered } := by
  rw [restore_eq]
  generalize List.finRange 48 = l
  induction l generalizing r with
  | nil => rfl
  | cons n l ih =>
    rw [forEach, ih, restoreSlot_grid]

/-- The first steps of the entry to NORMAL: the grid state, an armed commit, and the shed level
(R118, steps 1 to 3). -/
def leveled (e : Env) (armed : Bool) (r : Rack) : Rack :=
  let r := moveGrid e { r.grid with state := .normal, qualify := none } r.grid.level r
  let r := if armed then takeCommit e r else r
  { r with grid.level := 0, grid.inEvent := false }

/-- The restore of the entry to NORMAL, under auto-restore (R118, step 4). -/
def restored (e : Env) (r : Rack) : Rack := if e.autoRestore then restore e r else r

theorem enterNormal_eq (e : Env) (armed : Bool) (r : Rack) : enterNormal e armed r =
    evaluateChecks e (fun _ => true)
      (beginRecharge e (evaluateShortfall e (restored e (leveled e armed r)))) := rfl

/-- The end of the entry to NORMAL moves no grid state and no unpowered slot (R118, steps 5 to 8). -/
theorem enterNormal_handsOn (e : Env) (armed : Bool) (r : Rack) :
    HandsOn True (restored e (leveled e armed r)) (enterNormal e armed r) := by
  rw [enterNormal_eq]
  exact ((evaluateShortfall_handsOn ..).trans (beginRecharge_handsOn ..)).trans
    (evaluateChecks_handsOn ..)

theorem takeCommit_slots (e : Env) (r : Rack) : (takeCommit e r).slots = r.slots := by
  unfold takeCommit resortQueue
  rw [raise_slots]
  exact followHead_slots ..

theorem takeCommit_grid (e : Env) (r : Rack) : (takeCommit e r).grid = r.grid := by
  unfold takeCommit resortQueue
  rw [raise_grid]
  exact followHead_grid ..

theorem leveled_slots (e : Env) (armed : Bool) (r : Rack) : (leveled e armed r).slots = r.slots := by
  cases armed
  · rfl
  · exact takeCommit_slots ..

theorem leveled_grid (e : Env) (armed : Bool) (r : Rack) : (leveled e armed r).grid =
    { r.grid with state := .normal, qualify := none, level := 0, inEvent := false } := by
  cases armed
  · rfl
  · exact congrArg (fun g : Grid => { g with level := 0, inEvent := false }) (takeCommit_grid ..)

theorem restored_grid (e : Env) (r : Rack) :
    (restored e r).grid = { r.grid with powered := (restored e r).grid.powered } := by
  unfold restored
  split
  · exact restore_grid ..
  · rfl

/-- The Controller at the end of the entry to NORMAL (R118). -/
theorem enterNormal_grid (e : Env) (armed : Bool) (r : Rack) : (enterNormal e armed r).grid =
    { r.grid with
      state := .normal, qualify := none, level := 0, inEvent := false
      powered := (enterNormal e armed r).grid.powered } := by
  rw [(enterNormal_handsOn e armed r).grid trivial, restored_grid, leveled_grid]

/-- Under auto-restore every SHED slot of an open zone is queued (R118, step 4). -/
theorem enterNormal_restores {e : Env} {armed : Bool} {r : Rack} {n : Fin 48}
    (ha : e.autoRestore = true) (hs : (r.slots[n]).state = .shed) (hz : e.slotZoneOpen n = true) :
    ((enterNormal e armed r).slots[n]).state = .queued := by
  have hq : ((restored e (leveled e armed r)).slots[n]).state = .queued := by
    rw [restored, if_pos ha]
    exact restore_queues hz (by rw [leveled_slots]; exact hs)
  rw [(enterNormal_handsOn e armed r).rest n (by rw [hq]; rfl), hq]

/-- Without it every SHED slot stays as it is. -/
theorem enterNormal_stays {e : Env} {armed : Bool} {r : Rack} {n : Fin 48}
    (ha : e.autoRestore = false) (hs : (r.slots[n]).state = .shed) :
    (enterNormal e armed r).slots[n] = r.slots[n] := by
  have hk : (restored e (leveled e armed r)).slots = r.slots := by
    rw [restored, if_neg (by rw [ha]; exact Bool.false_ne_true), leveled_slots]
  rw [(enterNormal_handsOn e armed r).rest n (by rw [hk, hs]; rfl), hk]

theorem autoRestore_iff (e : Env) : e.autoRestore = true ↔ e.param 13 ≠ 0 := decide_eq_true_iff

end Sys2Proof.Machine

section
open Sys2Proof Sys2Proof.Machine

/-- Settles O31: each deadline's event, the head at the start wait limit, and the entry to NORMAL. -/
theorem deadlines : Obligations.Deadlines := by
  intro s
  refine ⟨fun n d hs hd hr => ?_, fun n d hs hd hr => ?_, fun d hd hr => ?_,
    fun h hh hsent hr => ⟨?_, fun g hg => ?_, fun hg hs => ?_⟩, fun d hs hd hr => ?_, fun e armed r => ?_⟩
  · exact exec_goodDeadline hs ((reached_iff ..).mpr ⟨d, hd, hr⟩)
  · rw [exec_drainDeadline hs ((reached_iff ..).mpr ⟨_, congrArg _ hd, hr⟩)]
    exact congrArg (fun r => Host.Outcome.next ({ s with rack := r } : State).conclude)
      (endDrain_of hs hd)
  · exact exec_gateTimer ((reached_iff ..).mpr ⟨d, hd, hr⟩)
  · exact exec_startStalled ((stallDue_iff ..).mpr ⟨h, hh, hsent, hr⟩)
  · exact stall_fails hh hg
  · obtain ⟨hentries, hhead⟩ := grant_queue (e := s.env) hh hs
    have hself := grant_self s.env h.slot s.rack
    rw [stall_grants hh hg hs, evaluateHead_grants hh hg]
    exact ⟨rfl, by rw [hself]; rfl, by rw [hself]; rfl, by rw [hself]; rfl, by rw [hself]; rfl,
      by rw [hself]; rfl, fun m hm => grant_other hm.symm, hentries, hhead, rfl, rfl, grant_notif hs⟩
  · exact ⟨_, exec_qualifyTimer hs ((reached_iff ..).mpr ⟨d, hd, hr⟩), takeArm_eq _⟩
  · have hg := enterNormal_grid e armed r
    refine ⟨congrArg Grid.state hg, congrArg Grid.level hg, congrArg Grid.inEvent hg,
      congrArg Grid.qualify hg, fun ha n hs hz => enterNormal_restores ha hs hz,
      fun ha n hs => enterNormal_stays ?_ hs, fun ha hf => ?_, ?_⟩
    · exact Bool.eq_false_iff.mpr fun k => (autoRestore_iff e).mp k ha
    · subst ha
      exact enterNormal_order e r hf
    · rw [enterNormal_eq, restored, if_congr (autoRestore_iff e) rfl rfl]
      cases armed <;> rfl

end
end

