-- ==== Sys2Proof/Proofs/PlanRequests.lean ====
section
/-! PROOF. STAGE_PLAN, COMMIT_PLAN and DISCARD_PLAN (O32). -/

namespace Sys2Proof.Machine

theorem clamp_eq {lo hi : Nat} (h : lo ≤ hi) (n : Nat) : clamp lo hi n = max lo (min hi n) := by
  unfold clamp
  split
  · omega
  · split <;> omega

/-! ### STAGE_PLAN (R12) -/

theorem putAt_val {α : Type} {k : Nat} (v : Vector α k) (i : Fin k) (x : α) :
    putAt v i.val x = put v i x := dif_pos i.isLt

theorem stageEntry_slot {x : Nat × Nat × Nat} {n : Fin 48} (h : x.1 = n.val) (c : WorkCfg) :
    stageEntry x c = { c with staged := put c.staged n ⟨max 1 (min 4 x.2.1), min 255 x.2.2⟩ } := by
  unfold stageEntry
  rw [h, putAt_val, clamp_eq (by decide), clamp_eq (by decide), Nat.zero_max]

theorem stageEntry_refused {x : Nat × Nat × Nat} (h : 48 ≤ x.1) (c : WorkCfg) : stageEntry x c = c := by
  unfold stageEntry putAt
  rw [dif_neg (by omega)]

theorem clamp_ne_iff {lo hi : Nat} (h : lo ≤ hi) (n : Nat) :
    (clamp lo hi n != n) = true ↔ n < lo ∨ hi < n := by
  rw [bne_iff_ne, clamp_eq h]
  omega

theorem entryClamped_iff (x : Nat × Nat × Nat) :
    entryClamped x = true ↔ x.1 < 48 ∧ (x.2.1 < 1 ∨ 4 < x.2.1 ∨ 255 < x.2.2) := by
  unfold entryClamped
  rw [Bool.and_eq_true, decide_eq_true_iff, Bool.or_eq_true, clamp_ne_iff (by decide),
    clamp_ne_iff (by decide), or_assoc]
  simp only [Nat.not_lt_zero, false_or]

theorem planEntries_length : ∀ (payload : List Byte), payload.length % 3 = 0 →
    3 * (planEntries payload).length = payload.length
  | [], _ => rfl
  | [_], h => absurd (show (1 : Nat) % 3 = 0 from h) (by decide)
  | [_, _], h => absurd (show (2 : Nat) % 3 = 0 from h) (by decide)
  | _ :: _ :: _ :: rest, h => by
    have hr : rest.length % 3 = 0 := by
      simp only [List.length_cons] at h
      omega
    have := planEntries_length rest hr
    simp only [planEntries, List.length_cons]
    omega

/-! One entry of a plan slot, with its rank and order bytes. -/

theorem planEntries_one (n : Fin 48) (rank order : Byte) :
    planEntries (u8 n.val ++ [rank, order]) = [(n.val, rank.toNat, order.toNat)] := by
  show [((BitVec.ofNat 8 n.val).toNat, rank.toNat, order.toNat)] = _
  rw [toNat_u8 (by omega)]

theorem entryClamped_one (n : Fin 48) (rank order : Byte) :
    entryClamped (n.val, rank.toNat, order.toNat) = true ↔ ¬(1 ≤ rank.toNat ∧ rank.toNat ≤ 4) := by
  have hn := n.isLt
  have ho := order.isLt
  rw [entryClamped_iff]
  dsimp only
  omega

theorem stageEntry_one (n : Fin 48) (rank order : Byte) (c : WorkCfg) :
    stageEntry (n.val, rank.toNat, order.toNat) c =
      { c with staged := put c.staged n ⟨max 1 (min 4 rank.toNat), order.toNat⟩ } := by
  have ho : min 255 order.toNat = order.toNat := Nat.min_eq_right (Nat.le_of_lt_succ order.isLt)
  rw [stageEntry_slot rfl]
  dsimp only
  rw [ho]

/-- A STAGE_PLAN that fits writes its entries in turn (R12). -/
theorem exec_stagePlan {s : State} {tag : Byte} {payload : List Byte} (h : Ready s 0x18 tag payload)
    (hf : planFits payload = true) : exec (.stagePlan tag payload) s =
      .next ({ s.take with
        cfg := { forEach stageEntry (planEntries payload) s.cfg with armed := false } }.reply 0x18 tag
          ((if (planEntries payload).any entryClamped = true then codeClamped else codeOk) ::
            (u32 ((planEntries payload).filter fun x : Nat × Nat × Nat => x.1 < 48).length
              ++ u8 ((planEntries payload).filter fun x : Nat × Nat × Nat => 48 ≤ x.1).length
              ++ ((planEntries payload).filter fun x : Nat × Nat × Nat => 48 ≤ x.1).flatMap
                  (fun x : Nat × Nat × Nat => u8 x.1)
              ++ flag s.cfg.armed))).conclude := by
  show Host.Outcome.next (s.serve false 0x18 tag payload (stagePlanBody payload)) = _
  rw [State.serve_ready h, stagePlanBody, if_pos hf]
  simp only [State.answer, listed, List.append_assoc]
  rfl

theorem planFits_of {payload : List Byte} (hm : payload.length % 3 = 0) (hne : payload ≠ [])
    (hl : payload.length ≤ 144) : planFits payload = true := by
  have hp : 0 < payload.length := List.length_pos_iff.mpr hne
  unfold planFits
  simp only [Bool.and_eq_true, beq_iff_eq, decide_eq_true_eq]
  omega

/-! ### COMMIT_PLAN and DISCARD_PLAN (R13, R14) -/

theorem exec_commitPlan {s : State} {tag : Byte} (h : Ready s 0x19 tag []) (hh : s.held = false) :
    exec (.commitPlan tag []) s =
      .next ((commitPlanBody s.take).1.reply 0x19 tag (commitPlanBody s.take).2).conclude := by
  show Host.Outcome.next (s.serve false 0x19 tag [] _) = _
  rw [State.serve_ready h, noPayload_nil, show s.take.held = false from hh, checked_false]

theorem exec_discardPlan {s : State} {tag : Byte} (h : Ready s 0x1A tag []) :
    exec (.discardPlan tag []) s =
      .next ((discardPlanBody s.take).1.reply 0x1A tag (discardPlanBody s.take).2).conclude := by
  show Host.Outcome.next (s.serve false 0x1A tag [] _) = _
  rw [State.serve_ready h, noPayload_nil]

theorem commitPlanBody_normal {s : State} (h : s.rack.grid.state = .normal) : commitPlanBody s =
    ({ s with cfg := s.cfg.commit }.onRack fun e r =>
      resortQueue e { r with todo.hold := true }).answer codeOk [Config.committedFlag] := if_pos h

theorem commitPlanBody_other {s : State} (h : s.rack.grid.state ≠ .normal) : commitPlanBody s =
    { s with cfg := { s.cfg with armed := true } }.answer codeOk [Config.armedFlag] := if_neg h

/-! ### The queue sorted again (R92) -/

/-- The head follows the queue's first entry: the same slot keeps its wait, and another begins one
(R86). -/
theorem followHead_head (e : Env) (r : Rack) : (followHead e r).queue.head =
    if r.queue.head.map QueueHead.slot = r.queue.entries.head? then r.queue.head
    else r.queue.entries.head?.map fun m => ⟨m, e.now, false⟩ := by
  unfold followHead
  cases r.queue.entries.head? with
  | none =>
    cases hh : r.queue.head with
    | none => exact hh
    | some h => rfl
  | some n =>
    dsimp only
    by_cases hn : r.queue.head.map QueueHead.slot = some n
    · rw [if_pos (beq_iff_eq.mpr hn), if_pos hn]
    · rw [if_neg (fun k => hn (beq_iff_eq.mp k)), if_neg hn]
      rfl

theorem followHead_frame (e : Env) (r : Rack) : followHead e r =
    { r with queue := (followHead e r).queue, todo := (followHead e r).todo } := by
  unfold followHead; split <;> split <;> rfl

end Sys2Proof.Machine

section
open Sys2Proof Sys2Proof.Machine

/-- Settles O32: the three plan requests, an entry at a time, and the queue sorted again. -/
theorem planRequests : Obligations.PlanRequests := by
  refine ⟨fun s tag => ⟨fun payload hr hm hne hl => ⟨exec_stagePlan hr (planFits_of hm hne hl),
    planEntries_length payload hm⟩, fun n rank order hr => ?_, fun hr hh hg => ?_, fun hr hh hg => ?_,
    fun hr => ?_⟩, ⟨rfl, fun _ _ _ _ => rfl⟩, fun x c => ⟨fun n hn => stageEntry_slot hn c,
    fun h => stageEntry_refused h c, entryClamped_iff x⟩, fun e r hnd => ?_⟩
  · have hcode : (if [(n.val, rank.toNat, order.toNat)].any entryClamped = true then codeClamped
        else codeOk) = if 1 ≤ rank.toNat ∧ rank.toNat ≤ 4 then codeOk else codeClamped := by
      rw [List.any_cons, List.any_nil, Bool.or_false, if_congr (entryClamped_one ..) rfl rfl, ite_not]
    rw [exec_stagePlan hr (planFits_of (by simp [u8]) (by simp) (by simp [u8])), planEntries_one, hcode, forEach, forEach, stageEntry_one]
    simp [n.isLt]
  · rw [exec_commitPlan hr hh, commitPlanBody_normal (s := s.take) hg]; rfl
  · rw [exec_commitPlan hr hh, commitPlanBody_other (s := s.take) hg]; rfl
  · rw [exec_discardPlan hr]; rfl
  · have hs : (resortQueue e r).slots = r.slots := followHead_slots ..
    have hq : (resortQueue e r).queue.entries = sortBy (queueBefore e r.slots) r.queue.entries :=
      followHead_queue ..
    have hh : (resortQueue e r).queue.head = if r.queue.head.map QueueHead.slot =
        (resortQueue e r).queue.entries.head? then r.queue.head
        else (resortQueue e r).queue.entries.head?.map fun m => ⟨m, e.now, false⟩ := by
      rw [hq]
      exact followHead_head ..
    refine ⟨hq ▸ sortBy_perm .., hs ▸ resortQueue_order e r hnd, fun h => hh.trans (if_pos h),
      fun h => hh.trans (if_neg h), ?_⟩
    unfold resortQueue
    dsimp only
    rw [followHead_frame]

end
end

