-- ==== Sys2Proof/Proofs/ProfilesAndParameters.lean ====
section
/-! PROOF. SET_PROFILE and SET_PARAM: what they take, and what a change of either hands on (O33). -/

namespace Sys2Proof.Machine

/-! ### SET_PROFILE's figures (R9, R10) -/

theorem words_u16 {n : Nat} (h : n < 65536) (rest : List Byte) :
    words (u16 n ++ rest) = n :: words rest := by
  show fromBytes (u16 n) :: words rest = _
  rw [fromBytes_u16 h]

/-- Five figures of two bytes are the profile's fields in R9's order (R10, R187). -/
theorem profileFrom_figures (a b c d f : Fin 65536) :
    profileFrom (u16 a ++ u16 b ++ u16 c ++ u16 d ++ u16 f) = ⟨a, b, c, d, f⟩ := by
  have hw : words (u16 a ++ u16 b ++ u16 c ++ u16 d ++ u16 f) = [a.val, b, c, d, f] := by
    simp only [List.append_assoc]
    rw [words_u16 a.isLt, words_u16 b.isLt, words_u16 c.isLt, words_u16 d.isLt,
      ← List.append_nil (u16 f), words_u16 f.isLt]
    rfl
  unfold profileFrom
  rw [hw]
  rfl

theorem clamped_eq (x : Profile) : x.clamped = ⟨min 12000 x.startW, min 12000 x.peakW,
    min 12000 x.nominalW, max 500 (min 10000 x.goodDeadline), min 60000 x.drainMs⟩ := by
  simp only [Profile.clamped, clamp_eq (Nat.zero_le _), clamp_eq (show 500 ≤ 10000 by decide),
    Nat.zero_max]

/-- What a SET_PROFILE of a length and a number that fit is checked for (R10). -/
theorem setProfileBody_eq (p : Fin 8) {fields : List Byte} (hf : fields.length = 10) (s : State) :
    setProfileBody (u8 p.val ++ fields) s =
      checked s.held codeHeld (checked (s.profileInUse p) codeRefusedState fun s =>
        (s.setProfile p (profileFrom fields).clamped).answer
          (if (profileFrom fields).clamped = profileFrom fields then codeOk else codeClamped)
          (profileFigures (profileFrom fields).clamped)) s := by
  have hp : (BitVec.ofNat 8 p.val).toNat = p.val := toNat_u8 (by omega)
  have hlt : (BitVec.ofNat 8 p.val).toNat < 8 := by rw [hp]; exact p.isLt
  have hpf : (⟨(BitVec.ofNat 8 p.val).toNat, hlt⟩ : Fin 8) = p := Fin.ext hp
  show (if fields.length = 10 then _ else _) = _
  rw [if_pos hf, dif_pos hlt, hpf]
  rfl

/-- A SET_PROFILE outside Safe Hold, to its last check (R10). -/
theorem exec_setProfile {s : State} {tag : Byte} {p : Fin 8} {fields : List Byte}
    (h : Ready s 0x20 tag (u8 p.val ++ fields)) (hf : fields.length = 10) (hh : s.held = false) :
    exec (.setProfile tag (u8 p.val ++ fields)) s = .next
      (let x := (profileFrom fields).clamped
       let a := checked (s.profileInUse p) codeRefusedState (fun s =>
        (s.setProfile p x).answer (if x = profileFrom fields then codeOk else codeClamped)
          (profileFigures x)) s.take
       (a.1.reply 0x20 tag a.2).conclude) := by
  show Host.Outcome.next (s.serve false 0x20 tag (u8 p.val ++ fields) _) = _
  rw [State.serve_ready h, setProfileBody_eq p hf, show s.take.held = false from hh, checked_false]
  rfl

theorem headProfile_slots (e : Env) (p : Fin 8) (r : Rack) : (headProfile e p r).slots = r.slots := by
  unfold headProfile
  split
  · split <;> rfl
  · rfl

/-- The profile of the head slot has changed (R10, R101, R141). -/
theorem headProfile_named {e : Env} {p : Fin 8} {r : Rack}
    (h : ∃ h, r.queue.head = some h ∧ (e.cfg.record.slots[h.slot]).profile = p.val) :
    headProfile e p r = { r with todo := { r.todo with head := true, pool := true } } := by
  obtain ⟨h, hh, hp⟩ := h
  unfold headProfile
  rw [hh]
  exact if_pos hp

theorem headProfile_other {e : Env} {p : Fin 8} {r : Rack}
    (h : ¬∃ h, r.queue.head = some h ∧ (e.cfg.record.slots[h.slot]).profile = p.val) :
    headProfile e p r = r := by
  unfold headProfile
  split
  · rename_i k hk; exact if_neg fun hp => h ⟨k, hk, hp⟩
  · rfl

/-- A profile in place, before its validity reaches the slots (R10). -/
def State.withProfile (s : State) (p : Fin 8) (x : Profile) : State :=
  { s with cfg := { s.cfg with profiles := put s.cfg.profiles p x } }

theorem setProfile_same {s : State} {p : Fin 8} {x : Profile}
    (h : x.valid = (s.cfg.profiles[p]).valid) : s.setProfile p x =
      (s.withProfile p x).onRack fun e r => headProfile e p r := by
  unfold State.setProfile
  dsimp only
  rw [if_pos h]
  rfl

theorem setProfile_turns {s : State} {p : Fin 8} {x : Profile}
    (h : x.valid ≠ (s.cfg.profiles[p]).valid) : s.setProfile p x =
      ((s.withProfile p x).onRack fun e r =>
        eachHandedOn e (applyValidity e p x.valid) (List.finRange 48) r).onRack
          fun e r => headProfile e p r := by
  unfold State.setProfile
  dsimp only
  rw [if_neg h]
  rfl

theorem setProfile_cfg (s : State) (p : Fin 8) (x : Profile) :
    (s.setProfile p x).cfg = { s.cfg with profiles := put s.cfg.profiles p x } := by
  by_cases h : x.valid = (s.cfg.profiles[p]).valid
  · rw [setProfile_same h]; rfl
  · rw [setProfile_turns h]; rfl

theorem profileInUse_iff (s : State) (p : Fin 8) : s.profileInUse p = true ↔
    ∃ n : Fin 48, (s.cfg.record.slots[n]).profile = p.val ∧
      (s.rack.slots[n]).state ∈ [SlotState.starting, .on, .draining] := by
  have hst (st : SlotState) : st.powered = true ↔ st ∈ [SlotState.starting, .on, .draining] := by
    cases st <;> decide
  unfold State.profileInUse State.namesProfile
  simp only [List.any_eq_true, List.mem_finRange, true_and, Bool.and_eq_true, beq_iff_eq, hst]

/-! ### A change of validity on one slot (R11) -/

theorem followsProfile_iff (e : Env) (p : Fin 8) (n : Fin 48) : followsProfile e p n = true ↔
    e.cfg.locked = true ∧ e.marks.slotOn[n] = true ∧ (e.cfg.record.slots[n]).profile = p.val := by
  unfold followsProfile
  rw [Bool.and_eq_true, Bool.and_eq_true, beq_iff_eq, and_assoc]
  rfl

theorem applyValidity_disables {e : Env} {p : Fin 8} {n : Fin 48} {r : Rack}
    (h : followsProfile e p n = true) (hs : (r.slots[n]).state ∈ [SlotState.off, .queued, .shed]) :
    applyValidity e p false n r = enter e n .disabled .configuration r := by
  simp only [List.mem_cons, List.not_mem_nil, or_false] at hs
  unfold applyValidity
  rw [if_pos h]
  rcases hs with hs | hs | hs <;> rw [hs]

theorem applyValidity_enables {e : Env} {p : Fin 8} {n : Fin 48} {r : Rack}
    (h : followsProfile e p n = true) (hs : (r.slots[n]).state = .disabled) :
    applyValidity e p true n r = enter e n .off .configuration r := by
  unfold applyValidity
  rw [if_pos h, hs]

theorem applyValidity_unnamed {e : Env} {p : Fin 8} {n : Fin 48} {r : Rack} {v : Bool}
    (h : ¬followsProfile e p n = true) : applyValidity e p v n r = r := if_neg h

theorem applyValidity_stays_false {e : Env} {p : Fin 8} {n : Fin 48} {r : Rack}
    (hs : (r.slots[n]).state ∉ [SlotState.off, .queued, .shed]) : applyValidity e p false n r = r := by
  unfold applyValidity
  split
  · split
    case h_1 h _ => exact absurd h fun h => hs (by rw [h]; decide)
    case h_2 h _ => exact absurd h fun h => hs (by rw [h]; decide)
    case h_3 h _ => exact absurd h fun h => hs (by rw [h]; decide)
    case h_4 h => cases h
    case h_5 => rfl
  · rfl

theorem applyValidity_stays_true {e : Env} {p : Fin 8} {n : Fin 48} {r : Rack}
    (hs : (r.slots[n]).state ≠ .disabled) : applyValidity e p true n r = r := by
  unfold applyValidity
  split
  · split
    case h_1 h => cases h
    case h_2 h => cases h
    case h_3 h => cases h
    case h_4 h _ => exact absurd h hs
    case h_5 => rfl
  · rfl

/-! ### SET_PARAM (R15, R16) -/

/-- What a SET_PARAM of a length and an identifier that fit is checked for (R15). -/
theorem setParamBody_eq (id : Fin 16) {value : List Byte} (hv : value.length = 4) (s : State) :
    setParamBody (u8 id.val ++ value) s =
      (let taken := clamp (paramRange id).1 (paramRange id).2 (fromBytes value)
       checked s.held codeHeld
        (checked (normalOnly id && s.rack.grid.state != .normal) codeRefusedState fun s =>
          (s.setParam id taken).answer (if taken = fromBytes value then codeOk else codeClamped)
            (sized (paramRange id).2 taken)) s) := by
  have hi : (BitVec.ofNat 8 id.val).toNat = id.val := toNat_u8 (by omega)
  have hlt : (BitVec.ofNat 8 id.val).toNat < 16 := by rw [hi]; exact id.isLt
  have hif : (⟨(BitVec.ofNat 8 id.val).toNat, hlt⟩ : Fin 16) = id := Fin.ext hi
  show (if value.length = 4 then _ else _) = _
  rw [if_pos hv, dif_pos hlt, hif]
  rfl

/-- A SET_PARAM outside Safe Hold, to its last check (R15). -/
theorem exec_setParam {s : State} {tag : Byte} {id : Fin 16} {value : List Byte}
    (h : Ready s 0x21 tag (u8 id.val ++ value)) (hv : value.length = 4) (hh : s.held = false) :
    exec (.setParam tag (u8 id.val ++ value)) s = .next
      (let taken := clamp (paramRange id).1 (paramRange id).2 (fromBytes value)
       let a := checked (normalOnly id && s.rack.grid.state != .normal) codeRefusedState (fun s =>
        (s.setParam id taken).answer (if taken = fromBytes value then codeOk else codeClamped)
          (sized (paramRange id).2 taken)) s.take
       (a.1.reply 0x21 tag a.2).conclude) := by
  show Host.Outcome.next (s.serve false 0x21 tag (u8 id.val ++ value) _) = _
  rw [State.serve_ready h, setParamBody_eq id hv, show s.take.held = false from hh, checked_false]
  rfl

theorem paramRange_le (id : Fin 16) : (paramRange id).1 ≤ (paramRange id).2 := by
  revert id; decide

theorem normalOnly_iff (id : Fin 16) : normalOnly id = true ↔ id ∈ [5, 6, 7, 11] := by
  revert id; decide

/-- A parameter in place, before what it hands on (R15). -/
def State.withParam (s : State) (id : Fin 16) (v : Nat) : State :=
  { s with cfg := { s.cfg with params := put s.cfg.params id v } }

/-- The head's wait against a start wait limit just set (R104). -/
theorem stallDue_limit (s : State) (v : Nat) : stallDue (s.withParam 4 v).env s.rack = true ↔
    ∃ h, s.rack.queue.head = some h ∧ h.stallSent = false ∧ 1000 * v ≤ (s.now - h.since).toNat := by
  have hv : (s.withParam 4 v).env.param 4 = v := put_self ..
  rw [stallDue_iff, hv]
  rfl

theorem setParam_stalls {s : State} {v : Nat} (h : stallDue (s.withParam 4 v).env s.rack = true) :
    s.setParam 4 v = { s.withParam 4 v with rack := stall (s.withParam 4 v).env s.rack } :=
  congrArg (fun r => { s.withParam 4 v with rack := r }) (if_pos h)

theorem setParam_waits {s : State} {v : Nat} (h : ¬stallDue (s.withParam 4 v).env s.rack = true) :
    s.setParam 4 v = s.withParam 4 v :=
  congrArg (fun r => { s.withParam 4 v with rack := r }) (if_neg h)

end Sys2Proof.Machine

section
open Sys2Proof Sys2Proof.Machine

/-- Settles O33: the two requests, what each change hands on, and a change of validity slot by slot. -/
theorem profileAndParameter : Obligations.ProfileAndParameter := by
  have carried (p : Fin 8) (a b c d f : List Byte) :
      u8 p.val ++ a ++ b ++ c ++ d ++ f = u8 p.val ++ (a ++ b ++ c ++ d ++ f) := by
    simp only [List.append_assoc]
  refine ⟨fun s tag hh => ⟨fun p a b c d f hr => ⟨fun hu => ?_, fun hu => ?_, setProfile_cfg s p _⟩,
    fun id v hr => ⟨fun hid hg => ?_, fun hid => ?_, rfl⟩⟩, fun x => ?_, profileInUse_iff, by decide,
    fun s p x => ⟨fun hv => ?_, fun hv => ?_, fun hv => ⟨fun hn => ?_, fun hn => ?_⟩⟩,
    fun s id v => ?_, fun e p n r => ⟨fun hn hs => ?_, fun hn hs => ?_, fun hn v => ?_,
    applyValidity_stays_false, applyValidity_stays_true⟩⟩
  · rw [carried] at hr ⊢
    rw [exec_setProfile hr rfl hh, hu]
    rfl
  · rw [carried] at hr ⊢
    rw [exec_setProfile hr rfl hh, hu, profileFrom_figures, clamped_eq]
    rfl
  · rw [exec_setParam hr rfl hh, (normalOnly_iff id).mpr hid, bne_iff_ne.mpr hg]
    rfl
  · have hok : (normalOnly id && s.rack.grid.state != .normal) = false := by
      rw [Bool.and_eq_false_iff]
      exact hid.imp (fun h => Bool.eq_false_iff.mpr fun k => h ((normalOnly_iff id).mp k))
        (fun h => by rw [h]; rfl)
    rw [exec_setParam hr rfl hh, hok, fromBytes_u32 v.isLt, clamp_eq (paramRange_le id)]
    rfl
  · rw [Profile.valid, Bool.and_eq_true, decide_eq_true_iff, decide_eq_true_iff]
  · rw [setProfile_same hv, onRack_rack]
    exact headProfile_slots ..
  · rw [setProfile_turns hv, onRack_rack]
    exact headProfile_slots ..
  · rw [setProfile_same hv]
    exact congrArg (fun r => { s.withProfile p x with rack := r })
      (headProfile_named (e := (s.withProfile p x).env) hn)
  · rw [setProfile_same hv]
    exact congrArg (fun r => { s.withProfile p x with rack := r })
      (headProfile_other (e := (s.withProfile p x).env) hn)
  · refine ⟨fun h => ?_, fun h hl => ?_, fun h hl => ?_, fun h => ?_, fun h => ?_, fun h => ?_, fun h => ?_,
      fun h => ?_⟩
    · simp only [List.mem_cons, List.not_mem_nil, or_false] at h
      rcases h with rfl | rfl | rfl | rfl | rfl <;> rfl
    · subst h
      exact setParam_stalls ((stallDue_limit ..).mpr hl)
    · subst h
      exact setParam_waits fun k => hl ((stallDue_limit ..).mp k)
    · subst h; rfl
    · rcases h with rfl | rfl <;> rfl
    · subst h; rfl
    · subst h; rfl
    · simp only [List.mem_cons, List.not_mem_nil, or_false] at h
      rcases h with rfl | rfl | rfl | rfl | rfl <;> rfl
  · exact applyValidity_disables ((followsProfile_iff ..).mpr hn) hs
  · exact applyValidity_enables ((followsProfile_iff ..).mpr hn) hs
  · exact applyValidity_unnamed fun k => hn ((followsProfile_iff ..).mp k)

end
end

