-- ==== Sys2Proof/Proofs/StoreAreas.lean ====
section
/-! PROOF. What the two areas of the store give at a load (O8), where a write goes and what it leaves
(O9), and the ends of the writes (O36). -/

namespace Sys2Proof.Machine

/-! ### What a load finds in an area (R22, R23) -/

theorem secondNewer_iff (x y : Count32) :
    secondNewer x y = true ↔ 1 ≤ (y - x).toNat ∧ (y - x).toNat ≤ 2147483647 := by
  unfold secondNewer
  rw [Bool.and_eq_true, decide_eq_true_iff, decide_eq_true_iff]
  rfl

section
variable {a b : ImageView}

theorem loadFrom_blank (ha : a.marked = false) (hb : b.marked = false) : loadFrom a b = .blank := by
  unfold loadFrom; rw [ha, hb]

theorem loadFrom_first (ha : a.marked = true) (hc : a.crcOk = true)
    (hb : b.marked = false ∨ secondNewer a.count b.count = false) :
    loadFrom a b = .image false false := by
  unfold loadFrom
  rw [ha, hc]
  cases hm : b.marked with
  | false => rfl
  | true => simp [hb.resolve_left (by rw [hm]; exact Bool.noConfusion)]

theorem loadFrom_second (hb : b.marked = true) (hc : b.crcOk = true)
    (ha : a.marked = false ∨ secondNewer a.count b.count = true) :
    loadFrom a b = .image true false := by
  unfold loadFrom
  rw [hb, hc]
  cases hm : a.marked with
  | false => rfl
  | true => simp [ha.resolve_left (by rw [hm]; exact Bool.noConfusion)]

theorem loadFrom_keepsFirst (ha : a.marked = true) (hb : b.marked = true)
    (hn : secondNewer a.count b.count = true) (hc : b.crcOk = false) (hk : a.crcOk = true) :
    loadFrom a b = .image false true := by
  unfold loadFrom; rw [ha, hb, hn, hc, hk]; rfl

theorem loadFrom_keepsSecond (ha : a.marked = true) (hb : b.marked = true)
    (hn : secondNewer a.count b.count = false) (hc : a.crcOk = false) (hk : b.crcOk = true) :
    loadFrom a b = .image true true := by
  unfold loadFrom; rw [ha, hb, hn, hc, hk]; rfl

theorem loadFrom_corrupt (hm : a.marked = true ∨ b.marked = true)
    (ha : a.marked = true → a.crcOk = false) (hb : b.marked = true → b.crcOk = false) :
    loadFrom a b = .corrupt := by
  unfold loadFrom
  cases hma : a.marked with
  | false =>
    have hmb := hm.resolve_left (by rw [hma]; exact Bool.noConfusion)
    rw [hmb, hb hmb]; rfl
  | true =>
    cases hmb : b.marked with
    | false => rw [ha hma]; rfl
    | true => rw [ha hma, hb hmb]; cases secondNewer a.count b.count <;> rfl

end

/-- The image a load takes its content from: the second or the first, or none. -/
def Loaded.source : Loaded → Option Bool
  | .image second _ => some second
  | .blank | .corrupt => none

/-- What a load takes from the source it found. -/
def Loaded.pick {α : Type} (x : Loaded) (first second none : α) : α :=
  match x.source with
  | some false => first
  | some true => second
  | .none => none

theorem valid_iff (x : ImageView) : x.valid = true ↔ x.marked = true ∧ x.crcOk = true :=
  Bool.and_eq_true_iff

theorem not_valid_iff (x : ImageView) : x.valid = false ↔ (x.marked = true → x.crcOk = false) := by
  unfold ImageView.valid
  cases x.marked <;> simp

section
variable {a b : ImageView}

/-- A load takes the first image where it is valid and the second is not, or not newer (R19). -/
theorem source_first (ha : a.valid = true)
    (hb : b.valid = true → secondNewer a.count b.count = false) :
    (loadFrom a b).source = some false := by
  obtain ⟨hm, hc⟩ := (valid_iff a).mp ha
  cases hbm : b.marked with
  | false => rw [loadFrom_first hm hc (.inl hbm)]; rfl
  | true =>
    cases hn : secondNewer a.count b.count with
    | false => rw [loadFrom_first hm hc (.inr hn)]; rfl
    | true =>
      have hbc : b.crcOk = false := Bool.eq_false_iff.mpr fun hk => by
        rw [hb ((valid_iff b).mpr ⟨hbm, hk⟩)] at hn
        cases hn
      rw [loadFrom_keepsFirst hm hbm hn hbc hc]; rfl

/-- A load takes the second image where it is valid and the first is not, or is older (R19). -/
theorem source_second (hb : b.valid = true)
    (ha : a.valid = true → secondNewer a.count b.count = true) :
    (loadFrom a b).source = some true := by
  obtain ⟨hm, hc⟩ := (valid_iff b).mp hb
  cases ham : a.marked with
  | false => rw [loadFrom_second hm hc (.inl ham)]; rfl
  | true =>
    cases hn : secondNewer a.count b.count with
    | true => rw [loadFrom_second hm hc (.inr hn)]; rfl
    | false =>
      have hac : a.crcOk = false := Bool.eq_false_iff.mpr fun hk => by
        rw [ha ((valid_iff a).mpr ⟨ham, hk⟩)] at hn
        cases hn
      rw [loadFrom_keepsSecond ham hm hn hac hc]; rfl

/-- A load takes neither image where neither is valid (R22). -/
theorem source_none (ha : a.valid = false) (hb : b.valid = false) : (loadFrom a b).source = none := by
  cases ham : a.marked with
  | true =>
    rw [loadFrom_corrupt (.inl ham) ((not_valid_iff a).mp ha) ((not_valid_iff b).mp hb)]; rfl
  | false =>
    cases hbm : b.marked with
    | true =>
      rw [loadFrom_corrupt (.inr hbm) ((not_valid_iff a).mp ha) ((not_valid_iff b).mp hb)]; rfl
    | false => rw [loadFrom_blank ham hbm]; rfl

theorem source_none_iff :
    (loadFrom a b).source = none ↔ a.valid = false ∧ b.valid = false := by
  refine ⟨fun h => ?_, fun ⟨ha, hb⟩ => source_none ha hb⟩
  have hb : b.valid = false := Bool.eq_false_iff.mpr fun hb => by
    cases hn : secondNewer a.count b.count with
    | true => rw [source_second hb fun _ => hn] at h; cases h
    | false =>
      cases ha : a.valid with
      | true => rw [source_first ha fun _ => hn] at h; cases h
      | false =>
        rw [source_second hb fun hk => by rw [ha] at hk; cases hk] at h
        cases h
  refine ⟨Bool.eq_false_iff.mpr fun ha => ?_, hb⟩
  rw [source_first ha fun hk => by rw [hb] at hk; cases hk] at h
  cases h

/-! ### Where a write goes (R19) -/

theorem writesSecond_iff : writesSecond a b = true ↔
    a.valid = true ∧ ¬(b.valid = true ∧ secondNewer a.count b.count = true) := by
  unfold writesSecond
  rw [Bool.and_eq_true, Bool.not_eq_true', ← Bool.not_eq_true, Bool.and_eq_true]

/-- A write goes to the second image where a load takes its content from the first. -/
theorem source_of_writesSecond (h : writesSecond a b = true) : (loadFrom a b).source = some false := by
  obtain ⟨ha, hb⟩ := writesSecond_iff.mp h
  exact source_first ha fun hv => Bool.eq_false_iff.mpr fun hn => hb ⟨hv, hn⟩

/-- A write goes to the first image where a load takes its content from the second, or from none. -/
theorem source_of_writesFirst (h : writesSecond a b = false) (hv : a.valid = true ∨ b.valid = true) :
    (loadFrom a b).source = some true := by
  have hn : a.valid = true → b.valid = true ∧ secondNewer a.count b.count = true := fun ha =>
    by_contra fun k => by
      rw [writesSecond_iff.mpr ⟨ha, k⟩] at h
      cases h
  exact source_second (hv.elim (fun ha => (hn ha).1) id) fun ha => (hn ha).2

/-- A write that leaves no valid image in place of the second leaves the first to a load. -/
theorem source_spoiledSecond {x : ImageView} (h : writesSecond a b = true) (hx : x.crcOk = false) :
    (loadFrom a x).source = (loadFrom a b).source := by
  rw [source_of_writesSecond h]
  refine source_first (writesSecond_iff.mp h).1 fun hv => ?_
  rw [((valid_iff x).mp hv).2] at hx
  cases hx

theorem source_spoiledFirst {x : ImageView} (h : writesSecond a b = false)
    (hv : a.valid = true ∨ b.valid = true) (hx : x.crcOk = false) :
    (loadFrom x b).source = (loadFrom a b).source := by
  have hb : b.valid = true := hv.elim (fun ha => by_contra fun k => by
    rw [writesSecond_iff.mpr ⟨ha, fun hk => k hk.1⟩] at h
    cases h) id
  rw [source_of_writesFirst h hv]
  refine source_second hb fun hv => ?_
  rw [((valid_iff x).mp hv).2] at hx
  cases hx

/-! ### The save count of a write (R19) -/

theorem nextCount_blank (ha : a.marked = false) (hb : b.marked = false) : nextCount a b = 1 := by
  unfold nextCount; rw [ha, hb]

theorem nextCount_first (ha : a.marked = true)
    (hb : b.marked = false ∨ secondNewer a.count b.count = false) : nextCount a b = a.count + 1 := by
  unfold nextCount
  rw [ha]
  cases hm : b.marked with
  | false => rfl
  | true => simp [hb.resolve_left (by rw [hm]; exact Bool.noConfusion)]

theorem nextCount_second (hb : b.marked = true)
    (ha : a.marked = false ∨ secondNewer a.count b.count = true) : nextCount a b = b.count + 1 := by
  unfold nextCount
  rw [hb]
  cases hm : a.marked with
  | false => rfl
  | true => simp [ha.resolve_left (by rw [hm]; exact Bool.noConfusion)]

theorem secondNewer_succ (n : Count32) : secondNewer n (n + 1) = true := by
  rw [secondNewer_iff]
  bv_omega

theorem not_secondNewer_pred (n : Count32) : secondNewer (n + 1) n = false := by
  rw [Bool.eq_false_iff]
  intro h
  have h := (secondNewer_iff ..).mp h
  bv_omega

/-- Over intact images a write in place of the second image is the newer (R19). -/
theorem source_writtenSecond {x : ImageView} (h : writesSecond a b = true) (hx : x.valid = true)
    (hc : x.count = nextCount a b) (hb : b.marked = true → b.crcOk = true) :
    (loadFrom a x).source = some true := by
  obtain ⟨ha, hn⟩ := writesSecond_iff.mp h
  refine source_second hx fun _ => ?_
  have hnext : nextCount a b = a.count + 1 := by
    refine nextCount_first ((valid_iff a).mp ha).1 ?_
    cases hm : b.marked with
    | false => exact .inl rfl
    | true => exact .inr (Bool.eq_false_iff.mpr fun k => hn ⟨(valid_iff b).mpr ⟨hm, hb hm⟩, k⟩)
  rw [hc, hnext]
  exact secondNewer_succ _

/-- Over intact images a write in place of the first image is the newer (R19). -/
theorem source_writtenFirst {x : ImageView} (h : writesSecond a b = false) (hx : x.valid = true)
    (hc : x.count = nextCount a b) (ha : a.marked = true → a.crcOk = true) :
    (loadFrom x b).source = some false := by
  refine source_first hx fun hb => ?_
  have hnext : nextCount a b = b.count + 1 := by
    refine nextCount_second ((valid_iff b).mp hb).1 ?_
    cases hm : a.marked with
    | false => exact .inl rfl
    | true =>
      exact .inr (by_contra fun k => by
        rw [writesSecond_iff.mpr ⟨(valid_iff a).mpr ⟨hm, ha hm⟩, fun hk => k hk.2⟩] at h
        cases h)
  rw [hc, hnext]
  exact not_secondNewer_pred _

end

/-! ### What a load gives (R22, R23) -/

theorem loadCfg_eq (t : Store) : t.loadCfg = (loadFrom t.configA t.configB).pick
    t.configFirst.content.working t.configSecond.content.working defaultCfg := by
  unfold Store.loadCfg
  cases loadFrom t.configA t.configB with
  | image second r => cases second <;> rfl
  | _ => rfl

theorem loadsDefaults_iff (t : Store) : t.loadsDefaults = true ↔
    (t.configFirst.marked = true → t.configFirst.crcOk = false) ∧
    (t.configSecond.marked = true → t.configSecond.crcOk = false) := by
  have h : t.loadsDefaults = true ↔ (loadFrom t.configA t.configB).source = none := by
    unfold Store.loadsDefaults
    cases loadFrom t.configA t.configB <;> simp [Loaded.source]
  rw [h, source_none_iff, not_valid_iff, not_valid_iff]
  rfl

/-- The battery area's entries before the factory defaults clear their lock-present flags (R23). -/
def Store.batteryEntries (t : Store) : Vector BatteryEntry 12 :=
  (loadFrom t.batteryA t.batteryB).pick t.batteryFirst.content t.batterySecond.content
    (Vector.replicate 12 initialEntry)

theorem loadBattery_eq (t : Store) : t.loadBattery =
    if t.loadsDefaults then t.batteryEntries.map fun x => { x with lockPresent := false }
    else t.batteryEntries := by
  unfold Store.loadBattery Store.batteryEntries
  cases loadFrom t.batteryA t.batteryB with
  | image second r => cases second <;> rfl
  | _ => rfl

/-- The fault a load logs for the config area (R22). -/
def Loaded.configFaults : Loaded → List (FaultKind × Nat)
  | .image _ true => [(.storeRecovered, 0)]
  | .corrupt => [(.storeCorrupt, 0)]
  | .blank | .image _ false => []

/-- The fault a load logs for the battery area (R23). -/
def Loaded.batteryFaults : Loaded → List (FaultKind × Nat)
  | .image _ true => [(.storeRecovered, 1)]
  | .corrupt => [(.batteryAreaReset, 1)]
  | .blank | .image _ false => []

theorem loadFaults_eq (t : Store) : t.loadFaults =
    (loadFrom t.configA t.configB).configFaults ++ (loadFrom t.batteryA t.batteryB).batteryFaults := by
  rfl

/-- Each area logs one fault at most, under its own number. -/
theorem configFaults_le (x : Loaded) :
    x.configFaults = [] ∨ ∃ f, x.configFaults = [(f, 0)] := by
  cases x with
  | image second r =>
    cases r
    · exact .inl rfl
    · exact .inr ⟨_, rfl⟩
  | blank => exact .inl rfl
  | corrupt => exact .inr ⟨_, rfl⟩

theorem batteryFaults_le (x : Loaded) :
    x.batteryFaults = [] ∨ ∃ f, x.batteryFaults = [(f, 1)] := by
  cases x with
  | image second r =>
    cases r
    · exact .inl rfl
    · exact .inr ⟨_, rfl⟩
  | blank => exact .inl rfl
  | corrupt => exact .inr ⟨_, rfl⟩

theorem mem_loadFaults_config (t : Store) (f : FaultKind) :
    (f, 0) ∈ t.loadFaults ↔ (f, 0) ∈ (loadFrom t.configA t.configB).configFaults := by
  rw [loadFaults_eq, List.mem_append]
  refine or_iff_left fun h => ?_
  rcases batteryFaults_le (loadFrom t.batteryA t.batteryB) with k | ⟨g, k⟩ <;> rw [k] at h <;> simp at h

theorem mem_loadFaults_battery (t : Store) (f : FaultKind) :
    (f, 1) ∈ t.loadFaults ↔ (f, 1) ∈ (loadFrom t.batteryA t.batteryB).batteryFaults := by
  rw [loadFaults_eq, List.mem_append]
  refine or_iff_right fun h => ?_
  rcases configFaults_le (loadFrom t.configA t.configB) with k | ⟨g, k⟩ <;> rw [k] at h <;> simp at h

theorem loadFaults_order (t : Store) : t.loadFaults.length ≤ 2 ∧
    ∀ x y, t.loadFaults = [x, y] → x.2 = 0 ∧ y.2 = 1 := by
  rw [loadFaults_eq]
  rcases configFaults_le (loadFrom t.configA t.configB) with h | ⟨f, h⟩ <;>
    rcases batteryFaults_le (loadFrom t.batteryA t.batteryB) with k | ⟨g, k⟩ <;> rw [h, k]
  · exact ⟨by decide, fun _ _ e => by cases e⟩
  · exact ⟨by simp, fun _ _ e => by cases e⟩
  · exact ⟨by simp, fun _ _ e => by cases e⟩
  · exact ⟨by simp, fun _ _ e => by cases e; exact ⟨rfl, rfl⟩⟩

/-- What a load of the config area gives and logs, by what it found. -/
theorem load_config {t : Store} {x : Loaded} (h : loadFrom t.configA t.configB = x) :
    t.loadCfg = x.pick t.configFirst.content.working t.configSecond.content.working defaultCfg ∧
    ∀ f, (f, 0) ∈ t.loadFaults ↔ (f, 0) ∈ x.configFaults := by
  subst h
  exact ⟨loadCfg_eq t, mem_loadFaults_config t⟩

/-- What a load of the battery area gives and logs, by what it found. -/
theorem load_battery {t : Store} {x : Loaded} (h : loadFrom t.batteryA t.batteryB = x) :
    t.batteryEntries = x.pick t.batteryFirst.content t.batterySecond.content
      (Vector.replicate 12 initialEntry) ∧
    ∀ f, (f, 1) ∈ t.loadFaults ↔ (f, 1) ∈ x.batteryFaults := by
  subst h
  exact ⟨rfl, mem_loadFaults_battery t⟩

/-- The entries of the battery area as a load with or without factory defaults gives them (R23). -/
theorem loadBattery_gives {t : Store} {x : Vector BatteryEntry 12} (h : t.batteryEntries = x) :
    (¬((t.configFirst.marked = true → t.configFirst.crcOk = false) ∧
        (t.configSecond.marked = true → t.configSecond.crcOk = false)) → t.loadBattery = x) ∧
    ((t.configFirst.marked = true → t.configFirst.crcOk = false) ∧
        (t.configSecond.marked = true → t.configSecond.crcOk = false) →
      t.loadBattery = x.map fun y => { y with lockPresent := false }) := by
  subst h
  rw [← loadsDefaults_iff, loadBattery_eq]
  exact ⟨fun k => if_neg k, fun k => if_pos k⟩

end Sys2Proof.Machine

section
open Sys2Proof Sys2Proof.Machine

/-- Settles O8: the rows of R22 and of R23, by what a load finds in each area. -/
theorem configLoadTable : Obligations.ConfigLoadTable := by
  intro t
  have order := loadFaults_order t
  refine ⟨⟨fun ha hb => ?_, fun ha hc hb => ?_, fun hb hc ha => ?_, fun ha hb hn hc hk => ?_,
      fun ha hb hn hc hk => ?_, fun hm ha hb => ?_⟩,
    ⟨fun ha hb => ?_, fun ha hc hb => ?_, fun hb hc ha => ?_, fun ha hb hn hc hk => ?_,
      fun ha hb hn hc hk => ?_, fun hm ha hb => ?_⟩,
    fun _ => rfl, order.1, order.2, secondNewer_iff⟩
  · obtain ⟨hcfg, hf⟩ := load_config (t := t) (loadFrom_blank ha hb)
    exact ⟨hcfg, fun f h => List.not_mem_nil ((hf f).mp h)⟩
  · obtain ⟨hcfg, hf⟩ := load_config (t := t) (loadFrom_first ha hc hb)
    exact ⟨hcfg, fun f h => List.not_mem_nil ((hf f).mp h)⟩
  · obtain ⟨hcfg, hf⟩ := load_config (t := t) (loadFrom_second hb hc ha)
    exact ⟨hcfg, fun f h => List.not_mem_nil ((hf f).mp h)⟩
  · obtain ⟨hcfg, hf⟩ := load_config (t := t) (loadFrom_keepsFirst ha hb hn hc hk)
    exact ⟨hcfg, (hf _).mpr (List.mem_singleton_self _)⟩
  · obtain ⟨hcfg, hf⟩ := load_config (t := t) (loadFrom_keepsSecond ha hb hn hc hk)
    exact ⟨hcfg, (hf _).mpr (List.mem_singleton_self _)⟩
  · obtain ⟨hcfg, hf⟩ := load_config (t := t) (loadFrom_corrupt hm ha hb)
    exact ⟨hcfg, (hf _).mpr (List.mem_singleton_self _)⟩
  · obtain ⟨hx, hf⟩ := load_battery (t := t) (loadFrom_blank ha hb)
    exact ⟨loadBattery_gives hx, fun f h => List.not_mem_nil ((hf f).mp h)⟩
  · obtain ⟨hx, hf⟩ := load_battery (t := t) (loadFrom_first ha hc hb)
    exact ⟨loadBattery_gives hx, fun f h => List.not_mem_nil ((hf f).mp h)⟩
  · obtain ⟨hx, hf⟩ := load_battery (t := t) (loadFrom_second hb hc ha)
    exact ⟨loadBattery_gives hx, fun f h => List.not_mem_nil ((hf f).mp h)⟩
  · obtain ⟨hx, hf⟩ := load_battery (t := t) (loadFrom_keepsFirst ha hb hn hc hk)
    exact ⟨loadBattery_gives hx, (hf _).mpr (List.mem_singleton_self _)⟩
  · obtain ⟨hx, hf⟩ := load_battery (t := t) (loadFrom_keepsSecond ha hb hn hc hk)
    exact ⟨loadBattery_gives hx, (hf _).mpr (List.mem_singleton_self _)⟩
  · obtain ⟨hx, hf⟩ := load_battery (t := t) (loadFrom_corrupt hm ha hb)
    exact ⟨loadBattery_gives hx, (hf _).mpr (List.mem_singleton_self _)⟩

end
end

