-- ==== Sys2Proof/Proofs/StoreWrites.lean ====
section
/-! PROOF. Where a write to an area goes and what it leaves (O9), and SAVE_CONFIG with the ends of the
writes (O36). -/

namespace Sys2Proof.Machine

/-! ### The image a write puts in place (R19) -/

theorem putConfig_second {t : Store} (h : writesSecond t.configA t.configB = true) (x : ConfigSlot) :
    t.putConfig x = { t with configSecond := x } := if_pos h

theorem putConfig_first {t : Store} (h : writesSecond t.configA t.configB = false) (x : ConfigSlot) :
    t.putConfig x = { t with configFirst := x } := if_neg (by rw [h]; exact Bool.noConfusion)

theorem putBattery_second {t : Store} (h : writesSecond t.batteryA t.batteryB = true)
    (x : BatterySlot) : t.putBattery x = { t with batterySecond := x } := if_pos h

theorem putBattery_first {t : Store} (h : writesSecond t.batteryA t.batteryB = false)
    (x : BatterySlot) : t.putBattery x = { t with batteryFirst := x } :=
  if_neg (by rw [h]; exact Bool.noConfusion)

theorem written_config {t : Store} {c : ConfigImage} (h : t.writing = some (.config c)) :
    t.written = t.putConfig (.made (nextCount t.configA t.configB) c) := by
  unfold Store.written; rw [h]

theorem written_battery {t : Store} {c : Vector BatteryEntry 12} (h : t.writing = some (.battery c)) :
    t.written = t.putBattery (.made (nextCount t.batteryA t.batteryB) c) := by
  unfold Store.written; rw [h]

theorem spoiled_config {t : Store} {c : ConfigImage} {n : Nat} (h : t.writing = some (.config c)) :
    t.spoiled n = t.putConfig (.residue n c) := by
  unfold Store.spoiled; rw [h]

theorem spoiled_battery {t : Store} {c : Vector BatteryEntry 12} {n : Nat}
    (h : t.writing = some (.battery c)) : t.spoiled n = t.putBattery (.residue n c) := by
  unfold Store.spoiled; rw [h]

theorem pick_first {α : Type} {x : Loaded} (h : x.source = some false) (p q r : α) :
    x.pick p q r = p := by
  unfold Loaded.pick; rw [h]

theorem pick_second {α : Type} {x : Loaded} (h : x.source = some true) (p q r : α) :
    x.pick p q r = q := by
  unfold Loaded.pick; rw [h]

/-! ### What a load gives after a write (R19) -/

/-- A bad config write leaves the content that a load gave. -/
theorem putConfig_bad {t : Store} {x : ConfigSlot} (hx : x.crcOk = false)
    (hv : t.configA.valid = true ∨ t.configB.valid = true) : (t.putConfig x).loadCfg = t.loadCfg := by
  rw [loadCfg_eq, loadCfg_eq]
  cases hw : writesSecond t.configA t.configB with
  | true =>
    rw [putConfig_second hw]
    have h := source_spoiledSecond (x := ⟨x.marked, x.count, x.crcOk⟩) hw hx
    have h₀ := source_of_writesSecond hw
    exact (pick_first (h.trans h₀) ..).trans (pick_first h₀ ..).symm
  | false =>
    rw [putConfig_first hw]
    have h := source_spoiledFirst (x := ⟨x.marked, x.count, x.crcOk⟩) hw hv hx
    have h₀ := source_of_writesFirst hw hv
    exact (pick_second (h.trans h₀) ..).trans (pick_second h₀ ..).symm

/-- A good config write over intact images makes its own content the one a load gives. -/
theorem putConfig_good {t : Store} (c : ConfigImage)
    (ha : t.configFirst.marked = true → t.configFirst.crcOk = true)
    (hb : t.configSecond.marked = true → t.configSecond.crcOk = true) :
    (t.putConfig (.made (nextCount t.configA t.configB) c)).loadCfg = c.working := by
  have hx : (⟨true, nextCount t.configA t.configB,
      (ConfigSlot.made (nextCount t.configA t.configB) c).crcOk⟩ : ImageView).valid = true := by
    rw [ConfigSlot.made_crcOk]; rfl
  rw [loadCfg_eq]
  cases hw : writesSecond t.configA t.configB with
  | true =>
    rw [putConfig_second hw]
    exact pick_second (source_writtenSecond hw hx rfl hb) ..
  | false =>
    rw [putConfig_first hw]
    exact pick_first (source_writtenFirst hw hx rfl ha) ..

theorem putBattery_loadCfg (t : Store) (x : BatterySlot) : (t.putBattery x).loadCfg = t.loadCfg := by
  unfold Store.putBattery; split <;> rfl

theorem putBattery_loadsDefaults (t : Store) (x : BatterySlot) :
    (t.putBattery x).loadsDefaults = t.loadsDefaults := by
  unfold Store.putBattery; split <;> rfl

/-- A bad battery write leaves the content that a load gave. -/
theorem putBattery_bad {t : Store} {x : BatterySlot} (hx : x.crcOk = false)
    (hv : t.batteryA.valid = true ∨ t.batteryB.valid = true) :
    (t.putBattery x).loadBattery = t.loadBattery := by
  have hentries : (t.putBattery x).batteryEntries = t.batteryEntries := by
    unfold Store.batteryEntries
    cases hw : writesSecond t.batteryA t.batteryB with
    | true =>
      rw [putBattery_second hw]
      have h := source_spoiledSecond (x := ⟨x.marked, x.count, x.crcOk⟩) hw hx
      have h₀ := source_of_writesSecond hw
      exact (pick_first (h.trans h₀) ..).trans (pick_first h₀ ..).symm
    | false =>
      rw [putBattery_first hw]
      have h := source_spoiledFirst (x := ⟨x.marked, x.count, x.crcOk⟩) hw hv hx
      have h₀ := source_of_writesFirst hw hv
      exact (pick_second (h.trans h₀) ..).trans (pick_second h₀ ..).symm
  rw [loadBattery_eq, loadBattery_eq, putBattery_loadsDefaults, hentries]

/-- A good battery write over intact images makes its own content the one a load gives. -/
theorem putBattery_good {t : Store} (c : Vector BatteryEntry 12)
    (ha : t.batteryFirst.marked = true → t.batteryFirst.crcOk = true)
    (hb : t.batterySecond.marked = true → t.batterySecond.crcOk = true) :
    (t.putBattery (.made (nextCount t.batteryA t.batteryB) c)).loadBattery =
      if t.loadsDefaults then c.map fun x => { x with lockPresent := false } else c := by
  have hx : (⟨true, nextCount t.batteryA t.batteryB,
      (BatterySlot.made (nextCount t.batteryA t.batteryB) c).crcOk⟩ : ImageView).valid = true := by
    rw [BatterySlot.made_crcOk]; rfl
  have hentries : (t.putBattery (.made (nextCount t.batteryA t.batteryB) c)).batteryEntries = c := by
    unfold Store.batteryEntries
    cases hw : writesSecond t.batteryA t.batteryB with
    | true =>
      rw [putBattery_second hw]
      exact pick_second (source_writtenSecond hw hx rfl hb) ..
    | false =>
      rw [putBattery_first hw]
      exact pick_first (source_writtenFirst hw hx rfl ha) ..
  rw [loadBattery_eq, putBattery_loadsDefaults, hentries]

/-! ### The place and the count of a write, by the figures of R19 -/

theorem writesSecond_iff_figures (a b : ImageView) : writesSecond a b = true ↔
    a.valid = true ∧ ¬(b.valid = true ∧ 1 ≤ (b.count - a.count).toNat ∧
      (b.count - a.count).toNat ≤ 2147483647) := by
  rw [writesSecond_iff, secondNewer_iff]

theorem nextCount_figures (a b : ImageView) :
    (a.marked = false → b.marked = false → nextCount a b = 1) ∧
    (a.marked = true → (b.marked = false ∨ ¬(1 ≤ (b.count - a.count).toNat ∧
      (b.count - a.count).toNat ≤ 2147483647)) → nextCount a b = a.count + 1) ∧
    (b.marked = true → (a.marked = false ∨ 1 ≤ (b.count - a.count).toNat ∧
      (b.count - a.count).toNat ≤ 2147483647) → nextCount a b = b.count + 1) := by
  rw [← secondNewer_iff, Bool.not_eq_true]
  exact ⟨nextCount_blank, nextCount_first, nextCount_second⟩

/-! ### The ends of the writes (R20, R21) -/

theorem putConfig_writing (t : Store) (x : ConfigSlot) : (t.putConfig x).writing = t.writing := by
  unfold Store.putConfig; split <;> rfl

theorem putBattery_writing (t : Store) (x : BatterySlot) : (t.putBattery x).writing = t.writing := by
  unfold Store.putBattery; split <;> rfl

theorem written_writing (t : Store) : t.written.writing = t.writing := by
  unfold Store.written
  split
  · exact putConfig_writing ..
  · exact putBattery_writing ..
  · rfl

theorem spoiled_writing (t : Store) (n : Nat) : (t.spoiled n).writing = t.writing := by
  unfold Store.spoiled
  split
  · exact putConfig_writing ..
  · exact putBattery_writing ..
  · rfl

theorem endWrite_config {t : Store} {c : ConfigImage} (h : t.writing = some (.config c)) :
    t.endWrite = { t with writing := none, saving := false, saveTag := none } := by
  unfold Store.endWrite; rw [h]

theorem endWrite_battery {t : Store} {c : Vector BatteryEntry 12} (h : t.writing = some (.battery c)) :
    t.endWrite = { t with writing := none } := by
  unfold Store.endWrite; rw [h]

theorem endWrite_good (s : State) (area : Nat) :
    s.endWrite true area = { s with store := s.store.written.endWrite } := rfl

theorem endWrite_bad (s : State) (area : Nat) : s.endWrite false area =
    { s with store := (s.store.spoiled s.free).endWrite, free := s.free + 1 }.onRack fun e r =>
      logFault e .storeWriteFail area r := rfl

/-- The end of a config write in progress (R20). -/
theorem exec_configWriteEnd {s : State} {c : ConfigImage} (h : s.store.writing = some (.config c))
    (verified : Bool) : exec (.configWriteEnd verified) s =
      .next ((s.endWrite verified 0).replySaved s.store.saveTag
        (if verified then codeOk else codeFailed)).conclude := by
  have hw : s.store.writesConfig = true := by unfold Store.writesConfig; rw [h]
  exact if_pos hw

/-- The end of a battery write in progress (R21). -/
theorem exec_batteryWriteEnd {s : State} {c : Vector BatteryEntry 12}
    (h : s.store.writing = some (.battery c)) (good : Bool) :
    exec (.batteryWriteEnd good) s = .next (s.endWrite good 1).conclude := by
  have hw : s.store.writesBattery = true := by unfold Store.writesBattery; rw [h]
  exact if_pos hw

theorem exec_saveConfig {s : State} {tag : Byte} (h : Ready s 0x38 tag []) :
    exec (.saveConfig tag []) s = .next { s.take with store := s.store.save tag }.conclude := by
  show Host.Outcome.next (s.execute false 0x38 tag [] _) = _
  rw [State.execute_ready h]
  rfl

/-! ### The next write (R20, R21) -/

section
variable {t : Store} {c : WorkCfg} {bu : Vector BuRec 12}

theorem nextWrite_config (hw : t.writing = none) (hs : t.saving = true) :
    t.nextWrite c bu = { t with writing := some (.config c.image) } := by
  unfold Store.nextWrite; rw [hw, hs]; rfl

theorem nextWrite_battery (hw : t.writing = none) (hs : t.saving = false)
    (hb : t.batteryWaiting = true) : t.nextWrite c bu =
      { t with writing := some (.battery (batteryContent bu)), batteryWaiting := false } := by
  unfold Store.nextWrite; rw [hw, hs, hb]; rfl

theorem nextWrite_busy (hw : t.writing ≠ none) : t.nextWrite c bu = t :=
  if_pos (Option.isSome_iff_ne_none.mpr hw)

end

theorem batteryContent_get (bu : Vector BuRec 12) (j : Fin 12) : (batteryContent bu)[j] =
    ⟨(bu[j]).h, (bu[j]).stale, (bu[j]).postponed, (bu[j]).due, (bu[j]).lockPresent⟩ :=
  Vector.getElem_map ..

end Sys2Proof.Machine

section
open Sys2Proof Sys2Proof.Machine

/-- Settles O9: what a load gives after a good and after a bad write, and where each write goes. -/
theorem configWriteSafe : Obligations.ConfigWriteSafe := by
  refine ⟨fun t c n hw => ⟨fun hv => ?_, fun ha hb => ?_⟩, fun t c n hw => ⟨fun hv => ?_, fun ha hb => ?_,
    ?_, ?_⟩, fun count c => ⟨rfl, ConfigSlot.made_crcOk ..⟩, fun count c => ⟨rfl, BatterySlot.made_crcOk ..⟩,
    fun t n => ⟨fun c hw => ?_, fun c hw => ?_⟩⟩
  · rw [spoiled_config hw, putConfig_bad (ConfigSlot.residue_crcOk ..) hv]
  · rw [written_config hw, putConfig_good c ha hb]
  · rw [spoiled_battery hw, putBattery_bad (BatterySlot.residue_crcOk ..) hv]
  · rw [written_battery hw, putBattery_good c ha hb]
  · rw [written_battery hw, putBattery_loadCfg]
  · rw [spoiled_battery hw, putBattery_loadCfg]
  · rw [written_config hw, spoiled_config hw]
    refine ⟨_, _, nextCount_figures .., ConfigSlot.residue_crcOk n c, fun h => ?_, fun h => ?_⟩
    · have h := (writesSecond_iff_figures ..).mpr h
      exact ⟨putConfig_second h _, putConfig_second h _⟩
    · have h := Bool.eq_false_iff.mpr fun k => h ((writesSecond_iff_figures ..).mp k)
      exact ⟨putConfig_first h _, putConfig_first h _⟩
  · rw [written_battery hw, spoiled_battery hw]
    refine ⟨_, _, nextCount_figures .., BatterySlot.residue_crcOk n c, fun h => ?_, fun h => ?_⟩
    · have h := (writesSecond_iff_figures ..).mpr h
      exact ⟨putBattery_second h _, putBattery_second h _⟩
    · have h := Bool.eq_false_iff.mpr fun k => h ((writesSecond_iff_figures ..).mp k)
      exact ⟨putBattery_first h _, putBattery_first h _⟩

/-- Settles O36: SAVE_CONFIG, both ends of both writes, and the write that goes next. -/
theorem storeCommands : Obligations.StoreCommands := by
  refine ⟨fun s => ⟨fun tag h => exec_saveConfig h, fun c hw => ⟨written_writing _, spoiled_writing ..,
      ?_, ?_⟩, fun c hw => ⟨?_, ?_⟩⟩,
    fun t c bu => ⟨nextWrite_config, fun hw hs hb => ⟨_, nextWrite_battery hw hs hb,
      batteryContent_get bu⟩, nextWrite_busy⟩⟩
  · rw [exec_configWriteEnd hw, endWrite_good, endWrite_config ((written_writing _).trans hw)]
    cases s.store.saveTag <;> rfl
  · rw [exec_configWriteEnd hw, endWrite_bad, endWrite_config ((spoiled_writing ..).trans hw)]
    cases s.store.saveTag <;> rfl
  · rw [exec_batteryWriteEnd hw, endWrite_good, endWrite_battery ((written_writing _).trans hw)]
  · rw [exec_batteryWriteEnd hw, endWrite_bad, endWrite_battery ((spoiled_writing ..).trans hw)]

end
end

