-- ==== Sys2Proof/Proofs/PowerOnAndLoad.lean ====
section
/-! PROOF. The power-on values and the store image that a cut write loses (O6), and the store load
(O7). -/

namespace Sys2Proof.Machine

/-! ### The power-on values -/

theorem replicate_get {α : Type} {k : Nat} (x : α) (i : Fin k) : (Vector.replicate k x)[i] = x :=
  Vector.getElem_replicate ..

/-- Every channel of the Leak Monitor after power-on (R172). -/
theorem initialLeak_channel (c : Fin 16) : initialLeak.channels[c] = initialChannel := replicate_get ..

theorem initialLeak_zone (z : Fin 8) : initialLeak.zones[z] = initialZone := replicate_get ..

theorem initialRack_psu (i : Fin 18) : initialRack.psu[i] = initialPsu := replicate_get ..

theorem initialRack_bu (j : Fin 12) : initialRack.bu[j] = initialBu := replicate_get ..

theorem initialRack_slot (n : Fin 48) : initialRack.slots[n] = initialSlot := replicate_get ..

theorem initialFaults_bank (i : Fin 6) : initialFaults.banks[i] = emptyBank := replicate_get ..

theorem emptyNotifQueue_class (c : Fin 8) : emptyNotifQueue.masks[c] = false ∧
    emptyNotifQueue.pending[c] = false ∧ emptyNotifQueue.lost[c] = 0 :=
  ⟨replicate_get .., replicate_get .., replicate_get ..⟩

/-! ### The store at a power-on (R19) -/

/-- A store that a power-on finds with no write in progress that touches an area keeps its images. -/
theorem spoiled_configImages {t : Store} (n : Nat) (h : ∀ c, t.writing ≠ some (.config c)) :
    (t.spoiled n).configFirst = t.configFirst ∧ (t.spoiled n).configSecond = t.configSecond := by
  unfold Store.spoiled
  split
  · rename_i c hw; exact absurd hw (h c)
  · unfold Store.putBattery; split <;> exact ⟨rfl, rfl⟩
  · exact ⟨rfl, rfl⟩

theorem spoiled_batteryImages {t : Store} (n : Nat) (h : ∀ c, t.writing ≠ some (.battery c)) :
    (t.spoiled n).batteryFirst = t.batteryFirst ∧ (t.spoiled n).batterySecond = t.batterySecond := by
  unfold Store.spoiled
  split
  · unfold Store.putConfig; split <;> exact ⟨rfl, rfl⟩
  · rename_i c hw; exact absurd hw (h c)
  · exact ⟨rfl, rfl⟩

/-- The config image a cut write loses: the one it had at hand. -/
theorem spoiled_config_place {t : Store} {c : ConfigImage} (n : Nat)
    (hw : t.writing = some (.config c)) :
    (writesSecond t.configA t.configB = true → (t.spoiled n).configFirst = t.configFirst ∧
      (t.spoiled n).configSecond = .residue n c) ∧
    (writesSecond t.configA t.configB = false → (t.spoiled n).configFirst = .residue n c ∧
      (t.spoiled n).configSecond = t.configSecond) := by
  rw [spoiled_config hw]
  exact ⟨fun h => by rw [putConfig_second h]; exact ⟨rfl, rfl⟩,
    fun h => by rw [putConfig_first h]; exact ⟨rfl, rfl⟩⟩

theorem spoiled_battery_place {t : Store} {c : Vector BatteryEntry 12} (n : Nat)
    (hw : t.writing = some (.battery c)) :
    (writesSecond t.batteryA t.batteryB = true → (t.spoiled n).batteryFirst = t.batteryFirst ∧
      (t.spoiled n).batterySecond = .residue n c) ∧
    (writesSecond t.batteryA t.batteryB = false → (t.spoiled n).batteryFirst = .residue n c ∧
      (t.spoiled n).batterySecond = t.batterySecond) := by
  rw [spoiled_battery hw]
  exact ⟨fun h => by rw [putBattery_second h]; exact ⟨rfl, rfl⟩,
    fun h => by rw [putBattery_first h]; exact ⟨rfl, rfl⟩⟩

/-- A write cut short never costs a load its content, config area (R19). -/
theorem spoiled_loadCfg {t : Store} (n : Nat) (hv : t.configA.valid = true ∨ t.configB.valid = true) :
    (t.spoiled n).loadCfg = t.loadCfg := by
  unfold Store.spoiled
  split
  · exact putConfig_bad (ConfigSlot.residue_crcOk ..) hv
  · exact putBattery_loadCfg ..
  · rfl

theorem loadsDefaults_iff_source (t : Store) :
    t.loadsDefaults = true ↔ t.configA.valid = false ∧ t.configB.valid = false := by
  rw [loadsDefaults_iff, not_valid_iff, not_valid_iff]
  rfl

/-- A bad config write leaves whether a load gives the factory defaults. -/
theorem putConfig_loadsDefaults {t : Store} {x : ConfigSlot} (hx : x.crcOk = false) :
    (t.putConfig x).loadsDefaults = t.loadsDefaults := by
  have hbad : (⟨x.marked, x.count, x.crcOk⟩ : ImageView).valid = false :=
    (not_valid_iff _).mpr fun _ => hx
  rw [Bool.eq_iff_iff, loadsDefaults_iff_source, loadsDefaults_iff_source]
  cases hw : writesSecond t.configA t.configB with
  | true =>
    have ha := (writesSecond_iff.mp hw).1
    rw [putConfig_second hw]
    exact iff_of_false (fun h => Bool.noConfusion (ha.symm.trans h.1))
      fun h => Bool.noConfusion (ha.symm.trans h.1)
  | false =>
    rw [putConfig_first hw]
    refine ⟨fun h => ⟨Bool.eq_false_iff.mpr fun ha => ?_, h.2⟩, fun h => ⟨hbad, h.2⟩⟩
    have hb : t.configB.valid = false := h.2
    rw [writesSecond_iff.mpr ⟨ha, fun hk => Bool.noConfusion (hk.1.symm.trans hb)⟩] at hw
    cases hw

theorem putConfig_batteryEntries (t : Store) (x : ConfigSlot) :
    (t.putConfig x).batteryEntries = t.batteryEntries := by
  unfold Store.putConfig; split <;> rfl

/-- A write cut short never costs a load its content, battery area (R19). -/
theorem spoiled_loadBattery {t : Store} (n : Nat)
    (hv : t.batteryA.valid = true ∨ t.batteryB.valid = true) :
    (t.spoiled n).loadBattery = t.loadBattery := by
  unfold Store.spoiled
  split
  · rw [loadBattery_eq, loadBattery_eq, putConfig_loadsDefaults (ConfigSlot.residue_crcOk ..),
      putConfig_batteryEntries]
  · exact putBattery_bad (BatterySlot.residue_crcOk ..) hv
  · rfl

/-! ### The load (R22, R23) -/

theorem exec_storeLoadComplete {s : State} (h : s.boot.loaded = false) : exec .storeLoadComplete s =
    .next ((s.loadTables.onRack loadSlots).onRack fun e r =>
      forEach (fun x r => logFault e x.1 x.2 r) s.store.loadFaults r).conclude :=
  if_neg (by rw [h]; exact Bool.noConfusion)

theorem onRack_env (s : State) (f : Env → Rack → Rack) : (s.onRack f).env = s.env := rfl

theorem loadTables_boot (s : State) : s.loadTables.boot = { s.boot with loaded := true } := by
  simp only [State.loadTables]

theorem loadTables_cfg (s : State) : s.loadTables.cfg = s.store.loadCfg := by
  simp only [State.loadTables]

theorem loadTables_marks (s : State) : s.loadTables.marks =
    if s.store.loadCfg.locked then validate s.store.loadCfg.record s.store.loadCfg.profiles
    else noMarks := by
  simp only [State.loadTables]

theorem loadTables_psu (s : State) (i : Fin 18) : s.loadTables.rack.psu[i] =
    (s.rack.psu[i]).load (s.store.loadCfg.locked && s.store.loadCfg.record.psuPresent i) := ofFn_slot ..

theorem loadTables_bu (s : State) (j : Fin 12) : s.loadTables.rack.bu[j] =
    (s.rack.bu[j]).load (s.store.loadCfg.locked && s.store.loadCfg.record.buPresent j)
      s.store.loadBattery[j] := ofFn_slot ..

end Sys2Proof.Machine

section
open Sys2Proof Sys2Proof.Machine

/-- Settles O6: each block's power-on values, and the image of a write in progress. -/
theorem powerOn : Obligations.PowerOn := by
  refine ⟨fun s => ⟨_, exec_powerOn s, rfl, rfl, rfl, rfl, rfl, rfl, rfl, rfl, rfl, rfl, rfl, rfl, rfl,
    rfl, rfl, rfl, rfl, rfl, rfl, rfl, ⟨fun c => ?_, fun z => ?_, rfl, rfl, rfl⟩,
    ⟨rfl, rfl, rfl, rfl, rfl, rfl, rfl, rfl, rfl, rfl, rfl, rfl⟩, initialRack_psu, fun j => ?_,
    ⟨rfl, rfl, rfl, rfl, rfl, rfl, rfl, rfl, rfl, rfl, rfl, rfl⟩, initialRack_slot,
    ⟨rfl, rfl, rfl, rfl, rfl, rfl⟩, ⟨rfl, rfl, rfl, rfl, rfl, rfl, rfl, rfl, rfl⟩,
    ⟨rfl, rfl, rfl, rfl, rfl, rfl, rfl, rfl, rfl, rfl, rfl, rfl, rfl, rfl, rfl, rfl, rfl, rfl, rfl, rfl,
      rfl, fun j => replicate_get ..⟩, ⟨rfl, rfl, rfl, rfl, fun j => replicate_get ..⟩, rfl,
    ⟨fun i => ?_, rfl, rfl⟩, ⟨rfl, rfl, emptyNotifQueue_class⟩, rfl, rfl⟩, fun s => ?_⟩
  · have h := initialLeak_channel c
    exact ⟨congrArg Channel.state h, congrArg Channel.wetCount h, congrArg Channel.openCount h,
      congrArg Channel.dryCount h, congrArg Channel.dryRun h, congrArg Channel.level h⟩
  · have h := initialLeak_zone z
    refine ⟨congrArg Zone.state h, congrArg Zone.alarmTime h, congrArg Zone.grace h, fun k => ?_⟩
    exact (congrArg (fun x : Zone => x.shelves[k]) h).trans (replicate_get ..)
  · intro b
    have hb : b = initialBu := initialRack_bu j
    clear_value b
    subst hb
    exact ⟨rfl, rfl, rfl, rfl, rfl, rfl, rfl, rfl, rfl, rfl, rfl, rfl, rfl, rfl, rfl, rfl, rfl, rfl, rfl,
      rfl, rfl⟩
  · exact congrArg Bank.valid (initialFaults_bank i)
  · have place : ∀ a b : ImageView, ¬(a.valid = true ∧ ¬(b.valid = true ∧
        1 ≤ (b.count - a.count).toNat ∧ (b.count - a.count).toNat ≤ 2147483647)) →
        writesSecond a b = false := fun a b h =>
      Bool.eq_false_iff.mpr fun k => h ((writesSecond_iff_figures a b).mp k)
    refine ⟨rfl, spoiled_configImages _, spoiled_batteryImages _, fun c hw => ?_, fun c hw => ?_,
      spoiled_loadCfg _, spoiled_loadBattery _⟩
    · obtain ⟨h₁, h₂⟩ := spoiled_config_place s.free hw
      exact ⟨ConfigSlot.residue_crcOk .., fun h => h₁ ((writesSecond_iff_figures ..).mpr h),
        fun h => h₂ (place _ _ h)⟩
    · obtain ⟨h₁, h₂⟩ := spoiled_battery_place s.free hw
      exact ⟨BatterySlot.residue_crcOk .., fun h => h₁ ((writesSecond_iff_figures ..).mpr h),
        fun h => h₂ (place _ _ h)⟩

/-- Settles O7: the load's tables, its slots and what it logs. -/
theorem storeLoad : Obligations.StoreLoad := by
  intro s hl
  refine ⟨_, rfl, exec_storeLoadComplete hl, ?_, ?_, ?_, fun n => ?_, fun i => ?_, fun j => ?_, ?_, ?_⟩
  · rw [onRack_boot, loadTables_boot]
  · rw [onRack_cfg, loadTables_cfg]
  · rw [onRack_marks, onRack_cfg, loadTables_marks, loadTables_cfg]
  · rw [onRack_env, onRack_rack, loadSlots_slots]
    exact ⟨rfl, rfl, rfl⟩
  · rw [onRack_cfg, onRack_rack, loadTables_cfg, loadSlots_psu, loadTables_psu]
    exact ⟨rfl, rfl⟩
  · rw [onRack_cfg, onRack_rack, loadTables_cfg, loadSlots_bu, loadTables_bu]
    exact ⟨rfl, rfl, rfl, rfl, rfl, rfl⟩
  · rw [onRack_leak, loadTables_leak]
  · simp only [State.onRack, loadSlots, State.loadTables]

end
end

