-- ==== Sys2Proof/Proofs/CommissionRecord.lean ====
section
/-! PROOF. COMMISSION_WRITE, COMMISSION_LOCK and DECOMMISSION: their checks, the sections, and the tests
of a validation (O34). -/

namespace Sys2Proof.Machine

/-! ### What a change of zone states leaves -/

/-- t differs from s in zone records, notifications, and what is handed on. -/
def ZoneMoves (s t : State) : Prop :=
  t = { s with leak.zones := t.leak.zones, rack.notif := t.rack.notif, rack.todo := t.rack.todo }

theorem ZoneMoves.refl (s : State) : ZoneMoves s s := rfl

theorem ZoneMoves.trans {s t u : State} (h : ZoneMoves s t) (k : ZoneMoves t u) : ZoneMoves s u := by
  unfold ZoneMoves at *
  rw [k, h]

theorem changeZone_zoneMoves (s : State) (z : Fin 8) (f : Zone → Zone) :
    ZoneMoves s (s.changeZone z f) := rfl

theorem setZone_zoneMoves (s : State) (z : Fin 8) (x : ZoneState) : ZoneMoves s (s.setZone z x) := by
  unfold State.setZone State.zoneRaised headZone
  split
  · rfl
  · dsimp only [State.onRack]
    split
    · split <;> rfl
    · rfl

theorem forEach_zoneMoves {f : Fin 8 → State → State} (h : ∀ z s, ZoneMoves s (f z s)) :
    ∀ (zs : List (Fin 8)) (s : State), ZoneMoves s (forEach f zs s)
  | [], s => .refl s
  | z :: zs, s => (h z s).trans (forEach_zoneMoves h zs (f z s))

theorem ZoneMoves.cfg {s t : State} (h : ZoneMoves s t) : t.cfg = s.cfg := by rw [h]

theorem ZoneMoves.marks {s t : State} (h : ZoneMoves s t) : t.marks = s.marks := by rw [h]

/-- The Leak Monitor's channels as a lock restarts them (R7). -/
def Leak.relock (l : Leak) : Leak :=
  { l with channels := l.channels.map Channel.relock, firstWindow := false, samples := 0 }

theorem lockLeak_zoneMoves (s : State) : ZoneMoves { s with leak := s.leak.relock } s.lockLeak :=
  forEach_zoneMoves (fun _ _ => (changeZone_zoneMoves ..).trans (setZone_zoneMoves ..)) _ _

theorem unlockLeak_zoneMoves (s : State) : ZoneMoves { s with leak := s.leak.unlock } s.unlockLeak :=
  forEach_zoneMoves (fun _ _ => setZone_zoneMoves ..) _ _

/-! ### The working configuration of a lock and a DECOMMISSION (R5, R8) -/

/-- The record a lock takes, k clamped (R5). -/
def CommRecord.locks (c : CommRecord) : CommRecord := { c with rack := { c.rack with k := min 2 c.rack.k } }

theorem lockedK_eq (k : Nat) : lockedK k = min 2 k := by
  unfold lockedK; split <;> omega

theorem lock_cfg (s : State) :
    s.lock.cfg = { s.cfg with record := s.cfg.record.locks, locked := true } := by
  unfold State.lock
  dsimp only
  rw [onRack_cfg, (lockLeak_zoneMoves _).cfg, lockedK_eq]
  rfl

theorem lock_marks (s : State) : s.lock.marks = validate s.cfg.record.locks s.cfg.profiles := by
  unfold State.lock
  dsimp only
  rw [onRack_marks, (lockLeak_zoneMoves _).marks, lockedK_eq]
  rfl

theorem unlock_cfg (s : State) : s.unlock.cfg = { s.cfg with locked := false } := by
  unfold State.unlock
  dsimp only
  rw [onRack_cfg, (unlockLeak_zoneMoves _).cfg]
  rfl

/-! ### The checks of the requests (R3, R5, R8) -/

theorem exec_commissionWrite {s : State} {tag kind index : Byte} {fields : List Byte}
    (h : Ready s 0x30 tag (kind :: index :: fields)) (hh : s.held = false)
    (hf : fieldLength kind.toNat = some fields.length) :
    exec (.commissionWrite tag (kind :: index :: fields)) s = .next
      (let a := checked s.cfg.locked codeLocked (checked (sectionCount kind.toNat ≤ index.toNat)
        codeBadIndex (writeSection kind.toNat index.toNat fields)) s.take
       (a.1.reply 0x30 tag a.2).conclude) := by
  have hs : sectionFits (kind :: index :: fields) = true := beq_iff_eq.mpr hf
  show Host.Outcome.next (s.serve false 0x30 tag _ _) = _
  rw [State.serve_ready h, commissionWriteBody, if_pos hs]
  dsimp only
  rw [show s.take.held = false from hh, checked_false]
  rfl

theorem exec_commissionLock {s : State} {tag : Byte} (h : Ready s 0x31 tag []) (hh : s.held = false) :
    exec (.commissionLock tag []) s = .next
      (let a := checked s.cfg.locked codeLocked (checked (!s.cfg.record.rack.lockable)
        codeRefusedState (checked s.leak.latched codeRefusedState fun s =>
          s.lock.answer (if s.cfg.record.rack.k ≤ 2 then codeOk else codeClamped)
            (lockFigures s.lock.cfg.record.rack.k s.lock.marks))) s.take
       (a.1.reply 0x31 tag a.2).conclude) := by
  show Host.Outcome.next (s.serve false 0x31 tag _ _) = _
  rw [State.serve_ready h, noPayload_nil, commissionLockBody, show s.take.held = false from hh,
    checked_false]
  rfl

theorem exec_decommission {s : State} {tag : Byte} (h : Ready s 0x32 tag []) (hh : s.held = false) :
    exec (.decommission tag []) s = .next
      (let a := checked (!s.cfg.locked) codeRefusedState (checked (!s.canUnlock) codeRefusedState
        fun s => s.unlock.answer codeOk []) s.take
       (a.1.reply 0x32 tag a.2).conclude) := by
  show Host.Outcome.next (s.serve false 0x32 tag _ _) = _
  rw [State.serve_ready h, noPayload_nil, decommissionBody, show s.take.held = false from hh,
    checked_false]
  rfl

theorem all_toList_iff {α : Type} {k : Nat} (v : Vector α k) (p : α → Bool) :
    v.toList.all p = true ↔ ∀ i : Fin k, p v[i] = true := by
  rw [List.all_eq_true]
  constructor
  · intro h i
    exact h _ (by simp)
  · intro h x hx
    obtain ⟨i, hi, rfl⟩ := List.getElem_of_mem hx
    have hk : i < k := by simpa using hi
    simpa using h ⟨i, hk⟩

theorem any_toList_iff {α : Type} {k : Nat} (v : Vector α k) (p : α → Bool) :
    v.toList.any p = true ↔ ∃ i : Fin k, p v[i] = true := by
  rw [List.any_eq_true]
  constructor
  · rintro ⟨x, hx, hp⟩
    obtain ⟨i, hi, rfl⟩ := List.getElem_of_mem hx
    have hk : i < k := by simpa using hi
    exact ⟨⟨i, hk⟩, by simpa using hp⟩
  · rintro ⟨i, hp⟩
    exact ⟨_, by simp, hp⟩

theorem canUnlock_iff (s : State) : s.canUnlock = true ↔
    (∀ n : Fin 48, (s.rack.slots[n]).state ∈ [SlotState.off, .disabled, .faulted]) ∧
    s.rack.active = none ∧ s.rack.grid.state = .normal := by
  unfold State.canUnlock
  rw [Bool.and_eq_true, Bool.and_eq_true, all_toList_iff, Option.isNone_iff_eq_none, beq_iff_eq,
    and_assoc]
  simp only [Bool.or_eq_true, beq_iff_eq, or_assoc, List.mem_cons, List.not_mem_nil, or_false]

theorem lockable_iff (x : RackSec) : x.lockable = true ↔
    1 ≤ x.shelfCount ∧ x.shelfCount ≤ 3 ∧ 1 ≤ x.slotCount ∧ x.slotCount ≤ 48 := by
  unfold RackSec.lockable
  simp only [Bool.and_eq_true, decide_eq_true_iff, and_assoc]

theorem latched_iff (l : Leak) : l.latched = true ↔ (∃ c : Fin 16, (l.channels[c]).state = .wet) ∨
    ∃ (z : Fin 8) (h : Fin 3), (l.zones[z]).shelves[h] = true := by
  unfold Leak.latched
  simp only [Bool.or_eq_true, any_toList_iff, beq_iff_eq, id]

/-! ### The sections (R3, R193) -/

theorem write_shelf (c : CommRecord) (h : Fin 3) (x y z : Byte) {psus bus : List Byte}
    (hp : psus.length = 6) (hb : bus.length = 4) :
    c.write 1 h.val (x :: psus ++ y :: bus ++ [z]) =
      { c with
        shelves := put c.shelves h ⟨⟨x.toNat, (psus.take x.toNat).map BitVec.toNat⟩,
          ⟨y.toNat, (bus.take y.toNat).map BitVec.toNat⟩, z.toNat⟩ } := by
  match psus, hp, bus, hb with
  | [_, _, _, _, _, _], _, [_, _, _, _], _ => rw [← putAt_val]; rfl

theorem write_psu (c : CommRecord) (i : Fin 18) (x : Fin 65536) :
    c.write 2 i.val (u16 x) = { c with psus := put c.psus i ⟨x⟩ } := by
  show { c with psus := putAt c.psus i.val ⟨fromBytes (u16 x)⟩ } = _
  rw [putAt_val, fromBytes_u16 x.isLt]

theorem write_bu (c : CommRecord) (j : Fin 12) (v w x y : Fin 65536) (z : Byte) :
    c.write 3 j.val (u16 v ++ u16 w ++ u16 x ++ u16 y ++ [z]) =
      { c with bus := put c.bus j ⟨v, w, x, y, z.toNat⟩ } := by
  show { c with bus := putAt c.bus j.val ⟨fromBytes (u16 v), fromBytes (u16 w), fromBytes (u16 x),
    fromBytes (u16 y), z.toNat⟩ } = _
  rw [putAt_val, fromBytes_u16 v.isLt, fromBytes_u16 w.isLt, fromBytes_u16 x.isLt,
    fromBytes_u16 y.isLt]

theorem write_slot (c : CommRecord) (n : Fin 48) (x y z : Byte) : c.write 4 n.val [x, y, z] =
    { c with slots := put c.slots n ⟨x.toNat, y.toNat, z.toNat⟩ } := by
  rw [← putAt_val]; rfl

theorem write_channel (c : CommRecord) (k : Fin 16) (x : Byte) (y z : Fin 65536) :
    c.write 5 k.val (x :: (u16 y ++ u16 z)) =
      { c with channels := put c.channels k ⟨x.toNat, y, z⟩ } := by
  show { c with channels := putAt c.channels k.val ⟨x.toNat, fromBytes (u16 y), fromBytes (u16 z)⟩ } = _
  rw [putAt_val, fromBytes_u16 y.isLt, fromBytes_u16 z.isLt]

/-! ### The tests of a validation (R6) -/

theorem zoneInRange_iff (z : Nat) : zoneInRange z = true ↔ z ≤ 7 ∨ z = 255 := by
  unfold zoneInRange
  rw [Bool.or_eq_true, decide_eq_true_iff, beq_iff_eq, Nat.lt_succ_iff]

theorem inRange_iff (b : BaySet) (k : Nat) :
    b.inRange k = true ↔ b.count ≤ k ∧ ∀ x ∈ b.bays, x < k := by
  unfold BaySet.inRange
  simp only [Bool.and_eq_true, decide_eq_true_iff, List.all_eq_true]

theorem shelfEnabled_iff (c : CommRecord) (h : Fin 3) : c.shelfEnabled h = true ↔
    h.val < c.rack.shelfCount ∧ ((c.shelves[h]).zone ≤ 7 ∨ (c.shelves[h]).zone = 255) ∧
    ((c.shelves[h]).psuBays.count ≤ 6 ∧ ∀ x ∈ (c.shelves[h]).psuBays.bays, x < 6) ∧
    (c.shelves[h]).buBays.count ≤ 4 ∧ ∀ x ∈ (c.shelves[h]).buBays.bays, x < 4 := by
  unfold CommRecord.shelfEnabled CommRecord.shelfInside ShelfSec.valid
  rw [Bool.and_eq_true, Bool.and_eq_true, Bool.and_eq_true, decide_eq_true_iff, zoneInRange_iff,
    inRange_iff, inRange_iff, and_assoc]

theorem psuInSet_iff (c : CommRecord) (i : Fin 18) :
    c.psuInSet i = true ↔ psuBay i ∈ (c.shelves[psuShelf i]).psuBays.bays := List.contains_iff_mem

theorem buInSet_iff (c : CommRecord) (j : Fin 12) :
    c.buInSet j = true ↔ buBay j ∈ (c.shelves[buShelf j]).buBays.bays := List.contains_iff_mem

theorem psuPresent_iff (c : CommRecord) (i : Fin 18) : c.psuPresent i = true ↔
    c.shelfEnabled (psuShelf i) = true ∧ psuBay i ∈ (c.shelves[psuShelf i]).psuBays.bays ∧
    500 ≤ (c.psus[i]).rated ∧ (c.psus[i]).rated ≤ 6000 := by
  unfold CommRecord.psuPresent PsuSec.valid
  simp only [Bool.and_eq_true, decide_eq_true_iff, psuInSet_iff, and_assoc]

theorem buPresent_iff (c : CommRecord) (j : Fin 12) : c.buPresent j = true ↔
    c.shelfEnabled (buShelf j) = true ∧ buBay j ∈ (c.shelves[buShelf j]).buBays.bays ∧
    100 ≤ (c.bus[j]).rated ∧ (c.bus[j]).rated ≤ 16000 ∧ (c.bus[j]).reserve ≤ (c.bus[j]).rated / 2 ∧
    500 ≤ (c.bus[j]).maxDischarge ∧ (c.bus[j]).maxDischarge ≤ 12000 ∧
    (c.bus[j]).maxRecharge ≤ 5000 ∧ 5 ≤ (c.bus[j]).depth ∧ (c.bus[j]).depth ≤ 50 := by
  unfold CommRecord.buPresent BuSec.valid
  simp only [Bool.and_eq_true, decide_eq_true_iff, buInSet_iff, and_assoc]

theorem slotValid_iff (x : SlotSec) : x.valid = true ↔
    x.profile ≤ 7 ∧ x.group ≤ 3 ∧ (x.zone ≤ 7 ∨ x.zone = 255) := by
  unfold SlotSec.valid
  simp only [Bool.and_eq_true, decide_eq_true_iff, zoneInRange_iff, and_assoc]

theorem slotEnabled_iff (c : CommRecord) (n : Fin 48) :
    c.slotEnabled n = true ↔ n.val < c.rack.slotCount ∧ (c.slots[n]).valid = true := by
  unfold CommRecord.slotEnabled
  rw [Bool.and_eq_true, decide_eq_true_iff]

theorem channelDisabled_iff (x : ChanSec) : x.disabled = true ↔
    ¬(x.zone ≤ 7 ∨ x.zone = 255) ∨ 1023 < x.wet ∨ 1023 < x.opn ∨ x.opn ≤ x.wet := by
  unfold ChanSec.disabled
  simp only [Bool.or_eq_true, Bool.not_eq_true', decide_eq_true_iff, ← zoneInRange_iff, or_assoc,
    Bool.not_eq_true]

theorem zoneOf_isSome (z : Nat) : (zoneOf z).isSome = true ↔ z < 8 := by
  unfold zoneOf
  split <;> simp [*]

/-! The marks and the counts of a validation. -/

section
variable (c : CommRecord) (profiles : Vector Profile 8)

theorem validate_shelfOn (h : Fin 3) : (validate c profiles).shelfOn[h] = c.shelfEnabled h :=
  ofFn_slot ..

theorem validate_slotOn (n : Fin 48) : (validate c profiles).slotOn[n] = c.slotEnabled n :=
  ofFn_slot ..

theorem validate_channelUsed (k : Fin 16) : (validate c profiles).channelUsed[k] =
    ((zoneOf (c.channels[k]).zone).isSome && !(c.channels[k]).disabled) := ofFn_slot ..

end

/-- A count is the length of any list of the members counted, each once. -/
theorem countOf_eq {k : Nat} {f : Fin k → Bool} {l : List (Fin k)} (hl : l.Nodup)
    (h : ∀ i, i ∈ l ↔ f i = true) : countOf k f = l.length := by
  refine List.Perm.length_eq ((List.perm_ext_iff_of_nodup ((List.nodup_finRange k).filter _) hl).mpr
    fun i => ?_)
  rw [List.mem_filter, h]
  exact and_iff_right (List.mem_finRange i)

/-- A slot inside the rack that its own section disables (R6). -/
theorem disabledSlot_iff (c : CommRecord) (n : Fin 48) :
    (decide (n.val < c.rack.slotCount) && !(c.slots[n]).valid) = true ↔
      n.val < c.rack.slotCount ∧ c.slotEnabled n = false := by
  rw [Bool.and_eq_true, decide_eq_true_iff, Bool.not_eq_true', ← Bool.not_eq_true, ← Bool.not_eq_true,
    slotEnabled_iff]
  exact ⟨fun ⟨h, k⟩ => ⟨h, fun e => k e.2⟩, fun ⟨h, k⟩ => ⟨h, fun e => k ⟨h, e⟩⟩⟩

/-- A slot whose profile is not VALID waits for one (R5, R9). -/
theorem waits_iff (c : CommRecord) (profiles : Vector Profile 8) (n : Fin 48) :
    (c.slotEnabled n && !(profiles[(c.slots[n]).profile]?.getD zeroProfile).valid) = true ↔
      c.slotEnabled n = true ∧
        ∀ p : Fin 8, (c.slots[n]).profile = p.val → (profiles[p]).valid = false := by
  rw [Bool.and_eq_true, Bool.not_eq_true']
  refine and_congr_right fun hn => ?_
  have hp : (c.slots[n]).profile < 8 :=
    Nat.lt_succ_of_le ((slotValid_iff _).mp ((slotEnabled_iff c n).mp hn).2).1
  have hget : profiles[(c.slots[n]).profile]?.getD zeroProfile =
      profiles[(⟨(c.slots[n]).profile, hp⟩ : Fin 8)] := by
    rw [Vector.getElem?_eq_getElem hp]
    rfl
  rw [hget]
  refine ⟨fun h p e => ?_, fun h => h ⟨_, hp⟩ rfl⟩
  have hpe : p = ⟨(c.slots[n]).profile, hp⟩ := Fin.ext e.symm
  rw [hpe]
  exact h

end Sys2Proof.Machine

section
open Sys2Proof Sys2Proof.Machine

/-- Settles O34: the checks of the three requests, the sections as carried, and the tests of a
validation. -/
theorem commissionRequests : Obligations.CommissionRequests := by
  refine ⟨fun s tag hh => ⟨fun kind index fields hr hf => ?_, fun hr => ⟨fun hl => ?_, fun hl hb => ?_,
      fun hl hk ht => ⟨lock_cfg s, lock_marks s, ?_⟩⟩, fun hr => ⟨fun hb => ?_, fun hl hc =>
        ⟨unlock_cfg s, ?_⟩⟩⟩,
    fun s => ⟨canUnlock_iff s, lockable_iff _, latched_iff _⟩,
    fun c => ⟨fun _ _ _ => rfl, fun h x y z psus bus => write_shelf c h x y z, write_psu c, write_bu c,
      write_slot c, write_channel c⟩,
    fun c profiles => ⟨fun h => ?_, fun i => ?_, fun j => ?_, fun n => ?_, fun k => ?_,
      fun l hl => ⟨fun h => ?_, fun h => ?_⟩, fun l hl h => ?_, fun l hl h => ?_, fun l hl h => ?_⟩⟩
  · rw [exec_commissionWrite hr hh hf]
    cases s.cfg.locked with
    | true => rfl
    | false =>
      by_cases hb : sectionCount kind.toNat ≤ index.toNat
      · rw [decide_eq_true hb, if_pos hb]; rfl
      · rw [decide_eq_false hb, if_neg hb]; rfl
  · rw [exec_commissionLock hr hh, hl]; rfl
  · rw [exec_commissionLock hr hh, hl]
    rcases hb with hb | hb
    · rw [hb]; rfl
    · rw [hb]; cases s.cfg.record.rack.lockable <;> rfl
  · rw [exec_commissionLock hr hh, hl, hk, ht]
    show Host.Outcome.next (s.take.lock.reply 0x31 tag (_ ::
      lockFigures s.take.lock.cfg.record.rack.k s.take.lock.marks)).conclude = _
    rw [lock_cfg, lock_marks]
    rfl
  · rw [exec_decommission hr hh]
    rcases hb with hb | hb
    · rw [hb]; rfl
    · rw [show (!s.canUnlock) = true by rw [hb]; rfl]
      cases s.cfg.locked <;> rfl
  · rw [exec_decommission hr hh, hl, hc]; rfl
  · rw [validate_shelfOn]; exact shelfEnabled_iff c h
  · rw [validate_shelfOn]; exact psuPresent_iff c i
  · rw [validate_shelfOn]; exact buPresent_iff c j
  · rw [validate_slotOn, slotEnabled_iff, slotValid_iff]
  · rw [validate_channelUsed, Bool.and_eq_true, zoneOf_isSome, Bool.not_eq_true',
      ← Bool.not_eq_true, channelDisabled_iff]
    dsimp only
    omega
  · refine countOf_eq hl fun n => (h n).trans ?_
    rw [validate_slotOn]
    exact (disabledSlot_iff c n).symm
  · refine countOf_eq hl fun n => (h n).trans ?_
    rw [validate_slotOn]
    exact (waits_iff c profiles n).symm
  · refine countOf_eq hl fun i => (h i).trans ?_
    simp only [CommRecord.shelfInside, Bool.and_eq_true, decide_eq_true_iff, psuInSet_iff,
      Bool.not_eq_true', and_assoc]
  · refine countOf_eq hl fun j => (h j).trans ?_
    simp only [CommRecord.shelfInside, Bool.and_eq_true, decide_eq_true_iff, buInSet_iff,
      Bool.not_eq_true', and_assoc]
  · refine countOf_eq hl fun k => (h k).trans ?_
    rw [Bool.and_eq_true, bne_iff_ne, channelDisabled_iff]

end
end

