-- ==== Sys2Proof/Proofs/LengthsAndIndices.lean ====
section
/-! PROOF. Payloads whose length does not fit, and indices at or above their bound (O19). -/

namespace Sys2Proof.Machine

variable {s : State} {kind tag : Byte} {payload : List Byte}

/-- A request that its own rule turns away with a code changes nothing but the link (R190). -/
theorem turnsAway {early : Bool} {body : State → Answer} {code : Byte} (h : Ready s kind tag payload)
    (hb : body s.take = s.take.answer code []) :
    (Host.Outcome.next (s.serve early kind tag payload body) : Outcome) =
      .next (s.take.reply kind tag [code]).conclude := by
  rw [State.serve_ready h, hb]
  rfl

/-- The requests without a payload (R192). -/
theorem noPayload_turnedAway (h : Ready s kind tag payload)
    (hk : kind ∈ [0x07, 0x14, 0x15, 0x19, 0x1A, 0x31, 0x32, 0x38, 0x39, 0x3A])
    (h38 : kind ≠ 0x38) (hp : payload ≠ []) :
    exec (requestOf ⟨kind, tag, payload⟩) s =
      .next (s.take.reply kind tag [codeBadLength]).conclude := by
  simp only [List.mem_cons, List.not_mem_nil, or_false] at hk
  rcases hk with rfl | rfl | rfl | rfl | rfl | rfl | rfl | rfl | rfl | rfl
  case inr.inr.inr.inr.inr.inr.inr.inl => exact absurd rfl h38
  all_goals exact turnsAway h (noPayload_ne hp ..)

/-- SAVE_CONFIG, which is answered at the end of its write, has no payload either (R20). -/
theorem saveConfig_turnedAway (h : Ready s 0x38 tag payload) (hp : payload ≠ []) :
    exec (requestOf ⟨0x38, tag, payload⟩) s =
      .next (s.take.reply 0x38 tag [codeBadLength]).conclude := by
  show Host.Outcome.next (s.execute false 0x38 tag payload (saveConfigBody tag payload)) = _
  rw [State.execute_ready h, saveConfigBody, if_neg (by simpa using hp)]

/-- The requests of one index, whatever its bound (R192). -/
theorem indexed_turnedAway (h : Ready s kind tag payload)
    (hk : kind ∈ [0x02, 0x03, 0x04, 0x05, 0x06, 0x08, 0x23, 0x24]) (hp : payload.length ≠ 1) :
    exec (requestOf ⟨kind, tag, payload⟩) s =
      .next (s.take.reply kind tag [codeBadLength]).conclude := by
  simp only [List.mem_cons, List.not_mem_nil, or_false] at hk
  rcases hk with rfl | rfl | rfl | rfl | rfl | rfl | rfl | rfl <;>
    exact turnsAway h (indexed_length hp ..)

theorem identify_turnedAway (h : Ready s 0x01 tag payload) (hp : payload.length ≠ 1) :
    exec (requestOf ⟨0x01, tag, payload⟩) s =
      .next (s.take.reply 0x01 tag [codeBadLength]).conclude := by
  refine turnsAway h (?_ : identifyBody payload s.take = _)
  unfold identifyBody
  split
  · exact absurd rfl hp
  · rfl

theorem slotListFits_false (hp : payload = [] ∨ 48 < payload.length) : slotListFits payload = false := by
  unfold slotListFits
  rw [Bool.and_eq_false_iff, decide_eq_false_iff_not, decide_eq_false_iff_not]
  exact hp.imp (fun h => by rw [h]; decide) (fun h => by omega)

theorem slotList_badLength (f : SlotRule) (hp : slotListFits payload = false) (s : State) :
    slotList f payload s = s.answer codeBadLength [] := if_neg (by rw [hp]; exact Bool.noConfusion)

/-- The slot lists (R80). -/
theorem slotList_turnedAway (h : Ready s kind tag payload) (hk : kind ∈ [0x10, 0x11, 0x12, 0x13])
    (hp : slotListFits payload = false) : exec (requestOf ⟨kind, tag, payload⟩) s =
      .next (s.take.reply kind tag [codeBadLength]).conclude := by
  simp only [List.mem_cons, List.not_mem_nil, or_false] at hk
  rcases hk with rfl | rfl | rfl | rfl
  · exact turnsAway h (if_neg (by rw [hp]; exact Bool.noConfusion))
  · exact turnsAway h (slotList_badLength _ hp _)
  · exact turnsAway h (slotList_badLength _ hp _)
  · exact turnsAway h (slotList_badLength _ hp _)

theorem planFits_false (hp : payload.length % 3 ≠ 0 ∨ payload = [] ∨ 144 < payload.length) :
    planFits payload = false := by
  unfold planFits
  simp only [Bool.and_eq_false_iff, beq_eq_false_iff_ne, decide_eq_false_iff_not]
  rcases hp with hp | rfl | hp
  · omega
  · simp
  · omega

theorem setProfileBody_badLength (hp : payload.length ≠ 11) (s : State) :
    setProfileBody payload s = s.answer codeBadLength [] := by
  unfold setProfileBody
  split
  · exact if_neg fun h => hp (by rw [List.length_cons, h])
  · rfl

theorem setParamBody_badLength (hp : payload.length ≠ 5) (s : State) :
    setParamBody payload s = s.answer codeBadLength [] := by
  unfold setParamBody
  split
  · exact if_neg fun h => hp (by rw [List.length_cons, h])
  · rfl

theorem setLeakActionBody_badLength (hp : payload.length ≠ 5) (s : State) :
    setLeakActionBody payload s = s.answer codeBadLength [] := by
  unfold setLeakActionBody
  split
  · exact absurd rfl hp
  · rfl

theorem setProfileBody_badIndex (hp : payload.length = 11) (hi : 8 ≤ (payload.getD 0 0).toNat)
    (s : State) : setProfileBody payload s = s.answer codeBadIndex [] := by
  match payload, hp, hi with
  | number :: fields, hp, hi =>
    have hf : fields.length = 10 := Nat.succ.inj hp
    exact (if_pos hf).trans (dif_neg (Nat.not_lt.mpr hi))

theorem setParamBody_badIndex (hp : payload.length = 5) (hi : 16 ≤ (payload.getD 0 0).toNat)
    (s : State) : setParamBody payload s = s.answer codeBadIndex [] := by
  match payload, hp, hi with
  | id :: value, hp, hi =>
    have hv : value.length = 4 := Nat.succ.inj hp
    exact (if_pos hv).trans (dif_neg (Nat.not_lt.mpr hi))

theorem leakActionOf_none {n : Nat} (h : 3 ≤ n) : leakActionOf n = none := by
  match n, h with
  | n + 3, _ => rfl

theorem setLeakActionBody_badIndex (hp : payload.length = 5)
    (hi : 8 ≤ (payload.getD 0 0).toNat ∨ 3 ≤ (payload.getD 1 0).toNat) (s : State) :
    setLeakActionBody payload s = s.answer codeBadIndex [] := by
  match payload, hp, hi with
  | [zone, action, g1, g0, isolate], _, hi =>
    have none : zoneOf zone.toNat = none ∨ leakActionOf action.toNat = none :=
      hi.imp (fun h => dif_neg (Nat.not_lt.mpr h)) leakActionOf_none
    unfold setLeakActionBody
    dsimp only
    split
    · rename_i hz ha
      rcases none with h | h
      · rw [h] at hz; cases hz
      · rw [h] at ha; cases ha
    · rfl

end Sys2Proof.Machine

section
open Sys2Proof Sys2Proof.Machine

/-- Settles O19: the length of each kind, and the bound of each index. -/
theorem lengthsAndIndices : Obligations.LengthsAndIndices := by
  rintro s ⟨kind, tag, payload⟩ hr
  dsimp only at hr ⊢
  refine ⟨fun h => ?_, fun b hp h => ?_, fun h => ?_⟩
  · rcases h with ⟨hk, hp⟩ | ⟨hk, hp⟩ | ⟨hk, hp⟩ | ⟨hk, hp⟩ | ⟨hk, hp⟩ | ⟨hk, hp⟩ | ⟨hk, hp⟩ | ⟨hk, hp⟩
    · by_cases h38 : kind = 0x38
      · subst h38; exact saveConfig_turnedAway hr hp
      · exact noPayload_turnedAway hr hk h38 hp
    · by_cases h01 : kind = 0x01
      · subst h01; exact identify_turnedAway hr hp
      · exact indexed_turnedAway hr ((List.mem_cons.mp hk).resolve_left h01) hp
    · exact slotList_turnedAway hr hk (slotListFits_false hp)
    · subst hk; exact turnsAway hr (if_neg (by rw [planFits_false hp]; exact Bool.noConfusion))
    · subst hk; exact turnsAway hr (setProfileBody_badLength hp _)
    · simp only [List.mem_cons, List.not_mem_nil, or_false] at hk
      rcases hk with rfl | rfl
      · exact turnsAway hr (setParamBody_badLength hp _)
      · exact turnsAway hr (setLeakActionBody_badLength hp _)
    · subst hk; exact turnsAway hr (if_neg hp)
    · subst hk; exact turnsAway hr (if_neg (by rw [hp]; exact Bool.noConfusion))
  · subst hp
    simp only [List.mem_cons, List.not_mem_nil, or_false] at h
    rcases h with ⟨rfl, hb⟩ | ⟨rfl, hb⟩ | ⟨rfl, hb⟩ | ⟨rfl | rfl, hb⟩ | ⟨rfl | rfl, hb⟩ | ⟨rfl, hb⟩ <;>
      exact turnsAway hr (indexed_bad hb ..)
  · rcases h with ⟨rfl, hp, hi⟩ | ⟨rfl, hp, hi⟩ | ⟨rfl, hp, hi⟩
    · exact turnsAway hr (setProfileBody_badIndex hp hi _)
    · exact turnsAway hr (setParamBody_badIndex hp hi _)
    · exact turnsAway hr (setLeakActionBody_badIndex hp hi _)

end
end

