-- ==== Sys2Proof/Proofs/Modules.lean ====
section
/-! PROOF. What the slots' changes and the Account's figures leave of the modules: their records, the
Shelf Command Queue, the Allocator and the fault banks (R34, R56, R140, R141). -/

namespace Sys2Proof.Machine

variable {e : Env} {a b c : Rack}

/-! ### What a slot's change leaves -/

/-- Two racks hold the same modules, shelf bus, Allocator, fault banks and shortfall flag. -/
structure SameModules (a b : Rack) : Prop where
  psu : b.psu = a.psu
  bu : b.bu = a.bu
  bus : b.bus = a.bus
  rech : b.rech = a.rech
  faults : b.faults = a.faults
  shortfall : b.acct.shortfall = a.acct.shortfall

theorem SameModules.refl (r : Rack) : SameModules r r := ⟨rfl, rfl, rfl, rfl, rfl, rfl⟩

theorem SameModules.trans (h : SameModules a b) (k : SameModules b c) : SameModules a c :=
  ⟨k.psu.trans h.psu, k.bu.trans h.bu, k.bus.trans h.bus, k.rech.trans h.rech,
    k.faults.trans h.faults, k.shortfall.trans h.shortfall⟩

theorem SameModules.ite {p : Prop} [Decidable p] (h : SameModules a b) (k : SameModules a c) :
    SameModules a (if p then b else c) := by
  split <;> assumption

theorem forEach_sameModules {α : Type} {f : α → Rack → Rack} (h : ∀ x r, SameModules r (f x r)) :
    ∀ (xs : List α) (r : Rack), SameModules r (forEach f xs r)
  | [], r => .refl r
  | x :: xs, r => (h x r).trans (forEach_sameModules h xs (f x r))

theorem raise_sameModules (e : Env) (c : NotifClass) (k n v : Nat) (r : Rack) :
    SameModules r (raise e c k n v r) := ⟨rfl, rfl, rfl, rfl, rfl, rfl⟩

theorem followHead_sameModules (e : Env) (r : Rack) : SameModules r (followHead e r) := by
  unfold followHead
  split <;> exact .ite (.refl r) ⟨rfl, rfl, rfl, rfl, rfl, rfl⟩

theorem followQueue_sameModules (e : Env) (n : Fin 48) (old new : SlotState) (r : Rack) :
    SameModules r (followQueue e n old new r) := by
  have h : ∀ r', SameModules r r' → SameModules r (followHead e r') :=
    fun r' k => k.trans (followHead_sameModules e r')
  exact .ite (h _ ⟨rfl, rfl, rfl, rfl, rfl, rfl⟩)
    (.ite (h _ ⟨rfl, rfl, rfl, rfl, rfl, rfl⟩) (.refl r))

theorem changeRecord_sameModules (e : Env) (n : Fin 48) (x : SlotRec) (r : Rack) :
    SameModules r (changeRecord e n x r) := by
  have h : SameModules r (takeRecord e n x r) := ⟨rfl, rfl, rfl, rfl, rfl, rfl⟩
  exact (h.trans (followQueue_sameModules e n _ _ _)).trans (raise_sameModules ..)

theorem enter_sameModules (e : Env) (n : Fin 48) (st : SlotState) (c : Cause) (r : Rack) :
    SameModules r (enter e n st c r) := changeRecord_sameModules ..

theorem endDrain_sameModules (e : Env) (n : Fin 48) (c : Cause) (r : Rack) :
    SameModules r (endDrain e n c r) := by
  unfold endDrain
  split
  · exact enter_sameModules ..
  · exact .refl r

theorem beginDrain_sameModules (e : Env) (n : Fin 48) (q : DrainRequest) (r : Rack) :
    SameModules r (beginDrain e id n q r) := by
  unfold beginDrain
  dsimp only
  have h := changeRecord_sameModules e n { (r.slots[n]).enter e.now .draining q.cause with
    drain := some ⟨q.target, ⟨e.now, drainLength e n q⟩⟩ } r
  exact .ite (h.trans (endDrain_sameModules ..)) (.ite (h.trans (endDrain_sameModules ..)) h)

theorem holdDrain_sameModules (e : Env) (n : Fin 48) (d : Drain) (r : Rack) :
    SameModules r (holdDrain e n d r) := by
  constructor <;> simp only [holdDrain, raise_psu, raise_bu, raise_bus, raise_rech, raise_faults,
    raise_acct]

theorem amendDrain_sameModules (e : Env) (n : Fin 48) (q : DrainRequest) (r : Rack) :
    SameModules r (amendDrain e n q r) := by
  unfold amendDrain
  split
  · exact .ite (.refl r) (holdDrain_sameModules ..)
  · exact .refl r

theorem drain_sameModules (e : Env) (q : DrainRequest) (n : Fin 48) (r : Rack) :
    SameModules r (drain e q n r) := by
  unfold drain drainWith
  split
  · exact beginDrain_sameModules ..
  · exact enter_sameModules ..
  · exact amendDrain_sameModules ..
  · exact enter_sameModules ..
  · exact enter_sameModules ..
  · exact .refl r

/-- A shed selection moves slots alone (R58). -/
theorem shedSelection_sameModules (e : Env) (r : Rack) : SameModules r (shedSelection e r) := by
  unfold shedSelection
  dsimp only
  have h := forEach_sameModules (drain_sameModules e .shed) (selected e r) r
  have h' : SameModules r { forEach (drain e .shed) (selected e r) r with
      acct.recorded := uncovered e (forEach (drain e .shed) (selected e r) r) } :=
    h.trans ⟨rfl, rfl, rfl, rfl, rfl, rfl⟩
  exact .ite h' (h'.trans (raise_sameModules ..))

theorem followDeficit_sameModules (e : Env) (r : Rack) : SameModules r (followDeficit e r) :=
  .ite (shedSelection_sameModules e r) ⟨rfl, rfl, rfl, rfl, rfl, rfl⟩

theorem capacityRestored_sameModules (e : Env) (r : Rack) : SameModules r (capacityRestored e r) := by
  unfold capacityRestored restore
  have h := raise_sameModules e .capacity 5 r.acct.nOn r.acct.a r
  exact .ite (h.trans (forEach_sameModules (fun _ r => .ite (enter_sameModules ..) (.refl r)) _ _)) h

theorem holdFigure_sameModules (x : Account) (r : Rack) (h : x.shortfall = r.acct.shortfall) :
    SameModules r (holdFigure x r) := .ite (.refl r) ⟨rfl, rfl, rfl, rfl, rfl, h⟩

/-! ### The Shelf Command Queue, entry by entry (R34, R35) -/

theorem entry_discard_self (q : Bus) (p : Pos) : (q.discard p).entry p = none := by
  unfold Bus.entry Bus.discard
  rw [List.find?_eq_none]
  intro x hx
  simpa using (List.mem_filter.mp hx).2

theorem entry_discard_other (q : Bus) {p p' : Pos} (h : p ≠ p') :
    (q.discard p).entry p' = q.entry p' := by
  unfold Bus.entry Bus.discard
  rw [List.find?_filter]
  congr 1
  funext x
  by_cases hx : x.pos = p'
  · simp [hx, h.symm]
  · simp [hx]

theorem entry_accept_other (q : Bus) (now : Time) {p p' : Pos} (c : ShelfCmd) (h : p ≠ p') :
    (q.accept now p c).entry p' = q.entry p' := by
  refine Eq.trans ?_ (entry_discard_other q h)
  unfold Bus.accept Bus.entry
  simp [List.find?_append, h]

theorem offer_closed (q : Bus) (now : Time) (p : Pos) (c : ShelfCmd) : q.offer now false p c = q := rfl

/-- An offer for a position leaves every other position's entry (R34). -/
theorem entry_offer_other (q : Bus) (now : Time) (o : Bool) {p p' : Pos} (c : ShelfCmd) (h : p ≠ p') :
    (q.offer now o p c).entry p' = q.entry p' := by
  have accepted := entry_accept_other q now c h
  unfold Bus.offer
  split
  · rfl
  · split
    · exact accepted
    · split
      · rfl
      · split
        · rfl
        · exact accepted

/-! ### Offers of the Allocator (R140, R143) -/

/-- Offers reach none but BUs, and of a COMMISSIONED part none but present ones; presence is kept. -/
structure OffersToPresent (e : Env) (a b : Rack) : Prop where
  present : ∀ j : Fin 12, (b.bu[j]).present = (a.bu[j]).present
  psu : ∀ i : Fin 18, b.bus.entry (.psu i) = a.bus.entry (.psu i)
  absent : e.commissioned = true → ∀ j : Fin 12, (a.bu[j]).present = false →
    b.bus.entry (.bu j) = a.bus.entry (.bu j)

theorem OffersToPresent.of_eq (h : b.bu = a.bu) (k : b.bus = a.bus) : OffersToPresent e a b :=
  ⟨fun _ => by rw [h], fun _ => by rw [k], fun _ _ _ => by rw [k]⟩

theorem OffersToPresent.refl (r : Rack) : OffersToPresent e r r := .of_eq rfl rfl

theorem OffersToPresent.trans (h : OffersToPresent e a b) (k : OffersToPresent e b c) :
    OffersToPresent e a c where
  present j := (k.present j).trans (h.present j)
  psu i := (k.psu i).trans (h.psu i)
  absent he j hj := (k.absent he j ((h.present j).trans hj)).trans (h.absent he j hj)

theorem OffersToPresent.ite {p : Prop} [Decidable p] (h : OffersToPresent e a b)
    (k : OffersToPresent e a c) : OffersToPresent e a (if p then b else c) := by
  split <;> assumption

theorem forEach_offers {α : Type} {f : α → Rack → Rack} (h : ∀ x r, OffersToPresent e r (f x r)) :
    ∀ (xs : List α) (r : Rack), OffersToPresent e r (forEach f xs r)
  | [], r => .refl r
  | x :: xs, r => (h x r).trans (forEach_offers h xs (f x r))

theorem sendSetpoint_bu (e : Env) (j : Fin 12) (u : Nat) (r : Rack) :
    (sendSetpoint e j u r).bu = change r.bu j fun x => { x with setpoint := u } := rfl

theorem sendSetpoint_present (e : Env) (j k : Fin 12) (u : Nat) (r : Rack) :
    ((sendSetpoint e j u r).bu[k]).present = (r.bu[k]).present := by
  rw [sendSetpoint_bu]
  exact change_figure _ _ _ _ BuRec.present fun _ => rfl

/-- A position that a COMMISSIONED part does not have takes no offer (R24, R34). -/
theorem takesOffers_absent {r : Rack} {j : Fin 12} (he : e.commissioned = true)
    (h : (r.bu[j]).present = false) : takesOffers e r (.bu j) = false := by
  have unread : readsBu e r j = false := by unfold readsBu; rw [he, h]; rfl
  simp only [takesOffers, addressed, polled, unread, Bool.and_false, Bool.false_and]

theorem sendSetpoint_entry_other (e : Env) {j : Fin 12} {p : Pos} (u : Nat) (r : Rack)
    (h : Pos.bu j ≠ p) : (sendSetpoint e j u r).bus.entry p = r.bus.entry p :=
  entry_offer_other r.bus _ _ _ h

theorem sendSetpoint_offers (e : Env) (j : Fin 12) (u : Nat) (r : Rack) :
    OffersToPresent e r (sendSetpoint e j u r) where
  present k := sendSetpoint_present ..
  psu i := sendSetpoint_entry_other _ _ _ (by simp)
  absent he k hk := by
    by_cases hjk : j = k
    · subst hjk
      have closed : takesOffers e { r with bu := change r.bu j fun x => { x with setpoint := u } }
          (.bu j) = false := takesOffers_absent he ((sendSetpoint_present e j j u r).trans hk)
      unfold sendSetpoint offer
      rw [closed, offer_closed]
    · exact sendSetpoint_entry_other _ _ _ (by simpa using hjk)

theorem sendSetpoints_offers (e : Env) (holds : Fin 12 → Bool) (p : Nat) (r : Rack) :
    OffersToPresent e r (sendSetpoints e holds p r) := by
  refine forEach_offers (fun j r => ?_) _ r
  split
  · exact sendSetpoint_offers ..
  · exact .ite (sendSetpoint_offers ..) (.refl r)

theorem followRc_offers (r : Rack) : OffersToPresent e r (followRc r) :=
  .ite (.refl r) (.of_eq rfl rfl)

theorem startFrame_offers (e : Env) (t : Time) (pool : Nat) (r : Rack) :
    OffersToPresent e r (startFrame e t pool r) := by
  unfold startFrame
  dsimp only
  refine OffersToPresent.trans ?_ (sendSetpoints_offers ..)
  refine OffersToPresent.trans ?_ (followRc_offers _)
  exact .of_eq rfl rfl

theorem poolUpdate_offers (e : Env) (r : Rack) : OffersToPresent e r (poolUpdate e r) := by
  unfold poolUpdate
  dsimp only
  have h : OffersToPresent e r { r with rech.candidate := candidatePool e r } := .of_eq rfl rfl
  exact .ite (h.trans (startFrame_offers ..)) h

/-- A frame that starts on a pool of 0 has the BUs that join as members of share 0 (R140, R142). -/
theorem startFrame_members (e : Env) (t : Time) (r : Rack) (j : Fin 12) :
    (startFrame e t 0 r).rech.members[j] = if (r.bu[j]).joins then some (memberOf 0) else none := by
  unfold startFrame
  dsimp only
  rw [(sendSetpoints_sameRecharge ..).1, followRc_rech]
  exact formMembers_zero _ _ rfl j

/-! ### The pool's update in a shortfall (R56, R141) -/

/-- The frame restarts where a shortfall is entered while a frame runs on a pool above 0. -/
def Restarts (a b : Rack) : Prop :=
  a.acct.shortfall = false ∧ b.acct.shortfall = true ∧ a.rech.frame ≠ none ∧ 0 < a.rech.pool

theorem poolUpdate_restarts {r : Rack} (h : r.acct.shortfall = true) (hf : r.rech.frame ≠ none)
    (hp : 0 < r.rech.pool) : poolUpdate e r = startFrame e e.now 0 { r with rech.candidate := 0 } := by
  unfold poolUpdate
  rw [show candidatePool e r = 0 by simp [candidatePool, h]]
  exact if_pos (by simpa [Option.isSome_iff_ne_none] using ⟨hf, hp⟩)

theorem poolUpdate_stays {r : Rack} (h : r.acct.shortfall = true)
    (hn : ¬(r.rech.frame ≠ none ∧ 0 < r.rech.pool)) :
    poolUpdate e r = { r with rech.candidate := 0 } := by
  unfold poolUpdate
  rw [show candidatePool e r = 0 by simp [candidatePool, h]]
  exact if_neg (by simpa [Option.isSome_iff_ne_none] using hn)

/-- What the Account's figures make of the modules: nothing but, at an entry to shortfall, the fault
logged, and the restart of a frame on a pool of 0 (R56, R141). -/
structure AccountTurn (e : Env) (a b : Rack) : Prop where
  psu : b.psu = a.psu
  zeroed : Zeroed a b
  offers : OffersToPresent e a b
  kept : ¬Restarts a b → b.bus = a.bus ∧ b.rech.members = a.rech.members
  formed : Restarts a b → ∀ j : Fin 12, b.rech.members[j] =
    if (a.bu[j]).joins then some (memberOf 0) else none
  unlocked : e.commissioned = false → b.bu = a.bu ∧ b.bus = a.bus ∧ b.faults = a.faults

theorem AccountTurn.of_cleared (hp : b.psu = a.psu) (hu : b.bu = a.bu) (hb : b.bus = a.bus)
    (hr : b.rech = a.rech) (hf : b.faults = a.faults)
    (hs : a.acct.shortfall = false → b.acct.shortfall = false) : AccountTurn e a b where
  psu := hp
  zeroed := .of_eq hu
  offers := .of_eq hu hb
  kept _ := ⟨hb, by rw [hr]⟩
  formed h := by
    obtain ⟨ha, hb, -, -⟩ := h
    rw [hs ha] at hb
    cases hb
  unlocked _ := ⟨hu, hb, hf⟩

theorem SameModules.accountTurn (h : SameModules a b) : AccountTurn e a b :=
  .of_cleared h.psu h.bu h.bus h.rech h.faults fun k => h.shortfall.trans k

theorem Restarts.congr {a' b' : Rack} (h : SameModules a a') (k : SameModules b b') :
    Restarts a' b' ↔ Restarts a b := by
  unfold Restarts
  rw [h.shortfall, k.shortfall, h.rech]

theorem AccountTurn.congr {a' b' : Rack} (h : SameModules a a') (t : AccountTurn e a b)
    (k : SameModules b b') : AccountTurn e a' b' where
  psu := by rw [k.psu, t.psu, h.psu]
  zeroed j := by rw [k.bu, h.bu]; exact t.zeroed j
  offers := by
    refine ⟨fun j => ?_, fun i => ?_, fun he j hj => ?_⟩
    · rw [k.bu, h.bu]; exact t.offers.present j
    · rw [k.bus, h.bus]; exact t.offers.psu i
    · rw [h.bu] at hj
      rw [k.bus, h.bus]
      exact t.offers.absent he j hj
  kept hn := by
    rw [Restarts.congr h k] at hn
    rw [k.bus, h.bus, k.rech, h.rech]
    exact t.kept hn
  formed hn := by
    rw [Restarts.congr h k] at hn
    rw [k.rech, h.bu]
    exact t.formed hn
  unlocked he := by rw [k.bu, h.bu, k.bus, h.bus, k.faults, h.faults]; exact t.unlocked he

/-- An entry to shortfall, of a COMMISSIONED part alone (R56). -/
theorem enterShortfall_turn {r : Rack} (hs : r.acct.shortfall = false) (he : e.commissioned = true) :
    AccountTurn e r (enterShortfall e r) := by
  let u := logFault e .capacityShort r.acct.nOn
    { r with acct := { r.acct with shortfall := true, recorded := 0 } }
  have hu : u.acct.shortfall = true := by simp only [u, logFault_acct]
  have hup : u.psu = r.psu := by simp only [u, logFault_psu]
  have hub : u.bu = r.bu := by simp only [u, logFault_bu]
  have huq : u.bus = r.bus := by simp only [u, logFault_bus]
  have hur : u.rech = r.rech := by simp only [u, logFault_rech]
  have hk := poolUpdate_keepsAccount e u
  obtain ⟨kp, ka, -⟩ := hk
  have flag : (poolUpdate e u).acct.shortfall = true := by rw [ka]; exact hu
  have restarts : Restarts r (poolUpdate e u) ↔ r.rech.frame ≠ none ∧ 0 < r.rech.pool :=
    ⟨fun h => h.2.2, fun h => ⟨hs, flag, h⟩⟩
  refine AccountTurn.congr (a := r) (b := poolUpdate e u) (.refl r) ?_
    ((raise_sameModules ..).trans (shedSelection_sameModules ..))
  refine ⟨kp.trans hup, Zeroed.trans (.of_eq hub) (poolUpdate_zeroed e u hu),
    OffersToPresent.trans (.of_eq hub huq) (poolUpdate_offers e u), fun h => ?_, fun h j => ?_,
    fun h => by rw [he] at h; cases h⟩
  · rw [restarts, ← hur] at h
    rw [poolUpdate_stays hu h]
    exact ⟨huq, by rw [hur]⟩
  · rw [restarts, ← hur] at h
    rw [poolUpdate_restarts hu h.1 h.2, startFrame_members]
    exact congrArg (fun v : Vector BuRec 12 => if (v[j]).joins then some (memberOf 0) else none) hub

theorem shortfall_commissioned {r : Rack} (h : shortfallHolds e r = true) : e.commissioned = true := by
  unfold shortfallHolds at h
  simp only [Bool.and_eq_true] at h
  exact h.1.1

theorem evaluateShortfall_turn (e : Env) (r : Rack) : AccountTurn e r (evaluateShortfall e r) := by
  unfold evaluateShortfall
  split
  · rename_i hs
    split
    · exact (followDeficit_sameModules e r).accountTurn
    · exact .of_cleared rfl rfl rfl rfl rfl fun h => by rw [h] at hs; cases hs
  · rename_i hs
    split
    · exact enterShortfall_turn (by simpa using hs) (shortfall_commissioned ‹_›)
    · exact (SameModules.refl r).accountTurn

theorem computeAccount_turn (e : Env) (r : Rack) : AccountTurn e r (computeAccount e r) := by
  unfold computeAccount
  split
  · dsimp only
    have hold := holdFigure_sameModules (figures e r) r rfl
    have raised : SameModules r (if (figures e r).redundancy = r.acct.redundancy then
        holdFigure (figures e r) r
        else raise e .capacity 1 (figures e r).nOn (figures e r).redundancy.code
          (holdFigure (figures e r) r)) := .ite hold (hold.trans (raise_sameModules ..))
    generalize (if (figures e r).redundancy = r.acct.redundancy then _ else _ : Rack) = u at raised ⊢
    have back : SameModules u r := ⟨raised.psu.symm, raised.bu.symm, raised.bus.symm,
      raised.rech.symm, raised.faults.symm, raised.shortfall.symm⟩
    refine AccountTurn.congr back (evaluateShortfall_turn e u) ?_
    exact .ite (capacityRestored_sameModules ..) (.refl _)
  · exact (SameModules.refl r).accountTurn

theorem lockHanded_turn (e : Env) (r : Rack) : AccountTurn e r (lockHanded e r) :=
  .congr (.refl r) (computeAccount_turn e r) ⟨rfl, rfl, rfl, rfl, rfl, rfl⟩

/-! ### The slots that the Account's figures leave (R58, R60) -/

/-- A slot that is neither powered nor SHED keeps its record. -/
theorem computeAccount_slot (e : Env) (r : Rack) {n : Fin 48} (h : (r.slots[n]).state.powered = false)
    (k : (r.slots[n]).state ≠ .shed) : (computeAccount e r).slots[n] = r.slots[n] := by
  unfold computeAccount
  split
  · dsimp only
    have hold : (holdFigure (figures e r) r).slots = r.slots := by unfold holdFigure; split <;> rfl
    have raised : (if (figures e r).redundancy = r.acct.redundancy then holdFigure (figures e r) r
        else raise e .capacity 1 (figures e r).nOn (figures e r).redundancy.code
          (holdFigure (figures e r) r)).slots = r.slots := by
      split
      · exact hold
      · rw [raise_slots, hold]
    generalize (if (figures e r).redundancy = r.acct.redundancy then _ else _ : Rack) = u at raised ⊢
    have evaluated : (evaluateShortfall e u).slots[n] = u.slots[n] :=
      (evaluateShortfall_handsOn (still := True) e u).rest n (by rw [raised]; exact h)
    have same : u.slots[n] = r.slots[n] := by rw [raised]
    split
    · unfold capacityRestored
      dsimp only
      split
      · rw [restore_eq, restoreEach_kept, raise_slots, evaluated, same]
        rw [raise_slots, evaluated, same]; exact k
      · exact (congrArg (fun v : Vector SlotRec 48 => v[n]) (raise_slots ..)).trans
          (evaluated.trans same)
    · rw [evaluated, same]
  · rfl

theorem lockHanded_slot (e : Env) (r : Rack) {n : Fin 48} (h : (r.slots[n]).state.powered = false)
    (k : (r.slots[n]).state ≠ .shed) : (lockHanded e r).slots[n] = r.slots[n] :=
  computeAccount_slot e r h k

end Sys2Proof.Machine
end

