-- ==== Sys2Proof/Proofs/LockAndUnlock.lean ====
section
/-! PROOF. Slots, modules and leak zones after a lock and a DECOMMISSION (O35). -/

namespace Sys2Proof.Machine

variable {e : Env} {a b c : Rack}

/-! ### The tables of a lock (R7, R40, R43, R44) -/

theorem mem_allPositions (p : Pos) : p ∈ allPositions := by
  cases p with
  | psu i => revert i; decide
  | bu j => revert j; decide

theorem discardEach_entry (r : Rack) (p : Pos) : ∀ (ps : List Pos) (q : Bus),
    (forEach (fun p q => if r.present p then q else q.discard p) ps q).entry p =
      if p ∈ ps ∧ r.present p = false then none else q.entry p
  | [], q => (if_neg (by simp)).symm
  | p' :: ps, q => by
    refine (discardEach_entry r p ps _).trans ?_
    dsimp only
    by_cases hp : p' = p
    · subst hp
      cases h : r.present p' with
      | true => simp
      | false => simp [entry_discard_self]
    · have kept : (if r.present p' = true then q else q.discard p').entry p = q.entry p := by
        split
        · rfl
        · exact entry_discard_other q hp
      rw [kept]
      simp [Ne.symm hp]

theorem discardAbsent_entry (r : Rack) (p : Pos) :
    (discardAbsent r).bus.entry p = if r.present p = true then r.bus.entry p else none := by
  refine (discardEach_entry r p allPositions r.bus).trans ?_
  cases h : r.present p <;> simp [mem_allPositions]

theorem lockTables_psu (c : CommRecord) (r : Rack) (i : Fin 18) :
    (lockTables c r).psu[i] = (r.psu[i]).lock (c.psuPresent i) (c.psus[i]).rated := ofFn_slot ..

theorem lockTables_bu (c : CommRecord) (r : Rack) (j : Fin 12) :
    (lockTables c r).bu[j] = (r.bu[j]).lock (c.buPresent j) (c.bus[j]).rated := ofFn_slot ..

theorem lockTables_entry (c : CommRecord) (r : Rack) (p : Pos) :
    (lockTables c r).bus.entry p = if (lockTables c r).present p = true then r.bus.entry p else none :=
  discardAbsent_entry ..

/-! ### The members that a lock takes from the set (R140) -/

theorem Zeroed.figure {α : Type} (h : Zeroed a b) (g : BuRec → α)
    (hg : ∀ x : BuRec, g { x with setpoint := 0 } = g x) (j : Fin 12) : g b.bu[j] = g a.bu[j] := by
  rcases h j with h | h
  · rw [h]
  · rw [h, hg]

/-- Members leave the set: what stays of the rack, and of a BU that was no member. -/
structure MembersLeave (e : Env) (a b : Rack) : Prop where
  account : KeepsAccount a b
  zeroed : Zeroed a b
  offers : OffersToPresent e a b
  rech : b.rech = { a.rech with members := b.rech.members }
  apart : ∀ j : Fin 12, a.rech.members[j] = none →
    b.rech.members[j] = none ∧ b.bus.entry (.bu j) = a.bus.entry (.bu j)

theorem MembersLeave.refl (r : Rack) : MembersLeave e r r :=
  ⟨.refl r, .of_eq rfl, .refl r, rfl, fun _ h => ⟨h, rfl⟩⟩

theorem MembersLeave.trans (h : MembersLeave e a b) (k : MembersLeave e b c) : MembersLeave e a c where
  account := h.account.trans k.account
  zeroed := h.zeroed.trans k.zeroed
  offers := h.offers.trans k.offers
  rech := by rw [k.rech, h.rech]
  apart j hj := by
    obtain ⟨hm, he⟩ := h.apart j hj
    obtain ⟨km, ke⟩ := k.apart j hm
    exact ⟨km, ke.trans he⟩

theorem followRc_leaves (r : Rack) : MembersLeave e r (followRc r) where
  account := followRc_keepsAccount r
  zeroed := .of_eq (by unfold followRc reportRc; split <;> rfl)
  offers := followRc_offers r
  rech := by rw [followRc_rech]
  apart j h := by
    rw [followRc_rech]
    refine ⟨h, ?_⟩
    unfold followRc reportRc
    split <;> rfl

theorem sendZero_leaves (e : Env) (j : Fin 12) {x : Member} {r : Rack} (h : r.rech.members[j] = some x) :
    MembersLeave e r (sendSetpoint e j 0 { r with rech.members := put r.rech.members j none }) where
  account := KeepsAccount.trans ⟨rfl, rfl, rfl, rfl, rfl, rfl, rfl, rfl, rfl⟩
    (sendSetpoint_keepsAccount ..)
  zeroed := by
    refine Zeroed.trans ?_ (sendZero_zeroed e j _)
    exact .of_eq rfl
  offers := by
    refine OffersToPresent.trans ?_ (sendSetpoint_offers ..)
    exact .of_eq rfl rfl
  rech := rfl
  apart k hk := by
    have hjk : j ≠ k := by rintro rfl; rw [h] at hk; cases hk
    exact ⟨(put_other _ _ _ _ hjk).trans hk, sendSetpoint_entry_other _ _ _ (by simpa using hjk)⟩

theorem memberLeave_leaves (e : Env) (j : Fin 12) (r : Rack) : MembersLeave e r (memberLeave e j r) := by
  unfold memberLeave
  split
  · exact (sendZero_leaves e j ‹_›).trans (followRc_leaves _)
  · exact .refl r

theorem memberLeave_members (e : Env) (j k : Fin 12) (r : Rack) :
    (memberLeave e j r).rech.members[k] = if j = k then none else r.rech.members[k] := by
  unfold memberLeave
  split
  · rw [followRc_rech]
    exact put_get ..
  · rename_i h
    split
    · rename_i hjk; rw [← hjk]; exact h
    · rfl

theorem leaveMembers_leaves (e : Env) (j : Fin 12) (r : Rack) : MembersLeave e r (leaveMembers e j r) := by
  unfold leaveMembers
  split
  · exact .refl r
  · exact memberLeave_leaves ..

theorem leaveMembers_members (e : Env) (j k : Fin 12) (r : Rack) :
    (leaveMembers e j r).rech.members[k] =
      if j = k ∧ (r.bu[k]).state.recharges = false then none else r.rech.members[k] := by
  unfold leaveMembers
  split
  · rename_i h
    refine (if_neg ?_).symm
    rintro ⟨rfl, k⟩
    rw [h] at k
    cases k
  · rename_i h
    refine (memberLeave_members e j k r).trans (if_congr ⟨?_, And.left⟩ rfl rfl)
    rintro rfl
    exact ⟨rfl, by simpa using h⟩

theorem leaveEach (e : Env) : ∀ (l : List (Fin 12)) (r : Rack),
    MembersLeave e r (forEach (leaveMembers e) l r) ∧ ∀ k : Fin 12,
      (forEach (leaveMembers e) l r).rech.members[k] =
        if k ∈ l ∧ (r.bu[k]).state.recharges = false then none else r.rech.members[k]
  | [], r => ⟨.refl r, fun _ => (if_neg (by simp)).symm⟩
  | j :: l, r => by
    have first := leaveMembers_leaves e j r
    obtain ⟨rest, members⟩ := leaveEach e l (leaveMembers e j r)
    refine ⟨first.trans rest, fun k => (members k).trans ?_⟩
    have state := first.zeroed.figure (fun x => x.state.recharges) (fun _ => rfl) k
    rw [leaveMembers_members, state]
    generalize (r.bu[k]).state.recharges = recharges
    by_cases hj : j = k
    · cases recharges <;> simp [hj]
    · simp [hj, Ne.symm hj]

theorem lockMembers_leaves (e : Env) (r : Rack) : MembersLeave e r (lockMembers e r) :=
  (leaveEach e _ r).1

theorem lockMembers_members (e : Env) (r : Rack) (k : Fin 12) : (lockMembers e r).rech.members[k] =
    if (r.bu[k]).state = .idle ∨ (r.bu[k]).state = .charging then r.rech.members[k] else none := by
  have h := (leaveEach e (List.finRange 12) r).2 k
  unfold lockMembers
  rw [h]
  generalize (r.bu[k]).state = st
  cases st <;> simp [BuState.recharges]

/-! ### The slots of a lock and of a DECOMMISSION (R7, R8) -/

/-- A lock's turn of one slot. -/
def lockSlot (e : Env) (n : Fin 48) (r : Rack) : Rack :=
  if (r.slots[n]).state = .disabled ∧ e.usable n then enter e n .off .configuration r else r

theorem lockSlots_eq (e : Env) (r : Rack) : lockSlots e r = forEach (lockSlot e) (List.finRange 48) r :=
  rfl

theorem lockSlot_state (e : Env) (n m : Fin 48) (r : Rack) : ((lockSlot e n r).slots[m]).state =
    if n = m ∧ (r.slots[m]).state = .disabled ∧ e.usable m = true then .off
    else (r.slots[m]).state := by
  unfold lockSlot
  by_cases hn : n = m
  · subst hn
    by_cases h : (r.slots[n]).state = .disabled ∧ e.usable n = true
    · rw [if_pos h, if_pos ⟨rfl, h⟩, enter_self]
      rfl
    · rw [if_neg h, if_neg fun k => h k.2]
  · refine Eq.trans ?_ (if_neg fun k => hn k.1).symm
    split
    · exact congrArg SlotRec.state (enter_other e n m _ _ r hn)
    · rfl

theorem lockEach_state (e : Env) (m : Fin 48) : ∀ (l : List (Fin 48)) (r : Rack),
    ((forEach (lockSlot e) l r).slots[m]).state =
      if m ∈ l ∧ (r.slots[m]).state = .disabled ∧ e.usable m = true then .off
      else (r.slots[m]).state
  | [], r => (if_neg (by simp)).symm
  | n :: l, r => by
    refine (lockEach_state e m l (lockSlot e n r)).trans ?_
    rw [lockSlot_state]
    generalize (r.slots[m]).state = st
    by_cases hn : n = m
    · by_cases h : st = .disabled ∧ e.usable m = true
      · simp [hn, h]
      · simp [hn, h]
    · simp [hn, Ne.symm hn]

theorem lockSlots_state (e : Env) (r : Rack) (n : Fin 48) (h : (r.slots[n]).state = .disabled) :
    ((lockSlots e r).slots[n]).state = if e.usable n = true then .off else .disabled := by
  rw [lockSlots_eq, lockEach_state]
  generalize (r.slots[n]).state = st at h ⊢
  subst h
  simp

theorem lockSlots_sameModules (e : Env) (r : Rack) : SameModules r (lockSlots e r) :=
  forEach_sameModules (fun _ r => .ite (enter_sameModules ..) (.refl r)) _ r

theorem unlockSlots_sameModules (e : Env) (r : Rack) : SameModules r (unlockSlots e r) :=
  forEach_sameModules (fun _ r => .ite (.refl r) (enter_sameModules ..)) _ r

theorem enter_lastFault (e : Env) (n m : Fin 48) (st : SlotState) (c : Cause) (r : Rack) :
    ((enter e n st c r).slots[m]).lastFault = (r.slots[m]).lastFault := by
  by_cases h : n = m
  · subst h
    rw [enter_self]
    rfl
  · exact congrArg SlotRec.lastFault (enter_other e n m st c r h)

theorem disableEach_lastFault (e : Env) (m : Fin 48) : ∀ (l : List (Fin 48)) (r : Rack),
    ((forEach (fun n r => if (r.slots[n]).state = .disabled then r
      else enter e n .disabled .configuration r) l r).slots[m]).lastFault = (r.slots[m]).lastFault
  | [], _ => rfl
  | n :: l, r => by
    refine (disableEach_lastFault e m l _).trans ?_
    dsimp only
    split
    · rfl
    · exact enter_lastFault ..

/-! ### The zones (R7, R8, R162) -/

/-- The zones take states that their own changes do not move. -/
theorem setZones_zone {s : State} {f : Fin 8 → State → ZoneState} {g : Fin 8 → ZoneState}
    (hf : ∀ z t, ZoneMoves s t → f z t = g z) (i : Fin 8) : ∀ (l : List (Fin 8)) (t : State),
    ZoneMoves s t → (forEach (fun z t => t.setZone z (f z t)) l t).leak.zones[i] =
      if i ∈ l then { t.leak.zones[i] with state := g i } else t.leak.zones[i]
  | [], _, _ => (if_neg List.not_mem_nil).symm
  | z :: l, t, h => by
    refine (setZones_zone hf i l _ (h.trans (setZone_zoneMoves ..))).trans ?_
    rw [setZone_zone, hf z t h]
    by_cases hz : z = i
    · subst hz
      simp
    · simp [hz, Ne.symm hz]

theorem lockZones_state (i : Fin 8) : ∀ (l : List (Fin 8)) (t : State), i ∈ l →
    ((forEach (fun z s => (s.changeZone z fun x => { x with grace := none }).setZone z .clear)
      l t).leak.zones[i]).state = .clear := by
  have stays : ∀ (l : List (Fin 8)) (t : State), (t.leak.zones[i]).state = .clear →
      ((forEach (fun z s => (s.changeZone z fun x => { x with grace := none }).setZone z .clear)
        l t).leak.zones[i]).state = .clear := by
    intro l
    induction l with
    | nil => exact fun _ h => h
    | cons z l ih =>
      refine fun t h => ih _ ?_
      dsimp only
      rw [setZone_zone]
      split
      · rfl
      · rw [changeZone_zone]
        split
        · rename_i hz; rw [hz]; exact h
        · exact h
  intro l
  induction l with
  | nil => exact fun _ h => absurd h List.not_mem_nil
  | cons z l ih =>
    intro t h
    by_cases hz : z = i
    · refine stays l _ ?_
      dsimp only
      rw [setZone_zone, if_pos hz]
    · exact ih _ ((List.mem_cons.mp h).resolve_left (Ne.symm hz))

/-- While UNCOMMISSIONED every channel belongs to zone 0 (R4). -/
theorem zoneChannelStates_unlocked {s : State} (h : s.cfg.locked = false) :
    s.zoneChannelStates 0 = (List.finRange 16).map fun c => (s.leak.channels[c]).state := by
  have every : s.zoneChannels 0 = List.finRange 16 := by
    refine List.filter_eq_self.mpr fun c _ => ?_
    simp [State.channelZone, h]
  rw [State.zoneChannelStates, every]

theorem contains_map_iff {k : Nat} (f : Fin k → ChanState) (x : ChanState) :
    ((List.finRange k).map f).contains x = true ↔ ∃ c, f c = x := by
  simp

theorem zoneFollows_wet {f : Fin 16 → ChanState} (h : ∃ c, f c = .wet) :
    zoneFollows ((List.finRange 16).map f) = .alarm := if_pos ((contains_map_iff f .wet).mpr h)

theorem zoneFollows_watch {f : Fin 16 → ChanState} (h : ∀ c, f c ≠ .wet)
    (k : ∃ c, f c = .suspect ∨ f c = .opn) : zoneFollows ((List.finRange 16).map f) = .watch := by
  unfold zoneFollows
  rw [if_neg fun w => ?_, if_pos]
  · rw [Bool.or_eq_true, contains_map_iff, contains_map_iff]
    exact exists_or.mp k
  · obtain ⟨c, hc⟩ := (contains_map_iff f .wet).mp w
    exact h c hc

theorem zoneFollows_dry {f : Fin 16 → ChanState} (h : ∀ c, f c = .dry) :
    zoneFollows ((List.finRange 16).map f) = .clear := by
  have none (x : ChanState) (hx : x ≠ .dry) : ¬((List.finRange 16).map f).contains x = true := by
    rw [contains_map_iff]
    rintro ⟨c, hc⟩
    exact hx (hc.symm.trans (h c))
  unfold zoneFollows
  rw [if_neg (none .wet nofun), if_neg]
  rw [Bool.or_eq_true]
  exact not_or.mpr ⟨none .suspect nofun, none .opn nofun⟩

/-! ### The course of a lock -/

theorem env_commissioned (s : State) : s.env.commissioned = s.cfg.locked := rfl

theorem ZoneMoves.rack {s t : State} (h : ZoneMoves s t) :
    t.rack = { s.rack with notif := t.rack.notif, todo := t.rack.todo } := congrArg State.rack h

theorem ZoneMoves.leak {s t : State} (h : ZoneMoves s t) :
    t.leak = { s.leak with zones := t.leak.zones } := congrArg State.leak h

theorem ZoneMoves.slots {s t : State} (h : ZoneMoves s t) : t.rack.slots = s.rack.slots := by
  rw [h.rack]

theorem SameModules.symm (h : SameModules a b) : SameModules b a :=
  ⟨h.psu.symm, h.bu.symm, h.bus.symm, h.rech.symm, h.faults.symm, h.shortfall.symm⟩

theorem ZoneMoves.sameModules {s t : State} (h : ZoneMoves s t) : SameModules s.rack t.rack := by
  rw [h.rack]
  exact ⟨rfl, rfl, rfl, rfl, rfl, rfl⟩

theorem lockLeak_sameModules (s : State) : SameModules s.rack s.lockLeak.rack :=
  (lockLeak_zoneMoves s).sameModules

theorem lockLeak_cfg (s : State) : s.lockLeak.cfg = s.cfg := (lockLeak_zoneMoves s).cfg

theorem lockLeak_marks (s : State) : s.lockLeak.marks = s.marks := (lockLeak_zoneMoves s).marks

theorem lockLeak_slots (s : State) : s.lockLeak.rack.slots = s.rack.slots := (lockLeak_zoneMoves s).slots

/-- The record locked with its marks (R5, R6). -/
def State.marked (s : State) : State :=
  let record := { s.cfg.record with
    rack := { s.cfg.record.rack with k := lockedK s.cfg.record.rack.k } }
  { s with
    cfg := { s.cfg with record := record, locked := true }
    marks := validate record s.cfg.profiles }

/-- The tables of a lock before its members and figures follow. -/
def State.lockTable (s : State) : Rack := lockTables s.marked.env.cfg.record s.marked.rack

/-- The tables have taken up the locked record. -/
def State.tabled (s : State) : State :=
  s.marked.onRack fun e r => lockMembers e (lockTables e.cfg.record r)

/-- The slots and the Leak Monitor have. -/
def State.relocked (s : State) : State := (s.tabled.onRack lockSlots).lockLeak

theorem lock_eq (s : State) : s.lock = s.relocked.onRack lockHanded := by
  unfold State.lock State.relocked State.tabled State.marked
  rfl

theorem lock_rack (s : State) : s.lock.rack = lockHanded s.relocked.env s.relocked.rack := by
  rw [lock_eq, onRack_rack]

theorem lock_leak (s : State) : s.lock.leak = s.relocked.leak := by rw [lock_eq, onRack_leak]

theorem tabled_leaves (s : State) : MembersLeave s.marked.env s.lockTable s.tabled.rack := by
  unfold State.tabled State.lockTable
  rw [onRack_rack]
  exact lockMembers_leaves _ _

theorem relocked_cfg (s : State) : s.relocked.cfg = s.marked.cfg := by
  unfold State.relocked State.tabled
  rw [lockLeak_cfg, onRack_cfg, onRack_cfg]

theorem relocked_sameModules (s : State) : SameModules s.tabled.rack s.relocked.rack := by
  unfold State.relocked
  refine SameModules.trans ?_ (lockLeak_sameModules _)
  rw [onRack_rack]
  exact lockSlots_sameModules _ _

theorem lock_turn (s : State) : AccountTurn s.relocked.env s.tabled.rack s.lock.rack := by
  rw [lock_rack]
  exact .congr (relocked_sameModules s).symm (lockHanded_turn _ _) (.refl _)

theorem relocked_commissioned (s : State) : s.relocked.env.commissioned = true := by
  rw [env_commissioned, relocked_cfg]
  rfl

theorem lock_psu (s : State) (i : Fin 18) : s.lock.rack.psu[i] =
    (s.rack.psu[i]).lock (s.cfg.record.psuPresent i) (s.cfg.record.psus[i]).rated := by
  have tables : s.lock.rack.psu = s.lockTable.psu := (lock_turn s).psu.trans (tabled_leaves s).account.1
  exact (congrArg (fun v : Vector PsuRec 18 => v[i]) tables).trans (lockTables_psu ..)

theorem lock_zeroed (s : State) : Zeroed s.lockTable s.lock.rack :=
  (tabled_leaves s).zeroed.trans (lock_turn s).zeroed

theorem lockTable_bu (s : State) (j : Fin 12) : s.lockTable.bu[j] =
    (s.rack.bu[j]).lock (s.cfg.record.buPresent j) (s.cfg.record.bus[j]).rated := lockTables_bu ..

theorem lock_bu (s : State) (j : Fin 12) :
    (let table := (s.rack.bu[j]).lock (s.cfg.record.buPresent j) (s.cfg.record.bus[j]).rated
     s.lock.rack.bu[j] = table ∨ s.lock.rack.bu[j] = { table with setpoint := 0 }) := by
  have h := lock_zeroed s j
  rw [lockTable_bu] at h
  exact h

theorem lock_psuEntry (s : State) (i : Fin 18) :
    s.lock.rack.bus.entry (.psu i) = s.lockTable.bus.entry (.psu i) :=
  ((lock_turn s).offers.psu i).trans ((tabled_leaves s).offers.psu i)

theorem lock_absentEntry (s : State) {j : Fin 12} (h : (s.lockTable.bu[j]).present = false) :
    s.lock.rack.bus.entry (.bu j) = s.lockTable.bus.entry (.bu j) :=
  ((lock_turn s).offers.absent (relocked_commissioned s) j
    (((tabled_leaves s).offers.present j).trans h)).trans ((tabled_leaves s).offers.absent rfl j h)

theorem lockTable_rech (s : State) : s.lockTable.rech = s.rack.rech := by
  unfold State.lockTable lockTables discardAbsent
  rfl

theorem lockTable_shortfall (s : State) :
    s.lockTable.acct.shortfall = s.rack.acct.shortfall := by
  unfold State.lockTable lockTables discardAbsent
  rfl

theorem lock_restarts (s : State) : Restarts s.tabled.rack s.lock.rack ↔ Restarts s.rack s.lock.rack := by
  have flag : s.tabled.rack.acct.shortfall = s.lockTable.acct.shortfall := by
    obtain ⟨-, account, -⟩ := (tabled_leaves s).account
    rw [account]
  unfold Restarts
  rw [flag, lockTable_shortfall, (tabled_leaves s).rech, lockTable_rech]

/-! ### The course of a DECOMMISSION -/

/-- The record open (R8). -/
def State.opened (s : State) : State :=
  { s with cfg := { s.cfg with locked := false }, marks := noMarks }

/-- The modules carried over and the slots DISABLED (R8, R44). -/
def State.disabled (s : State) : State :=
  (s.opened.onRack fun _ r =>
    { r with psu := r.psu.map PsuRec.unlock, bu := r.bu.map BuRec.unlock }).onRack unlockSlots

theorem unlock_eq (s : State) : s.unlock = s.disabled.unlockLeak.onRack lockHanded := by
  unfold State.unlock State.disabled State.opened
  rfl

theorem unlock_rack (s : State) :
    s.unlock.rack = lockHanded s.disabled.unlockLeak.env s.disabled.unlockLeak.rack := by
  rw [unlock_eq, onRack_rack]

theorem unlock_leak (s : State) : s.unlock.leak = s.disabled.unlockLeak.leak := by
  rw [unlock_eq, onRack_leak]

theorem unlockLeak_sameModules (s : State) : SameModules s.rack s.unlockLeak.rack :=
  (unlockLeak_zoneMoves s).sameModules

theorem unlockLeak_cfg (s : State) : s.unlockLeak.cfg = s.cfg := (unlockLeak_zoneMoves s).cfg

theorem unlockLeak_slots (s : State) : s.unlockLeak.rack.slots = s.rack.slots :=
  (unlockLeak_zoneMoves s).slots

theorem disabled_cfg (s : State) : s.disabled.cfg = { s.cfg with locked := false } := by
  unfold State.disabled
  rw [onRack_cfg, onRack_cfg]
  rfl

theorem disabled_leak (s : State) : s.disabled.leak = s.leak := by
  unfold State.disabled
  rw [onRack_leak, onRack_leak]
  rfl

theorem disabled_rack (s : State) : s.disabled.rack = unlockSlots
    (s.opened.onRack fun _ r =>
      { r with psu := r.psu.map PsuRec.unlock, bu := r.bu.map BuRec.unlock }).env
    { s.rack with psu := s.rack.psu.map PsuRec.unlock, bu := s.rack.bu.map BuRec.unlock } := by
  unfold State.disabled
  rw [onRack_rack, onRack_rack]
  rfl

theorem disabled_sameModules (s : State) : SameModules
    { s.rack with psu := s.rack.psu.map PsuRec.unlock, bu := s.rack.bu.map BuRec.unlock }
    s.disabled.rack := by
  rw [disabled_rack]
  exact unlockSlots_sameModules _ _

theorem unlock_turn (s : State) :
    AccountTurn s.disabled.unlockLeak.env s.disabled.rack s.unlock.rack := by
  rw [unlock_rack]
  exact .congr (unlockLeak_sameModules s.disabled).symm (lockHanded_turn _ _) (.refl _)

theorem unlocked_commissioned (s : State) : s.disabled.unlockLeak.env.commissioned = false := by
  rw [env_commissioned, unlockLeak_cfg, disabled_cfg]

theorem unlock_psu (s : State) (i : Fin 18) : s.unlock.rack.psu[i] = (s.rack.psu[i]).unlock := by
  have h : s.unlock.rack.psu = s.rack.psu.map PsuRec.unlock :=
    (unlock_turn s).psu.trans (disabled_sameModules s).psu
  exact (congrArg (fun v : Vector PsuRec 18 => v[i]) h).trans (Vector.getElem_map ..)

theorem unlock_bu (s : State) (j : Fin 12) : s.unlock.rack.bu[j] = (s.rack.bu[j]).unlock := by
  have h : s.unlock.rack.bu = s.rack.bu.map BuRec.unlock :=
    ((unlock_turn s).unlocked (unlocked_commissioned s)).1.trans (disabled_sameModules s).bu
  exact (congrArg (fun v : Vector BuRec 12 => v[j]) h).trans (Vector.getElem_map ..)

theorem unlock_bus (s : State) : s.unlock.rack.bus = s.rack.bus :=
  ((unlock_turn s).unlocked (unlocked_commissioned s)).2.1.trans (disabled_sameModules s).bus

theorem unlock_faults (s : State) : s.unlock.rack.faults = s.rack.faults :=
  ((unlock_turn s).unlocked (unlocked_commissioned s)).2.2.trans (disabled_sameModules s).faults

theorem unlock_slot (s : State) (n : Fin 48) : s.unlock.rack.slots[n] = s.disabled.rack.slots[n] := by
  have same : s.disabled.unlockLeak.rack.slots[n] = s.disabled.rack.slots[n] :=
    congrArg (fun v : Vector SlotRec 48 => v[n]) (unlockLeak_slots s.disabled)
  have state : (s.disabled.unlockLeak.rack.slots[n]).state = .disabled := by
    rw [same, disabled_rack]
    exact unlockSlots_disabled ..
  have kept := lockHanded_slot s.disabled.unlockLeak.env s.disabled.unlockLeak.rack (n := n)
    (by rw [state]; rfl) (by rw [state]; exact nofun)
  rw [← unlock_rack, same] at kept
  exact kept

/-- The zones' fields but for their states have followed (R8). -/
def State.unzoned (s : State) : State := { s.disabled with leak := s.leak.unlock }

theorem unzoned_unlockLeak (s : State) : s.disabled.unlockLeak = forEach (fun z t =>
    t.setZone z (if z.val = 0 then zoneFollows (t.zoneChannelStates z) else .clear))
      (List.finRange 8) s.unzoned := by
  unfold State.unlockLeak State.unzoned
  rw [disabled_leak]

theorem unzoned_cfg (s : State) : s.unzoned.cfg = { s.cfg with locked := false } := by
  unfold State.unzoned
  dsimp only
  rw [disabled_cfg]

/-- The state that zone 0 follows its channels to, with the others CLEAR (R8). -/
def unlockedZone (s : State) (z : Fin 8) : ZoneState :=
  if z.val = 0 then zoneFollows ((List.finRange 16).map fun c => (s.leak.channels[c]).state)
  else .clear

theorem unzoned_follows {s t : State} (h : ZoneMoves s.unzoned t) (z : Fin 8) :
    (if z.val = 0 then zoneFollows (t.zoneChannelStates z) else .clear) = unlockedZone s z := by
  have open_ : t.cfg.locked = false := by rw [h.cfg, unzoned_cfg]
  have channels : t.leak.channels = s.leak.channels := by rw [h]; rfl
  unfold unlockedZone
  split
  · rename_i hz
    obtain rfl : z = 0 := Fin.ext hz
    rw [zoneChannelStates_unlocked open_, channels]
  · rfl

theorem unzoned_zone (s : State) (z : Fin 8) : s.unzoned.leak.zones[z] = { s.leak.zones[z] with
    grace := none
    shelves := if z.val = 0 then s.leak.heldShelves else Vector.replicate 3 false } := ofFn_slot ..

/-- The zones after a DECOMMISSION (R8). -/
theorem unlock_zone (s : State) (z : Fin 8) : s.unlock.leak.zones[z] = { s.leak.zones[z] with
    grace := none
    shelves := if z.val = 0 then s.leak.heldShelves else Vector.replicate 3 false
    state := unlockedZone s z } := by
  have zones := setZones_zone (fun z t h => unzoned_follows (s := s) h z) z (List.finRange 8)
    s.unzoned (.refl _)
  rw [if_pos (List.mem_finRange z), ← unzoned_unlockLeak, ← unlock_leak] at zones
  rw [zones, unzoned_zone]

/-! ### The records of a lock, position by position -/

theorem lock_slot_state (s : State) (n : Fin 48) (h : (s.rack.slots[n]).state = .disabled) :
    (s.lock.rack.slots[n]).state = if s.lock.env.usable n = true then .off else .disabled := by
  have usable : s.lock.env.usable n = s.tabled.env.usable n := by
    have cfg : s.lock.cfg = s.tabled.cfg := by
      rw [lock_eq, onRack_cfg]
      unfold State.relocked
      rw [lockLeak_cfg, onRack_cfg]
    have marks : s.lock.marks = s.tabled.marks := by
      rw [lock_eq, onRack_marks]
      unfold State.relocked
      rw [lockLeak_marks, onRack_marks]
    unfold Env.usable Env.profile State.env
    dsimp only
    rw [cfg, marks]
  have tables : s.tabled.rack.slots = s.rack.slots := by
    obtain ⟨-, -, slots, -⟩ := (tabled_leaves s).account
    rw [slots]
    unfold State.lockTable lockTables discardAbsent
    rfl
  have relocked : s.relocked.rack.slots = (lockSlots s.tabled.env s.tabled.rack).slots := by
    unfold State.relocked
    rw [lockLeak_slots, onRack_rack]
  have state : (s.relocked.rack.slots[n]).state =
      if s.tabled.env.usable n = true then .off else .disabled := by
    rw [relocked]
    exact lockSlots_state _ _ _ (by rw [tables]; exact h)
  obtain ⟨unpowered, unshed⟩ : (s.relocked.rack.slots[n]).state.powered = false ∧
      (s.relocked.rack.slots[n]).state ≠ .shed := by
    rw [state]
    split <;> exact ⟨rfl, nofun⟩
  have kept := lockHanded_slot s.relocked.env s.relocked.rack unpowered unshed
  rw [← lock_rack] at kept
  rw [kept, usable, state]

theorem PsuRec.lock_eq (x : PsuRec) (p : Bool) (top : Nat) : x.lock p top =
    if p = true then
      if x.state = .absent then { x with
        present := true, capability := min x.capability top
        state := .lost, reportPending := true, miss := 0 }
      else { x with present := true, capability := min x.capability top }
    else { x with
      present := false, state := .absent, capability := 0, output := 0, input := .absent
      miss := 0, reportPending := false, commandedOn := true } := rfl

/-- A record over a lock, but for its setpoint. -/
def BuRec.Locked (was : BuRec) (p : Bool) (top : Nat) (b : BuRec) : Prop :=
  b = was.lock p top ∨ b = { was.lock p top with setpoint := 0 }

section
variable {was b : BuRec} {p : Bool} {top : Nat}

theorem BuRec.Locked.figure {α : Type} (h : was.Locked p top b) (g : BuRec → α)
    (hg : ∀ x : BuRec, g { x with setpoint := 0 } = g x) : g b = g (was.lock p top) := by
  rcases h with rfl | rfl
  · rfl
  · exact hg _

theorem BuRec.lock_present (was : BuRec) (p : Bool) (top : Nat) : (was.lock p top).present = p := by
  unfold BuRec.lock
  cases p with
  | false => rfl
  | true => simp only [if_true]; split <;> rfl

theorem BuRec.Locked.present (h : was.Locked p top b) : b.present = p :=
  (h.figure BuRec.present fun _ => rfl).trans (was.lock_present p top)

/-- The entry of a bay newly present (R7). -/
theorem BuRec.lockEntry_new (h : was.lockPresent = false) : was.lockEntry true =
    { was with h := 192, stale := true, postponed := 0, due := 0, dueMs := 0, lockPresent := true } :=
  if_pos (by rw [h]; rfl)

/-- The entry of a bay that is not present, or that the record before had (R7). -/
theorem BuRec.lockEntry_old (h : p = false ∨ was.lockPresent = true) :
    was.lockEntry p = { was with lockPresent := p } :=
  if_neg (by rcases h with h | h <;> simp [h])

theorem BuRec.lockEntry_cases (was : BuRec) (p : Bool) :
    was.lockEntry p = { was with lockPresent := p } ∨ was.lockEntry p = { was with
      h := 192, stale := true, postponed := 0, due := 0, dueMs := 0, lockPresent := p } := by
  cases hp : p with
  | false => exact .inl (lockEntry_old (.inl rfl))
  | true =>
    cases hl : was.lockPresent with
    | false => exact .inr (lockEntry_new hl)
    | true => exact .inl (lockEntry_old (.inr hl))

/-- A position that no discovery had answered (R44). -/
theorem BuRec.lock_unheard (h : was.state = .absent) (top : Nat) : was.lock true top =
    { was.lockEntry true with
      present := true, energy := min was.energy top
      state := .lost, reportPending := true, miss := 0, baseline := false } := by
  unfold BuRec.lock
  rcases was.lockEntry_cases true with k | k <;> rw [k] <;> exact if_pos h

/-- A position that a discovery had answered (R44). -/
theorem BuRec.lock_heard (h : was.state ≠ .absent) (top : Nat) : was.lock true top =
    { was.lockEntry true with present := true, energy := min was.energy top } := by
  unfold BuRec.lock
  rcases was.lockEntry_cases true with k | k <;> rw [k] <;> exact if_neg h

/-- A position that is not present (R43, R44). -/
theorem BuRec.lock_absent (was : BuRec) (top : Nat) : was.lock false top = { was with
    lockPresent := false, present := false, state := .absent, energy := 0, discharge := 0
    delivered := 0, lastCounter := 0, baseline := false, miss := 0, reportPending := false
    commandedIsolate := false, leakIsolated := false
    offered := 0, offeredRem := 0, accepted := 0, setpoint := 0 } := rfl

/-- What a lock keeps of the record of a present bay, and what it makes of it (R43, R44). -/
theorem BuRec.lock_module (was : BuRec) (top : Nat) :
    (let x := was.lock true top
     x.energy = min was.energy top ∧ x.discharge = was.discharge ∧ x.delivered = was.delivered ∧
     x.lastCounter = was.lastCounter ∧ x.lastReport = was.lastReport ∧
     x.commandedIsolate = was.commandedIsolate ∧ x.leakIsolated = was.leakIsolated ∧
     x.offered = was.offered ∧ x.accepted = was.accepted ∧
     (was.state = .absent → x.state = .lost ∧ x.reportPending = true ∧ x.miss = 0 ∧
       x.baseline = false) ∧
     (was.state ≠ .absent → x.state = was.state ∧ x.reportPending = was.reportPending ∧
       x.miss = was.miss ∧ x.baseline = was.baseline)) := by
  by_cases h : was.state = .absent
  · rw [BuRec.lock_unheard h]
    rcases was.lockEntry_cases true with k | k <;> rw [k] <;>
      exact ⟨rfl, rfl, rfl, rfl, rfl, rfl, rfl, rfl, rfl, fun _ => ⟨rfl, rfl, rfl, rfl⟩, absurd h⟩
  · rw [BuRec.lock_heard h]
    rcases was.lockEntry_cases true with k | k <;> rw [k] <;>
      exact ⟨rfl, rfl, rfl, rfl, rfl, rfl, rfl, rfl, rfl, fun k => absurd k h,
        fun _ => ⟨rfl, rfl, rfl, rfl⟩⟩

/-- A lock keeps of the entry all that the entry's own rule keeps (R7). -/
theorem BuRec.lock_entry (was : BuRec) (p : Bool) (top : Nat) :
    (let x := was.lock p top
     let y := was.lockEntry p
     x.lockPresent = y.lockPresent ∧ x.h = y.h ∧ x.stale = y.stale ∧ x.postponed = y.postponed ∧
     x.due = y.due ∧ x.phase = y.phase ∧ x.sampleDeadline = y.sampleDeadline) := by
  cases p with
  | false => exact ⟨rfl, rfl, rfl, rfl, rfl, rfl, rfl⟩
  | true =>
    by_cases h : was.state = .absent
    · rw [BuRec.lock_unheard h]; exact ⟨rfl, rfl, rfl, rfl, rfl, rfl, rfl⟩
    · rw [BuRec.lock_heard h]; exact ⟨rfl, rfl, rfl, rfl, rfl, rfl, rfl⟩

theorem BuRec.Locked.battery (h : was.Locked p top b) :
    b.lockPresent = p ∧
    (b.present = true → was.lockPresent = false →
      b.h = 192 ∧ b.stale = true ∧ b.postponed = 0 ∧ b.due = 0) ∧
    b.phase = was.phase ∧ b.sampleDeadline = was.sampleDeadline ∧
    ((b.present = false ∨ was.lockPresent = true) →
      b.h = was.h ∧ b.stale = was.stale ∧ b.postponed = was.postponed ∧ b.due = was.due) := by
  obtain ⟨hl, hh, hs, hq, hd, hp, ht⟩ := was.lock_entry p top
  rw [h.present, h.figure BuRec.lockPresent fun _ => rfl, h.figure BuRec.h fun _ => rfl,
    h.figure BuRec.stale fun _ => rfl, h.figure BuRec.postponed fun _ => rfl,
    h.figure BuRec.due fun _ => rfl, h.figure BuRec.phase fun _ => rfl,
    h.figure BuRec.sampleDeadline fun _ => rfl, hl, hh, hs, hq, hd, hp, ht]
  refine ⟨?_, fun k l => ?_, ?_, ?_, fun k => ?_⟩
  · rcases was.lockEntry_cases p with k | k <;> rw [k]
  · subst k
    rw [BuRec.lockEntry_new l]
    exact ⟨rfl, rfl, rfl, rfl⟩
  · rcases was.lockEntry_cases p with k | k <;> rw [k]
  · rcases was.lockEntry_cases p with k | k <;> rw [k]
  · rw [BuRec.lockEntry_old k]
    exact ⟨rfl, rfl, rfl, rfl⟩

end

theorem lock_locked (s : State) (j : Fin 12) : (s.rack.bu[j]).Locked (s.cfg.record.buPresent j)
    (s.cfg.record.bus[j]).rated s.lock.rack.bu[j] := lock_bu s j

/-- The members after a lock (R140, R141). -/
theorem lock_members_kept (s : State) (j : Fin 12) (h : ¬Restarts s.rack s.lock.rack) :
    s.lock.rack.rech.members[j] =
      if (s.lock.rack.bu[j]).state = .idle ∨ (s.lock.rack.bu[j]).state = .charging
      then s.rack.rech.members[j] else none := by
  have members : s.lock.rack.rech.members = s.tabled.rack.rech.members :=
    ((lock_turn s).kept (mt (lock_restarts s).mp h)).2
  have state : (s.lock.rack.bu[j]).state = (s.lockTable.bu[j]).state :=
    (lock_zeroed s).figure BuRec.state (fun _ => rfl) j
  have left : s.tabled.rack.rech.members[j] =
      if (s.lockTable.bu[j]).state = .idle ∨ (s.lockTable.bu[j]).state = .charging
      then s.lockTable.rech.members[j] else none := by
    unfold State.tabled
    rw [onRack_rack]
    exact lockMembers_members _ _ _
  rw [state, ← congrArg Recharge.members (lockTable_rech s), ← left, members]

theorem lock_members_formed (s : State) (j : Fin 12) (h : Restarts s.rack s.lock.rack) :
    s.lock.rack.rech.members[j] =
      if (s.lock.rack.bu[j]).joins = true then some (memberOf 0) else none := by
  rw [(lock_turn s).formed ((lock_restarts s).mpr h) j,
    (lock_turn s).zeroed.figure BuRec.joins (fun _ => rfl) j]

/-- The queue entry of a present bay that is no member (R44). -/
theorem lock_presentEntry (s : State) {j : Fin 12} (hp : (s.lock.rack.bu[j]).present = true)
    (h : ¬Restarts s.rack s.lock.rack) (hm : s.rack.rech.members[j] = none) :
    s.lock.rack.bus.entry (.bu j) = s.rack.bus.entry (.bu j) := by
  have present : s.lockTable.present (.bu j) = true :=
    ((lock_zeroed s).figure BuRec.present (fun _ => rfl) j).symm.trans hp
  have table : s.lockTable.bus.entry (.bu j) = s.rack.bus.entry (.bu j) :=
    (lockTables_entry _ _ _).trans (if_pos present)
  have noMember : s.lockTable.rech.members[j] = none := by rw [lockTable_rech]; exact hm
  rw [((lock_turn s).kept (mt (lock_restarts s).mp h)).1,
    ((tabled_leaves s).apart j noMember).2, table]

theorem lock_psuEntry_cases (s : State) (i : Fin 18) :
    ((s.lock.rack.psu[i]).present = false → s.lock.rack.bus.entry (.psu i) = none) ∧
    ((s.lock.rack.psu[i]).present = true →
      s.lock.rack.bus.entry (.psu i) = s.rack.bus.entry (.psu i)) := by
  have psu : s.lock.rack.psu[i] = s.lockTable.psu[i] := (lock_psu s i).trans (lockTables_psu ..).symm
  have table : s.lockTable.bus.entry (.psu i) =
      if (s.lockTable.psu[i]).present = true then s.rack.bus.entry (.psu i) else none :=
    lockTables_entry ..
  rw [lock_psuEntry, table, psu]
  exact ⟨fun h => if_neg (by rw [h]; exact nofun), fun h => if_pos h⟩

theorem lock_absentEntry_none (s : State) {j : Fin 12} (h : (s.lock.rack.bu[j]).present = false) :
    s.lock.rack.bus.entry (.bu j) = none := by
  have absent : (s.lockTable.bu[j]).present = false :=
    ((lock_zeroed s).figure BuRec.present (fun _ => rfl) j).symm.trans h
  rw [lock_absentEntry s absent]
  refine (lockTables_entry ..).trans (if_neg ?_)
  show ¬(s.lockTable.bu[j]).present = true
  rw [absent]
  exact nofun

theorem unlock_slot_rest (s : State) (n : Fin 48) : (s.unlock.rack.slots[n]).state = .disabled ∧
    (s.unlock.rack.slots[n]).lastFault = (s.rack.slots[n]).lastFault := by
  rw [unlock_slot, disabled_rack]
  exact ⟨unlockSlots_disabled .., disableEach_lastFault ..⟩

/-! ### The Leak Monitor over a lock and a DECOMMISSION -/

theorem lockLeak_leak (s : State) :
    s.lockLeak.leak = { s.leak.relock with zones := s.lockLeak.leak.zones } :=
  (lockLeak_zoneMoves s).leak

theorem lockLeak_clear (s : State) (z : Fin 8) : (s.lockLeak.leak.zones[z]).state = .clear := by
  have zones : s.lockLeak = forEach (fun z s =>
      (s.changeZone z fun x => { x with grace := none }).setZone z .clear) (List.finRange 8)
      { s with leak := s.leak.relock } := by
    unfold State.lockLeak Leak.relock
    rfl
  rw [zones]
  exact lockZones_state z _ _ (List.mem_finRange z)

theorem relocked_leak (s : State) :
    s.relocked.leak = { s.leak.relock with zones := s.relocked.leak.zones } := by
  have leak : (s.tabled.onRack lockSlots).leak = s.leak := by
    unfold State.tabled
    rw [onRack_leak, onRack_leak]
    rfl
  have h := lockLeak_leak (s.tabled.onRack lockSlots)
  rw [leak] at h
  unfold State.relocked
  exact h

theorem relock_channel (l : Leak) (k : Fin 16) : l.relock.channels[k] = {
    state := .dry, wetCount := 0, openCount := 0, dryCount := 0, dryRun := 0
    level := (l.channels[k]).level } := Vector.getElem_map ..

theorem unlockLeak_leak (s : State) :
    s.unlockLeak.leak = { s.leak with zones := s.unlockLeak.leak.zones } :=
  (unlockLeak_zoneMoves s).leak

theorem unlock_leak_kept (s : State) :
    s.unlock.leak = { s.leak with zones := s.unlock.leak.zones } := by
  have h := unlockLeak_leak s.disabled
  rw [disabled_leak, ← unlock_leak] at h
  exact h

theorem heldShelves_iff (l : Leak) (h : Fin 3) :
    l.heldShelves[h] = true ↔ ∃ z : Fin 8, (l.zones[z]).shelves[h] = true := by
  unfold Leak.heldShelves
  rw [ofFn_slot]
  exact any_toList_iff ..

end Sys2Proof.Machine

section
open Sys2Proof Sys2Proof.Machine

/-- Settles O35: the tables of a lock as each record takes it up, the queue and the member set as the
Account's figures leave them, and the zones as the course of a DECOMMISSION sets them. -/
theorem lockAndUnlock : Obligations.LockAndUnlock := by
  intro s
  refine ⟨fun h n => lock_slot_state s n (h n), fun i => (lock_psu s i).trans (PsuRec.lock_eq ..),
    fun j => ?_, fun j => ?_, unlock_slot_rest s, lock_psuEntry_cases s,
    fun j => lock_absentEntry_none s, unlock_psu s, unlock_bu s, unlock_bus s, unlock_faults s,
    fun k => ?_, ?_, ?_, fun z => ?_, ?_, ?_, ?_, ?_, ?_, ?_, fun z hz => ?_, fun h => ?_,
    fun h k => ?_, fun h => ?_, fun h => ?_, fun z => ?_⟩
  · have h := lock_locked s j
    refine ⟨h.present, fun hp => ?_, fun hp => ?_⟩
    · rw [h.present] at hp
      rw [hp] at h
      rcases h with h | h <;> rw [h] <;> exact BuRec.lock_module ..
    · rw [h.present] at hp
      rw [hp] at h
      rcases h with h | h <;> rw [h, BuRec.lock_absent] <;>
        exact ⟨rfl, rfl, rfl, rfl, rfl, rfl, rfl, rfl, rfl, rfl, rfl, rfl⟩
  · obtain ⟨bay, new, phase, sample, old⟩ := (lock_locked s j).battery
    exact ⟨by rw [bay, lock_cfg]; rfl, new, phase, sample, old, lock_members_kept s j,
      lock_members_formed s j, lock_presentEntry s⟩
  · rw [lock_leak, relocked_leak]
    dsimp only
    exact relock_channel s.leak k
  · rw [lock_leak, relocked_leak]
    rfl
  · rw [lock_leak, relocked_leak]
    rfl
  · rw [lock_leak]
    unfold State.relocked
    exact lockLeak_clear _ z
  · rw [unlock_leak_kept]
  · rw [unlock_leak_kept]
  · rw [unlock_leak_kept]
  · rw [lock_leak, relocked_leak]
    rfl
  · rw [unlock_leak_kept]
  · refine ⟨s.unzoned, rfl, unzoned_cfg s, fun z => ?_, ?_⟩
    · rw [unzoned_zone]
    · rw [← unzoned_unlockLeak, unlock_eq]
  · rw [unlock_zone]
    have hv : ¬z.val = 0 := fun h => hz (Fin.ext h)
    refine ⟨if_neg hv, fun h => ?_⟩
    dsimp only
    rw [if_neg hv]
    exact Vector.getElem_replicate ..
  · rw [unlock_zone]
    exact zoneFollows_wet h
  · rw [unlock_zone]
    exact zoneFollows_watch h k
  · rw [unlock_zone]
    exact zoneFollows_dry h
  · rw [unlock_zone]
    exact heldShelves_iff ..
  · rw [unlock_zone]
    exact ⟨rfl, rfl⟩

end
end

