-- ==== Sys2Proof/Proofs/Bounds.lean ====
section
/-! PROOF. What every command and every step keeps of the bounds of the queues, of one shelf command for a
position, and of the pace of the leak samples (O56). -/

namespace Sys2Proof.Machine

variable {g : Prop}

/-- From s to t the bounds of the queues, the one command for a position and the pace of the leak samples
survive (R34, R93, R159, R182, R189). -/
structure Bounded (s t : State) : Prop where
  bounds : BoundsLaw s → BoundsLaw t
  oneEntry : OneEntryLaw s → OneEntryLaw t
  pace : PaceLaw s → PaceLaw t

theorem Bounded.refl (s : State) : Bounded s s := ⟨id, id, id⟩

theorem Bounded.trans {a b c : State} (h : Bounded a b) (k : Bounded b c) : Bounded a c :=
  ⟨k.bounds ∘ h.bounds, k.oneEntry ∘ h.oneEntry, k.pace ∘ h.pace⟩

/-- What survives a first change. -/
theorem Bounded.after {a b c : State} (k : Bounded b c) (h : Bounded a b) : Bounded a c := h.trans k

theorem Moves.bounded {s t : State} (h : Moves g s t) : Bounded s t :=
  ⟨h.bounds, h.oneEntry, h.pace⟩

/-- Two states hold the same receive queue, rack queues and sample pace. -/
theorem Bounded.of_eq {s t : State} (hx : t.link.rx = s.link.rx) (hn : t.rack.notif = s.rack.notif)
    (hh : t.rack.queue = s.rack.queue) (hb : t.rack.bus = s.rack.bus)
    (hp : t.leak.nextSample = s.leak.nextSample) (hl : t.boot.loaded = s.boot.loaded)
    (ht : t.now = s.now) : Bounded s t where
  bounds h := ⟨by rw [hx]; exact h.rx, by rw [hn]; exact h.notif, by rw [hh]; exact h.history⟩
  oneEntry h := by unfold OneEntryLaw; rw [hb]; exact h
  pace h := by unfold PaceLaw; rw [hp, hl, ht]; exact h

theorem Bounded.onRack {s t : State} (h : Bounded s t) {f : Env → Rack → Rack}
    (k : Reach g t.env t.rack (f t.env t.rack)) : Bounded s (t.onRack f) :=
  h.trans (onRack_moves k).bounded

theorem Bounded.conclude {s t : State} (h : Bounded s t) : Bounded s t.conclude :=
  h.trans (conclude_moves t).bounded

theorem forEach_bounded {α : Type} {f : α → State → State} (h : ∀ x s, Bounded s (f x s)) :
    ∀ (xs : List α) (s : State), Bounded s (forEach f xs s)
  | [], s => .refl s
  | x :: xs, s => (h x s).trans (forEach_bounded h xs _)

theorem Ends.bounded {s : State} {o : Outcome} (h : Ends o (Turn s)) : Ends o (Bounded s) :=
  h.mono fun _ k => k.moves.bounded

/-! ### Requests whose rule is more than moves of the blocks -/

theorem reply_bounded (s : State) (k t : Byte) (p : List Byte) : Bounded s (s.reply k t p) :=
  (Moves.refl (g := True).beside (reply_beside s k t p)).bounded

theorem take_bounded (s : State) : Bounded s s.take :=
  (Moves.refl (g := True).beside (take_beside s)).bounded

/-- A request keeps what its body keeps. -/
theorem serve_bounded {s : State} {early : Bool} {kind tag : Byte} {payload : List Byte}
    {body : State → Answer} (h : ∀ t, Bounded t (body t).1) :
    Bounded s (s.serve early kind tag payload body) := by
  unfold State.serve State.execute
  dsimp only
  split
  · split
    · exact ((take_bounded s).trans (reply_bounded ..)).conclude
    · split
      · exact ((take_bounded s).trans (reply_bounded ..)).conclude
      · exact (((take_bounded s).trans (h _)).trans (reply_bounded ..)).conclude
  · exact .refl s

theorem noPayload_bounded {payload : List Byte} {body : State → Answer} {s : State}
    (h : Bounded s (body s).1) : Bounded s (noPayload payload body s).1 := by
  unfold noPayload
  split
  · exact h
  · exact .refl s

theorem checked_bounded {bad : Bool} {code : Byte} {body : State → Answer} {s : State}
    (h : Bounded s (body s).1) : Bounded s (checked bad code body s).1 := by
  unfold checked
  split
  · exact .refl s
  · exact h

theorem execReleaseHold_bounded (tag : Byte) (p : List Byte) (s : State) :
    Ends (execReleaseHold tag p s) (Bounded s) := by
  refine .next (serve_bounded fun t => noPayload_bounded ?_)
  unfold releaseHoldBody
  split
  · exact .refl t
  · split
    · have h : Bounded t { t with rack.faults := { t.rack.faults with hold := none } } :=
        .of_eq rfl rfl rfl rfl rfl rfl rfl
      exact h.trans (Moves.refl.rack (g := True) _
        (((Reach.refl _).todo { t.rack.todo with head := true }).raised .fault 2 255 0)).bounded
    · exact .refl t

theorem cfg_bounded (s : State) (c : WorkCfg) (m : Marks) :
    Bounded s { s with cfg := c, marks := m } := .of_eq rfl rfl rfl rfl rfl rfl rfl

theorem setProfile_bounded (s : State) (p : Fin 8) (x : Profile) : Bounded s (s.setProfile p x) := by
  unfold State.setProfile
  dsimp only
  have k := cfg_bounded s { s.cfg with profiles := put s.cfg.profiles p x } s.marks
  refine Bounded.onRack (g := True) ?_ (headProfile_reach ..)
  split
  · exact k
  · exact k.onRack (g := True) (eachHandedOn_reach (applyValidity_reach _ p _) _ _)

theorem execSetProfile_bounded (tag : Byte) (p : List Byte) (s : State) :
    Ends (execSetProfile tag p s) (Bounded s) := by
  refine .next (serve_bounded fun t => ?_)
  unfold setProfileBody
  split
  · split
    · split
      · exact checked_bounded (checked_bounded (setProfile_bounded t _ _))
      · exact .refl t
    · exact .refl t
  · exact .refl t

theorem execCommissionWrite_bounded (tag : Byte) (p : List Byte) (s : State) :
    Ends (execCommissionWrite tag p s) (Bounded s) := by
  refine .next (serve_bounded fun t => ?_)
  unfold commissionWriteBody
  split
  · split
    · exact checked_bounded (checked_bounded (checked_bounded (cfg_bounded t _ t.marks)))
    · exact .refl t
  · exact .refl t

/-! ### Lock and unlock (R5 to R8) -/

theorem setZone_bounded (s : State) (z : Fin 8) (x : ZoneState) : Bounded s (s.setZone z x) := by
  unfold State.setZone
  split
  · exact .refl s
  · have h : Bounded s (s.changeZone z fun r => { r with state := x }) :=
      .of_eq rfl rfl rfl rfl rfl rfl rfl
    exact h.trans (zoneRaised_moves (g := True) _ z).bounded

theorem lockLeak_bounded (s : State) : Bounded s s.lockLeak := by
  unfold State.lockLeak
  dsimp only
  refine (forEach_bounded (fun z t => ?_) _ _).after (.of_eq rfl rfl rfl rfl rfl rfl rfl)
  exact (setZone_bounded _ z .clear).after (.of_eq rfl rfl rfl rfl rfl rfl rfl)

theorem lock_bounded (s : State) : Bounded s s.lock := by
  unfold State.lock
  dsimp only
  refine Bounded.onRack (g := True) ?_ (lockHanded_reach ..)
  refine Bounded.trans ?_ (lockLeak_bounded _)
  refine Bounded.onRack (g := True) ?_ (lockSlots_reach _ _ rfl)
  exact (cfg_bounded s _ _).onRack (g := True)
    ((lockTables_reach ..).trans (forEach_reach (leaveMembers_reach _) _ _))

theorem execCommissionLock_bounded (tag : Byte) (p : List Byte) (s : State) :
    Ends (execCommissionLock tag p s) (Bounded s) :=
  .next (serve_bounded fun t => noPayload_bounded (checked_bounded (checked_bounded
    (checked_bounded (checked_bounded (lock_bounded t))))))

theorem unlockLeak_bounded (s : State) : Bounded s s.unlockLeak := by
  unfold State.unlockLeak
  refine (forEach_bounded (fun z t => setZone_bounded t z _) _ _).after ?_
  exact .of_eq rfl rfl rfl rfl rfl rfl rfl

theorem unlock_bounded (s : State) : Bounded s s.unlock := by
  unfold State.unlock
  dsimp only
  refine Bounded.onRack (g := True) ?_ (lockHanded_reach ..)
  refine Bounded.trans ?_ (unlockLeak_bounded _)
  refine Bounded.onRack (g := True) ?_ (unlockSlots_reach ..)
  exact .of_eq rfl rfl rfl rfl rfl rfl rfl

theorem execDecommission_bounded (tag : Byte) (p : List Byte) (s : State) :
    Ends (execDecommission tag p s) (Bounded s) :=
  .next (serve_bounded fun t => noPayload_bounded (checked_bounded (checked_bounded
    (checked_bounded (unlock_bounded t)))))

/-! ### The resets and the adoption (R22, R83, R196) -/

theorem load_bounded (s : State) : Bounded s (s.loadTables.onRack loadSlots) := by
  have hq := (loadSlots_queue s.loadTables.env s.loadTables.rack).trans (loadTables_queue s)
  have hn := (loadSlots_notif s.loadTables.env s.loadTables.rack).trans (loadTables_notif s)
  have hb := (loadSlots_bus s.loadTables.env s.loadTables.rack).trans (loadTables_bus s)
  refine ⟨fun h => ⟨?_, ?_, ?_⟩, fun h => ?_, fun _ => ?_⟩
  · rw [onRack_link, loadTables_link]; exact h.rx
  · rw [onRack_rack, hn]; exact h.notif
  · rw [onRack_rack, hq]; exact h.history
  · unfold OneEntryLaw; rw [onRack_rack, hb]; exact h
  · unfold PaceLaw; rw [onRack_leak, onRack_boot, onRack_now]; exact loadTables_pace s

theorem execStoreLoadComplete_bounded (s : State) : Ends (execStoreLoadComplete s) (Bounded s) := by
  unfold execStoreLoadComplete
  split
  · exact .next (.refl s)
  · exact .next (((load_bounded s).onRack (g := True)
      (forEach_reach (fun _ _ => logFault_reach ..) _ _)).conclude)

/-- A warm restart empties the queues and seeds the Start History with the four entries it holds (R93,
R182, R188). -/
theorem warmRestart_bounded (s : State) : Bounded s s.warmRestart where
  bounds _ := ⟨Nat.zero_le _, Nat.zero_le _, le_refl 4⟩
  oneEntry _ := List.nodup_nil
  pace := id

theorem execRestartN_bounded (s : State) : Ends (execRestartN s) (Bounded s) := by
  refine .ite (.next (.refl s)) (.next (Bounded.conclude ((warmRestart_bounded s).trans ?_)))
  exact .of_eq rfl rfl rfl rfl rfl rfl rfl

theorem execReplySent_bounded (s : State) : Ends (execReplySent s) (Bounded s) := by
  unfold execReplySent
  refine .ite (.next (Bounded.conclude ?_)) (.next (.refl s))
  have h : Bounded s { s with link := { s.link with line := .idle, holder := none } } :=
    .of_eq rfl rfl rfl rfl rfl rfl rfl
  split
  · exact (warmRestart_bounded _).after h
  · exact h

/-- What the queues of the rack keep from one rack to the next. -/
structure RackBounded (a b : Rack) : Prop where
  notif : a.notif.entries.length ≤ 32 → b.notif.entries.length ≤ 32
  history : a.queue.history.length ≤ 4 → b.queue.history.length ≤ 4
  oneEntry : (a.bus.entries.map CmdEntry.pos).Nodup → (b.bus.entries.map CmdEntry.pos).Nodup

theorem RackBounded.trans {a b c : Rack} (h : RackBounded a b) (k : RackBounded b c) :
    RackBounded a c := ⟨k.notif ∘ h.notif, k.history ∘ h.history, k.oneEntry ∘ h.oneEntry⟩

theorem Reach.rackBounded {e : Env} {a b : Rack} (h : Reach g e a b) : RackBounded a b :=
  ⟨h.notif_length, h.history_length, h.one_entry⟩

theorem RackBounded.bounded (s : State) {r : Rack} (h : RackBounded s.rack r) :
    Bounded s { s with rack := r } :=
  ⟨fun b => ⟨b.rx, h.notif b.notif, h.history b.history⟩, h.oneEntry, id⟩

theorem changeRecord_rackBounded (e : Env) (n : Fin 48) (x : SlotRec) (r : Rack) :
    RackBounded r (changeRecord e n x r) where
  notif h := by rw [changeRecord_notif]; exact offer_length _ _ h
  history h := by rw [changeRecord_history]; exact h
  oneEntry h := h.sublist ((changeRecord_commands e n x r).map _)

theorem adoptSlot_rackBounded (e : Env) (good : BitVec 48) (n : Fin 48) (r : Rack) :
    RackBounded r (adoptSlot e good n r) := by
  unfold adoptSlot
  dsimp only
  split
  · exact ⟨id, id, id⟩
  · split <;> exact changeRecord_rackBounded ..

theorem adoptAll_rackBounded (e : Env) (good : BitVec 48) :
    ∀ (ns : List (Fin 48)) (r : Rack), RackBounded r (forEach (adoptInTurn e good) ns r)
  | [], _ => ⟨id, id, id⟩
  | n :: ns, r => ((adoptSlot_rackBounded e good n r).trans
      (adoptInTurn_reach e good n r).rackBounded).trans (adoptAll_rackBounded e good ns _)

theorem adoptZone_moves (s : State) (z : Fin 8) : Moves g s (s.adoptZone z) := by
  unfold State.adoptZone
  dsimp only
  split
  · split
    · exact isolateZone_moves s z
    · exact leakDrains_moves s z _
  · exact followZone_moves s z
  · exact followZone_moves s z
  · exact .refl
  · exact .refl

theorem execAdoption_bounded (good : BitVec 48) (s : State) :
    Ends (execAdoption good s) (Bounded s) := by
  unfold execAdoption
  refine .ite (.next (Bounded.conclude ?_)) (.next (.refl s))
  dsimp only
  refine (forEach_bounded (fun z t => (adoptZone_moves (g := True) t z).bounded) _ _).after
    (Bounded.onRack (g := True) ?_ (eachHandedOn_reach (lateGood_reach _ good) _ _))
  refine Bounded.trans ?_ ((adoptAll_rackBounded _ good _ _).bounded _)
  exact .of_eq rfl rfl rfl rfl rfl rfl rfl

/-- A pin moves timestamps, and the Start History keeps its entries' number (R18). -/
theorem execTimestampPin_bounded (p : PinTarget) (s : State) :
    Ends (execTimestampPin p s) (Bounded s) := by
  refine .next ?_
  cases p with
  | history i =>
    exact ⟨fun h => ⟨h.rx, h.notif, (List.length_modify ..).trans_le h.history⟩, id, id⟩
  | headSince => exact ⟨fun h => ⟨h.rx, h.notif, h.history⟩, id, id⟩
  | offSince | grantTime | queueTime | alarmTime | psuReport | buReport =>
    exact .of_eq rfl rfl rfl rfl rfl rfl rfl

/-! ### Every command and every step -/

theorem exec_bounded (c : Instr) (s : State) (h : c ≠ .powerOn) : Ends (exec c s) (Bounded s) := by
  cases c with
  | powerOn => exact absurd rfl h
  | storeLoadComplete => exact execStoreLoadComplete_bounded s
  | restartN => exact execRestartN_bounded s
  | restartNRelease => exact (execRestartNRelease_turn s).bounded
  | adoption good => exact execAdoption_bounded good s
  | timestampPin p => exact execTimestampPin_bounded p s
  | strayByte b => exact (execStrayByte_turn b s).bounded
  | frameEnd bytes => exact (execFrameEnd_turn bytes s).bounded
  | frameTimeout => exact (execFrameTimeout_turn s).bounded
  | replySent => exact execReplySent_bounded s
  | notificationSent => exact (execNotificationSent_turn s).bounded
  | unknownKind kind tag p => exact (execUnknownKind_turn kind tag p s).bounded
  | identify tag p => exact (execIdentify_turn tag p s).bounded
  | readRack tag p => exact (execReadRack_turn tag p s).bounded
  | readSlot tag p => exact (execReadSlot_turn tag p s).bounded
  | readModule tag p => exact (execReadModule_turn tag p s).bounded
  | readBattery tag p => exact (execReadBattery_turn tag p s).bounded
  | readZone tag p => exact (execReadZone_turn tag p s).bounded
  | readFaults tag p => exact (execReadFaults_turn tag p s).bounded
  | clearFault tag p => exact (execClearFault_turn tag p s).bounded
  | slotOn tag p => exact (execSlotOn_turn tag p s).bounded
  | slotOff tag p => exact (execSlotOff_turn tag p s).bounded
  | slotCut tag p => exact (execSlotCut_turn tag p s).bounded
  | slotClear tag p => exact (execSlotClear_turn tag p s).bounded
  | rackStart tag p => exact (execRackStart_turn tag p s).bounded
  | rackStop tag p => exact (execRackStop_turn tag p s).bounded
  | stagePlan tag p => exact (execStagePlan_turn tag p s).bounded
  | commitPlan tag p => exact (execCommitPlan_turn tag p s).bounded
  | discardPlan tag p => exact (execDiscardPlan_turn tag p s).bounded
  | setProfile tag p => exact execSetProfile_bounded tag p s
  | setParam tag p => exact (execSetParam_moves tag p s).mono fun _ k => k.bounded
  | setLeakAction tag p => exact (execSetLeakAction_turn tag p s).bounded
  | leakClear tag p => exact (execLeakClear_turn tag p s).bounded
  | checkNow tag p => exact (execCheckNow_turn tag p s).bounded
  | setMask tag p => exact (execSetMask_turn tag p s).bounded
  | commissionWrite tag p => exact execCommissionWrite_bounded tag p s
  | commissionLock tag p => exact execCommissionLock_bounded tag p s
  | decommission tag p => exact execDecommission_bounded tag p s
  | saveConfig tag p => exact (execSaveConfig_turn tag p s).bounded
  | releaseHold tag p => exact execReleaseHold_bounded tag p s
  | restart tag p => exact (execRestart_turn tag p s).bounded
  | configWriteEnd v => exact (execConfigWriteEnd_turn v s).bounded
  | batteryWriteEnd v => exact (execBatteryWriteEnd_turn v s).bounded
  | pollCycleBegin => exact (execPollCycleBegin_turn s).bounded
  | psuStatus f => exact (execPsuStatus_turn f s).bounded
  | buStatus f => exact (execBuStatus_turn f s).bounded
  | badFrame f => exact (execBadFrame_turn f s).bounded
  | responseWindowExpiry => exact (execResponseWindowExpiry_turn s).bounded
  | goodRising n a b => exact (execGoodRising_turn n a b s).bounded
  | goodFalling n a b => exact (execGoodFalling_turn n a b s).bounded
  | parkedRising n a b => exact (execParkedRising_turn n a b s).bounded
  | parkedFalling n a b => exact (execParkedFalling_turn n a b s).bounded
  | goodDeadline n => exact (execGoodDeadline_turn n s).bounded
  | drainDeadline n => exact (execDrainDeadline_turn n s).bounded
  | gateTimer => exact (execGateTimer_turn s).bounded
  | startStalled => exact (execStartStalled_moves s).mono fun _ k => k.bounded
  | qualifyTimer => exact (execQualifyTimer_turn s).bounded
  | controlPeriod => exact (execControlPeriod_turn s).bounded
  | frameBoundary => exact (execFrameBoundary_turn s).bounded
  | checkDue j => exact (execCheckDue_turn j s).bounded
  | sampleDeadline j => exact (execSampleDeadline_turn j s).bounded
  | leakSample l => exact (execLeakSample_turn l s).bounded
  | graceExpiry z => exact (execGraceExpiry_turn z s).bounded
  | frameBegin => exact (execFrameBegin_turn s).bounded

/-- The part with no command waiting keeps the bounds, and time waits for a leak sample (R159). -/
theorem idle_bounded (s : State) : Bounded s s.idle := by
  have frame : s.idle.link = s.link ∧ s.idle.rack.notif = s.rack.notif ∧
      s.idle.rack.queue = s.rack.queue ∧ s.idle.rack.bus = s.rack.bus := by
    unfold State.idle
    split
    · split <;> exact ⟨rfl, rfl, rfl, rfl⟩
    · exact ⟨rfl, rfl, rfl, rfl⟩
  obtain ⟨hx, hn, hq, hb⟩ := frame
  refine ⟨fun h => ⟨?_, ?_, ?_⟩, fun h => ?_, idle_pace⟩
  · rw [hx]; exact h.rx
  · rw [hn]; exact h.notif
  · rw [hq]; exact h.history
  · unfold OneEntryLaw; rw [hb]; exact h

theorem powerOn_bounds (t : Store) (f : Nat) :
    BoundsLaw (State.powerOn t f) ∧ OneEntryLaw (State.powerOn t f) ∧ PaceLaw (State.powerOn t f) :=
  ⟨⟨Nat.zero_le _, Nat.zero_le _, Nat.zero_le _⟩, List.nodup_nil, rfl, fun _ h => by cases h⟩

/-- A step runs the front command, or idles where none waits. -/
theorem step_bounded {s t : State} (h : step s = .next t) : Bounded s t := by
  cases hp : s.pending with
  | nil =>
    rw [step_nil hp] at h
    cases h
    exact idle_bounded s
  | cons c rest =>
    rw [step_cons hp] at h
    have popped : Bounded s { s with pending := rest } := .of_eq rfl rfl rfl rfl rfl rfl rfl
    by_cases hc : c = .powerOn
    · subst hc
      rw [exec_powerOn] at h
      cases h
      obtain ⟨hb, ho, ht⟩ := powerOn_bounds (s.store.powerOn s.free) (s.free + 1)
      exact ⟨fun _ => ⟨hb.rx, hb.notif, hb.history⟩, fun _ => ho, fun _ => ht⟩
    · obtain ⟨u, hu, k⟩ := exec_bounded c { s with pending := rest } hc
      rw [hu] at h
      cases h
      exact popped.trans k

end Sys2Proof.Machine

section
open Sys2Proof Sys2Proof.Machine

/-- Settles O56: most commands are turns of `Moves`, which keep the bounds; the resets, the adoption, the
changes of the lock state and the profiles, and the release of Safe Hold keep them each by its own frame;
and an idle step lets no millisecond pass over a sample. -/
theorem boundsKept : Obligations.BoundsKept := by
  intro s t h
  have k := step_bounded h
  exact ⟨k.bounds, k.oneEntry, k.pace⟩

end
end

