-- ==== Sys2Proof/Proofs/ShelfCommands.lean ====
section
/-! PROOF. The Shelf Command Queue under an offer (O44) and the arbiter's choice among its entries and the
due polls (O45). -/

namespace Sys2Proof.Machine

/-! ### Positions that take offers (R24, R34) -/

theorem readsPsu_iff (e : Env) (r : Rack) (i : Fin 18) :
    readsPsu e r i = true ↔ e.cfg.locked = false ∨ (r.psu[i]).present = true := by
  simp only [readsPsu, Env.commissioned, Bool.or_eq_true, Bool.not_eq_true']

theorem readsBu_iff (e : Env) (r : Rack) (j : Fin 12) :
    readsBu e r j = true ↔ e.cfg.locked = false ∨ (r.bu[j]).present = true := by
  simp only [readsBu, Env.commissioned, Bool.or_eq_true, Bool.not_eq_true']

theorem takesOffers_iff (e : Env) (r : Rack) (p : Pos) : takesOffers e r p = true ↔
    p ∈ r.bus.polledSet ∧ polled e r p = true ∧ isLost r p = false := by
  simp only [takesOffers, addressed, Bool.and_eq_true, List.contains_eq_mem, decide_eq_true_eq,
    Bool.not_eq_true', and_assoc]

/-- A position not polled or LOST takes no offer (R34). -/
theorem not_takesOffers {e : Env} {r : Rack} {p : Pos}
    (h : p ∉ r.bus.polledSet ∨ polled e r p = false ∨ isLost r p = true) :
    takesOffers e r p = false := by
  rw [← Bool.not_eq_true, takesOffers_iff]
  rintro ⟨hs, hp, hl⟩
  rcases h with h | h | h
  · exact h hs
  · rw [hp] at h; cases h
  · rw [hl] at h; cases h

/-! ### The queue entry by entry (R34, R35) -/

theorem entry_none_iff (b : Bus) (p : Pos) : b.entry p = none ↔ ∀ x ∈ b.entries, x.pos ≠ p := by
  unfold Bus.entry
  simp only [List.find?_eq_none, beq_iff_eq, ne_eq]

/-- Where no entry stands for a position, discarding it changes nothing. -/
theorem discard_none {b : Bus} {p : Pos} (h : b.entry p = none) : b.discard p = b := by
  have all : b.entries.filter (fun x => x.pos != p) = b.entries :=
    List.filter_eq_self.mpr fun x hx => bne_iff_ne.mpr ((entry_none_iff b p).mp h x hx)
  unfold Bus.discard
  rw [all]

theorem entry_accept_self (b : Bus) (now : Time) (p : Pos) (c : ShelfCmd) :
    (b.accept now p c).entry p = some ⟨p, c, now⟩ := by
  have gone := entry_discard_self b p
  unfold Bus.entry at gone ⊢
  unfold Bus.accept
  simp [List.find?_append, gone]

/-- An entry taken leaves the entries of the other positions in their order (R34). -/
theorem accept_others (b : Bus) (now : Time) (p : Pos) (c : ShelfCmd) :
    (b.accept now p c).entries.filter (fun y => y.pos != p) =
      b.entries.filter fun y => y.pos != p := by
  unfold Bus.accept Bus.discard
  simp [List.filter_append]

/-- A command of the position in flight is then marked as replaced since its send (R35). -/
theorem accept_inFlight (b : Bus) (now : Time) (p : Pos) (c : ShelfCmd) :
    (b.accept now p c).inFlight = b.inFlight.map fun x : Transaction =>
      if x.pos = p ∧ x.cmd ≠ none then { x with replaced := true } else x := by
  unfold Bus.accept
  simp only [Bool.and_eq_true, beq_iff_eq, Option.isSome_iff_ne_none]

theorem busOffer_fresh {b : Bus} {p : Pos} (h : b.entry p = none) (now : Time) (c : ShelfCmd) :
    b.offer now true p c = b.accept now p c := by
  simp only [Bus.offer, h, Bool.not_true, Bool.false_eq_true, if_false]

theorem busOffer_behind {b : Bus} {p : Pos} {x : CmdEntry} (h : b.entry p = some x)
    (hx : x.cmd.cls = 1) {c : ShelfCmd} (hc : c.cls ≠ 1) (now : Time) : b.offer now true p c = b := by
  simp [Bus.offer, h, hx, hc]

theorem busOffer_equal {b : Bus} {p : Pos} {x : CmdEntry} (h : b.entry p = some x) {c : ShelfCmd}
    (hx : x.cmd = c) (now : Time) : b.offer now true p c = b := by
  simp [Bus.offer, h, hx]

theorem busOffer_replaces {b : Bus} {p : Pos} {x : CmdEntry} (h : b.entry p = some x) {c : ShelfCmd}
    (hc : x.cmd.cls ≠ 1 ∨ c.cls = 1) (hx : x.cmd ≠ c) (now : Time) :
    b.offer now true p c = b.accept now p c := by
  have ahead : (x.cmd.cls == 1 && c.cls != 1) = false := by
    rcases hc with hc | hc <;> simp [hc]
  simp [Bus.offer, h, hx, ahead]

/-- An offer touches the entries and the transaction in flight alone. -/
theorem busOffer_frame (b : Bus) (now : Time) (o : Bool) (p : Pos) (c : ShelfCmd) :
    b.offer now o p c = { b with
      entries := (b.offer now o p c).entries, inFlight := (b.offer now o p c).inFlight } := by
  unfold Bus.offer
  split
  · rfl
  · split
    · rfl
    · split
      · rfl
      · split <;> rfl

theorem offer_dropped {e : Env} {r : Rack} {p : Pos} (h : takesOffers e r p = false) (c : ShelfCmd) :
    offer e p c r = r := by
  unfold offer
  rw [h, offer_closed]

theorem offer_open {e : Env} {r : Rack} {p : Pos} (h : takesOffers e r p = true) (c : ShelfCmd) :
    offer e p c r = { r with bus := r.bus.offer e.now true p c } := by
  unfold offer
  rw [h]

/-! ### The arbiter's order (R33) -/

/-- What sorting by `before` leaves in the order R, where `before` decides R and R is transitive. -/
theorem insertBy_pairwise {α : Type} {R : α → α → Prop} {before : α → α → Bool}
    (ht : ∀ a b c : α, R a b → R b c → R a c) (hb : ∀ a b : α, before a b = true → R a b)
    (hn : ∀ a b : α, before a b = false → R b a) (x : α) :
    ∀ l : List α, l.Pairwise R → (insertBy before x l).Pairwise R
  | [], _ => List.pairwise_singleton _ _
  | y :: ys, h => by
    obtain ⟨hy, hys⟩ := List.pairwise_cons.mp h
    unfold insertBy
    split
    · rename_i hxy
      refine List.pairwise_cons.mpr ⟨fun z hz => ?_, h⟩
      rcases List.mem_cons.mp hz with rfl | hz
      · exact hb _ _ hxy
      · exact ht _ _ _ (hb _ _ hxy) (hy z hz)
    · rename_i hxy
      refine List.pairwise_cons.mpr ⟨fun z hz => ?_, insertBy_pairwise ht hb hn x ys hys⟩
      rcases List.mem_cons.mp ((insertBy_perm before x ys).mem_iff.mp hz) with rfl | hz
      · exact hn _ _ (by simpa using hxy)
      · exact hy z hz

theorem sortBy_pairwise {α : Type} {R : α → α → Prop} {before : α → α → Bool}
    (ht : ∀ a b c : α, R a b → R b c → R a c) (hb : ∀ a b : α, before a b = true → R a b)
    (hn : ∀ a b : α, before a b = false → R b a) : ∀ l : List α, (sortBy before l).Pairwise R
  | [] => List.Pairwise.nil
  | x :: xs => insertBy_pairwise ht hb hn x _ (sortBy_pairwise ht hb hn xs)

/-- An entry stands no later than another by class, then queue time, then address (R33). -/
def CmdEntry.Leads (now : Time) (x y : CmdEntry) : Prop :=
  x.cmd.cls ≤ y.cmd.cls ∧ (x.cmd.cls = y.cmd.cls →
    elapsed now y.queued ≤ elapsed now x.queued ∧
    (elapsed now y.queued = elapsed now x.queued → x.pos.address ≤ y.pos.address))

theorem CmdEntry.Leads.trans {now : Time} {x y z : CmdEntry} (h : x.Leads now y) (k : y.Leads now z) :
    x.Leads now z := by
  unfold CmdEntry.Leads at *
  omega

theorem CmdEntry.leads_refl (now : Time) (x : CmdEntry) : x.Leads now x :=
  ⟨le_refl _, fun _ => ⟨le_refl _, fun _ => le_refl _⟩⟩

theorem leads_of_before {now : Time} {x y : CmdEntry} (h : x.before now y = true) : x.Leads now y := by
  unfold CmdEntry.before at h
  unfold CmdEntry.Leads
  split at h
  · simp only [decide_eq_true_eq] at h; omega
  · split at h <;> simp only [decide_eq_true_eq] at h <;> omega

theorem leads_of_not_before {now : Time} {x y : CmdEntry} (h : x.before now y = false) :
    y.Leads now x := by
  unfold CmdEntry.before at h
  unfold CmdEntry.Leads
  split at h
  · simp only [decide_eq_false_iff_not] at h; omega
  · split at h <;> simp only [decide_eq_false_iff_not] at h <;> omega

theorem chosen_none {b : Bus} (now : Time) (h : b.entries = []) : b.chosen now = none := by
  unfold Bus.chosen
  rw [h]
  rfl

/-- The chosen entry leads every other (R33). -/
theorem chosen_leads {b : Bus} (now : Time) (h : b.entries ≠ []) :
    ∃ x ∈ b.entries, b.chosen now = some x ∧ ∀ y ∈ b.entries, x.Leads now y := by
  have perm := sortBy_perm (CmdEntry.before now) b.entries
  have order : (sortBy (CmdEntry.before now) b.entries).Pairwise (CmdEntry.Leads now) :=
    sortBy_pairwise (R := CmdEntry.Leads now) (fun _ _ _ => CmdEntry.Leads.trans)
      (fun _ _ => leads_of_before) (fun _ _ => leads_of_not_before) _
  cases hs : sortBy (CmdEntry.before now) b.entries with
  | nil => rw [hs] at perm; exact absurd perm.nil_eq.symm h
  | cons x xs =>
    rw [hs] at perm order
    refine ⟨x, perm.mem_iff.mp List.mem_cons_self, by rw [Bus.chosen, hs]; rfl, fun y hy => ?_⟩
    rcases List.mem_cons.mp (perm.mem_iff.mpr hy) with rfl | hy
    · exact CmdEntry.leads_refl now _
    · exact (List.pairwise_cons.mp order).1 y hy

/-! ### What the arbiter begins (R29, R31, R33) -/

theorem busFree_iff (e : Env) (r : Rack) : busFree e r = true ↔ r.bus.inFlight = none ∧
    ∀ t : Time, r.bus.abandoned = some t → 5 ≤ (e.now - t).toNat := by
  unfold busFree
  rw [Bool.and_eq_true, Option.isNone_iff_eq_none]
  refine and_congr_right fun _ => ?_
  cases r.bus.abandoned with
  | none => simp
  | some t =>
    simp only [elapsed_eq, Config.responseWindow, Option.some.injEq, forall_eq']
    exact decide_eq_true_iff

theorem arbitrate_taken {e : Env} {r : Rack} (h : busFree e r = false) : arbitrate e r = r := by
  unfold arbitrate
  rw [h]
  rfl

theorem arbitrate_idle {e : Env} {r : Rack} (h : r.bus.entries = []) (hd : duePolls e r = []) :
    arbitrate e r = r := by
  unfold arbitrate
  rw [chosen_none _ h, hd]
  exact ite_self r

theorem arbitrate_command {e : Env} {r : Rack} {x : CmdEntry} (hf : busFree e r = true)
    (hx : r.bus.chosen e.now = some x) (hd : r.bus.sincePoll < 4 ∨ duePolls e r = []) :
    arbitrate e r = { r with bus := r.bus.beginCommand e.now x } := by
  unfold arbitrate
  rw [if_pos hf, hx]
  cases hp : duePolls e r with
  | nil => rfl
  | cons p rest =>
    have hc : r.bus.sincePoll < Config.commandsPerPoll :=
      hd.resolve_right fun hn => by rw [hn] at hp; cases hp
    exact if_pos hc

theorem arbitrate_poll {e : Env} {r : Rack} {p : Pos} {rest : List Pos} (hf : busFree e r = true)
    (hd : duePolls e r = p :: rest) (hc : r.bus.entries = [] ∨ 4 ≤ r.bus.sincePoll) :
    arbitrate e r = { r with bus := r.bus.beginPoll e.now p rest } := by
  unfold arbitrate
  rw [if_pos hf, hd]
  cases hx : r.bus.chosen e.now with
  | none => rfl
  | some x =>
    have full : ¬ r.bus.sincePoll < Config.commandsPerPoll := by
      refine not_lt.mpr (hc.resolve_left fun hn => ?_)
      rw [chosen_none _ hn] at hx
      cases hx
    exact if_neg full

/-- The arbiter changes the bus alone. -/
theorem arbitrate_frame (e : Env) (r : Rack) :
    arbitrate e r = { r with bus := (arbitrate e r).bus } := by
  unfold arbitrate
  split
  · split
    · rfl
    · split <;> rfl
    · rfl
    · rfl
  · rfl

theorem duePolls_none {e : Env} {r : Rack} (h : r.bus.cycle = none) : duePolls e r = [] := by
  unfold duePolls
  rw [h]

theorem duePolls_some {e : Env} {r : Rack} {c : PollCycle} (h : r.bus.cycle = some c) :
    duePolls e r = c.due.filter (polled e r) := by
  unfold duePolls
  rw [h]

end Sys2Proof.Machine

section
open Sys2Proof Sys2Proof.Machine

/-- Settles O44: the queue's answer by what stands for the position, and what any offer leaves. -/
theorem offerTable : Obligations.OfferTable := by
  refine ⟨fun e p c r => ⟨fun h => offer_dropped (not_takesOffers h) c, fun hs hp hl => ?_, ?_,
    fun q hq => entry_offer_other _ _ _ _ (Ne.symm hq), Bus.offer_nodup _ _ _ _ _⟩, fun e r =>
    ⟨readsPsu_iff e r, readsBu_iff e r, fun i => beq_iff_eq, fun j => beq_iff_eq⟩⟩
  · have opened := offer_open ((takesOffers_iff e r p).mpr ⟨hs, hp, hl⟩) c
    refine ⟨fun h => ?_, fun x hx h1 hc => ?_, fun x hx h => ?_, fun x hx hc h => ?_⟩
    · have none := (entry_none_iff r.bus p).mpr h
      rw [opened, busOffer_fresh none]
      refine ⟨?_, accept_inFlight ..⟩
      show (r.bus.discard p).entries ++ _ = _
      rw [discard_none none]
    · rw [opened, busOffer_behind hx h1 hc]
    · rw [opened, busOffer_equal hx h]
    · rw [opened, busOffer_replaces hx hc h]
      exact ⟨entry_accept_self .., accept_others .., accept_inFlight ..⟩
  · exact congrArg (fun b : Bus => { r with bus := b }) (busOffer_frame ..)

/-- Settles O45: the arbiter's four cases, the order of the queue's entries, and the polls still due. -/
theorem arbiterOrder : Obligations.ArbiterOrder := by
  intro e r
  refine ⟨arbitrate_taken, arbitrate_idle, fun hf he hc => ?_, fun p rest hf hd hc => ?_,
    arbitrate_frame e r, busFree_iff e r, duePolls_none, fun c hc => ?_⟩
  · obtain ⟨x, hx, chosen, leads⟩ := chosen_leads (b := r.bus) e.now he
    refine ⟨x, hx, ?_, leads⟩
    rw [arbitrate_command hf chosen hc]
    obtain ⟨p, c, t⟩ := x
    cases c <;> rfl
  · rw [arbitrate_poll hf hd hc]
    rfl
  · rw [duePolls_some hc]
    exact ⟨List.filter_sublist, fun h => h.filter _, fun p => List.mem_filter⟩

end
end

