-- ==== Sys2Proof/Proofs/ReadRequests.lean ====
section
/-! PROOF. The requests that read: what they answer, how their figures begin, and that a section of
READ_RACK fits in a reply (O21). -/

namespace Sys2Proof.Machine

/-! ### The answers (R81, R173, R178, R190, R194, R195) -/

/-- A request of one index that only reads is answered OK with its figures. -/
theorem serve_reads {s : State} {kind tag : Byte} {k : Nat} (hk : k ≤ 256) (i : Fin k)
    (f : Fin k → State → List Byte) (h : Ready s kind tag (u8 i.val)) :
    s.serve false kind tag (u8 i.val) (indexed k (u8 i.val) fun i s => s.answer codeOk (f i s)) =
      (s.take.reply kind tag (codeOk :: f i s.take)).conclude := by
  rw [State.serve_ready h, indexed_u8 hk]
  rfl

/-- The frame that leaves the receive queue changes no figure of a section. -/
theorem sectionFigures_take (s : State) (i : Fin 5) : sectionFigures s.take i = sectionFigures s i := by
  unfold sectionFigures
  split <;> rfl

theorem leafFigures_take (s : State) (leaf : Byte) : leafFigures s.take leaf = leafFigures s leaf := by
  unfold leafFigures
  split <;> rfl

theorem exec_readRack {s : State} {tag : Byte} {i : Fin 5} (h : Ready s 0x02 tag (u8 i.val)) :
    exec (.readRack tag (u8 i.val)) s =
      .next (s.take.reply 0x02 tag (codeOk :: sectionFigures s i)).conclude := by
  rw [← sectionFigures_take]
  exact congrArg _ (serve_reads (by decide) i (fun i s => sectionFigures s i) h)

theorem exec_identify {s : State} {tag leaf : Byte} (h : s.executes ⟨0x01, tag, [leaf]⟩ = true)
    (ht : tag ≠ 0) : exec (.identify tag [leaf]) s =
      .next (s.take.reply 0x01 tag (codeOk :: leafFigures s leaf)).conclude := by
  rw [← leafFigures_take]
  exact congrArg _ (State.serve_early h ht)

theorem exec_unknownKind {s : State} {kind tag : Byte} {payload : List Byte}
    (h : s.executes ⟨kind, tag, payload⟩ = true) (ht : tag ≠ 0) (hk : kind ∉ requestKinds) :
    exec (.unknownKind kind tag payload) s =
      .next (s.take.reply kind tag [codeUnknownKind]).conclude := by
  have hc : requestKinds.contains kind = false := by simpa using hk
  show execUnknownKind kind tag payload s = _
  unfold execUnknownKind
  rw [hc]
  exact congrArg _ (State.serve_early h ht)

/-! ### The lengths of the figures (R187) -/

theorem u8_length (n : Nat) : (u8 n).length = 1 := rfl

theorem u16_length (n : Nat) : (u16 n).length = 2 := rfl

theorem u32_length (n : Nat) : (u32 n).length = 4 := rfl

theorem flag_length (b : Bool) : (flag b).length = 1 := rfl

theorem stamp_length (t : Time) : (stamp t).length = 4 := rfl

theorem groupByte_length (x : HistEntry) : x.groupByte.length = 1 := by
  unfold HistEntry.groupByte
  split <;> rfl

/-- An optional field takes one byte more than the field. -/
theorem optional_length {α : Type} {send : α → List Byte} {zero : α} {n : Nat}
    (h : ∀ x, (send x).length = n) (o : Option α) : (optional send zero o).length = n + 1 := by
  cases o <;> simp [optional, h]

theorem flatMap_length {α : Type} {send : α → List Byte} {n : Nat} (h : ∀ x, (send x).length = n)
    (xs : List α) : (xs.flatMap send).length = n * xs.length := by
  induction xs with
  | nil => rfl
  | cons x xs ih => rw [List.flatMap_cons, List.length_append, ih, h, List.length_cons]; ring

/-- A list takes a count byte and its entries. -/
theorem listed_length {α : Type} {send : α → List Byte} {n : Nat} (h : ∀ x, (send x).length = n)
    (xs : List α) : (listed send xs).length = n * xs.length + 1 := by
  unfold listed
  rw [List.length_append, flatMap_length h, u8_length, Nat.add_comm]

theorem accountFigures_length (e : Env) (r : Rack) : (accountFigures e r).length = 39 := rfl

theorem queueFigures_length (e : Env) (r : Rack) : (queueFigures e r).length =
    r.queue.entries.length + 5 * r.queue.history.length + 22 := by
  unfold queueFigures
  simp only [List.length_append, u8_length, u32_length, optional_length u8_length,
    optional_length u32_length, optional_length flag_length, listed_length (fun _ => u8_length _),
    listed_length (send := fun x : HistEntry => stamp x.time ++ x.groupByte) (n := 5) (fun x => by
      rw [List.length_append, stamp_length, groupByte_length])]
  omega

theorem gridFigures_length (e : Env) (r : Rack) : (gridFigures e r).length = 20 := by
  unfold gridFigures
  simp only [List.length_append, u8_length, u16_length, flag_length, optional_length stamp_length,
    optional_length u32_length]

theorem holdUpFigures_length (h : HoldUp) : (holdUpFigures h).length = 59 := by
  unfold holdUpFigures
  simp only [List.length_append, u8_length, u16_length, u32_length, flag_length,
    optional_length stamp_length]

theorem rechargeFigures_length (r : Rack) : (rechargeFigures r).length = 24 := by
  unfold rechargeFigures
  simp only [List.length_append, u16_length, u32_length, flag_length, optional_length stamp_length,
    optional_length u8_length]

theorem countFigures_length (s : State) : (countFigures s).length = 46 := rfl

/-- A section of READ_RACK fits in a reply (R194). -/
theorem section_fits (s : State) (he : s.rack.queue.entries.length ≤ 48)
    (hh : s.rack.queue.history.length ≤ 4) (i : Fin 5) :
    (codeOk :: sectionFigures s i).length ≤ 240 := by
  rw [List.length_cons]
  unfold sectionFigures
  split
  · rw [accountFigures_length]; omega
  · rw [queueFigures_length]; omega
  · rw [List.length_append, gridFigures_length, holdUpFigures_length]; omega
  · rw [rechargeFigures_length]; omega
  · rw [countFigures_length]; omega

theorem bankFigures_length (b : Bank) : (bankFigures b).length = 12 := rfl

/-! ### How the figures begin -/

theorem toList_eq_map {α : Type} {k : Nat} (v : Vector α k) :
    v.toList = (List.finRange k).map fun i => v[i] := by
  refine List.ext_getElem (by simp) fun i h₁ h₂ => ?_
  simp

/-- A count over a table is the number of its entries that have the flag. -/
theorem countOf_toList {α : Type} {k : Nat} (v : Vector α k) (p : α → Bool) :
    countOf k (fun i => p v[i]) = ((v.toList.map p).filter id).length := by
  rw [toList_eq_map, List.map_map, List.filter_map, List.length_map]
  rfl

theorem presentPsus_eq (r : Rack) :
    presentPsus r = ((r.psu.toList.map PsuRec.present).filter id).length := countOf_toList ..

theorem accountFigures_first (e : Env) (r : Rack) : (accountFigures e r).take 17 =
    flag r.acct.takenUp ++ u8 r.acct.nOn ++ u32 (presentPsus r) ++ u8 e.k ++ u32 r.acct.g ++
      u16 r.acct.q ++ u32 r.acct.a := rfl

theorem queueFigures_first (e : Env) (r : Rack) : (queueFigures e r).take 3 =
    u8 r.queue.entries.length ++ (match r.queue.head with
      | some x => 1 :: u8 x.slot.val
      | none => [0, 0]) := by
  unfold queueFigures
  dsimp only
  cases r.queue.head <;> rfl

/-- The Controller's figures stand first in section 2, and the Calculator's last three end it (R121,
R138). -/
theorem gridSection_ends (e : Env) (r : Rack) (h : HoldUp) : ∃ rest,
    gridFigures e r ++ holdUpFigures h = u8 r.grid.state.code ++ u8 r.grid.level ++
      flag r.grid.inEvent ++ rest ++ (u8 h.required ++ flag h.drainHolds ++ flag h.shortLogged) := by
  have first : ∃ a, gridFigures e r = u8 r.grid.state.code ++ u8 r.grid.level ++
      flag r.grid.inEvent ++ a :=
    ⟨_, by unfold gridFigures; simp only [List.append_assoc]; rfl⟩
  have last : ∃ b, holdUpFigures h = b ++ (u8 h.required ++ flag h.drainHolds ++ flag h.shortLogged) :=
    ⟨_, by unfold holdUpFigures; simp only [← List.append_assoc]; rfl⟩
  obtain ⟨a, ha⟩ := first
  obtain ⟨b, hb⟩ := last
  exact ⟨a ++ b, by rw [ha, hb]; simp only [List.append_assoc]⟩

theorem slotFigures_first (e : Env) (r : Rack) (n : Fin 48) : (slotFigures e r n).take 10 =
    u8 (r.slots[n]).state.code ++ u8 (e.cfg.record.slots[n]).profile ++
      u8 (e.cfg.record.slots[n]).group ++ u8 (e.cfg.record.slots[n]).zone ++ u8 (e.rank n) ++
      u8 (e.order n) ++ flag (r.slots[n]).permit ++ flag (r.slots[n]).warn ++
      flag (r.slots[n]).good ++ flag (r.slots[n]).parked := by
  unfold slotFigures
  rfl

theorem moduleFigures_first (e : Env) (r : Rack) (i : Fin 18) : (moduleFigures e r i).take 7 =
    u8 i.val ++ flag (r.psu[i]).present ++ u8 (r.psu[i]).state.code ++ u16 (r.psu[i]).capability ++
      u16 (r.psu[i]).output := by
  unfold moduleFigures
  rfl

theorem batteryRecord_first (j : Fin 12) (b : BuRec) : (batteryRecord j b).take 7 =
    u8 j.val ++ flag b.present ++ u8 b.state.code ++ u16 b.energy ++ u16 b.discharge := by
  have first : ∃ rest, batteryRecord j b =
      (u8 j.val ++ flag b.present ++ u8 b.state.code ++ u16 b.energy ++ u16 b.discharge) ++ rest :=
    ⟨_, by unfold batteryRecord; simp only [List.append_assoc]; rfl⟩
  obtain ⟨rest, h⟩ := first
  rw [h]
  exact List.take_left' rfl

theorem batteryFigures_first (r : Rack) (j : Fin 12) : (batteryFigures r j).take 7 =
    u8 j.val ++ flag (r.bu[j]).present ++ u8 (r.bu[j]).state.code ++ u16 (r.bu[j]).energy ++
      u16 (r.bu[j]).discharge := by
  have long : 7 ≤ (batteryRecord j r.bu[j]).length := by
    have h := congrArg List.length (batteryRecord_first j r.bu[j])
    have seven : (u8 j.val ++ flag (r.bu[j]).present ++ u8 (r.bu[j]).state.code ++
        u16 (r.bu[j]).energy ++ u16 (r.bu[j]).discharge).length = 7 := rfl
    rw [List.length_take, seven] at h
    omega
  unfold batteryFigures
  simp only [List.append_assoc]
  rw [List.take_append_of_le_length long, batteryRecord_first]
  simp only [List.append_assoc]

theorem zoneFigures_first (s : State) (z : Fin 8) : (zoneFigures s z).take 5 =
    u8 (s.leak.zones[z]).state.code ++ u8 (s.action z).code ++ u16 (s.cfg.leakTable[z]).grace ++
      flag (s.cfg.leakTable[z]).shelfIsolate := by
  unfold zoneFigures
  rfl

theorem commissionLeaf_locked {s : State} (h : s.cfg.locked = true) : (leafFigures s 2).take 9 =
    2 :: Config.lockStateCode true :: (u8 s.cfg.record.rack.shelfCount ++ u8 s.cfg.record.rack.k ++
      u8 s.cfg.record.rack.slotCount ++ u32 (presentPsus s.rack)) := by
  show (2 :: commissionLeaf s).take 9 = _
  unfold commissionLeaf whenLocked
  rw [h]
  rfl

theorem commissionLeaf_unlocked {s : State} (h : s.cfg.locked = false) :
    leafFigures s 2 = 2 :: Config.lockStateCode false :: List.replicate 35 0 := by
  show 2 :: commissionLeaf s = _
  unfold commissionLeaf whenLocked
  have zeros : u8 0 ++ u8 0 ++ u8 0 ++ u32 0 ++ u32 0 ++ u32 0 ++ u32 0 ++ u32 0 ++ u32 0 ++ u32 0 ++
      u32 0 = List.replicate 35 0 := by decide
  rw [h, ← zeros]
  rfl

theorem leafFigures_unknown (s : State) {leaf : Byte} (h : 3 ≤ leaf.toNat) :
    leafFigures s leaf = [leaf] := by
  unfold leafFigures
  split
  · omega
  · omega
  · omega
  · rfl

theorem faultFigures_first (f : Faults) (q : NotifQueue) : (faultFigures f q).take 74 =
    f.banks.toList.flatMap bankFigures ++ flag f.inProgress ++ flag f.hold.isSome := by
  have first : ∃ rest, faultFigures f q =
      (f.banks.toList.flatMap bankFigures ++ flag f.inProgress ++ flag f.hold.isSome) ++ rest :=
    ⟨_, by unfold faultFigures Faults.held; simp only [List.append_assoc]; rfl⟩
  obtain ⟨rest, h⟩ := first
  rw [h]
  refine List.take_left' ?_
  rw [List.length_append, List.length_append, flatMap_length bankFigures_length, flag_length,
    flag_length, Vector.length_toList]

end Sys2Proof.Machine

section
open Sys2Proof Sys2Proof.Machine

/-- Settles O21: a request that reads answers its figures, whose first bytes stand by their definitions
and whose lengths are those of their fields. -/
theorem readRequests : Obligations.ReadRequests := by
  refine ⟨fun s tag => ⟨fun leaf h ht => exec_identify h ht, fun i => exec_readRack,
    fun n h => congrArg _ (serve_reads (by decide) n (fun n s => slotFigures s.env s.rack n) h),
    fun i h => congrArg _ (serve_reads (by decide) i (fun i s => moduleFigures s.env s.rack i) h),
    fun j h => congrArg _ (serve_reads (by decide) j (fun j s => batteryFigures s.rack j) h),
    fun z h => congrArg _ (serve_reads (by decide) z (fun z s => zoneFigures s z) h),
    fun h => congrArg _ (State.serve_ready h), fun kind payload => exec_unknownKind⟩, fun s => ?_⟩
  refine ⟨rfl, rfl, fun h => ?_, commissionLeaf_unlocked, fun leaf => leafFigures_unknown s, ?_,
    queueFigures_first _ _, gridSection_ends _ _ _, rfl, rfl, section_fits s, fun n => slotFigures_first _ _ n,
    fun i => ⟨moduleFigures_first _ _ i, List.getLast?_concat⟩,
    fun j => ⟨batteryFigures_first _ j, checkFigures s.rack j, ?_⟩, zoneFigures_first s,
    faultFigures_first _ _⟩
  · exact (commissionLeaf_locked h).trans (by rw [presentPsus_eq])
  · exact (accountFigures_first _ _).trans (by rw [presentPsus_eq]; rfl)
  · unfold batteryFigures
    simp only [List.append_assoc]

end
end

