-- ==== Sys2Proof/Proofs/ReportsKept.lean ====
section
/-! PROOF. What the blocks leave of the modules' records: each BU keeps what its report gave it, every PSU
record stands, and no transaction begins (R38, R41, R42). The layer under O41, O42 and O43. -/

namespace Sys2Proof.Machine

variable {e : Env} {p : Fin 12 → Prop} {j : Fin 12} {a b c r : Rack}

/-- A BU's record keeps what its reports gave it, its health and its counters; the setpoint, the commanded
isolation and what the Check Scheduler holds of it are free. -/
def BuRec.Reported (x y : BuRec) : Prop :=
  y = { x with
    setpoint := y.setpoint, commandedIsolate := y.commandedIsolate, stale := y.stale
    postponed := y.postponed, due := y.due, dueMs := y.dueMs, phase := y.phase
    sampleDeadline := y.sampleDeadline, strayCounted := y.strayCounted, aborts := y.aborts }

theorem BuRec.Reported.refl (x : BuRec) : x.Reported x := rfl

theorem BuRec.Reported.trans {x y z : BuRec} (h : x.Reported y) (k : y.Reported z) : x.Reported z := by
  unfold BuRec.Reported at h k ⊢
  rw [k, h]

/-- A figure of the record that the free fields do not enter is kept. -/
theorem BuRec.Reported.figure {α : Type} {x y : BuRec} (h : x.Reported y) (g : BuRec → α)
    (hg : g { x with
      setpoint := y.setpoint, commandedIsolate := y.commandedIsolate, stale := y.stale
      postponed := y.postponed, due := y.due, dueMs := y.dueMs, phase := y.phase
      sampleDeadline := y.sampleDeadline, strayCounted := y.strayCounted, aborts := y.aborts } = g x) :
    g y = g x := (congrArg g h).trans hg

/-- What blocks leave of the modules: no transaction begins, the bus keeps all but its queue, the PSU
records stand, every BU's record keeps what its reports gave it, and those of the BUs outside p are left
whole. -/
structure ReportsKept (p : Fin 12 → Prop) (a b : Rack) : Prop where
  idle : a.bus.inFlight = none → b.bus.inFlight = none
  bus : b.bus = { a.bus with entries := b.bus.entries, inFlight := b.bus.inFlight }
  psu : b.psu = a.psu
  reported : ∀ k : Fin 12, (a.bu[k]).Reported b.bu[k]
  apart : ∀ k : Fin 12, ¬p k → b.bu[k] = a.bu[k]

theorem ReportsKept.of_eq (hb : b.bus = a.bus) (hp : b.psu = a.psu) (hu : b.bu = a.bu) :
    ReportsKept p a b :=
  ⟨fun h => by rw [hb, h], by rw [hb], hp, fun _ => by rw [hu]; exact .refl _, fun _ _ => by rw [hu]⟩

theorem ReportsKept.refl (r : Rack) : ReportsKept p r r := .of_eq rfl rfl rfl

theorem ReportsKept.trans (h : ReportsKept p a b) (k : ReportsKept p b c) : ReportsKept p a c :=
  ⟨k.idle ∘ h.idle, by rw [k.bus, h.bus], k.psu.trans h.psu, fun n => (h.reported n).trans (k.reported n),
    fun n hn => (k.apart n hn).trans (h.apart n hn)⟩

theorem ReportsKept.ite {q : Prop} [Decidable q] (h : ReportsKept p a b) (k : ReportsKept p a c) :
    ReportsKept p a (if q then b else c) := by
  split <;> assumption

/-- What blocks keep after a change beside the modules. -/
theorem ReportsKept.after (k : ReportsKept p b c) (hb : b.bus = a.bus) (hp : b.psu = a.psu)
    (hu : b.bu = a.bu) : ReportsKept p a c := (ReportsKept.of_eq hb hp hu).trans k

theorem ReportsKept.state (h : ReportsKept p a b) (k : Fin 12) : (b.bu[k]).state = (a.bu[k]).state :=
  (h.reported k).figure BuRec.state rfl

theorem SameModules.reportsKept (h : SameModules a b) : ReportsKept p a b := .of_eq h.bus h.psu h.bu

theorem forEach_reportsKept {α : Type} {f : α → Rack → Rack} (h : ∀ x r, ReportsKept p r (f x r)) :
    ∀ (xs : List α) (r : Rack), ReportsKept p r (forEach f xs r)
  | [], r => .refl r
  | x :: xs, r => (h x r).trans (forEach_reportsKept h xs (f x r))

/-! ### One operation -/

theorem offer_idle (now : Time) (o : Bool) (q : Pos) (x : ShelfCmd) {s : Bus} (h : s.inFlight = none) :
    (s.offer now o q x).inFlight = none := by
  have taken : (s.accept now q x).inFlight = none := by
    show s.inFlight.map _ = none
    rw [h]
    rfl
  unfold Bus.offer
  split
  · exact h
  · split
    · exact taken
    · split
      · exact h
      · split
        · exact h
        · exact taken

theorem offer_reportsKept (q : Pos) (x : ShelfCmd) (r : Rack) : ReportsKept p r (offer e q x r) :=
  ⟨offer_idle e.now _ q x, busOffer_frame .., rfl, fun _ => .refl _, fun _ _ => rfl⟩

theorem raise_reportsKept (x : NotifClass) (k n v : Nat) (r : Rack) :
    ReportsKept p r (raise e x k n v r) := .of_eq rfl rfl rfl

theorem logFault_reportsKept (f : FaultKind) (n : Nat) (r : Rack) :
    ReportsKept p r (logFault e f n r) := .of_eq (logFault_bus ..) (logFault_psu ..) (logFault_bu ..)

/-- One BU's record is changed in the free fields. -/
theorem ReportsKept.changed (hj : p j) (f : BuRec → BuRec) (hb : b.bus = a.bus) (hp : b.psu = a.psu)
    (hu : b.bu = change a.bu j f) (hf : ∀ x : BuRec, x.Reported (f x)) : ReportsKept p a b where
  idle h := by rw [hb, h]
  bus := by rw [hb]
  psu := hp
  reported k := by
    rw [hu, change_get]
    split
    · next h => subst h; exact hf _
    · exact .refl _
  apart k hk := by
    rw [hu, change_get, if_neg]
    rintro rfl
    exact hk hj

/-! ### The Recharge Allocator -/

theorem sendSetpoint_reportsKept (hj : p j) (u : Nat) (r : Rack) :
    ReportsKept p r (sendSetpoint e j u r) := by
  have set : ReportsKept p r { r with bu := change r.bu j fun x => { x with setpoint := u } } :=
    .changed hj (fun x => { x with setpoint := u }) rfl rfl rfl fun _ => rfl
  exact set.trans (offer_reportsKept ..)

theorem reportRc_reportsKept (rc : Nat) (r : Rack) : ReportsKept p r (reportRc rc r) :=
  .ite (.refl r) (.of_eq rfl rfl rfl)

theorem followRc_reportsKept (r : Rack) : ReportsKept p r (followRc r) := reportRc_reportsKept ..

theorem memberLeave_reportsKept (hj : p j) (r : Rack) : ReportsKept p r (memberLeave e j r) := by
  unfold memberLeave
  split
  · exact ((sendSetpoint_reportsKept hj 0 _).trans (followRc_reportsKept _)).after rfl rfl rfl
  · exact .refl r

theorem leaveMembers_reportsKept (hj : p j) (r : Rack) : ReportsKept p r (leaveMembers e j r) :=
  .ite (.refl r) (memberLeave_reportsKept hj r)

theorem sendSetpoints_reportsKept (hp : ∀ j, p j) (holds : Fin 12 → Bool) (n : Nat) (r : Rack) :
    ReportsKept p r (sendSetpoints e holds n r) := by
  refine forEach_reportsKept (fun j r => ?_) _ r
  split
  · exact sendSetpoint_reportsKept (hp j) _ r
  · exact .ite (sendSetpoint_reportsKept (hp j) 0 r) (.refl r)

theorem startFrame_reportsKept (hp : ∀ j, p j) (t : Time) (pool : Nat) (r : Rack) :
    ReportsKept p r (startFrame e t pool r) := by
  unfold startFrame
  exact ((followRc_reportsKept _).trans (sendSetpoints_reportsKept hp _ _ _)).after rfl rfl rfl

theorem poolUpdate_reportsKept (hp : ∀ j, p j) (r : Rack) : ReportsKept p r (poolUpdate e r) :=
  .ite ((startFrame_reportsKept hp _ _ _).after rfl rfl rfl) (.of_eq rfl rfl rfl)

theorem stopRecharge_reportsKept (hp : ∀ j, p j) (r : Rack) : ReportsKept p r (stopRecharge e r) := by
  unfold stopRecharge
  dsimp only
  have cut : ReportsKept p r { r with
      rech := initialRecharge, bu := r.bu.map fun x => { x with setpoint := 0 } } := by
    refine ⟨id, rfl, rfl, fun k => ?_, fun k hk => absurd (hp k) hk⟩
    show (r.bu[k]).Reported (r.bu.map _)[k]
    rw [Fin.getElem_fin, Fin.getElem_fin, Vector.getElem_map]
    rfl
  exact (cut.trans (forEach_reportsKept (fun _ r => .ite (offer_reportsKept ..) (.refl r)) _ _)).trans
    (reportRc_reportsKept ..)

/-! ### The Capacity Account -/

theorem evaluateShortfall_reportsKept (hp : ∀ j, p j) (r : Rack) :
    ReportsKept p r (evaluateShortfall e r) := by
  have enters : ReportsKept p r (enterShortfall e r) := by
    unfold enterShortfall
    refine ReportsKept.trans ?_ (shedSelection_sameModules ..).reportsKept
    refine ReportsKept.trans ?_ (raise_reportsKept ..)
    exact ((logFault_reportsKept ..).trans (poolUpdate_reportsKept hp _)).after rfl rfl rfl
  exact .ite (.ite (followDeficit_sameModules e r).reportsKept (.of_eq rfl rfl rfl))
    (.ite enters (.refl r))

/-! ### The Check Scheduler -/

theorem setDue_reportsKept (hj : p j) (n : Nat) (r : Rack) : ReportsKept p r (setDue j n r) :=
  .changed hj (fun x => { x with due := n, dueMs := 0 }) rfl rfl rfl fun _ => rfl

theorem setPhase_reportsKept (hj : p j) (q : CheckPhase) (d : Option Deadline) (r : Rack) :
    ReportsKept p r (setPhase j q d r) :=
  .changed hj (fun x => { x with phase := q, sampleDeadline := d }) rfl rfl rfl fun _ => rfl

theorem endActive_reportsKept (hj : p j) (r : Rack) : ReportsKept p r (endActive j r) :=
  .changed hj (fun x => { x with phase := .none, sampleDeadline := none }) rfl rfl rfl fun _ => rfl

theorem countAbort_reportsKept (hj : p j) (r : Rack) : ReportsKept p r (countAbort j r) :=
  .changed hj (fun x => { x with aborts := min Config.count8Max (x.aborts + 1) }) rfl rfl rfl fun _ => rfl

theorem checkEnded_reportsKept (k : Fin 12) (o : Nat) (r : Rack) :
    ReportsKept p r (checkEnded e k o r) := raise_reportsKept ..

theorem evaluateFigures_reportsKept (r : Rack) : ReportsKept p r (evaluateFigures e r) :=
  .of_eq rfl rfl rfl

/-- The mark of a BU that has become stale, with the evaluation on it (R130, R151). -/
theorem staled_reportsKept (j : Fin 12) (r : Rack) : ReportsKept p r
    (evaluateFigures e (logFault e .checkStale (buAddress j) { r with todo.hold := true })) :=
  ((logFault_reportsKept ..).trans (evaluateFigures_reportsKept _)).after rfl rfl rfl

theorem postpone_reportsKept (hj : p j) (reason : Nat) (r : Rack) :
    ReportsKept p r (postpone e j reason r) := by
  unfold postpone
  dsimp only
  generalize min Config.count8Max ((r.bu[j]).postponed + 1) = n
  generalize (n == 4 && !(r.bu[j]).stale) = s
  have counted : ReportsKept p r { r with
      bu := change r.bu j fun x => { x with postponed := n, stale := x.stale || s } } :=
    .changed hj (fun x => { x with postponed := n, stale := x.stale || s }) rfl rfl rfl fun _ => rfl
  have raised := (counted.trans (setDue_reportsKept hj Config.postponeSeconds _)).trans
    (raise_reportsKept (e := e) .battery 4 j.val (n + 256 * reason) _)
  exact .ite (raised.trans (staled_reportsKept j _)) raised

theorem notTaken_reportsKept (hj : p j) (r : Rack) : ReportsKept p r (notTaken e j r) :=
  ((endActive_reportsKept hj r).trans (checkEnded_reportsKept ..)).trans (postpone_reportsKept hj _ _)

theorem abortCheck_reportsKept (hj : p j) (stop : Bool) (r : Rack) :
    ReportsKept p r (abortCheck e j stop r) := by
  unfold abortCheck
  refine ReportsKept.trans ?_ (checkEnded_reportsKept ..)
  refine ReportsKept.trans ?_ (countAbort_reportsKept hj _)
  refine ReportsKept.trans ?_ (setDue_reportsKept hj _ _)
  exact (endActive_reportsKept hj r).trans (.ite (offer_reportsKept ..) (.refl _))

theorem abortActive_reportsKept (hp : ∀ j, p j) (r : Rack) : ReportsKept p r (abortActive e r) := by
  unfold abortActive
  split
  · exact abortCheck_reportsKept (hp _) true r
  · exact .refl r

theorem startCheck_reportsKept (hj : p j) (r : Rack) : ReportsKept p r (startCheck e j r) := by
  unfold startCheck
  dsimp only
  have asked : ReportsKept p r (raise e .battery 3 j.val (newCheck e j).depth
      (offer e (.bu j) (.startCheck (newCheck e j).depth (newCheck e j).power)
        { memberLeave e j (setPhase j .requested none r) with
          active := some (newCheck e j), todo.grid := true })) := by
    refine ReportsKept.trans ?_ (raise_reportsKept ..)
    refine ReportsKept.trans ?_ (offer_reportsKept ..)
    have left : ReportsKept p r (memberLeave e j (setPhase j .requested none r)) :=
      (setPhase_reportsKept hj _ _ r).trans (memberLeave_reportsKept hj _)
    exact left.trans (.of_eq rfl rfl rfl)
  exact .ite asked (asked.trans (notTaken_reportsKept hj _))

theorem evaluateChecks_reportsKept (hp : ∀ j, p j) (pick : Fin 12 → Bool) (r : Rack) :
    ReportsKept p r (evaluateChecks e pick r) := by
  refine forEach_reportsKept (fun j r => ?_) _ r
  exact .ite (.ite (.ite (startCheck_reportsKept (hp j) r) (postpone_reportsKept (hp j) _ r)) (.refl r))
    (.refl r)

/-! ### The Ride-Through Controller -/

theorem moveGrid_reportsKept (g : Grid) (level : Nat) (r : Rack) :
    ReportsKept p r (moveGrid e g level r) := .of_eq rfl rfl rfl

theorem offerIsolate_reportsKept (hj : p j) (r : Rack) : ReportsKept p r (offerIsolate e j r) := by
  have set : ReportsKept p r { r with
      bu := change r.bu j fun x => { x with commandedIsolate := true } } :=
    .changed hj (fun x => { x with commandedIsolate := true }) rfl rfl rfl fun _ => rfl
  exact set.trans (offer_reportsKept ..)

theorem offerRestore_reportsKept (hj : p j) (r : Rack) : ReportsKept p r (offerRestore e j r) := by
  have set : ReportsKept p r { r with
      bu := change r.bu j fun x => { x with commandedIsolate := false } } :=
    .changed hj (fun x => { x with commandedIsolate := false }) rfl rfl rfl fun _ => rfl
  exact set.trans (offer_reportsKept ..)

theorem enterDark_reportsKept (hp : ∀ j, p j) (r : Rack) : ReportsKept p r (enterDark e r) :=
  (moveGrid_reportsKept ..).trans
    (forEach_reportsKept (fun j r => .ite (offerIsolate_reportsKept (hp j) r) (.refl r)) _ _)

theorem drainAll_reportsKept (q : DrainRequest) (pick : Fin 48 → SlotRec → Bool) (r : Rack) :
    ReportsKept p r (drainAll e q pick r) :=
  forEach_reportsKept (fun n r => .ite (drain_sameModules e q n r).reportsKept (.refl r)) _ r

theorem enterDrain_reportsKept (hp : ∀ j, p j) (r : Rack) : ReportsKept p r (enterDrain e r) := by
  unfold enterDrain
  dsimp only
  have started := (moveGrid_reportsKept (p := p) (e := e)
    { r.grid with state := .drain, drainFlag := true } r.grid.level r).trans
      (logFault_reportsKept (e := e) .drainStarted r.hold.usableCount _)
  have drained := started.trans (drainAll_reportsKept (e := e) .rackDrain (fun _ x => x.state.powered) _)
  exact .ite (drained.trans (enterDark_reportsKept hp _)) drained

theorem energyShort_reportsKept (r : Rack) : ReportsKept p r (energyShort e r) :=
  .ite ((logFault_reportsKept ..).after rfl rfl rfl) (.refl r)

theorem raiseLevel_reportsKept (r : Rack) : ReportsKept p r (raiseLevel e r) :=
  .ite (.of_eq rfl rfl rfl) (.refl r)

theorem actOnHold_reportsKept (hp : ∀ j, p j) (r : Rack) : ReportsKept p r (actOnHold e r) := by
  have raised : ReportsKept p r (raiseLevel e (energyShort e r)) :=
    (energyShort_reportsKept r).trans (raiseLevel_reportsKept _)
  exact .ite (.ite (raised.trans (enterDrain_reportsKept hp _)) (raised.trans (drainAll_reportsKept ..)))
    (.refl r)

theorem evaluateHold_reportsKept (hp : ∀ j, p j) (r : Rack) : ReportsKept p r (evaluateHold e r) :=
  (actOnHold_reportsKept hp _).after rfl rfl rfl

theorem beginEvent_reportsKept (hp : ∀ j, p j) (r : Rack) : ReportsKept p r (beginEvent e r) := by
  unfold beginEvent
  refine ReportsKept.trans ?_ (evaluateHold_reportsKept hp _)
  refine ReportsKept.trans ?_ (abortActive_reportsKept hp _)
  refine ReportsKept.trans ?_ (stopRecharge_reportsKept hp _)
  exact (evaluateShortfall_reportsKept hp _).after rfl rfl rfl

theorem enterQualify_reportsKept (hp : ∀ j, p j) (r : Rack) : ReportsKept p r (enterQualify e r) :=
  (moveGrid_reportsKept ..).trans
    (forEach_reportsKept (fun j r => .ite (offerRestore_reportsKept (hp j) r) (.refl r)) _ _)

theorem bounce_reportsKept (hp : ∀ j, p j) (r : Rack) : ReportsKept p r (bounce e r) :=
  (moveGrid_reportsKept ..).trans (evaluateHold_reportsKept hp _)

theorem evaluateGrid_reportsKept (hp : ∀ j, p j) (r : Rack) : ReportsKept p r (evaluateGrid e r) := by
  unfold evaluateGrid
  split
  · exact .ite (beginEvent_reportsKept hp r) (.refl r)
  · exact .ite (enterQualify_reportsKept hp r) (.refl r)
  · exact .ite (.ite (bounce_reportsKept hp r) (beginEvent_reportsKept hp r)) (.refl r)
  · exact .ite (enterQualify_reportsKept hp r) (.refl r)
  · exact .refl r
  · exact .refl r

/-! ### The blocks, handed on to -/

theorem passBlocks_reportsKept (hp : ∀ j, p j) (r : Rack) : ReportsKept p r (passBlocks e r) := by
  have grid (r : Rack) : ReportsKept p r (gridTurn e r) :=
    .ite ((evaluateGrid_reportsKept hp _).after rfl rfl rfl) (.refl r)
  have dark (r : Rack) : ReportsKept p r (darkTurn e r) := .ite (enterDark_reportsKept hp r) (.refl r)
  have account (r : Rack) : ReportsKept p r (accountTurn e r) :=
    .ite ((evaluateShortfall_reportsKept hp _).after rfl rfl rfl) (.refl r)
  have pool (r : Rack) : ReportsKept p r (poolTurn e r) :=
    .ite ((poolUpdate_reportsKept hp _).after rfl rfl rfl) (.refl r)
  have hold (r : Rack) : ReportsKept p r (holdTurn e r) := .ite (evaluateHold_reportsKept hp r) (.refl r)
  have checks (r : Rack) : ReportsKept p r (checksTurn e r) :=
    .ite (.refl r) ((evaluateChecks_reportsKept hp _ _).after rfl rfl rfl)
  rw [passBlocks_eq]
  exact (grid r).trans ((dark _).trans ((account _).trans ((pool _).trans ((hold _).trans (checks _)))))

theorem handOnFor_reportsKept (hp : ∀ j, p j) : ∀ (k : Nat) (r : Rack),
    ReportsKept p r (handOnFor e k r)
  | 0, r => .refl r
  | k + 1, r => .ite (.refl r) ((passBlocks_reportsKept hp r).trans (handOnFor_reportsKept hp k _))

theorem handOn_reportsKept (hp : ∀ j, p j) (r : Rack) : ReportsKept p r (handOn e r) :=
  handOnFor_reportsKept hp _ r

/-- The Account's figures keep what reports gave (R46, R56). -/
theorem computeAccount_reportsKept (hp : ∀ j, p j) (r : Rack) : ReportsKept p r (computeAccount e r) := by
  have held : SameModules r (holdFigure (figures e r) r) := holdFigure_sameModules _ _ rfl
  have figured : SameModules r (if (figures e r).redundancy = r.acct.redundancy then
      holdFigure (figures e r) r
      else raise e .capacity 1 (figures e r).nOn (figures e r).redundancy.code
        (holdFigure (figures e r) r)) := .ite held (held.trans (raise_sameModules ..))
  have tested := figured.reportsKept.trans (evaluateShortfall_reportsKept (e := e) hp _)
  exact .ite (.ite (tested.trans (capacityRestored_sameModules ..).reportsKept) tested) (.refl r)

end Sys2Proof.Machine
end

