-- ==== Sys2Proof/Proofs/ShelfFrames.lean ====
section
/-! PROOF. The frames of the shelf bus and the responses that they spell (R25 to R28). The layer under O41,
O42 and O43. -/

namespace Sys2Proof.Machine

variable {address kind len : Nat} {frame payload : List Byte}

theorem shelfFrame_eq (address kind : Nat) (payload : List Byte) : shelfFrame address kind payload =
    BitVec.ofNat 8 address :: BitVec.ofNat 8 kind :: BitVec.ofNat 8 payload.length ::
      (payload ++ [crc8 (u8 address ++ u8 kind ++ u8 payload.length ++ payload)]) := rfl

/-- The frames that fit a response are those spelled for its address, its kind and a payload of its length
(R25, R28). -/
theorem frameFits_iff : frameFits address kind len frame = true ↔
    ∃ payload : List Byte, payload.length = len ∧ frame = shelfFrame address kind payload := by
  unfold frameFits
  simp only [Bool.and_eq_true, beq_iff_eq]
  constructor
  · rintro ⟨⟨hl, ht⟩, hc⟩
    obtain ⟨body, rfl⟩ : ∃ body, frame = body ++ [crc8 body] :=
      ⟨_, (List.dropLast_append_getLast? _ hc).symm⟩
    rw [List.length_append, List.length_singleton] at hl
    rw [List.take_append_of_le_length (by omega)] at ht
    refine ⟨body.drop 3, by rw [List.length_drop]; omega, ?_⟩
    have head : body = BitVec.ofNat 8 address :: BitVec.ofNat 8 kind :: BitVec.ofNat 8 len ::
        body.drop 3 := by
      conv_lhs => rw [← List.take_append_drop 3 body, ht]
      rfl
    have length : (body.drop 3).length = len := by rw [List.length_drop]; omega
    rw [shelfFrame_eq, length]
    conv_lhs => rw [head]
    rfl
  · rintro ⟨payload, rfl, rfl⟩
    refine ⟨⟨?_, rfl⟩, ?_⟩
    · rw [shelfFrame_eq]
      simp only [List.length_cons, List.length_append, List.length_nil]
    · unfold shelfFrame
      rw [List.getLast?_concat, List.dropLast_concat]

theorem shelfFrame_fits (h : payload.length = len) :
    frameFits address kind len (shelfFrame address kind payload) = true :=
  frameFits_iff.mpr ⟨payload, h, rfl⟩

theorem inputOf_isSome (b : Byte) : (inputOf b).isSome = true ↔ b.toNat ≤ 2 := by
  unfold inputOf
  split <;> simp_all
  omega

theorem modeOf_isSome (b : Byte) : (modeOf b).isSome = true ↔ b.toNat ≤ 6 := by
  unfold modeOf
  split <;> simp_all
  omega

/-- The report that the six bytes of a PSU_STATUS spell (R27). -/
theorem psuRecord_frame (f i c1 c0 o1 o0 : Byte) :
    psuRecord address (shelfFrame address 0x90 [f, i, c1, c0, o1, o0]) = (inputOf i).map fun input =>
      ⟨f.getLsbD 0, f.getLsbD 1, input, fromBytes [c1, c0], fromBytes [o1, o0]⟩ := by
  unfold psuRecord
  exact if_pos (shelfFrame_fits rfl)

/-- The report that the nine bytes of a BU_STATUS spell (R27). -/
theorem buRecord_frame (m e1 e0 d1 d0 c1 c0 k1 k0 : Byte) :
    buRecord address (shelfFrame address 0xA0 [m, e1, e0, d1, d0, c1, c0, k1, k0]) =
      (modeOf m).map fun mode =>
        ⟨mode, fromBytes [e1, e0], fromBytes [d1, d0], fromBytes [c1, c0], fromBytes [k1, k0]⟩ := by
  unfold buRecord
  exact if_pos (shelfFrame_fits rfl)

/-- A frame carries a PSU_STATUS from an address (R27, R28). -/
theorem psuRecord_isSome : (psuRecord address frame).isSome = true ↔
    ∃ (flags input : Byte) (power : List Byte), input.toNat ≤ 2 ∧ power.length = 4 ∧
      frame = shelfFrame address 0x90 (flags :: input :: power) := by
  constructor
  · intro h
    have fits : frameFits address 0x90 6 frame = true := by
      by_contra hn
      unfold psuRecord at h
      rw [if_neg hn] at h
      cases h
    obtain ⟨payload, hl, rfl⟩ := frameFits_iff.mp fits
    match payload, hl with
    | [f, i, c1, c0, o1, o0], _ =>
      rw [psuRecord_frame, Option.isSome_map, inputOf_isSome] at h
      exact ⟨f, i, [c1, c0, o1, o0], h, rfl, rfl⟩
  · rintro ⟨f, i, power, hi, hl, rfl⟩
    match power, hl with
    | [c1, c0, o1, o0], _ => rwa [psuRecord_frame, Option.isSome_map, inputOf_isSome]

/-- A frame carries a BU_STATUS from an address (R27, R28). -/
theorem buRecord_isSome : (buRecord address frame).isSome = true ↔
    ∃ (mode : Byte) (figures : List Byte), mode.toNat ≤ 6 ∧ figures.length = 8 ∧
      frame = shelfFrame address 0xA0 (mode :: figures) := by
  constructor
  · intro h
    have fits : frameFits address 0xA0 9 frame = true := by
      by_contra hn
      unfold buRecord at h
      rw [if_neg hn] at h
      cases h
    obtain ⟨payload, hl, rfl⟩ := frameFits_iff.mp fits
    match payload, hl with
    | [m, e1, e0, d1, d0, c1, c0, k1, k0], _ =>
      rw [buRecord_frame, Option.isSome_map, modeOf_isSome] at h
      exact ⟨m, [e1, e0, d1, d0, c1, c0, k1, k0], h, rfl, rfl⟩
  · rintro ⟨m, figures, hm, hl, rfl⟩
    match figures, hl with
    | [e1, e0, d1, d0, c1, c0, k1, k0], _ => rwa [buRecord_frame, Option.isSome_map, modeOf_isSome]

/-! ### The transaction that a response answers (R28, R29) -/

variable {now : Time} {b : Bus} {x : Transaction}

theorem openWindow_some_iff : openWindow now b = some x ↔
    b.inFlight = some x ∧ (now - x.began).toNat ≤ 5 := by
  unfold openWindow
  rw [Option.filter_eq_some_iff, decide_eq_true_iff]
  rfl

theorem openWindow_some (h : b.inFlight = some x) (hw : (now - x.began).toNat ≤ 5) :
    openWindow now b = some x := openWindow_some_iff.mpr ⟨h, hw⟩

theorem validResponse_iff : validResponse now b frame = true ↔ ∃ x : Transaction,
    b.inFlight = some x ∧ (now - x.began).toNat ≤ 5 ∧
      ((∃ (i : Fin 18) (flags input : Byte) (power : List Byte), x.pos = .psu i ∧
          input.toNat ≤ 2 ∧ power.length = 4 ∧
          frame = shelfFrame (psuAddress i) 0x90 (flags :: input :: power)) ∨
        (∃ (j : Fin 12) (mode : Byte) (figures : List Byte), x.pos = .bu j ∧ mode.toNat ≤ 6 ∧
          figures.length = 8 ∧ frame = shelfFrame (buAddress j) 0xA0 (mode :: figures))) := by
  have opened : validResponse now b frame = true ↔ ∃ x, openWindow now b = some x ∧
      ((∃ i, x.pos = .psu i ∧ (psuRecord (psuAddress i) frame).isSome = true) ∨
        ∃ j, x.pos = .bu j ∧ (buRecord (buAddress j) frame).isSome = true) := by
    unfold validResponse
    cases openWindow now b with
    | none => simp
    | some t => cases t with | mk pos cmd replaced began sent => cases pos <;> simp
  rw [opened]
  refine exists_congr fun x => ?_
  rw [openWindow_some_iff, and_assoc]
  refine and_congr_right fun _ => and_congr_right fun _ => or_congr ?_ ?_
  · simp only [psuRecord_isSome, exists_and_left]
  · simp only [buRecord_isSome, exists_and_left]

end Sys2Proof.Machine
end

