-- ==== Sys2Proof/Proofs/PsuReports.lean ====
section
/-! PROOF. A PSU's report, the record it leaves and what its change hands on (O42). -/

namespace Sys2Proof.Machine

variable {e : Env} {i : Fin 18} {a b r : Rack}

/-! ### The shortfall test within the Account's figures (R51, R56) -/

/-- The figures are held, the redundancy and the restored capacity are raised, and between them the
shortfall test is all that may touch the modules. -/
theorem computeAccount_tests (e : Env) (r : Rack) : computeAccount e r = r ∨
    ∃ u, SameModules r u ∧ SameModules (evaluateShortfall e u) (computeAccount e r) := by
  unfold computeAccount
  split
  · have held : SameModules r (holdFigure (figures e r) r) := holdFigure_sameModules _ _ rfl
    exact .inr ⟨_, .ite held (held.trans (raise_sameModules ..)),
      .ite (capacityRestored_sameModules ..) (.refl _)⟩
  · exact .inl rfl

/-- Setpoints go to 0 at an entry to shortfall alone (R56, R141). -/
def CutsSetpoints (a b : Rack) : Prop :=
  ∀ j : Fin 12, b.bu[j] = a.bu[j] ∨ b.bu[j] = { a.bu[j] with setpoint := 0 } ∧
    a.acct.shortfall = false ∧ b.acct.shortfall = true

theorem CutsSetpoints.of_eq (h : b.bu = a.bu) : CutsSetpoints a b := fun _ => .inl (by rw [h])

theorem CutsSetpoints.congr {a' b' : Rack} (h : SameModules a' a) (t : CutsSetpoints a b)
    (k : SameModules b b') : CutsSetpoints a' b' := by
  intro j
  rw [k.bu, k.shortfall, ← h.bu, ← h.shortfall]
  exact t j

theorem enterShortfall_flag (e : Env) (r : Rack) : (enterShortfall e r).acct.shortfall = true := by
  unfold enterShortfall
  rw [(shedSelection_sameModules ..).shortfall, raise_acct]
  obtain ⟨-, acct, -⟩ := poolUpdate_keepsAccount e
    (logFault e .capacityShort r.acct.nOn { r with acct.shortfall := true, acct.recorded := 0 })
  rw [acct, logFault_acct]

theorem evaluateShortfall_cuts (e : Env) (r : Rack) : CutsSetpoints r (evaluateShortfall e r) := by
  have zeroed := (evaluateShortfall_turn e r).zeroed
  by_cases hs : r.acct.shortfall = true
  · refine .of_eq ?_
    unfold evaluateShortfall
    rw [if_pos hs]
    split
    · exact (followDeficit_sameModules e r).bu
    · rfl
  · by_cases hh : shortfallHolds e r = true
    · have enters : evaluateShortfall e r = enterShortfall e r := by
        unfold evaluateShortfall
        rw [if_neg hs, if_pos hh]
      intro j
      refine (zeroed j).imp id fun h => ⟨h, by simpa using hs, ?_⟩
      rw [enters, enterShortfall_flag]
    · refine .of_eq ?_
      unfold evaluateShortfall
      rw [if_neg hs, if_neg hh]

theorem computeAccount_cuts (e : Env) (r : Rack) : CutsSetpoints r (computeAccount e r) := by
  rcases computeAccount_tests e r with h | ⟨u, before, after⟩
  · rw [h]; exact .of_eq rfl
  · exact (evaluateShortfall_cuts e u).congr before after

/-! ### What the change of a PSU's record hands on (R39) -/

theorem psuChanged_same {old : PsuRec} (hs : (r.psu[i]).state = old.state)
    (hc : (r.psu[i]).capability = old.capability) (hi : (r.psu[i]).input = old.input) :
    psuChanged e i old r = r := by
  unfold psuChanged
  simp only [hs, hc, hi, and_self, if_true]

theorem psuChanged_state {old : PsuRec} (hs : (r.psu[i]).state ≠ old.state) :
    psuChanged e i old r = { computeAccount e
      (raise e .module 1 (psuAddress i) (r.psu[i]).state.code r) with todo.grid := true } := by
  unfold psuChanged
  simp only [hs, false_and, if_false]

theorem psuChanged_capability {old : PsuRec} (hs : (r.psu[i]).state = old.state)
    (hc : (r.psu[i]).capability ≠ old.capability) (hi : (r.psu[i]).input = old.input) :
    psuChanged e i old r = computeAccount e r := by
  unfold psuChanged
  simp only [hs, hc, hi, and_false, and_self, if_false, if_true]

theorem psuChanged_input {old : PsuRec} (hi : (r.psu[i]).input ≠ old.input) :
    (psuChanged e i old r).todo.grid = true := by
  unfold psuChanged
  simp only [hi, and_false, if_false]

/-- A PSU's change is a turn of the Account's figures, or nothing to the modules (R39). -/
theorem psuChanged_account (e : Env) (i : Fin 18) (old : PsuRec) (r : Rack) :
    SameModules r (psuChanged e i old r) ∨
    ∃ u, SameModules r u ∧ SameModules (computeAccount e u) (psuChanged e i old r) := by
  unfold psuChanged
  dsimp only
  have marked (x : Rack) : SameModules x { x with todo.grid := true } := ⟨rfl, rfl, rfl, rfl, rfl, rfl⟩
  have raised : SameModules r (if (r.psu[i]).state = old.state then r
      else raise e .module 1 (psuAddress i) (r.psu[i]).state.code r) :=
    .ite (.refl r) (raise_sameModules ..)
  generalize (if (r.psu[i]).state = old.state then r
      else raise e .module 1 (psuAddress i) (r.psu[i]).state.code r) = u at raised ⊢
  by_cases hc : (r.psu[i]).state = old.state ∧ (r.psu[i]).capability = old.capability
  · rw [if_pos hc]
    exact .inl (.ite raised (raised.trans (marked u)))
  · rw [if_neg hc]
    exact .inr ⟨u, raised, .ite (.refl _) (marked _)⟩

theorem psuChanged_turn (e : Env) (i : Fin 18) (old : PsuRec) (r : Rack) :
    AccountTurn e r (psuChanged e i old r) := by
  rcases psuChanged_account e i old r with h | ⟨u, before, after⟩
  · exact h.accountTurn
  · exact .congr before.symm (computeAccount_turn e u) after

theorem psuChanged_cuts (e : Env) (i : Fin 18) (old : PsuRec) (r : Rack) :
    CutsSetpoints r (psuChanged e i old r) := by
  rcases psuChanged_account e i old r with h | ⟨u, before, after⟩
  · exact .of_eq h.bu
  · exact (computeAccount_cuts e u).congr before after

theorem psuChanged_reportsKept (e : Env) (i : Fin 18) (old : PsuRec) (r : Rack) :
    ReportsKept (fun _ => True) r (psuChanged e i old r) := by
  rcases psuChanged_account e i old r with h | ⟨u, before, after⟩
  · exact h.reportsKept
  · exact (before.reportsKept.trans (computeAccount_reportsKept (fun _ => trivial) u)).trans
      after.reportsKept

/-! ### The comparison with commanded output (R38) -/

theorem hasEntry_iff (p : Pos) : hasEntry r p = true ↔ r.bus.entry p ≠ none :=
  Option.isSome_iff_ne_none

theorem psuIntent_stays {on : Bool} (h : r.bus.entry (.psu i) ≠ none ∨ (r.psu[i]).commandedOn = on) :
    psuIntent e i on r = r := by
  refine if_pos ?_
  rw [Bool.or_eq_true, hasEntry_iff, beq_iff_eq]
  exact h

theorem psuIntent_offers {on : Bool} (h : r.bus.entry (.psu i) = none)
    (hn : (r.psu[i]).commandedOn ≠ on) : psuIntent e i on r =
      offer e (.psu i) (if (r.psu[i]).commandedOn then .outputOn else .outputOff) r := by
  refine if_neg ?_
  rw [Bool.or_eq_true, hasEntry_iff, beq_iff_eq]
  exact fun k => k.elim (fun k => k h) hn

theorem psuIntent_reportsKept (p : Fin 12 → Prop) (e : Env) (i : Fin 18) (on : Bool) (r : Rack) :
    ReportsKept p r (psuIntent e i on r) := .ite (.refl r) (offer_reportsKept ..)

theorem psuIntent_acct (e : Env) (i : Fin 18) (on : Bool) (r : Rack) :
    (psuIntent e i on r).acct = r.acct := by
  unfold psuIntent
  dsimp only
  split
  · rfl
  · exact offer_acct ..

/-! ### The end of an answered transaction (R29, R35) -/

theorem answer_some {s : Bus} {x : Transaction} (h : s.inFlight = some x) : s.answer = { s with
    inFlight := none
    entries := if x.cmd.isSome = true ∧ x.replaced = false then
      s.entries.filter fun y => y.pos != x.pos else s.entries } := by
  have cond : (x.cmd.isSome && !x.replaced) = true ↔ x.cmd.isSome = true ∧ x.replaced = false := by
    rw [Bool.and_eq_true, Bool.not_eq_true']
  unfold Bus.answer
  rw [h]
  dsimp only
  by_cases hx : x.cmd.isSome = true ∧ x.replaced = false
  · rw [if_pos (cond.mpr hx), if_pos hx]
    rfl
  · rw [if_neg (mt cond.mp hx), if_neg hx]

theorem answer_idle (s : Bus) : s.answer.inFlight = none := by
  cases h : s.inFlight with
  | none => unfold Bus.answer; rw [h]; exact h
  | some x => rw [answer_some h]

/-! ### The report (R38, R39) -/

theorem PsuReport.state_eq (p : PsuReport) : p.state =
    if p.fault then .failed else if p.outputOn = false then .outputOff
      else if p.input ≠ .ok then .inputFault else .online := by
  unfold PsuReport.state
  simp only [Bool.not_eq_true', bne_iff_ne]

theorem PsuReport.state_failed (p : PsuReport) : p.state = .failed ↔ p.fault = true := by
  rw [p.state_eq]
  split
  · simp [*]
  · next h =>
    refine ⟨fun k => ?_, fun k => absurd k h⟩
    split at k
    · cases k
    · split at k <;> cases k

/-- The rack as a PSU's report leaves its record and the bus, before its change is handed on. -/
def psuReported (e : Env) (i : Fin 18) (p : PsuReport) (r : Rack) : Rack :=
  { r with bus := r.bus.answer, psu := put r.psu i ((r.psu[i]).report e.now (capabilityTop e i) p) }

/-- The rack before the change is handed on, with an entry to FAILED logged (R39). -/
def psuLogged (e : Env) (i : Fin 18) (p : PsuReport) (r : Rack) : Rack :=
  if p.state = .failed ∧ (r.psu[i]).state ≠ .failed then
    logFault e .psuFailed (psuAddress i) (psuReported e i p r)
  else psuReported e i p r

theorem psuReport_eq (e : Env) (i : Fin 18) (p : PsuReport) (r : Rack) : psuReport e i p r =
    psuIntent e i p.outputOn (psuChanged e i r.psu[i] (psuLogged e i p r)) := rfl

theorem psuLogged_failed {p : PsuReport} (hf : p.fault = true) (hs : (r.psu[i]).state ≠ .failed) :
    psuLogged e i p r = logFault e .psuFailed (psuAddress i) (psuReported e i p r) :=
  if_pos ⟨p.state_failed.mpr hf, hs⟩

theorem psuLogged_other {p : PsuReport} (h : p.fault = false ∨ (r.psu[i]).state = .failed) :
    psuLogged e i p r = psuReported e i p r := by
  refine if_neg ?_
  rintro ⟨hf, hs⟩
  rcases h with h | h
  · rw [p.state_failed, h] at hf
    cases hf
  · exact hs h

theorem psuLogged_frame (e : Env) (i : Fin 18) (p : PsuReport) (r : Rack) :
    (psuLogged e i p r).bus = r.bus.answer ∧ (psuLogged e i p r).psu = (psuReported e i p r).psu ∧
    (psuLogged e i p r).bu = r.bu ∧ (psuLogged e i p r).acct = r.acct := by
  unfold psuLogged
  split
  · exact ⟨logFault_bus .., logFault_psu .., logFault_bu .., logFault_acct ..⟩
  · exact ⟨rfl, rfl, rfl, rfl⟩

/-- The record of a report's state, with its clamp (R39). -/
theorem PsuRec.report_eq (e : Env) (i : Fin 18) (p : PsuReport) (x : PsuRec) :
    x.report e.now (capabilityTop e i) p = { x with
      state := if p.fault then .failed else if p.outputOn = false then .outputOff
        else if p.input ≠ .ok then .inputFault else .online
      capability := min p.capability (if e.cfg.locked then (e.cfg.record.psus[i]).rated else 6000)
      output := p.output
      input := p.input
      miss := 0
      lastReport := e.now
      reportPending := false } := by
  rw [← p.state_eq]
  rfl

/-- A report frees the bus, and leaves the records but its own and the setpoints cut in a shortfall. -/
theorem psuReport_frame (e : Env) (i : Fin 18) (p : PsuReport) (r : Rack) :
    (psuReport e i p r).bus.inFlight = none ∧
    (psuReport e i p r).psu = (psuReported e i p r).psu ∧
    CutsSetpoints r (psuReport e i p r) := by
  rw [psuReport_eq]
  obtain ⟨bus, psu, bu, acct⟩ := psuLogged_frame e i p r
  generalize psuLogged e i p r = u at bus psu bu acct ⊢
  have changed := psuChanged_cuts e i r.psu[i] u
  have kept := psuChanged_reportsKept e i r.psu[i] u
  generalize psuChanged e i r.psu[i] u = v at changed kept ⊢
  have intent := psuIntent_reportsKept (fun _ => False) e i p.outputOn v
  refine ⟨intent.idle (kept.idle (by rw [bus, answer_idle])), by rw [intent.psu, kept.psu, psu],
    fun j => ?_⟩
  rw [intent.apart j id, psuIntent_acct, ← bu, ← acct]
  exact changed j

/-! ### PSU_STATUS (R27, R28) -/

theorem psuResponse_of {now : Time} {s : Bus} {x : Transaction} {frame : List Byte} {p : PsuReport}
    (h : s.inFlight = some x) (hp : x.pos = .psu i) (hw : (now - x.began).toNat ≤ 5)
    (hr : psuRecord (psuAddress i) frame = some p) : psuResponse now s frame = some (i, p) := by
  unfold psuResponse
  rw [openWindow_some h hw]
  dsimp only
  rw [hp]
  dsimp only
  rw [hr]
  rfl

theorem exec_psuStatus {s : State} {x : Transaction} {frame : List Byte} {p : PsuReport}
    (h : s.rack.bus.inFlight = some x) (hp : x.pos = .psu i) (hw : (s.now - x.began).toNat ≤ 5)
    (hr : psuRecord (psuAddress i) frame = some p) : exec (.psuStatus frame) s =
      .next (s.onRack fun e r => psuReport e i p r).conclude := by
  show execPsuStatus frame s = _
  unfold execPsuStatus
  rw [psuResponse_of h hp hw hr]

theorem flagBit_zero (f : Fin 256) : (BitVec.ofNat 8 f.val).getLsbD 0 = (f % 2 == 1) := by
  rw [BitVec.getLsbD_ofNat, Nat.testBit_zero, Bool.eq_iff_iff, beq_iff_eq, Fin.ext_iff]
  simp

theorem flagBit_one (f : Fin 256) : (BitVec.ofNat 8 f.val).getLsbD 1 = (f / 2 % 2 == 1) := by
  rw [BitVec.getLsbD_ofNat, Nat.testBit_succ, Nat.testBit_zero, Bool.eq_iff_iff, beq_iff_eq, Fin.ext_iff]
  simp

/-- The record that the figures of a PSU_STATUS spell (R27). -/
theorem psuRecord_spelled (address : Nat) (flags : Fin 256) (input : Fin 3) (cap out : Fin 65536) :
    psuRecord address (shelfFrame address 0x90 (u8 flags ++ u8 input ++ u16 cap ++ u16 out)) =
      some ⟨flags % 2 == 1, flags / 2 % 2 == 1,
        (if input.val = 0 then .ok else if input.val = 1 then .low else .absent), cap, out⟩ := by
  have status : ∀ k : Fin 3, inputOf (BitVec.ofNat 8 k.val) =
      some (if k.val = 0 then .ok else if k.val = 1 then .low else .absent) := by decide
  refine (psuRecord_frame ..).trans ?_
  rw [status, flagBit_zero, flagBit_one]
  have capability := fromBytes_u16 cap.isLt
  have output := fromBytes_u16 out.isLt
  unfold u16 at capability output
  rw [capability, output]
  rfl

end Sys2Proof.Machine

section
open Sys2Proof Sys2Proof.Machine

/-- Settles O42: a response within its window is the report its bytes spell, the record it leaves, the
change it hands on, and the comparison with commanded output. -/
theorem psuReports : Obligations.PsuReports := by
  refine ⟨fun s x i flags input cap out h hp hw => exec_psuStatus h hp hw (psuRecord_spelled ..),
    fun e i p r => ?_, fun e i old r => ⟨psuChanged_same, psuChanged_state, psuChanged_capability,
      fun _ => psuChanged_input⟩, fun e i on r => ⟨psuIntent_stays, fun h hc ho => ?_, fun h hc ho => ?_⟩,
    fun b x => answer_some⟩
  · obtain ⟨idle, psu, cuts⟩ := psuReport_frame e i p r
    dsimp only
    rw [← PsuRec.report_eq e i p r.psu[i]]
    refine ⟨idle, ?_, fun k hk => ?_, cuts, fun hf hs => ?_, fun h => ?_⟩
    · rw [psu]; exact put_self ..
    · rw [psu]; exact put_other _ _ _ _ (Ne.symm hk)
    · rw [psuReport_eq, psuLogged_failed hf hs]
      rfl
    · rw [psuReport_eq, psuLogged_other h]
      rfl
  · rw [psuIntent_offers h (by rw [hc, ho]; decide), hc]
    rfl
  · rw [psuIntent_offers h (by rw [hc, ho]; decide), hc]
    rfl

end
end

