-- ==== Sys2Proof/Proofs/BuChanges.lean ====
section
/-! PROOF. What the change of a BU's record hands on, and the commands that a BU's report offers (R42, R116,
R140). The layer under O41 and O43. -/

namespace Sys2Proof.Machine

variable {e : Env} {p : Fin 12 → Prop} {j : Fin 12} {was : Bool} {old : BuRec} {r : Rack}

theorem checksBu_iff : checksBu r j = true ↔ ∃ a : ActiveCheck, r.active = some a ∧ a.bu = j := by
  unfold checksBu
  cases r.active with
  | none => simp
  | some a => simp

theorem not_checksBu (h : ∀ a : ActiveCheck, r.active = some a → a.bu ≠ j) : ¬checksBu r j = true := by
  rw [checksBu_iff]
  rintro ⟨a, ha, hj⟩
  exact h a ha hj

/-! ### The member set (R140) -/

theorem recharges_iff (s : BuState) : s.recharges = true ↔ s = .idle ∨ s = .charging := by
  cases s <;> decide

theorem leaveMembers_stays (h : (r.bu[j]).state = .idle ∨ (r.bu[j]).state = .charging) :
    leaveMembers e j r = r := if_pos ((recharges_iff _).mpr h)

theorem not_recharges (h : (r.bu[j]).state ≠ .idle) (k : (r.bu[j]).state ≠ .charging) :
    (r.bu[j]).state.recharges = false := by
  rw [← Bool.not_eq_true, recharges_iff]
  exact fun n => n.elim h k

theorem memberLeave_setpoint (h : (r.rech.members[j]).isSome = true) :
    ((memberLeave e j r).bu[j]).setpoint = 0 := by
  obtain ⟨x, hx⟩ := Option.isSome_iff_exists.mp h
  have left : (memberLeave e j r).bu = change r.bu j fun b => { b with setpoint := 0 } := by
    unfold memberLeave
    rw [hx]
    dsimp only
    unfold followRc reportRc
    split <;> rfl
  rw [left, change_self]

/-! ### A change of state (R42, R116) -/

theorem buStateChanged_same (h : (r.bu[j]).state = old.state) : buStateChanged e j old r = r := if_pos h

theorem buStateChanged_moves (h : (r.bu[j]).state ≠ old.state) : buStateChanged e j old r =
    isolateInDark e j old.usable (leaveMembers e j { raise e .battery 1 j.val (r.bu[j]).state.code r with
      todo.hold := true, todo.grid := true }) := if_neg h

theorem isolateInDark_offers (hd : r.grid.state = .dark) (hw : was = false)
    (hu : (r.bu[j]).usable = true) : isolateInDark e j was r = offerIsolate e j r :=
  if_pos ⟨hd, by simp [hw], hu⟩

theorem isolateInDark_stays (h : r.grid.state ≠ .dark ∨ was = true ∨ (r.bu[j]).usable = false) :
    isolateInDark e j was r = r := by
  refine if_neg ?_
  rintro ⟨hd, hw, hu⟩
  rcases h with h | h | h
  · exact h hd
  · exact hw h
  · rw [hu] at h
    cases h

theorem isolateInDark_reportsKept (hj : p j) (r : Rack) : ReportsKept p r (isolateInDark e j was r) :=
  .ite (offerIsolate_reportsKept hj r) (.refl r)

theorem buStateChanged_reportsKept (hj : p j) (old : BuRec) (r : Rack) :
    ReportsKept p r (buStateChanged e j old r) :=
  .ite (.refl r) (((leaveMembers_reportsKept hj _).trans (isolateInDark_reportsKept hj _)).after
    rfl rfl rfl)

theorem buStateChanged_state (e : Env) (j : Fin 12) (old : BuRec) (r : Rack) :
    ((buStateChanged e j old r).bu[j]).state = (r.bu[j]).state :=
  (buStateChanged_reportsKept (p := fun _ => True) trivial old r).state j

/-- A BU's change of state logs nothing and leaves the active check (R42). -/
theorem buStateChanged_rest (e : Env) (j : Fin 12) (old : BuRec) (r : Rack) :
    (buStateChanged e j old r).faults = r.faults ∧ (buStateChanged e j old r).active = r.active := by
  by_cases h : (r.bu[j]).state = old.state
  · rw [buStateChanged_same h]
    exact ⟨rfl, rfl⟩
  · rw [buStateChanged_moves h]
    obtain ⟨-, -, -, -, -, -, active, faults, -⟩ := (leaveMembers_leaves e j
      { raise e .battery 1 j.val (r.bu[j]).state.code r with todo.hold := true, todo.grid := true }).account
    unfold isolateInDark
    split
    · exact ⟨faults, active⟩
    · exact ⟨faults, active⟩

/-! ### The commands that a report offers (R42) -/

theorem buIntent_waits (h : r.bus.entry (.bu j) ≠ none) : buIntent e j r = r :=
  if_pos (hasEntry_iff _ |>.mpr h)

theorem hasEntry_false {q : Pos} (h : r.bus.entry q = none) : hasEntry r q = false := by
  unfold hasEntry
  rw [h]
  rfl

theorem buIntent_restores (h : r.bus.entry (.bu j) = none) (hs : (r.bu[j]).state = .isolated)
    (hc : (r.bu[j]).commandedIsolate = false) : buIntent e j r = offer e (.bu j) .restore r := by
  simp [-Fin.getElem_fin, buIntent, hasEntry_false h, hs, hc]

theorem buIntent_isolates (h : r.bus.entry (.bu j) = none) (hs : (r.bu[j]).state.code ≤ 4)
    (hc : (r.bu[j]).commandedIsolate = true) : buIntent e j r = offer e (.bu j) .isolate r := by
  cases hb : (r.bu[j]).state with
  | isolated | failed | lost | absent => rw [hb] at hs; exact absurd hs (by decide)
  | idle | charging | full | discharging | checking => simp [-Fin.getElem_fin, buIntent, hasEntry_false h, hb, hc]

theorem buIntent_stays (h : (r.bu[j]).state = .isolated ∧ (r.bu[j]).commandedIsolate = true ∨
    (r.bu[j]).state.code ≤ 4 ∧ (r.bu[j]).commandedIsolate = false ∨ 6 ≤ (r.bu[j]).state.code) :
    buIntent e j r = r := by
  rcases h with ⟨hs, hc⟩ | ⟨hs, hc⟩ | hs
  · simp [-Fin.getElem_fin, buIntent, hs, hc]
  · cases hb : (r.bu[j]).state with
    | isolated | failed | lost | absent => rw [hb] at hs; exact absurd hs (by decide)
    | idle | charging | full | discharging | checking => simp [-Fin.getElem_fin, buIntent, hb, hc]
  · cases hb : (r.bu[j]).state with
    | failed | lost | absent => simp [-Fin.getElem_fin, buIntent, hb]
    | idle | charging | full | discharging | checking | isolated =>
      rw [hb] at hs; exact absurd hs (by decide)

/-- What a BU's report offers is one command or none (R42). -/
theorem buIntent_reportsKept (j : Fin 12) (r : Rack) : ReportsKept p r (buIntent e j r) := by
  unfold buIntent
  dsimp only
  split
  · exact .refl r
  · split
    · exact .ite (.refl r) (offer_reportsKept ..)
    · exact .ite (offer_reportsKept ..) (.refl r)
    · exact .ite (offer_reportsKept ..) (.refl r)
    · exact .ite (offer_reportsKept ..) (.refl r)
    · exact .ite (offer_reportsKept ..) (.refl r)
    · exact .ite (offer_reportsKept ..) (.refl r)
    · exact .refl r
    · exact .refl r
    · exact .refl r

theorem stopStray_offers (hs : (r.bu[j]).state = .checking)
    (h : ∀ a : ActiveCheck, r.active = some a → a.bu ≠ j) :
    stopStray e j r = offer e (.bu j) .stopCheck r := if_pos ⟨hs, not_checksBu h⟩

theorem stopStray_stays
    (h : (r.bu[j]).state ≠ .checking ∨ ∃ a : ActiveCheck, r.active = some a ∧ a.bu = j) :
    stopStray e j r = r :=
  if_neg fun ⟨hs, hc⟩ => h.elim (fun n => n hs) fun n => hc (checksBu_iff.mpr n)

theorem stopStray_reportsKept (j : Fin 12) (r : Rack) : ReportsKept p r (stopStray e j r) :=
  .ite (offer_reportsKept ..) (.refl r)

end Sys2Proof.Machine
end

