-- ==== Sys2Proof/Proofs/BusEvents.lean ====
section
/-! PROOF. Poll cycles, frames that are no valid response, and transactions that end unanswered (O41). -/

namespace Sys2Proof.Machine

variable {e : Env} {i : Fin 18} {j : Fin 12} {p : Pos} {r : Rack} {s : State}

/-! ### The events (R28 to R31) -/

theorem exec_pollCycleBegin (hl : s.boot.loaded = true) (h : cycleDue s.env s.rack = true) :
    exec .pollCycleBegin s = .next (s.onRack beginCycle).conclude := if_pos ⟨hl, h⟩

theorem exec_badFrame {frame : List Byte} (h : validResponse s.now s.rack.bus frame = false) :
    exec (.badFrame frame) s =
      .next { s with rack.bus.badFrames := s.rack.bus.badFrames + 1 }.conclude :=
  if_neg (by rw [h]; decide)

theorem validResponse_idle {now : Time} {b : Bus} (h : b.inFlight = none) (frame : List Byte) :
    validResponse now b frame = false := by
  rw [← Bool.not_eq_true, validResponse_iff]
  rintro ⟨x, hx, -⟩
  rw [h] at hx
  cases hx

theorem exec_responseWindowExpiry {x : Transaction} (h : s.rack.bus.inFlight = some x)
    (hw : 5 ≤ (s.now - x.began).toNat) : exec .responseWindowExpiry s =
      .next (s.onRack fun e r => expireWindow e x.pos r).conclude := by
  show execResponseWindowExpiry s = _
  unfold execResponseWindowExpiry
  rw [h]
  exact if_pos hw

/-! ### A miss (R29, R36) -/

theorem missed_third_iff (n : Nat) : (missed n = 3 ∧ n < 3) ↔ n = 2 := by
  unfold missed
  omega

theorem change_change {α : Type} {k : Nat} (v : Vector α k) (n : Fin k) (f g : α → α) :
    change (change v n f) n g = put v n (g (f v[n])) := by
  unfold change
  rw [put_self]
  exact Vector.set_set ..

/-- The entry of a position that becomes LOST is discarded and MODULE_LOST logged (R36). -/
theorem loseEntry_locked (h : e.cfg.locked = true) : loseEntry e p r =
    logFault e .moduleLost p.address { r with bus := r.bus.discard p } := if_pos h

theorem loseEntry_unlocked (h : e.cfg.locked = false) : loseEntry e p r = r :=
  if_neg (by rw [Env.commissioned, h]; decide)

theorem loseEntry_reportsKept (q : Fin 12 → Prop) (e : Env) (p : Pos) (r : Rack) :
    ReportsKept q r (loseEntry e p r) := by
  have gone : ReportsKept q r { r with bus := r.bus.discard p } :=
    ⟨id, rfl, rfl, fun _ => .refl _, fun _ _ => rfl⟩
  exact .ite (gone.trans (logFault_reportsKept ..)) (.refl r)

theorem loseEntry_acct (e : Env) (p : Pos) (r : Rack) : (loseEntry e p r).acct = r.acct := by
  unfold loseEntry
  split
  · exact logFault_acct ..
  · rfl

/-! ### A miss of a PSU (R36, R44) -/

theorem expireWindow_psuFew (h : (r.psu[i]).miss ≠ 2) : expireWindow e (.psu i) r = { r with
    bus := r.bus.expire, psu := put r.psu i { r.psu[i] with miss := min 3 ((r.psu[i]).miss + 1) } } :=
  if_neg (mt (missed_third_iff _).mp h)

/-- The rack as a PSU's third miss leaves its record and the bus, before its change is handed on. -/
def psuLost (e : Env) (i : Fin 18) (r : Rack) : Rack :=
  { r with bus := r.bus.expire, psu := put r.psu i ({ r.psu[i] with miss := 3 }.lose (lostPsu e)) }

theorem expireWindow_psuThird (h : (r.psu[i]).miss = 2) : expireWindow e (.psu i) r =
    psuChanged e i r.psu[i] (loseEntry e (.psu i) (psuLost e i r)) := by
  refine (if_pos ((missed_third_iff _).mpr h)).trans ?_
  dsimp only
  rw [change_change, h]
  rfl

theorem psuLost_locked (h : e.cfg.locked = true) : (psuLost e i r).psu = put r.psu i { r.psu[i] with
    miss := 3, state := .lost, output := 0, reportPending := false } := by
  unfold psuLost lostPsu
  rw [Env.commissioned, h]
  rfl

theorem psuLost_unlocked (h : e.cfg.locked = false) : (psuLost e i r).psu = put r.psu i { r.psu[i] with
    miss := 3, state := .absent, output := 0 } := by
  unfold psuLost lostPsu
  rw [Env.commissioned, h]
  rfl

/-- The third miss keeps the records but the PSU's own and the setpoints cut in a shortfall. -/
theorem psuThird_kept (h : (r.psu[i]).miss = 2) :
    ReportsKept (fun _ => True) (psuLost e i r) (expireWindow e (.psu i) r) := by
  rw [expireWindow_psuThird h]
  exact (loseEntry_reportsKept ..).trans (psuChanged_reportsKept ..)

theorem psuThird_cuts (h : (r.psu[i]).miss = 2) : CutsSetpoints r (expireWindow e (.psu i) r) := by
  intro k
  have cut := psuChanged_cuts e i r.psu[i] (loseEntry e (.psu i) (psuLost e i r)) k
  rw [(loseEntry_reportsKept (fun _ => False) e (.psu i) (psuLost e i r)).apart k id,
    loseEntry_acct] at cut
  rw [expireWindow_psuThird h]
  exact cut

theorem psuThird_locked (h : (r.psu[i]).miss = 2) (hl : e.cfg.locked = true) :
    expireWindow e (.psu i) r = psuChanged e i r.psu[i] (logFault e .moduleLost (psuAddress i) { r with
      bus := r.bus.expire.discard (.psu i), psu := put r.psu i { r.psu[i] with
        miss := 3, state := .lost, output := 0, reportPending := false } }) := by
  rw [expireWindow_psuThird h, loseEntry_locked hl, ← psuLost_locked hl]
  rfl

theorem psuThird_unlocked (h : (r.psu[i]).miss = 2) (hl : e.cfg.locked = false) :
    expireWindow e (.psu i) r = psuChanged e i r.psu[i] { r with
      bus := r.bus.expire, psu := put r.psu i { r.psu[i] with
        miss := 3, state := .absent, output := 0 } } := by
  rw [expireWindow_psuThird h, loseEntry_unlocked hl, ← psuLost_unlocked hl]
  rfl

/-- No offer of the Account's and the Allocator's is for a PSU, so that the entry discarded stays gone. -/
theorem psuThird_entry (h : (r.psu[i]).miss = 2) (hl : e.cfg.locked = true) :
    (expireWindow e (.psu i) r).bus.entry (.psu i) = none := by
  rw [psuThird_locked h hl, (psuChanged_turn ..).offers.psu, logFault_bus]
  exact entry_discard_self ..

/-- A miss of a PSU, whichever it is (R29, R36). -/
theorem psuMiss_frame (e : Env) (i : Fin 18) (r : Rack) :
    (expireWindow e (.psu i) r).bus.inFlight = none ∧
    (expireWindow e (.psu i) r).bus.unanswered = r.bus.unanswered + 1 ∧
    (∀ k : Fin 18, k ≠ i → (expireWindow e (.psu i) r).psu[k] = r.psu[k]) ∧
    ((expireWindow e (.psu i) r).psu[i]).miss = min 3 ((r.psu[i]).miss + 1) := by
  by_cases h : (r.psu[i]).miss = 2
  · have kept := psuThird_kept (e := e) h
    refine ⟨kept.idle rfl, by rw [kept.bus]; rfl, fun k hk => ?_, ?_⟩
    · rw [kept.psu]; exact put_other _ _ _ _ (Ne.symm hk)
    · rw [kept.psu, h]
      exact congrArg PsuRec.miss (put_self ..)
  · rw [expireWindow_psuFew h]
    exact ⟨rfl, rfl, fun k hk => put_other _ _ _ _ (Ne.symm hk), congrArg PsuRec.miss (put_self ..)⟩

/-! ### A miss of a BU (R36, R44, R154) -/

theorem expireWindow_buFew (h : (r.bu[j]).miss ≠ 2) : expireWindow e (.bu j) r = { r with
    bus := r.bus.expire, bu := put r.bu j { r.bu[j] with miss := min 3 ((r.bu[j]).miss + 1) } } :=
  if_neg (mt (missed_third_iff _).mp h)

/-- The rack as a BU's third miss leaves its record and the bus, before its change is handed on. -/
def buLost (e : Env) (j : Fin 12) (r : Rack) : Rack :=
  { r with bus := r.bus.expire, bu := put r.bu j ({ r.bu[j] with miss := 3 }.lose (lostBu e)) }

/-- The rack with a BU's third miss handed on, before a check on the BU is aborted. -/
def buLostTold (e : Env) (j : Fin 12) (r : Rack) : Rack :=
  buStateChanged e j r.bu[j] (loseEntry e (.bu j) (buLost e j r))

theorem expireWindow_buThird (h : (r.bu[j]).miss = 2) :
    expireWindow e (.bu j) r = abortLost e j (buLostTold e j r) := by
  refine (if_pos ((missed_third_iff _).mpr h)).trans ?_
  dsimp only
  rw [change_change, h]
  rfl

theorem buLost_locked (h : e.cfg.locked = true) : (buLost e j r).bu = put r.bu j { r.bu[j] with
    miss := 3, state := .lost, discharge := 0, baseline := false, reportPending := false } := by
  unfold buLost lostBu
  rw [Env.commissioned, h]
  rfl

theorem buLostTold_locked (hl : e.cfg.locked = true) : buLostTold e j r =
    buStateChanged e j r.bu[j] (logFault e .moduleLost (buAddress j) { r with
      bus := r.bus.expire.discard (.bu j), bu := put r.bu j { r.bu[j] with
        miss := 3, state := .lost, discharge := 0, baseline := false, reportPending := false } }) := by
  rw [buLostTold, loseEntry_locked hl, ← buLost_locked hl]
  rfl

theorem abortLost_reportsKept {q : Fin 12 → Prop} (hj : q j) (r : Rack) :
    ReportsKept q r (abortLost e j r) := .ite (abortCheck_reportsKept hj true r) (.refl r)

/-- The third miss keeps the records but the BU's own, and of that what its reports gave. -/
theorem buThird_kept (h : (r.bu[j]).miss = 2) :
    ReportsKept (· = j) (buLost e j r) (expireWindow e (.bu j) r) := by
  rw [expireWindow_buThird h]
  have told : ReportsKept (· = j) (buLost e j r) (buLostTold e j r) :=
    (loseEntry_reportsKept ..).trans (buStateChanged_reportsKept (p := (· = j)) rfl ..)
  exact told.trans (abortLost_reportsKept (q := (· = j)) rfl _)

theorem buLost_self (e : Env) (j : Fin 12) (r : Rack) :
    (buLost e j r).bu[j] = { r.bu[j] with miss := 3 }.lose (lostBu e) := put_self ..

/-- A figure of the BU whose third miss it is (R36, R44). -/
theorem buThird_figure {α : Type} (h : (r.bu[j]).miss = 2) (g : BuRec → α)
    (hg : ∀ x y : BuRec, x.Reported y → g y = g x) :
    g (expireWindow e (.bu j) r).bu[j] = g ({ r.bu[j] with miss := 3 }.lose (lostBu e)) := by
  rw [← buLost_self]
  exact hg _ _ ((buThird_kept h).reported j)

/-! ### Offers for a LOST BU are dropped (R34) -/

theorem offer_lost {c : ShelfCmd} (h : (r.bu[j]).state = .lost) : offer e (.bu j) c r = r :=
  offer_dropped (not_takesOffers (.inr (.inr (by rw [isLost, h]; rfl)))) c

theorem memberLeave_lost (h : (r.bu[j]).state = .lost) : (memberLeave e j r).bus = r.bus := by
  unfold memberLeave
  split
  · have deaf : sendSetpoint e j 0 { r with rech.members := put r.rech.members j none } =
        { r with rech.members := put r.rech.members j none,
                 bu := change r.bu j fun b => { b with setpoint := 0 } } := by
      refine offer_lost ?_
      show ((change r.bu j fun b => { b with setpoint := 0 })[j]).state = .lost
      rw [change_self]
      exact h
    rw [deaf]
    unfold followRc reportRc
    split <;> rfl
  · rfl

theorem leaveMembers_lost (h : (r.bu[j]).state = .lost) : (leaveMembers e j r).bus = r.bus := by
  unfold leaveMembers
  split
  · rfl
  · exact memberLeave_lost h

theorem usable_lost {b : BuRec} (h : b.state = .lost) : b.usable = false := by
  rw [BuRec.usable, h]
  exact Bool.and_false _

theorem buStateChanged_lost {old : BuRec} (h : (r.bu[j]).state = .lost) :
    (buStateChanged e j old r).bus = r.bus := by
  by_cases hs : (r.bu[j]).state = old.state
  · rw [buStateChanged_same hs]
  · rw [buStateChanged_moves hs, isolateInDark_stays]
    · exact leaveMembers_lost h
    · refine .inr (.inr (usable_lost ?_))
      exact ((leaveMembers_reportsKept (p := fun _ => True) trivial _).state j).trans h

theorem abortLost_lost (h : (r.bu[j]).state = .lost) : (abortLost e j r).bus = r.bus := by
  unfold abortLost
  split
  · have ended : ((endActive j r).bu[j]).state = .lost := by
      show ((change r.bu j _)[j]).state = .lost
      rw [change_self]
      exact h
    have stopped : (abortCheck e j true r).bus = (offer e (.bu j) .stopCheck (endActive j r)).bus := rfl
    rw [stopped, offer_lost ended]
    rfl
  · rfl

/-- The entry of a LOST BU stays discarded: every offer made to it is dropped (R34, R36). -/
theorem buThird_entry (h : (r.bu[j]).miss = 2) (hl : e.cfg.locked = true) :
    (expireWindow e (.bu j) r).bus.entry (.bu j) = none := by
  have lost : ((logFault e .moduleLost (buAddress j) { r with
      bus := r.bus.expire.discard (.bu j), bu := put r.bu j { r.bu[j] with
        miss := 3, state := .lost, discharge := 0, baseline := false,
        reportPending := false } }).bu[j]).state = .lost := by
    rw [logFault_bu]
    exact congrArg BuRec.state (put_self ..)
  rw [expireWindow_buThird h, buLostTold_locked hl,
    abortLost_lost ((buStateChanged_state ..).trans lost), buStateChanged_lost lost, logFault_bus]
  exact entry_discard_self ..

/-! ### What a BU's third miss logs and aborts (R36, R154) -/

theorem abortLost_faults (e : Env) (j : Fin 12) (r : Rack) : (abortLost e j r).faults = r.faults := by
  unfold abortLost
  split <;> rfl

theorem loseEntry_active (e : Env) (p : Pos) (r : Rack) : (loseEntry e p r).active = r.active := by
  unfold loseEntry
  split
  · exact logFault_active ..
  · rfl

theorem buLostTold_active (e : Env) (j : Fin 12) (r : Rack) : (buLostTold e j r).active = r.active :=
  (buStateChanged_rest ..).2.trans (loseEntry_active ..)

theorem buThird_faults (h : (r.bu[j]).miss = 2) :
    (expireWindow e (.bu j) r).faults = (loseEntry e (.bu j) (buLost e j r)).faults := by
  rw [expireWindow_buThird h, abortLost_faults]
  exact (buStateChanged_rest ..).1

theorem abortLost_aborts {a : ActiveCheck} (ha : r.active = some a) (hj : a.bu = j) :
    abortLost e j r = abortCheck e j true r := if_pos (checksBu_iff.mpr ⟨a, ha, hj⟩)

theorem abortLost_stays (h : ∀ a : ActiveCheck, r.active = some a → a.bu ≠ j) :
    abortLost e j r = r := if_neg (not_checksBu h)

/-- A miss of a BU, whichever it is (R29, R36). -/
theorem buMiss_frame (e : Env) (j : Fin 12) (r : Rack) :
    (expireWindow e (.bu j) r).bus.inFlight = none ∧
    (expireWindow e (.bu j) r).bus.unanswered = r.bus.unanswered + 1 ∧
    (expireWindow e (.bu j) r).psu = r.psu ∧
    (∀ k : Fin 12, k ≠ j → (expireWindow e (.bu j) r).bu[k] = r.bu[k]) ∧
    ((expireWindow e (.bu j) r).bu[j]).miss = min 3 ((r.bu[j]).miss + 1) ∧
    ((expireWindow e (.bu j) r).bu[j]).energy = (r.bu[j]).energy ∧
    ((expireWindow e (.bu j) r).bu[j]).accepted = (r.bu[j]).accepted := by
  by_cases h : (r.bu[j]).miss = 2
  · have kept := buThird_kept (e := e) h
    refine ⟨kept.idle rfl, by rw [kept.bus]; rfl, kept.psu, fun k hk => ?_, ?_, ?_, ?_⟩
    · rw [kept.apart k hk]; exact put_other _ _ _ _ (Ne.symm hk)
    · rw [buThird_figure h BuRec.miss fun _ _ k => k.figure _ rfl, h]
      rfl
    · exact buThird_figure h BuRec.energy fun _ _ k => k.figure _ rfl
    · exact buThird_figure h BuRec.accepted fun _ _ k => k.figure _ rfl
  · rw [expireWindow_buFew h]
    have self := put_self r.bu j { r.bu[j] with miss := min 3 ((r.bu[j]).miss + 1) }
    exact ⟨rfl, rfl, rfl, fun k hk => put_other _ _ _ _ (Ne.symm hk), congrArg BuRec.miss self,
      (congrArg BuRec.energy self :), (congrArg BuRec.accepted self :)⟩

end Sys2Proof.Machine

section
open Sys2Proof Sys2Proof.Machine

/-- Settles O41: the events of a poll cycle and of a frame by their conditions, what a valid response is,
and a miss by whether it is the third and by the lock state. -/
theorem busEvents : Obligations.BusEvents := by
  refine ⟨fun s hl hc hb ha => exec_pollCycleBegin hl ((cycleDue_iff _ _).mpr ⟨hc, hb, ha⟩), by decide,
    mem_allPositions, fun s frame => ⟨exec_badFrame, fun h => validResponse_idle h frame⟩,
    fun now b frame => validResponse_iff, fun s x => exec_responseWindowExpiry, fun e i r => ?_,
    fun e j r => ?_⟩
  · obtain ⟨idle, unanswered, others, miss⟩ := psuMiss_frame e i r
    refine ⟨idle, unanswered, fun j => ?_, others, miss, fun h => ?_, fun h hl => ?_, fun h hl => ?_⟩
    · by_cases h : (r.psu[i]).miss = 2
      · exact (psuThird_cuts h j).imp id fun ⟨cut, flags⟩ => ⟨cut, h, flags⟩
      · rw [expireWindow_psuFew h]; exact .inl rfl
    · rw [miss, expireWindow_psuFew h]
      exact ⟨put_self .., rfl, rfl, rfl⟩
    · have kept := (psuThird_kept (e := e) h).psu
      rw [psuLost_locked hl] at kept
      exact ⟨by rw [kept]; exact put_self .., (entry_none_iff _ _).mp (psuThird_entry h hl),
        psuThird_locked h hl⟩
    · have kept := (psuThird_kept (e := e) h).psu
      rw [psuLost_unlocked hl] at kept
      obtain ⟨-, bus, faults⟩ := (psuChanged_turn e i r.psu[i] { r with
        bus := r.bus.expire, psu := put r.psu i { r.psu[i] with
          miss := 3, state := .absent, output := 0 } }).unlocked hl
      rw [← psuThird_unlocked h hl] at bus faults
      exact ⟨by rw [kept]; exact put_self .., by rw [bus]; rfl, faults, psuThird_unlocked h hl⟩
  · obtain ⟨idle, unanswered, psu, others, miss, energy, accepted⟩ := buMiss_frame e j r
    refine ⟨idle, unanswered, psu, others, miss, energy, accepted, fun h => ?_, fun h hl => ?_,
      fun h hl => ?_⟩
    · rw [miss, expireWindow_buFew h]
      exact ⟨put_self .., rfl, rfl, rfl⟩
    · have told := buLostTold_locked (j := j) (r := r) hl
      have lost : lostBu e = .lost := if_pos hl
      refine ⟨?_, ?_, ?_, ?_, (entry_none_iff _ _).mp (buThird_entry h hl), ?_, fun a ha hj => ?_,
        fun ha => ?_⟩
      · rw [buThird_figure h BuRec.state fun _ _ k => k.figure _ rfl, lost]; rfl
      · rw [buThird_figure h BuRec.discharge fun _ _ k => k.figure _ rfl, lost]; rfl
      · rw [buThird_figure h BuRec.baseline fun _ _ k => k.figure _ rfl, lost]; rfl
      · rw [buThird_figure h BuRec.reportPending fun _ _ k => k.figure _ rfl, lost]; rfl
      · rw [buThird_faults h, loseEntry_locked hl, logFault_faults]; rfl
      · rw [expireWindow_buThird h, abortLost_aborts ((buLostTold_active ..).trans ha) hj, told]
      · rw [expireWindow_buThird h, abortLost_stays (by rw [buLostTold_active]; exact ha), told]
    · have absent : lostBu e = .absent := if_neg (by rw [Env.commissioned, hl]; decide)
      refine ⟨?_, ?_, ?_, ?_⟩
      · rw [buThird_figure h BuRec.state fun _ _ k => k.figure _ rfl, absent]; rfl
      · rw [buThird_figure h BuRec.discharge fun _ _ k => k.figure _ rfl, absent]; rfl
      · rw [buThird_figure h BuRec.baseline fun _ _ k => k.figure _ rfl, absent]; rfl
      · rw [buThird_faults h, loseEntry_unlocked hl]; rfl

end
end

