-- ==== Sys2Proof/Proofs/BuReports.lean ====
section
/-! PROOF. A BU's report, the record it leaves, what its change hands on, and the course of a check under it
(O43). -/

namespace Sys2Proof.Machine

variable {e : Env} {p : Fin 12 → Prop} {j : Fin 12} {r : Rack} {x : BuReport}

/-! ### The report's own change (R41, R42) -/

/-- The rack as a BU's report leaves its record and the bus, before its change is handed on. -/
def buReported (e : Env) (j : Fin 12) (x : BuReport) (r : Rack) : Rack :=
  { r with bus := r.bus.answer, bu := put r.bu j ((r.bu[j]).report e.now (energyTop e j) x) }

/-- The rack with an entry to FAILED logged and the change of state handed on (R42). -/
def buTold (e : Env) (j : Fin 12) (x : BuReport) (r : Rack) : Rack :=
  buStateChanged e j r.bu[j] (if x.mode = .failed ∧ (r.bu[j]).state ≠ .failed then
    logFault e .buFailed (buAddress j) (buReported e j x r) else buReported e j x r)

/-- The report enters FULL (R147). -/
def fillsBu (j : Fin 12) (x : BuReport) (r : Rack) : Prop :=
  (r.bu[j]).present = true ∧ x.mode = .full ∧ (r.bu[j]).state ≠ .full

/-- The report completes a check's delivery (R152). -/
def deliversBu (j : Fin 12) (x : BuReport) (r : Rack) : Prop :=
  (r.bu[j]).phase = .running ∧ (x.mode = .idle ∨ x.mode = .charging) ∧
    ∃ a : ActiveCheck, r.active = some a ∧ a.depth ≤ x.delivered

theorem entersFull_iff : entersFull r.bu[j] ((r.bu[j]).report e.now (energyTop e j) x) = true ↔
    fillsBu j x r := by
  unfold entersFull fillsBu
  rw [Bool.and_eq_true, Bool.and_eq_true, beq_iff_eq, bne_iff_ne, and_assoc]
  rfl

theorem buReport_fills (h : fillsBu j x r) : buReport e j x r = stopStray e j (buIntent e j
    (reportCheck e j (answersStart r.bus) true
      (handOn e (healthSample e j (handOn e (buTold e j x r)))))) := by
  unfold buReport
  dsimp only
  rw [if_pos (entersFull_iff.mpr h), entersFull_iff.mpr h]
  rfl

theorem buReport_plain (h : ¬fillsBu j x r) : buReport e j x r = stopStray e j (buIntent e j
    (reportCheck e j (answersStart r.bus) false (buTold e j x r))) := by
  have plain : entersFull r.bu[j] ((r.bu[j]).report e.now (energyTop e j) x) = false := by
    rw [← Bool.not_eq_true, entersFull_iff]
    exact h
  unfold buReport
  dsimp only
  rw [plain]
  rfl

theorem answersStart_iff (b : Bus) : answersStart b = true ↔ ∃ (t : Transaction) (depth power : Nat),
    b.inFlight = some t ∧ t.cmd = some (.startCheck depth power) := by
  unfold answersStart
  cases b.inFlight with
  | none => simp
  | some t => cases t with | mk pos cmd => rcases cmd with _ | c <;> [simp; cases c <;> simp]

/-! ### The counters at an entry to FULL and at a delivery (R145, R147, R152) -/

theorem ReportsKept.mono {q : Fin 12 → Prop} {a b : Rack} (h : ReportsKept p a b) (i : ∀ k, p k → q k) :
    ReportsKept q a b := ⟨h.idle, h.bus, h.psu, h.reported, fun k hk => h.apart k (mt (i k) hk)⟩

/-- A BU's record keeps what its report gave it; its health and its counters are free as well. -/
def BuRec.Heard (x y : BuRec) : Prop :=
  BuRec.Reported { x with offered := y.offered, offeredRem := y.offeredRem, accepted := y.accepted, h := y.h } y

theorem BuRec.Reported.heard {x y : BuRec} (h : x.Reported y) : x.Heard y := by
  unfold BuRec.Heard
  unfold BuRec.Reported at h ⊢
  rw [h]

/-- The figures that a report gives and its record keeps (R38, R41, R42). -/
theorem BuRec.Reported.fields {x y : BuRec} (h : x.Reported y) : y.present = x.present ∧
    y.state = x.state ∧ y.energy = x.energy ∧ y.discharge = x.discharge ∧ y.delivered = x.delivered ∧
    y.accepted = x.accepted ∧ y.lastCounter = x.lastCounter ∧ y.baseline = x.baseline ∧
    y.miss = x.miss ∧ y.lastReport = x.lastReport ∧ y.reportPending = x.reportPending ∧ y.h = x.h := by
  unfold BuRec.Reported at h
  rw [h]
  exact ⟨rfl, rfl, rfl, rfl, rfl, rfl, rfl, rfl, rfl, rfl, rfl, rfl⟩

theorem BuRec.Heard.fields {x y : BuRec} (h : x.Heard y) : y.state = x.state ∧
    y.present = x.present ∧ y.energy = x.energy ∧ y.discharge = x.discharge ∧
    y.delivered = x.delivered ∧ y.lastCounter = x.lastCounter ∧ y.baseline = x.baseline ∧
    y.miss = x.miss ∧ y.lastReport = x.lastReport ∧ y.reportPending = x.reportPending := by
  obtain ⟨present, state, energy, discharge, delivered, -, counter, baseline, miss, last, pending, -⟩ :=
    BuRec.Reported.fields h
  exact ⟨state, present, energy, discharge, delivered, counter, baseline, miss, last, pending⟩

/-- From a to b a BU's counters are set to 0 and its health may be sampled; no other record changes. -/
structure Recounted (j : Fin 12) (a b : Rack) : Prop where
  bus : b.bus = a.bus
  psu : b.psu = a.psu
  self : b.bu[j] = { (a.bu[j]).resetCounters with h := (b.bu[j]).h }
  apart : ∀ k : Fin 12, k ≠ j → b.bu[k] = a.bu[k]

/-- Blocks that keep the reports set a BU's counters to 0 on their way. -/
def ResetsOn (p : Fin 12 → Prop) (j : Fin 12) (a b : Rack) : Prop :=
  ∃ m n : Rack, ReportsKept p a m ∧ Recounted j m n ∧ ReportsKept p n b

theorem ReportsKept.resets {a m n b : Rack} (h : ReportsKept p a m) (k : Recounted j m n)
    (l : ReportsKept p n b) : ResetsOn p j a b := ⟨m, n, h, k, l⟩

theorem ResetsOn.between {a b c d : Rack} (h : ReportsKept p a b) (k : ResetsOn p j b c)
    (l : ReportsKept p c d) : ResetsOn p j a d := by
  obtain ⟨m, n, before, recount, after⟩ := k
  exact ⟨m, n, h.trans before, recount, after.trans l⟩

theorem ResetsOn.idle {a b : Rack} (h : ResetsOn p j a b) (i : a.bus.inFlight = none) :
    b.bus.inFlight = none := by
  obtain ⟨m, n, before, recount, after⟩ := h
  exact after.idle (by rw [recount.bus]; exact before.idle i)

theorem ResetsOn.psu {a b : Rack} (h : ResetsOn p j a b) : b.psu = a.psu := by
  obtain ⟨m, n, before, recount, after⟩ := h
  rw [after.psu, recount.psu, before.psu]

theorem ResetsOn.heard {a b : Rack} (h : ResetsOn p j a b) : (a.bu[j]).Heard b.bu[j] := by
  obtain ⟨m, n, before, recount, after⟩ := h
  have first := before.reported j
  have last := after.reported j
  unfold BuRec.Heard
  unfold BuRec.Reported at first last ⊢
  rw [last, recount.self, first]
  rfl

theorem ResetsOn.zero {a b : Rack} (h : ResetsOn p j a b) :
    (b.bu[j]).accepted = 0 ∧ (b.bu[j]).offered = 0 ∧ (b.bu[j]).offeredRem = 0 := by
  obtain ⟨m, n, before, recount, after⟩ := h
  have last := after.reported j
  rw [last.figure BuRec.accepted rfl, last.figure BuRec.offered rfl, last.figure BuRec.offeredRem rfl,
    recount.self]
  exact ⟨rfl, rfl, rfl⟩

theorem ResetsOn.reported {a b : Rack} (h : ResetsOn p j a b) {k : Fin 12} (hk : k ≠ j) :
    (a.bu[k]).Reported b.bu[k] := by
  obtain ⟨m, n, before, recount, after⟩ := h
  have last := after.reported k
  rw [recount.apart k hk] at last
  exact (before.reported k).trans last

theorem ResetsOn.apart {a b : Rack} (h : ResetsOn p j a b) {k : Fin 12} (hk : k ≠ j) (hp : ¬p k) :
    b.bu[k] = a.bu[k] := by
  obtain ⟨m, n, before, recount, after⟩ := h
  rw [after.apart k hp, recount.apart k hk, before.apart k hp]

theorem healthSample_recounted (e : Env) (j : Fin 12) (r : Rack) : Recounted j r (healthSample e j r) := by
  unfold healthSample
  dsimp only
  split
  · refine ⟨rfl, rfl, ?_, fun k hk => ?_⟩
    · rw [raise_bu, change_self, change_self]
    · rw [raise_bu, change_get, change_get, if_neg (Ne.symm hk), if_neg (Ne.symm hk)]
  · refine ⟨rfl, rfl, ?_, fun k hk => ?_⟩
    · rw [change_self]
    · rw [change_get, if_neg (Ne.symm hk)]

theorem reset_recounted (j : Fin 12) (r : Rack) :
    Recounted j r { r with bu := change r.bu j BuRec.resetCounters } := by
  refine ⟨rfl, rfl, ?_, fun k hk => ?_⟩
  · rw [change_self]
  · rw [change_get, if_neg (Ne.symm hk)]

/-! ### The course of a check under a report (R152 to R155) -/

theorem deliver_resets (hj : p j) (r : Rack) : ResetsOn p j r (deliver e j r) := by
  have before := (endActive_reportsKept hj r).trans
    (setPhase_reportsKept hj .samplePending (some ⟨e.now, Config.samplePendingMs⟩) _)
  exact before.resets (reset_recounted j _)
    ((setDue_reportsKept hj Config.postponeSeconds _).trans (checkEnded_reportsKept ..))

theorem dropSample_reportsKept (hj : p j) (o : Nat) (r : Rack) : ReportsKept p r (dropSample e j o r) :=
  (setPhase_reportsKept hj _ _ r).trans (checkEnded_reportsKept ..)

theorem complete_reportsKept (hj : p j) (r : Rack) : ReportsKept p r (complete e j r) := by
  have cleared (x : Rack) : ReportsKept p x { x with
      bu := change x.bu j fun b => { b with stale := false, postponed := 0 }, todo.hold := true } :=
    .changed hj (fun b => { b with stale := false, postponed := 0 }) rfl rfl rfl fun _ => rfl
  have set := ((setPhase_reportsKept hj .none none r).trans (cleared _)).trans
    (setDue_reportsKept hj (86400 * e.checkInterval) _)
  have ended (v : Nat) := set.trans (checkEnded_reportsKept (e := e) j v _)
  exact .ite ((ended _).trans (logFault_reportsKept ..)) (ended _)

theorem strayCheck_reportsKept (hj : p j) (r : Rack) : ReportsKept p r (strayCheck e j r) := by
  have dropped : ReportsKept p r (if (r.bu[j]).phase = .samplePending then dropSample e j 2 r else r) :=
    .ite (dropSample_reportsKept hj 2 r) (.refl r)
  have counted (x : Rack) : ReportsKept p x { x with
      bu := change x.bu j fun b => { b with strayCounted := true } } :=
    .changed hj (fun b => { b with strayCounted := true }) rfl rfl rfl fun _ => rfl
  exact .ite dropped (((dropped.trans (counted _)).trans (setDue_reportsKept hj 0 _)).trans
    (countAbort_reportsKept hj _))

theorem reportRequested_reportsKept (hj : p j) (answered : Bool) (s : BuState) (r : Rack) :
    ReportsKept p r (reportRequested e j answered s r) := by
  have taken : ReportsKept p r (notTaken e j r) := notTaken_reportsKept hj r
  have aborts (stop : Bool) : ReportsKept p r (abortCheck e j stop r) := abortCheck_reportsKept hj stop r
  cases s with
  | checking => exact setPhase_reportsKept hj _ _ r
  | idle | charging | full => exact .ite taken (.refl r)
  | discharging | isolated => exact .ite taken (aborts false)
  | failed | lost | absent => exact .ite taken (aborts true)

/-- The delivery of a running check is complete (R152). -/
def Delivered (j : Fin 12) (r : Rack) : Prop :=
  ((r.bu[j]).state = .idle ∨ (r.bu[j]).state = .charging) ∧
    ∃ a : ActiveCheck, r.active = some a ∧ a.depth ≤ (r.bu[j]).delivered

theorem reportRunning_delivers (h : Delivered j r) :
    reportRunning e j (r.bu[j]).state r = deliver e j r := by
  obtain ⟨hs, a, ha, hd⟩ := h
  unfold reportRunning
  rw [ha]
  rcases hs with hs | hs
  · rw [hs]; exact if_pos hd
  · rw [hs]; exact if_pos hd

theorem reportRunning_reportsKept (hj : p j) (h : ¬Delivered j r) :
    ReportsKept p r (reportRunning e j (r.bu[j]).state r) := by
  have aborts (stop : Bool) : ReportsKept p r (abortCheck e j stop r) := abortCheck_reportsKept hj stop r
  have short (a : ActiveCheck) (hs : (r.bu[j]).state = .idle ∨ (r.bu[j]).state = .charging)
      (ha : r.active = some a) : ¬a.depth ≤ (r.bu[j]).delivered := fun hd => h ⟨hs, a, ha, hd⟩
  unfold reportRunning
  split
  · exact .refl r
  · next a hs ha => rw [if_neg (short a (.inl hs) ha)]; exact aborts false
  · next a hs ha => rw [if_neg (short a (.inr hs) ha)]; exact aborts false
  all_goals exact aborts _

/-- A report of another mode than CHECKING clears the stray mark (R155). -/
def unstrayed (j : Fin 12) (r : Rack) : Rack :=
  if (r.bu[j]).state = .checking then r
  else { r with bu := change r.bu j fun b => { b with strayCounted := false } }

theorem unstrayed_reportsKept (hj : p j) (r : Rack) : ReportsKept p r (unstrayed j r) :=
  .ite (.refl r) (.changed hj (fun b => { b with strayCounted := false }) rfl rfl rfl fun _ => rfl)

theorem unstrayed_course (j : Fin 12) (r : Rack) :
    ((unstrayed j r).bu[j]).phase = (r.bu[j]).phase ∧ (unstrayed j r).active = r.active := by
  unfold unstrayed
  split
  · exact ⟨rfl, rfl⟩
  · exact ⟨change_figure r.bu j j _ BuRec.phase fun _ => rfl, rfl⟩

theorem reportCheck_requested {answered entered : Bool} (h : (r.bu[j]).phase = .requested) :
    reportCheck e j answered entered r =
      reportRequested e j answered (r.bu[j]).state (unstrayed j r) := by
  have phase := (unstrayed_course j r).1.trans h
  unfold unstrayed at phase ⊢
  unfold reportCheck
  dsimp only
  rw [phase]

theorem reportCheck_running {answered entered : Bool} (h : (r.bu[j]).phase = .running) :
    reportCheck e j answered entered r = reportRunning e j (r.bu[j]).state (unstrayed j r) := by
  have phase := (unstrayed_course j r).1.trans h
  unfold unstrayed at phase ⊢
  unfold reportCheck
  dsimp only
  rw [phase]

theorem reportCheck_pending {answered entered : Bool} (h : (r.bu[j]).phase = .samplePending) :
    reportCheck e j answered entered r =
      if (r.bu[j]).state = .checking then strayCheck e j (unstrayed j r)
      else if entered then complete e j (unstrayed j r) else unstrayed j r := by
  have phase := (unstrayed_course j r).1.trans h
  unfold unstrayed at phase ⊢
  unfold reportCheck
  dsimp only
  rw [phase]

theorem reportCheck_none {answered entered : Bool} (h : (r.bu[j]).phase = .none) :
    reportCheck e j answered entered r =
      if (r.bu[j]).state = .checking then strayCheck e j (unstrayed j r) else unstrayed j r := by
  have phase := (unstrayed_course j r).1.trans h
  unfold unstrayed at phase ⊢
  unfold reportCheck
  dsimp only
  rw [phase]

theorem delivered_unstrayed (j : Fin 12) (r : Rack) : Delivered j (unstrayed j r) ↔ Delivered j r := by
  have cleared := (unstrayed_reportsKept (p := fun _ => True) (j := j) trivial r).reported j
  unfold Delivered
  rw [cleared.figure BuRec.state rfl, cleared.figure BuRec.delivered rfl, (unstrayed_course j r).2]

/-- A report that completes no delivery leaves what it gave (R152 to R155). -/
theorem reportCheck_reportsKept (hj : p j) (answered entered : Bool)
    (h : ¬((r.bu[j]).phase = .running ∧ Delivered j r)) :
    ReportsKept p r (reportCheck e j answered entered r) := by
  have cleared := unstrayed_reportsKept hj r
  cases hp : (r.bu[j]).phase with
  | requested =>
    rw [reportCheck_requested hp]
    exact cleared.trans (reportRequested_reportsKept hj ..)
  | running =>
    rw [reportCheck_running hp, ← cleared.state j]
    refine cleared.trans (reportRunning_reportsKept hj ?_)
    rw [delivered_unstrayed]
    exact fun d => h ⟨hp, d⟩
  | samplePending =>
    rw [reportCheck_pending hp]
    exact .ite (cleared.trans (strayCheck_reportsKept hj _))
      (.ite (cleared.trans (complete_reportsKept hj _)) cleared)
  | none =>
    rw [reportCheck_none hp]
    exact .ite (cleared.trans (strayCheck_reportsKept hj _)) cleared

theorem reportCheck_delivers {answered entered : Bool} (hp : (r.bu[j]).phase = .running)
    (h : Delivered j r) : reportCheck e j answered entered r = deliver e j (unstrayed j r) := by
  have state := (unstrayed_reportsKept (p := fun _ => True) (j := j) trivial r).state j
  rw [reportCheck_running hp, ← state, reportRunning_delivers ((delivered_unstrayed j r).mpr h)]

/-! ### The report as a whole -/

theorem buTold_kept (e : Env) (j : Fin 12) (x : BuReport) (r : Rack) :
    ReportsKept (· = j) (buReported e j x r) (buTold e j x r) :=
  ReportsKept.trans (.ite (logFault_reportsKept ..) (.refl _))
    (buStateChanged_reportsKept (p := (· = j)) rfl ..)

theorem buStateChanged_phase (e : Env) (j : Fin 12) (old : BuRec) (r : Rack) :
    ((buStateChanged e j old r).bu[j]).phase = (r.bu[j]).phase := by
  by_cases h : (r.bu[j]).state = old.state
  · rw [buStateChanged_same h]
  · rw [buStateChanged_moves h]
    have left := (leaveMembers_leaves e j { raise e .battery 1 j.val (r.bu[j]).state.code r with
      todo.hold := true, todo.grid := true }).zeroed.figure BuRec.phase (fun _ => rfl) j
    refine Eq.trans ?_ left
    unfold isolateInDark
    split
    · exact change_figure _ j j _ BuRec.phase fun _ => rfl
    · rfl

theorem buReported_self (e : Env) (j : Fin 12) (x : BuReport) (r : Rack) :
    (buReported e j x r).bu[j] = (r.bu[j]).report e.now (energyTop e j) x := put_self ..

theorem buReported_other {k : Fin 12} (hk : k ≠ j) : (buReported e j x r).bu[k] = r.bu[k] :=
  put_other _ _ _ _ (Ne.symm hk)

/-- The course of the check as the report finds it is that before the report (R152). -/
theorem buTold_delivers (e : Env) (j : Fin 12) (x : BuReport) (r : Rack) :
    ((buTold e j x r).bu[j]).phase = .running ∧ Delivered j (buTold e j x r) ↔ deliversBu j x r := by
  have logged : ∀ q : Rack, (q = buReported e j x r ∨
      q = logFault e .buFailed (buAddress j) (buReported e j x r)) →
      q.bu = (buReported e j x r).bu ∧ q.active = r.active := by
    rintro q (rfl | rfl)
    · exact ⟨rfl, rfl⟩
    · exact ⟨logFault_bu .., logFault_active ..⟩
  obtain ⟨bu, active⟩ := logged (if x.mode = .failed ∧ (r.bu[j]).state ≠ .failed then
    logFault e .buFailed (buAddress j) (buReported e j x r) else buReported e j x r)
    (by split <;> simp)
  have reported := (buTold_kept e j x r).reported j
  rw [buReported_self] at reported
  unfold Delivered deliversBu
  rw [reported.figure BuRec.state rfl, reported.figure BuRec.delivered rfl, buTold,
    buStateChanged_phase, (buStateChanged_rest ..).2, bu, active, buReported_self]
  rfl

theorem stopStray_buIntent (j : Fin 12) (r : Rack) :
    ReportsKept p r (stopStray e j (buIntent e j r)) :=
  (buIntent_reportsKept j r).trans (stopStray_reportsKept j _)

/-- A report that neither enters FULL nor completes a delivery (R41, R42). -/
theorem buReport_kept (h : ¬fillsBu j x r) (hd : ¬deliversBu j x r) :
    ReportsKept (· = j) (buReported e j x r) (buReport e j x r) := by
  rw [buReport_plain h]
  refine ((buTold_kept e j x r).trans ?_).trans (stopStray_buIntent j _)
  exact reportCheck_reportsKept (p := (· = j)) rfl _ _ (mt (buTold_delivers e j x r).mp hd)

/-- A report that enters FULL has its health sampled (R147). -/
theorem buReport_filled (h : fillsBu j x r) :
    ResetsOn (fun _ => True) j (buReported e j x r) (buReport e j x r) := by
  rw [buReport_fills h]
  have told := (buTold_kept e j x r).mono (q := fun _ => True) fun _ _ => trivial
  have before := told.trans (handOn_reportsKept (e := e) (fun _ => trivial) _)
  have sampled := healthSample_recounted e j (handOn e (buTold e j x r))
  have after := handOn_reportsKept (e := e) (p := fun _ => True) (fun _ => trivial)
    (healthSample e j (handOn e (buTold e j x r)))
  have full : ((handOn e (healthSample e j (handOn e (buTold e j x r)))).bu[j]).state = .full := by
    rw [after.state j, sampled.self]
    refine (before.state j).trans ?_
    rw [buReported_self]
    exact h.2.1
  refine before.resets sampled (after.trans (.trans ?_ (stopStray_buIntent j _)))
  refine reportCheck_reportsKept trivial _ _ ?_
  rintro ⟨-, hs, -⟩
  rw [full] at hs
  rcases hs with hs | hs <;> cases hs

/-- A report that completes a check's delivery sets the counters to 0 (R152). -/
theorem buReport_delivered (h : ¬fillsBu j x r) (hd : deliversBu j x r) :
    ResetsOn (· = j) j (buReported e j x r) (buReport e j x r) := by
  obtain ⟨phase, delivered⟩ := (buTold_delivers e j x r).mpr hd
  rw [buReport_plain h, reportCheck_delivers phase delivered]
  exact .between ((buTold_kept e j x r).trans (unstrayed_reportsKept (p := (· = j)) rfl _))
    (deliver_resets (p := (· = j)) rfl _) (stopStray_buIntent j _)

theorem buReport_idle (e : Env) (j : Fin 12) (x : BuReport) (r : Rack) :
    (buReport e j x r).bus.inFlight = none := by
  have answered : (buReported e j x r).bus.inFlight = none := answer_idle _
  by_cases h : fillsBu j x r
  · exact (buReport_filled h).idle answered
  · by_cases hd : deliversBu j x r
    · exact (buReport_delivered h hd).idle answered
    · exact (buReport_kept h hd).idle answered

theorem buReport_psu (e : Env) (j : Fin 12) (x : BuReport) (r : Rack) :
    (buReport e j x r).psu = r.psu := by
  by_cases h : fillsBu j x r
  · exact (buReport_filled h).psu
  · by_cases hd : deliversBu j x r
    · exact (buReport_delivered h hd).psu
    · exact (buReport_kept h hd).psu

/-- The record of a BU keeps what its report gave it, its counters and its health apart (R42). -/
theorem buReport_heard (e : Env) (j : Fin 12) (x : BuReport) (r : Rack) :
    ((r.bu[j]).report e.now (energyTop e j) x).Heard (buReport e j x r).bu[j] := by
  rw [← buReported_self]
  by_cases h : fillsBu j x r
  · exact (buReport_filled h).heard
  · by_cases hd : deliversBu j x r
    · exact (buReport_delivered h hd).heard
    · exact ((buReport_kept h hd).reported j).heard

theorem buReport_others (e : Env) (x : BuReport) (r : Rack) {j k : Fin 12} (hk : k ≠ j) :
    (r.bu[k]).Reported (buReport e j x r).bu[k] := by
  rw [← buReported_other (e := e) (x := x) hk]
  by_cases h : fillsBu j x r
  · exact (buReport_filled h).reported hk
  · by_cases hd : deliversBu j x r
    · exact (buReport_delivered h hd).reported hk
    · exact (buReport_kept h hd).reported k

theorem buReport_apart (h : ¬fillsBu j x r) {k : Fin 12} (hk : k ≠ j) :
    (buReport e j x r).bu[k] = r.bu[k] := by
  by_cases hd : deliversBu j x r
  · exact ((buReport_delivered (e := e) h hd).apart hk hk).trans (buReported_other hk)
  · exact ((buReport_kept (e := e) h hd).apart k hk).trans (buReported_other hk)

theorem buReport_zero (h : fillsBu j x r ∨ deliversBu j x r) :
    ((buReport e j x r).bu[j]).accepted = 0 ∧ ((buReport e j x r).bu[j]).offered = 0 ∧
    ((buReport e j x r).bu[j]).offeredRem = 0 := by
  by_cases hf : fillsBu j x r
  · exact (buReport_filled hf).zero
  · exact (buReport_delivered hf (h.resolve_left hf)).zero

theorem buReport_accepted (h : ¬fillsBu j x r) (hd : ¬deliversBu j x r) :
    ((buReport e j x r).bu[j]).accepted = ((r.bu[j]).report e.now (energyTop e j) x).accepted := by
  have kept := (buReport_kept (e := e) h hd).reported j
  rw [buReported_self] at kept
  obtain ⟨-, -, -, -, -, accepted, -⟩ := kept.fields
  exact accepted

/-! ### BU_STATUS (R27, R28) -/

theorem buResponse_of {now : Time} {s : Bus} {t : Transaction} {frame : List Byte}
    (h : s.inFlight = some t) (hp : t.pos = .bu j) (hw : (now - t.began).toNat ≤ 5)
    (hr : buRecord (buAddress j) frame = some x) : buResponse now s frame = some (j, x) := by
  unfold buResponse
  rw [openWindow_some h hw]
  dsimp only
  rw [hp]
  dsimp only
  rw [hr]
  rfl

theorem exec_buStatus {s : State} {t : Transaction} {frame : List Byte}
    (h : s.rack.bus.inFlight = some t) (hp : t.pos = .bu j) (hw : (s.now - t.began).toNat ≤ 5)
    (hr : buRecord (buAddress j) frame = some x) : exec (.buStatus frame) s =
      .next (s.onRack fun e r => buReport e j x r).conclude := by
  show execBuStatus frame s = _
  unfold execBuStatus
  rw [buResponse_of h hp hw hr]

/-- The mode that each mode byte gives (R27, R42). -/
theorem modeOf_spelled (mode : Fin 7) : ∃ st : BuState, modeOf (BitVec.ofNat 8 mode) = some st ∧
    (st = .failed ↔ mode.val = 6) ∧ (st ≠ .failed → st.code = mode.val) := by
  revert mode
  decide

theorem buRecord_spelled (address : Nat) {mode : Fin 7} {st : BuState} (e d c k : Fin 65536)
    (h : modeOf (BitVec.ofNat 8 mode) = some st) :
    buRecord address (shelfFrame address 0xA0 (u8 mode ++ u16 e ++ u16 d ++ u16 c ++ u16 k)) =
      some ⟨st, e, d, c, k⟩ := by
  refine (buRecord_frame ..).trans ?_
  have energy := fromBytes_u16 e.isLt
  have discharge := fromBytes_u16 d.isLt
  have counter := fromBytes_u16 c.isLt
  have delivered := fromBytes_u16 k.isLt
  unfold u16 at energy discharge counter delivered
  rw [h, energy, discharge, counter, delivered]
  rfl

end Sys2Proof.Machine

section
open Sys2Proof Sys2Proof.Machine

/-- Settles O43: a response within its window is the report its bytes spell; the report is followed through
its change of state, the sample of an entry to FULL, the course of a check, and what it offers. -/
theorem buReports : Obligations.BuReports := by
  refine ⟨fun s x j mode e d c k h hp hw => ?_, fun e j p r => ?_,
    fun e j old r => ⟨buStateChanged_same, buStateChanged_moves⟩,
    fun e j was r => ⟨leaveMembers_stays, fun h k => ⟨?_, fun hm => ?_⟩, isolateInDark_offers,
      isolateInDark_stays⟩,
    fun e j r => ⟨buIntent_waits, buIntent_restores, buIntent_isolates, buIntent_stays, stopStray_offers,
      stopStray_stays⟩⟩
  · obtain ⟨st, hm, failed, code⟩ := modeOf_spelled mode
    exact ⟨st, hm, failed, code, exec_buStatus h hp hw (buRecord_spelled _ _ _ _ _ hm)⟩
  · obtain ⟨state, present, energy, discharge, delivered, counter, baseline, miss, last, pending⟩ :=
      (buReport_heard e j p r).fields
    refine ⟨buReport_idle e j p r, state, present, energy, discharge, delivered, counter, baseline, miss,
      last, pending, buReport_accepted, buReport_zero, fun h k hk => buReport_apart h hk,
      buReport_psu e j p r, fun k hk => (buReport_others e p r hk).fields, fun answered ha => ?_⟩
    have start : answered = answersStart r.bus := by
      rw [Bool.eq_iff_iff, ha, answersStart_iff]
    rw [start]
    exact ⟨buReport_fills, buReport_plain⟩
  · rw [leaveMembers_members, if_pos ⟨rfl, not_recharges h k⟩]
  · have out : leaveMembers e j r = memberLeave e j r := if_neg (by rw [not_recharges h k]; decide)
    rw [out]
    exact memberLeave_setpoint hm

end
end

