-- ==== Sys2Proof/Proofs/GridDrains.lean ====
section
/-! PROOF. Operations on the slots or the BUs one after another, and what a drain of the rack leaves beside
the slots (R111, R114). The layer under O49. -/

namespace Sys2Proof.Machine

variable {e : Env} {a b c r : Rack} {n m : Fin 48}

/-! ### One after another -/

theorem forEach_figure {α β : Type} {f : α → Rack → Rack} (g : Rack → β) (h : ∀ x r, g (f x r) = g r) :
    ∀ (xs : List α) (r : Rack), g (forEach f xs r) = g r
  | [], _ => rfl
  | x :: xs, r => (forEach_figure g h xs (f x r)).trans (h x r)

/-- A place that is not among those operated on is read as before. -/
theorem forEach_skips {k : Nat} {β : Type} {f : Fin k → Rack → Rack} {view : Fin k → Rack → β}
    (h : ∀ i j r, i ≠ j → view j (f i r) = view j r) (j : Fin k) (l : List (Fin k)) (r : Rack)
    (hj : j ∉ l) : view j (forEach f l r) = view j r := by
  induction l generalizing r with
  | nil => rfl
  | cons i l ih =>
    rw [List.mem_cons, not_or] at hj
    obtain ⟨hi, hl⟩ := hj
    exact (ih (f i r) hl).trans (h i j r (Ne.symm hi))

/-- What is read of the rack for one of the places that operations take in turn is what its own operation
makes of it, on a rack that reads the same there. -/
theorem forEach_turn {k : Nat} {β : Type} {f : Fin k → Rack → Rack} {view : Fin k → Rack → β}
    (h : ∀ i j r, i ≠ j → view j (f i r) = view j r) (j : Fin k) (l : List (Fin k)) (r : Rack)
    (hn : l.Nodup) (hj : j ∈ l) :
    ∃ u, view j u = view j r ∧ view j (forEach f l r) = view j (f j u) := by
  induction l generalizing r with
  | nil => cases hj
  | cons i l ih =>
    obtain ⟨out, nodup⟩ := List.nodup_cons.mp hn
    by_cases hij : i = j
    · subst hij
      exact ⟨r, rfl, forEach_skips h i l (f i r) out⟩
    · obtain ⟨u, same, turn⟩ := ih (f i r) nodup ((List.mem_cons.mp hj).resolve_left (Ne.symm hij))
      exact ⟨u, same.trans (h i j r hij), turn⟩

/-- The same over every place. -/
theorem forEach_each {k : Nat} {β : Type} {f : Fin k → Rack → Rack} (view : Fin k → Rack → β)
    (h : ∀ i j r, i ≠ j → view j (f i r) = view j r) (j : Fin k) (r : Rack) :
    ∃ u, view j u = view j r ∧ view j (forEach f (List.finRange k) r) = view j (f j u) :=
  forEach_turn h j _ r (List.nodup_finRange k) (List.mem_finRange j)

/-! ### A drain acts on its slot by the slot alone (R70 to R73) -/

theorem endDrain_congr {x : Cause} (h : a.slots[n] = b.slots[n]) :
    (endDrain e n x a).slots[n] = (endDrain e n x b).slots[n] := by
  unfold endDrain
  rw [h]
  generalize (b.slots[n]).state = s, (b.slots[n]).drain = d
  cases d with
  | none => cases s <;> exact h
  | some d =>
    cases s with
    | draining => dsimp only; rw [enter_self, enter_self, h]
    | _ => exact h

theorem endDrain_other {x : Cause} (h : n ≠ m) : (endDrain e n x r).slots[m] = r.slots[m] := by
  unfold endDrain
  split
  · exact enter_other _ _ _ _ _ _ h
  · rfl

theorem beginDrain_congr {q : DrainRequest} (h : a.slots[n] = b.slots[n]) :
    (beginDrain e id n q a).slots[n] = (beginDrain e id n q b).slots[n] := by
  unfold beginDrain
  rw [h]
  dsimp only [id]
  split
  · exact endDrain_congr (by rw [changeRecord_self, changeRecord_self])
  · split
    · exact endDrain_congr (by rw [changeRecord_self, changeRecord_self])
    · rw [changeRecord_self, changeRecord_self]

theorem beginDrain_other {q : DrainRequest} (h : n ≠ m) :
    (beginDrain e id n q r).slots[m] = r.slots[m] := by
  unfold beginDrain
  dsimp only [id]
  split
  · rw [endDrain_other h, changeRecord_other _ _ _ _ _ h]
  · split
    · rw [endDrain_other h, changeRecord_other _ _ _ _ _ h]
    · rw [changeRecord_other _ _ _ _ _ h]

theorem holdDrain_self (e : Env) (n : Fin 48) (d : Drain) (r : Rack) :
    (holdDrain e n d r).slots[n] = { r.slots[n] with drain := some d } := by
  have h := holdDrain_slots e n d r
  rw [h, change_self]

theorem holdDrain_other {d : Drain} (h : n ≠ m) : (holdDrain e n d r).slots[m] = r.slots[m] := by
  have held := holdDrain_slots e n d r
  rw [held, change_get, if_neg h]

theorem amendDrain_congr {q : DrainRequest} (h : a.slots[n] = b.slots[n]) :
    (amendDrain e n q a).slots[n] = (amendDrain e n q b).slots[n] := by
  unfold amendDrain
  rw [h]
  generalize (b.slots[n]).drain = x
  cases x with
  | none => exact h
  | some d =>
    dsimp only
    by_cases hd : d.amend e.now q.target (drainLength e n q) = d
    · rw [if_pos hd, if_pos hd]; exact h
    · rw [if_neg hd, if_neg hd, holdDrain_self, holdDrain_self, h]

theorem amendDrain_other {q : DrainRequest} (h : n ≠ m) :
    (amendDrain e n q r).slots[m] = r.slots[m] := by
  unfold amendDrain
  split
  · dsimp only
    split
    · rfl
    · exact holdDrain_other h
  · rfl

theorem drain_congr (q : DrainRequest) (h : a.slots[n] = b.slots[n]) :
    (drain e q n a).slots[n] = (drain e q n b).slots[n] := by
  have entered (st : SlotState) (x : Cause) : (enter e n st x a).slots[n] = (enter e n st x b).slots[n] := by
    rw [enter_self, enter_self, h]
  unfold drain drainWith
  rw [h]
  generalize (b.slots[n]).state = s
  cases s with
  | on => exact beginDrain_congr h
  | starting => exact entered ..
  | draining => exact amendDrain_congr h
  | queued | shed =>
    cases q with
    | leak left => exact entered ..
    | off | shed | rackDrain => exact h
  | disabled | off | isolated | faulted => exact h

theorem drain_other (q : DrainRequest) (h : n ≠ m) : (drain e q n r).slots[m] = r.slots[m] := by
  unfold drain drainWith
  split
  · exact beginDrain_other h
  · exact enter_other _ _ _ _ _ _ h
  · exact amendDrain_other h
  · exact enter_other _ _ _ _ _ _ h
  · exact enter_other _ _ _ _ _ _ h
  · rfl

/-- Each slot that a drain of the rack picks takes the request as it stands (R111, R114). -/
theorem drainAll_slot (q : DrainRequest) (pick : Fin 48 → SlotRec → Bool) (r : Rack) (n : Fin 48) :
    (drainAll e q pick r).slots[n] =
      if pick n r.slots[n] then (drain e q n r).slots[n] else r.slots[n] := by
  obtain ⟨u, same, turn⟩ := forEach_each
    (f := fun n r => if pick n r.slots[n] then drain e q n r else r) (fun n (r : Rack) => r.slots[n])
    (fun i j r hij => by split; exacts [drain_other q hij, rfl]) n r
  refine turn.trans ?_
  rw [same]
  split
  · exact drain_congr q same
  · exact same

/-! ### What a drain leaves beside the slots -/

/-- The active check stands, and an evaluation that is owed stays owed. -/
def Attends (a b : Rack) : Prop := b.active = a.active ∧ (a.todo.hold = true → b.todo.hold = true)

theorem Attends.refl (r : Rack) : Attends r r := ⟨rfl, id⟩

theorem Attends.trans (h : Attends a b) (k : Attends b c) : Attends a c :=
  ⟨k.1.trans h.1, k.2 ∘ h.2⟩

theorem Attends.ite {q : Prop} [Decidable q] (h : Attends a b) (k : Attends a c) :
    Attends a (if q then b else c) := by
  split <;> assumption

theorem forEach_attends {α : Type} {f : α → Rack → Rack} (h : ∀ x r, Attends r (f x r)) :
    ∀ (xs : List α) (r : Rack), Attends r (forEach f xs r)
  | [], r => .refl r
  | x :: xs, r => (h x r).trans (forEach_attends h xs (f x r))

theorem followHead_attends (e : Env) (r : Rack) : Attends r (followHead e r) := by
  unfold followHead
  split
  · exact .ite (.refl r) ⟨rfl, id⟩
  · exact .ite (.refl r) ⟨rfl, id⟩

theorem changeRecord_attends (e : Env) (n : Fin 48) (x : SlotRec) (r : Rack) :
    Attends r (changeRecord e n x r) := by
  have taken : Attends r (takeRecord e n x r) := ⟨rfl, fun _ => rfl⟩
  have queued (q : List (Fin 48)) : Attends r (followHead e { takeRecord e n x r with
      queue := { (takeRecord e n x r).queue with entries := q } }) :=
    (taken.trans ⟨rfl, id⟩).trans (followHead_attends ..)
  have followed : Attends r (followQueue e n (r.slots[n]).state x.state (takeRecord e n x r)) :=
    .ite (queued _) (.ite (queued _) taken)
  exact followed.trans ⟨rfl, id⟩

theorem endDrain_attends (e : Env) (n : Fin 48) (x : Cause) (r : Rack) :
    Attends r (endDrain e n x r) := by
  unfold endDrain
  split
  · exact changeRecord_attends ..
  · exact .refl r

theorem beginDrain_attends (e : Env) (n : Fin 48) (q : DrainRequest) (r : Rack) :
    Attends r (beginDrain e id n q r) := by
  unfold beginDrain
  dsimp only [id]
  have begun := changeRecord_attends e n { (r.slots[n]).enter e.now .draining q.cause with
    drain := some ⟨q.target, ⟨e.now, drainLength e n q⟩⟩ } r
  exact .ite (begun.trans (endDrain_attends ..)) (.ite (begun.trans (endDrain_attends ..)) begun)

theorem holdDrain_attends (e : Env) (n : Fin 48) (d : Drain) (r : Rack) :
    Attends r (holdDrain e n d r) := by
  constructor
  · simp only [holdDrain, raise_active]
  · simp only [holdDrain, raise_todo]
    exact id

theorem amendDrain_attends (e : Env) (n : Fin 48) (q : DrainRequest) (r : Rack) :
    Attends r (amendDrain e n q r) := by
  unfold amendDrain
  split
  · exact .ite (.refl r) (holdDrain_attends ..)
  · exact .refl r

theorem drain_attends (e : Env) (q : DrainRequest) (n : Fin 48) (r : Rack) :
    Attends r (drain e q n r) := by
  unfold drain drainWith
  split
  · exact beginDrain_attends ..
  · exact changeRecord_attends ..
  · exact amendDrain_attends ..
  · exact changeRecord_attends ..
  · exact changeRecord_attends ..
  · exact .refl r

theorem drainAll_attends (e : Env) (q : DrainRequest) (pick : Fin 48 → SlotRec → Bool) (r : Rack) :
    Attends r (drainAll e q pick r) :=
  forEach_attends (fun n r => .ite (drain_attends e q n r) (.refl r)) _ r

theorem logFault_attends (e : Env) (f : FaultKind) (k : Nat) (r : Rack) :
    Attends r (logFault e f k r) := by
  refine ⟨logFault_active .., fun h => ?_⟩
  unfold logFault
  dsimp only
  split <;> split <;> exact h

theorem drainAll_sameModules (e : Env) (q : DrainRequest) (pick : Fin 48 → SlotRec → Bool) (r : Rack) :
    SameModules r (drainAll e q pick r) :=
  forEach_sameModules (fun n r => .ite (drain_sameModules e q n r) (.refl r)) _ r

theorem drainAll_sameRecharge (e : Env) (q : DrainRequest) (pick : Fin 48 → SlotRec → Bool) (r : Rack) :
    SameRecharge r (drainAll e q pick r) :=
  forEach_sameRecharge _ (fun n r => ite_sameRecharge (drain_sameRecharge e q n r) (.refl r)) _ r

theorem drainAll_grid (e : Env) {q : DrainRequest} (hq : q.target = .shed)
    (pick : Fin 48 → SlotRec → Bool) (r : Rack) : (drainAll e q pick r).grid =
      { r.grid with powered := (drainAll e q pick r).grid.powered } :=
  (drainAll_handsOn (still := True) e q pick r hq).grid trivial

end Sys2Proof.Machine
end

