-- ==== Sys2Proof/Proofs/GridMoves.lean ====
section
/-! PROOF. How the grid state and the shed level move, and the end of a poll cycle (O49). -/

namespace Sys2Proof.Machine

variable {e : Env} {a b c r : Rack} {i j : Fin 12}

/-! ### The conditions as they read the modules (R107, R108) -/

theorem onBusbar_iff (x : PsuRec) : onBusbar x = true ↔ x.state = .online ∨ x.state = .inputFault := by
  unfold onBusbar
  rw [Bool.or_eq_true, beq_iff_eq, beq_iff_eq]

theorem any_finRange_iff {k : Nat} (p : Fin k → Bool) :
    (List.finRange k).any p = true ↔ ∃ i, p i = true := by
  rw [List.any_eq_true]
  simp only [List.mem_finRange, true_and]

theorem all_finRange_iff {k : Nat} (p : Fin k → Bool) :
    (List.finRange k).all p = true ↔ ∀ i, p i = true := by
  rw [List.all_eq_true]
  simp only [List.mem_finRange, forall_const]

theorem lossHolds_iff (e : Env) (r : Rack) : lossHolds e r = true ↔
    (∃ j : Fin 12, (e.cfg.locked = false ∨ (r.bu[j]).present = true) ∧
      (r.bu[j]).state = .discharging ∧ ∀ a : ActiveCheck, r.active = some a → a.bu ≠ j) ∨
    (∃ i : Fin 18, (e.cfg.locked = false ∨ (r.psu[i]).present = true) ∧
      ((r.psu[i]).state = .online ∨ (r.psu[i]).state = .inputFault)) ∧
    ∀ i : Fin 18, ((e.cfg.locked = false ∨ (r.psu[i]).present = true) ∧
      ((r.psu[i]).state = .online ∨ (r.psu[i]).state = .inputFault)) → (r.psu[i]).input ≠ .ok := by
  have unchecked (j : Fin 12) : (!checksBu r j) = true ↔
      ∀ a : ActiveCheck, r.active = some a → a.bu ≠ j := by
    rw [Bool.not_eq_true', ← Bool.not_eq_true, checksBu_iff]
    simp only [not_exists, not_and, ne_eq]
  have fed (i : Fin 18) : (readsPsu e r i && onBusbar r.psu[i]) = true ↔
      (e.cfg.locked = false ∨ (r.psu[i]).present = true) ∧
        ((r.psu[i]).state = .online ∨ (r.psu[i]).state = .inputFault) := by
    rw [Bool.and_eq_true, readsPsu_iff, onBusbar_iff]
  unfold lossHolds
  rw [Bool.or_eq_true, Bool.and_eq_true, any_finRange_iff, any_finRange_iff, all_finRange_iff]
  refine or_congr (exists_congr fun j => ?_) (and_congr (exists_congr fed) (forall_congr' fun i => ?_))
  · rw [Bool.and_eq_true, Bool.and_eq_true, readsBu_iff, beq_iff_eq, unchecked, and_assoc]
  · rw [Bool.or_eq_true, Bool.not_eq_true', ← Bool.not_eq_true, fed, bne_iff_ne]
    exact imp_iff_not_or.symm

theorem psuReturn_iff (e : Env) (r : Rack) : psuReturn e r = true ↔
    (∃ i : Fin 18, (e.cfg.locked = false ∨ (r.psu[i]).present = true) ∧ (r.psu[i]).state = .online) ∧
    ∀ i : Fin 18, (e.cfg.locked = false ∨ (r.psu[i]).present = true) →
      (r.psu[i]).state ≠ .inputFault := by
  unfold psuReturn
  rw [Bool.and_eq_true, any_finRange_iff, all_finRange_iff]
  refine and_congr (exists_congr fun i => ?_) (forall_congr' fun i => ?_)
  · rw [Bool.and_eq_true, readsPsu_iff, beq_iff_eq]
  · rw [Bool.not_eq_true', ← Bool.not_eq_true, Bool.and_eq_true, readsPsu_iff, beq_iff_eq, not_and]

theorem returnHolds_iff (e : Env) (r : Rack) : returnHolds e r = true ↔ psuReturn e r = true ∧
    ∀ j : Fin 12, (e.cfg.locked = false ∨ (r.bu[j]).present = true) →
      (r.bu[j]).state ≠ .discharging := by
  unfold returnHolds
  rw [Bool.and_eq_true, all_finRange_iff]
  refine and_congr_right fun _ => forall_congr' fun j => ?_
  rw [Bool.not_eq_true', ← Bool.not_eq_true, Bool.and_eq_true, readsBu_iff, beq_iff_eq, not_and]

/-! ### What the Controller does by grid state (R109, R112, R113, R115, R117) -/

theorem evaluateGrid_normal (h : r.grid.state = .normal) :
    evaluateGrid e r = if lossHolds e r then beginEvent e r else r := by
  unfold evaluateGrid
  rw [h]

theorem evaluateGrid_rideThrough (h : r.grid.state = .rideThrough) :
    evaluateGrid e r = if returnHolds e r then enterQualify e r else r := by
  unfold evaluateGrid
  rw [h]

theorem evaluateGrid_qualify (h : r.grid.state = .qualify) : evaluateGrid e r =
    if lossHolds e r then (if r.grid.inEvent then bounce e r else beginEvent e r) else r := by
  unfold evaluateGrid
  rw [h]

theorem evaluateGrid_dark (h : r.grid.state = .dark) :
    evaluateGrid e r = if psuReturn e r then enterQualify e r else r := by
  unfold evaluateGrid
  rw [h]

theorem evaluateGrid_stays (h : r.grid.state = .startup ∨ r.grid.state = .drain) :
    evaluateGrid e r = r := by
  unfold evaluateGrid
  rcases h with h | h <;> rw [h]

theorem leaveStartup_stays (h : r.grid.state ≠ .startup) : leaveStartup e r = r := if_neg h

theorem leaveStartup_startup (h : r.grid.state = .startup) :
    leaveStartup e r = if lossHolds e r then beginEvent e r else enterQualify e r := if_pos h

/-! ### The poll cycle's end (R30, R47, R127) -/

theorem outputSum_eq (r : Rack) : outputSum r = ((List.finRange 18).map fun i =>
    if (r.psu[i]).present = true ∧ (r.psu[i]).state = .online then (r.psu[i]).output else 0).sum := by
  refine congrArg List.sum (List.map_congr_left fun i _ => if_congr ?_ rfl rfl)
  unfold onlinePresent
  rw [Bool.and_eq_true, beq_iff_eq]

theorem usable_iff (x : BuRec) : x.usable = true ↔ x.present = true ∧ x.state.code ≤ 4 := by
  have states : ∀ s : BuState, s.usable = true ↔ s.code ≤ 4 := by
    intro s
    cases s <;> decide
  unfold BuRec.usable
  rw [Bool.and_eq_true, states]

theorem dischargeSum_eq (r : Rack) : dischargeSum r = ((List.finRange 12).map fun j =>
    if (r.bu[j]).present = true ∧ (r.bu[j]).state.code ≤ 4 then (r.bu[j]).discharge else 0).sum :=
  congrArg List.sum (List.map_congr_left fun _ _ => if_congr (usable_iff _) rfl rfl)

theorem takeSums_eq (r : Rack) : takeSums r = { r with hold := if r.hold.removal = true then r.hold
    else { r.hold with mOut := outputSum r, mDis := dischargeSum r } } := by
  unfold takeSums
  split <;> rfl

theorem takeUp_eq (e : Env) (r : Rack) : takeUp e r = if r.acct.takenUp = true then r
    else computeAccount e { r with acct.takenUp := true } := rfl

theorem endCycle_eq (e : Env) (r : Rack) : endCycle e r =
    { leaveStartup e (takeUp e (takeSums { r with bus := r.bus.endCycle e.now })) with
      todo.hold := true } := rfl

theorem duePolls_isEmpty_iff (e : Env) (r : Rack) : (duePolls e r).isEmpty = true ↔
    ∀ c : PollCycle, r.bus.cycle = some c → ∀ p ∈ c.due, polled e r p = false := by
  unfold duePolls
  cases r.bus.cycle with
  | none => simp
  | some c => simp [List.filter_eq_nil_iff]

theorem cycleOver_iff (e : Env) (r : Rack) : cycleOver e r = true ↔
    (∃ c : PollCycle, r.bus.cycle = some c ∧ ∀ p ∈ c.due, polled e r p = false) ∧
    ∀ x : Transaction, r.bus.inFlight = some x → x.cmd ≠ none := by
  unfold cycleOver
  rw [Bool.and_eq_true, Bool.and_eq_true, duePolls_isEmpty_iff]
  refine and_congr ?_ ?_
  · cases r.bus.cycle with
    | none => simp
    | some c => simp
  · cases r.bus.inFlight with
    | none => simp
    | some x => simp [Option.isSome_iff_ne_none]

theorem followCycle_stays (h : cycleOver e r = false) : followCycle e r = r :=
  if_neg (by rw [h]; decide)

theorem followCycle_ends (h : cycleOver e r = true) :
    followCycle e r = settle e 64 (endCycle e r) := if_pos h

/-! ### The BUs offered in turn (R113, R116) -/

/-- What an offer for a BU reads and changes: its record, its entry and the polled set. -/
def buView (j : Fin 12) (r : Rack) : BuRec × Option CmdEntry × List Pos :=
  (r.bu[j], r.bus.entry (.bu j), r.bus.polledSet)

/-- A BU's commanded isolation is set, and a command for it offered (R43). -/
def commandBu (e : Env) (v : Bool) (c : ShelfCmd) (j : Fin 12) (r : Rack) : Rack :=
  offer e (.bu j) c { r with bu := change r.bu j fun b => { b with commandedIsolate := v } }

theorem offerIsolate_eq (e : Env) (j : Fin 12) (r : Rack) :
    offerIsolate e j r = commandBu e true .isolate j r := rfl

theorem offerRestore_eq (e : Env) (j : Fin 12) (r : Rack) :
    offerRestore e j r = commandBu e false .restore j r := rfl

theorem takesOffers_congr (hp : (b.bu[j]).present = (a.bu[j]).present)
    (hs : (b.bu[j]).state = (a.bu[j]).state) (hq : b.bus.polledSet = a.bus.polledSet) :
    takesOffers e b (.bu j) = takesOffers e a (.bu j) := by
  unfold takesOffers addressed polled isLost readsBu
  dsimp only
  rw [hp, hs, hq]

theorem commandBu_self (e : Env) (v : Bool) (x : ShelfCmd) (j : Fin 12) (r : Rack) :
    (commandBu e v x j r).bu[j] = { r.bu[j] with commandedIsolate := v } ∧
    (commandBu e v x j r).bus = r.bus.offer e.now (takesOffers e r (.bu j)) (.bu j) x := by
  have record := change_self r.bu j fun b => { b with commandedIsolate := v }
  refine ⟨record, ?_⟩
  rw [← takesOffers_congr (a := r) (b := { r with
    bu := change r.bu j fun b => { b with commandedIsolate := v } })
    (congrArg BuRec.present record :) (congrArg BuRec.state record :) rfl]
  rfl

theorem commandBu_other {v : Bool} {x : ShelfCmd} (hij : i ≠ j) (r : Rack) :
    buView j (commandBu e v x i r) = buView j r := by
  obtain ⟨-, bus⟩ := commandBu_self e v x i r
  have record : (commandBu e v x i r).bu[j] = r.bu[j] := by
    refine (change_get r.bu i j _).trans (if_neg hij)
  have entry : (commandBu e v x i r).bus.entry (.bu j) = r.bus.entry (.bu j) := by
    rw [bus]
    exact entry_offer_other _ _ _ _ (by simpa using hij)
  have polled : (commandBu e v x i r).bus.polledSet = r.bus.polledSet := by
    rw [bus, busOffer_frame]
  unfold buView
  rw [record, entry, polled]

/-- A class-1 command that is taken stands for its position (R34). -/
theorem entry_offer_urgent {s : Bus} {q : Pos} {x : ShelfCmd} (hx : x.cls = 1) (now : Time) :
    ((s.offer now true q x).entry q).map CmdEntry.cmd = some x := by
  cases h : s.entry q with
  | none => rw [busOffer_fresh h, entry_accept_self]; rfl
  | some y =>
    by_cases hy : y.cmd = x
    · rw [busOffer_equal h hy, h, ← hy]; rfl
    · rw [busOffer_replaces h (.inr hx) hy, entry_accept_self]; rfl

/-- A command that is taken where none waits stands for its position (R34). -/
theorem entry_offer_fresh {s : Bus} {q : Pos} (h : s.entry q = none) (x : ShelfCmd) (now : Time) :
    ((s.offer now true q x).entry q).map CmdEntry.cmd = some x := by
  rw [busOffer_fresh h, entry_accept_self]
  rfl

/-- The BUs of a kind are each commanded in turn: what comes of one of them. -/
theorem commandEach_taken {pick : BuRec → Bool} {v : Bool} {x : ShelfCmd} (h : pick r.bu[j] = true) :
    ∃ u, buView j u = buView j r ∧ buView j (forEach (fun j r =>
      if pick r.bu[j] then commandBu e v x j r else r) (List.finRange 12) r) =
        buView j (commandBu e v x j u) := by
  obtain ⟨u, same, turn⟩ := forEach_each (f := fun j r =>
    if pick r.bu[j] then commandBu e v x j r else r) buView
    (fun i j r hij => by split; exacts [commandBu_other hij r, rfl]) j r
  have record : u.bu[j] = r.bu[j] := congrArg Prod.fst same
  rw [if_pos (by rw [record]; exact h)] at turn
  exact ⟨u, same, turn⟩

theorem commandEach_left {pick : BuRec → Bool} {v : Bool} {x : ShelfCmd} (h : pick r.bu[j] = false) :
    (forEach (fun j r => if pick r.bu[j] then commandBu e v x j r else r)
      (List.finRange 12) r).bu[j] = r.bu[j] ∧
    (forEach (fun j r => if pick r.bu[j] then commandBu e v x j r else r)
      (List.finRange 12) r).bus.entry (.bu j) = r.bus.entry (.bu j) := by
  obtain ⟨u, same, turn⟩ := forEach_each (f := fun j r =>
    if pick r.bu[j] then commandBu e v x j r else r) buView
    (fun i j r hij => by split; exacts [commandBu_other hij r, rfl]) j r
  have record : u.bu[j] = r.bu[j] := congrArg Prod.fst same
  rw [if_neg (by rw [record, h]; decide)] at turn
  have left := turn.trans same
  exact ⟨congrArg Prod.fst left, congrArg (fun w => w.2.1) left⟩

/-- A BU commanded in its turn has its commanded isolation set, and the command as it would be taken of the
rack before. -/
theorem commandEach_self {pick : BuRec → Bool} {v : Bool} {x : ShelfCmd} (h : pick r.bu[j] = true) :
    (forEach (fun j r => if pick r.bu[j] then commandBu e v x j r else r)
      (List.finRange 12) r).bu[j] = { r.bu[j] with commandedIsolate := v } ∧
    ∃ s : Bus, s.entry (.bu j) = r.bus.entry (.bu j) ∧
      (forEach (fun j r => if pick r.bu[j] then commandBu e v x j r else r)
        (List.finRange 12) r).bus.entry (.bu j) =
          (s.offer e.now (takesOffers e r (.bu j)) (.bu j) x).entry (.bu j) := by
  obtain ⟨u, same, turn⟩ := commandEach_taken (e := e) (v := v) (x := x) h
  obtain ⟨self, bus⟩ := commandBu_self e v x j u
  have record : u.bu[j] = r.bu[j] := congrArg Prod.fst same
  have entry : u.bus.entry (.bu j) = r.bus.entry (.bu j) := congrArg (fun w => w.2.1) same
  have polled : u.bus.polledSet = r.bus.polledSet := congrArg (fun w => w.2.2) same
  have takes : takesOffers e u (.bu j) = takesOffers e r (.bu j) :=
    takesOffers_congr (by rw [record]) (by rw [record]) polled
  refine ⟨?_, u.bus, entry, ?_⟩
  · rw [← record, ← self]
    exact congrArg Prod.fst turn
  · rw [← takes, ← bus]
    exact congrArg (fun w => w.2.1) turn

/-- An operation on the BUs in turn that commands some of them leaves the rest of the rack. -/
theorem commandEach_figure {β : Type} (g : Rack → β) (pick : BuRec → Bool) (v : Bool) (x : ShelfCmd)
    (h : ∀ j r, g (commandBu e v x j r) = g r) (r : Rack) :
    g (forEach (fun j r => if pick r.bu[j] then commandBu e v x j r else r) (List.finRange 12) r) =
      g r :=
  forEach_figure g (fun j r => by split; exacts [h j r, rfl]) _ r

/-! ### The entries to QUALIFY and to DARK (R113, R116) -/

/-- The BUs that stand commanded to isolate, leak-isolated ones apart (R113). -/
def BuRec.returns (b : BuRec) : Bool := b.present && b.commandedIsolate && !b.leakIsolated

theorem returns_iff (x : BuRec) : x.returns = true ↔
    x.present = true ∧ x.commandedIsolate = true ∧ x.leakIsolated = false := by
  unfold BuRec.returns
  rw [Bool.and_eq_true, Bool.and_eq_true, Bool.not_eq_true', and_assoc]

/-- The Controller's fields at the entry to QUALIFY (R113). -/
def Grid.qualifies (g : Grid) (e : Env) : Grid :=
  { g with state := .qualify, qualify := some ⟨e.now, 1000 * e.param 8⟩ }

theorem enterQualify_eq (e : Env) (r : Rack) : enterQualify e r =
    forEach (fun j r => if BuRec.returns r.bu[j] then commandBu e false .restore j r else r)
      (List.finRange 12) (moveGrid e (r.grid.qualifies e) r.grid.level r) := rfl

theorem enterDark_eq (e : Env) (r : Rack) : enterDark e r =
    forEach (fun j r => if BuRec.usable r.bu[j] then commandBu e true .isolate j r else r)
      (List.finRange 12) (moveGrid e { r.grid with state := .dark } r.grid.level r) := rfl

theorem enterQualify_figure {β : Type} (g : Rack → β)
    (h : ∀ j r, g (commandBu e false .restore j r) = g r) (r : Rack) :
    g (enterQualify e r) = g (moveGrid e (r.grid.qualifies e) r.grid.level r) := by
  rw [enterQualify_eq]
  exact commandEach_figure g _ _ _ h _

theorem enterDark_figure {β : Type} (g : Rack → β)
    (h : ∀ j r, g (commandBu e true .isolate j r) = g r) (r : Rack) :
    g (enterDark e r) = g (moveGrid e { r.grid with state := .dark } r.grid.level r) := by
  rw [enterDark_eq]
  exact commandEach_figure g _ _ _ h _

theorem enterDark_grid (e : Env) (r : Rack) : (enterDark e r).grid = { r.grid with state := .dark } :=
  enterDark_figure Rack.grid (fun _ _ => rfl) r

/-- What the entry to QUALIFY makes of one BU (R113). -/
theorem enterQualify_back (h : (r.bu[j]).present = true ∧ (r.bu[j]).commandedIsolate = true ∧
    (r.bu[j]).leakIsolated = false) :
    (enterQualify e r).bu[j] = { r.bu[j] with commandedIsolate := false } ∧
    (takesOffers e r (.bu j) = true → r.bus.entry (.bu j) = none →
      ((enterQualify e r).bus.entry (.bu j)).map CmdEntry.cmd = some .restore) := by
  obtain ⟨record, s, entry, turn⟩ := commandEach_self (e := e) (pick := BuRec.returns) (v := false)
    (x := .restore) (r := moveGrid e (r.grid.qualifies e) r.grid.level r) ((returns_iff _).mpr h)
  refine ⟨record, fun ht hn => ?_⟩
  have takes : takesOffers e (moveGrid e (r.grid.qualifies e) r.grid.level r) (.bu j) = true := ht
  rw [enterQualify_eq, turn, takes]
  exact entry_offer_fresh (entry.trans hn) .restore e.now

theorem enterQualify_left (h : ¬((r.bu[j]).present = true ∧ (r.bu[j]).commandedIsolate = true ∧
    (r.bu[j]).leakIsolated = false)) :
    (enterQualify e r).bu[j] = r.bu[j] ∧
      (enterQualify e r).bus.entry (.bu j) = r.bus.entry (.bu j) := by
  have left := commandEach_left (e := e) (pick := BuRec.returns) (v := false) (x := .restore)
    (r := moveGrid e (r.grid.qualifies e) r.grid.level r) (j := j)
    (Bool.eq_false_iff.mpr (mt (returns_iff _).mp h))
  rw [enterQualify_eq]
  exact left

/-- What the entry to DARK makes of one BU (R116). -/
theorem enterDark_usable (h : (r.bu[j]).present = true ∧ (r.bu[j]).state.code ≤ 4) :
    (enterDark e r).bu[j] = { r.bu[j] with commandedIsolate := true } ∧
    (takesOffers e r (.bu j) = true →
      ((enterDark e r).bus.entry (.bu j)).map CmdEntry.cmd = some .isolate) := by
  obtain ⟨record, s, -, turn⟩ := commandEach_self (e := e) (pick := BuRec.usable) (v := true)
    (x := .isolate) (r := moveGrid e { r.grid with state := .dark } r.grid.level r)
    ((usable_iff _).mpr h)
  refine ⟨record, fun ht => ?_⟩
  have takes : takesOffers e (moveGrid e { r.grid with state := .dark } r.grid.level r) (.bu j) = true :=
    ht
  rw [enterDark_eq, turn, takes]
  exact entry_offer_urgent rfl e.now

theorem enterDark_left (h : ¬((r.bu[j]).present = true ∧ (r.bu[j]).state.code ≤ 4)) :
    (enterDark e r).bu[j] = r.bu[j] ∧ (enterDark e r).bus.entry (.bu j) = r.bus.entry (.bu j) := by
  have left := commandEach_left (e := e) (pick := BuRec.usable) (v := true) (x := .isolate)
    (r := moveGrid e { r.grid with state := .dark } r.grid.level r) (j := j)
    (Bool.eq_false_iff.mpr (mt (usable_iff _).mp h))
  rw [enterDark_eq]
  exact left

/-! ### The entry to DRAIN (R114, R115) -/

/-- The rack as DRAIN is entered, before its slots are handed the drain (R114). -/
def drainStarts (e : Env) (r : Rack) : Rack :=
  logFault e .drainStarted r.hold.usableCount
    (moveGrid e { r.grid with state := .drain, drainFlag := true } r.grid.level r)

/-- The rack as its powered slots have been handed the drain (R114). -/
def drainsRack (e : Env) (r : Rack) : Rack :=
  drainAll e .rackDrain (fun _ x => x.state.powered) (drainStarts e r)

theorem enterDrain_eq (e : Env) (r : Rack) : enterDrain e r =
    if darkDue (drainsRack e r) then enterDark e (drainsRack e r) else drainsRack e r := rfl

theorem drainsRack_grid (e : Env) (r : Rack) : (drainsRack e r).grid = { r.grid with
    state := .drain, drainFlag := true, powered := (drainsRack e r).grid.powered } := by
  have start : (drainStarts e r).grid = { r.grid with state := .drain, drainFlag := true } :=
    logFault_grid ..
  have drained := drainAll_grid e (q := .rackDrain) rfl (fun _ x => x.state.powered) (drainStarts e r)
  rw [start] at drained
  unfold drainsRack
  exact drained

theorem enterDrain_dark (h : (drainsRack e r).grid.powered = 0) :
    enterDrain e r = enterDark e (drainsRack e r) := by
  rw [enterDrain_eq, if_pos ((darkDue_iff _).mpr ⟨by rw [drainsRack_grid], h⟩)]

theorem enterDrain_stays (h : (drainsRack e r).grid.powered ≠ 0) : enterDrain e r = drainsRack e r := by
  rw [enterDrain_eq, if_neg fun d => h ((darkDue_iff _).mp d).2]

/-- The Controller after an entry to DRAIN: in DARK where no slot is powered any more (R115). -/
theorem enterDrain_grid (e : Env) (r : Rack) : (enterDrain e r).grid = { r.grid with
    state := if (drainsRack e r).grid.powered = 0 then .dark else .drain
    drainFlag := true
    powered := (drainsRack e r).grid.powered } := by
  by_cases h : (drainsRack e r).grid.powered = 0
  · rw [enterDrain_dark h, enterDark_grid, drainsRack_grid, if_pos h]
  · rw [enterDrain_stays h, if_neg h]
    exact drainsRack_grid e r

theorem enterDrain_figure {β : Type} (g : Rack → β) (h : ∀ r, g (enterDark e r) = g r) (r : Rack) :
    g (enterDrain e r) = g (drainsRack e r) := by
  rw [enterDrain_eq]
  split
  · exact h _
  · rfl

theorem enterDark_attends (e : Env) (r : Rack) : Attends r (enterDark e r) :=
  ⟨enterDark_figure Rack.active (fun _ _ => rfl) r, fun _ =>
    enterDark_figure (fun x => x.todo.hold) (fun _ _ => rfl) r⟩

/-- A change of grid state asks for an evaluation (R130). -/
theorem moveGrid_attends (e : Env) (g : Grid) (level : Nat) (r : Rack) :
    Attends r (moveGrid e g level r) := ⟨rfl, fun _ => rfl⟩

theorem drainStarts_owes (e : Env) (r : Rack) : (drainStarts e r).todo.hold = true :=
  (logFault_attends e .drainStarted r.hold.usableCount (moveGrid e
    { r.grid with state := .drain, drainFlag := true } r.grid.level r)).2 rfl

theorem drainsRack_owes (e : Env) (r : Rack) : (drainsRack e r).todo.hold = true := by
  unfold drainsRack
  exact (drainAll_attends ..).2 (drainStarts_owes e r)

theorem enterDrain_owes (e : Env) (r : Rack) : (enterDrain e r).todo.hold = true := by
  rw [enterDrain_eq]
  split
  · exact (enterDark_attends ..).2 (drainsRack_owes e r)
  · exact drainsRack_owes e r

theorem enterDrain_faults (e : Env) (r : Rack) :
    (enterDrain e r).faults = r.faults.log e.now .drainStarted r.hold.usableCount := by
  rw [enterDrain_figure Rack.faults (fun r => enterDark_figure Rack.faults (fun _ _ => rfl) r)]
  exact (drainAll_sameModules ..).faults.trans (logFault_faults ..)

theorem enterDrain_slot (e : Env) (r : Rack) (n : Fin 48) : (enterDrain e r).slots[n] =
    if (r.slots[n]).state.powered = true then (drain e .rackDrain n r).slots[n] else r.slots[n] := by
  have start : (drainStarts e r).slots[n] = r.slots[n] :=
    congrArg (fun v : Vector SlotRec 48 => v[n]) (logFault_slots ..)
  rw [enterDrain_figure (fun x => x.slots[n])
    (fun r => enterDark_figure (fun x => x.slots[n]) (fun _ _ => rfl) r), drainsRack, drainAll_slot,
    start, drain_congr .rackDrain start]

/-! ### What the Controller does with an evaluation (R111, R131 to R134) -/

theorem energyShort_logs (h : r.hold.t3 < e.param 5) (hs : r.hold.shortLogged = false) :
    energyShort e r = logFault e .energyShort r.hold.usableCount { r with hold.shortLogged := true } :=
  if_pos ⟨h, by rw [hs]; decide⟩

theorem energyShort_stays (h : e.param 5 ≤ r.hold.t3 ∨ r.hold.shortLogged = true) :
    energyShort e r = r :=
  if_neg fun ⟨ht, hs⟩ => h.elim (fun k => absurd ht (not_lt.mpr k)) hs

theorem raiseLevel_rises (h : r.grid.level < r.hold.required) : raiseLevel e r =
    raise e .grid 2 r.hold.required (r.hold.t + 65536 * r.hold.timeAt r.hold.required)
      { r with grid.level := r.hold.required } := if_pos h

theorem raiseLevel_stays (h : r.hold.required ≤ r.grid.level) : raiseLevel e r = r :=
  if_neg (not_lt.mpr h)

theorem energyShort_frame (e : Env) (r : Rack) : (energyShort e r).grid = r.grid ∧
    (energyShort e r).slots = r.slots ∧ (energyShort e r).hold.required = r.hold.required := by
  unfold energyShort
  split
  · exact ⟨logFault_grid .., logFault_slots .., by rw [logFault_hold]⟩
  · exact ⟨rfl, rfl, rfl⟩

/-- The rack as the Controller has the level of an evaluation, before it sheds or drains (R132, R133). -/
def levelTaken (e : Env) (r : Rack) : Rack := raiseLevel e (energyShort e r)

theorem levelTaken_slots (e : Env) (r : Rack) : (levelTaken e r).slots = r.slots := by
  obtain ⟨-, slots, -⟩ := energyShort_frame e r
  rw [← slots]
  unfold levelTaken raiseLevel
  split <;> rfl

/-- The shed level only rises (R132). -/
theorem levelTaken_grid (e : Env) (r : Rack) : (levelTaken e r).grid =
    { r.grid with level := max r.grid.level r.hold.required } := by
  obtain ⟨grid, -, required⟩ := energyShort_frame e r
  unfold levelTaken
  by_cases h : r.grid.level < r.hold.required
  · rw [raiseLevel_rises (by rw [grid, required]; exact h), raise_grid, grid, required,
      max_eq_right h.le]
  · rw [raiseLevel_stays (by rw [grid, required]; exact not_lt.mp h), grid,
      max_eq_left (not_lt.mp h)]

theorem actOnHold_stays (h : r.grid.state ≠ .rideThrough ∨ e.cfg.locked = false) :
    actOnHold e r = r := by
  refine if_neg ?_
  rintro ⟨hs, hl⟩
  rcases h with h | h
  · exact h hs
  · rw [Env.commissioned, h] at hl
    cases hl

theorem actOnHold_eq (hs : r.grid.state = .rideThrough) (hl : e.cfg.locked = true) : actOnHold e r =
    if r.hold.drainHolds then enterDrain e (levelTaken e r)
    else drainAll e .shed (shedsAt e (max r.grid.level r.hold.required)) (levelTaken e r) := by
  have drains : (levelTaken e r).hold.drainHolds = r.hold.drainHolds := by
    unfold levelTaken raiseLevel energyShort
    split <;> split <;> simp only [raise_hold, logFault_hold]
  have level : (levelTaken e r).grid.level = max r.grid.level r.hold.required := by
    rw [levelTaken_grid]
  refine (if_pos ⟨hs, hl⟩).trans ?_
  rw [← drains, ← level]
  rfl

theorem shedsAt_iff (e : Env) (level : Nat) (n : Fin 48) (x : SlotRec) : shedsAt e level n x = true ↔
    (x.state = .starting ∨ x.state = .on) ∧ e.rank n ≤ level ∧ e.rank n ≠ 4 := by
  unfold shedsAt
  rw [Bool.and_eq_true, Bool.and_eq_true, Bool.or_eq_true, beq_iff_eq, beq_iff_eq, decide_eq_true_iff,
    bne_iff_ne, and_assoc]

/-- The slots that an evaluation sheds (R111). -/
theorem actOnHold_slot (hs : r.grid.state = .rideThrough) (hl : e.cfg.locked = true)
    (hd : r.hold.drainHolds = false) (n : Fin 48) : (actOnHold e r).slots[n] =
      if ((r.slots[n]).state = .starting ∨ (r.slots[n]).state = .on) ∧
          e.rank n ≤ max r.grid.level r.hold.required ∧ e.rank n ≠ 4 then
        (drain e .shed n r).slots[n]
      else r.slots[n] := by
  have same : (levelTaken e r).slots[n] = r.slots[n] := by rw [levelTaken_slots]
  rw [actOnHold_eq hs hl, hd, if_neg (by decide), drainAll_slot, same, drain_congr .shed same]
  exact if_congr (shedsAt_iff ..) rfl rfl

/-- The Controller's fields after an evaluation in RIDE_THROUGH (R111, R132, R134). -/
theorem actOnHold_grid (hs : r.grid.state = .rideThrough) (hl : e.cfg.locked = true) :
    ∃ (s : GridState) (f : Bool) (n : Nat), s ∈ [GridState.rideThrough, .drain, .dark] ∧
      (actOnHold e r).grid = { r.grid with
        state := s, level := max r.grid.level r.hold.required, drainFlag := f, powered := n } := by
  rw [actOnHold_eq hs hl]
  by_cases hd : r.hold.drainHolds = true
  · rw [if_pos hd]
    refine ⟨_, true, _, ?_, (enterDrain_grid e _).trans (by rw [levelTaken_grid])⟩
    split <;> decide
  · rw [if_neg hd]
    have drained := drainAll_grid e (q := .shed) rfl
      (shedsAt e (max r.grid.level r.hold.required)) (levelTaken e r)
    have same : { r.grid with state := .rideThrough } = r.grid := by rw [← hs]
    rw [levelTaken_grid, ← same] at drained
    exact ⟨.rideThrough, r.grid.drainFlag, _, by decide, drained⟩

theorem evaluateHold_eq (e : Env) (r : Rack) :
    evaluateHold e r = actOnHold e (evaluateFigures e { r with todo.hold := false }) := rfl

/-- What an evaluation makes of the Controller in RIDE_THROUGH (R130 to R134). -/
theorem evaluateHold_grid (hs : r.grid.state = .rideThrough) :
    ∃ (s : GridState) (l : Nat) (f : Bool) (n : Nat), s ∈ [GridState.rideThrough, .drain, .dark] ∧
      r.grid.level ≤ l ∧ (evaluateHold e r).grid = { r.grid with
        state := s, level := l, drainFlag := f, powered := n } := by
  rw [evaluateHold_eq]
  by_cases hl : e.cfg.locked = true
  · obtain ⟨s, f, n, hm, hg⟩ := actOnHold_grid (e := e)
      (r := evaluateFigures e { r with todo.hold := false }) hs hl
    exact ⟨s, _, f, n, hm, le_max_left _ _, hg⟩
  · rw [actOnHold_stays (.inr (by simpa using hl))]
    exact ⟨.rideThrough, r.grid.level, r.grid.drainFlag, r.grid.powered, by decide, le_refl _,
      by rw [← hs]; rfl⟩

theorem evaluateHold_level (e : Env) (r : Rack) : (evaluateHold e r).grid.level =
    if r.grid.state = .rideThrough ∧ e.cfg.locked = true then
      max r.grid.level (holdFigures e r).required else r.grid.level := by
  rw [evaluateHold_eq]
  by_cases h : r.grid.state = .rideThrough ∧ e.cfg.locked = true
  · obtain ⟨s, f, n, -, hg⟩ := actOnHold_grid (e := e)
      (r := evaluateFigures e { r with todo.hold := false }) h.1 h.2
    rw [hg, if_pos h]
    rfl
  · rw [if_neg h, actOnHold_stays]
    · rfl
    · rw [not_and, Bool.not_eq_true] at h
      exact (em (r.grid.state = .rideThrough)).symm.imp id h

/-! ### A bounce (R113) -/

theorem bounce_grid (e : Env) (r : Rack) : (bounce e r).grid.state ∈ [GridState.rideThrough, .drain, .dark] ∧
    (bounce e r).grid.bounces = min 255 (r.grid.bounces + 1) ∧
    (bounce e r).grid.events = r.grid.events ∧ r.grid.level ≤ (bounce e r).grid.level ∧
    (bounce e r).grid.qualify = none := by
  obtain ⟨s, l, f, n, hm, hl, hg⟩ := evaluateHold_grid (e := e) (r := moveGrid e { r.grid with
    state := .rideThrough, qualify := none, bounces := min Config.count8Max (r.grid.bounces + 1) }
    r.grid.level r) rfl
  unfold bounce
  rw [hg]
  exact ⟨hm, rfl, rfl, hl, rfl⟩

/-! ### The beginning of an event (R110) -/

/-- What an evaluation leaves of the Allocator, the shortfall and the active check. -/
structure EventKept (a b : Rack) : Prop where
  setpoint : ∀ j : Fin 12, (b.bu[j]).setpoint = (a.bu[j]).setpoint
  recharge : SameRecharge a b
  shortfall : b.acct.shortfall = a.acct.shortfall
  active : b.active = a.active

theorem EventKept.refl (r : Rack) : EventKept r r := ⟨fun _ => rfl, .refl r, rfl, rfl⟩

theorem EventKept.trans (h : EventKept a b) (k : EventKept b c) : EventKept a c :=
  ⟨fun j => (k.setpoint j).trans (h.setpoint j), h.recharge.trans k.recharge,
    k.shortfall.trans h.shortfall, k.active.trans h.active⟩

theorem EventKept.ite {q : Prop} [Decidable q] (h : EventKept a b) (k : EventKept a c) :
    EventKept a (if q then b else c) := by
  split <;> assumption

theorem EventKept.of_eq (hu : b.bu = a.bu) (hr : b.rech = a.rech) (hx : b.acct = a.acct)
    (ha : b.active = a.active) : EventKept a b :=
  ⟨fun _ => by rw [hu], ⟨hr, by rw [hx]⟩, by rw [hx], ha⟩

theorem logFault_eventKept (f : FaultKind) (k : Nat) (r : Rack) : EventKept r (logFault e f k r) :=
  .of_eq (logFault_bu ..) (logFault_rech ..) (logFault_acct ..) (logFault_active ..)

theorem drainAll_eventKept (q : DrainRequest) (pick : Fin 48 → SlotRec → Bool) (r : Rack) :
    EventKept r (drainAll e q pick r) where
  setpoint _ := by rw [(drainAll_sameModules ..).bu]
  recharge := drainAll_sameRecharge ..
  shortfall := (drainAll_sameModules ..).shortfall
  active := (drainAll_attends ..).1

theorem enterDark_eventKept (r : Rack) : EventKept r (enterDark e r) where
  setpoint j := enterDark_figure (fun x => (x.bu[j]).setpoint)
    (fun i r => change_figure r.bu i j _ BuRec.setpoint fun _ => rfl) r
  recharge := ⟨enterDark_figure Rack.rech (fun _ _ => rfl) r,
    enterDark_figure (fun x => x.acct.rc) (fun _ _ => rfl) r⟩
  shortfall := enterDark_figure (fun x => x.acct.shortfall) (fun _ _ => rfl) r
  active := (enterDark_attends e r).1

theorem enterDrain_eventKept (r : Rack) : EventKept r (enterDrain e r) := by
  have moved : EventKept r (moveGrid e { r.grid with state := .drain, drainFlag := true }
    r.grid.level r) := .of_eq rfl rfl rfl rfl
  have drained : EventKept r (drainsRack e r) := by
    unfold drainsRack drainStarts
    exact (moved.trans (logFault_eventKept ..)).trans (drainAll_eventKept ..)
  rw [enterDrain_eq]
  exact .ite (drained.trans (enterDark_eventKept _)) drained

theorem levelTaken_eventKept (r : Rack) : EventKept r (levelTaken e r) := by
  have marked : EventKept r { r with hold.shortLogged := true } := .of_eq rfl rfl rfl rfl
  have short : EventKept r (energyShort e r) := .ite (marked.trans (logFault_eventKept ..)) (.refl r)
  exact short.trans (.ite (.of_eq rfl rfl rfl rfl) (.refl _))

theorem actOnHold_eventKept (r : Rack) : EventKept r (actOnHold e r) :=
  .ite (.ite ((levelTaken_eventKept r).trans (enterDrain_eventKept _))
    ((levelTaken_eventKept r).trans (drainAll_eventKept ..))) (.refl r)

theorem evaluateHold_eventKept (r : Rack) : EventKept r (evaluateHold e r) := by
  have figured : EventKept r (evaluateFigures e { r with todo.hold := false }) := .of_eq rfl rfl rfl rfl
  rw [evaluateHold_eq]
  exact figured.trans (actOnHold_eventKept _)

/-- Away from NORMAL no shortfall holds, so that a flag set is cleared (R56, R59). -/
theorem evaluateShortfall_away (h : r.grid.state ≠ .normal) :
    (evaluateShortfall e r).acct.shortfall = false ∧ (evaluateShortfall e r).grid = r.grid := by
  have none : shortfallHolds e r = false := by
    unfold shortfallHolds
    rw [beq_eq_false_iff_ne.mpr h, Bool.and_false, Bool.false_and]
  unfold evaluateShortfall
  rw [none]
  by_cases hs : r.acct.shortfall = true
  · rw [if_pos hs]
    exact ⟨rfl, rfl⟩
  · rw [if_neg hs]
    exact ⟨by simpa using hs, rfl⟩

/-- Every present BU is offered a recharge setpoint of 0 (R144). -/
def offerStops (e : Env) (r : Rack) : Rack :=
  forEach (fun j r => if (r.bu[j]).present then offer e (.bu j) (.setRecharge 0) r else r)
    (List.finRange 12) r

theorem offerStops_figure {β : Type} (g : Rack → β) (h : ∀ q x r, g (offer e q x r) = g r) (r : Rack) :
    g (offerStops e r) = g r :=
  forEach_figure g (fun j r => by split; exacts [h _ _ r, rfl]) _ r

theorem stopRecharge_eq (e : Env) (r : Rack) : stopRecharge e r = reportRc 0 (offerStops e
    { r with rech := initialRecharge, bu := r.bu.map fun b => { b with setpoint := 0 } }) := rfl

theorem reportRc_reports (v : Nat) (r : Rack) : (reportRc v r).bu = r.bu ∧ (reportRc v r).acct.rc = v ∧
    (reportRc v r).rech = r.rech ∧ (reportRc v r).acct.shortfall = r.acct.shortfall ∧
    (reportRc v r).grid = r.grid := by
  unfold reportRc
  split
  · next h => exact ⟨rfl, h.symm, rfl, rfl, rfl⟩
  · exact ⟨rfl, rfl, rfl, rfl, rfl⟩

/-- The Allocator stopped (R110, R144). -/
theorem stopRecharge_stops (e : Env) (r : Rack) :
    (∀ j : Fin 12, ((stopRecharge e r).bu[j]).setpoint = 0) ∧ (stopRecharge e r).acct.rc = 0 ∧
    (stopRecharge e r).rech = initialRecharge ∧
    (stopRecharge e r).acct.shortfall = r.acct.shortfall ∧ (stopRecharge e r).grid = r.grid := by
  obtain ⟨bu, rc, rech, shortfall, grid⟩ := reportRc_reports 0 (offerStops e
    { r with rech := initialRecharge, bu := r.bu.map fun b => { b with setpoint := 0 } })
  rw [stopRecharge_eq, bu, rc, rech, shortfall, grid, offerStops_figure Rack.bu fun _ _ _ => rfl,
    offerStops_figure Rack.rech fun _ _ _ => rfl, offerStops_figure (fun x => x.acct.shortfall)
    fun _ _ _ => rfl, offerStops_figure Rack.grid fun _ _ _ => rfl]
  refine ⟨fun j => ?_, rfl, rfl, rfl, rfl⟩
  rw [Fin.getElem_fin, Vector.getElem_map]

/-- The active check is gone, and its end leaves the Allocator, the Account and the Controller (R154). -/
theorem abortActive_ends (e : Env) (r : Rack) : (abortActive e r).active = none ∧
    (∀ j : Fin 12, ((abortActive e r).bu[j]).setpoint = (r.bu[j]).setpoint) ∧
    (abortActive e r).acct = r.acct ∧ (abortActive e r).rech = r.rech ∧
    (abortActive e r).grid = r.grid := by
  unfold abortActive
  split
  · next a ha =>
    refine ⟨rfl, fun j => ?_, rfl, rfl, rfl⟩
    have ended := change_figure r.bu a.bu j
      (fun b => { b with phase := .none, sampleDeadline := none }) BuRec.setpoint fun _ => rfl
    have due := change_figure (endActive a.bu r).bu a.bu j (fun b => { b with due := 0, dueMs := 0 })
      BuRec.setpoint fun _ => rfl
    have counted := change_figure (setDue a.bu 0 (endActive a.bu r)).bu a.bu j
      (fun b => { b with aborts := min Config.count8Max (b.aborts + 1) }) BuRec.setpoint fun _ => rfl
    exact counted.trans (due.trans ended)
  · next ha => exact ⟨ha, fun _ => rfl, rfl, rfl, rfl⟩

/-- The rack at the beginning of an event, before the first evaluation (R110). -/
def eventBegins (e : Env) (r : Rack) : Rack :=
  abortActive e (stopRecharge e (evaluateShortfall e
    (moveGrid e (r.grid.begin e.now) 0 { r with hold.shortLogged := false })))

theorem beginEvent_eq (e : Env) (r : Rack) : beginEvent e r = evaluateHold e (eventBegins e r) := rfl

theorem eventBegins_grid (e : Env) (r : Rack) : (eventBegins e r).grid = r.grid.begin e.now := by
  obtain ⟨-, -, -, -, aborted⟩ := abortActive_ends e (stopRecharge e (evaluateShortfall e
    (moveGrid e (r.grid.begin e.now) 0 { r with hold.shortLogged := false })))
  obtain ⟨-, -, -, -, stopped⟩ := stopRecharge_stops e (evaluateShortfall e
    (moveGrid e (r.grid.begin e.now) 0 { r with hold.shortLogged := false }))
  obtain ⟨-, cleared⟩ := evaluateShortfall_away (e := e)
    (r := moveGrid e (r.grid.begin e.now) 0 { r with hold.shortLogged := false })
    (fun h : GridState.rideThrough = .normal => by cases h)
  exact aborted.trans (stopped.trans cleared)

theorem eventBegins_quiet (e : Env) (r : Rack) : (eventBegins e r).active = none ∧
    (∀ j : Fin 12, ((eventBegins e r).bu[j]).setpoint = 0) ∧ (eventBegins e r).acct.rc = 0 ∧
    (eventBegins e r).acct.shortfall = false ∧ (eventBegins e r).rech = initialRecharge := by
  obtain ⟨active, kept, acct, rech, -⟩ := abortActive_ends e (stopRecharge e (evaluateShortfall e
    (moveGrid e (r.grid.begin e.now) 0 { r with hold.shortLogged := false })))
  obtain ⟨setpoint, rc, stopped, flag, -⟩ := stopRecharge_stops e (evaluateShortfall e
    (moveGrid e (r.grid.begin e.now) 0 { r with hold.shortLogged := false }))
  obtain ⟨cleared, -⟩ := evaluateShortfall_away (e := e)
    (r := moveGrid e (r.grid.begin e.now) 0 { r with hold.shortLogged := false })
    (fun h : GridState.rideThrough = .normal => by cases h)
  refine ⟨active, fun j => (kept j).trans (setpoint j), ?_, ?_, rech.trans stopped⟩
  · unfold eventBegins
    rw [acct, rc]
  · unfold eventBegins
    rw [acct, flag, cleared]

theorem beginEvent_grid (e : Env) (r : Rack) :
    (beginEvent e r).grid.state ∈ [GridState.rideThrough, .drain, .dark] ∧
    (beginEvent e r).grid.inEvent = true ∧ (beginEvent e r).grid.eventStart = some e.now ∧
    (beginEvent e r).grid.bounces = 0 ∧ (beginEvent e r).grid.qualify = none ∧
    (beginEvent e r).grid.events = min 65535 (r.grid.events + 1) := by
  have begun := eventBegins_grid e r
  obtain ⟨s, l, f, n, hm, -, hg⟩ := evaluateHold_grid (e := e) (r := eventBegins e r)
    (by rw [begun]; rfl)
  rw [beginEvent_eq, hg, begun]
  exact ⟨hm, rfl, rfl, rfl, rfl, rfl⟩

theorem beginEvent_quiet (e : Env) (r : Rack) : (∀ j : Fin 12, ((beginEvent e r).bu[j]).setpoint = 0) ∧
    (beginEvent e r).acct.rc = 0 ∧ (beginEvent e r).acct.shortfall = false ∧
    (beginEvent e r).rech.pool = 0 ∧ (beginEvent e r).rech.frame = none ∧
    (beginEvent e r).active = none := by
  obtain ⟨active, setpoint, rc, flag, rech⟩ := eventBegins_quiet e r
  have kept := evaluateHold_eventKept (e := e) (eventBegins e r)
  obtain ⟨allocator, reported⟩ := kept.recharge
  rw [beginEvent_eq, allocator, rech]
  exact ⟨fun j => (kept.setpoint j).trans (setpoint j), reported.trans rc, kept.shortfall.trans flag,
    rfl, rfl, kept.active.trans active⟩

/-! ### Announcements and what the entries leave alone (R113, R114, R116) -/

theorem moveGrid_eq (e : Env) (g : Grid) (level : Nat) (r : Rack) : moveGrid e g level r = { r with
    grid := g
    notif := r.notif.offer ⟨.grid, 1, g.state.code, e.now,
      g.bounces + 256 * level + 4096 * r.grid.state.code + if g.drainFlag then 65536 else 0⟩
    todo := { r.todo with account := true, pool := true, hold := true, head := true } } := rfl

theorem enterQualify_grid (e : Env) (r : Rack) : (enterQualify e r).grid = { r.grid with
    state := .qualify, qualify := some ⟨e.now, 1000 * e.param 8⟩ } :=
  enterQualify_figure Rack.grid (fun _ _ => rfl) r

theorem enterQualify_announces (e : Env) (r : Rack) :
    (enterQualify e r).notif = r.notif.offer ⟨.grid, 1, (enterQualify e r).grid.state.code, e.now,
      (enterQualify e r).grid.bounces + 256 * r.grid.level + 4096 * r.grid.state.code +
        if (enterQualify e r).grid.drainFlag then 65536 else 0⟩ := by
  rw [enterQualify_figure Rack.notif (fun _ _ => rfl), enterQualify_grid, moveGrid_eq]
  rfl

theorem enterDark_announces (e : Env) (r : Rack) :
    (enterDark e r).notif = r.notif.offer ⟨.grid, 1, (enterDark e r).grid.state.code, e.now,
      (enterDark e r).grid.bounces + 256 * r.grid.level + 4096 * r.grid.state.code +
        if (enterDark e r).grid.drainFlag then 65536 else 0⟩ := by
  rw [enterDark_figure Rack.notif (fun _ _ => rfl), enterDark_grid, moveGrid_eq]

theorem enterQualify_owes (e : Env) (r : Rack) : (enterQualify e r).todo.hold = true :=
  enterQualify_figure (fun x => x.todo.hold) (fun _ _ => rfl) r

theorem enterDark_owes (e : Env) (r : Rack) : (enterDark e r).todo.hold = true :=
  enterDark_figure (fun x => x.todo.hold) (fun _ _ => rfl) r

/-- The entry to DRAIN leads on to DARK exactly where no slot is powered any more (R115). -/
theorem enterDrain_state (e : Env) (r : Rack) :
    (enterDrain e r).grid.drainFlag = true ∧ (enterDrain e r).grid.level = r.grid.level ∧
    ((enterDrain e r).grid.powered = 0 → (enterDrain e r).grid.state = .dark) ∧
    ((enterDrain e r).grid.powered ≠ 0 → (enterDrain e r).grid.state = .drain) := by
  rw [enterDrain_grid]
  dsimp only
  exact ⟨rfl, rfl, fun h => if_pos h, fun h => if_neg h⟩

theorem evaluateHold_away (h : r.grid.state ≠ .rideThrough) :
    (evaluateHold e r).grid = r.grid ∧ (evaluateHold e r).slots = r.slots := by
  have figured : (evaluateFigures e { r with todo.hold := false }).grid.state ≠ .rideThrough := h
  rw [evaluateHold_eq, actOnHold_stays (.inl figured)]
  exact ⟨rfl, rfl⟩

end Sys2Proof.Machine

section
open Sys2Proof Sys2Proof.Machine

/-- Settles O49: the conditions are read off the modules, each move of the Controller is its own equation,
and an operation on the slots or the BUs in turn is local to each of them. -/
theorem gridMoves : Obligations.GridMoves := by
  refine ⟨fun e r => ⟨lossHolds_iff e r, psuReturn_iff e r, returnHolds_iff e r⟩,
    fun e r => ⟨⟨?_, ?_, ?_, ?_, ?_, ?_, ?_, ?_, ?_, evaluateGrid_stays⟩, ?_, ?_, leaveStartup_stays⟩,
    fun e r => ⟨?_, cycleOver_iff e r, followCycle_stays, followCycle_ends⟩,
    fun e r => ⟨fun g level => moveGrid_eq e g level r, rfl, rfl, ?_⟩,
    fun e r => ?_, fun e r => ?_⟩
  · exact fun h hl => (evaluateGrid_normal h).trans (if_neg (Bool.eq_false_iff.mp hl))
  · exact fun h hl => (evaluateGrid_normal h).trans (if_pos hl)
  · exact fun h hr => (evaluateGrid_rideThrough h).trans (if_pos hr)
  · exact fun h hr => (evaluateGrid_rideThrough h).trans (if_neg (Bool.eq_false_iff.mp hr))
  · exact fun h hl => (evaluateGrid_qualify h).trans (if_neg (Bool.eq_false_iff.mp hl))
  · exact fun h hl hv => ((evaluateGrid_qualify h).trans (if_pos hl)).trans
      (if_neg (Bool.eq_false_iff.mp hv))
  · intro h hl hv
    have bounces : evaluateGrid e r = bounce e r :=
      ((evaluateGrid_qualify h).trans (if_pos hl)).trans (if_pos hv)
    rw [bounces]
    exact ⟨rfl, bounce_grid e r⟩
  · exact fun h hr => (evaluateGrid_dark h).trans (if_pos hr)
  · exact fun h hr => (evaluateGrid_dark h).trans (if_neg (Bool.eq_false_iff.mp hr))
  · exact fun h hl => (leaveStartup_startup h).trans (if_pos hl)
  · exact fun h hl => (leaveStartup_startup h).trans (if_neg (Bool.eq_false_iff.mp hl))
  · rw [endCycle_eq, takeSums_eq, outputSum_eq, dischargeSum_eq, takeUp_eq]
    rfl
  · obtain ⟨state, inEvent, start, bounces, timer, events⟩ := beginEvent_grid e r
    exact ⟨state, inEvent, start, bounces, timer, events, beginEvent_quiet e r⟩
  · obtain ⟨flag, level, dark, drains⟩ := enterDrain_state e r
    exact ⟨enterQualify_grid e r, enterQualify_figure Rack.slots (fun _ _ => rfl) r,
      enterQualify_announces e r, enterQualify_owes e r, enterDrain_owes e r, enterDark_owes e r,
      fun j => ⟨enterQualify_back, enterQualify_left⟩, flag, level, dark, drains,
      enterDrain_faults e r, enterDrain_slot e r, enterDark_grid e r,
      enterDark_figure Rack.slots (fun _ _ => rfl) r, enterDark_announces e r,
      fun j => ⟨enterDark_usable, enterDark_left⟩, fun hs hd hp => by
        obtain ⟨-, -, -, -, -, -, waits⟩ := (settled_iff r).mp hs
        exact waits ⟨hd, hp⟩⟩
  · exact ⟨evaluateHold_level e r, evaluateHold_away, evaluateHold_eq e r, actOnHold_stays,
      fun hs hl => ⟨fun hd => (actOnHold_eq hs hl).trans (if_pos hd), actOnHold_slot hs hl⟩,
      energyShort_logs, energyShort_stays, raiseLevel_rises, raiseLevel_stays⟩

end
end

