-- ==== Sys2Proof/Proofs/CapacityFigures.lean ====
section
/-! PROOF. The Capacity Account's figures: the reserve as the greatest sum of k contributions, the counts
and the redundancy state (O46). -/

namespace Sys2Proof.Machine

/-! ### The greatest sum of so many figures (R48) -/

/-- The first figures of a list in falling order sum to no less than the first of its tail. -/
theorem sum_take_tail_le {a : Nat} {s : List Nat} (h : (a :: s).Pairwise (· ≥ ·)) (k : Nat) :
    (s.take k).sum ≤ ((a :: s).take k).sum := by
  induction s generalizing a k with
  | nil => simp
  | cons b s ih =>
    cases k with
    | zero => simp
    | succ k =>
      obtain ⟨ha, hs⟩ := List.pairwise_cons.mp h
      have first : b ≤ a := ha b List.mem_cons_self
      have rest := ih hs k
      simp only [List.take_succ_cons, List.sum_cons] at rest ⊢
      omega

/-- Of a list in falling order, no figures sum to more than as many of the first. -/
theorem sum_sublist_le {l s : List Nat} (hl : l.Sublist s) (h : s.Pairwise (· ≥ ·)) :
    l.sum ≤ (s.take l.length).sum := by
  induction hl with
  | slnil => simp
  | cons a _ ih => exact (ih (List.pairwise_cons.mp h).2).trans (sum_take_tail_le h _)
  | cons_cons a _ ih =>
    simp only [List.length_cons, List.take_succ_cons, List.sum_cons]
    exact Nat.add_le_add_left (ih (List.pairwise_cons.mp h).2) a

theorem sortBy_falling (xs : List Nat) : (sortBy (fun a b => b < a) xs).Pairwise (· ≥ ·) :=
  sortBy_pairwise (R := (· ≥ ·)) (fun _ _ _ h k => le_trans k h)
    (fun _ _ h => (of_decide_eq_true h).le) (fun _ _ h => not_lt.mp (of_decide_eq_false h)) xs

/-- No members of a list have figures that sum to more than the `largestSum` of as many. -/
theorem sum_le_largestSum {α : Type} (f : α → Nat) {l xs : List α} (h : l.Subperm xs) :
    (l.map f).sum ≤ largestSum l.length (xs.map f) := by
  obtain ⟨m, perm, sub⟩ := h
  obtain ⟨s, same, sorted⟩ := (sub.map f).subperm.trans
    (sortBy_perm (fun a b : Nat => b < a) (xs.map f)).symm.subperm
  have bound := sum_sublist_le sorted (sortBy_falling (xs.map f))
  rwa [same.sum_eq, (perm.map f).sum_eq, same.length_eq, List.length_map, perm.length_eq] at bound

/-- The figures of some members of a list make up its `largestSum`. -/
theorem exists_largestSum {α : Type} (f : α → Nat) {k : Nat} {xs : List α} (h : k ≤ xs.length) :
    ∃ l : List α, l.Sublist xs ∧ l.length = k ∧ (l.map f).sum = largestSum k (xs.map f) := by
  have perm := sortBy_perm (fun a b : Nat => b < a) (xs.map f)
  obtain ⟨m, same, sub⟩ := ((List.take_sublist k _).subperm).trans perm.subperm
  obtain ⟨l, hl, rfl⟩ := List.sublist_map_iff.mp sub
  refine ⟨l, hl, ?_, same.sum_eq⟩
  have len := same.length_eq
  rw [List.length_map, List.length_take, perm.length_eq, List.length_map] at len
  omega

/-! ### The contributions and the counts (R45, R46, R49) -/

theorem onlinePresent_iff (r : Rack) (i : Fin 18) : onlinePresent r i = true ↔
    (r.psu[i]).present = true ∧ (r.psu[i]).state = .online := by
  unfold onlinePresent
  rw [Bool.and_eq_true, beq_iff_eq]

theorem contribution_eq (e : Env) (r : Rack) (i : Fin 18) : contribution e r i =
    if onlinePresent r i = true then min (r.psu[i]).capability (e.cfg.record.psus[i]).rated else 0 :=
  rfl

/-- The ONLINE count is the present count exactly while every present PSU is ONLINE (R49). -/
theorem onlineCount_eq_present_iff (r : Rack) : onlineCount r = presentPsus r ↔
    ∀ i : Fin 18, (r.psu[i]).present = true → (r.psu[i]).state = .online := by
  have online : (List.finRange 18).filter (onlinePresent r) =
      ((List.finRange 18).filter fun i => (r.psu[i]).present).filter
        fun i => (r.psu[i]).state == .online := by
    rw [List.filter_filter]
    exact List.filter_congr fun i _ => Bool.and_comm _ _
  unfold onlineCount presentPsus countOf
  rw [online, List.length_filter_eq_length_iff]
  simp

/-- The reserve is no less than the contributions of any k of the ONLINE positions (R48). -/
theorem sum_le_reserve {e : Env} {r : Rack} (h : e.k < onlineCount r) {l : List (Fin 18)}
    (nodup : l.Nodup) (len : l.length = e.k) (online : ∀ i ∈ l, onlinePresent r i = true) :
    (l.map (contribution e r)).sum ≤ reserveOf e r := by
  have among : l.Subperm ((List.finRange 18).filter (onlinePresent r)) :=
    nodup.subperm fun i hi => List.mem_filter.mpr ⟨List.mem_finRange i, online i hi⟩
  rw [reserveOf, if_pos h, ← len]
  exact sum_le_largestSum _ among

/-- The contributions of some k of the ONLINE positions make up the reserve (R48). -/
theorem exists_reserve {e : Env} {r : Rack} (h : e.k < onlineCount r) : ∃ l : List (Fin 18),
    l.Sublist (List.finRange 18) ∧ l.length = e.k ∧ (∀ i ∈ l, onlinePresent r i = true) ∧
    (l.map (contribution e r)).sum = reserveOf e r := by
  obtain ⟨l, sub, len, sum⟩ := exists_largestSum (contribution e r) (k := e.k)
    (xs := (List.finRange 18).filter (onlinePresent r)) h.le
  refine ⟨l, sub.trans List.filter_sublist, len,
    fun i hi => (List.mem_filter.mp (sub.subset hi)).2, ?_⟩
  rw [sum, reserveOf, if_pos h]

/-- The reserve is made up of contributions, and so is at most their sum (R46, R48). -/
theorem reserve_le_gross (e : Env) (r : Rack) : reserveOf e r ≤ grossCapacity e r := by
  by_cases h : e.k < onlineCount r
  · obtain ⟨l, sub, -, -, sum⟩ := exists_reserve h
    rw [← sum]
    exact (sub.map (contribution e r)).sum_le_sum fun _ _ => Nat.zero_le _
  · rw [reserveOf, if_neg h]
    exact Nat.zero_le _

/-- Adm is at most A under a ratio of at most 256 (R50). -/
theorem admissible_le {a ratio : Nat} (h : ratio ≤ 256) : admissible a ratio ≤ a :=
  Nat.div_le_of_le_mul ((Nat.mul_le_mul_left a h).trans_eq (Nat.mul_comm a 256))

end Sys2Proof.Machine

section
open Sys2Proof Sys2Proof.Machine

/-- Settles O46: the sorted contributions give the reserve its greatest sum, and the counts the
redundancy state. -/
theorem capacityFigures : Obligations.CapacityFigures := by
  intro e r
  have counted : ∀ l : List (Fin 18), (∀ i, i ∈ l ↔ (r.psu[i]).present = true ∧
      (r.psu[i]).state = .online) → l.Nodup → (figures e r).nOn = l.length := fun l hl nodup =>
    countOf_eq nodup fun i => (hl i).trans (onlinePresent_iff r i).symm
  refine ⟨fun i => ⟨fun h => ?_, fun h => ?_⟩, rfl, counted, fun h => ⟨?_, ?_⟩,
    fun h => ⟨fun l nodup len online => ?_, ?_, fun all => ?_, fun ⟨i, present, off⟩ => ?_⟩,
    Nat.sub_add_cancel (reserve_le_gross e r), rfl, admissible_le, rfl⟩
  · rw [contribution_eq, if_pos ((onlinePresent_iff r i).mpr h)]
  · rw [contribution_eq, if_neg (h ∘ (onlinePresent_iff r i).mp)]
  · exact if_neg (not_lt.mpr h)
  · exact if_pos h
  · exact sum_le_reserve h nodup len fun i hi => (onlinePresent_iff r i).mpr (online i hi)
  · obtain ⟨l, sub, len, online, sum⟩ := exists_reserve (e := e) (r := r) h
    exact ⟨l, sub.nodup (List.nodup_finRange 18), len, fun i hi => (onlinePresent_iff r i).mp (online i hi), sum⟩
  · exact (if_neg (not_le.mpr h)).trans (if_pos ((onlineCount_eq_present_iff r).mpr all))
  · exact (if_neg (not_le.mpr h)).trans
      (if_neg fun same => off ((onlineCount_eq_present_iff r).mp same i present))

end
end

