-- ==== Sys2Proof/Proofs/ChangeOfState.lean ====
section
/-! PROOF. What a change of slot state does to the record, the figures and the Start Queue, and what it
leaves (O24). -/

namespace Sys2Proof.Machine

variable {e : Env} {n : Fin 48} {x : SlotRec} {r : Rack}

/-! ### The queue after a change of state (R85, R86, R91) -/

/-- A slot that takes its place among others leaves their order. -/
theorem filter_insertBy (before : Fin 48 → Fin 48 → Bool) (n : Fin 48) (l : List (Fin 48)) :
    (insertBy before n l).filter (· != n) = l.filter (· != n) := by
  induction l with
  | nil => simp [insertBy]
  | cons m l ih =>
    unfold insertBy
    split
    · simp
    · rw [List.filter_cons, List.filter_cons, ih]

theorem changeRecord_filter (e : Env) (n : Fin 48) (x : SlotRec) (r : Rack) :
    (changeRecord e n x r).queue.entries.filter (· != n) = r.queue.entries.filter (· != n) := by
  rw [changeRecord_entries]
  split
  · rw [filter_insertBy, List.filter_filter]
    simp
  · split
    · rw [List.filter_filter]
      simp
    · rfl

/-- An empty queue has no gate timer and no failing gate, once its head has gone (R86, R103, R105). -/
theorem followHead_empties (hh : r.queue.head ≠ none) (hq : r.queue.entries = []) :
    (followHead e r).queue.timer = none ∧ (followHead e r).queue.gate = 0 := by
  have some : ¬ r.queue.head.isNone = true := by rwa [Option.isNone_iff_eq_none]
  unfold followHead
  rw [hq]
  dsimp only [List.head?_nil]
  rw [if_neg some]
  exact ⟨rfl, rfl⟩

/-- Where the pool and the head are to be judged already, the head's change hands on nothing more. -/
theorem followHead_todo (hp : r.todo.pool = true) (hh : r.todo.head = true) :
    (followHead e r).todo = r.todo := by
  have owed : { r.todo with pool := true, head := true } = r.todo := by
    rw [Todo.mk.injEq]
    exact ⟨rfl, rfl, hp.symm, rfl, hh.symm, rfl, rfl⟩
  unfold followHead
  split <;> split
  · rfl
  · exact owed
  · rfl
  · exact owed

/-- Into or out of QUEUED the slot takes or leaves its place, and the head follows (R85, R86). -/
theorem followQueue_moves {old new : SlotState} (h : old = .queued ∨ new = .queued) :
    ∃ l, followQueue e n old new r = followHead e { r with queue.entries := l } := by
  unfold followQueue joinQueue leaveQueue
  by_cases hn : new = .queued
  · exact ⟨_, if_pos (beq_iff_eq.mpr hn)⟩
  · exact ⟨_, (if_neg (hn ∘ beq_iff_eq.mp)).trans (if_pos (beq_iff_eq.mpr (h.resolve_right hn)))⟩

/-- A change between other states leaves the queue. -/
theorem followQueue_stays {old new : SlotState} (ho : old ≠ .queued) (hn : new ≠ .queued) :
    followQueue e n old new r = r := by
  unfold followQueue
  rw [if_neg (hn ∘ beq_iff_eq.mp), if_neg (ho ∘ beq_iff_eq.mp)]

/-- The queue is all that follows a change of state, where what it hands on is handed on already. -/
theorem followQueue_frame {old new : SlotState} (hp : r.todo.pool = true) (hh : r.todo.head = true) :
    followQueue e n old new r = { r with queue := (followQueue e n old new r).queue } := by
  by_cases h : old = .queued ∨ new = .queued
  · obtain ⟨l, moved⟩ := followQueue_moves (e := e) (n := n) (r := r) h
    have todo := followHead_todo (e := e) (r := { r with queue.entries := l }) hp hh
    rw [moved, followHead_frame, todo]
  · obtain ⟨ho, hn⟩ := not_or.mp h
    rw [followQueue_stays ho hn]

/-! ### A change of record, whole (R52, R58, R65, R106, R127) -/

/-- A change of record is what the blocks' figures take of it, the queue and SLOT_STATE. -/
theorem changeRecord_frame (e : Env) (n : Fin 48) (x : SlotRec) (r : Rack) : changeRecord e n x r =
    { takeRecord e n x r with
      queue := (changeRecord e n x r).queue
      notif := r.notif.offer ⟨.slot, 1, n.val, e.now, x.state.code + 16 * x.cause.code⟩ } := by
  have frame := followQueue_frame (e := e) (n := n) (old := (r.slots[n]).state) (new := x.state)
    (r := takeRecord e n x r) rfl rfl
  unfold changeRecord
  dsimp only
  rw [frame]
  rfl

/-- S moves by the difference of the two state draws (R52). -/
theorem changeRecord_balance (k : r.Follows e) : (changeRecord e n x r).acct.s +
    stateDraw (e.profile n) (r.slots[n]).state = r.acct.s + stateDraw (e.profile n) x.state := by
  have within : drawOf e r n ≤ r.acct.s := by
    rw [k.s, total_eq_sum]
    exact Finset.single_le_sum (fun _ _ => Nat.zero_le _) (Finset.mem_univ n)
  rw [changeRecord_s]
  unfold moveDraw drawOf at *
  omega

theorem changeRecord_queue_stays (ho : (r.slots[n]).state ≠ .queued) (hx : x.state ≠ .queued) :
    (changeRecord e n x r).queue = r.queue := by
  unfold changeRecord
  dsimp only
  rw [raise_queue, followQueue_stays ho hx]
  rfl

/-- A change into or out of QUEUED leaves the history, and the head follows the first entry: the same slot
keeps its wait, and an empty queue has no timer and no failing gate (R86, R103). -/
theorem changeRecord_queue_moves (h : (r.slots[n]).state = .queued ∨ x.state = .queued) :
    let q := (changeRecord e n x r).queue
    q.history = r.queue.history ∧
    (r.queue.head.map QueueHead.slot = q.entries.head? → q.head = r.queue.head) ∧
    (r.queue.head.map QueueHead.slot ≠ q.entries.head? →
      q.head = q.entries.head?.map (fun m => ⟨m, e.now, false⟩) ∧
      (q.entries = [] → q.timer = none ∧ q.gate = 0)) := by
  obtain ⟨l, moved⟩ := followQueue_moves (e := e) (n := n) (r := takeRecord e n x r) h
  have queue : (changeRecord e n x r).queue =
      (followHead e { takeRecord e n x r with queue.entries := l }).queue := by
    rw [← moved]
    rfl
  have head := followHead_head e { takeRecord e n x r with queue.entries := l }
  dsimp only
  rw [queue, followHead_queue]
  refine ⟨(followHead_same ..).history, fun same => head.trans (if_pos same),
    fun moves => ⟨head.trans (if_neg moves), fun none => followHead_empties (fun gone => moves ?_) none⟩⟩
  have gone : r.queue.head = .none := gone
  have none : l = [] := none
  rw [gone, none]
  rfl

/-- The measured-load sums fall with a removal of PERMIT alone (R127). -/
theorem changeRecord_hold (e : Env) (n : Fin 48) (x : SlotRec) (r : Rack) : (changeRecord e n x r).hold =
    if (r.slots[n]).state.powered = true ∧ x.state.powered = false then
      r.hold.lower (predictedDraw (e.profile n) (r.slots[n]).state)
    else r.hold := by
  rw [changeRecord_frame]
  refine if_congr ?_ rfl rfl
  rw [Bool.and_eq_true, Bool.not_eq_true']

/-- The record a slot enters a state with (R62, R63). -/
theorem SlotRec.enter_eq (x : SlotRec) (now : Time) (st : SlotState) (cause : Cause) :
    x.enter now st cause = { x with
      state := st
      offSince := if x.state.powered = true ∧ st.powered = false then now else x.offSince
      queueTime := if st = .queued then some now else none
      drain := none
      goodDeadline := none
      cause := cause
      permit := st.powered
      warn := decide (st = .draining) } := by
  unfold SlotRec.enter
  simp only [Bool.and_eq_true, Bool.not_eq_true', beq_iff_eq, SlotRec.mk.injEq, true_and]
  rfl

end Sys2Proof.Machine

section
open Sys2Proof Sys2Proof.Machine

/-- Settles O24: a change of state is a change of record, and that is what the blocks' figures take of it,
the queue with its head, and SLOT_STATE. -/
theorem changeOfState : Obligations.ChangeOfState := by
  intro e n st cause r follows
  have frame := changeRecord_frame e n ((r.slots[n]).enter e.now st cause) r
  have stays := changeRecord_queue_stays (e := e) (n := n) (x := (r.slots[n]).enter e.now st cause) (r := r)
  have moves := changeRecord_queue_moves (e := e) (n := n) (x := (r.slots[n]).enter e.now st cause) (r := r)
  refine ⟨(enter_self ..).trans (SlotRec.enter_eq ..), fun m hm => enter_other _ _ _ _ _ _ (Ne.symm hm),
    changeRecord_follows follows n _, changeRecord_filter .., changeRecord_order follows n _,
    stays, moves, changeRecord_balance follows,
    ?_, changeRecord_notif .., ?_, ?_⟩
  · split
    · rename_i removed
      exact (changeRecord_hold ..).trans (if_pos removed)
    · rename_i stays
      exact (changeRecord_hold ..).trans (if_neg stays)
  · unfold enter
    rw [frame]
    rfl
  · unfold enter
    rw [frame]
    rfl

end
end

