-- ==== Sys2Proof/Proofs/ShedSelection.lean ====
section
/-! PROOF. The shed selection, the shortfall test, the Account's computation and the restore (O47). -/

namespace Sys2Proof.Machine

variable {e : Env} {r : Rack} {n : Fin 48}

/-! ### The slots a selection takes (R57, R58) -/

/-- A slot is taken before another: the lower rank, then the younger grant, then the higher index (R57). -/
def TakenBefore (e : Env) (r : Rack) (m n : Fin 48) : Prop :=
  e.rank m < e.rank n ∨ e.rank m = e.rank n ∧
    (grantAge e r m < grantAge e r n ∨ grantAge e r m = grantAge e r n ∧ n.val < m.val)

theorem shedBefore_iff (e : Env) (r : Rack) (m n : Fin 48) :
    shedBefore e r m n = true ↔ TakenBefore e r m n := by
  unfold shedBefore TakenBefore
  split
  · rw [decide_eq_true_iff]; omega
  · split <;> rw [decide_eq_true_iff] <;> omega

theorem TakenBefore.trans {a b c : Fin 48} (h : TakenBefore e r a b) (k : TakenBefore e r b c) :
    TakenBefore e r a c := by
  unfold TakenBefore at *
  omega

/-- Of two slots one is taken before the other (R57). -/
theorem takenBefore_or (a b : Fin 48) : TakenBefore e r a b ∨ TakenBefore e r b a ∨ a = b := by
  unfold TakenBefore
  omega

theorem candidate_iff (e : Env) (r : Rack) (n : Fin 48) : candidate e r n = true ↔
    ((r.slots[n]).state = .starting ∨ (r.slots[n]).state = .on) ∧ 1 ≤ e.rank n ∧ e.rank n ≤ 3 := by
  unfold candidate
  simp only [Bool.and_eq_true, Bool.or_eq_true, beq_iff_eq, decide_eq_true_iff, and_assoc]

theorem mem_candidates (e : Env) (r : Rack) (n : Fin 48) :
    n ∈ candidates e r ↔ candidate e r n = true := by
  unfold candidates
  rw [(sortBy_perm _ _).mem_iff, List.mem_filter]
  exact and_iff_right (List.mem_finRange n)

theorem candidates_nodup (e : Env) (r : Rack) : (candidates e r).Nodup :=
  (sortBy_perm _ _).nodup_iff.mpr ((List.nodup_finRange 48).filter _)

/-- The candidates stand in the order in which they are taken (R57). -/
theorem candidates_order (e : Env) (r : Rack) : (candidates e r).Pairwise (TakenBefore e r) := by
  have sorted : (candidates e r).Pairwise fun a b => TakenBefore e r a b ∨ a = b := by
    refine sortBy_pairwise (fun a b c hab hbc => ?_) (fun a b h => .inl ((shedBefore_iff ..).mp h))
      (fun a b h => ?_) _
    · rcases hab with hab | rfl
      · rcases hbc with hbc | rfl
        · exact .inl (hab.trans hbc)
        · exact .inl hab
      · exact hbc
    · have not : ¬ TakenBefore e r a b := by
        rw [← shedBefore_iff, h]
        exact Bool.false_ne_true
      exact ((takenBefore_or a b).resolve_left not).imp id Eq.symm
  exact sorted.imp₂ (fun a b h ne => h.resolve_right ne) (candidates_nodup e r)

/-! ### As many as the deficit asks for (R58) -/

theorem takeUntil_cons (draw : Fin 48 → Nat) (d : Nat) (n : Fin 48) (l : List (Fin 48)) :
    takeUntil draw (d + 1) (n :: l) = n :: takeUntil draw (d + 1 - draw n) l := rfl

theorem takeUntil_prefix (draw : Fin 48 → Nat) (d : Nat) (l : List (Fin 48)) :
    takeUntil draw d l <+: l := by
  induction l generalizing d with
  | nil => exact List.prefix_refl _
  | cons n l ih =>
    cases d with
    | zero => exact List.nil_prefix
    | succ d => exact (List.cons_prefix_cons).mpr ⟨rfl, ih _⟩

/-- What is taken covers the deficit, or is everything. -/
theorem takeUntil_covers (draw : Fin 48 → Nat) (d : Nat) (l : List (Fin 48)) :
    d ≤ ((takeUntil draw d l).map draw).sum ∨ takeUntil draw d l = l := by
  induction l generalizing d with
  | nil => exact .inr rfl
  | cons n l ih =>
    cases d with
    | zero => exact .inl (Nat.zero_le _)
    | succ d =>
      rw [takeUntil_cons, List.map_cons, List.sum_cons]
      rcases ih (d + 1 - draw n) with h | h
      · exact .inl (by omega)
      · exact .inr (by rw [h])

/-- Short of the last one taken, the deficit is not covered. -/
theorem takeUntil_needs (draw : Fin 48 → Nat) {d : Nat} {l t : List (Fin 48)} {m : Fin 48}
    (h : takeUntil draw d l = t ++ [m]) : (t.map draw).sum < d := by
  induction l generalizing d t with
  | nil => exact absurd h.symm (List.append_ne_nil_of_right_ne_nil _ (List.cons_ne_nil _ _))
  | cons n l ih =>
    cases d with
    | zero => exact absurd h.symm (List.append_ne_nil_of_right_ne_nil _ (List.cons_ne_nil _ _))
    | succ d =>
      cases t with
      | nil => exact Nat.succ_pos d
      | cons a t =>
        rw [takeUntil_cons, List.cons_append, List.cons.injEq] at h
        obtain ⟨rfl, rest⟩ := h
        have short := ih rest
        rw [List.map_cons, List.sum_cons]
        omega

/-- The candidates are those taken, and then those left. -/
theorem selected_append (e : Env) (r : Rack) : ∃ left, selected e r ++ left = candidates e r :=
  takeUntil_prefix ..

theorem selected_candidate {m : Fin 48} (h : m ∈ selected e r) : candidate e r m = true :=
  (mem_candidates ..).mp ((takeUntil_prefix ..).subset h)

theorem selected_nodup (e : Env) (r : Rack) : (selected e r).Nodup :=
  (takeUntil_prefix ..).sublist.nodup (candidates_nodup e r)

theorem selected_order (e : Env) (r : Rack) : (selected e r).Pairwise (TakenBefore e r) :=
  (candidates_order e r).sublist (takeUntil_prefix ..).sublist

/-- Every slot taken is taken before every one left (R57). -/
theorem selected_before {m : Fin 48} (hn : candidate e r n = true) (left : n ∉ selected e r)
    (hm : m ∈ selected e r) : TakenBefore e r m n := by
  obtain ⟨rest, whole⟩ := selected_append e r
  have order := candidates_order e r
  rw [← whole, List.pairwise_append] at order
  obtain ⟨-, -, across⟩ := order
  have among : n ∈ selected e r ++ rest := whole ▸ (mem_candidates ..).mpr hn
  exact across m hm n ((List.mem_append.mp among).resolve_left left)

theorem selected_covers (e : Env) (r : Rack) : uncovered e r ≤ ((selected e r).map (drawOf e r)).sum ∨
    ∀ n, candidate e r n = true → n ∈ selected e r := by
  refine (takeUntil_covers (drawOf e r) (uncovered e r) (candidates e r)).imp id fun all n hn => ?_
  unfold selected
  rw [all]
  exact (mem_candidates ..).mpr hn

/-- The deficit that figures which follow the slots leave uncovered (R52, R58). -/
theorem uncovered_follows (k : r.Follows e) : uncovered e r =
    ((List.finRange 48).map (drawOf e r)).sum + e.param 10 -
      (((List.finRange 48).map fun n =>
        if (r.slots[n]).state = .draining ∧ (r.slots[n]).drain.map Drain.target = some .shed then
          (e.profile n).peakW
        else 0).sum + r.acct.a) := by
  unfold uncovered
  rw [k.s, k.relief]
  rfl

/-! ### A selection and the shortfall flag (R56, R58, R59) -/

theorem shedSelection_eq (e : Env) (r : Rack) : shedSelection e r =
    (let u := forEach (drain e .shed) (selected e r) r
     let held : Rack := { u with acct.recorded := uncovered e u }
     if selected e r = [] ∧ uncovered e u = 0 then held
     else raise e .capacity 3 (selected e r).length (uncovered e u) held) := by
  unfold shedSelection
  refine if_congr ?_ rfl rfl
  rw [Bool.and_eq_true, List.isEmpty_iff, beq_iff_eq]

theorem shortfallHolds_iff (e : Env) (r : Rack) : shortfallHolds e r = true ↔
    e.cfg.locked = true ∧ r.grid.state = .normal ∧ r.acct.a < r.acct.s + e.param 10 := by
  unfold shortfallHolds
  simp only [Bool.and_eq_true, beq_iff_eq, decide_eq_true_iff, and_assoc]
  rfl

theorem evaluateShortfall_idle (hs : r.acct.shortfall = false) (hh : ¬ shortfallHolds e r = true) :
    evaluateShortfall e r = r := by
  rw [evaluateShortfall, if_neg (Bool.eq_false_iff.mp hs), if_neg hh]

theorem evaluateShortfall_enters (hs : r.acct.shortfall = false) (hh : shortfallHolds e r = true) :
    evaluateShortfall e r = enterShortfall e r := by
  rw [evaluateShortfall, if_neg (Bool.eq_false_iff.mp hs), if_pos hh]

theorem evaluateShortfall_follows (hs : r.acct.shortfall = true) (hh : shortfallHolds e r = true) :
    evaluateShortfall e r = followDeficit e r := by
  rw [evaluateShortfall, if_pos hs, if_pos hh]

theorem evaluateShortfall_clears (hs : r.acct.shortfall = true) (hh : ¬ shortfallHolds e r = true) :
    evaluateShortfall e r = clearShortfall e r := by
  rw [evaluateShortfall, if_pos hs, if_neg hh]

/-- The flag stands after the test exactly when the condition holds (R56, R59). -/
theorem evaluateShortfall_flag (e : Env) (r : Rack) :
    (evaluateShortfall e r).acct.shortfall = shortfallHolds e r := by
  by_cases hh : shortfallHolds e r = true
  · rw [hh]
    cases hs : r.acct.shortfall with
    | false => rw [evaluateShortfall_enters hs hh, enterShortfall_flag]
    | true => rw [evaluateShortfall_follows hs hh, (followDeficit_sameModules e r).shortfall, hs]
  · rw [Bool.eq_false_iff.mpr hh]
    cases hs : r.acct.shortfall with
    | false => rw [evaluateShortfall_idle hs hh, hs]
    | true => rw [evaluateShortfall_clears hs hh]; rfl

theorem clearShortfall_eq (e : Env) (r : Rack) : clearShortfall e r =
    raise e .capacity 4 (if e.cfg.locked = true ∧ r.grid.state = .normal then 0 else 1)
      (r.acct.a - (r.acct.s + e.param 10))
      { r with acct.shortfall := false, acct.recorded := 0, todo.pool := true } := by
  have subject : clearSubject e r = if e.cfg.locked = true ∧ r.grid.state = .normal then 0 else 1 := by
    unfold clearSubject
    refine if_congr ?_ rfl rfl
    rw [Bool.and_eq_true, beq_iff_eq]
    rfl
  rw [clearShortfall, subject]
  rfl

/-! ### The entry to shortfall (R56, R141, R144) -/

/-- The entry to shortfall as far as CAPACITY_SHORT (R56). -/
def shortageLogged (e : Env) (r : Rack) : Rack :=
  logFault e .capacityShort r.acct.nOn { r with acct.shortfall := true, acct.recorded := 0 }

theorem shortageLogged_acct (e : Env) (r : Rack) :
    (shortageLogged e r).acct = { r.acct with shortfall := true, recorded := 0 } := logFault_acct ..

theorem shortageLogged_rech (e : Env) (r : Rack) : (shortageLogged e r).rech = r.rech := logFault_rech ..

theorem enterShortfall_eq (e : Env) (r : Rack) : enterShortfall e r = shedSelection e
    (raise e .capacity 2 r.acct.nOn (r.acct.s + e.param 10 - r.acct.a)
      (poolUpdate e (shortageLogged e r))) := by
  obtain ⟨-, acct, -⟩ := poolUpdate_keepsAccount e (shortageLogged e r)
  rw [shortageLogged_acct] at acct
  show shedSelection e (raise e .capacity 2 (poolUpdate e (shortageLogged e r)).acct.nOn
    ((poolUpdate e (shortageLogged e r)).acct.s + e.param 10 - (poolUpdate e (shortageLogged e r)).acct.a)
    (poolUpdate e (shortageLogged e r))) = _
  rw [acct]

/-- The Allocator at an entry to shortfall is where the pool's update leaves it (R56, R58). -/
theorem enterShortfall_recharge (e : Env) (r : Rack) :
    SameRecharge (poolUpdate e (shortageLogged e r)) (enterShortfall e r) := by
  rw [enterShortfall_eq]
  exact SameRecharge.trans ⟨rfl, rfl⟩ (shedSelection_sameRecharge e _)

/-- Members of no ceiling draw nothing (R142). -/
theorem rechargeDraw_zero {v : Vector (Option Member) 12}
    (h : ∀ (j : Fin 12) (x : Member), v[j] = some x → x = memberOf 0) : rechargeDraw v = 0 := by
  unfold rechargeDraw total
  refine List.sum_eq_zero fun d hd => ?_
  obtain ⟨j, -, rfl⟩ := List.mem_map.mp hd
  cases hv : v[j] with
  | none => rfl
  | some x => rw [h j x hv]; rfl

/-- A frame that starts on a pool of 0 draws nothing (R142, R144). -/
theorem startFrame_draws_nothing (e : Env) (t : Time) (r : Rack) : (startFrame e t 0 r).acct.rc = 0 := by
  rw [startFrame_rc]
  refine rechargeDraw_zero fun j x hx => ?_
  rw [startFrame_members] at hx
  split at hx
  · exact (Option.some.inj hx).symm
  · cases hx

/-- In a shortfall the candidate is 0, a running frame has a pool of 0, and one that ran on a pool above 0
restarts at once and draws nothing (R141, R144). -/
theorem poolUpdate_short (h : r.acct.shortfall = true) :
    (poolUpdate e r).rech.candidate = 0 ∧
    (r.rech.frame ≠ none → (poolUpdate e r).rech.pool = 0) ∧
    (r.rech.frame ≠ none → 0 < r.rech.pool →
      (poolUpdate e r).rech.frame = some ⟨e.now, 1⟩ ∧ (poolUpdate e r).acct.rc = 0) := by
  by_cases runs : r.rech.frame ≠ none ∧ 0 < r.rech.pool
  · obtain ⟨hf, hp⟩ := runs
    rw [poolUpdate_restarts h hf hp, startFrame_rech]
    exact ⟨rfl, fun _ => rfl, fun _ _ => ⟨rfl, startFrame_draws_nothing ..⟩⟩
  · rw [poolUpdate_stays h runs]
    exact ⟨rfl, fun hf => Nat.eq_zero_of_not_pos fun hp => runs ⟨hf, hp⟩,
      fun hf hp => absurd ⟨hf, hp⟩ runs⟩

theorem enterShortfall_short (e : Env) (r : Rack) :
    (enterShortfall e r).rech.candidate = 0 ∧
    (r.rech.frame ≠ none → (enterShortfall e r).rech.pool = 0) ∧
    (r.rech.frame ≠ none → 0 < r.rech.pool →
      (enterShortfall e r).rech.frame = some ⟨e.now, 1⟩ ∧ (enterShortfall e r).acct.rc = 0) := by
  obtain ⟨rech, rc⟩ := enterShortfall_recharge e r
  have short := poolUpdate_short (e := e) (r := shortageLogged e r) (by rw [shortageLogged_acct])
  rwa [shortageLogged_rech, ← rech, ← rc] at short

/-! ### The Account's computation and the restore (R51, R60, R89) -/

/-- The Account's figures, held and raised (R49, R51). -/
def figured (e : Env) (r : Rack) : Rack :=
  if (figures e r).redundancy = r.acct.redundancy then holdFigure (figures e r) r
  else raise e .capacity 1 (figures e r).nOn (figures e r).redundancy.code (holdFigure (figures e r) r)

theorem computeAccount_off (h : r.acct.takenUp = false) : computeAccount e r = r :=
  if_neg (Bool.eq_false_iff.mp h)

theorem computeAccount_eq (h : r.acct.takenUp = true) : computeAccount e r =
    if r.acct.a < (figures e r).a ∧ (evaluateShortfall e (figured e r)).grid.state = .normal ∧
        e.cfg.locked = true then
      capacityRestored e (evaluateShortfall e (figured e r))
    else evaluateShortfall e (figured e r) := if_pos h

theorem capacityRestored_off (h : e.param 13 = 0) :
    capacityRestored e r = raise e .capacity 5 r.acct.nOn r.acct.a r :=
  if_neg fun auto => (autoRestore_iff e).mp auto h

theorem capacityRestored_on (h : e.param 13 ≠ 0) :
    capacityRestored e r = restore e (raise e .capacity 5 r.acct.nOn r.acct.a r) :=
  if_pos ((autoRestore_iff e).mpr h)

/-- A restore takes each slot as it stands (R89). -/
theorem restore_slot (e : Env) (r : Rack) (n : Fin 48) : (restore e r).slots[n] =
    if (r.slots[n]).state = .shed ∧ e.slotZoneOpen n = true then (r.slots[n]).enter e.now .queued .queued
    else r.slots[n] := by
  obtain ⟨u, same, turn⟩ := forEach_each (f := restoreSlot e) (fun n (r : Rack) => r.slots[n])
    (fun i j r hij => restoreSlot_kept (.inr (Ne.symm hij))) n r
  refine turn.trans ?_
  rw [← same]
  unfold restoreSlot
  split
  · exact enter_self ..
  · rfl

end Sys2Proof.Machine

section
open Sys2Proof Sys2Proof.Machine

/-- Settles O47: the sorted candidates are taken from the front, the shortfall test has four outcomes,
and a rise of A restores. -/
theorem shedSelection : Obligations.ShedSelection := by
  refine ⟨fun e r => ⟨fun n hn => (candidate_iff ..).mp (selected_candidate hn), selected_nodup e r,
      selected_order e r, fun n hn left m hm => selected_before ((candidate_iff ..).mpr hn) left hm,
      (selected_covers e r).imp id fun all n hn => all n ((candidate_iff ..).mpr hn),
      fun l m h => takeUntil_needs _ h, rfl, fun n => ⟨fun t ht => ?_, fun ht => ?_⟩⟩,
    fun e r => uncovered_follows, fun e r => ⟨fun empty covered => ?_, fun acts => ?_⟩,
    fun e r => ⟨?_, fun hs hh => ?_, fun hs hh => ?_, fun hs hh rises => ?_, fun hs hh covered => ?_,
      fun hs hh => ?_⟩,
    fun e r => ⟨computeAccount_off, fun on => ⟨fun falls => ?_, fun rises off => ?_, fun rises auto => ?_⟩,
      fun n => ⟨fun shed zone => ?_, fun stays => ?_⟩⟩⟩
  · unfold grantAge
    rw [ht]
    rfl
  · unfold grantAge
    rw [ht]
    rfl
  · exact (shedSelection_eq e r).trans (if_pos ⟨empty, covered⟩)
  · exact (shedSelection_eq e r).trans
      (if_neg fun ⟨empty, covered⟩ => acts.elim (absurd empty) (absurd covered))
  · rw [evaluateShortfall_flag]
    exact shortfallHolds_iff e r
  · exact evaluateShortfall_idle hs (hh ∘ (shortfallHolds_iff e r).mp)
  · have enters := evaluateShortfall_enters hs ((shortfallHolds_iff e r).mpr hh)
    dsimp only
    rw [enters]
    exact ⟨enterShortfall_eq e r, enterShortfall_short e r⟩
  · exact (evaluateShortfall_follows hs ((shortfallHolds_iff e r).mpr hh)).trans (if_pos rises)
  · exact (evaluateShortfall_follows hs ((shortfallHolds_iff e r).mpr hh)).trans
      (if_neg (not_lt.mpr covered))
  · exact (evaluateShortfall_clears hs (hh ∘ (shortfallHolds_iff e r).mp)).trans (clearShortfall_eq e r)
  · exact (computeAccount_eq on).trans (if_neg falls)
  · exact ((computeAccount_eq on).trans (if_pos rises)).trans (capacityRestored_off off)
  · exact ((computeAccount_eq on).trans (if_pos rises)).trans (capacityRestored_on auto)
  · have queued := (restore_slot e r n).trans (if_pos ⟨shed, zone⟩)
    rw [queued]
    exact ⟨rfl, rfl⟩
  · refine (restore_slot e r n).trans (if_neg fun ⟨shed, zone⟩ => stays.elim (absurd shed) fun closed => ?_)
    rw [zone] at closed
    cases closed

end
end

