-- ==== Sys2Proof/Proofs/DrainsKept.lean ====
section
/-! PROOF. What a command's change hands on leaves a slot that drains DRAINING (R58, R73, R111, R114). The layer
under O25. -/

namespace Sys2Proof.Machine

variable {e : Env} {n : Fin 48} {a b c r : Rack}

/-- A slot that drains goes on draining: a block that acts on what it is handed cuts STARTING and ON slots
alone, and a further request amends a drain in progress (R58, R73, R111, R114). -/
structure KeepsDrain (n : Fin 48) (a b : Rack) : Prop where
  drains : (a.slots[n]).state = .draining → (b.slots[n]).state = .draining

theorem KeepsDrain.of_slots (h : b.slots = a.slots) : KeepsDrain n a b := ⟨fun k => by rw [h]; exact k⟩

theorem KeepsDrain.refl (r : Rack) : KeepsDrain n r r := ⟨id⟩

theorem KeepsDrain.trans (h : KeepsDrain n a b) (k : KeepsDrain n b c) : KeepsDrain n a c :=
  ⟨k.drains ∘ h.drains⟩

theorem KeepsDrain.ite {p : Prop} [Decidable p] (h : KeepsDrain n a b) (k : KeepsDrain n a c) :
    KeepsDrain n a (if p then b else c) := by
  split <;> assumption

theorem forEach_keepsDrain {α : Type} {f : α → Rack → Rack} (h : ∀ x r, KeepsDrain n r (f x r)) :
    ∀ (xs : List α) (r : Rack), KeepsDrain n r (forEach f xs r)
  | [], r => .refl r
  | x :: xs, r => (h x r).trans (forEach_keepsDrain h xs (f x r))

/-! ### Drain requests and selections (R58, R73) -/

theorem amendDrain_state (e : Env) (n m : Fin 48) (q : DrainRequest) (r : Rack) :
    ((amendDrain e m q r).slots[n]).state = (r.slots[n]).state := by
  by_cases h : m = n
  · subst h
    unfold amendDrain
    split
    · dsimp only
      split
      · rfl
      · rw [holdDrain_self]
    · rfl
  · rw [amendDrain_other h]

theorem drain_keepsDrain (q : DrainRequest) (m : Fin 48) (r : Rack) : KeepsDrain n r (drain e q m r) := by
  refine ⟨fun h => ?_⟩
  by_cases hm : m = n
  · subst hm
    unfold drain drainWith
    rw [h]
    exact (amendDrain_state ..).trans h
  · rw [drain_other q hm]
    exact h

theorem drainAll_keepsDrain (q : DrainRequest) (pick : Fin 48 → SlotRec → Bool) (r : Rack) :
    KeepsDrain n r (drainAll e q pick r) :=
  forEach_keepsDrain (fun m r => .ite (drain_keepsDrain q m r) (.refl r)) _ r

theorem shedSelection_keepsDrain (r : Rack) : KeepsDrain n r (shedSelection e r) := by
  have shed : KeepsDrain n r (forEach (drain e .shed) (selected e r) r) :=
    forEach_keepsDrain (drain_keepsDrain .shed) _ r
  have recorded : KeepsDrain n r { forEach (drain e .shed) (selected e r) r with
      acct.recorded := uncovered e (forEach (drain e .shed) (selected e r) r) } :=
    shed.trans (.of_slots rfl)
  rw [shedSelection_eq]
  exact .ite recorded (recorded.trans (.of_slots (raise_slots ..)))

theorem shortageLogged_slots (e : Env) (r : Rack) : (shortageLogged e r).slots = r.slots := logFault_slots ..

theorem evaluateShortfall_keepsDrain (r : Rack) : KeepsDrain n r (evaluateShortfall e r) := by
  have enters : KeepsDrain n r (enterShortfall e r) := by
    obtain ⟨-, -, slots, -⟩ := poolUpdate_keepsAccount e (shortageLogged e r)
    rw [enterShortfall_eq]
    have before : KeepsDrain n r (poolUpdate e (shortageLogged e r)) :=
      .of_slots (slots.trans (shortageLogged_slots e r))
    exact (before.trans (.of_slots (raise_slots ..))).trans (shedSelection_keepsDrain _)
  unfold evaluateShortfall followDeficit
  exact .ite (.ite (.ite (shedSelection_keepsDrain r) (.of_slots rfl)) (.of_slots rfl))
    (.ite enters (.refl r))

/-! ### The Controller (R110 to R116, R130 to R134) -/

theorem enterDark_keepsDrain (r : Rack) : KeepsDrain n r (enterDark e r) :=
  .of_slots (enterDark_figure Rack.slots (fun _ _ => rfl) r)

theorem enterQualify_keepsDrain (r : Rack) : KeepsDrain n r (enterQualify e r) :=
  .of_slots (enterQualify_figure Rack.slots (fun _ _ => rfl) r)

theorem enterDrain_keepsDrain (r : Rack) : KeepsDrain n r (enterDrain e r) := by
  refine ⟨fun h => ?_⟩
  rw [enterDrain_slot, h]
  exact (drain_keepsDrain .rackDrain n r).drains h

theorem actOnHold_keepsDrain (r : Rack) : KeepsDrain n r (actOnHold e r) := by
  have level : KeepsDrain n r (levelTaken e r) := .of_slots (levelTaken_slots e r)
  unfold actOnHold
  exact .ite (.ite (level.trans (enterDrain_keepsDrain _)) (level.trans (drainAll_keepsDrain ..)))
    (.refl r)

theorem evaluateHold_keepsDrain (r : Rack) : KeepsDrain n r (evaluateHold e r) := by
  have figured : KeepsDrain n r (evaluateFigures e { r with todo.hold := false }) :=
    .of_slots (evaluateFigures_slots ..)
  rw [evaluateHold_eq]
  exact figured.trans (actOnHold_keepsDrain _)

theorem abortActive_slots (e : Env) (r : Rack) : (abortActive e r).slots = r.slots := by
  unfold abortActive
  split <;> rfl

theorem stopRecharge_slots (e : Env) (r : Rack) : (stopRecharge e r).slots = r.slots := by
  have reported (v : Nat) (r : Rack) : (reportRc v r).slots = r.slots := by
    unfold reportRc
    split <;> rfl
  rw [stopRecharge_eq, reported, offerStops_figure Rack.slots fun _ _ _ => rfl]

theorem beginEvent_keepsDrain (r : Rack) : KeepsDrain n r (beginEvent e r) := by
  have moved : KeepsDrain n r (moveGrid e (r.grid.begin e.now) 0 { r with hold.shortLogged := false }) :=
    .of_slots (moveGrid_slots ..)
  have begun : KeepsDrain n r (eventBegins e r) :=
    (moved.trans (evaluateShortfall_keepsDrain _)).trans
      (.of_slots ((abortActive_slots ..).trans (stopRecharge_slots ..)))
  rw [beginEvent_eq]
  exact begun.trans (evaluateHold_keepsDrain _)

theorem bounce_keepsDrain (r : Rack) : KeepsDrain n r (bounce e r) := by
  unfold bounce
  exact (KeepsDrain.of_slots (moveGrid_slots ..)).trans (evaluateHold_keepsDrain _)

theorem evaluateGrid_keepsDrain (r : Rack) : KeepsDrain n r (evaluateGrid e r) := by
  unfold evaluateGrid
  split
  · exact .ite (beginEvent_keepsDrain r) (.refl r)
  · exact .ite (enterQualify_keepsDrain r) (.refl r)
  · exact .ite (.ite (bounce_keepsDrain r) (beginEvent_keepsDrain r)) (.refl r)
  · exact .ite (enterQualify_keepsDrain r) (.refl r)
  · exact .refl r
  · exact .refl r

/-! ### The Check Scheduler (R149 to R152) -/

theorem postpone_slots (e : Env) (j : Fin 12) (reason : Nat) (r : Rack) :
    (postpone e j reason r).slots = r.slots := by
  unfold postpone
  dsimp only
  split
  · rw [evaluateFigures_slots, logFault_slots]
    rfl
  · rfl

theorem memberLeave_slots (e : Env) (j : Fin 12) (r : Rack) : (memberLeave e j r).slots = r.slots := by
  unfold memberLeave
  split
  · obtain ⟨-, -, slots, -⟩ := followRc_keepsAccount
      (sendSetpoint e j 0 { r with rech.members := put r.rech.members j none })
    exact slots
  · rfl

theorem startCheck_slots (e : Env) (j : Fin 12) (r : Rack) : (startCheck e j r).slots = r.slots := by
  have left : (memberLeave e j (setPhase j .requested none r)).slots = r.slots := memberLeave_slots ..
  unfold startCheck notTaken
  dsimp only
  split
  · exact left
  · rw [postpone_slots]
    exact left

theorem evaluateChecks_slots (e : Env) (pick : Fin 12 → Bool) (r : Rack) :
    (evaluateChecks e pick r).slots = r.slots := by
  refine forEach_figure Rack.slots (fun j r => ?_) _ r
  unfold evaluateCheck
  split
  · split
    · split
      · exact startCheck_slots ..
      · exact postpone_slots ..
    · rfl
  · rfl

/-! ### What a command's change hands on (R51, R65, R130, R137) -/

theorem passBlocks_keepsDrain (r : Rack) : KeepsDrain n r (passBlocks e r) := by
  have grid (r : Rack) : KeepsDrain n r (gridTurn e r) :=
    .ite (.trans (b := { r with todo.grid := false }) (.of_slots rfl) (evaluateGrid_keepsDrain _))
      (.refl r)
  have dark (r : Rack) : KeepsDrain n r (darkTurn e r) := .ite (enterDark_keepsDrain r) (.refl r)
  have account (r : Rack) : KeepsDrain n r (accountTurn e r) :=
    .ite (.trans (b := { r with todo.account := false }) (.of_slots rfl)
      (evaluateShortfall_keepsDrain _)) (.refl r)
  have pool (r : Rack) : KeepsDrain n r (poolTurn e r) := by
    obtain ⟨-, -, slots, -⟩ := poolUpdate_keepsAccount e { r with todo.pool := false }
    exact .ite (.of_slots slots) (.refl r)
  have hold (r : Rack) : KeepsDrain n r (holdTurn e r) := .ite (evaluateHold_keepsDrain r) (.refl r)
  have checks (r : Rack) : KeepsDrain n r (checksTurn e r) :=
    .ite (.refl r) (.of_slots (evaluateChecks_slots ..))
  rw [passBlocks_eq]
  exact (grid r).trans ((dark _).trans ((account _).trans ((pool _).trans
    ((hold _).trans (checks _)))))

theorem handOnFor_keepsDrain : ∀ (k : Nat) (r : Rack), KeepsDrain n r (handOnFor e k r)
  | 0, r => .refl r
  | k + 1, r => .ite (.refl r) ((passBlocks_keepsDrain r).trans (handOnFor_keepsDrain k _))

/-- What a change of one slot hands on leaves a slot that drains DRAINING. -/
theorem handOn_keepsDrain (r : Rack) : KeepsDrain n r (handOn e r) := handOnFor_keepsDrain _ r

end Sys2Proof.Machine
end

