-- ==== Sys2Proof/Proofs/DrainsAndCuts.lean ====
section
/-! PROOF. Drain requests by the slot's state, drains that begin, are amended and end, and cuts (O25). -/

namespace Sys2Proof.Machine

variable {e : Env} {n m : Fin 48} {q : DrainRequest} {d : Drain} {c : Cause} {r : Rack}
variable {between : Rack → Rack}

/-! ### A drain request by the slot's state (R70, R71, R73, R75) -/

/-- An ON slot has entered DRAINING for a request (R70). -/
def drainEntered (e : Env) (q : DrainRequest) (n : Fin 48) (r : Rack) : Rack :=
  changeRecord e n { (r.slots[n]).enter e.now .draining q.cause with
    drain := some ⟨q.target, ⟨e.now, drainLength e n q⟩⟩ } r

/-- Why a drain ends at once, PARKED judged first (R70; log entry 21). -/
def SlotRec.endCause (x : SlotRec) : Cause := if x.parked = true then .parked else .drainDeadline

theorem drainWith_on (h : (r.slots[n]).state = .on) :
    drainWith e between q n r = beginDrain e between n q r := by
  unfold drainWith
  rw [h]

theorem drainWith_starting (h : (r.slots[n]).state = .starting) :
    drainWith e between q n r = enter e n q.target.state q.cause r := by
  unfold drainWith
  rw [h]

theorem drainWith_draining (h : (r.slots[n]).state = .draining) :
    drainWith e between q n r = amendDrain e n q r := by
  unfold drainWith
  rw [h]

theorem drainWith_leak {left : Nat} (h : (r.slots[n]).state = .queued ∨ (r.slots[n]).state = .shed) :
    drainWith e between (.leak left) n r = enter e n .isolated .leakMove r := by
  unfold drainWith
  rcases h with h | h <;> rw [h]

/-- A slot that waits takes no drain request but a leak's (R75). -/
theorem drainWith_waiting (h : (r.slots[n]).state = .queued ∨ (r.slots[n]).state = .shed)
    (hq : ∀ left, q ≠ .leak left) : drainWith e between q n r = r := by
  unfold drainWith
  cases q with
  | leak left => exact absurd rfl (hq left)
  | off | shed | rackDrain => rcases h with h | h <;> rw [h]

/-- A slot at rest takes no drain request. -/
theorem drainWith_rest (h : (r.slots[n]).state = .off ∨ (r.slots[n]).state = .disabled ∨
    (r.slots[n]).state = .isolated ∨ (r.slots[n]).state = .faulted) :
    drainWith e between q n r = r := by
  unfold drainWith
  rcases h with h | h | h | h <;> rw [h]

/-- What is handed on between its entry and its end matters to an ON slot alone. -/
theorem drainWith_between (h : (r.slots[n]).state ≠ .on) :
    drainWith e between q n r = drain e q n r := by
  unfold drain drainWith
  split
  · exact absurd ‹_› h
  all_goals rfl

/-! ### A drain that begins (R70) -/

theorem drainEntered_self (e : Env) (q : DrainRequest) (n : Fin 48) (r : Rack) :
    (drainEntered e q n r).slots[n] = { (r.slots[n]).enter e.now .draining q.cause with
      drain := some ⟨q.target, ⟨e.now, drainLength e n q⟩⟩ } := changeRecord_self ..

theorem drainWith_begins (h : (r.slots[n]).state = .on) (hp : (r.slots[n]).parked = false)
    (hl : drainLength e n q ≠ 0) : drainWith e between q n r = drainEntered e q n r :=
  (drainWith_on h).trans ((if_neg (Bool.eq_false_iff.mp hp)).trans (if_neg hl))

/-- A drain that begins with PARKED high, or with a length of 0, ends at once (R70). -/
theorem drainWith_ends (h : (r.slots[n]).state = .on)
    (ends : (r.slots[n]).parked = true ∨ drainLength e n q = 0) : drainWith e between q n r =
      endDrain e n (r.slots[n]).endCause (between (drainEntered e q n r)) := by
  rw [drainWith_on h]
  unfold SlotRec.endCause
  by_cases hp : (r.slots[n]).parked = true
  · rw [if_pos hp]
    exact if_pos hp
  · rw [if_neg hp]
    exact (if_neg hp).trans (if_pos (ends.resolve_left hp))

theorem drain_ends (h : (r.slots[n]).state = .on)
    (ends : (r.slots[n]).parked = true ∨ drainLength e n q = 0) : drain e q n r =
      enter e n q.target.state (r.slots[n]).endCause (drainEntered e q n r) := by
  have entered := drainEntered_self e q n r
  have drains : ((drainEntered e q n r).slots[n]).state = .draining := by rw [entered]; rfl
  exact (drainWith_ends h ends).trans (endDrain_of drains (by rw [entered]))

/-- The record of a slot that enters a drain target (R63, R72). -/
theorem SlotRec.enter_target (x : SlotRec) (now : Time) (t : DrainTarget) (c : Cause) :
    (x.enter now t.state c).state = t.state ∧ (x.enter now t.state c).permit = false ∧
    (x.enter now t.state c).warn = false ∧ (x.enter now t.state c).cause = c := by
  cases t <;> exact ⟨rfl, rfl, rfl, rfl⟩

theorem drain_ends_slot (h : (r.slots[n]).state = .on)
    (ends : (r.slots[n]).parked = true ∨ drainLength e n q = 0) :
    ((drain e q n r).slots[n]).state = q.target.state ∧ ((drain e q n r).slots[n]).permit = false ∧
    ((drain e q n r).slots[n]).warn = false ∧
    ((drain e q n r).slots[n]).cause = (r.slots[n]).endCause := by
  rw [drain_ends h ends, enter_self]
  exact SlotRec.enter_target ..

/-- After what its entry hands on the slot drains still, and its end takes it off (R65, R72). -/
theorem drainInTurn_ends (h : (r.slots[n]).state = .on)
    (ends : (r.slots[n]).parked = true ∨ drainLength e n q = 0) :
    ((drainInTurn e q n r).slots[n]).permit = false ∧
    ((drainInTurn e q n r).slots[n]).cause = (r.slots[n]).endCause := by
  have entered := drainEntered_self e q n r
  have drains : ((handOn e (drainEntered e q n r)).slots[n]).state = .draining :=
    (handOn_keepsDrain _).drains (by rw [entered]; rfl)
  have formed := (handOn_reach (g := True) e (drainEntered e q n r)).formed n
    (by rw [entered]; exact ⟨rfl, rfl, rfl, rfl, rfl⟩)
  obtain ⟨d, hd⟩ : ∃ d, ((handOn e (drainEntered e q n r)).slots[n]).drain = some d :=
    Option.isSome_iff_exists.mp (by rw [formed.drain, drains]; rfl)
  obtain ⟨-, permit, -, cause⟩ := SlotRec.enter_target
    (handOn e (drainEntered e q n r)).slots[n] e.now d.target (r.slots[n]).endCause
  rw [drainInTurn, drainWith_ends h ends, endDrain_of drains hd, enter_self]
  exact ⟨permit, cause⟩

/-- A STARTING slot goes to the target at once (R71). -/
theorem drain_starting (h : (r.slots[n]).state = .starting) :
    ((drain e q n r).slots[n]).state = q.target.state ∧ ((drain e q n r).slots[n]).permit = false ∧
    ((drain e q n r).slots[n]).offSince = e.now ∧ ((drain e q n r).slots[n]).cause = q.cause := by
  obtain ⟨state, permit, -, cause⟩ := (r.slots[n]).enter_target e.now q.target q.cause
  rw [drain, drainWith_starting h, enter_self]
  refine ⟨state, permit, if_pos ?_, cause⟩
  rw [h, target_unpowered]
  rfl

/-! ### A drain amended (R58, R65, R73) -/

theorem amendDrain_same (hd : (r.slots[n]).drain = some d)
    (same : d.amend e.now q.target (drainLength e n q) = d) : amendDrain e n q r = r := by
  unfold amendDrain
  rw [hd]
  exact if_pos same

theorem amendDrain_changed (hd : (r.slots[n]).drain = some d)
    (changed : d.amend e.now q.target (drainLength e n q) ≠ d) :
    amendDrain e n q r = holdDrain e n (d.amend e.now q.target (drainLength e n q)) r := by
  unfold amendDrain
  rw [hd]
  exact if_neg changed

theorem amendDrain_self (hd : (r.slots[n]).drain = some d) : (amendDrain e n q r).slots[n] =
    { r.slots[n] with drain := some (d.amend e.now q.target (drainLength e n q)) } := by
  by_cases same : d.amend e.now q.target (drainLength e n q) = d
  · rw [amendDrain_same hd same, same, ← hd]
  · rw [amendDrain_changed hd same, holdDrain_self]

/-- A drain held as changed: the shed relief follows the slots, DRAIN_CHANGED is raised and the Account
takes it (R58, R65). -/
theorem holdDrain_eq (e : Env) (n : Fin 48) (d : Drain) (r : Rack) : holdDrain e n d r = { r with
    slots := put r.slots n { r.slots[n] with drain := some d }
    acct := { r.acct with relief := total 48 fun m =>
      if ((holdDrain e n d r).slots[m]).state = .draining ∧
          ((holdDrain e n d r).slots[m]).drain.map Drain.target = some .shed then
        (e.profile m).peakW
      else 0 }
    notif := r.notif.offer ⟨.slot, 2, n.val, e.now, d.target.code⟩
    todo := { r.todo with account := true } } := by
  have slots := holdDrain_slots e n d r
  rw [slots, ← shedRelief_eq]
  rfl

/-! ### Ends and cuts (R72, R74, R75) -/

theorem endDrain_stays (h : (r.slots[n]).state ≠ .draining) : endDrain e n c r = r := by
  unfold endDrain
  split
  · exact absurd ‹_› h
  · rfl

theorem leakCut_cuts
    (h : (r.slots[n]).state ∈ [SlotState.starting, .on, .draining, .queued, .shed]) :
    leakCut e n r = enter e n .isolated .leakMove r := by
  unfold leakCut
  simp only [List.mem_cons, List.not_mem_nil, or_false] at h
  rcases h with h | h | h | h | h <;> rw [h]

theorem leakCut_leaves
    (h : (r.slots[n]).state ∈ [SlotState.disabled, .off, .isolated, .faulted]) : leakCut e n r = r := by
  unfold leakCut
  simp only [List.mem_cons, List.not_mem_nil, or_false] at h
  rcases h with h | h | h | h <;> rw [h]

theorem leakCut_other (h : n ≠ m) : (leakCut e n r).slots[m] = r.slots[m] := by
  unfold leakCut
  cases (r.slots[n]).state with
  | starting | on | draining | queued | shed => exact enter_other _ _ _ _ _ _ h
  | disabled | off | isolated | faulted => rfl

/-- A SLOT_CUT lowers no drain target: it takes a slot to OFF but for one that drains to ISOLATED (R74). -/
theorem cutState_off {x : SlotRec} (h : x.state ≠ .draining ∨
    ∀ d : Drain, x.drain = some d → d.target ≠ .isolated) : x.cutState = .off := by
  unfold SlotRec.cutState
  split
  · rename_i d hs hd
    exact if_neg (h.elim (absurd hs) fun k => k d hd)
  · rfl

theorem cutState_isolated {x : SlotRec} (hs : x.state = .draining) (hd : x.drain = some d)
    (ht : d.target = .isolated) : x.cutState = .isolated := by
  unfold SlotRec.cutState
  rw [hs, hd]
  exact if_pos ht

end Sys2Proof.Machine

section
open Sys2Proof Sys2Proof.Machine

/-- Settles O25: the request by the slot's state, the drain it begins or amends, and the ends and cuts. -/
theorem drainsAndCuts : Obligations.DrainsAndCuts := by
  refine ⟨fun e n q r => ⟨fun m hm => drain_other q (Ne.symm hm), fun hs hp hl => ?_,
      fun hs hp => ?_, fun hs hp hl => ?_, drain_starting, fun d hs hd => ⟨?_, fun same => ?_,
      fun changed => ?_⟩, fun left hq hs => ?_, fun hs hq => drainWith_waiting hs hq, drainWith_rest,
      fun goes => ?_, fun ⟨hs, ends⟩ => ⟨drain_ends hs ends, drainWith_ends hs ends,
      drainInTurn_ends hs ends⟩⟩,
    fun e n c r => ⟨fun d hs hd => endDrain_of hs hd, endDrain_stays⟩,
    fun e n r => ⟨fun h => ?_, leakCut_leaves, fun m hm => leakCut_other (Ne.symm hm), cutState_off,
      fun d hs hd ht => cutState_isolated hs hd ht⟩⟩
  · rw [drain, drainWith_begins hs hp hl, drainEntered_self]
    exact ⟨rfl, rfl, rfl, rfl, rfl⟩
  · obtain ⟨state, permit, warn, cause⟩ := drain_ends_slot (e := e) (q := q) hs (.inl hp)
    exact ⟨state, permit, warn, cause.trans (if_pos hp)⟩
  · obtain ⟨state, permit, warn, cause⟩ := drain_ends_slot (e := e) (q := q) hs (.inr hl)
    exact ⟨state, permit, warn, cause.trans (if_neg (Bool.eq_false_iff.mp hp))⟩
  · exact (congrArg (fun x : Rack => x.slots[n]) (drainWith_draining hs)).trans (amendDrain_self hd)
  · exact (drainWith_draining hs).trans (amendDrain_same hd same)
  · have held : drain e q n r = _ := (drainWith_draining hs).trans (amendDrain_changed hd changed)
    dsimp only
    rw [held]
    exact holdDrain_eq ..
  · subst hq
    rw [drain, drainWith_leak hs, enter_self]
    exact ⟨rfl, rfl⟩
  · by_cases hs : (r.slots[n]).state = .on
    · obtain ⟨hp, hl⟩ := not_or.mp fun k => goes ⟨hs, k⟩
      have parked : (r.slots[n]).parked = false := Bool.eq_false_iff.mpr hp
      exact (drainWith_begins hs parked hl).trans (drainWith_begins hs parked hl).symm
    · exact drainWith_between hs
  · rw [leakCut_cuts h, enter_self]
    exact ⟨rfl, rfl, rfl, fun on => if_pos (by rw [on]; rfl)⟩

end
end

