-- ==== Sys2Proof/Proofs/SlotRequestTable.lean ====
section
/-! PROOF. What a slot list request answers (O26), and what each of the four does to one slot (O28). -/

namespace Sys2Proof.Machine

/-! ### The reply (R80, R190) -/

theorem slotListFits_true {p : List Byte} (h : 1 ≤ p.length) (k : p.length ≤ 48) :
    slotListFits p = true := by
  unfold slotListFits
  rw [decide_eq_true h, decide_eq_true k]
  rfl

theorem Tally.code_eq (t : Tally) : t.code = if t.refused = [] then codeOk else codeRefusedState :=
  if_congr List.isEmpty_iff rfl rfl

/-- A request whose rule is a slot list answers with the tally of its run (R80). -/
theorem serve_slotList {s : State} {kind tag : Byte} {p : List Byte} {body : State → Answer}
    (f : SlotRule) (h : Ready s kind tag p) (hp : slotListFits p = true)
    (hb : body s.take = slotList f p s.take) :
    s.serve false kind tag p body =
      (let x := f.run s.env p ⟨0, 0, []⟩ s.rack
       ({ s.take with rack := x.2 } : State).reply kind tag
         ((if x.1.refused = [] then codeOk else codeRefusedState) :: x.1.figures)).conclude := by
  rw [State.serve_ready h, hb, slotList, if_pos hp]
  dsimp only [State.answer]
  rw [Tally.code_eq]
  rfl

/-! ### One index (R80) -/

namespace SlotRule

variable {f : SlotRule} {e : Env} {r : Rack} {n : Fin 48} {b : Byte}

theorem run_one (f : SlotRule) (e : Env) (b : Byte) (r : Rack) :
    f.run e [b] ⟨0, 0, []⟩ r = ((⟨0, 0, []⟩ : Tally).add b (f.judge e r b), f.handle e b r) := rfl

theorem judge_inside (hc : e.commissioned = true) (hn : n.val < e.cfg.record.rack.slotCount) :
    f.judge e r (BitVec.ofNat 8 n.val) = f.result e r n := by
  have index : (BitVec.ofNat 8 n.val).toNat = n.val := toNat_u8 (by omega)
  unfold judge
  simp only [hc, index, n.isLt, hn, Bool.not_true, Bool.false_eq_true, if_false, dif_pos, if_true]

theorem judge_bad (hc : e.commissioned = true) (hb : 48 ≤ b.toNat) :
    f.judge e r b = .refused codeBadIndex := by
  unfold judge
  rw [hc, if_neg (by decide), dif_neg (by omega)]

theorem judge_outside (hc : e.commissioned = true) (hb : b.toNat < 48)
    (hn : e.cfg.record.rack.slotCount ≤ b.toNat) : f.judge e r b = .unchanged := by
  unfold judge
  rw [hc, if_neg (by decide), dif_pos hb, if_neg (by omega)]

theorem run_one_accepted (hc : e.commissioned = true) (hn : n.val < e.cfg.record.rack.slotCount)
    (h : f.result e r n = .accepted) :
    f.run e [BitVec.ofNat 8 n.val] ⟨0, 0, []⟩ r = (⟨1, 0, []⟩, handOn e (f.effect e n r)) := by
  have judged : f.judge e r (BitVec.ofNat 8 n.val) = .accepted := (judge_inside hc hn).trans h
  have index : (BitVec.ofNat 8 n.val).toNat = n.val := toNat_u8 (by omega)
  rw [run_one, judged, handle, if_pos judged]
  simp only [index, n.isLt, dif_pos]
  rfl

theorem run_one_unchanged (h : f.judge e r b = .unchanged) :
    f.run e [b] ⟨0, 0, []⟩ r = (⟨0, 1, []⟩, r) := by
  rw [run_one, h, handle_eq f e (by rw [h]; decide)]
  rfl

theorem run_one_refused {why : Byte} (h : f.judge e r b = .refused why) :
    f.run e [b] ⟨0, 0, []⟩ r = (⟨0, 0, [(b, why)]⟩, r) := by
  rw [run_one, h, handle_eq f e (by rw [h]; exact SlotResult.noConfusion)]
  rfl

end SlotRule

/-! ### How each request counts a slot (R77, R78, R79, R87) -/

variable {e : Env} {r : Rack} {n : Fin 48}

theorem slotOn_open (h : (r.slots[n]).state = .off ∨ (r.slots[n]).state = .shed)
    (hz : e.slotZoneOpen n = true) : slotOnRule.result e r n = .accepted := by
  rcases h with h | h <;> simp only [slotOnRule, slotOnResult, h, hz, if_true]

theorem slotOn_closed (h : (r.slots[n]).state = .off ∨ (r.slots[n]).state = .shed)
    (hz : e.slotZoneOpen n = false) : slotOnRule.result e r n = .refused codeRefusedState := by
  rcases h with h | h <;>
    simp only [slotOnRule, slotOnResult, h, hz, Bool.false_eq_true, if_false]

theorem slotOn_stays (h : (r.slots[n]).state ∈ [SlotState.queued, .starting, .on]) :
    slotOnRule.result e r n = .unchanged := by
  simp only [List.mem_cons, List.not_mem_nil, or_false] at h
  rcases h with h | h | h <;> simp only [slotOnRule, slotOnResult, h]

theorem slotOn_refused (h : (r.slots[n]).state ∈ [SlotState.draining, .disabled, .faulted, .isolated]) :
    slotOnRule.result e r n = .refused codeRefusedState := by
  simp only [List.mem_cons, List.not_mem_nil, or_false] at h
  rcases h with h | h | h | h <;> simp only [slotOnRule, slotOnResult, h]

/-- SLOT_OFF accepts a slot that waits, stands SHED, or starts or is ON (R77). -/
theorem slotOff_takes (h : (r.slots[n]).state ∈ [SlotState.queued, .shed, .starting, .on]) :
    slotOffRule.result e r n = .accepted := by
  simp only [List.mem_cons, List.not_mem_nil, or_false] at h
  rcases h with h | h | h | h <;> simp only [slotOffRule, slotOffResult, h]

theorem slotOff_stays (h : (r.slots[n]).state ∈ [SlotState.off, .disabled, .faulted, .isolated]) :
    slotOffRule.result e r n = .unchanged := by
  simp only [List.mem_cons, List.not_mem_nil, or_false] at h
  rcases h with h | h | h | h <;> simp only [slotOffRule, slotOffResult, h]

/-- A drain held as changed is another rack. -/
theorem holdDrain_ne {d d' : Drain} (hd : (r.slots[n]).drain = some d) (hne : d' ≠ d) :
    holdDrain e n d' r ≠ r := by
  intro same
  have drained : ((holdDrain e n d' r).slots[n]).drain = some d' := by rw [holdDrain_self]
  rw [same, hd] at drained
  exact hne (Option.some.inj drained).symm

/-- SLOT_OFF counts a slot that drains by whether the request amends its drain (R73, R77). -/
theorem slotOff_draining (h : (r.slots[n]).state = .draining) :
    slotOffRule.result e r n = if drain e .off n r = r then .unchanged else .accepted := by
  have amends : drain e .off n r = amendDrain e n .off r := drainWith_draining h
  rw [amends]
  cases hd : (r.slots[n]).drain with
  | none =>
    have none : amendDrain e n .off r = r := by simp only [amendDrain, hd]
    rw [if_pos none]
    simp only [slotOffRule, slotOffResult, h, hd]
  | some d =>
    simp only [slotOffRule, slotOffResult, h, hd]
    by_cases same : offAmended e n d = d
    · rw [if_pos same, if_pos (amendDrain_same hd same)]
    · rw [if_neg same, if_neg]
      rw [amendDrain_changed hd same]
      exact holdDrain_ne hd same

theorem slotCut_takes (h : (r.slots[n]).state ∈ [SlotState.starting, .on, .draining, .queued, .shed]) :
    slotCutRule.result e r n = .accepted := by
  simp only [List.mem_cons, List.not_mem_nil, or_false] at h
  rcases h with h | h | h | h | h <;> simp only [slotCutRule, slotCutResult, h]

theorem slotCut_stays (h : (r.slots[n]).state ∈ [SlotState.off, .disabled, .faulted, .isolated]) :
    slotCutRule.result e r n = .unchanged := by
  simp only [List.mem_cons, List.not_mem_nil, or_false] at h
  rcases h with h | h | h | h <;> simp only [slotCutRule, slotCutResult, h]

theorem slotClear_refused (h : (r.slots[n]).state = .faulted) (hg : (r.slots[n]).good = true) :
    slotClearRule.result e r n = .refused reasonGoodHigh := by
  simp only [slotClearRule, slotClearResult, h, hg, if_true]

theorem slotClear_takes (h : (r.slots[n]).state = .faulted) (hg : (r.slots[n]).good = false) :
    slotClearRule.result e r n = .accepted := by
  simp only [slotClearRule, slotClearResult, h, hg, if_true, Bool.false_eq_true, if_false]

theorem slotClear_stays (h : (r.slots[n]).state ≠ .faulted) : slotClearRule.result e r n = .unchanged :=
  if_neg h

/-! ### What SLOT_OFF does to a slot (R70, R71, R73, R77) -/

theorem slotOff_unpowered (h : (r.slots[n]).state = .queued ∨ (r.slots[n]).state = .shed) :
    slotOffRule.effect e n r = enter e n .off .offRequest r := by
  rcases h with h | h <;> simp only [slotOffRule, slotOff, h]

theorem slotOff_powered (h : (r.slots[n]).state ∈ [SlotState.starting, .on, .draining]) :
    slotOffRule.effect e n r = drainInTurn e .off n r := by
  simp only [List.mem_cons, List.not_mem_nil, or_false] at h
  rcases h with h | h | h <;> simp only [slotOffRule, slotOff, h]

end Sys2Proof.Machine

section
open Sys2Proof Sys2Proof.Machine

/-- Settles O26: each slot list answers with the tally of its run. -/
theorem slotLists : Obligations.SlotLists := by
  intro s tag payload least most
  have fits := slotListFits_true least most
  refine ⟨fun h held => ?_, fun h => ?_, fun h => ?_, fun h => ?_⟩
  · have body : slotOnBody payload s.take = slotList slotOnRule payload s.take := by
      rw [slotOnBody, if_pos fits, show s.take.held = false from held, checked_false]
    exact congrArg _ (serve_slotList slotOnRule h fits body)
  · exact congrArg _ (serve_slotList slotOffRule h fits rfl)
  · exact congrArg _ (serve_slotList slotCutRule h fits rfl)
  · exact congrArg _ (serve_slotList slotClearRule h fits rfl)

/-- Settles O28: how each request counts a slot by its state, and what an accepted one does. -/
theorem slotRequestTable : Obligations.SlotRequestTable := by
  refine ⟨fun e r n hc hn => ?_, fun e r b f hc => ⟨fun hb => SlotRule.run_one_refused
    (SlotRule.judge_bad hc hb), fun hb ho => SlotRule.run_one_unchanged
    (SlotRule.judge_outside hc hb ho)⟩⟩
  have takes {f : SlotRule} (h : f.result e r n = .accepted) :=
    SlotRule.run_one_accepted hc hn h
  have leaves {f : SlotRule} (h : f.result e r n = .unchanged) :=
    SlotRule.run_one_unchanged ((SlotRule.judge_inside hc hn).trans h)
  have refuses {f : SlotRule} {why : Byte} (h : f.result e r n = .refused why) :=
    SlotRule.run_one_refused ((SlotRule.judge_inside hc hn).trans h)
  refine ⟨fun h hz => takes (slotOn_open h hz), fun h hz => refuses (slotOn_closed h hz),
    fun h => leaves (slotOn_stays h), fun h => refuses (slotOn_refused h),
    fun h => ?_, fun h => ?_, fun h same => ?_, fun h amended => ?_,
    fun h => leaves (slotOff_stays h), fun h => takes (slotCut_takes h),
    fun h => leaves (slotCut_stays h), fun h hg => refuses (slotClear_refused h hg),
    fun h hg => takes (slotClear_takes h hg), fun h => leaves (slotClear_stays h)⟩
  · rw [← slotOff_unpowered h]
    exact takes (slotOff_takes (by rcases h with h | h <;> rw [h] <;> decide))
  · rw [← slotOff_powered (by rcases h with h | h <;> rw [h] <;> decide)]
    exact takes (slotOff_takes (by rcases h with h | h <;> rw [h] <;> decide))
  · exact leaves ((slotOff_draining h).trans (if_pos same))
  · have inTurn : drainInTurn e .off n r = drain e .off n r :=
      drainWith_between (by rw [h]; decide)
    rw [← inTurn, ← slotOff_powered (by rw [h]; decide)]
    exact takes ((slotOff_draining h).trans (if_neg amended))

end
end

