-- ==== Sys2Proof/Proofs/SlotInputs.lean ====
section
/-! PROOF. GOOD and PARKED by the slot's state (O30). -/

namespace Sys2Proof.Machine

variable {e : Env} {n : Fin 48} {r : Rack} {s : State}

/-! ### When a level is taken (R64) -/

theorem takes_iff (s : State) (fresh : Nat) (taken new earlier later : Bool) :
    s.takes fresh taken new earlier later = true ↔ s.boot.adopting = false ∧
      s.inputs.sampled = s.now ∧ 2 ≤ fresh ∧ taken ≠ new ∧ earlier = new ∧ later = new := by
  unfold State.takes
  simp only [Bool.and_eq_true, Bool.not_eq_true', beq_iff_eq, decide_eq_true_eq, bne_iff_ne, and_assoc]
  refine and_congr_right fun _ => and_congr_right fun _ => and_congr_right fun _ =>
    and_congr_right fun differs => ?_
  unfold takenLevel
  by_cases same : earlier = later
  · subst same
    rw [if_pos (beq_self_eq_true earlier), and_self_iff]
  · rw [if_neg (by rwa [beq_iff_eq])]
    exact ⟨fun h => absurd h differs, fun ⟨h, k⟩ => absurd (h.trans k.symm) same⟩

variable {earlier later : Bool}

/-- Between samples, and before the adoption, no level is taken (R64, R83). -/
theorem not_takes_now {fresh : Nat} {taken new : Bool}
    (h : s.boot.adopting = true ∨ s.inputs.sampled ≠ s.now) :
    ¬s.takes fresh taken new earlier later = true := by
  rw [takes_iff]
  rintro ⟨adopting, sampled, -⟩
  rcases h with h | h
  · rw [adopting] at h; cases h
  · exact h sampled

/-- One sample, samples that differ from the new level, and the level as taken change nothing (R64). -/
theorem not_takes_level {fresh : Nat} {taken new : Bool}
    (h : fresh < 2 ∨ ¬(earlier = new ∧ later = new) ∨ taken = new) :
    ¬s.takes fresh taken new earlier later = true := by
  rw [takes_iff]
  rintro ⟨-, -, two, differs, before, last⟩
  rcases h with h | h | h
  · omega
  · exact h ⟨before, last⟩
  · exact differs h

theorem exec_goodRising (h : s.takes s.inputs.good[n] (s.rack.slots[n]).good true earlier later = true) :
    exec (.goodRising n earlier later) s =
      .next ((s.sawGood n).onRack fun e r => goodRises e n r).conclude := if_pos h

theorem exec_goodFalling (h : s.takes s.inputs.good[n] (s.rack.slots[n]).good false earlier later = true) :
    exec (.goodFalling n earlier later) s =
      .next ((s.sawGood n).onRack fun e r => goodFalls e n r).conclude := if_pos h

theorem exec_parkedRising
    (h : s.takes s.inputs.parked[n] (s.rack.slots[n]).parked true earlier later = true) :
    exec (.parkedRising n earlier later) s =
      .next ((s.sawParked n).onRack fun e r => parkedRises e n r).conclude := if_pos h

theorem exec_parkedFalling
    (h : s.takes s.inputs.parked[n] (s.rack.slots[n]).parked false earlier later = true) :
    exec (.parkedFalling n earlier later) s =
      .next ((s.sawParked n).onRack fun _ r => setParked n false r).conclude := if_pos h

theorem onRack_congr {f g : Env → Rack → Rack} (h : f s.env s.rack = g s.env s.rack) :
    s.onRack f = s.onRack g := by
  unfold State.onRack
  rw [h]

/-- An event on which no level is taken leaves the part as it is. -/
theorem exec_input_still :
    (¬s.takes s.inputs.good[n] (s.rack.slots[n]).good true earlier later = true →
      exec (.goodRising n earlier later) s = .next s) ∧
    (¬s.takes s.inputs.good[n] (s.rack.slots[n]).good false earlier later = true →
      exec (.goodFalling n earlier later) s = .next s) ∧
    (¬s.takes s.inputs.parked[n] (s.rack.slots[n]).parked true earlier later = true →
      exec (.parkedRising n earlier later) s = .next s) ∧
    (¬s.takes s.inputs.parked[n] (s.rack.slots[n]).parked false earlier later = true →
      exec (.parkedFalling n earlier later) s = .next s) :=
  ⟨fun h => if_neg h, fun h => if_neg h, fun h => if_neg h, fun h => if_neg h⟩

/-! ### The taken level (R64) -/

theorem setGood_self (n : Fin 48) (l : Bool) (r : Rack) :
    (setGood n l r).slots[n] = { r.slots[n] with good := l } := change_self ..

theorem setParked_self (n : Fin 48) (l : Bool) (r : Rack) :
    (setParked n l r).slots[n] = { r.slots[n] with parked := l } := change_self ..

theorem setGood_state (n : Fin 48) (l : Bool) (r : Rack) :
    ((setGood n l r).slots[n]).state = (r.slots[n]).state := by rw [setGood_self]

theorem setGood_drain (n : Fin 48) (l : Bool) (r : Rack) :
    ((setGood n l r).slots[n]).drain = (r.slots[n]).drain := by rw [setGood_self]

theorem setParked_state (n : Fin 48) (l : Bool) (r : Rack) :
    ((setParked n l r).slots[n]).state = (r.slots[n]).state := by rw [setParked_self]

theorem setParked_drain (n : Fin 48) (l : Bool) (r : Rack) :
    ((setParked n l r).slots[n]).drain = (r.slots[n]).drain := by rw [setParked_self]

/-! ### GOOD with PERMIT off (R69) -/

/-- A slot that stands unpowered and enabled becomes FAULTED. -/
theorem unexpectedGood_faults (h : (r.slots[n]).state ∈ [SlotState.off, .shed, .isolated, .queued]) :
    unexpectedGood e n r =
      markFault e n .goodUnexpected .goodUnexpected (enter e n .faulted .goodRising r) := by
  simp only [List.mem_cons, List.not_mem_nil, or_false] at h
  rcases h with h | h | h | h <;> simp only [unexpectedGood, h]

/-- In every other state the fault is logged alone. -/
theorem unexpectedGood_logs (h : (r.slots[n]).state ∉ [SlotState.off, .shed, .isolated, .queued]) :
    unexpectedGood e n r = markFault e n .goodUnexpected .goodUnexpected r := by
  unfold unexpectedGood
  split
  · next hs => exact absurd (by rw [hs]; decide) h
  · next hs => exact absurd (by rw [hs]; decide) h
  · next hs => exact absurd (by rw [hs]; decide) h
  · next hs => exact absurd (by rw [hs]; decide) h
  all_goals rfl

/-! ### GOOD rises (R67, R69, R115) -/

theorem goodRises_starting (h : (r.slots[n]).state = .starting) : goodRises e n r =
    (let t := enter e n .on .goodRising (setGood n true r)
     if r.grid.state = .drain then drainInTurn e .rackDrain n t else t) := by
  have state := (setGood_state n true r).trans h
  have grid : (enter e n .on .goodRising (setGood n true r)).grid.state = r.grid.state :=
    (congrArg Grid.state (changeRecord_grid ..)).trans rfl
  simp only [goodRises, state, joinRackDrain, grid]

theorem goodRises_powered (h : (r.slots[n]).state = .on ∨ (r.slots[n]).state = .draining) :
    goodRises e n r = setGood n true r := by
  rcases h with h | h <;> simp only [goodRises, (setGood_state n true r).trans h]

theorem unpowered_of_waiting {st : SlotState} (h : st ∈ [SlotState.off, .queued, .shed, .isolated]) :
    st.powered = false ∧ st ∈ [SlotState.off, .shed, .isolated, .queued] := by
  revert h
  cases st <;> decide

theorem unpowered_of_barred {st : SlotState} (h : st ∈ [SlotState.disabled, .faulted]) :
    st.powered = false ∧ st ∉ [SlotState.off, .shed, .isolated, .queued] := by
  revert h
  cases st <;> decide

theorem goodRises_unpowered (h : (r.slots[n]).state.powered = false) : goodRises e n r =
    if e.insideRack n = true then unexpectedGood e n (setGood n true r) else setGood n true r := by
  unfold goodRises
  dsimp only
  rw [setGood_state]
  generalize (r.slots[n]).state = st at h ⊢
  cases st <;> first | rfl | cases h

/-! ### GOOD falls, PARKED rises (R68, R72) -/

theorem goodFalls_on (h : (r.slots[n]).state = .on) : goodFalls e n r =
    markFault e n .goodLost .goodLost (enter e n .faulted .goodFalling (setGood n false r)) := by
  simp only [goodFalls, (setGood_state n false r).trans h]

theorem goodFalls_draining {d : Drain} (h : (r.slots[n]).state = .draining)
    (hd : (r.slots[n]).drain = some d) :
    goodFalls e n r = enter e n d.target.state .goodFalling (setGood n false r) := by
  have state := (setGood_state n false r).trans h
  simp only [goodFalls, state]
  exact endDrain_of state ((setGood_drain n false r).trans hd)

theorem goodFalls_other (h : (r.slots[n]).state ≠ .on) (k : (r.slots[n]).state ≠ .draining) :
    goodFalls e n r = setGood n false r := by
  unfold goodFalls
  dsimp only
  rw [setGood_state]
  split
  · next hs => exact absurd hs h
  · next hs => exact absurd hs k
  all_goals rfl

theorem parkedRises_draining {d : Drain} (h : (r.slots[n]).state = .draining)
    (hd : (r.slots[n]).drain = some d) :
    parkedRises e n r = enter e n d.target.state .parked (setParked n true r) := by
  have state := (setParked_state n true r).trans h
  exact (if_pos state).trans (endDrain_of state ((setParked_drain n true r).trans hd))

theorem parkedRises_other (h : (r.slots[n]).state ≠ .draining) :
    parkedRises e n r = setParked n true r := if_neg (by rwa [setParked_state])

end Sys2Proof.Machine

section
open Sys2Proof Sys2Proof.Machine

/-- Settles O30: each input event that is taken, by the slot's state, and when none is. -/
theorem slotInputs : Obligations.SlotInputs := by
  refine ⟨fun s n adopting sampled => ?_, fun s n earlier later => ?_⟩
  · have rises {taken : Bool} {fresh : Nat} (h : taken = false) (k : 2 ≤ fresh) :
        s.takes fresh taken true true true = true :=
      (takes_iff ..).mpr ⟨adopting, sampled, k, by rw [h]; decide, rfl, rfl⟩
    have falls {taken : Bool} {fresh : Nat} (h : taken = true) (k : 2 ≤ fresh) :
        s.takes fresh taken false false false = true :=
      (takes_iff ..).mpr ⟨adopting, sampled, k, by rw [h]; decide, rfl, rfl⟩
    refine ⟨rfl, rfl, fun low fresh => ?_, fun high fresh => ?_, fun low fresh => ?_,
      fun high fresh => exec_parkedFalling (falls high fresh)⟩
    · have goes {f : Env → Rack → Rack} (h : goodRises s.env n s.rack = f s.env s.rack) :
          exec (.goodRising n true true) s = .next ((s.sawGood n).onRack f).conclude := by
        rw [exec_goodRising (rises low fresh),
          onRack_congr (s := s.sawGood n) (f := fun e r => goodRises e n r) (g := f) h]
      refine ⟨fun h => goes (goodRises_starting h), fun h => goes (goodRises_powered h),
        fun h inside => goes ?_, fun h inside => goes ?_, fun h outside => goes ?_⟩
      · obtain ⟨off, waits⟩ := unpowered_of_waiting h
        rw [goodRises_unpowered off, if_pos inside,
          unexpectedGood_faults (by rw [setGood_state]; exact waits)]
        rfl
      · obtain ⟨off, stays⟩ := unpowered_of_barred h
        rw [goodRises_unpowered off, if_pos inside,
          unexpectedGood_logs (by rw [setGood_state]; exact stays)]
        unfold markFault setGood
        dsimp only
        rw [change_change]
        rfl
      · rw [goodRises_unpowered h, if_neg (by rw [outside]; decide)]
    · have goes {f : Env → Rack → Rack} (h : goodFalls s.env n s.rack = f s.env s.rack) :
          exec (.goodFalling n false false) s = .next ((s.sawGood n).onRack f).conclude := by
        rw [exec_goodFalling (falls high fresh),
          onRack_congr (s := s.sawGood n) (f := fun e r => goodFalls e n r) (g := f) h]
      exact ⟨fun h => goes (goodFalls_on h), fun d h hd => goes (goodFalls_draining h hd),
        fun h k => goes (goodFalls_other h k)⟩
    · have goes {f : Env → Rack → Rack} (h : parkedRises s.env n s.rack = f s.env s.rack) :
          exec (.parkedRising n true true) s = .next ((s.sawParked n).onRack f).conclude := by
        rw [exec_parkedRising (rises low fresh),
          onRack_congr (s := s.sawParked n) (f := fun e r => parkedRises e n r) (g := f) h]
      exact ⟨fun d h hd => goes (parkedRises_draining h hd), fun h => goes (parkedRises_other h)⟩
  · obtain ⟨goodUp, goodDown, parkedUp, parkedDown⟩ :=
      exec_input_still (s := s) (n := n) (earlier := earlier) (later := later)
    exact ⟨fun h => ⟨goodUp (not_takes_now h), goodDown (not_takes_now h), parkedUp (not_takes_now h),
      parkedDown (not_takes_now h)⟩, fun h => goodUp (not_takes_level h),
      fun h => goodDown (not_takes_level h), fun h => parkedUp (not_takes_level h),
      fun h => parkedDown (not_takes_level h)⟩

end
end

