-- ==== Sys2Proof/Proofs/HeadAndGrants.lean ====
section
/-! PROOF. The seven gates, the grant and the gate timer (O50). -/

namespace Sys2Proof.Machine

variable {e : Env} {r : Rack} {n : Fin 48}

/-! ### The gates that do not open by time (R94, R96, R99, R100) -/

theorem held_iff (x : Faults) : x.held = true ↔ x.hold ≠ none := Option.isSome_iff_ne_none

/-- The code of gate 1: the first of the four conditions that fails (R94). -/
theorem gate1_detail (e : Env) (r : Rack) : (gate1 e r).detail =
    (if r.grid.state ≠ .normal then 1 else if r.faults.hold ≠ none then 2
      else if e.firstWindow = false then 3 else if e.cfg.locked = false then 4 else 0) := by
  simp only [gate1, bne_iff_ne, held_iff, Bool.not_eq_true', Env.commissioned]

theorem gate1_passes (e : Env) (r : Rack) : (gate1 e r).passes = true ↔
    r.grid.state = .normal ∧ r.faults.hold = none ∧ e.firstWindow = true ∧ e.cfg.locked = true := by
  have code : (gate1 e r).passes = true ↔ (gate1 e r).detail = 0 := beq_iff_eq
  rw [code, gate1_detail]
  split_ifs with grid hold window locked
  · simp [grid]
  · simp [hold]
  · simp [window]
  · simp [locked]
  · simp_all

theorem gate3_detail {z : Fin 8} (h : e.slotZone n = some z) :
    (gate3 e n).detail = (e.zones[z]).code := by
  simp only [gate3, h]

theorem gate3_opens (e : Env) (n : Fin 48) : (gate3 e n).opens = 0 := by
  unfold gate3
  split <;> rfl

theorem open_iff (x : ZoneState) : x.open? = true ↔ x = .clear ∨ x = .watch := by
  cases x <;> decide

theorem gate3_passes (e : Env) (n : Fin 48) : (gate3 e n).passes = true ↔
    ∀ z, e.slotZone n = some z → e.zones[z] = .clear ∨ e.zones[z] = .watch := by
  unfold gate3
  split
  · next z h => simp only [h, Option.some.injEq, forall_eq', open_iff]
  · next h => simp only [h, reduceCtorEq, false_implies, implies_true]

theorem gate6_detail (e : Env) (r : Rack) (n : Fin 48) : (gate6 e r n).detail =
    (let sum := r.acct.s + e.param 10 + r.acct.rc + max (e.profile n).startW (e.profile n).peakW
     if sum ≤ r.acct.adm then r.acct.adm - sum else sum - r.acct.adm) :=
  if_congr decide_eq_true_iff rfl rfl

theorem gate6_passes (e : Env) (r : Rack) (n : Fin 48) : (gate6 e r n).passes = true ↔
    r.acct.s + e.param 10 + r.acct.rc + max (e.profile n).startW (e.profile n).peakW ≤ r.acct.adm :=
  decide_eq_true_iff

theorem gate7_passes (e : Env) (r : Rack) (n : Fin 48) : (gate7 e r n).passes = true ↔
    e.param 12 = 0 ∨ e.rank n = 4 ∨
      e.param 5 ≤ holdTime r.hold.d (r.hold.l + (e.profile n).nominalW) := by
  simp only [gate7, Env.energyGate, Bool.or_eq_true, Bool.not_eq_true', decide_eq_false_iff_not, not_not,
    beq_iff_eq, decide_eq_true_eq, or_assoc]
  rfl

/-! ### The gates that open by time (R95, R97, R98) -/

/-- The ms left of a length since a History entry, 0 where there is none (R97, R98). -/
def leftSince (now : Time) (len : Nat) (x : Option HistEntry) : Nat :=
  match x with
  | some x => len - age now x.time
  | none => 0

theorem spacingLeft_eq (now : Time) (len : Nat) (h : List HistEntry) :
    spacingLeft now len h = leftSince now len h.getLast? := rfl

theorem leftSince_zero {now : Time} {len : Nat} {x : Option HistEntry} :
    leftSince now len x = 0 ↔ ∀ y, x = some y → len ≤ age now y.time := by
  cases x with
  | none => simp only [leftSince, reduceCtorEq, false_implies, implies_true]
  | some y => simp only [leftSince, Option.some.injEq, forall_eq', Nat.sub_eq_zero_iff_le]

theorem counts_eq (x : HistEntry) (group : Nat) :
    x.counts group = decide (x.group = none ∨ x.group = some group) := by
  unfold HistEntry.counts
  cases x.group with
  | none => rfl
  | some g => simp only [reduceCtorEq, Option.some.injEq, false_or, beq_eq_decide]

/-- The entries of a group and of ALL, as R97 reads them. -/
def sameGroup (group : Nat) (h : List HistEntry) : List HistEntry :=
  h.filter fun x => x.group = none ∨ x.group = some group

theorem gate4_detail (e : Env) (r : Rack) (n : Fin 48) : (gate4 e r n).detail =
    max (leftSince e.now (e.param 0)
        (sameGroup (e.cfg.record.slots[n]).group r.queue.history).getLast?)
      (leftSince e.now (e.param 1) r.queue.history.getLast?) := by
  simp only [gate4, spacingLeft_eq, counts_eq]
  rfl

theorem gate4_passes (e : Env) (r : Rack) (n : Fin 48) : (gate4 e r n).passes = true ↔
    (∀ x, r.queue.history.getLast? = some x → e.param 1 ≤ age e.now x.time) ∧
    ∀ x, (sameGroup (e.cfg.record.slots[n]).group r.queue.history).getLast? = some x →
      e.param 0 ≤ age e.now x.time := by
  have zero : (gate4 e r n).passes = true ↔ (gate4 e r n).detail = 0 := beq_iff_eq
  rw [zero, gate4_detail, Nat.max_eq_zero_iff, leftSince_zero, leftSince_zero, and_comm]

theorem gate5_detail (e : Env) (r : Rack) : (gate5 e r).detail =
    if r.queue.history.length < 4 then 0 else leftSince e.now (e.param 2) r.queue.history.head? := by
  unfold gate5
  refine if_congr Iff.rfl rfl ?_
  cases r.queue.history <;> rfl

theorem gate5_passes (e : Env) (r : Rack) : (gate5 e r).passes = true ↔ r.queue.history.length < 4 ∨
    ∀ x, r.queue.history.head? = some x → e.param 2 ≤ age e.now x.time := by
  have zero : (gate5 e r).passes = true ↔ (gate5 e r).detail = 0 := beq_iff_eq
  rw [zero, gate5_detail, ← leftSince_zero]
  split
  · next h => exact iff_of_true rfl (.inl h)
  · next h => exact (or_iff_right h).symm

theorem gate2_passes (e : Env) (r : Rack) (n : Fin 48) : (gate2 e r n).passes = true ↔
    e.param 3 ≤ age e.now (r.slots[n]).offSince := beq_iff_eq.trans Nat.sub_eq_zero_iff_le

/-! ### The lowest failing gate and the wait (R101, R103) -/

/-- The gates stand in the order of their numbers. -/
theorem gates_sorted (e : Env) (r : Rack) (n : Fin 48) :
    (gates e r n).Pairwise fun a b => a.number < b.number := by
  have third : (gate3 e n).number = 3 := by
    unfold gate3
    split <;> rfl
  simp [gates, third, gate1, gate2, gate4, gate5, gate6, gate7]

/-- In a list of gates in the order of their numbers, the first that fails is the one that fails with every
lower one passing. -/
theorem firstFailing_of {gs : List GateView} {g : GateView}
    (sorted : gs.Pairwise fun a b => a.number < b.number) (hg : g ∈ gs) (fails : g.passes = false)
    (lower : ∀ k ∈ gs, k.number < g.number → k.passes = true) : firstFailing gs = some g := by
  induction gs with
  | nil => cases hg
  | cons x xs ih =>
    obtain ⟨first, rest⟩ := List.pairwise_cons.mp sorted
    rcases List.mem_cons.mp hg with rfl | hx
    · exact List.find?_cons_of_pos (by rw [fails]; rfl)
    · have passes : x.passes = true := lower x List.mem_cons_self (first g hx)
      rw [firstFailing, List.find?_cons_of_neg (by rw [passes]; decide)]
      exact ih rest hx fun k hk => lower k (List.mem_cons_of_mem x hk)

theorem firstFailing_none {gs : List GateView} (h : ∀ g ∈ gs, g.passes = true) :
    firstFailing gs = none :=
  List.find?_eq_none.mpr fun g hg => by rw [h g hg]; decide

/-- What a list of gates adds to a wait. -/
def waitFrom (m : Nat) (gs : List GateView) : Nat :=
  gs.foldl (fun m g => if g.passes then m else max m g.opens) m

/-- The wait is the greatest of the times until the failing gates open (R103). -/
theorem waitFrom_greatest : ∀ (gs : List GateView) (m : Nat), m ≤ waitFrom m gs ∧
    (∀ k ∈ gs, k.passes = false → k.opens ≤ waitFrom m gs) ∧
    (waitFrom m gs = m ∨ ∃ k ∈ gs, k.passes = false ∧ k.opens = waitFrom m gs)
  | [], m => ⟨le_refl m, fun _ h => (List.not_mem_nil h).elim, .inl rfl⟩
  | x :: xs, m => by
    cases hx : x.passes with
    | true =>
      have step : waitFrom m (x :: xs) = waitFrom m xs := by simp [waitFrom, hx]
      obtain ⟨least, bound, attained⟩ := waitFrom_greatest xs m
      rw [step]
      refine ⟨least, fun k hk fails => ?_, attained.imp_right fun ⟨k, hk, h⟩ =>
        ⟨k, List.mem_cons_of_mem x hk, h⟩⟩
      rcases List.mem_cons.mp hk with rfl | hk
      · rw [hx] at fails; cases fails
      · exact bound k hk fails
    | false =>
      have step : waitFrom m (x :: xs) = waitFrom (max m x.opens) xs := by simp [waitFrom, hx]
      obtain ⟨least, bound, attained⟩ := waitFrom_greatest xs (max m x.opens)
      rw [step]
      refine ⟨(le_max_left ..).trans least, fun k hk fails => ?_, ?_⟩
      · rcases List.mem_cons.mp hk with rfl | hk
        · exact (le_max_right ..).trans least
        · exact bound k hk fails
      · rcases attained with h | ⟨k, hk, h⟩
        · rcases max_choice m x.opens with hm | hm
          · exact .inl (h.trans hm)
          · exact .inr ⟨x, List.mem_cons_self, hx, by rw [h, hm]⟩
        · exact .inr ⟨k, List.mem_cons_of_mem x hk, h⟩

theorem gateWait_eq (gs : List GateView) : gateWait gs = waitFrom 0 gs := rfl

/-! ### The grant (R66, R93, R102) -/

theorem grant_history (e : Env) (n : Fin 48) (r : Rack) : (grant e n r).queue.history =
    (if 4 ≤ r.queue.history.length then r.queue.history.drop 1 else r.queue.history)
      ++ [⟨e.now, some (e.cfg.record.slots[n]).group⟩] := by
  have kept (x : SlotRec) : (changeRecord e n x r).queue.history = r.queue.history :=
    changeRecord_history ..
  unfold grant
  dsimp only
  rw [kept]
  rfl

theorem SlotRec.grant_eq (x : SlotRec) (now : Time) (len : Nat) : x.grant now len = { x with
    state := .starting
    grantTime := some now
    queueTime := none
    drain := none
    goodDeadline := some ⟨now, len⟩
    cause := .grant
    permit := true
    warn := false } := by
  have kept : (x.state.powered && !SlotState.starting.powered) = false := Bool.and_false _
  simp only [SlotRec.grant, SlotRec.enter, kept]
  rfl

end Sys2Proof.Machine

section
open Sys2Proof Sys2Proof.Machine

/-- Settles O50: each gate by its condition, detail and opening time, and what an evaluation of the head
does. -/
theorem headAndGrants : Obligations.HeadAndGrants := by
  refine fun e r n => ⟨⟨gate1_detail e r, rfl, rfl, rfl, fun z hz => gate3_detail hz, gate3_opens e n,
    gate4_detail e r n, gate4_detail e r n, gate5_detail e r, rfl, gate6_detail e r n, rfl, rfl, rfl⟩,
    gate1_passes e r, gate2_passes e r n, gate3_passes e n, gate4_passes e r n, gate5_passes e r,
    gate6_passes e r n, gate7_passes e r n, fun h hh hn => ?_⟩
  subst hn
  refine ⟨fun pass => ?_, fun g hg fails lower => ?_⟩
  · rw [evaluateHead_grants hh (firstFailing_none pass)]
    exact ⟨(grant_self ..).trans (SlotRec.grant_eq ..), fun m hm => grant_other (Ne.symm hm),
      grant_history e h.slot r, rfl⟩
  · obtain ⟨-, bound, attained⟩ := waitFrom_greatest (gates e r h.slot) 0
    rw [evaluateHead_fails hh (firstFailing_of (gates_sorted e r h.slot) hg fails lower)]
    exact ⟨gateWait (gates e r h.slot), bound, attained, rfl⟩

end
end

