-- ==== Sys2Proof/Proofs/Shedding.lean ====
section
/-! PROOF. The blocks of a pass change the slots by drain requests to SHED alone (R58, R111, R114). The layer
under O13 and O40. -/

namespace Sys2Proof.Machine

variable {e : Env} {n : Fin 48} {a b c r : Rack}

/-- The slots are changed by drain requests to SHED alone, one after another. -/
inductive Sheds (e : Env) : Rack → Rack → Prop
  | still {a b : Rack} (slots : b.slots = a.slots) : Sheds e a b
  | request {q : DrainRequest} (shed : q.target = .shed) (m : Fin 48) (r : Rack) :
      Sheds e r (drain e q m r)
  | trans {a b c : Rack} (first : Sheds e a b) (last : Sheds e b c) : Sheds e a c

theorem Sheds.refl (r : Rack) : Sheds e r r := .still rfl

theorem Sheds.ite {p : Prop} [Decidable p] (h : Sheds e a b) (k : Sheds e a c) :
    Sheds e a (if p then b else c) := by
  split <;> assumption

theorem Sheds.after (k : Sheds e b c) (slots : b.slots = a.slots) : Sheds e a c := (still slots).trans k

theorem Sheds.done (h : Sheds e a b) (slots : c.slots = b.slots) : Sheds e a c := h.trans (.still slots)

theorem forEach_sheds {α : Type} {f : α → Rack → Rack} (h : ∀ x r, Sheds e r (f x r)) :
    ∀ (xs : List α) (r : Rack), Sheds e r (forEach f xs r)
  | [], r => .refl r
  | x :: xs, r => (h x r).trans (forEach_sheds h xs (f x r))

theorem drainAll_sheds {q : DrainRequest} (shed : q.target = .shed) (pick : Fin 48 → SlotRec → Bool)
    (r : Rack) : Sheds e r (drainAll e q pick r) :=
  forEach_sheds (fun m r => .ite (.request shed m r) (.refl r)) _ r

/-- What drain requests to SHED keep of a slot, each of them keeps. -/
theorem Sheds.keeps {P : SlotRec → Prop} (h : Sheds e a b)
    (kept : ∀ (q : DrainRequest) (r : Rack), q.target = .shed → P r.slots[n] →
      P (drain e q n r).slots[n]) : P a.slots[n] → P b.slots[n] := by
  induction h with
  | still slots => rw [slots]; exact id
  | request shed m r =>
    by_cases hm : m = n
    · subst hm; exact kept _ r shed
    · rw [drain_other _ hm]; exact id
  | trans _ _ first last => exact last ∘ first

/-! ### The blocks -/

theorem shedSelection_sheds (r : Rack) : Sheds e r (shedSelection e r) := by
  have shed : Sheds e r (forEach (drain e .shed) (selected e r) r) := forEach_sheds (.request rfl) _ r
  rw [shedSelection_eq]
  exact .ite (shed.done rfl) (shed.done (raise_slots ..))

theorem evaluateShortfall_sheds (r : Rack) : Sheds e r (evaluateShortfall e r) := by
  obtain ⟨-, -, pooled, -⟩ := poolUpdate_keepsAccount e (shortageLogged e r)
  have enters : Sheds e r (enterShortfall e r) := by
    rw [enterShortfall_eq]
    exact (shedSelection_sheds _).after
      ((raise_slots ..).trans (pooled.trans (shortageLogged_slots e r)))
  unfold evaluateShortfall followDeficit
  exact .ite (.ite (.ite (shedSelection_sheds r) (.still rfl)) (.still rfl)) (.ite enters (.refl r))

theorem enterDark_slots (e : Env) (r : Rack) : (enterDark e r).slots = r.slots :=
  enterDark_figure Rack.slots (fun _ _ => rfl) r

theorem enterDrain_sheds (r : Rack) : Sheds e r (enterDrain e r) := by
  unfold enterDrain
  dsimp only
  have drained := (drainAll_sheds (e := e) (q := .rackDrain) rfl (fun _ x => x.state.powered) _).after
    ((logFault_slots e .drainStarted r.hold.usableCount _).trans
      (moveGrid_slots e { r.grid with state := .drain, drainFlag := true } r.grid.level r))
  exact .ite (drained.done (enterDark_slots ..)) drained

theorem actOnHold_sheds (r : Rack) : Sheds e r (actOnHold e r) := by
  unfold actOnHold
  exact .ite (.ite ((enterDrain_sheds _).after (levelTaken_slots e r))
    ((drainAll_sheds rfl ..).after (levelTaken_slots e r))) (.refl r)

theorem evaluateHold_sheds (r : Rack) : Sheds e r (evaluateHold e r) := by
  rw [evaluateHold_eq]
  exact (actOnHold_sheds _).after (evaluateFigures_slots ..)

theorem beginEvent_sheds (r : Rack) : Sheds e r (beginEvent e r) := by
  have moved : Sheds e r (moveGrid e (r.grid.begin e.now) 0 { r with hold.shortLogged := false }) :=
    .still (moveGrid_slots ..)
  have begun : Sheds e r (eventBegins e r) :=
    (moved.trans (evaluateShortfall_sheds _)).done ((abortActive_slots ..).trans (stopRecharge_slots ..))
  rw [beginEvent_eq]
  exact begun.trans (evaluateHold_sheds _)

theorem evaluateGrid_sheds (r : Rack) : Sheds e r (evaluateGrid e r) := by
  have qualify : Sheds e r (enterQualify e r) :=
    .still (enterQualify_figure Rack.slots (fun _ _ => rfl) r)
  have bounced : Sheds e r (bounce e r) := (evaluateHold_sheds _).after (moveGrid_slots ..)
  unfold evaluateGrid
  split
  · exact .ite (beginEvent_sheds r) (.refl r)
  · exact .ite qualify (.refl r)
  · exact .ite (.ite bounced (beginEvent_sheds r)) (.refl r)
  · exact .ite qualify (.refl r)
  · exact .refl r
  · exact .refl r

theorem passBlocks_sheds (r : Rack) : Sheds e r (passBlocks e r) := by
  have grid (r : Rack) : Sheds e r (gridTurn e r) := .ite ((evaluateGrid_sheds _).after rfl) (.refl r)
  have dark (r : Rack) : Sheds e r (darkTurn e r) := .ite (.still (enterDark_slots ..)) (.refl r)
  have account (r : Rack) : Sheds e r (accountTurn e r) :=
    .ite ((evaluateShortfall_sheds _).after rfl) (.refl r)
  have pool (r : Rack) : Sheds e r (poolTurn e r) := by
    obtain ⟨-, -, slots, -⟩ := poolUpdate_keepsAccount e { r with todo.pool := false }
    exact .ite (.still slots) (.refl r)
  have hold (r : Rack) : Sheds e r (holdTurn e r) := .ite (evaluateHold_sheds r) (.refl r)
  have checks (r : Rack) : Sheds e r (checksTurn e r) :=
    .ite (.refl r) (.still (evaluateChecks_slots ..))
  rw [passBlocks_eq]
  exact (grid r).trans ((dark _).trans ((account _).trans ((pool _).trans
    ((hold _).trans (checks _)))))

theorem handOnFor_sheds : ∀ (k : Nat) (r : Rack), Sheds e r (handOnFor e k r)
  | 0, r => .refl r
  | k + 1, r => .ite (.refl r) ((passBlocks_sheds r).trans (handOnFor_sheds k _))

/-- What a change of one slot hands on changes the slots by drain requests to SHED alone. -/
theorem handOn_sheds (e : Env) (r : Rack) : Sheds e r (handOn e r) := handOnFor_sheds _ r

/-! ### A drain's target -/

/-- The slot drains to the target (R70). -/
def SlotRec.DrainsTo (x : SlotRec) (t : DrainTarget) : Prop :=
  x.state = .draining ∧ x.drain.map Drain.target = some t

/-- SHED is the lowest target: a request for it lowers none (R73). -/
theorem amend_shed_target (d : Drain) (now : Time) (len : Nat) :
    (d.amend now .shed len).target = d.target := by
  have lowest : ¬d.target.rank < DrainTarget.shed.rank := Nat.not_lt_zero _
  unfold Drain.amend
  dsimp only
  rw [if_neg lowest]

theorem drain_keeps_target {t : DrainTarget} {q : DrainRequest} (shed : q.target = .shed)
    (h : (r.slots[n]).DrainsTo t) : ((drain e q n r).slots[n]).DrainsTo t := by
  obtain ⟨state, target⟩ := h
  obtain ⟨d, hd, ht⟩ := Option.map_eq_some_iff.mp target
  rw [drain, drainWith_draining state, amendDrain_self hd, shed]
  exact ⟨state, congrArg some ((amend_shed_target ..).trans ht)⟩

/-- What is handed on leaves a draining slot draining to its target. -/
theorem handOn_keeps_target {t : DrainTarget} (h : (r.slots[n]).DrainsTo t) :
    ((handOn e r).slots[n]).DrainsTo t :=
  (handOn_sheds e r).keeps (P := (·.DrainsTo t)) (fun _ _ => drain_keeps_target) h

theorem drainEntered_drainsTo (e : Env) (q : DrainRequest) (n : Fin 48) (r : Rack) :
    ((drainEntered e q n r).slots[n]).DrainsTo q.target := by
  rw [drainEntered_self]
  exact ⟨rfl, rfl⟩

/-- A drain that ends at once takes the slot to the target of its request, whatever its entry hands on
(R65, R70). -/
theorem drainInTurn_target {q : DrainRequest} (h : (r.slots[n]).state = .on)
    (ends : (r.slots[n]).parked = true ∨ drainLength e n q = 0) :
    ((drainInTurn e q n r).slots[n]).state = q.target.state := by
  obtain ⟨state, target⟩ := handOn_keeps_target (e := e) (drainEntered_drainsTo e q n r)
  obtain ⟨d, hd, ht⟩ := Option.map_eq_some_iff.mp target
  rw [drainInTurn, drainWith_ends h ends, endDrain_of state hd, enter_self, ht]
  exact ((r.slots[n]).enter_target e.now q.target (r.slots[n]).endCause).1

end Sys2Proof.Machine
end

