-- ==== Sys2Proof/Proofs/AdoptSlot.lean ====
section
/-! PROOF. One slot's adoption from its latch (O13). -/

namespace Sys2Proof.Machine

variable {e : Env} {good : BitVec 48} {n : Fin 48} {r : Rack}

/-! ### The record that the adoption leaves (R83, R84) -/

theorem adoptSlot_self (e : Env) (good : BitVec 48) (n : Fin 48) (r : Rack) :
    (adoptSlot e good n r).slots[n] = adoptedRec e good n r.slots[n] := by
  rw [adoptSlot_slots, put_self]

theorem adoptSlot_disabled (h : (r.slots[n]).state = .disabled) :
    (adoptSlot e good n r).slots[n] = keepDisabled e.now r.slots[n] :=
  (adoptSlot_self ..).trans (if_pos h)

theorem adoptSlot_permitted (h : (r.slots[n]).state ≠ .disabled) (k : (r.slots[n]).permit = true) :
    (adoptSlot e good n r).slots[n] =
      (r.slots[n]).adopt e.now (good.getLsbD n.val) (e.profile n).goodDeadline :=
  (adoptSlot_self ..).trans ((if_neg h).trans (if_pos k))

theorem adoptSlot_unpermitted (h : (r.slots[n]).state ≠ .disabled) (k : (r.slots[n]).permit = false) :
    (adoptSlot e good n r).slots[n] =
      (r.slots[n]).adoptOff e.now (if e.slotZoneIsolated n then .isolated else .off) :=
  (adoptSlot_self ..).trans ((if_neg h).trans (if_neg (by rw [k]; exact Bool.false_ne_true)))

theorem adopt_good (x : SlotRec) (now : Time) (len : Nat) :
    x.adopt now true len = { x.enter now .on .configuration with good := true } := if_pos rfl

theorem adopt_low (x : SlotRec) (now : Time) (len : Nat) :
    x.adopt now false len = { x.enter now .starting .configuration with
      goodDeadline := some ⟨now, len⟩ } := if_neg Bool.false_ne_true

/-- A slot adopted with its PERMIT latched is ON or STARTING (R83). -/
theorem adopt_state (x : SlotRec) (now : Time) (level : Bool) (len : Nat) :
    (x.adopt now level len).state = .on ∨ (x.adopt now level len).state = .starting := by
  cases level with
  | true => rw [adopt_good]; exact .inl rfl
  | false => rw [adopt_low]; exact .inr rfl

/-! ### The leak cut of a slot adopted with power (R84, R115) -/

/-- A slot that is powered or SHED takes a leak cut. -/
theorem leakCut_takes (h : (r.slots[n]).state.powered = true ∨ (r.slots[n]).state = .shed) :
    leakCut e n r = enter e n .isolated .leakMove r := by
  refine leakCut_cuts ?_
  rcases h with h | h
  · revert h
    cases (r.slots[n]).state <;> decide
  · rw [h]; decide

/-- An unpowered slot keeps its record over what is handed on. -/
theorem handOn_unpowered (h : (r.slots[n]).state.powered = false) :
    (handOn e r).slots[n] = r.slots[n] := (handOn_handsOn e r).rest n h

/-- A powered or SHED slot stays one of them over what is handed on (R58, R111, R114). -/
theorem handOn_powered_or_shed (h : (r.slots[n]).state.powered = true ∨ (r.slots[n]).state = .shed) :
    ((handOn e r).slots[n]).state.powered = true ∨ ((handOn e r).slots[n]).state = .shed := by
  rcases h with h | h
  · exact (handOn_handsOn e r).shed n h
  · rw [handOn_unpowered (by rw [h]; rfl)]
    exact .inr h

/-- A rack drain request leaves a slot that is ON or STARTING powered or SHED (R70, R71). -/
theorem joinRackDrain_powered_or_shed
    (h : (r.slots[n]).state = .on ∨ (r.slots[n]).state = .starting) :
    ((joinRackDrain e n r).slots[n]).state.powered = true ∨
      ((joinRackDrain e n r).slots[n]).state = .shed := by
  unfold joinRackDrain
  split
  · rcases h with h | h
    · by_cases ends : (r.slots[n]).parked = true ∨ drainLength e n .rackDrain = 0
      · exact .inr (drainInTurn_target h ends)
      · obtain ⟨hp, hl⟩ := not_or.mp ends
        rw [drainInTurn, drainWith_begins h (Bool.eq_false_iff.mpr hp) hl, drainEntered_self]
        exact .inl rfl
    · rw [drainInTurn, drainWith_starting h, enter_self]
      exact .inr rfl
  · rcases h with h | h <;> rw [h] <;> exact .inl rfl

theorem joinRackDrain_rest (h : (r.slots[n]).state = .isolated) : joinRackDrain e n r = r := by
  unfold joinRackDrain
  split
  · exact drainWith_rest (.inr (.inr (.inl h)))
  · rfl

/-- The slot as its adoption and what that hands on leave it, a leak cut still to come. -/
theorem adopted_powered_or_shed (h : (r.slots[n]).state ≠ .disabled) (k : (r.slots[n]).permit = true) :
    let t := handOn e (joinRackDrain e n (adoptSlot e good n r))
    (t.slots[n]).state.powered = true ∨ (t.slots[n]).state = .shed := by
  refine handOn_powered_or_shed (joinRackDrain_powered_or_shed ?_)
  rw [adoptSlot_permitted h k]
  exact adopt_state ..

theorem adoptedCut_iff : adoptedCut e n r = true ↔
    (r.slots[n]).state ≠ .disabled ∧ (r.slots[n]).permit = true ∧ e.slotZoneIsolated n = true := by
  simp only [adoptedCut, Bool.and_eq_true, bne_iff_ne, and_assoc]

theorem adoptInTurn_cut (h : adoptedCut e n r = true) : adoptInTurn e good n r =
    handOn e (leakCut e n (handOn e (joinRackDrain e n (adoptSlot e good n r)))) := if_pos h

theorem adoptInTurn_uncut (h : ¬adoptedCut e n r = true) : adoptInTurn e good n r =
    handOn e (joinRackDrain e n (adoptSlot e good n r)) := if_neg h

/-- The slot stands ISOLATED with its latches off. -/
def SlotRec.StandsIsolated (x : SlotRec) : Prop :=
  x.state = .isolated ∧ x.permit = false ∧ x.warn = false

theorem handOn_isolated (h : (r.slots[n]).StandsIsolated) : ((handOn e r).slots[n]).StandsIsolated := by
  rwa [handOn_unpowered (by rw [h.1]; rfl)]

/-- A slot of an ISOLATED zone is left ISOLATED by its adoption, with or without power (R83, R84). -/
theorem adoptInTurn_isolated (h : (r.slots[n]).state ≠ .disabled) (z : e.slotZoneIsolated n = true) :
    ((adoptInTurn e good n r).slots[n]).StandsIsolated := by
  by_cases k : (r.slots[n]).permit = true
  · rw [adoptInTurn_cut (adoptedCut_iff.mpr ⟨h, k, z⟩), leakCut_takes (adopted_powered_or_shed h k)]
    refine handOn_isolated ?_
    rw [enter_self]
    exact ⟨rfl, rfl, rfl⟩
  · have adopted : ((adoptSlot e good n r).slots[n]).StandsIsolated := by
      rw [adoptSlot_unpermitted h (Bool.eq_false_iff.mpr k), if_pos z]
      exact ⟨rfl, rfl, rfl⟩
    rw [adoptInTurn_uncut fun cut => k (adoptedCut_iff.mp cut).2.1, joinRackDrain_rest adopted.1]
    exact handOn_isolated adopted

end Sys2Proof.Machine

section
open Sys2Proof Sys2Proof.Machine

/-- Settles O13: the adopted record by the latch, the rack drain request, and the leak cut. -/
theorem adoptSlotTable : Obligations.AdoptSlotTable := by
  refine fun e good n r => ⟨fun m hm => adoptSlot_other _ _ _ _ _ (Ne.symm hm), fun h k => ?_,
    fun h k => ?_, fun h k => ?_, fun h k => ?_, fun h => if_neg h, fun h => if_pos h,
    fun uncut => ?_, fun cut => ?_, adoptInTurn_isolated⟩
  · exact (adoptSlot_disabled h).trans (if_pos k)
  · exact (adoptSlot_disabled h).trans (if_neg (by rw [k]; exact Bool.false_ne_true))
  · rw [adoptSlot_permitted h k]
    cases good.getLsbD n.val with
    | true => rw [adopt_good]; exact ⟨rfl, rfl, rfl, rfl⟩
    | false => rw [adopt_low]; exact ⟨rfl, rfl, rfl, rfl⟩
  · rw [adoptSlot_unpermitted h k]
    split <;> exact ⟨rfl, rfl, rfl⟩
  · exact adoptInTurn_uncut fun cut => uncut (adoptedCut_iff.mp cut)
  · exact adoptInTurn_cut (adoptedCut_iff.mpr cut)

end
end

