-- ==== Sys2Proof/Proofs/Adoption.lean ====
section
/-! PROOF. The adoption at its instant, the late GOOD levels and the zones (O12). -/

namespace Sys2Proof.Machine

variable {e : Env} {good : BitVec 48} {n m : Fin 48} {r : Rack} {s : State} {z : Fin 8} {d : Deadline}

/-! ### The instant (R83) -/

theorem exec_adoption (h : s.adoptionDue = true) : exec (.adoption good) s = .next
    (forEach (fun z t => State.adoptZone t z) (List.finRange 8)
      ((({ s with
          boot := { s.boot with adopting := false }
          inputs := { s.inputs with good := Vector.replicate 48 0 } } : State).onRack fun e r =>
        forEach (adoptInTurn e good) (List.finRange 48) r).onRack fun e r =>
          eachHandedOn e (lateGood e good) (List.finRange 48) r)).conclude := if_pos h

theorem exec_adoption_not_due (h : ¬s.adoptionDue = true) : exec (.adoption good) s = .next s := if_neg h

/-! ### A GOOD found high (R69, R83) -/

theorem lateGood_still (h : good.getLsbD n.val = false ∨ (r.slots[n]).good = true) :
    lateGood e good n r = r := by
  refine if_neg ?_
  rw [Bool.and_eq_true, Bool.not_eq_true']
  rintro ⟨high, untaken⟩
  rcases h with h | h
  · rw [h] at high; cases high
  · rw [h] at untaken; cases untaken

theorem lateGood_taken (high : good.getLsbD n.val = true) (untaken : (r.slots[n]).good = false) :
    lateGood e good n r =
      if e.insideRack n then unexpectedGood e n (setGood n true r) else setGood n true r :=
  if_pos (by rw [high, untaken]; rfl)

theorem markFault_self (e : Env) (n : Fin 48) (f : SlotFault) (k : FaultKind) (r : Rack) :
    (markFault e n f k r).slots[n] = { r.slots[n] with lastFault := some f } := by
  unfold markFault
  rw [logFault_slots, change_self]

theorem markFault_other (h : n ≠ m) (e : Env) (f : SlotFault) (k : FaultKind) (r : Rack) :
    (markFault e n f k r).slots[m] = r.slots[m] := by
  unfold markFault
  rw [logFault_slots]
  exact (change_get ..).trans (if_neg h)

theorem markFault_faults (e : Env) (n : Fin 48) (f : SlotFault) (k : FaultKind) (r : Rack) :
    (markFault e n f k r).faults = r.faults.log e.now k n.val := logFault_faults ..

theorem setGood_other (h : n ≠ m) (l : Bool) (r : Rack) : (setGood n l r).slots[m] = r.slots[m] :=
  (change_get ..).trans (if_neg h)

/-- An unexpected GOOD is logged and kept as the slot's last fault, and moves no other slot (R69). -/
theorem unexpectedGood_marks (e : Env) (n : Fin 48) (r : Rack) :
    (∀ m : Fin 48, m ≠ n → (unexpectedGood e n r).slots[m] = r.slots[m]) ∧
    ((unexpectedGood e n r).slots[n]).good = (r.slots[n]).good ∧
    ((unexpectedGood e n r).slots[n]).lastFault = some .goodUnexpected ∧
    (unexpectedGood e n r).faults = r.faults.log e.now .goodUnexpected n.val := by
  by_cases h : (r.slots[n]).state ∈ [SlotState.off, .shed, .isolated, .queued]
  · rw [unexpectedGood_faults h, markFault_self, markFault_faults, enter_self]
    refine ⟨fun m hm => ?_, rfl, rfl, ?_⟩
    · rw [markFault_other (Ne.symm hm), enter_other _ _ _ _ _ _ (Ne.symm hm)]
    · rw [enter, changeRecord_faults]
  · rw [unexpectedGood_logs h, markFault_self, markFault_faults]
    exact ⟨fun m hm => markFault_other (Ne.symm hm) .., rfl, rfl, rfl⟩

/-! ### A zone (R165, R172) -/

theorem adoptZone_alarm (h : (s.leak.zones[z]).state = .alarm)
    (k : (s.leak.zones[z]).grace = some d) : s.adoptZone z =
      if d.reached s.now then s.isolateZone z else s.leakDrains z (d.left s.now) := by
  simp only [State.adoptZone, h, k]

theorem adoptZone_open (h : (s.leak.zones[z]).state = .clear ∨ (s.leak.zones[z]).state = .watch) :
    s.adoptZone z = s.followZone z := by
  rcases h with h | h <;> simp only [State.adoptZone, h]

theorem adoptZone_rest (h : (s.leak.zones[z]).state = .isolated ∨
    (s.leak.zones[z]).state = .alarm ∧ (s.leak.zones[z]).grace = none) : s.adoptZone z = s := by
  rcases h with h | ⟨h, k⟩
  · simp only [State.adoptZone, h]
  · simp only [State.adoptZone, h, k]

end Sys2Proof.Machine

section
open Sys2Proof Sys2Proof.Machine

/-- Settles O12: the adoption in its order, each late GOOD, and each zone. -/
theorem adoptionCompletes : Obligations.AdoptionCompletes := by
  refine ⟨fun s good ha ht => exec_adoption ((adoptionDue_iff s).mpr ⟨ha, ht⟩), fun s good h => ?_,
    fun e good n r => ⟨lateGood_still, fun high untaken outside => ?_, fun high untaken inside => ?_⟩,
    fun s z => ⟨fun d hs hd => ⟨fun h => ?_, fun h => ?_⟩, adoptZone_open, adoptZone_rest⟩⟩
  · refine exec_adoption_not_due fun due => ?_
    obtain ⟨ha, ht⟩ := (adoptionDue_iff s).mp due
    rcases h with h | h
    · rw [ha] at h; cases h
    · exact h ht
  · exact (lateGood_taken high untaken).trans (if_neg (by rw [outside]; exact Bool.false_ne_true))
  · have taken : lateGood e good n r = unexpectedGood e n (setGood n true r) :=
      (lateGood_taken high untaken).trans (if_pos inside)
    have state := setGood_state n true r
    obtain ⟨others, level, fault, logged⟩ := unexpectedGood_marks e n (setGood n true r)
    rw [taken]
    refine ⟨fun m hm => (others m hm).trans (setGood_other (Ne.symm hm) ..), level.trans ?_, fault,
      logged, fun hs => ?_, fun hs => ?_⟩
    · rw [setGood_self]
    · rw [← state] at hs
      rw [unexpectedGood_faults hs]
      refine ⟨?_, ?_, ?_, rfl⟩ <;> rw [markFault_self, enter_self] <;> rfl
    · rw [← state] at hs
      rw [unexpectedGood_logs hs]
      refine ⟨?_, rfl⟩
      rw [markFault_self, setGood_self]
  · exact (adoptZone_alarm hs hd).trans (if_pos (decide_eq_true h))
  · exact (adoptZone_alarm hs hd).trans (if_neg (by
      rw [Deadline.reached, decide_eq_true_eq]
      exact Nat.not_le.mpr h))

end
end

