-- ==== Sys2Proof/Proofs/ShelfReleases.lean ====
section
/-! PROOF. The modules of a released shelf (R171, step 4). The layer under O40. -/

namespace Sys2Proof.Machine

variable {e : Env} {i k : Fin 18} {j l : Fin 12} {h : Fin 3} {a b r t u : Rack}

/-! ### One among several -/

/-- What is read of the rack for one of those that operations take in turn, where the others' leave it: what
its own operation makes of it, on a rack that reads the same there. -/
theorem forEach_own {α β : Type} {f : α → Rack → Rack} {view : Rack → β} {x : α}
    (others : ∀ y, y ≠ x → ∀ r, view (f y r) = view r) (xs : List α) (r : Rack) (nodup : xs.Nodup) :
    (x ∉ xs → view (forEach f xs r) = view r) ∧
    (x ∈ xs → ∃ u, view u = view r ∧ view (forEach f xs r) = view (f x u)) := by
  induction xs generalizing r with
  | nil => exact ⟨fun _ => rfl, fun hx => by cases hx⟩
  | cons y xs ih =>
    obtain ⟨out, nodup⟩ := List.nodup_cons.mp nodup
    obtain ⟨missed, taken⟩ := ih (f y r) nodup
    by_cases hy : y = x
    · subst hy
      exact ⟨fun hx => absurd List.mem_cons_self hx, fun _ => ⟨r, rfl, missed out⟩⟩
    · refine ⟨fun hx => (missed (hx ∘ List.mem_cons_of_mem y)).trans (others y hy r), fun hx => ?_⟩
      obtain ⟨u, same, own⟩ := taken ((List.mem_cons.mp hx).resolve_left (Ne.symm hy))
      exact ⟨u, same.trans (others y hy r), own⟩

/-! ### What is read of a position -/

/-- What OUTPUT_ON for a PSU reads and changes: its record, its entry and the polled set. -/
def psuView (i : Fin 18) (r : Rack) : PsuRec × Option CmdEntry × List Pos :=
  (r.psu[i], r.bus.entry (.psu i), r.bus.polledSet)

/-- What the release of a BU reads and changes: what an offer for it does, and the grid's state. -/
def releaseView (j : Fin 12) (r : Rack) : (BuRec × Option CmdEntry × List Pos) × GridState :=
  (buView j r, r.grid.state)

theorem psuView_iff : psuView i a = psuView i b ↔ a.psu[i] = b.psu[i] ∧
    a.bus.entry (.psu i) = b.bus.entry (.psu i) ∧ a.bus.polledSet = b.bus.polledSet := by
  simp only [psuView, Prod.mk.injEq]

theorem releaseView_iff : releaseView j a = releaseView j b ↔ a.bu[j] = b.bu[j] ∧
    a.bus.entry (.bu j) = b.bus.entry (.bu j) ∧ a.bus.polledSet = b.bus.polledSet ∧
    a.grid.state = b.grid.state := by
  simp only [releaseView, buView, Prod.mk.injEq, and_assoc]

theorem takesOffers_psu (present : (a.psu[i]).present = (b.psu[i]).present)
    (state : (a.psu[i]).state = (b.psu[i]).state) (polledSet : a.bus.polledSet = b.bus.polledSet) :
    takesOffers e a (.psu i) = takesOffers e b (.psu i) := by
  unfold takesOffers addressed polled isLost readsPsu
  dsimp only
  rw [present, state, polledSet]

theorem offer_polledSet (e : Env) (p : Pos) (c : ShelfCmd) (r : Rack) :
    (offer e p c r).bus.polledSet = r.bus.polledSet := by
  unfold offer
  rw [busOffer_frame]

theorem offer_entry_other {p q : Pos} (c : ShelfCmd) (r : Rack) (hp : p ≠ q) :
    (offer e p c r).bus.entry q = r.bus.entry q := entry_offer_other _ _ _ _ hp

/-! ### One PSU, commanded on (R38, R171) -/

/-- A PSU has been commanded on, and OUTPUT_ON offered where its position takes it and none waits. -/
def PsuBack (e : Env) (i : Fin 18) (r t : Rack) : Prop :=
  t.psu[i] = { r.psu[i] with commandedOn := true } ∧
  (takesOffers e r (.psu i) = true → r.bus.entry (.psu i) = none →
    (t.bus.entry (.psu i)).map CmdEntry.cmd = some .outputOn)

theorem PsuBack.congr (h : PsuBack e i u a) (hu : psuView i u = psuView i r)
    (ht : psuView i t = psuView i a) : PsuBack e i r t := by
  obtain ⟨record, entry⟩ := h
  obtain ⟨recordU, entryU, polledU⟩ := psuView_iff.mp hu
  obtain ⟨recordT, entryT, -⟩ := psuView_iff.mp ht
  have takes : takesOffers e u (.psu i) = takesOffers e r (.psu i) :=
    takesOffers_psu (by rw [recordU]) (by rw [recordU]) polledU
  refine ⟨by rw [recordT, record, recordU], ?_⟩
  rw [← takes, ← entryU, entryT]
  exact entry

theorem offerOutputOn_back (e : Env) (i : Fin 18) (r : Rack) : PsuBack e i r (offerOutputOn e i r) := by
  have record : (offerOutputOn e i r).psu[i] = { r.psu[i] with commandedOn := true } :=
    change_self r.psu i fun x => { x with commandedOn := true }
  refine ⟨record, fun takes none => ?_⟩
  have bus : (offerOutputOn e i r).bus = r.bus.offer e.now true (.psu i) .outputOn := by
    rw [← takes, ← takesOffers_psu (a := { r with
      psu := change r.psu i fun x => { x with commandedOn := true } }) (b := r)
      (congrArg PsuRec.present record :) (congrArg PsuRec.state record :) rfl]
    rfl
  rw [bus]
  exact entry_offer_fresh none ..

theorem offerOutputOn_psuView (hk : k ≠ i) (r : Rack) :
    psuView i (offerOutputOn e k r) = psuView i r :=
  psuView_iff.mpr ⟨(change_get r.psu k i _).trans (if_neg hk),
    offer_entry_other _ _ (by simpa using hk), offer_polledSet ..⟩

theorem offerOutputOn_releaseView (i : Fin 18) (r : Rack) :
    releaseView j (offerOutputOn e i r) = releaseView j r :=
  releaseView_iff.mpr ⟨rfl, offer_entry_other _ _ (by simp), offer_polledSet .., rfl⟩

/-! ### One BU, no longer leak-isolated (R43, R171) -/

/-- In DRAIN and DARK no RESTORE is offered (R171). -/
def Rack.Late (r : Rack) : Prop := r.grid.state = .drain ∨ r.grid.state = .dark

/-- A BU has ceased to be leak-isolated and, but for DRAIN and DARK, is commanded to restore, with RESTORE
offered where its position takes it and none waits. -/
def BuBack (e : Env) (j : Fin 12) (r t : Rack) : Prop :=
  (r.Late → t.bu[j] = { r.bu[j] with leakIsolated := false } ∧
    t.bus.entry (.bu j) = r.bus.entry (.bu j)) ∧
  (¬r.Late → t.bu[j] = { r.bu[j] with leakIsolated := false, commandedIsolate := false } ∧
    (takesOffers e r (.bu j) = true → r.bus.entry (.bu j) = none →
      (t.bus.entry (.bu j)).map CmdEntry.cmd = some .restore))

theorem BuBack.congr (h : BuBack e j u a) (hu : releaseView j u = releaseView j r)
    (ht : releaseView j t = releaseView j a) : BuBack e j r t := by
  obtain ⟨recordU, entryU, polledU, gridU⟩ := releaseView_iff.mp hu
  obtain ⟨recordT, entryT, -, -⟩ := releaseView_iff.mp ht
  have takes : takesOffers e u (.bu j) = takesOffers e r (.bu j) :=
    takesOffers_congr (by rw [recordU]) (by rw [recordU]) polledU
  unfold BuBack Rack.Late at h ⊢
  rwa [recordU, gridU, takes, entryU, ← recordT, ← entryT] at h

theorem BuBack.leakIsolated (h : BuBack e j r t) : (t.bu[j]).leakIsolated = false := by
  obtain ⟨late, early⟩ := h
  by_cases l : r.Late
  · rw [(late l).1]
  · rw [(early l).1]

/-- A BU's record once it is no longer leak-isolated. -/
def freeBu (j : Fin 12) (r : Rack) : Rack :=
  { r with bu := change r.bu j fun b => { b with leakIsolated := false } }

theorem freeBu_self (j : Fin 12) (r : Rack) :
    (freeBu j r).bu[j] = { r.bu[j] with leakIsolated := false } := change_self ..

theorem releaseBu_late (late : r.Late) : releaseBu e j r = freeBu j r := if_pos late

theorem releaseBu_early (early : ¬r.Late) :
    releaseBu e j r = commandBu e false .restore j (freeBu j r) := if_neg early

theorem releaseBu_back (e : Env) (j : Fin 12) (r : Rack) : BuBack e j r (releaseBu e j r) := by
  refine ⟨fun late => ?_, fun early => ?_⟩
  · rw [releaseBu_late late]
    exact ⟨freeBu_self j r, rfl⟩
  · obtain ⟨record, bus⟩ := commandBu_self e false .restore j (freeBu j r)
    have takes : takesOffers e (freeBu j r) (.bu j) = takesOffers e r (.bu j) :=
      takesOffers_congr (by rw [freeBu_self]) (by rw [freeBu_self]) rfl
    rw [releaseBu_early early, record, freeBu_self, bus, takes]
    refine ⟨rfl, fun open_ none => ?_⟩
    rw [open_]
    exact entry_offer_fresh none ..

theorem releaseBu_releaseView (hl : l ≠ j) (r : Rack) :
    releaseView j (releaseBu e l r) = releaseView j r := by
  have freed : releaseView j (freeBu l r) = releaseView j r :=
    releaseView_iff.mpr ⟨(change_get r.bu l j _).trans (if_neg hl), rfl, rfl, rfl⟩
  by_cases late : r.Late
  · rw [releaseBu_late late, freed]
  · rw [releaseBu_early late]
    rw [← freed]
    exact Prod.ext (commandBu_other hl _) rfl

theorem releaseBu_psuView (j : Fin 12) (r : Rack) : psuView i (releaseBu e j r) = psuView i r := by
  by_cases late : r.Late
  · rw [releaseBu_late late]
    rfl
  · rw [releaseBu_early late]
    exact psuView_iff.mpr ⟨rfl, offer_entry_other _ _ (by simp), offer_polledSet ..⟩

/-! ### One shelf -/

theorem mem_givenPsus : i ∈ (shelfPsus h).filter (fun i => givesBack e (r.psu[i]).present) ↔
    psuShelf i = h ∧ givesBack e (r.psu[i]).present = true := by
  simp only [shelfPsus, List.mem_filter, List.mem_finRange, true_and, decide_eq_true_eq]

theorem mem_givenBus : j ∈ (shelfBus h).filter (fun j => givesBack e (r.bu[j]).present) ↔
    buShelf j = h ∧ givesBack e (r.bu[j]).present = true := by
  simp only [shelfBus, List.mem_filter, List.mem_finRange, true_and, decide_eq_true_eq]

theorem givenPsus_nodup (h : Fin 3) (p : Fin 18 → Bool) : ((shelfPsus h).filter p).Nodup :=
  ((List.nodup_finRange 18).filter _).filter _

theorem givenBus_nodup (h : Fin 3) (p : Fin 12 → Bool) : ((shelfBus h).filter p).Nodup :=
  ((List.nodup_finRange 12).filter _).filter _

/-- The PSUs of a shelf are offered OUTPUT_ON before its BUs are released. -/
theorem releaseModules_eq (e : Env) (h : Fin 3) (r : Rack) : releaseModules e h r =
    forEach (releaseBu e) ((shelfBus h).filter fun j => givesBack e (r.bu[j]).present)
      (forEach (offerOutputOn e) ((shelfPsus h).filter fun i => givesBack e (r.psu[i]).present) r) := rfl

theorem releaseModules_psuView (e : Env) (h : Fin 3) (i : Fin 18) (r : Rack) :
    psuView i (releaseModules e h r) = psuView i (forEach (offerOutputOn e)
      ((shelfPsus h).filter fun i => givesBack e (r.psu[i]).present) r) :=
  forEach_figure (psuView i) releaseBu_psuView ..

theorem givenPsus_releaseView (xs : List (Fin 18)) (j : Fin 12) (r : Rack) :
    releaseView j (forEach (offerOutputOn e) xs r) = releaseView j r :=
  forEach_figure (releaseView j) offerOutputOn_releaseView ..

theorem releaseModules_psu_back (given : psuShelf i = h ∧ givesBack e (r.psu[i]).present = true) :
    PsuBack e i r (releaseModules e h r) := by
  obtain ⟨u, same, own⟩ := (forEach_own (view := psuView i) (x := i)
    (fun _ => offerOutputOn_psuView (e := e)) _ r
    (givenPsus_nodup h _)).2 (mem_givenPsus.mpr given)
  exact (offerOutputOn_back e i u).congr same ((releaseModules_psuView ..).trans own)

theorem releaseModules_psu_left (left : ¬(psuShelf i = h ∧ givesBack e (r.psu[i]).present = true)) :
    psuView i (releaseModules e h r) = psuView i r :=
  (releaseModules_psuView ..).trans ((forEach_own (view := psuView i) (x := i)
    (fun _ => offerOutputOn_psuView (e := e)) _ r
    (givenPsus_nodup h _)).1 (left ∘ mem_givenPsus.mp))

theorem releaseModules_bu_back (given : buShelf j = h ∧ givesBack e (r.bu[j]).present = true) :
    BuBack e j r (releaseModules e h r) := by
  obtain ⟨u, same, own⟩ := (forEach_own (view := releaseView j) (x := j)
    (fun _ => releaseBu_releaseView (e := e)) _
    (forEach (offerOutputOn e) ((shelfPsus h).filter fun i => givesBack e (r.psu[i]).present) r)
    (givenBus_nodup h _)).2 (mem_givenBus.mpr given)
  exact (releaseBu_back e j u).congr (same.trans (givenPsus_releaseView ..)) own

theorem releaseModules_bu_left (left : ¬(buShelf j = h ∧ givesBack e (r.bu[j]).present = true)) :
    releaseView j (releaseModules e h r) = releaseView j r :=
  ((forEach_own (view := releaseView j) (x := j)
    (fun _ => releaseBu_releaseView (e := e)) _ _ (givenBus_nodup h _)).1
    (left ∘ mem_givenBus.mp)).trans (givenPsus_releaseView ..)

/-! ### The shelves of a zone, one after another -/

theorem releaseEach_psu_back {hs : List (Fin 3)} (nodup : hs.Nodup) (held : psuShelf i ∈ hs)
    (given : givesBack e (r.psu[i]).present = true) :
    PsuBack e i r (forEach (releaseModules e) hs r) := by
  obtain ⟨u, same, own⟩ := (forEach_own (view := psuView i) (x := psuShelf i)
    (fun h hh r => releaseModules_psu_left (e := e) fun k => hh k.1.symm) hs r nodup).2 held
  have record := (psuView_iff.mp same).1
  exact (releaseModules_psu_back ⟨rfl, by rw [record]; exact given⟩).congr same own

theorem releaseEach_bu_back {hs : List (Fin 3)} (nodup : hs.Nodup) (held : buShelf j ∈ hs)
    (given : givesBack e (r.bu[j]).present = true) :
    BuBack e j r (forEach (releaseModules e) hs r) := by
  obtain ⟨u, same, own⟩ := (forEach_own (view := releaseView j) (x := buShelf j)
    (fun h hh r => releaseModules_bu_left (e := e) fun k => hh k.1.symm) hs r nodup).2 held
  have record := (releaseView_iff.mp same).1
  exact (releaseModules_bu_back ⟨rfl, by rw [record]; exact given⟩).congr same own

theorem releaseEach_bu_left {hs : List (Fin 3)} (nodup : hs.Nodup)
    (left : ¬(buShelf j ∈ hs ∧ givesBack e (r.bu[j]).present = true)) :
    (forEach (releaseModules e) hs r).bu[j] = r.bu[j] := by
  have each := forEach_own (view := releaseView j) (x := buShelf j)
    (fun h hh r => releaseModules_bu_left (e := e) fun k => hh k.1.symm) hs r nodup
  by_cases held : buShelf j ∈ hs
  · obtain ⟨u, same, own⟩ := each.2 held
    have record := (releaseView_iff.mp same).1
    have kept := releaseModules_bu_left (e := e) (r := u) (h := buShelf j) (j := j)
      (by rw [record]; exact fun k => left ⟨held, k.2⟩)
    exact (releaseView_iff.mp (own.trans (kept.trans same))).1
  · exact (releaseView_iff.mp (each.1 held)).1

theorem releaseModules_slots (e : Env) (h : Fin 3) (r : Rack) :
    (releaseModules e h r).slots = r.slots := by
  have bu (j : Fin 12) (r : Rack) : (releaseBu e j r).slots = r.slots := by
    by_cases late : r.Late
    · rw [releaseBu_late late]; rfl
    · rw [releaseBu_early late]; rfl
  exact (forEach_figure Rack.slots bu ..).trans
    (forEach_figure (f := offerOutputOn e) Rack.slots (fun _ _ => rfl) ..)

end Sys2Proof.Machine
end

