-- ==== Sys2Proof/Proofs/ZoneClears.lean ====
section
/-! PROOF. A LEAK_CLEAR that is taken: channels, the zone, its slots and its shelves (R76, R171). The layer
under O40. -/

namespace Sys2Proof.Machine

variable {e : Env} {n m : Fin 48} {c : Fin 16} {y z : Fin 8} {d : Drain} {r : Rack} {s : State}

/-! ### The channels (R171, step 1) -/

theorem forEach_stateFigure {α β : Type} {f : α → State → State} (g : State → β)
    (h : ∀ x s, g (f x s) = g s) : ∀ (xs : List α) (s : State), g (forEach f xs s) = g s
  | [], _ => rfl
  | x :: xs, s => (forEach_stateFigure g h xs (f x s)).trans (h x s)

/-- A channel as a LEAK_CLEAR leaves a WET one (R171). -/
def Channel.release (x : Channel) : Channel :=
  { x with state := .dry, wetCount := 0, openCount := 0, dryCount := 0 }

/-- The channels are released in turn. -/
def State.releaseChannels (s : State) (cs : List (Fin 16)) : State :=
  forEach (fun (c : Fin 16) (t : State) => t.releaseChannel c) cs s

theorem releaseChannel_channel (s : State) (a c : Fin 16) : (s.releaseChannel a).leak.channels[c] =
    if a = c then (s.leak.channels[c]).release else s.leak.channels[c] := change_get ..

theorem releaseChannels_channel (c : Fin 16) : ∀ (cs : List (Fin 16)) (s : State),
    (s.releaseChannels cs).leak.channels[c] =
      if c ∈ cs then (s.leak.channels[c]).release else s.leak.channels[c]
  | [], _ => rfl
  | a :: cs, s => by
    refine (releaseChannels_channel c cs (s.releaseChannel a)).trans ?_
    rw [releaseChannel_channel]
    by_cases ha : a = c
    · subst ha
      rw [if_pos rfl, if_pos List.mem_cons_self]
      split <;> rfl
    · have mem : c ∈ a :: cs ↔ c ∈ cs := by rw [List.mem_cons, or_iff_right (Ne.symm ha)]
      rw [if_neg ha, if_congr mem rfl rfl]

theorem releaseChannels_kept (cs : List (Fin 16)) (s : State) :
    (s.releaseChannels cs).cfg = s.cfg ∧ (s.releaseChannels cs).leak.zones = s.leak.zones ∧
    (s.releaseChannels cs).rack.slots = s.rack.slots ∧
    SameModules s.rack (s.releaseChannels cs).rack := by
  have kept := forEach_stateFigure (f := fun (c : Fin 16) (t : State) => t.releaseChannel c)
    (fun t => (t.cfg, t.leak.zones, { t.rack with notif := emptyNotifQueue })) (fun _ _ => rfl) cs s
  simp only [Prod.mk.injEq] at kept
  obtain ⟨cfg, zones, rack⟩ := kept
  have part {β : Type} (g : Rack → β) := congrArg g rack
  exact ⟨cfg, zones, part Rack.slots, part Rack.psu, part Rack.bu, part Rack.bus, part Rack.rech,
    part Rack.faults, part fun r => r.acct.shortfall⟩

/-! ### One slot (R76) -/

/-- A slot of the zone that its clearing moves: ISOLATED, or draining to ISOLATED (R76). -/
def SlotRec.Cleared (x : SlotRec) : Prop :=
  x.state = .isolated ∨ x.DrainsTo .isolated

theorem releaseSlot_isolated (h : (r.slots[n]).state = .isolated) :
    releaseSlot e n r = enter e n (offState e n) .zoneCleared r := by
  simp only [releaseSlot, h]

theorem releaseSlot_draining (h : (r.slots[n]).state = .draining) (k : (r.slots[n]).drain = some d)
    (t : d.target = .isolated) : releaseSlot e n r = holdDrain e n { d with target := .off } r := by
  simp only [releaseSlot, h, k, if_pos t]

theorem releaseSlot_left (h : ¬(r.slots[n]).Cleared) : releaseSlot e n r = r := by
  unfold releaseSlot
  dsimp only
  split
  · next hs => exact absurd (.inl hs) h
  · next d hs hd => exact if_neg fun t => h (.inr ⟨hs, by rw [hd, ← t]; rfl⟩)
  · rfl

theorem releaseSlot_other (hm : m ≠ n) : (releaseSlot e m r).slots[n] = r.slots[n] := by
  unfold releaseSlot
  dsimp only
  split
  · exact enter_other _ _ _ _ _ _ hm
  · split
    · exact (congrArg (fun v : Vector SlotRec 48 => v[n]) (holdDrain_slots ..)).trans
        ((change_get ..).trans (if_neg hm))
    · rfl
  · rfl

theorem releaseSlot_sameModules (e : Env) (n : Fin 48) (r : Rack) :
    SameModules r (releaseSlot e n r) := by
  unfold releaseSlot
  dsimp only
  split
  · exact enter_sameModules ..
  · exact .ite (holdDrain_sameModules ..) (.refl r)
  · exact .refl r

/-- A slot draining to ISOLATED drains to OFF. -/
theorem releaseSlot_drainsTo (h : (r.slots[n]).DrainsTo .isolated) :
    ((releaseSlot e n r).slots[n]).DrainsTo .off := by
  obtain ⟨state, target⟩ := h
  obtain ⟨d, hd, ht⟩ := Option.map_eq_some_iff.mp target
  rw [releaseSlot_draining state hd ht, holdDrain_self]
  exact ⟨state, rfl⟩

/-- A slot that is powered or SHED stays one of them. -/
theorem releaseSlot_powered_or_shed
    (h : (r.slots[n]).state.powered = true ∨ (r.slots[n]).state = .shed) :
    ((releaseSlot e n r).slots[n]).state.powered = true ∨
      ((releaseSlot e n r).slots[n]).state = .shed := by
  by_cases cleared : (r.slots[n]).Cleared
  · rcases cleared with isolated | drains
    · rw [isolated] at h
      rcases h with h | h <;> cases h
    · rw [(releaseSlot_drainsTo drains).1]
      exact .inl rfl
  · rwa [releaseSlot_left cleared]

/-! ### The slots in turn, each handed on -/

theorem forEach_stays {α : Type} {f : α → Rack → Rack} {P : Rack → Prop} :
    ∀ (xs : List α) (r : Rack), (∀ x ∈ xs, ∀ r, P r → P (f x r)) → P r → P (forEach f xs r)
  | [], _, _, hr => hr
  | x :: xs, r, stays, hr => forEach_stays xs (f x r)
      (fun y hy => stays y (List.mem_cons_of_mem x hy)) (stays x List.mem_cons_self r hr)

/-- Something is taken from one condition to another by its own turn, both of which the others' turns
keep. -/
theorem forEach_becomes {α : Type} {f : α → Rack → Rack} {x : α} {P Q : Rack → Prop}
    (before : ∀ y, y ≠ x → ∀ r, P r → P (f y r)) (own : ∀ r, P r → Q (f x r))
    (after : ∀ y, y ≠ x → ∀ r, Q r → Q (f y r)) (xs : List α) (r : Rack) (nodup : xs.Nodup)
    (hx : x ∈ xs) (hr : P r) : Q (forEach f xs r) := by
  induction xs generalizing r with
  | nil => cases hx
  | cons y xs ih =>
    obtain ⟨out, nodup⟩ := List.nodup_cons.mp nodup
    by_cases hy : y = x
    · subst hy
      exact forEach_stays xs _ (fun a ha => after a fun k => out (k ▸ ha)) (own r hr)
    · exact ih (f y r) nodup ((List.mem_cons.mp hx).resolve_left (Ne.symm hy)) (before y hy r hr)

/-- What is handed on keeps a condition of the slot. -/
def Outlasts (e : Env) (n : Fin 48) (P : SlotRec → Prop) : Prop :=
  ∀ r : Rack, P r.slots[n] → P (handOn e r).slots[n]

theorem outlasts_unpowered {P : SlotRec → Prop} (h : ∀ x, P x → x.state.powered = false) :
    Outlasts e n P := fun r hr => by
  rwa [handOn_unpowered (h _ hr)]

variable {P Q : SlotRec → Prop} {ns : List (Fin 48)}

theorem Outlasts.others (h : Outlasts e n P) (m : Fin 48) (hm : m ≠ n) (r : Rack)
    (hr : P r.slots[n]) : P (handOn e (releaseSlot e m r)).slots[n] :=
  h _ (by rwa [releaseSlot_other hm])

theorem releaseEach_becomes (before : Outlasts e n P) (after : Outlasts e n Q)
    (own : ∀ r : Rack, P r.slots[n] → Q (releaseSlot e n r).slots[n]) (nodup : ns.Nodup)
    (hn : n ∈ ns) (hr : P r.slots[n]) : Q (eachHandedOn e (releaseSlot e) ns r).slots[n] :=
  forEach_becomes (P := fun r => P r.slots[n]) (Q := fun r => Q r.slots[n]) before.others
    (fun r hr => after _ (own r hr)) after.others ns r nodup hn hr

theorem releaseEach_stays (outlasts : Outlasts e n P)
    (own : n ∈ ns → ∀ r : Rack, P r.slots[n] → P (releaseSlot e n r).slots[n])
    (hr : P r.slots[n]) : P (eachHandedOn e (releaseSlot e) ns r).slots[n] := by
  refine forEach_stays (P := fun r => P r.slots[n]) ns r (fun m hm r hr => ?_) hr
  by_cases hmn : m = n
  · subst hmn
    exact outlasts _ (own hm r hr)
  · exact outlasts.others m hmn r hr

/-- An ISOLATED slot stands OFF or DISABLED (R76). -/
theorem releaseEach_isolated (nodup : ns.Nodup) (hn : n ∈ ns)
    (h : (r.slots[n]).state = .isolated) :
    ((eachHandedOn e (releaseSlot e) ns r).slots[n]).state = offState e n :=
  releaseEach_becomes (P := (·.state = .isolated)) (Q := (·.state = offState e n))
    (outlasts_unpowered fun x hx => by rw [hx]; rfl)
    (outlasts_unpowered fun x hx => by rw [hx]; exact offState_unpowered e n)
    (fun r hr => by rw [releaseSlot_isolated hr, enter_self]; rfl) nodup hn h

/-- A slot draining to ISOLATED drains to OFF, whatever is handed on (R58, R76). -/
theorem releaseEach_draining (nodup : ns.Nodup) (hn : n ∈ ns) (h : (r.slots[n]).DrainsTo .isolated) :
    ((eachHandedOn e (releaseSlot e) ns r).slots[n]).DrainsTo .off :=
  releaseEach_becomes (P := (·.DrainsTo .isolated)) (Q := (·.DrainsTo .off))
    (fun _ => handOn_keeps_target) (fun _ => handOn_keeps_target) (fun _ => releaseSlot_drainsTo)
    nodup hn h

/-- An unpowered slot elsewhere, or not ISOLATED, keeps its record. -/
theorem releaseEach_unpowered (h : (r.slots[n]).state.powered = false)
    (k : n ∉ ns ∨ (r.slots[n]).state ≠ .isolated) :
    (eachHandedOn e (releaseSlot e) ns r).slots[n] = r.slots[n] := by
  refine releaseEach_stays (P := (· = r.slots[n])) (outlasts_unpowered fun x hx => hx ▸ h)
    (fun hn u hu => ?_) rfl
  have left : ¬(u.slots[n]).Cleared := by
    rw [hu]
    rintro (isolated | ⟨draining, -⟩)
    · exact k.elim (· hn) (· isolated)
    · rw [draining] at h
      cases h
  rwa [releaseSlot_left left]

/-- A powered slot stays powered, or is SHED by the blocks (R58). -/
theorem releaseEach_powered (h : (r.slots[n]).state.powered = true) :
    ((eachHandedOn e (releaseSlot e) ns r).slots[n]).state.powered = true ∨
      ((eachHandedOn e (releaseSlot e) ns r).slots[n]).state = .shed :=
  releaseEach_stays (P := fun x => x.state.powered = true ∨ x.state = .shed)
    (fun _ => handOn_powered_or_shed) (fun _ _ => releaseSlot_powered_or_shed) (.inl h)

theorem releaseEach_reportsKept (e : Env) (ns : List (Fin 48)) (r : Rack) :
    ReportsKept (fun _ => True) r (eachHandedOn e (releaseSlot e) ns r) :=
  forEach_reportsKept (fun n r => (releaseSlot_sameModules e n r).reportsKept.trans
    (handOn_reportsKept (fun _ => trivial) _)) ns r

/-! ### The shelves that a zone holds (R171, step 4) -/

/-- Shelves taken off a zone's list, one after another. -/
def shelvesOff (hs : List (Fin 3)) (v : Vector Bool 3) : Vector Bool 3 :=
  forEach (fun h v => put v h false) hs v

theorem shelvesOff_get (k : Fin 3) : ∀ (hs : List (Fin 3)) (v : Vector Bool 3),
    (shelvesOff hs v)[k] = if k ∈ hs then false else v[k]
  | [], _ => rfl
  | h :: hs, v => by
    refine (shelvesOff_get k hs (put v h false)).trans ?_
    rw [put_get]
    by_cases hk : h = k
    · subst hk
      rw [if_pos rfl, if_pos List.mem_cons_self, ite_self]
    · have mem : k ∈ h :: hs ↔ k ∈ hs := by rw [List.mem_cons, or_iff_right (Ne.symm hk)]
      rw [if_neg hk, if_congr mem rfl rfl]

/-- With every held shelf taken off, none is held. -/
theorem shelvesOff_held (v : Vector Bool 3) :
    shelvesOff ((List.finRange 3).filter fun h => v[h]) v = Vector.replicate 3 false := by
  refine Vector.ext fun i hi => ?_
  refine (shelvesOff_get ⟨i, hi⟩ _ v).trans ?_
  rw [Vector.getElem_replicate]
  split
  · rfl
  · next out =>
    exact Bool.eq_false_iff.mpr fun held =>
      out (List.mem_filter.mpr ⟨List.mem_finRange _, held⟩)

/-- The shelves of a list are released, and taken off the zone's. -/
def State.releaseList (s : State) (z : Fin 8) (hs : List (Fin 3)) : State :=
  forEach (fun h s =>
    (s.changeZone z fun x => { x with shelves := put x.shelves h false }).onRack fun e r =>
      releaseModules e h r) hs s

/-- What a zone holds is no part of what the rack's blocks read. -/
theorem changeZone_env {f : Zone → Zone} (h : ∀ x, (f x).state = x.state) :
    (s.changeZone z f).env = s.env := by
  have zones : (change s.leak.zones z f).map Zone.state = s.leak.zones.map Zone.state := by
    refine Vector.ext fun i hi => ?_
    rw [Vector.getElem_map, Vector.getElem_map]
    exact change_figure s.leak.zones z ⟨i, hi⟩ f Zone.state fun _ => h _
  unfold State.env
  rw [← zones]
  rfl

theorem changeZone_changeZone (s : State) (z : Fin 8) (f g : Zone → Zone) :
    (s.changeZone z f).changeZone z g = s.changeZone z (g ∘ f) := by
  unfold State.changeZone
  rw [change_change]
  rfl

theorem releaseList_eq (z : Fin 8) : ∀ (hs : List (Fin 3)) (s : State),
    s.releaseList z hs = { s.changeZone z (fun x => { x with shelves := shelvesOff hs x.shelves }) with
      rack := forEach (releaseModules s.env) hs s.rack }
  | [], s => by
    have same : change s.leak.zones z id = s.leak.zones := Vector.set_getElem_self ..
    show s = { s with leak := { s.leak with zones := change s.leak.zones z id } }
    rw [same]
  | h :: hs, s => by
    have env := changeZone_env (s := s) (z := z)
      (f := fun x => { x with shelves := put x.shelves h false }) fun _ => rfl
    refine (releaseList_eq z hs ((s.changeZone z fun x =>
      { x with shelves := put x.shelves h false }).onRack fun e r => releaseModules e h r)).trans ?_
    rw [onRack_env, onRack_rack, env]
    have twice := changeZone_changeZone s z (fun x => { x with shelves := put x.shelves h false })
      fun x => { x with shelves := shelvesOff hs x.shelves }
    exact congrArg (fun t : State => { t with
      rack := forEach (releaseModules s.env) hs (releaseModules s.env h s.rack) }) twice

/-- The shelves that the zone holds are taken off it, and their modules given back (R171, step 4). -/
theorem releaseShelves_eq (s : State) (z : Fin 8) : s.releaseShelves z = { s with
    leak.zones := put s.leak.zones z
      { s.leak.zones[z] with shelves := Vector.replicate 3 false }
    rack := forEach (releaseModules s.env) (s.heldShelves z) s.rack } := by
  refine (releaseList_eq z (s.heldShelves z) s).trans ?_
  rw [State.heldShelves, ← shelvesOff_held (s.leak.zones[z]).shelves]
  rfl

/-! ### The zone (R171, steps 2 and 3) -/

/-- The zone without its grace, and CLEAR. -/
def State.zoneCleared (s : State) (z : Fin 8) : State :=
  (s.changeZone z fun x => { x with grace := none }).setZone z .clear

theorem zoneCleared_zoneMoves (s : State) (z : Fin 8) : ZoneMoves s (s.zoneCleared z) :=
  (changeZone_zoneMoves ..).trans (setZone_zoneMoves ..)

theorem zoneCleared_zone (s : State) (z y : Fin 8) : (s.zoneCleared z).leak.zones[y] =
    if z = y then { s.leak.zones[y] with grace := none, state := .clear } else s.leak.zones[y] := by
  refine (setZone_zone ..).trans ?_
  rw [changeZone_zone]
  by_cases hy : z = y
  · subst hy
    simp only [if_true]
  · simp only [if_neg hy]

/-- The zone with its channels released, CLEAR, its slots and shelves still to come. -/
def State.dried (s : State) (z : Fin 8) : State :=
  (s.releaseChannels (s.wetChannels z)).zoneCleared z

/-- The slots of the zone in turn. -/
def State.slotsFreed (s : State) (z : Fin 8) : State :=
  (s.dried z).onRack fun e r => eachHandedOn e (releaseSlot e) (e.zoneSlots z) r

theorem clearZone_eq (s : State) (z : Fin 8) : s.clearZone z = (s.slotsFreed z).releaseShelves z := rfl

theorem dried_cfg (s : State) (z : Fin 8) : (s.dried z).cfg = s.cfg :=
  (zoneCleared_zoneMoves ..).cfg.trans (releaseChannels_kept ..).1

theorem dried_slots (s : State) (z : Fin 8) : (s.dried z).rack.slots = s.rack.slots := by
  obtain ⟨-, -, slots, -⟩ := releaseChannels_kept (s.wetChannels z) s
  exact (zoneCleared_zoneMoves ..).slots.trans slots

theorem dried_sameModules (s : State) (z : Fin 8) : SameModules s.rack (s.dried z).rack := by
  obtain ⟨-, -, -, same⟩ := releaseChannels_kept (s.wetChannels z) s
  exact same.trans (zoneCleared_zoneMoves ..).sameModules

theorem dried_zone (s : State) (z y : Fin 8) : (s.dried z).leak.zones[y] =
    if z = y then { s.leak.zones[y] with grace := none, state := .clear } else s.leak.zones[y] := by
  obtain ⟨-, zones, -, -⟩ := releaseChannels_kept (s.wetChannels z) s
  refine (zoneCleared_zone ..).trans ?_
  rw [zones]

theorem dried_channel (s : State) (z : Fin 8) (c : Fin 16) : (s.dried z).leak.channels[c] =
    if c ∈ s.wetChannels z then (s.leak.channels[c]).release else s.leak.channels[c] := by
  have leak := (zoneCleared_zoneMoves (s.releaseChannels (s.wetChannels z)) z).leak
  refine Eq.trans ?_ (releaseChannels_channel c (s.wetChannels z) s)
  unfold State.dried
  rw [leak]

/-- What a slot's zone and profile are is a matter of the working configuration. -/
theorem dried_slotZone (s : State) (z : Fin 8) : (s.dried z).env.slotZone = s.env.slotZone := by
  funext n
  exact congrArg (fun c : WorkCfg => zoneOf (c.record.slots[n]).zone) (dried_cfg s z)

theorem dried_profile (s : State) (z : Fin 8) : (s.dried z).env.profile = s.env.profile := by
  funext n
  exact congrArg (fun c : WorkCfg => profileAt c (c.record.slots[n]).profile) (dried_cfg s z)

theorem dried_zoneSlots (s : State) (z : Fin 8) :
    (s.dried z).env.zoneSlots z = (List.finRange 48).filter fun n => s.env.slotZone n == some z := by
  unfold Env.zoneSlots
  rw [dried_slotZone]

theorem mem_dried_zoneSlots : n ∈ (s.dried z).env.zoneSlots z ↔ s.env.slotZone n = some z := by
  rw [dried_zoneSlots, List.mem_filter, beq_iff_eq, and_iff_right (List.mem_finRange n)]

theorem zoneSlots_nodup (e : Env) (z : Fin 8) : (e.zoneSlots z).Nodup := (List.nodup_finRange 48).filter _

theorem mem_wetChannels : c ∈ s.wetChannels z ↔
    s.channelZone c = some z ∧ (s.leak.channels[c]).state = .wet := by
  simp only [State.wetChannels, State.zoneChannels, List.mem_filter, List.mem_finRange, true_and,
    beq_iff_eq]

/-! ### The part as a LEAK_CLEAR leaves it -/

theorem clearZone_slots (s : State) (z : Fin 8) : (s.clearZone z).rack.slots =
    (eachHandedOn (s.dried z).env (releaseSlot (s.dried z).env) ((s.dried z).env.zoneSlots z)
      (s.dried z).rack).slots := by
  rw [clearZone_eq, releaseShelves_eq]
  exact forEach_figure Rack.slots (releaseModules_slots _) ..

theorem clearZone_channel (s : State) (z : Fin 8) (c : Fin 16) : (s.clearZone z).leak.channels[c] =
    if c ∈ s.wetChannels z then (s.leak.channels[c]).release else s.leak.channels[c] := by
  rw [clearZone_eq, releaseShelves_eq]
  exact dried_channel s z c

theorem clearZone_zone (s : State) (z y : Fin 8) : (s.clearZone z).leak.zones[y] =
    if z = y then { s.leak.zones[y] with
      grace := none, state := .clear, shelves := Vector.replicate 3 false } else s.leak.zones[y] := by
  rw [clearZone_eq, releaseShelves_eq]
  refine (put_get ..).trans ?_
  by_cases hy : z = y
  · subst hy
    rw [if_pos rfl, if_pos rfl]
    exact congrArg (fun x : Zone => { x with shelves := Vector.replicate 3 false })
      ((dried_zone s z z).trans (if_pos rfl))
  · rw [if_neg hy, if_neg hy]
    exact (dried_zone s z y).trans (if_neg hy)

theorem slotsFreed_reportsKept (s : State) (z : Fin 8) :
    ReportsKept (fun _ => True) s.rack (s.slotsFreed z).rack :=
  (dried_sameModules s z).reportsKept.trans (releaseEach_reportsKept ..)

theorem slotsFreed_heldShelves (s : State) (z : Fin 8) :
    (s.slotsFreed z).heldShelves z = (List.finRange 3).filter fun h => (s.leak.zones[z]).shelves[h] := by
  have zone : (s.slotsFreed z).leak.zones[z] = _ := (dried_zone s z z).trans (if_pos rfl)
  unfold State.heldShelves
  rw [zone]

theorem mem_slotsFreed_heldShelves {h : Fin 3} :
    h ∈ (s.slotsFreed z).heldShelves z ↔ (s.leak.zones[z]).shelves[h] = true := by
  rw [slotsFreed_heldShelves, List.mem_filter, and_iff_right (List.mem_finRange h)]

theorem heldShelves_nodup (s : State) (z : Fin 8) : (s.heldShelves z).Nodup :=
  (List.nodup_finRange 3).filter _

theorem givesBack_present (e : Env) {p : Bool} (h : p = true) : givesBack e p = true := by
  rw [h]; rfl

/-- The PSUs of the shelves that the zone held are commanded on. -/
theorem clearZone_psu {i : Fin 18} (held : (s.leak.zones[z]).shelves[psuShelf i] = true)
    (present : (s.rack.psu[i]).present = true) :
    ((s.clearZone z).rack.psu[i]).commandedOn = true := by
  have record : (s.slotsFreed z).rack.psu = s.rack.psu := (slotsFreed_reportsKept s z).psu
  have back := releaseEach_psu_back (e := (s.slotsFreed z).env) (r := (s.slotsFreed z).rack) (i := i)
    (heldShelves_nodup (s.slotsFreed z) z) (mem_slotsFreed_heldShelves.mpr held)
    (givesBack_present _ (by rw [record]; exact present))
  rw [clearZone_eq, releaseShelves_eq]
  exact congrArg PsuRec.commandedOn back.1

/-- The BUs of the shelves that the zone held are no longer leak-isolated. -/
theorem clearZone_bu {j : Fin 12} (held : (s.leak.zones[z]).shelves[buShelf j] = true)
    (present : (s.rack.bu[j]).present = true) :
    ((s.clearZone z).rack.bu[j]).leakIsolated = false := by
  have kept : ((s.slotsFreed z).rack.bu[j]).present = (s.rack.bu[j]).present :=
    ((slotsFreed_reportsKept s z).reported j).figure BuRec.present rfl
  have back := releaseEach_bu_back (e := (s.slotsFreed z).env) (r := (s.slotsFreed z).rack) (j := j)
    (heldShelves_nodup (s.slotsFreed z) z) (mem_slotsFreed_heldShelves.mpr held)
    (givesBack_present _ (kept.trans present))
  rw [clearZone_eq, releaseShelves_eq]
  exact back.leakIsolated

end Sys2Proof.Machine
end

