-- ==== Sys2Proof/Proofs/LeakRequests.lean ====
section
/-! PROOF. SET_LEAK_ACTION and LEAK_CLEAR (O40). -/

namespace Sys2Proof.Machine

variable {e : Env} {n : Fin 48} {c : Fin 16} {z : Fin 8} {s : State} {tag : Byte}
variable {a : LeakAction} {g : Fin 65536} {iso : Byte} {before x : LeakEntry}

/-! ### SET_LEAK_ACTION (R168, R169) -/

theorem zoneOf_u8 (z : Fin 8) : zoneOf (BitVec.ofNat 8 z.val).toNat = some z := by
  have h : (BitVec.ofNat 8 z.val).toNat = z.val := toNat_u8 (by omega)
  rw [h]
  exact dif_pos z.isLt

theorem leakActionOf_code (a : LeakAction) : leakActionOf (BitVec.ofNat 8 a.code).toNat = some a := by
  cases a <;> rfl

/-- The entry that a SET_LEAK_ACTION gives: its grace clamped to 1 to 600 (R168). -/
theorem leakEntryOf_eq (a : LeakAction) (g : Nat) (iso : Byte) :
    leakEntryOf a g iso.toNat = ⟨a, max 1 (min 600 g), iso != 0⟩ := by
  have on : (iso.toNat != 0) = (iso != 0) := by
    rw [Bool.eq_iff_iff, bne_iff_ne, bne_iff_ne, ne_eq, ne_eq, ← BitVec.toNat_inj]
    rfl
  unfold leakEntryOf
  rw [clamp_eq (by decide), on]

theorem setLeakActionBody_given (z : Fin 8) (a : LeakAction) (g : Fin 65536) (iso : Byte) (s : State) :
    setLeakActionBody (u8 z.val ++ u8 a.code ++ u16 g ++ [iso]) s =
      checked s.held codeHeld (fun s =>
        let x : LeakEntry := ⟨a, max 1 (min 600 g), iso != 0⟩
        let t := s.setLeakAction z x
        t.answer (if x.grace = g.val ∧ iso.toNat ≤ 1 then codeOk else codeClamped)
          (u8 a.code ++ u16 x.grace ++ flag x.shelfIsolate
            ++ u8 (t.leak.zones[z]).state.code)) s := by
  have grace := fromBytes_u16 g.isLt
  rw [← leakEntryOf_eq]
  simp only [u16] at grace
  simp only [setLeakActionBody, u8, u16, List.cons_append, List.nil_append, zoneOf_u8,
    leakActionOf_code, grace]
  rfl

theorem exec_setLeakAction (held : s.held = false)
    (h : Ready s 0x22 tag (u8 z.val ++ u8 a.code ++ u16 g ++ [iso])) :
    let x : LeakEntry := ⟨a, max 1 (min 600 g), iso != 0⟩
    let t := s.take.setLeakAction z x
    exec (.setLeakAction tag (u8 z.val ++ u8 a.code ++ u16 g ++ [iso])) s =
      .next (t.reply 0x22 tag
        ((if x.grace = g.val ∧ iso.toNat ≤ 1 then codeOk else codeClamped) ::
          (u8 a.code ++ u16 x.grace ++ flag x.shelfIsolate
            ++ u8 (t.leak.zones[z]).state.code))).conclude := by
  show Host.Outcome.next (s.serve false 0x22 tag _ _) = _
  rw [State.serve_ready h, setLeakActionBody_given, show s.take.held = false from held, checked_false]
  rfl

theorem isolateShelves_cfg (s : State) (z : Fin 8) : (s.isolateShelves z).cfg = s.cfg := by
  unfold State.isolateShelves
  refine forEach_stateFigure State.cfg (fun _ _ => ?_) _ s
  rfl

theorem isolateZone_cfg (s : State) (z : Fin 8) : (s.isolateZone z).cfg = s.cfg := by
  unfold State.isolateZone
  dsimp only
  split
  · exact isolateShelves_cfg ..
  · rfl

theorem actAnew_cfg (s : State) (z : Fin 8) (before : LeakEntry) : (s.actAnew z before).cfg = s.cfg := by
  unfold State.actAnew
  dsimp only
  split
  · split
    · exact isolateZone_cfg ..
    all_goals rfl
  · split
    · exact isolateShelves_cfg ..
    · rfl
  all_goals rfl

/-- The entry is replaced in the leak action table (R168). -/
def State.withEntry (s : State) (z : Fin 8) (x : LeakEntry) : State :=
  { s with cfg := { s.cfg with leakTable := put s.cfg.leakTable z x } }

theorem setLeakAction_cfg (s : State) (z : Fin 8) (x : LeakEntry) :
    (s.setLeakAction z x).cfg = (s.withEntry z x).cfg := by
  unfold State.setLeakAction
  dsimp only
  split
  · exact actAnew_cfg ..
  · rfl

theorem setLeakAction_locked (h : s.cfg.locked = true) :
    s.setLeakAction z x = (s.withEntry z x).actAnew z s.cfg.leakTable[z] := if_pos h

theorem setLeakAction_unlocked (h : s.cfg.locked = false) :
    s.setLeakAction z x = s.withEntry z x := if_neg (by rw [h]; exact Bool.false_ne_true)

theorem withEntry_entry (s : State) (z : Fin 8) (x : LeakEntry) :
    (s.withEntry z x).cfg.leakTable[z] = x := put_self ..

/-! A latched zone is acted on at once (R169). -/

theorem actAnew_open (h : (s.leak.zones[z]).state = .clear ∨ (s.leak.zones[z]).state = .watch) :
    s.actAnew z before = s := by
  rcases h with h | h <;> simp only [State.actAnew, h]

theorem actAnew_alarm (h : (s.leak.zones[z]).state = .alarm) :
    ((s.cfg.leakTable[z]).action = .notifyOnly →
      s.actAnew z before = s.changeZone z fun x => { x with grace := none }) ∧
    ((s.cfg.leakTable[z]).action = .isolateAfterGrace → (s.leak.zones[z]).grace = none →
      s.actAnew z before = s.beginGrace z) ∧
    ((s.cfg.leakTable[z]).action = .isolateAfterGrace → (s.leak.zones[z]).grace ≠ none →
      s.actAnew z before = s) ∧
    ((s.cfg.leakTable[z]).action = .isolateNow → s.actAnew z before = s.isolateZone z) := by
  refine ⟨fun k => ?_, fun k none => ?_, fun k some => ?_, fun k => ?_⟩
  · simp only [State.actAnew, h, k]
  · simp only [State.actAnew, h, k, none]
  · obtain ⟨d, hd⟩ := Option.ne_none_iff_exists'.mp some
    simp only [State.actAnew, h, k, hd]
  · simp only [State.actAnew, h, k]

theorem actAnew_isolated (h : (s.leak.zones[z]).state = .isolated) : s.actAnew z before =
    if (s.cfg.leakTable[z]).shelfIsolate && !before.shelfIsolate then s.isolateShelves z else s := by
  simp only [State.actAnew, h]

theorem setLeakAction_open (h : s.cfg.locked = false ∨ (s.leak.zones[z]).state = .clear ∨
    (s.leak.zones[z]).state = .watch) : s.setLeakAction z x = s.withEntry z x := by
  cases locked : s.cfg.locked with
  | false => exact setLeakAction_unlocked locked
  | true =>
    rw [locked] at h
    exact (setLeakAction_locked locked).trans (actAnew_open (h.resolve_left Bool.true_eq_false.mp))

theorem setLeakAction_alarm (locked : s.cfg.locked = true) (h : (s.leak.zones[z]).state = .alarm) :
    (x.action = .notifyOnly → s.setLeakAction z x =
      (s.withEntry z x).changeZone z fun x => { x with grace := none }) ∧
    (x.action = .isolateAfterGrace → (s.leak.zones[z]).grace = none →
      s.setLeakAction z x = (s.withEntry z x).beginGrace z) ∧
    (x.action = .isolateAfterGrace → (s.leak.zones[z]).grace ≠ none →
      s.setLeakAction z x = s.withEntry z x) ∧
    (x.action = .isolateNow → s.setLeakAction z x = (s.withEntry z x).isolateZone z) := by
  have acts := actAnew_alarm (s := s.withEntry z x) (before := s.cfg.leakTable[z]) (z := z) h
  rw [withEntry_entry] at acts
  rw [setLeakAction_locked locked]
  exact acts

theorem setLeakAction_isolated (locked : s.cfg.locked = true)
    (h : (s.leak.zones[z]).state = .isolated) : s.setLeakAction z x =
      if x.shelfIsolate && !(s.cfg.leakTable[z]).shelfIsolate then (s.withEntry z x).isolateShelves z
      else s.withEntry z x := by
  have acts := actAnew_isolated (s := s.withEntry z x) (before := s.cfg.leakTable[z]) (z := z) h
  rw [withEntry_entry] at acts
  rw [setLeakAction_locked locked, acts]

/-! ### LEAK_CLEAR (R170) -/

theorem exec_leakClear (h : Ready s 0x23 tag (u8 z.val)) : exec (.leakClear tag (u8 z.val)) s =
    .next ((leakClearBody z s.take).1.reply 0x23 tag (leakClearBody z s.take).2).conclude := by
  show Host.Outcome.next (s.serve false 0x23 tag _ _) = _
  rw [State.serve_ready h, indexed_u8 (by decide)]

theorem mem_notDry : c ∈ s.notDry z ↔ s.channelZone c = some z ∧ (s.leak.channels[c]).dryRun ≠ 10 := by
  simp only [State.notDry, State.zoneChannels, List.mem_filter, List.mem_finRange, true_and,
    beq_iff_eq, bne_iff_ne]

/-- The refusing channel is the lowest of the zone short of ten dry readings (R170). -/
theorem notDry_first (hz : s.channelZone c = some z) (short : (s.leak.channels[c]).dryRun ≠ 10)
    (lowest : ∀ d : Fin 16, d < c → s.channelZone d = some z → (s.leak.channels[d]).dryRun = 10) :
    ∃ cs, s.notDry z = c :: cs := by
  have sorted : (s.notDry z).Pairwise (· < ·) :=
    ((List.pairwise_lt_finRange 16).filter _).filter _
  have mem : c ∈ s.notDry z := mem_notDry.mpr ⟨hz, short⟩
  cases hl : s.notDry z with
  | nil =>
    rw [hl] at mem
    cases mem
  | cons d cs =>
    obtain ⟨dz, dshort⟩ := mem_notDry.mp (hl ▸ List.mem_cons_self : d ∈ s.notDry z)
    rw [hl] at sorted mem
    rcases List.mem_cons.mp mem with rfl | later
    · exact ⟨cs, rfl⟩
    · exact absurd (lowest d ((List.pairwise_cons.mp sorted).1 c later) dz) dshort

theorem leakClearBody_refused {cs : List (Fin 16)} (h : s.notDry z = c :: cs) :
    leakClearBody z s = s.answer codeRefusedState
      (u8 c.val ++ u8 (s.leak.channels[c]).state.code ++ u8 (s.leak.channels[c]).dryRun) := by
  unfold leakClearBody
  rw [h]

theorem leakClearBody_taken (h : s.notDry z = []) : leakClearBody z s =
    (s.clearZone z).answer codeOk (u32 (s.wetChannels z).length ++ u32 (s.isolatedSlots z).length
      ++ u32 (s.heldShelves z).length) := by
  unfold leakClearBody
  rw [h]

theorem wetChannels_eq (s : State) (z : Fin 8) : s.wetChannels z = (List.finRange 16).filter fun c =>
    s.channelZone c == some z && (s.leak.channels[c]).state == .wet := by
  simp only [State.wetChannels, State.zoneChannels, List.filter_filter, Bool.and_comm]

theorem isolatedSlots_eq (s : State) (z : Fin 8) : s.isolatedSlots z = (List.finRange 48).filter fun n =>
    s.env.slotZone n == some z && (s.rack.slots[n]).state == .isolated := by
  simp only [State.isolatedSlots, Env.zoneSlots, List.filter_filter, Bool.and_comm]

theorem givesBack_iff (e : Env) (p : Bool) :
    givesBack e p = true ↔ p = true ∨ e.cfg.locked = false := by
  simp only [givesBack, Env.commissioned, Bool.or_eq_true, Bool.not_eq_true']

/-- A BU given back, by its whole record. -/
theorem BuBack.record {j : Fin 12} {r t : Rack} (h : BuBack e j r t) : t.bu[j] = { r.bu[j] with
    leakIsolated := false
    commandedIsolate := if r.grid.state = .drain ∨ r.grid.state = .dark then
      (r.bu[j]).commandedIsolate else false } := by
  obtain ⟨late, early⟩ := h
  split
  · next l => exact (late l).1
  · next l => exact (early l).1

theorem clearZone_course (s : State) (z : Fin 8) :
    let dried := s.releaseChannels (s.wetChannels z)
    let released : Zone := { dried.leak.zones[z] with grace := none }
    let clear :=
      ({ dried with leak.zones := put dried.leak.zones z released } : State).setZone z .clear
    s.clearZone z = State.releaseShelves { clear with
      rack := forEach (fun n r => handOn clear.env (releaseSlot clear.env n r))
        ((List.finRange 48).filter fun n => s.env.slotZone n == some z) clear.rack } z := by
  rw [clearZone_eq, State.slotsFreed, ← dried_zoneSlots]
  rfl

/-- What a LEAK_CLEAR makes of the zone's slots that stand or drain to ISOLATED (R76). -/
theorem clearZone_cleared (hz : s.env.slotZone n = some z) :
    ((s.rack.slots[n]).state = .isolated → ((s.clearZone z).rack.slots[n]).state =
      if (s.env.profile n).valid then .off else .disabled) ∧
    ((s.rack.slots[n]).DrainsTo .isolated → ((s.clearZone z).rack.slots[n]).DrainsTo .off) := by
  rw [clearZone_slots, ← dried_slots s z]
  refine ⟨fun h => ?_, releaseEach_draining (zoneSlots_nodup _ z) (mem_dried_zoneSlots.mpr hz)⟩
  rw [releaseEach_isolated (zoneSlots_nodup _ z) (mem_dried_zoneSlots.mpr hz) h, offState,
    dried_profile]

/-- The other slots are left, or shed by the blocks (R58, R76). -/
theorem clearZone_others (h : s.env.slotZone n ≠ some z ∨ (s.rack.slots[n]).state ≠ .isolated) :
    ((s.rack.slots[n]).state.powered = false →
      (s.clearZone z).rack.slots[n] = s.rack.slots[n]) ∧
    ((s.rack.slots[n]).state.powered = true →
      ((s.clearZone z).rack.slots[n]).state.powered = true ∨
        ((s.clearZone z).rack.slots[n]).state = .shed) := by
  rw [clearZone_slots, ← dried_slots s z]
  rw [← dried_slots s z] at h
  exact ⟨fun k => releaseEach_unpowered k (h.imp_left (mt mem_dried_zoneSlots.mp)),
    releaseEach_powered⟩

end Sys2Proof.Machine

section
open Sys2Proof Sys2Proof.Machine

/-- Settles O40: the entry replaced and the zone acted on, the LEAK_CLEAR refused or taken, and what it
makes of channels, zone, slots and shelves. -/
theorem leakRequests : Obligations.LeakRequests := by
  refine ⟨fun s tag => ⟨fun z a g iso held ready => ?_, fun z ready => ⟨fun c hz short lowest => ?_,
      fun dry => ?_⟩⟩,
    fun s z => ⟨releaseShelves_eq s z, fun j hj back => ?_, fun j left => ?_, fun i hi back => ?_⟩,
    fun e n r => ⟨releaseSlot_isolated, fun d hs hd ht => ?_, fun hs hd => ?_⟩,
    fun e h r => ⟨releaseModules_slots e h r, fun i hi back => ?_, fun i left => ?_,
      fun j hj back => ?_, fun j left => ?_⟩⟩
  · refine ⟨exec_setLeakAction held ready, setLeakAction_cfg .., setLeakAction_open (s := s.take),
      setLeakAction_alarm (s := s.take) (x := ⟨a, max 1 (min 600 g), iso != 0⟩),
      fun locked isolated => ?_⟩
    have acts := setLeakAction_isolated (s := s.take) (x := ⟨a, max 1 (min 600 g), iso != 0⟩) locked
      isolated
    refine ⟨fun on off => acts.trans (if_pos ?_), fun h => acts.trans (if_neg ?_)⟩
    · rw [Bool.and_eq_true, bne_iff_ne, Bool.not_eq_true']
      exact ⟨on, off⟩
    · rw [Bool.and_eq_true, bne_iff_ne, Bool.not_eq_true']
      rintro ⟨on, off⟩
      rcases h with h | h
      · exact on h
      · exact absurd (h.symm.trans off) (by decide)
  · obtain ⟨cs, first⟩ := notDry_first hz short lowest
    rw [exec_leakClear ready, leakClearBody_refused (s := s.take) first]
    rfl
  · have none : s.notDry z = [] := List.eq_nil_iff_forall_not_mem.mpr fun c hc => by
      obtain ⟨hz, short⟩ := mem_notDry.mp hc
      exact short (dry c hz)
    refine ⟨⟨?_, ?_⟩, fun c hz wet => ?_, fun c h => ?_, ?_, ?_, fun h => ?_, fun y hy => ?_,
      fun n hz => (clearZone_cleared hz).1, fun n d hz hs hd ht => ?_, fun n h => ?_,
      fun i => clearZone_psu, fun j => clearZone_bu⟩
    · rw [exec_leakClear ready, leakClearBody_taken (s := s.take) none, wetChannels_eq,
        isolatedSlots_eq]
      rfl
    · rw [clearZone_course, wetChannels_eq]
      rfl
    · rw [clearZone_channel, if_pos (mem_wetChannels.mpr ⟨hz, wet⟩)]
      exact ⟨rfl, rfl⟩
    · rw [clearZone_channel, if_neg (by rw [mem_wetChannels, not_and_or]; exact h)]
    · rw [clearZone_zone, if_pos rfl]
    · rw [clearZone_zone, if_pos rfl]
    · rw [clearZone_zone, if_pos rfl]
      exact Vector.getElem_replicate ..
    · rw [clearZone_zone, if_neg (Ne.symm hy)]
    · exact (clearZone_cleared hz).2 ⟨hs, by rw [hd, ← ht]; rfl⟩
    · exact clearZone_others (h.imp_right And.left)
  · have given := releaseEach_bu_back (e := s.env) (heldShelves_nodup s z) hj
      ((givesBack_iff ..).mpr back)
    rw [releaseShelves_eq]
    exact ⟨given.record, fun early => (given.2 early).2⟩
  · rw [releaseShelves_eq]
    exact releaseEach_bu_left (heldShelves_nodup s z)
      fun h => left (h.imp_right (givesBack_iff ..).mp)
  · rw [releaseShelves_eq]
    exact releaseEach_psu_back (heldShelves_nodup s z) hi ((givesBack_iff ..).mpr back)
  · rw [releaseSlot_draining hs hd ht]
    exact ⟨congrArg Rack.slots (holdDrain_eq ..), congrArg Rack.notif (holdDrain_eq ..)⟩
  · exact releaseSlot_left (not_or.mpr ⟨hs, hd⟩)
  · exact releaseModules_psu_back ⟨hi, (givesBack_iff ..).mpr back⟩
  · obtain ⟨record, entry, -⟩ := psuView_iff.mp
      (releaseModules_psu_left fun h => left (h.imp_right (givesBack_iff e _).mp))
    exact ⟨record, entry⟩
  · exact releaseModules_bu_back ⟨hj, (givesBack_iff ..).mpr back⟩
  · obtain ⟨record, entry, -⟩ := releaseView_iff.mp
      (releaseModules_bu_left fun h => left (h.imp_right (givesBack_iff e _).mp))
    exact ⟨record, entry⟩

end
end

