-- ==== Sys2Proof/Proofs/GrantsGated.lean ====
section
/-! PROOF. What a grant needs: the lock, the first leak window, an open zone and no Safe Hold (O60). -/

namespace Sys2Proof.Machine

variable {p : Prop} {e : Env} {a b c : Rack} {s t u : State}

/-! ### No grant -/

/-- No slot comes to be powered, and Safe Hold, once on, stays on. -/
structure Quiet (a b : Rack) : Prop where
  powers : ∀ n : Fin 48, (b.slots[n]).state.powered = true → (a.slots[n]).state.powered = true
  held : a.faults.held = true → b.faults.held = true

theorem Quiet.of_eq (slots : b.slots = a.slots) (faults : b.faults = a.faults) : Quiet a b :=
  ⟨fun n h => by rwa [slots] at h, fun h => by rwa [faults]⟩

theorem Quiet.refl (r : Rack) : Quiet r r := .of_eq rfl rfl

theorem Quiet.trans (h : Quiet a b) (k : Quiet b c) : Quiet a c :=
  ⟨fun n => h.powers n ∘ k.powers n, k.held ∘ h.held⟩

/-- A rack whose slots are all unpowered. -/
theorem Quiet.of_unpowered (off : ∀ n : Fin 48, (b.slots[n]).state.powered = false)
    (faults : b.faults = a.faults) : Quiet a b :=
  ⟨fun n h => absurd ((off n).symm.trans h) Bool.false_ne_true, fun h => by rwa [faults]⟩

/-- Moves among which there is no grant. -/
theorem Reach.quiet (h : Reach False e a b) : Quiet a b :=
  ⟨fun n k => (h.powered n k).resolve_right fun ⟨no, _⟩ => no, h.held⟩

theorem Moves.quiet (h : Moves False s t) : Quiet s.rack t.rack := by
  induction h with
  | refl => exact .refl _
  | rack r _ hr ih => exact ih.trans hr.quiet
  | beside _ hb ih => rwa [hb.rack]

theorem onRack_quiet {f : Env → Rack → Rack} (h : Quiet a t.rack)
    (k : Reach False t.env t.rack (f t.env t.rack)) : Quiet a (t.onRack f).rack := h.trans k.quiet

theorem ZoneMoves.quiet (h : ZoneMoves s t) : Quiet s.rack t.rack :=
  .of_eq h.slots h.sameModules.faults

/-! ### Grants by the gates alone (R66, R94, R96) -/

/-- A slot that comes to be powered had the part COMMISSIONED, the first window over and its zone open, and
p held; p holds while Safe Hold is off. -/
structure Gated (p : Prop) (a : Rack) (t : State) : Prop where
  powers : ∀ n : Fin 48, (t.rack.slots[n]).state.powered = true →
    (a.slots[n]).state.powered = true ∨ (t.env.commissioned = true ∧ t.env.firstWindow = true ∧
      t.env.slotZoneOpen n = true ∧ p)
  hold : t.rack.faults.held = false → p

theorem Gated.congr (h : Gated p a t) (env : u.env = t.env) (rack : u.rack = t.rack) : Gated p a u :=
  ⟨by rw [env, rack]; exact h.powers, by rw [rack]; exact h.hold⟩

theorem Quiet.gated (h : Quiet a t.rack) (hp : a.faults.held = false → p) : Gated p a t :=
  ⟨fun n k => .inl (h.powers n k), fun k => hp (Bool.eq_false_iff.mpr fun on => by
    rw [h.held on] at k; cases k)⟩

/-- The blocks' moves, grants among them, on the part as it stands. -/
theorem Gated.moved (h : Gated p a t) (k : Reach True t.env t.rack b) :
    Gated p a { t with rack := b } := by
  refine ⟨fun n hn => ?_, fun off => h.hold (Bool.eq_false_iff.mpr fun on => ?_)⟩
  · rcases k.powered n hn with before | ⟨-, commissioned, window, off, zone⟩
    · exact h.powers n before
    · exact .inr ⟨commissioned, window, zone, h.hold off⟩
  · rw [show b.faults.held = true from k.held on] at off
    cases off

theorem conclude_env (s : State) : s.conclude.env = s.env := by
  unfold State.env
  rw [conclude_now, conclude_cfg, conclude_marks, conclude_leak]

theorem Gated.conclude (h : Gated p a t) : Gated p a t.conclude :=
  (h.moved ((finishRack_reach t.env t.rack).todo _)).congr (conclude_env t) (conclude_rack t)

theorem Gated.concludes (h : Gated p a t) : Ends (.next t.conclude) (Gated p a) := .next h.conclude

/-- A command that ends an ordinary turn. -/
theorem Turn.gated (h : Turn s t) (hp : s.held = false → p) : Gated p s.rack t := by
  cases h with
  | still => exact (Quiet.refl _).gated hp
  | acts moves => exact (moves.quiet.gated hp).conclude

theorem turn_gated {o : Outcome} (h : Ends o (Turn s)) (hp : s.held = false → p) :
    Ends o (Gated p s.rack) := h.mono fun _ turn => turn.gated hp

/-! ### Requests -/

/-- A request answers as its body leaves the part, or without an effect. -/
theorem serve_gated {early : Bool} {kind tag : Byte} {payload : List Byte} {body : State → Answer}
    (still : Gated p a s) (h : Gated p a (body s.take).1) :
    Ends (.next (s.serve early kind tag payload body)) (Gated p a) := by
  have answered (c : List Byte) : Gated p a (s.take.reply kind tag c) := still.congr rfl rfl
  refine .next ?_
  unfold State.serve State.execute
  dsimp only
  split
  · split
    · exact (answered _).conclude
    · split
      · exact (answered _).conclude
      · exact (h.congr rfl rfl : Gated p a ((body s.take).1.reply ..)).conclude
  · exact still

theorem checked_gated {bad : Bool} {code : Byte} {body : State → Answer} (still : Gated p a t)
    (h : Gated p a (body t).1) : Gated p a (checked bad code body t).1 := by
  unfold checked
  split <;> assumption

theorem noPayload_gated {payload : List Byte} {body : State → Answer} (still : Gated p a t)
    (h : Gated p a (body t).1) : Gated p a (noPayload payload body t).1 := by
  unfold noPayload
  split <;> assumption

/-! ### Power-on, loads and warm restarts (R22, R82, R196) -/

/-- A power-on leaves every slot DISABLED (R82). -/
theorem exec_powerOn_unpowered {n : Fin 48} (h : exec .powerOn s = .next t) :
    (t.rack.slots[n]).state.powered = false := by
  rw [exec_powerOn] at h
  cases h
  dsimp only
  rw [powerOn_slot]
  rfl

theorem offOrDisabled (v : Bool) : (if v then SlotState.off else .disabled).powered = false := by
  cases v <;> rfl

theorem execStoreLoadComplete_gated (hp : s.held = false → p) :
    Ends (execStoreLoadComplete s) (Gated p s.rack) := by
  unfold execStoreLoadComplete
  split
  · exact .next ((Quiet.refl _).gated hp)
  · have loaded : Quiet s.rack (s.loadTables.onRack loadSlots).rack :=
      .of_unpowered (fun n => by rw [onRack_rack, loadSlots_slots]; exact offOrDisabled _)
        (by rw [onRack_rack, loadSlots_faults, loadTables_faults])
    dsimp only
    exact (Quiet.gated (onRack_quiet loaded
      (forEach_reach (fun _ _ => logFault_reach ..) _ _)) hp).concludes

theorem warmRestart_quiet (s : State) : Quiet s.rack s.warmRestart.rack :=
  .of_unpowered (fun n => by rw [warmRestart_slot]; exact offOrDisabled _) rfl

theorem execRestartN_gated (hp : s.held = false → p) : Ends (execRestartN s) (Gated p s.rack) := by
  unfold execRestartN
  refine .ite (.next ((Quiet.refl _).gated hp)) (Gated.concludes ?_)
  exact ((warmRestart_quiet s).gated hp).congr rfl rfl

theorem execReplySent_gated (hp : s.held = false → p) : Ends (execReplySent s) (Gated p s.rack) := by
  unfold execReplySent
  refine .ite (Gated.concludes ?_) (.next ((Quiet.refl _).gated hp))
  split
  · exact (warmRestart_quiet { s with link := { s.link with line := .idle, holder := none } }).gated hp
  · exact Gated.congr (t := s) ((Quiet.refl _).gated hp) rfl rfl

theorem repin_quiet (s : State) (f : Time → Time) (q : PinTarget) : Quiet s.rack (s.repin f q).rack := by
  have slot (n : Fin 48) (g : SlotRec → SlotRec) (hg : ∀ x, (g x).state = x.state) :
      Quiet s.rack { s.rack with slots := change s.rack.slots n g } :=
    ⟨fun m h => by rwa [change_figure s.rack.slots n m g SlotRec.state fun _ => hg _] at h, id⟩
  cases q with
  | offSince n | grantTime n | queueTime n => exact slot n _ fun _ => rfl
  | history | psuReport | buReport | alarmTime | headSince => exact .of_eq rfl rfl

/-! ### The configuration -/

theorem setProfile_quiet (s : State) (k : Fin 8) (x : Profile) :
    Quiet s.rack (s.setProfile k x).rack := by
  unfold State.setProfile
  dsimp only
  refine Quiet.trans ?_ (headProfile_reach (g := False) ..).quiet
  split
  · exact .refl _
  · exact (eachHandedOn_reach (g := False) (applyValidity_reach _ k _) _ _).quiet

theorem setParam_gated (s : State) (id : Fin 16) (v : Nat) (hp : s.held = false → p) :
    Gated p s.rack (s.setParam id v) :=
  Gated.moved (t := { s with cfg := { s.cfg with params := put s.cfg.params id v } })
    (Quiet.gated (Quiet.refl s.rack) hp) (followParam_reach ..)

theorem lockLeak_quiet (s : State) : Quiet s.rack s.lockLeak.rack :=
  (lockLeak_zoneMoves s).quiet

theorem unlockLeak_quiet (s : State) : Quiet s.rack s.unlockLeak.rack :=
  (unlockLeak_zoneMoves s).quiet

theorem lock_quiet (s : State) : Quiet s.rack s.lock.rack := by
  unfold State.lock
  dsimp only
  refine onRack_quiet (Quiet.trans ?_ (lockLeak_quiet _)) (lockHanded_reach ..)
  refine onRack_quiet (onRack_quiet (.refl s.rack) ?_) (lockSlots_reach _ _ rfl)
  exact (lockTables_reach ..).trans (forEach_reach (leaveMembers_reach _) _ _)

theorem unlock_quiet (s : State) : Quiet s.rack s.unlock.rack := by
  unfold State.unlock
  dsimp only
  refine onRack_quiet (Quiet.trans ?_ (unlockLeak_quiet _)) (lockHanded_reach ..)
  exact onRack_quiet (.of_eq rfl rfl) (unlockSlots_reach ..)

/-! ### The requests that move the configuration -/

theorem execSetProfile_gated (tag : Byte) (l : List Byte) (hp : s.held = false → p) :
    Ends (execSetProfile tag l s) (Gated p s.rack) := by
  have still : Gated p s.rack s.take := (Quiet.refl s.rack).gated (t := s.take) hp
  refine serve_gated ((Quiet.refl _).gated hp) ?_
  unfold setProfileBody
  split
  · split
    · split
      · exact checked_gated still (checked_gated still
          ((setProfile_quiet s.take _ _).gated hp))
      · exact still
    · exact still
  · exact still

theorem execSetParam_gated (tag : Byte) (l : List Byte) (hp : s.held = false → p) :
    Ends (execSetParam tag l s) (Gated p s.rack) := by
  have still : Gated p s.rack s.take := (Quiet.refl s.rack).gated (t := s.take) hp
  refine serve_gated ((Quiet.refl _).gated hp) ?_
  unfold setParamBody
  split
  · split
    · split
      · exact checked_gated still (checked_gated still (setParam_gated s.take _ _ hp))
      · exact still
    · exact still
  · exact still

theorem execCommissionWrite_gated (tag : Byte) (l : List Byte) (hp : s.held = false → p) :
    Ends (execCommissionWrite tag l s) (Gated p s.rack) := by
  have still : Gated p s.rack s.take := (Quiet.refl s.rack).gated (t := s.take) hp
  refine serve_gated ((Quiet.refl _).gated hp) ?_
  unfold commissionWriteBody
  split
  · split
    · exact checked_gated still (checked_gated still (checked_gated still
        (Quiet.gated (.of_eq rfl rfl) hp)))
    · exact still
  · exact still

theorem execCommissionLock_gated (tag : Byte) (l : List Byte) (hp : s.held = false → p) :
    Ends (execCommissionLock tag l s) (Gated p s.rack) := by
  have still : Gated p s.rack s.take := (Quiet.refl s.rack).gated (t := s.take) hp
  exact serve_gated ((Quiet.refl _).gated hp) (noPayload_gated still (checked_gated still
    (checked_gated still (checked_gated still (checked_gated still ((lock_quiet s.take).gated hp))))))

theorem execDecommission_gated (tag : Byte) (l : List Byte) (hp : s.held = false → p) :
    Ends (execDecommission tag l s) (Gated p s.rack) := by
  have still : Gated p s.rack s.take := (Quiet.refl s.rack).gated (t := s.take) hp
  exact serve_gated ((Quiet.refl _).gated hp) (noPayload_gated still (checked_gated still
    (checked_gated still (checked_gated still ((unlock_quiet s.take).gated hp)))))

/-- A RELEASE_HOLD may turn Safe Hold off, and powers no slot before the head is judged (R180). -/
theorem execReleaseHold_gated (tag : Byte) (l : List Byte) (hp : p) :
    Ends (execReleaseHold tag l s) (Gated p s.rack) := by
  have slots (t : State) (h : t.rack.slots = s.rack.slots) : Gated p s.rack t :=
    ⟨fun n k => .inl (by rwa [h] at k), fun _ => hp⟩
  refine serve_gated (slots s rfl) (noPayload_gated (slots _ rfl) ?_)
  unfold releaseHoldBody
  split
  · exact slots _ rfl
  · split <;> exact slots _ rfl

theorem execStartStalled_gated (hp : s.held = false → p) :
    Ends (execStartStalled s) (Gated p s.rack) := by
  have still : Gated p s.rack s := (Quiet.refl _).gated hp
  exact .ite (still.moved (stall_reach ..)).concludes (.next still)

/-- Every command but POWER_ON and the adoption powers a slot by the gates alone, and where Safe Hold was on
not at all, unless it is a RELEASE_HOLD. -/
theorem exec_gated (i : Instr) (s : State) (powers : i ≠ .powerOn)
    (adopts : ∀ good : BitVec 48, i ≠ .adoption good)
    (hp : s.held = false → p) (releases : ∀ tag payload, i = .releaseHold tag payload → p) :
    Ends (exec i s) (Gated p s.rack) := by
  have turn {o : Outcome} (h : Ends o (Turn s)) : Ends o (Gated p s.rack) := turn_gated h hp
  cases i with
  | powerOn => exact absurd rfl powers
  | storeLoadComplete => exact execStoreLoadComplete_gated hp
  | restartN => exact execRestartN_gated hp
  | restartNRelease => exact turn (execRestartNRelease_turn s)
  | adoption good => exact absurd rfl (adopts good)
  | timestampPin q => exact .next ((repin_quiet s _ q).gated hp)
  | strayByte b => exact turn (execStrayByte_turn b s)
  | frameBegin => exact turn (execFrameBegin_turn s)
  | frameEnd bytes => exact turn (execFrameEnd_turn bytes s)
  | frameTimeout => exact turn (execFrameTimeout_turn s)
  | replySent => exact execReplySent_gated hp
  | notificationSent => exact turn (execNotificationSent_turn s)
  | unknownKind kind tag l => exact turn (execUnknownKind_turn kind tag l s)
  | identify tag l => exact turn (execIdentify_turn tag l s)
  | readRack tag l => exact turn (execReadRack_turn tag l s)
  | readSlot tag l => exact turn (execReadSlot_turn tag l s)
  | readModule tag l => exact turn (execReadModule_turn tag l s)
  | readBattery tag l => exact turn (execReadBattery_turn tag l s)
  | readZone tag l => exact turn (execReadZone_turn tag l s)
  | readFaults tag l => exact turn (execReadFaults_turn tag l s)
  | clearFault tag l => exact turn (execClearFault_turn tag l s)
  | slotOn tag l => exact turn (execSlotOn_turn tag l s)
  | slotOff tag l => exact turn (execSlotOff_turn tag l s)
  | slotCut tag l => exact turn (execSlotCut_turn tag l s)
  | slotClear tag l => exact turn (execSlotClear_turn tag l s)
  | rackStart tag l => exact turn (execRackStart_turn tag l s)
  | rackStop tag l => exact turn (execRackStop_turn tag l s)
  | stagePlan tag l => exact turn (execStagePlan_turn tag l s)
  | commitPlan tag l => exact turn (execCommitPlan_turn tag l s)
  | discardPlan tag l => exact turn (execDiscardPlan_turn tag l s)
  | setProfile tag l => exact execSetProfile_gated tag l hp
  | setParam tag l => exact execSetParam_gated tag l hp
  | setLeakAction tag l => exact turn (execSetLeakAction_turn tag l s)
  | leakClear tag l => exact turn (execLeakClear_turn tag l s)
  | checkNow tag l => exact turn (execCheckNow_turn tag l s)
  | setMask tag l => exact turn (execSetMask_turn tag l s)
  | commissionWrite tag l => exact execCommissionWrite_gated tag l hp
  | commissionLock tag l => exact execCommissionLock_gated tag l hp
  | decommission tag l => exact execDecommission_gated tag l hp
  | saveConfig tag l => exact turn (execSaveConfig_turn tag l s)
  | releaseHold tag l => exact execReleaseHold_gated tag l (releases tag l rfl)
  | restart tag l => exact turn (execRestart_turn tag l s)
  | configWriteEnd v => exact turn (execConfigWriteEnd_turn v s)
  | batteryWriteEnd v => exact turn (execBatteryWriteEnd_turn v s)
  | pollCycleBegin => exact turn (execPollCycleBegin_turn s)
  | psuStatus f => exact turn (execPsuStatus_turn f s)
  | buStatus f => exact turn (execBuStatus_turn f s)
  | badFrame f => exact turn (execBadFrame_turn f s)
  | responseWindowExpiry => exact turn (execResponseWindowExpiry_turn s)
  | goodRising n x y => exact turn (execGoodRising_turn n x y s)
  | goodFalling n x y => exact turn (execGoodFalling_turn n x y s)
  | parkedRising n x y => exact turn (execParkedRising_turn n x y s)
  | parkedFalling n x y => exact turn (execParkedFalling_turn n x y s)
  | goodDeadline n => exact turn (execGoodDeadline_turn n s)
  | drainDeadline n => exact turn (execDrainDeadline_turn n s)
  | gateTimer => exact turn (execGateTimer_turn s)
  | startStalled => exact execStartStalled_gated hp
  | qualifyTimer => exact turn (execQualifyTimer_turn s)
  | controlPeriod => exact turn (execControlPeriod_turn s)
  | frameBoundary => exact turn (execFrameBoundary_turn s)
  | checkDue j => exact turn (execCheckDue_turn j s)
  | sampleDeadline j => exact turn (execSampleDeadline_turn j s)
  | leakSample l => exact turn (execLeakSample_turn l s)
  | graceExpiry z => exact turn (execGraceExpiry_turn z s)

end Sys2Proof.Machine

section
open Sys2Proof Sys2Proof.Machine

/-- Settles O60: every grant is made by the gates, on the part as the command leaves it. -/
theorem grantNeedsLockWindowZoneNoHold : Obligations.GrantNeedsLockWindowZoneNoHold := by
  intro i s t n adopts runs off on
  by_cases powers : i = .powerOn
  · subst powers
    exact absurd ((exec_powerOn_unpowered runs).symm.trans on) Bool.false_ne_true
  · obtain ⟨u, answers, gated⟩ := exec_gated i s
      (p := s.held = false ∨ ∃ tag payload, i = .releaseHold tag payload) powers adopts .inl
      fun tag payload h => .inr ⟨tag, payload, h⟩
    obtain rfl : u = t := Host.Outcome.next.inj (answers.symm.trans runs)
    exact (gated.powers n on).resolve_left fun k => Bool.false_ne_true (off.symm.trans k)

end
end

