-- ==== Sys2Proof/Proofs/RechargeTimers.lean ====
section
/-! PROOF. Setpoints sent, control periods, recharge frames and the candidate pool (O51). -/

namespace Sys2Proof.Machine

variable {e : Env} {i j : Fin 12} {u p : Nat} {a b r t : Rack} {x : Member} {f : RechargeFrame}
  {s : State} {holds : Fin 12 → Bool} {start : Time} {pool : Nat}

/-! ### One setpoint (R34, R143) -/

theorem buView_iff : buView j a = buView j b ↔ a.bu[j] = b.bu[j] ∧
    a.bus.entry (.bu j) = b.bus.entry (.bu j) ∧ a.bus.polledSet = b.bus.polledSet := by
  simp only [buView, Prod.mk.injEq]

/-- A command that is taken where none of class 1 waits stands for its position (R34). -/
theorem entry_offer_ordinary {q : Bus} {pos : Pos} {c : ShelfCmd} {now : Time}
    (h : ∀ y, q.entry pos = some y → y.cmd.cls ≠ 1) :
    ((q.offer now true pos c).entry pos).map CmdEntry.cmd = some c := by
  cases hq : q.entry pos with
  | none => exact entry_offer_fresh hq c now
  | some y =>
    by_cases hy : y.cmd = c
    · rw [busOffer_equal hq hy, hq, ← hy]; rfl
    · rw [busOffer_replaces hq (.inl (h y hq)) hy, entry_accept_self]; rfl

/-- From r to t a BU's setpoint alone of its record has changed, and SET_RECHARGE with it stands where the
position takes it and no command of class 1 waits. -/
structure SetpointSent (e : Env) (j : Fin 12) (u : Nat) (r t : Rack) : Prop where
  record : t.bu[j] = { r.bu[j] with setpoint := u }
  entry : takesOffers e r (.bu j) = true →
    (∀ y, r.bus.entry (.bu j) = some y → y.cmd.cls ≠ 1) →
    (t.bus.entry (.bu j)).map CmdEntry.cmd = some (.setRecharge u)

theorem sendSetpoint_sent (e : Env) (j : Fin 12) (u : Nat) (r : Rack) :
    SetpointSent e j u r (sendSetpoint e j u r) := by
  have record : (sendSetpoint e j u r).bu[j] = { r.bu[j] with setpoint := u } :=
    change_self r.bu j fun b => { b with setpoint := u }
  refine ⟨record, fun takes ordinary => ?_⟩
  have bus : (sendSetpoint e j u r).bus = r.bus.offer e.now true (.bu j) (.setRecharge u) := by
    rw [← takes, ← takesOffers_congr (a := r) (b := { r with
      bu := change r.bu j fun b => { b with setpoint := u } })
      (congrArg BuRec.present record :) (congrArg BuRec.state record :) rfl]
    rfl
  rw [bus]
  exact entry_offer_ordinary ordinary

theorem sendSetpoint_buView (hij : i ≠ j) (u : Nat) (r : Rack) :
    buView j (sendSetpoint e i u r) = buView j r :=
  buView_iff.mpr ⟨(change_get r.bu i j _).trans (if_neg hij),
    offer_entry_other _ _ (by simpa using hij), offer_polledSet ..⟩

theorem SetpointSent.congr (h : SetpointSent e j u a b) (before : buView j a = buView j r)
    (after : buView j t = buView j b) : SetpointSent e j u r t := by
  obtain ⟨recordA, entryA, polledA⟩ := buView_iff.mp before
  obtain ⟨recordT, entryT, -⟩ := buView_iff.mp after
  refine ⟨by rw [recordT, h.record, recordA], ?_⟩
  rw [← takesOffers_congr (a := r) (b := a) (by rw [recordA]) (by rw [recordA]) polledA, ← entryA,
    entryT]
  exact h.entry

/-- A setpoint sent once the counters have been charged, read from the rack before (R143, R145). -/
theorem SetpointSent.charged (h : SetpointSent e j u b t) (bu : b.bu[j] = (a.bu[j]).charge)
    (bus : b.bus = a.bus) : t.bu[j] = { (a.bu[j]).charge with setpoint := u } ∧
    (takesOffers e a (.bu j) = true → (∀ y, a.bus.entry (.bu j) = some y → y.cmd.cls ≠ 1) →
      (t.bus.entry (.bu j)).map CmdEntry.cmd = some (.setRecharge u)) := by
  refine ⟨by rw [h.record, bu], ?_⟩
  rw [← takesOffers_congr (a := a) (b := b) (by rw [bu]; rfl) (by rw [bu]; rfl) (by rw [bus]), ← bus]
  exact h.entry

/-! ### The setpoints of a control period (R139, R140, R143) -/

/-- What one BU is sent in a control period (R143). -/
def sendUnits (e : Env) (holds : Fin 12 → Bool) (p : Nat) (j : Fin 12) (r : Rack) : Rack :=
  match r.rech.members[j] with
  | some x => sendSetpoint e j (unitsIn p x) r
  | none => if holds j then sendSetpoint e j 0 r else r

theorem sendSetpoints_eq (e : Env) (holds : Fin 12 → Bool) (p : Nat) (r : Rack) :
    sendSetpoints e holds p r = forEach (sendUnits e holds p) (List.finRange 12) r := rfl

theorem sendUnits_member (h : r.rech.members[j] = some x) :
    sendUnits e holds p j r = sendSetpoint e j (unitsIn p x) r := by
  unfold sendUnits
  rw [h]

theorem sendUnits_zero (h : r.rech.members[j] = none) (hj : holds j = true) :
    sendUnits e holds p j r = sendSetpoint e j 0 r := by
  unfold sendUnits
  rw [h]
  exact if_pos hj

theorem sendUnits_none (h : r.rech.members[j] = none) (hj : holds j = false) :
    sendUnits e holds p j r = r := by
  unfold sendUnits
  rw [h]
  exact if_neg (by rw [hj]; decide)

theorem sendUnits_other (hij : i ≠ j) (r : Rack) :
    (buView j (sendUnits e holds p i r), (sendUnits e holds p i r).rech) = (buView j r, r.rech) := by
  have sent (u : Nat) : (buView j (sendSetpoint e i u r), (sendSetpoint e i u r).rech) =
      (buView j r, r.rech) := congrArg (·, r.rech) (sendSetpoint_buView hij u r)
  unfold sendUnits
  split
  · exact sent _
  · split
    · exact sent 0
    · rfl

/-- What comes of one BU is what it is sent itself, on a rack that reads the same there. -/
theorem sendSetpoints_turn (e : Env) (holds : Fin 12 → Bool) (p : Nat) (j : Fin 12) (r : Rack) :
    ∃ w : Rack, buView j w = buView j r ∧ w.rech = r.rech ∧
      buView j (sendSetpoints e holds p r) = buView j (sendUnits e holds p j w) := by
  rw [sendSetpoints_eq]
  obtain ⟨w, same, turn⟩ := forEach_each (f := sendUnits e holds p)
    (fun j r => (buView j r, r.rech)) (fun _ _ r hij => sendUnits_other hij r) j r
  obtain ⟨view, rech⟩ := Prod.mk.inj same
  obtain ⟨turn, -⟩ := Prod.mk.inj turn
  exact ⟨w, view, rech, turn⟩

/-- Each member is sent its units (R143). -/
theorem sendSetpoints_member (h : r.rech.members[j] = some x) :
    SetpointSent e j (unitsIn p x) r (sendSetpoints e holds p r) := by
  obtain ⟨w, same, rech, turn⟩ := sendSetpoints_turn e holds p j r
  rw [sendUnits_member (by rw [rech]; exact h)] at turn
  exact (sendSetpoint_sent ..).congr same turn

/-- A BU outside the set that may hold a setpoint is brought to 0 (R139, R140). -/
theorem sendSetpoints_zero (h : r.rech.members[j] = none) (hj : holds j = true) :
    SetpointSent e j 0 r (sendSetpoints e holds p r) := by
  obtain ⟨w, same, rech, turn⟩ := sendSetpoints_turn e holds p j r
  rw [sendUnits_zero (by rw [rech]; exact h) hj] at turn
  exact (sendSetpoint_sent ..).congr same turn

/-- Every other BU is left alone. -/
theorem sendSetpoints_none (h : r.rech.members[j] = none) (hj : holds j = false) :
    buView j (sendSetpoints e holds p r) = buView j r := by
  obtain ⟨w, same, rech, turn⟩ := sendSetpoints_turn e holds p j r
  rw [sendUnits_none (by rw [rech]; exact h) hj] at turn
  exact turn.trans same

/-! ### The start of a frame (R142, R144) -/

/-- The rack on which a frame's first setpoints are sent: the frame is set, its members are formed and Rc is
reported. -/
def formFrame (e : Env) (start : Time) (pool : Nat) (r : Rack) : Rack :=
  let r := { r with rech.pool := pool, rech.frame := some ⟨start, 1⟩, rech.carried := false }
  followRc { r with rech.members := formMembers e r }

theorem startFrame_eq (e : Env) (start : Time) (pool : Nat) (r : Rack) :
    startFrame e start pool r = sendSetpoints e (mayHold r) 1 (formFrame e start pool r) := rfl

theorem followRc_buView (r : Rack) : buView j (followRc r) = buView j r := by
  unfold followRc reportRc
  split <;> rfl

theorem formFrame_buView : buView j (formFrame e start pool r) = buView j r := followRc_buView _

theorem startFrame_formed : (startFrame e start pool r).rech.members =
    (formFrame e start pool r).rech.members := by
  rw [startFrame_eq, (sendSetpoints_sameRecharge ..).1]

theorem formMembers_isSome (e : Env) (r : Rack) (j : Fin 12) :
    ((formMembers e r)[j]).isSome = (r.bu[j]).joins := by
  have formed : (formMembers e r)[j] = if (r.bu[j]).joins then
      some (memberOf (shareOf r.rech.pool (joiners r) (e.cfg.record.bus[j]).maxRecharge)) else none :=
    Vector.getElem_ofFn ..
  rw [formed]
  split
  · rename_i h; exact h.symm
  · rename_i h; exact (Bool.eq_false_iff.mpr h).symm

/-- The members of a frame are the BUs that meet the conditions as it starts (R140). -/
theorem startFrame_joins (e : Env) (start : Time) (pool : Nat) (r : Rack) (j : Fin 12) :
    ((startFrame e start pool r).rech.members[j]).isSome = (r.bu[j]).joins := by
  rw [startFrame_formed, formFrame, followRc_rech]
  exact formMembers_isSome ..

theorem startFrame_member (h : (startFrame e start pool r).rech.members[j] = some x) :
    SetpointSent e j (unitsIn 1 x) r (startFrame e start pool r) := by
  rw [startFrame_formed] at h
  exact (sendSetpoints_member h).congr formFrame_buView rfl

theorem startFrame_zero (h : (startFrame e start pool r).rech.members[j] = none)
    (hj : mayHold r j = true) : SetpointSent e j 0 r (startFrame e start pool r) := by
  rw [startFrame_formed] at h
  exact (sendSetpoints_zero h hj).congr formFrame_buView rfl

theorem startFrame_none (h : (startFrame e start pool r).rech.members[j] = none)
    (hj : mayHold r j = false) : buView j (startFrame e start pool r) = buView j r := by
  rw [startFrame_formed] at h
  exact (sendSetpoints_none h hj).trans formFrame_buView

/-- The records of the BUs outside a frame's set, as it starts. -/
theorem startFrame_outside (h : (startFrame e start pool r).rech.members[j] = none) :
    (startFrame e start pool r).bu[j] =
      if mayHold r j then { r.bu[j] with setpoint := 0 } else r.bu[j] := by
  split
  · rename_i hj; exact (startFrame_zero h hj).record
  · rename_i hj; exact (buView_iff.mp (startFrame_none h (Bool.eq_false_iff.mpr hj))).1

/-- A BU that does not meet the conditions as the frame starts and may hold a setpoint is brought to 0. -/
theorem startFrame_apart (out : (r.bu[j]).joins = false) (hj : mayHold r j = true) :
    SetpointSent e j 0 r (startFrame e start pool r) :=
  startFrame_zero (by rw [← Option.not_isSome_iff_eq_none, startFrame_joins, out]; decide) hj

theorem mayHold_iff : mayHold r j = true ↔
    r.rech.members[j] ≠ none ∨ r.rech.carried = true ∧ (r.bu[j]).present = true := by
  unfold mayHold
  rw [Bool.or_eq_true, Bool.and_eq_true, Option.isSome_iff_ne_none]

theorem mayHold_eq_false (hm : r.rech.members[j] = none)
    (hc : r.rech.carried = false ∨ (r.bu[j]).present = false) : mayHold r j = false := by
  rw [Bool.eq_false_iff, Ne, mayHold_iff]
  rintro (h | ⟨carried, present⟩)
  · exact h hm
  · rcases hc with hc | hc
    · exact Bool.false_ne_true (hc.symm.trans carried)
    · exact Bool.false_ne_true (hc.symm.trans present)

/-! ### The ends of the control periods (R143 to R145) -/

theorem periodOver_of (h : 1000 * f.period ≤ (s.now - f.start).toNat) : periodOver s.now f = true :=
  decide_eq_true h

theorem exec_controlPeriod (frame : s.rack.rech.frame = some f)
    (ended : 1000 * f.period ≤ (s.now - f.start).toNat) (h : f.period < 16) :
    exec .controlPeriod s = .next (s.onRack fun e r => nextPeriod e f r).conclude := by
  change execControlPeriod s = _
  unfold execControlPeriod
  rw [frame]
  exact if_pos ⟨h, periodOver_of ended⟩

theorem exec_frameBoundary (frame : s.rack.rech.frame = some f)
    (ended : 1000 * f.period ≤ (s.now - f.start).toNat) (h : f.period = 16) :
    exec .frameBoundary s = .next (s.onRack fun e r => boundary e f r).conclude := by
  change execFrameBoundary s = _
  unfold execFrameBoundary
  rw [frame]
  exact if_pos ⟨h, periodOver_of ended⟩

theorem chargeOffered_bu (r : Rack) (j : Fin 12) : (chargeOffered r).bu[j] = (r.bu[j]).charge :=
  Vector.getElem_map ..

theorem charge_joins (x : BuRec) : x.charge.joins = x.joins := rfl

theorem chargeOffered_mayHold (r : Rack) (j : Fin 12) : mayHold (chargeOffered r) j = mayHold r j := by
  unfold mayHold
  rw [chargeOffered_bu]
  rfl

/-- The offered counter takes 50 J for each unit of the setpoint, up to its top (R145). -/
theorem charge_counts {x : BuRec} (unsaturated : x.charge.offered < 16777215) :
    1000 * x.charge.offered + x.charge.offeredRem =
      1000 * x.offered + x.offeredRem + 50 * x.setpoint := by
  unfold BuRec.charge Config.energyTop at *
  dsimp only at *
  omega

theorem nextPeriod_rech (e : Env) (f : RechargeFrame) (r : Rack) : (nextPeriod e f r).rech =
    { r.rech with frame := some { f with period := f.period + 1 } } :=
  (sendSetpoints_sameRecharge ..).1

theorem nextPeriod_member (h : r.rech.members[j] = some x) :
    (nextPeriod e f r).bu[j] = { (r.bu[j]).charge with setpoint := unitsIn (f.period + 1) x } ∧
    (takesOffers e r (.bu j) = true → (∀ y, r.bus.entry (.bu j) = some y → y.cmd.cls ≠ 1) →
      ((nextPeriod e f r).bus.entry (.bu j)).map CmdEntry.cmd =
        some (.setRecharge (unitsIn (f.period + 1) x))) :=
  SetpointSent.charged (sendSetpoints_member h) (chargeOffered_bu r j) rfl

theorem nextPeriod_none (h : r.rech.members[j] = none) :
    (nextPeriod e f r).bu[j] = (r.bu[j]).charge ∧
    (nextPeriod e f r).bus.entry (.bu j) = r.bus.entry (.bu j) := by
  obtain ⟨record, entry, -⟩ := buView_iff.mp (sendSetpoints_none (e := e) (p := f.period + 1)
    (holds := fun _ => false) (r := { chargeOffered r with
      rech.frame := some { f with period := f.period + 1 } }) h rfl)
  exact ⟨record.trans (chargeOffered_bu r j), entry⟩

theorem boundary_eq (e : Env) (f : RechargeFrame) (r : Rack) : boundary e f r =
    startFrame e (f.start + 16000) r.rech.candidate (chargeOffered r) := rfl

/-! ### The candidate pool (R141, R144) -/

theorem candidatePool_eq (e : Env) (r : Rack) : candidatePool e r =
    if r.acct.shortfall = true ∨ r.grid.state ≠ .normal then 0
    else r.acct.adm - (r.acct.s + e.param 10 + headReserve e r) :=
  if_congr (by simp) rfl rfl

/-- A candidate is held alone where no frame runs or it reaches the pool in force (R141). -/
theorem poolUpdate_holds (h : r.rech.frame = none ∨ r.rech.pool ≤ candidatePool e r) :
    poolUpdate e r = { r with rech.candidate := candidatePool e r } := by
  refine if_neg ?_
  rw [Bool.and_eq_true, Option.isSome_iff_ne_none, decide_eq_true_iff]
  rintro ⟨frame, below⟩
  exact h.elim frame (Nat.not_le_of_lt below)

/-- A candidate below the pool in force is taken at once (R144). -/
theorem poolUpdate_falls (frame : r.rech.frame ≠ none) (below : candidatePool e r < r.rech.pool) :
    poolUpdate e r =
      startFrame e e.now (candidatePool e r) { r with rech.candidate := candidatePool e r } := by
  refine if_pos ?_
  rw [Bool.and_eq_true, Option.isSome_iff_ne_none, decide_eq_true_iff]
  exact ⟨frame, below⟩

theorem beginRecharge_eq (e : Env) (r : Rack) : beginRecharge e r =
    startFrame e e.now (candidatePool e r) { r with rech.candidate := candidatePool e r } := rfl

/-- After a warm restart the first frame brings a present BU outside the set to 0 (R139). -/
theorem beginRecharge_apart (was : r.rech.carried = true) (present : (r.bu[j]).present = true)
    (out : (r.bu[j]).joins = false) : SetpointSent e j 0 r (beginRecharge e r) := by
  rw [beginRecharge_eq]
  exact (startFrame_apart (r := { r with rech.candidate := candidatePool e r }) out
    (mayHold_iff.mpr (.inr ⟨was, present⟩))).congr rfl rfl

/-- A frame that starts now on a candidate just formed (R118, R144). -/
theorem startFrame_onCandidate (e : Env) (r : Rack) (c : Nat) :
    (startFrame e e.now c { r with rech.candidate := c }).rech.candidate = c ∧
    (startFrame e e.now c { r with rech.candidate := c }).rech.pool = c ∧
    (startFrame e e.now c { r with rech.candidate := c }).rech.frame = some ⟨e.now, 1⟩ ∧
    (startFrame e e.now c { r with rech.candidate := c }).rech.carried = false := by
  rw [startFrame_rech]
  exact ⟨rfl, rfl, rfl, rfl⟩

end Sys2Proof.Machine

section
open Sys2Proof Sys2Proof.Machine

/-- Settles O51: the ends of the control periods, the frames and the candidate pool. -/
theorem rechargeTimers : Obligations.RechargeTimers := by
  refine ⟨fun s f frame ended => ⟨fun inner => ?_, fun last => ?_⟩, fun b _ _ => ?_, fun e r => ?_⟩
  · exact ⟨exec_controlPeriod frame ended inner, nextPeriod_rech .., fun j x => nextPeriod_member,
      fun j => nextPeriod_none⟩
  · refine ⟨exec_frameBoundary frame ended last, ?_⟩
    rw [boundary_eq]
    refine ⟨startFrame_rech .., startFrame_rc .., fun j => ?_, fun j x member => ?_,
      fun j left held => ?_, fun j left out held => ?_⟩
    · rw [startFrame_joins, chargeOffered_bu, charge_joins]
    · exact (startFrame_member member).charged (chargeOffered_bu s.rack j) rfl
    · exact (startFrame_zero left ((chargeOffered_mayHold ..).trans (mayHold_iff.mpr held))).charged
        (chargeOffered_bu s.rack j) rfl
    · obtain ⟨record, entry, -⟩ := buView_iff.mp (startFrame_none left
        ((chargeOffered_mayHold ..).trans (mayHold_eq_false out held)))
      exact ⟨record.trans (chargeOffered_bu s.rack j), entry⟩
  · exact ⟨rfl, Nat.mod_lt _ (by decide), Nat.min_le_left .., charge_counts⟩
  · intro need c t
    obtain ⟨candidate, pool, running, carried⟩ := startFrame_onCandidate e r c
    have hc : candidatePool e r = c := candidatePool_eq e r
    clear_value c
    subst hc
    refine ⟨poolUpdate_holds, fun frame below => ?_, ?_⟩
    · have falls : t = _ := poolUpdate_falls frame below
      rw [falls]
      exact ⟨candidate, pool, running, startFrame_rc .., startFrame_joins _ _ _ _,
        fun j x member => (startFrame_member member).record, fun j left => startFrame_outside left⟩
    · rw [beginRecharge_eq]
      refine ⟨candidate, pool, running, carried, startFrame_rc .., startFrame_joins _ _ _ _,
        fun j was present out => ?_⟩
      have sent := beginRecharge_apart (e := e) was present out
      exact ⟨sent.record, sent.entry⟩

end
end

