-- ==== Sys2Proof/Proofs/HoldUpFigures.lean ====
section
/-! PROOF. The figures of an evaluation: usable energy, the predicted draws and the relief by rank, the
hold-up times, the required level and the drain condition (O48). -/

namespace Sys2Proof.Machine

variable {e : Env} {r : Rack} {j : Fin 12}

/-! ### The energy of a position (R124, R125) -/

theorem holdFigures_perBu (e : Env) (r : Rack) (j : Fin 12) : (holdFigures e r).perBu[j] =
    ⟨(r.bu[j]).usable, (r.bu[j]).hEff, energyOf e r j⟩ :=
  Vector.getElem_ofFn j.isLt

theorem energyOf_usable (h : (r.bu[j]).usable = true) : energyOf e r j =
    ((r.bu[j]).energy - (e.cfg.record.bus[j]).reserve) * (r.bu[j]).hEff / 256 :=
  if_pos h

theorem energyOf_unusable (h : (r.bu[j]).usable = false) : energyOf e r j = 0 :=
  if_neg (Bool.eq_false_iff.mp h)

/-- The energy of an evaluation is the sum of what it holds for each BU (R125). -/
theorem holdFigures_u (e : Env) (r : Rack) : (holdFigures e r).u =
    ((List.finRange 12).map fun j => ((holdFigures e r).perBu[j]).u).sum := by
  simp only [holdFigures_perBu]
  rfl

/-! ### The predicted draws and the relief by rank (R126, R129) -/

/-- Only a STARTING slot draws its start power, and only an ON or DRAINING one its nominal (R126). -/
theorem predictedDraw_eq (p : Profile) (x : SlotState) : predictedDraw p x =
    if x = .starting then p.startW else if x = .on ∨ x = .draining then p.nominalW else 0 := by
  cases x <;> rfl

/-- A higher level sheds every slot that a lower one does (R129). -/
theorem reliefByRank_mono (e : Env) (r : Rack) : Monotone (reliefByRank e r) := by
  intro k m h
  unfold reliefByRank total
  refine List.sum_le_sum fun n _ => ?_
  by_cases low : e.rank n ≤ k
  · rw [if_pos low, if_pos (low.trans h)]
  · rw [if_neg low]
    exact Nat.zero_le _

/-! ### The hold-up times (R128) -/

theorem holdTime_le_top (d l : Nat) : holdTime d l ≤ 65535 := by
  unfold holdTime
  split
  · exact le_rfl
  · exact Nat.min_le_right ..

/-- A lower load is held up no less long (R128). -/
theorem holdTime_anti (d : Nat) : Antitone (holdTime d) := by
  intro l m h
  by_cases none : l = 0
  · exact (holdTime_le_top d m).trans_eq (if_pos none).symm
  · rw [holdTime, holdTime, if_neg none, if_neg (show m ≠ 0 by omega)]
    exact min_le_min_right _ (Nat.div_le_div_left h (Nat.pos_of_ne_zero none))

/-- The hold-up times of an evaluation, in full and at each shed level (R128, R129). -/
theorem holdFigures_times {h : HoldUp} (eq : h = holdFigures e r) :
    h.t = holdTime h.d h.l ∧ h.t1 = holdTime h.d (h.l - h.x1) ∧ h.t2 = holdTime h.d (h.l - h.x2) ∧
    h.t3 = holdTime h.d (h.l - h.x3) := by
  subst eq
  simp only [holdFigures, and_self]

/-- The relief rises with the shed level, and so do the times (R128, R129). -/
theorem holdFigures_rise {h : HoldUp} (eq : h = holdFigures e r) :
    h.x1 ≤ h.x2 ∧ h.x2 ≤ h.x3 ∧ h.t ≤ h.t1 ∧ h.t1 ≤ h.t2 ∧ h.t2 ≤ h.t3 := by
  have x12 : h.x1 ≤ h.x2 := eq ▸ reliefByRank_mono e r (by decide)
  have x23 : h.x2 ≤ h.x3 := eq ▸ reliefByRank_mono e r (by decide)
  obtain ⟨t, t1, t2, t3⟩ := holdFigures_times eq
  rw [t, t1, t2, t3]
  exact ⟨x12, x23, holdTime_anti h.d (Nat.sub_le ..), holdTime_anti h.d (Nat.sub_le_sub_left x12 _),
    holdTime_anti h.d (Nat.sub_le_sub_left x23 _)⟩

/-! ### The required level and the drain condition (R129, R134) -/

theorem requiredLevel_le (t t1 t2 target : Nat) : requiredLevel t t1 t2 target ≤ 3 := by
  unfold requiredLevel
  split_ifs <;> decide

/-- A required level short of 3 reaches the target (R129). -/
theorem target_le_timeAt {h : HoldUp} {target : Nat}
    (below : requiredLevel h.t h.t1 h.t2 target < 3) :
    target ≤ h.timeAt (requiredLevel h.t h.t1 h.t2 target) := by
  revert below
  unfold requiredLevel
  split_ifs with reach reach1 reach2
  · exact fun _ => reach
  · exact fun _ => reach1
  · exact fun _ => reach2
  · exact fun below => absurd below (lt_irrefl 3)

/-- Every level below the required one misses the target (R129). -/
theorem timeAt_lt_target {h : HoldUp} {target k : Nat}
    (below : k < requiredLevel h.t h.t1 h.t2 target) : h.timeAt k < target := by
  unfold requiredLevel at below
  split_ifs at below with reach reach1 reach2
  · exact absurd below k.not_lt_zero
  · obtain rfl := Nat.lt_one_iff.mp below
    exact not_le.mp reach
  · interval_cases k
    · exact not_le.mp reach
    · exact not_le.mp reach1
  · interval_cases k
    · exact not_le.mp reach
    · exact not_le.mp reach1
    · exact not_le.mp reach2

theorem holdFigures_required {h : HoldUp} (eq : h = holdFigures e r) :
    h.required = requiredLevel h.t h.t1 h.t2 (e.param 5) := by
  subst eq
  simp only [holdFigures, Env.target]

theorem drainCondition_iff (d l drainTime : Nat) :
    drainCondition d l drainTime = true ↔ 0 < l ∧ d * 1000 ≤ l * drainTime := by
  rw [drainCondition, Bool.and_eq_true, decide_eq_true_iff, decide_eq_true_iff]

theorem holdFigures_drainHolds {h : HoldUp} (eq : h = holdFigures e r) :
    h.drainHolds = drainCondition h.d h.l (e.param 6) := by
  subst eq
  simp only [holdFigures, Env.drainTime]

end Sys2Proof.Machine

section
open Sys2Proof Sys2Proof.Machine

/-- Settles O48: the predicted draws by slot state, the times in falling order of load, and the level as
the first that reaches the target. -/
theorem holdUpFigures : Obligations.HoldUpFigures := by
  intro e r h draw shed time
  have draws : draw = fun n => predictedDraw (e.profile n) (r.slots[n]).state :=
    funext fun n => (predictedDraw_eq _ _).symm
  clear_value draw
  subst draws
  obtain ⟨t, t1, t2, t3⟩ := holdFigures_times (h := h) rfl
  obtain ⟨x12, x23, t01, t12, t23⟩ := holdFigures_rise (h := h) rfl
  have level := holdFigures_required (h := h) rfl
  refine ⟨fun j => ⟨fun usable => ?_, fun unusable => ?_⟩, holdFigures_u e r, rfl, rfl, rfl,
    if_congr beq_iff_eq rfl rfl, rfl, rfl, rfl, x12, x23, t, t1, t2, t3, t01, t12, t23,
    t3.trans_le (holdTime_le_top ..), level.trans_le (requiredLevel_le ..), fun below => ?_,
    fun k below => ?_, ?_⟩
  · have counts := (usable_iff _).mpr usable
    rw [holdFigures_perBu]
    exact ⟨counts, energyOf_usable counts⟩
  · have left := Bool.eq_false_iff.mpr (mt (usable_iff _).mp unusable)
    rw [holdFigures_perBu]
    exact ⟨left, energyOf_unusable left⟩
  · rw [level] at below ⊢
    exact target_le_timeAt below
  · exact timeAt_lt_target (below.trans_eq level)
  · rw [holdFigures_drainHolds (h := h) rfl]
    exact drainCondition_iff ..

end
end

