-- ==== Sys2Proof/Proofs/RechargeShares.lean ====
section
/-! PROOF. The shares of a frame's members, the units over its sixteen periods and the bound on Rc (O52). -/

namespace Sys2Proof.Machine

variable {x : Member}

/-! ### The units of a member over the periods (R143) -/

theorem memberOf_f_lt (share : Nat) : (memberOf share).f < 16 := by
  unfold memberOf
  dsimp only
  omega

theorem memberOf_q_le (share : Nat) : 50 * (memberOf share).q ≤ share := Nat.mul_div_le share 50

/-- A period takes one unit more where the count of sixteenths passes a whole (R143). -/
theorem unitsIn_succ (p : Nat) (x : Member) : unitsIn (p + 1) x =
    x.q + if p * x.f / 16 < (p + 1) * x.f / 16 then 1 else 0 := by
  unfold unitsIn
  rw [Nat.add_sub_cancel]
  split <;> rfl

/-- The periods of one unit more are those in which the count of sixteenths passes a whole. -/
theorem unitsIn_more (x : Member) : (fun p => unitsIn (p + 1) x == x.q + 1) =
    fun p => decide (p * x.f / 16 < (p + 1) * x.f / 16) := by
  funext p
  rw [unitsIn_succ]
  split
  · rename_i more; rw [decide_eq_true more]; exact beq_self_eq_true _
  · rename_i same; rw [decide_eq_false same]; exact beq_false_of_ne (Nat.succ_ne_self _).symm

/-- One period's share of sixteenths passes at most one whole. -/
theorem sixteenths_step {f : Nat} (hf : f ≤ 16) (n : Nat) : (n + 1) * f / 16 =
    n * f / 16 + if n * f / 16 < (n + 1) * f / 16 then 1 else 0 := by
  rw [Nat.succ_mul]
  split <;> omega

theorem more_upTo (hf : x.f ≤ 16) (n : Nat) :
    ((List.range n).filter fun p => unitsIn (p + 1) x == x.q + 1).length = n * x.f / 16 := by
  rw [unitsIn_more]
  induction n with
  | zero => simp
  | succ n ih =>
    rw [List.range_succ, List.filter_append, List.length_append, ih, sixteenths_step hf n]
    by_cases more : n * x.f / 16 < (n + 1) * x.f / 16 <;> simp [more]

theorem units_upTo (hf : x.f ≤ 16) (n : Nat) :
    ((List.range n).map fun p => unitsIn (p + 1) x).sum = n * x.q + n * x.f / 16 := by
  induction n with
  | zero => simp
  | succ n ih =>
    have step := sixteenths_step hf n
    rw [List.range_succ, List.map_append, List.sum_append, ih, List.map_singleton, List.sum_singleton,
      unitsIn_succ, Nat.succ_mul n x.q]
    omega

/-- The units of a whole frame (R143). -/
theorem units_frame (hf : x.f ≤ 16) :
    ((List.range 16).map fun p => unitsIn (p + 1) x).sum = 16 * x.q + x.f := by
  rw [units_upTo hf, Nat.mul_div_cancel_left _ (by decide)]

/-- A frame's units come within one unit below the share (R142, R143). -/
theorem memberOf_frame (share : Nat) :
    50 * (16 * (memberOf share).q + (memberOf share).f) ≤ 16 * share ∧
    16 * share < 50 * (16 * (memberOf share).q + (memberOf share).f) + 50 := by
  unfold memberOf
  dsimp only
  omega

theorem unitsIn_le_ceiling (share p : Nat) :
    unitsIn p (memberOf share) ≤ (memberOf share).ceiling := by
  have ceiling : (memberOf share).ceiling =
      if 0 < (memberOf share).f then (memberOf share).q + 1 else (memberOf share).q := rfl
  rw [ceiling]
  unfold unitsIn
  by_cases more : 0 < (memberOf share).f
  · rw [if_pos more]
    split <;> omega
  · rw [if_neg more, Nat.eq_zero_of_not_pos more, Nat.mul_zero, Nat.mul_zero, if_neg (lt_irrefl _)]

/-! ### The member set and its draw (R140, R142) -/

theorem checkPhase_active_iff (p : CheckPhase) : p.active = true ↔ p = .requested ∨ p = .running := by
  cases p <;> decide

theorem joins_iff (b : BuRec) : b.joins = true ↔ b.present = true ∧
    (b.state = .idle ∨ b.state = .charging) ∧ b.commandedIsolate = false ∧ b.leakIsolated = false ∧
    b.phase ≠ .requested ∧ b.phase ≠ .running := by
  unfold BuRec.joins
  simp only [Bool.and_eq_true, recharges_iff, Bool.not_eq_true', and_assoc, ← Bool.not_eq_true,
    checkPhase_active_iff, not_or, ne_eq]

theorem formMembers_get (e : Env) (r : Rack) (j : Fin 12) : (formMembers e r)[j] =
    if (r.bu[j]).joins then
      some (memberOf (shareOf r.rech.pool (joiners r) (e.cfg.record.bus[j]).maxRecharge)) else none :=
  Vector.getElem_ofFn ..

theorem joiners_eq (e : Env) (r : Rack) :
    ((List.finRange 12).filter fun k => ((formMembers e r)[k]).isSome).length = joiners r := by
  simp only [formMembers_isSome]
  rfl

/-- A member's draw is at most an equal part of the pool: the 50 W taken off its share make room for the
unit that its ceiling rounds up (R142). -/
theorem ceiling_le_part (pool n top : Nat) :
    50 * (memberOf (shareOf pool n top)).ceiling ≤ pool / n := by
  have part : (pool - 50 * n) / n = pool / n - 50 := by
    rw [Nat.mul_comm]
    exact Nat.sub_mul_div pool n 50
  have share : shareOf pool n top ≤ pool / n - 50 := part ▸ Nat.min_le_left ..
  generalize shareOf pool n top = s, pool / n = most at share ⊢
  unfold memberOf
  dsimp only
  split <;> omega

/-- What a position draws as a member (R142). -/
theorem memberDraw_le (e : Env) (r : Rack) (j : Fin 12) :
    (match (formMembers e r)[j] with | some x => 50 * x.ceiling | none => 0) ≤
      (if (r.bu[j]).joins then 1 else 0) * (r.rech.pool / joiners r) := by
  rw [formMembers_get]
  by_cases member : (r.bu[j]).joins = true
  · rw [if_pos member, if_pos member, Nat.one_mul]
    exact ceiling_le_part ..
  · rw [if_neg member]
    exact Nat.zero_le _

/-- Rc stays within the pool (R142). -/
theorem rechargeDraw_le_pool (e : Env) (r : Rack) : rechargeDraw (formMembers e r) ≤ r.rech.pool :=
  calc rechargeDraw (formMembers e r)
      ≤ total 12 (fun j => (if (r.bu[j]).joins then 1 else 0) * (r.rech.pool / joiners r)) :=
        List.sum_le_sum fun j _ => memberDraw_le e r j
    _ = joiners r * (r.rech.pool / joiners r) := by
        unfold joiners
        rw [countOf_eq_total, total_eq_sum, total_eq_sum, Finset.sum_mul]
    _ ≤ r.rech.pool := Nat.mul_div_le ..

end Sys2Proof.Machine

section
open Sys2Proof Sys2Proof.Machine

/-- Settles O52: the units are counted by the wholes that the sixteenths have passed, and every member's
draw is at most an equal part of the pool. -/
theorem rechargeShares : Obligations.RechargeShares := by
  refine ⟨fun share => ?_, fun e r => ?_⟩
  · have sixteenths : (memberOf share).f ≤ 16 := (memberOf_f_lt share).le
    obtain ⟨within, near⟩ := memberOf_frame share
    intro x
    refine ⟨rfl, memberOf_f_lt share, memberOf_q_le share, fun _ => rfl, unitsIn_le_ceiling share,
      ?_, ?_, ?_⟩
    · rw [more_upTo sixteenths, Nat.mul_div_cancel_left _ (by decide)]
    · rw [units_frame sixteenths]
      exact within
    · rw [units_frame sixteenths]
      exact near
  · refine ⟨rfl, rechargeDraw_le_pool e r, fun j => ?_, fun j x member => ?_⟩
    · rw [formMembers_isSome]
      exact joins_iff _
    · dsimp only
      rw [joiners_eq]
      rw [formMembers_get] at member
      split at member
      · exact (Option.some.inj member).symm
      · cases member

end
end

