-- ==== Sys2Proof/Proofs/HealthSample.lean ====
section
/-! PROOF. The health sample at an entry to FULL (O53). -/

namespace Sys2Proof.Machine

variable {e : Env} {j : Fin 12} {r : Rack}

theorem samples_iff (b : BuRec) : samples b = true ↔
    100 ≤ b.offered ∧ b.offered < 16777215 ∧ b.accepted < 16777215 := by
  unfold samples Config.sampleFloor Config.energyTop
  simp only [Bool.and_eq_true, decide_eq_true_iff, and_assoc]

/-- The acceptance factor is the accepted energy over the offered in 256ths, at most 256 (R147). -/
theorem acceptance_eq {offered : Nat} (offers : 0 < offered) (accepted : Nat) :
    acceptance offered accepted = min 256 (256 * accepted / offered) := by
  unfold acceptance
  split
  · rename_i all
    exact (Nat.min_eq_left ((Nat.le_div_iff_mul_le offers).mpr (Nat.mul_le_mul_left 256 all))).symm
  · rename_i part
    exact (Nat.min_eq_right (Nat.div_lt_of_lt_mul (by omega)).le).symm

/-- A sample sets H beside the restart of the counters (R147). -/
theorem healthSample_sets (h : samples r.bu[j] = true) :
    let b := r.bu[j]
    let factor := acceptance b.offered b.accepted
    healthSample e j r = raise e .battery 2 j.val (factor + 512 * b.h) { r with
      bu := put r.bu j { b.resetCounters with h := factor }
      todo.hold := true, todo.battery := true } := by
  unfold healthSample
  dsimp only
  rw [if_pos h, change_change]

/-- Where nothing is sampled the counters restart alone (R147). -/
theorem healthSample_stands (h : samples r.bu[j] = false) :
    healthSample e j r = { r with bu := change r.bu j BuRec.resetCounters } :=
  if_neg (Bool.eq_false_iff.mp h)

end Sys2Proof.Machine

section
open Sys2Proof Sys2Proof.Machine

/-- Settles O53, by whether the counters give a sample. -/
theorem healthSample : Obligations.HealthSample := by
  intro e j r b t
  refine ⟨fun given => ?_, fun lacking => ?_, fun k hk => (healthSample_recounted e j r).apart k hk⟩
  · have set : t = _ := healthSample_sets ((samples_iff b).mpr given)
    rw [set, acceptance_eq (show 0 < b.offered by omega)]
    exact ⟨put_self .., rfl, rfl⟩
  · have stands : t = _ :=
      healthSample_stands (Bool.eq_false_iff.mpr (mt (samples_iff b).mp lacking))
    rw [stands]
    exact ⟨change_self .., rfl⟩

end
end

