-- ==== Sys2Proof/Proofs/CheckCourse.lean ====
section
/-! PROOF. What each operation of the Check Scheduler makes of the rack: postponements, the ends of a check,
a stray check, and a check's start with its START_CHECK taken or dropped (R148 to R155). The layer under
O54. -/

namespace Sys2Proof.Machine

variable {e : Env} {j : Fin 12} {a b r : Rack} {c : ShelfCmd}

/-! ### What the Scheduler's changes make of a BU's record -/

@[simp] theorem setPhase_self (j : Fin 12) (p : CheckPhase) (d : Option Deadline) (r : Rack) :
    (setPhase j p d r).bu[j] = { r.bu[j] with phase := p, sampleDeadline := d } := change_self ..

@[simp] theorem endActive_self (j : Fin 12) (r : Rack) :
    (endActive j r).bu[j] = { r.bu[j] with phase := .none, sampleDeadline := none } := change_self ..

@[simp] theorem setDue_self (j : Fin 12) (n : Nat) (r : Rack) :
    (setDue j n r).bu[j] = { r.bu[j] with due := n, dueMs := 0 } := change_self ..

@[simp] theorem countAbort_self (j : Fin 12) (r : Rack) :
    (countAbort j r).bu[j] = { r.bu[j] with aborts := min 255 ((r.bu[j]).aborts + 1) } := change_self ..

/-! ### What a logged fault hands on (R176) -/

/-- A fault hands on gate 1 alone (R176). -/
theorem logFault_todo (e : Env) (f : FaultKind) (n : Nat) (r : Rack) :
    (logFault e f n r).todo = { r.todo with head := (logFault e f n r).todo.head } := by
  unfold logFault
  dsimp only
  split <;> split <;> rfl

/-! ### A postponement (R151) -/

/-- A postponement counted, before what a fourth one in a row brings about. -/
def countPostponed (e : Env) (j : Fin 12) (reason : Nat) (r : Rack) : Rack :=
  let n := min 255 ((r.bu[j]).postponed + 1)
  raise e .battery 4 j.val (n + 256 * reason) { r with
    bu := put r.bu j { r.bu[j] with
      postponed := n, stale := (r.bu[j]).stale || n == 4, due := 21600, dueMs := 0 }
    todo.battery := true }

theorem staleAfter (old fourth : Bool) : (old || (fourth && !old)) = (old || fourth) := by
  cases old <;> cases fourth <;> rfl

theorem postpone_eq (e : Env) (j : Fin 12) (reason : Nat) (r : Rack) : postpone e j reason r =
    if min 255 ((r.bu[j]).postponed + 1) = 4 ∧ (r.bu[j]).stale = false then
      evaluateFigures e (logFault e .checkStale (buAddress j)
        { countPostponed e j reason r with todo.hold := true })
    else countPostponed e j reason r := by
  unfold postpone setDue countPostponed
  dsimp only
  rw [change_change, staleAfter]
  exact if_congr (by simp [Config.count8Max]) rfl rfl

theorem postpone_bu (e : Env) (j : Fin 12) (reason : Nat) (r : Rack) :
    (postpone e j reason r).bu = (countPostponed e j reason r).bu := by
  rw [postpone_eq]
  split
  · rw [evaluateFigures_bu, logFault_bu]
  · rfl

theorem postpone_self (e : Env) (j : Fin 12) (reason : Nat) (r : Rack) : (postpone e j reason r).bu[j] =
    { r.bu[j] with
      postponed := min 255 ((r.bu[j]).postponed + 1)
      stale := (r.bu[j]).stale || min 255 ((r.bu[j]).postponed + 1) == 4, due := 21600, dueMs := 0 } := by
  rw [postpone_bu]
  exact put_self ..

theorem postpone_active (e : Env) (j : Fin 12) (reason : Nat) (r : Rack) :
    (postpone e j reason r).active = r.active := by
  rw [postpone_eq]
  split
  · exact logFault_active ..
  · rfl

theorem postpone_rech (e : Env) (j : Fin 12) (reason : Nat) (r : Rack) :
    (postpone e j reason r).rech = r.rech := by
  rw [postpone_eq]
  split
  · exact logFault_rech ..
  · rfl

theorem postpone_todo (e : Env) (j : Fin 12) (reason : Nat) (r : Rack) :
    (postpone e j reason r).todo.battery = true ∧
    (postpone e j reason r).todo.grid = r.todo.grid := by
  have logged := logFault_todo e .checkStale (buAddress j)
    { countPostponed e j reason r with todo.hold := true }
  rw [postpone_eq]
  split
  · exact ⟨(congrArg Todo.battery logged :), (congrArg Todo.grid logged :)⟩
  · exact ⟨rfl, rfl⟩

/-! ### A check not taken (R152) -/

theorem notTaken_eq (e : Env) (j : Fin 12) (r : Rack) :
    notTaken e j r = postpone e j 2 (checkEnded e j 3 (endActive j r)) := rfl

/-- A BU whose check was not taken is under none, and is due again in six hours (R151, R152). -/
theorem notTaken_ends (e : Env) (j : Fin 12) (r : Rack) :
    (notTaken e j r).active = none ∧ ((notTaken e j r).bu[j]).phase = .none ∧
    ((notTaken e j r).bu[j]).due = 21600 ∧
    ((notTaken e j r).bu[j]).postponed = min 255 ((r.bu[j]).postponed + 1) ∧
    (notTaken e j r).todo.grid = true ∧ (notTaken e j r).rech = r.rech := by
  obtain ⟨-, grid⟩ := postpone_todo e j 2 (checkEnded e j 3 (endActive j r))
  have ended : (checkEnded e j 3 (endActive j r)).bu[j] =
      { r.bu[j] with phase := .none, sampleDeadline := none } := endActive_self j r
  rw [notTaken_eq, postpone_self, postpone_active, postpone_rech, grid, ended]
  exact ⟨rfl, rfl, rfl, rfl, rfl, rfl⟩

/-! ### The other ends of a check (R152 to R154) -/

theorem deliver_self (e : Env) (j : Fin 12) (r : Rack) : (deliver e j r).bu[j] =
    { r.bu[j] with
      phase := .samplePending, sampleDeadline := some ⟨e.now, 21600000⟩, due := 21600, dueMs := 0
      offered := 0, offeredRem := 0, accepted := 0 } := by
  unfold deliver
  dsimp only
  unfold checkEnded
  rw [raise_bu, setDue_self, change_self, setPhase_self, endActive_self]
  rfl

/-- A sample completed, before the fault of a low health is logged (R153). -/
def completed (e : Env) (j : Fin 12) (r : Rack) : Rack :=
  checkEnded e j (1 + 16 * (r.bu[j]).h) (setDue j (86400 * e.checkInterval) { setPhase j .none none r with
    bu := change (setPhase j .none none r).bu j fun b => { b with stale := false, postponed := 0 }
    todo.hold := true })

theorem completed_self (e : Env) (j : Fin 12) (r : Rack) : (completed e j r).bu[j] =
    { r.bu[j] with
      phase := .none, sampleDeadline := none, stale := false, postponed := 0
      due := 86400 * e.param 14, dueMs := 0 } := by
  unfold completed checkEnded
  rw [raise_bu, setDue_self, change_self, setPhase_self]
  rfl

theorem complete_eq (e : Env) (j : Fin 12) (r : Rack) : complete e j r =
    if (r.bu[j]).h < 128 then logFault e .checkFailed (buAddress j) (completed e j r)
    else completed e j r := by
  have health : ((completed e j r).bu[j]).h = (r.bu[j]).h := (congrArg BuRec.h (completed_self e j r) :)
  rw [← health]
  unfold complete
  dsimp only
  rw [show completed e j r = checkEnded e j (1 + 16 * ((completed e j r).bu[j]).h) _ by rw [health]; rfl]
  rfl

theorem abortCheck_self (e : Env) (j : Fin 12) (stop : Bool) (r : Rack) :
    (abortCheck e j stop r).bu[j] = { r.bu[j] with
      phase := .none, sampleDeadline := none, due := 0, dueMs := 0
      aborts := min 255 ((r.bu[j]).aborts + 1) } := by
  unfold abortCheck checkEnded
  dsimp only
  rw [raise_bu, countAbort_self, setDue_self]
  cases stop
  · rw [if_neg Bool.false_ne_true, endActive_self]
  · rw [if_pos rfl, offer_bu, endActive_self]

/-- The end of a check leaves whether its position takes offers (R34). -/
theorem endActive_offer (e : Env) (j : Fin 12) (c : ShelfCmd) (r : Rack) :
    (offer e (.bu j) c (endActive j r)).bus = (offer e (.bu j) c r).bus := by
  have takes : takesOffers e (endActive j r) (.bu j) = takesOffers e r (.bu j) :=
    takesOffers_congr (congrArg BuRec.present (endActive_self j r) :)
      (congrArg BuRec.state (endActive_self j r) :) rfl
  unfold offer
  rw [takes]
  rfl

theorem abortCheck_bus (e : Env) (j : Fin 12) (stop : Bool) (r : Rack) : (abortCheck e j stop r).bus =
    if stop = true then (offer e (.bu j) .stopCheck r).bus else r.bus := by
  cases stop
  · rfl
  · exact endActive_offer ..

/-- What an abort hands on and raises (R154). -/
theorem abortCheck_frame (e : Env) (j : Fin 12) (stop : Bool) (r : Rack) :
    (abortCheck e j stop r).active = none ∧
    (abortCheck e j stop r).todo =
      { r.todo with grid := true, battery := true, checks := r.todo.checks ++ [j] } ∧
    (abortCheck e j stop r).notif = r.notif.offer ⟨.battery, 5, j.val, e.now, 2⟩ := by
  cases stop <;> exact ⟨rfl, rfl, rfl⟩

/-! ### A pending sample dropped (R155, R156) -/

/-- A pending sample, if there is one, is dropped with an outcome. -/
def dropPending (e : Env) (j : Fin 12) (outcome : Nat) (r : Rack) : Rack :=
  if (r.bu[j]).phase = .samplePending then dropSample e j outcome r else r

/-- A BU's record once a pending sample is dropped. -/
def BuRec.noSample (x : BuRec) : BuRec :=
  if x.phase = .samplePending then { x with phase := .none, sampleDeadline := none } else x

theorem BuRec.noSample_keeps (x : BuRec) : x.noSample.present = x.present ∧ x.noSample.state = x.state ∧
    x.noSample.strayCounted = x.strayCounted ∧ x.noSample.aborts = x.aborts := by
  unfold BuRec.noSample
  split <;> exact ⟨rfl, rfl, rfl, rfl⟩

theorem BuRec.noSample_phase {x : BuRec} (h : x.phase = .none ∨ x.phase = .samplePending) :
    x.noSample.phase = .none := by
  unfold BuRec.noSample
  split
  · rfl
  · rename_i other
    exact h.resolve_right other

theorem dropPending_self (e : Env) (j : Fin 12) (outcome : Nat) (r : Rack) :
    (dropPending e j outcome r).bu[j] = (r.bu[j]).noSample := by
  unfold dropPending BuRec.noSample
  split
  · exact setPhase_self j .none none r
  · rfl

theorem dropPending_notif (e : Env) (j : Fin 12) (outcome : Nat) (r : Rack) :
    (dropPending e j outcome r).notif = if (r.bu[j]).phase = .samplePending then
      r.notif.offer ⟨.battery, 5, j.val, e.now, outcome⟩ else r.notif := by
  unfold dropPending
  split <;> rfl

theorem dropPending_rest (e : Env) (j : Fin 12) (outcome : Nat) (r : Rack) :
    (dropPending e j outcome r).todo = r.todo ∧ (dropPending e j outcome r).active = r.active ∧
    (dropPending e j outcome r).faults = r.faults ∧ (dropPending e j outcome r).hold = r.hold ∧
    (dropPending e j outcome r).grid = r.grid := by
  unfold dropPending
  split <;> exact ⟨rfl, rfl, rfl, rfl, rfl⟩

/-! ### A stray check (R155) -/

theorem strayCheck_eq (e : Env) (j : Fin 12) (r : Rack) : strayCheck e j r =
    if (r.bu[j]).strayCounted then dropPending e j 2 r
    else countAbort j (setDue j 0 { dropPending e j 2 r with
      bu := change (dropPending e j 2 r).bu j fun b => { b with strayCounted := true } }) := by
  obtain ⟨-, -, counted, -⟩ := (r.bu[j]).noSample_keeps
  rw [← counted, ← dropPending_self e j 2]
  rfl

/-- What a stray check leaves, and what it raises (R155). -/
theorem strayCheck_rest (e : Env) (j : Fin 12) (r : Rack) : (strayCheck e j r).active = r.active ∧
    (strayCheck e j r).notif = if (r.bu[j]).phase = .samplePending then
      r.notif.offer ⟨.battery, 5, j.val, e.now, 2⟩ else r.notif := by
  obtain ⟨-, active, -⟩ := dropPending_rest e j 2 r
  have notif := dropPending_notif e j 2 r
  rw [strayCheck_eq]
  split <;> exact ⟨active, notif⟩

/-- A stray check that is counted already drops a pending sample and no more (R155). -/
theorem strayCheck_again (h : (r.bu[j]).strayCounted = true) :
    (strayCheck e j r).bu[j] = (r.bu[j]).noSample ∧ (strayCheck e j r).todo = r.todo := by
  obtain ⟨todo, -⟩ := dropPending_rest e j 2 r
  rw [strayCheck_eq, if_pos h]
  exact ⟨dropPending_self e j 2 r, todo⟩

/-- A stray check not yet counted is counted as an abort, and the BU is due at once (R155). -/
theorem strayCheck_first (h : (r.bu[j]).strayCounted = false) :
    (strayCheck e j r).bu[j] = { (r.bu[j]).noSample with
      strayCounted := true, due := 0, dueMs := 0, aborts := min 255 ((r.bu[j]).aborts + 1) } ∧
    (strayCheck e j r).todo.battery = true ∧
    (strayCheck e j r).todo.checks = r.todo.checks ++ [j] := by
  obtain ⟨-, -, -, aborts⟩ := (r.bu[j]).noSample_keeps
  obtain ⟨todo, -⟩ := dropPending_rest e j 2 r
  rw [strayCheck_eq, if_neg (Bool.eq_false_iff.mp h), countAbort_self, setDue_self, change_self,
    dropPending_self, aborts]
  exact ⟨rfl, rfl, congrArg (fun x : Todo => x.checks ++ [j]) todo⟩

/-! ### What an offer leaves in the queue (R34) -/

theorem standing_iff (r : Rack) (p : Pos) (c : ShelfCmd) :
    standing r p c = true ↔ (r.bus.entry p).map CmdEntry.cmd = some c := by
  unfold standing
  cases r.bus.entry p with
  | none => simp
  | some x => simp

/-- A BU's position takes no command that is not of class 1: it takes no offers, or one of class 1
waits. -/
def ShutTo (e : Env) (r : Rack) (j : Fin 12) : Prop :=
  takesOffers e r (.bu j) = false ∨ ∃ x, r.bus.entry (.bu j) = some x ∧ x.cmd.cls = 1

theorem busOffer_shut (h : ShutTo e r j) (hc : c.cls ≠ 1) :
    r.bus.offer e.now (takesOffers e r (.bu j)) (.bu j) c = r.bus := by
  rcases h with closed | ⟨x, waits, urgent⟩
  · rw [closed, offer_closed]
  · cases takes : takesOffers e r (.bu j) with
    | false => exact offer_closed ..
    | true => exact busOffer_behind waits urgent hc e.now

/-! ### The member that a check takes out of the set (R140) -/

theorem memberLeave_self (e : Env) (j : Fin 12) (r : Rack) : (memberLeave e j r).bu[j] =
    { r.bu[j] with setpoint := ((memberLeave e j r).bu[j]).setpoint } := by
  rcases (memberLeave_leaves e j r).zeroed j with same | zero
  · rw [same]
  · rw [zero]

/-- A BU that leaves the member set is offered SET_RECHARGE 0, one that was outside it nothing (R140). -/
theorem memberLeave_bus (e : Env) (j : Fin 12) (r : Rack) : (memberLeave e j r).bus = r.bus ∨
    (memberLeave e j r).bus = r.bus.offer e.now (takesOffers e r (.bu j)) (.bu j) (.setRecharge 0) := by
  have followed (x : Rack) : (followRc x).bus = x.bus := by
    unfold followRc reportRc
    split <;> rfl
  unfold memberLeave
  split
  · right
    rw [followed]
    have record := change_self r.bu j fun b => { b with setpoint := 0 }
    rw [← takesOffers_congr (a := r) (b := { r with
      bu := change r.bu j fun b => { b with setpoint := 0 } })
      (congrArg BuRec.present record :) (congrArg BuRec.state record :) rfl]
    rfl
  · exact .inl rfl

theorem memberLeave_polledSet (e : Env) (j : Fin 12) (r : Rack) :
    (memberLeave e j r).bus.polledSet = r.bus.polledSet := by
  rcases memberLeave_bus e j r with bus | bus
  · rw [bus]
  · rw [bus, busOffer_frame]

/-- Leaving the set puts no command of class 1 in the queue. -/
theorem memberLeave_ordinary (h : ∀ x, r.bus.entry (.bu j) = some x → x.cmd.cls ≠ 1) :
    ∀ x, (memberLeave e j r).bus.entry (.bu j) = some x → x.cmd.cls ≠ 1 := by
  rcases memberLeave_bus e j r with bus | bus
  · rwa [bus]
  · cases takes : takesOffers e r (.bu j) with
    | false => rwa [bus, takes, offer_closed]
    | true =>
      intro x hx
      have sent := entry_offer_ordinary (c := .setRecharge 0) (now := e.now) h
      rw [← takes, ← bus, hx] at sent
      rw [Option.some.inj sent]
      decide

theorem memberLeave_shut (h : ShutTo e r j) : (memberLeave e j r).bus = r.bus := by
  rcases memberLeave_bus e j r with bus | bus
  · exact bus
  · exact bus.trans (busOffer_shut h (by decide))

/-! ### A start (R150, R152) -/

/-- The START_CHECK of a check on a BU. -/
def startCommand (e : Env) (j : Fin 12) : ShelfCmd :=
  .startCheck (newCheck e j).depth (newCheck e j).power

/-- The rack once a BU's check is requested and it has left the member set. -/
def requested (e : Env) (j : Fin 12) (r : Rack) : Rack :=
  { memberLeave e j (setPhase j .requested none r) with active := some (newCheck e j), todo.grid := true }

/-- The rack once the START_CHECK has been offered, taken or not. -/
def asked (e : Env) (j : Fin 12) (r : Rack) : Rack :=
  raise e .battery 3 j.val (newCheck e j).depth (offer e (.bu j) (startCommand e j) (requested e j r))

theorem startCheck_eq (e : Env) (j : Fin 12) (r : Rack) : startCheck e j r =
    if standing (asked e j r) (.bu j) (startCommand e j) then asked e j r
    else notTaken e j (asked e j r) := rfl

theorem asked_self (e : Env) (j : Fin 12) (r : Rack) : (asked e j r).bu[j] =
    { r.bu[j] with
      phase := .requested, sampleDeadline := none, setpoint := ((asked e j r).bu[j]).setpoint } := by
  have left := memberLeave_self e j (setPhase j .requested none r)
  rw [setPhase_self] at left
  exact left

theorem asked_member (e : Env) (j : Fin 12) (r : Rack) : (asked e j r).rech.members[j] = none :=
  (memberLeave_members e j j _).trans (if_pos rfl)

theorem asked_notif (e : Env) (j : Fin 12) (r : Rack) : (asked e j r).notif =
    r.notif.offer ⟨.battery, 3, j.val, e.now, (newCheck e j).depth⟩ := by
  obtain ⟨-, -, -, -, -, -, -, -, notif⟩ :=
    (memberLeave_leaves e j (setPhase j .requested none r)).account
  exact congrArg (fun q : NotifQueue => q.offer ⟨.battery, 3, j.val, e.now, (newCheck e j).depth⟩) notif

theorem requested_takes (e : Env) (j : Fin 12) (r : Rack) :
    takesOffers e (requested e j r) (.bu j) = takesOffers e r (.bu j) :=
  takesOffers_congr (congrArg BuRec.present (asked_self e j r) :)
    (congrArg BuRec.state (asked_self e j r) :) (memberLeave_polledSet ..)

theorem asked_bus (e : Env) (j : Fin 12) (r : Rack) : (asked e j r).bus =
    (memberLeave e j (setPhase j .requested none r)).bus.offer e.now (takesOffers e r (.bu j)) (.bu j)
      (startCommand e j) := by
  rw [← requested_takes]
  rfl

/-- A START_CHECK that is taken stands where no command of class 1 waits (R34). -/
theorem asked_stands (takes : takesOffers e r (.bu j) = true)
    (ordinary : ∀ x, r.bus.entry (.bu j) = some x → x.cmd.cls ≠ 1) :
    ((asked e j r).bus.entry (.bu j)).map CmdEntry.cmd = some (startCommand e j) := by
  rw [asked_bus, takes]
  exact entry_offer_ordinary (memberLeave_ordinary ordinary)

/-- A START_CHECK that is dropped leaves the queue as it was (R34). -/
theorem asked_shut (h : ShutTo e r j) : (asked e j r).bus = r.bus := by
  have takes : takesOffers e (setPhase j .requested none r) (.bu j) = takesOffers e r (.bu j) :=
    takesOffers_congr (congrArg BuRec.present (setPhase_self ..) :)
      (congrArg BuRec.state (setPhase_self j .requested none r) :) rfl
  have shut : ShutTo e (setPhase j .requested none r) j := by
    unfold ShutTo
    rwa [takes]
  rw [asked_bus, memberLeave_shut shut]
  exact busOffer_shut h (show 3 ≠ 1 by decide)

/-- A check whose START_CHECK is taken is requested (R150). -/
theorem startCheck_starts (takes : takesOffers e r (.bu j) = true)
    (ordinary : ∀ x, r.bus.entry (.bu j) = some x → x.cmd.cls ≠ 1) :
    (startCheck e j r).active = some (newCheck e j) ∧
    ((startCheck e j r).bu[j]).phase = .requested ∧
    ((startCheck e j r).bu[j]).due = (r.bu[j]).due ∧ (startCheck e j r).todo.grid = true ∧
    (startCheck e j r).notif = r.notif.offer ⟨.battery, 3, j.val, e.now, (newCheck e j).depth⟩ ∧
    ((startCheck e j r).bus.entry (.bu j)).map CmdEntry.cmd = some (startCommand e j) := by
  have stands := asked_stands takes ordinary
  have record := asked_self e j r
  rw [startCheck_eq, if_pos ((standing_iff ..).mpr stands)]
  exact ⟨rfl, (congrArg BuRec.phase record :), (congrArg BuRec.due record :), rfl, asked_notif e j r,
    stands⟩

/-- A check whose START_CHECK is dropped is not taken (R152). -/
theorem startCheck_fails (h : takesOffers e r (.bu j) = false ∧
      (r.bus.entry (.bu j)).map CmdEntry.cmd ≠ some (startCommand e j) ∨
    ∃ x, r.bus.entry (.bu j) = some x ∧ x.cmd.cls = 1) :
    (startCheck e j r).active = none ∧ ((startCheck e j r).bu[j]).phase = .none ∧
    ((startCheck e j r).bu[j]).due = 21600 ∧
    ((startCheck e j r).bu[j]).postponed = min 255 ((r.bu[j]).postponed + 1) ∧
    (startCheck e j r).todo.grid = true := by
  have shut : ShutTo e r j := h.imp_left And.left
  have other : (r.bus.entry (.bu j)).map CmdEntry.cmd ≠ some (startCommand e j) := by
    rcases h with ⟨-, other⟩ | ⟨x, waits, urgent⟩
    · exact other
    · rw [waits]
      intro same
      rw [Option.some.inj same] at urgent
      cases urgent
  obtain ⟨active, phase, due, postponed, grid, -⟩ := notTaken_ends e j (asked e j r)
  rw [asked_self] at postponed
  rw [startCheck_eq, if_neg (by rwa [standing_iff, asked_shut shut])]
  exact ⟨active, phase, due, postponed, grid⟩

/-- Whether or not its START_CHECK is taken, the BU is no member then (R140). -/
theorem startCheck_member (e : Env) (j : Fin 12) (r : Rack) :
    (startCheck e j r).rech.members[j] = none := by
  rw [startCheck_eq]
  split
  · exact asked_member ..
  · obtain ⟨-, -, -, -, -, rech⟩ := notTaken_ends e j (asked e j r)
    exact (congrArg (fun x : Recharge => x.members[j]) rech).trans (asked_member ..)

end Sys2Proof.Machine
end

