-- ==== Sys2Proof/Proofs/Checks.lean ====
section
/-! PROOF. When a check is evaluated and what the evaluation finds, CHECK_NOW, and the course of a check
under the BU's reports (O54). -/

namespace Sys2Proof.Machine

variable {e : Env} {j : Fin 12} {a b r : Rack} {s : State} {tag : Byte}

/-! ### The first condition that fails (R150) -/

theorem zoneOpen_eq_false_iff (e : Env) (o : Option (Fin 8)) : e.zoneOpen o = false ↔
    ∃ z, o = some z ∧ e.zones[z] ≠ .clear ∧ e.zones[z] ≠ .watch := by
  have shut (z : ZoneState) : z.open? = false ↔ z ≠ .clear ∧ z ≠ .watch := by cases z <;> decide
  cases o with
  | none => simp [Env.zoneOpen]
  | some z =>
    refine (shut e.zones[z]).trans ⟨fun h => ⟨z, rfl, h⟩, ?_⟩
    rintro ⟨y, hy, h⟩
    rwa [Option.some.inj hy]

theorem checkReason_eq (e : Env) (r : Rack) (j : Fin 12) : checkReason e r j =
    if r.active ≠ none then 1
    else if (r.bu[j]).state ≠ .full then 2
    else if ∃ z, e.shelfZone (buShelf j) = some z ∧ e.zones[z] ≠ .clear ∧ e.zones[z] ≠ .watch then 3
    else if r.faults.hold ≠ none then 4
    else if excludedTime e r j < e.param 5 then 5
    else 0 := by
  unfold checkReason Faults.held
  exact if_congr Option.isSome_iff_ne_none rfl <| if_congr bne_iff_ne rfl <|
    if_congr ((Bool.not_eq_true' _).to_iff.trans (zoneOpen_eq_false_iff ..)) rfl <|
    if_congr Option.isSome_iff_ne_none rfl rfl

/-- An evaluation reads the active check, the BU's mode, Safe Hold and the held figures alone (R150). -/
theorem checkReason_congr (active : a.active = b.active) (state : (a.bu[j]).state = (b.bu[j]).state)
    (faults : a.faults = b.faults) (hold : a.hold = b.hold) :
    checkReason e a j = checkReason e b j := by
  unfold checkReason excludedTime
  rw [active, state, faults, hold]

/-! ### The evaluation of a due BU (R148, R149) -/

theorem isDue_iff (x : BuRec) : x.isDue = true ↔ x.due = 0 ∧ x.phase = .none := by
  unfold BuRec.isDue
  rw [Bool.and_eq_true, beq_iff_eq, beq_iff_eq]

/-- What the evaluation of a due BU comes to: its check starts, or it is postponed (R149, R150). -/
def evaluated (e : Env) (j : Fin 12) (r : Rack) : Rack :=
  if checkReason e r j = 0 then startCheck e j r else postpone e j (checkReason e r j) r

theorem evaluateCheck_due (present : (r.bu[j]).present = true) (due : (r.bu[j]).due = 0)
    (free : (r.bu[j]).phase = .none) : evaluateCheck e j r = evaluated e j r :=
  if_pos ((Bool.and_eq_true ..).to_iff.mpr ⟨present, (isDue_iff _).mpr ⟨due, free⟩⟩)

theorem evaluateCheck_absent (absent : (r.bu[j]).present = false) : evaluateCheck e j r = r :=
  if_neg (by rw [absent]; exact Bool.false_ne_true)

theorem evaluateChecks_eq (e : Env) (pick : Fin 12 → Bool) (r : Rack) : evaluateChecks e pick r =
    forEach (fun j r =>
      if pick j = true ∧ r.grid.state = .normal ∧ (r.bu[j]).present = true ∧ (r.bu[j]).due = 0 ∧
          (r.bu[j]).phase = .none then
        if checkReason e r j = 0 then startCheck e j r else postpone e j (checkReason e r j) r
      else r) (List.finRange 12) r := by
  unfold evaluateChecks evaluateCheck
  refine congrArg (fun f => forEach f (List.finRange 12) r) (funext fun j => funext fun r => ?_)
  rw [← ite_and]
  exact if_congr (by simp only [Bool.and_eq_true, beq_iff_eq, isDue_iff, and_assoc]) rfl rfl

/-- One BU alone is evaluated as by itself (R149, R156). -/
theorem evaluateChecks_one (e : Env) (j : Fin 12) (r : Rack) : evaluateChecks e (fun i => i == j) r =
    if r.grid.state = .normal then evaluateCheck e j r else r := by
  obtain ⟨-, own⟩ := forEach_own (view := id) (x := j) (f := fun i r =>
    if i == j && r.grid.state == .normal then evaluateCheck e i r else r)
    (fun i hi r => if_neg (by rw [beq_false_of_ne hi]; exact Bool.false_ne_true))
    (List.finRange 12) r (List.nodup_finRange 12)
  obtain ⟨u, rfl, turn⟩ := own (List.mem_finRange j)
  exact turn.trans (if_congr (by simp) rfl rfl)

theorem exec_checkDue (due : (s.rack.bu[j]).due = 0) (free : (s.rack.bu[j]).phase = .none) :
    exec (.checkDue j) s = .next (s.onRack fun e r =>
      if r.grid.state = .normal ∧ (r.bu[j]).present = true then
        if checkReason e r j = 0 then startCheck e j r else postpone e j (checkReason e r j) r
      else r).conclude := by
  have run : exec (.checkDue j) s =
      .next (s.onRack fun e r => evaluateChecks e (fun i => i == j) r).conclude :=
    if_pos ((isDue_iff _).mpr ⟨due, free⟩)
  rw [run]
  refine congrArg (fun t : State => Host.Outcome.next t.conclude) (onRack_congr ?_)
  rw [evaluateChecks_one, ite_and]
  refine if_congr Iff.rfl ?_ rfl
  cases present : (s.rack.bu[j]).present with
  | true => exact (evaluateCheck_due present due free).trans (if_pos rfl).symm
  | false => exact (evaluateCheck_absent present).trans (if_neg Bool.false_ne_true).symm

theorem exec_sampleDeadline {d : Deadline} (pending : (s.rack.bu[j]).phase = .samplePending)
    (deadline : (s.rack.bu[j]).sampleDeadline = some d) (ended : d.len ≤ (s.now - d.set).toNat) :
    exec (.sampleDeadline j) s =
      .next (s.onRack fun e r => setDue j 0 (dropSample e j 4 r)).conclude := by
  refine if_pos ⟨pending, ?_⟩
  rw [deadline]
  exact decide_eq_true ended

/-! ### CHECK_NOW (R156) -/

theorem exec_checkNow (h : Ready s 0x24 tag (u8 j.val)) : exec (.checkNow tag (u8 j.val)) s =
    .next ((checkNowBody j s.take).1.reply 0x24 tag (checkNowBody j s.take).2).conclude := by
  show Host.Outcome.next (s.serve false 0x24 tag _ _) = _
  rw [State.serve_ready h, indexed_u8 (by decide)]

theorem noCheck_iff (s : State) (j : Fin 12) : s.noCheck j = true ↔ s.cfg.locked = false ∨
    (s.rack.bu[j]).present = false ∨ (s.rack.bu[j]).phase = .requested ∨
    (s.rack.bu[j]).phase = .running := by
  unfold State.noCheck
  rw [Bool.or_eq_true, Bool.or_eq_true, Bool.not_eq_true', Bool.not_eq_true', checkPhase_active_iff,
    or_assoc]

theorem exec_checkNow_refused (h : Ready s 0x24 tag (u8 j.val)) (refused : s.noCheck j = true) :
    exec (.checkNow tag (u8 j.val)) s =
      .next (s.take.reply 0x24 tag [codeRefusedState]).conclude := by
  rw [exec_checkNow h, checkNowBody, show s.take.noCheck j = true from refused, checked_true]
  rfl

theorem checkNowFigure_eq (e : Env) (r : Rack) (j : Fin 12) : checkNowFigure e r j =
    if r.grid.state ≠ .normal then 2
    else if checkReason e r j = 0 then 0 else 1 + 16 * checkReason e r j :=
  if_congr bne_iff_ne rfl rfl

theorem exec_checkNow_taken (h : Ready s 0x24 tag (u8 j.val)) (taken : s.noCheck j = false) :
    exec (.checkNow tag (u8 j.val)) s =
      .next ((s.take.onRack fun e r => checkNow e j r).reply 0x24 tag
        (codeOk :: u8 (checkNowFigure s.env s.rack j))).conclude := by
  rw [exec_checkNow h, checkNowBody, show s.take.noCheck j = false from taken, checked_false]
  rfl

/-- The rack of a CHECK_NOW once the BU is due. -/
def madeDue (e : Env) (j : Fin 12) (r : Rack) : Rack :=
  { dropPending e j 4 r with
    bu := put (dropPending e j 4 r).bu j { (dropPending e j 4 r).bu[j] with due := 0, dueMs := 0 }
    todo := { r.todo with battery := true, checks := [] } }

theorem makeDue_eq (e : Env) (j : Fin 12) (r : Rack) :
    { makeDue e j r with todo.checks := [] } = madeDue e j r := by
  obtain ⟨todo, -⟩ := dropPending_rest e j 4 r
  unfold madeDue
  rw [← todo]
  rfl

theorem madeDue_self (e : Env) (j : Fin 12) (r : Rack) : (madeDue e j r).bu[j] =
    { (r.bu[j]).noSample with due := 0, dueMs := 0 } := by
  rw [← dropPending_self e j 4]
  exact put_self ..

/-- Making a BU due leaves what its evaluation reads (R150, R156). -/
theorem madeDue_reason (e : Env) (j : Fin 12) (r : Rack) :
    checkReason e (madeDue e j r) j = checkReason e r j := by
  obtain ⟨-, active, faults, hold, -⟩ := dropPending_rest e j 4 r
  obtain ⟨-, state, -⟩ := (r.bu[j]).noSample_keeps
  exact checkReason_congr active ((congrArg BuRec.state (madeDue_self e j r) :).trans state) faults hold

theorem checkNow_eq (e : Env) (j : Fin 12) (r : Rack) : checkNow e j r =
    if r.grid.state = .normal then evaluateCheck e j (madeDue e j r) else madeDue e j r := by
  obtain ⟨-, -, -, -, grid⟩ := dropPending_rest e j 4 r
  have run : checkNow e j r = evaluateChecks e (fun i => i == j) (madeDue e j r) :=
    congrArg (evaluateChecks e fun i => i == j) (makeDue_eq e j r)
  rw [run, evaluateChecks_one, show (madeDue e j r).grid = r.grid from grid]

/-- In NORMAL the BU made due is evaluated on the conditions as they stood (R149, R156). -/
theorem checkNow_normal (normal : r.grid.state = .normal) (present : (r.bu[j]).present = true)
    (free : (r.bu[j]).phase = .none ∨ (r.bu[j]).phase = .samplePending) : checkNow e j r =
    if checkReason e r j = 0 then startCheck e j (madeDue e j r)
    else postpone e j (checkReason e r j) (madeDue e j r) := by
  obtain ⟨there, -⟩ := (r.bu[j]).noSample_keeps
  have due := madeDue_self e j r
  have evaluates : evaluateCheck e j (madeDue e j r) = evaluated e j (madeDue e j r) :=
    evaluateCheck_due ((congrArg BuRec.present due :).trans (there.trans present))
      (congrArg BuRec.due due :) ((congrArg BuRec.phase due :).trans (BuRec.noSample_phase free))
  rw [checkNow_eq, if_pos normal, evaluates, evaluated, madeDue_reason]

/-! ### The course of a check under a report (R152 to R155) -/

theorem unstrayed_checking (h : (r.bu[j]).state = .checking) : unstrayed j r = r := if_pos h

theorem unstrayed_delivered (j : Fin 12) (r : Rack) :
    ((unstrayed j r).bu[j]).delivered = (r.bu[j]).delivered := by
  have cleared := (unstrayed_reportsKept (p := fun _ => True) (j := j) trivial r).reported j
  exact cleared.figure BuRec.delivered rfl

/-- An answer to the START_CHECK in any mode but CHECKING is a check not taken (R152). -/
theorem reportRequested_answered {x : BuState} (h : x ≠ .checking) :
    reportRequested e j true x r = notTaken e j r := by
  cases x with
  | checking => exact absurd rfl h
  | idle | charging | full | discharging | isolated | failed | lost | absent => rfl

/-- A poll that finds the BU at rest or charging leaves a requested check (R154). -/
theorem reportRequested_stays {x : BuState} (h : x = .idle ∨ x = .charging ∨ x = .full) :
    reportRequested e j false x r = r := by
  rcases h with rfl | rfl | rfl <;> rfl

theorem reportRequested_aborts {x : BuState} (h : x = .discharging ∨ x = .isolated) :
    reportRequested e j false x r = abortCheck e j false r := by
  rcases h with rfl | rfl <;> rfl

theorem reportRequested_lost {x : BuState} (h : x = .failed ∨ x = .lost) :
    reportRequested e j false x r = abortCheck e j true r := by
  rcases h with rfl | rfl <;> rfl

/-- A running check whose BU has stopped to discharge has delivered its depth or is aborted (R152). -/
theorem reportRunning_stopped {c : ActiveCheck}
    (mode : (r.bu[j]).state = .idle ∨ (r.bu[j]).state = .charging) (active : r.active = some c) :
    reportRunning e j (r.bu[j]).state (unstrayed j r) =
      if c.depth ≤ (r.bu[j]).delivered then deliver e j (unstrayed j r)
      else abortCheck e j false (unstrayed j r) := by
  obtain ⟨-, same⟩ := unstrayed_course j r
  unfold reportRunning
  rw [same, active, unstrayed_delivered]
  rcases mode with mode | mode <;> rw [mode]

theorem reportRunning_aborts {x : BuState} (h : x = .full ∨ x = .discharging ∨ x = .isolated) :
    reportRunning e j x r = abortCheck e j false r := by
  unfold reportRunning
  rcases h with rfl | rfl | rfl <;> cases r.active <;> rfl

theorem reportRunning_lost {x : BuState} (h : x = .failed ∨ x = .lost) :
    reportRunning e j x r = abortCheck e j true r := by
  unfold reportRunning
  rcases h with rfl | rfl <;> cases r.active <;> rfl

end Sys2Proof.Machine

section
open Sys2Proof Sys2Proof.Machine

/-- Settles O54: the events by their guards, the evaluation by its first failing condition, and the course
of a check by phase and mode. -/
theorem checks : Obligations.Checks := by
  refine ⟨fun s j due free => exec_checkDue due free,
    fun s j d pending deadline ended => exec_sampleDeadline pending deadline ended,
    fun e j outcome r => ⟨rfl, rfl⟩,
    fun s tag j h => ⟨fun refused => ?_, fun locked present free => ?_⟩,
    evaluateChecks_eq, fun e r j => ⟨checkReason_eq e r j, ?_, fun why => ?_⟩,
    fun e r j answered entered => ?_,
    fun e r j => ⟨⟨rfl, rfl, rfl, rfl, deliver_self e j r⟩, ?_, fun stop => ?_, ?_, ?_⟩⟩
  · exact exec_checkNow_refused h ((noCheck_iff s j).mpr refused)
  · have taken : s.noCheck j = false := by
      rw [Bool.eq_false_iff, ne_eq, noCheck_iff, locked, present]
      rcases free with free | free <;> rw [free] <;> decide
    refine ⟨?_, fun away => ?_, fun normal => checkNow_normal normal present free⟩
    · rw [exec_checkNow_taken h taken, checkNowFigure_eq]
    · exact (checkNow_eq ..).trans (if_neg away)
  · exact ⟨startCheck_member e j r, startCheck_starts, startCheck_fails⟩
  · obtain ⟨battery, -⟩ := postpone_todo e j why r
    exact ⟨postpone_self e j why r, battery,
      fun k hk => (postpone_reportsKept (p := (· = j)) rfl why r).apart k hk,
      countPostponed e j why r, rfl, (postpone_bu e j why r).symm, rfl, postpone_eq e j why r⟩
  · intro b u t
    refine ⟨fun phase => ?_, fun phase => ?_, fun phase => ?_, fun phase => ?_⟩
    · have run : t = reportRequested e j answered b.state u := reportCheck_requested phase
      rw [run]
      refine ⟨fun checking => ?_, fun mode answer => ?_, fun silent => ⟨?_, ?_, ?_⟩⟩
      · rw [checking, show u = r from unstrayed_checking checking]
        rfl
      · rw [answer, reportRequested_answered mode]
      · rw [silent]; exact reportRequested_stays
      · rw [silent]; exact reportRequested_aborts
      · rw [silent]; exact reportRequested_lost
    · have run : t = reportRunning e j b.state u := reportCheck_running phase
      rw [run]
      refine ⟨fun checking => ?_, fun a active mode => reportRunning_stopped mode active,
        reportRunning_aborts, reportRunning_lost⟩
      rw [checking]
      exact unstrayed_checking checking
    · have run : t = _ := reportCheck_pending phase
      rw [run]
      refine ⟨fun checking => ?_, fun mode => if_neg mode⟩
      rw [if_pos checking, unstrayed_checking checking]
    · have run : t = _ := reportCheck_none phase
      rw [run]
      refine if_ctx_congr Iff.rfl (fun checking => ?_) fun _ => rfl
      rw [unstrayed_checking checking]
  · exact ⟨completed e j r, complete_eq e j r, rfl, rfl, rfl, rfl, rfl, completed_self e j r⟩
  · obtain ⟨active, todo, notif⟩ := abortCheck_frame e j stop r
    exact ⟨active, (congrArg Todo.grid todo :), (congrArg Todo.battery todo :),
      (congrArg Todo.checks todo :), notif, abortCheck_bus e j stop r, abortCheck_self e j stop r⟩
  · exact ⟨checkEnded e j 3 (endActive j r), notTaken_eq e j r, rfl, rfl, rfl, endActive_self j r⟩
  · obtain ⟨active, notif⟩ := strayCheck_rest e j r
    exact ⟨active, notif, strayCheck_again, strayCheck_first⟩

end
end

