-- ==== Sys2Proof/Proofs/ChannelMoves.lean ====
section
/-! PROOF. Leak readings and the movement of a channel (O37). -/

namespace Sys2Proof.Machine

variable {c : Channel}

/-! ### The rows of R160's table -/

theorem move_dry_wet (h : c.state = .dry) : c.move .wet =
    { c with state := .suspect, wetCount := 1, openCount := 0, dryRun := 0 } := by
  cases c; cases h; rfl

theorem move_dry_opn (h : c.state = .dry) : c.move .opn =
    if c.openCount + 1 < 5 then { c with openCount := c.openCount + 1, dryRun := 0 }
    else { c with state := .opn, openCount := 0, dryRun := 0 } := by
  cases c; cases h; rfl

theorem move_dry_dry (h : c.state = .dry) : c.move .dry = { c with
    wetCount := 0, openCount := 0, dryCount := 0, dryRun := min 10 (c.dryRun + 1) } := by
  cases c; cases h; rfl

theorem move_suspect_wet (h : c.state = .suspect) : c.move .wet =
    if c.wetCount + 1 < 10 then { c with wetCount := c.wetCount + 1, dryRun := 0 }
    else { c with state := .wet, wetCount := 0, openCount := 0, dryCount := 0, dryRun := 0 } := by
  cases c; cases h; rfl

theorem move_suspect_opn (h : c.state = .suspect) : c.move .opn =
    { c with state := .dry, wetCount := 0, openCount := 1, dryRun := 0 } := by
  cases c; cases h; rfl

theorem move_suspect_dry (h : c.state = .suspect) : c.move .dry = { c with
    state := .dry, wetCount := 0, openCount := 0, dryCount := 0
    dryRun := min 10 (c.dryRun + 1) } := by
  cases c; cases h; rfl

/-- A WET channel leaves its state by no reading. -/
theorem move_wet (h : c.state = .wet) (x : Reading) : c.move x =
    { c with dryRun := if x = .dry then min 10 (c.dryRun + 1) else 0 } := by
  cases c; cases h; cases x <;> rfl

theorem move_opn_wet (h : c.state = .opn) : c.move .wet =
    { c with state := .suspect, wetCount := 1, dryCount := 0, dryRun := 0 } := by
  cases c; cases h; rfl

theorem move_opn_opn (h : c.state = .opn) : c.move .opn =
    { c with dryCount := 0, dryRun := 0 } := by
  cases c; cases h; rfl

theorem move_opn_dry (h : c.state = .opn) : c.move .dry =
    if c.dryCount + 1 < 5 then
      { c with dryCount := c.dryCount + 1, dryRun := min 10 (c.dryRun + 1) }
    else { c with state := .dry, wetCount := 0, openCount := 0, dryCount := 0
                  dryRun := min 10 (c.dryRun + 1) } := by
  cases c; cases h; rfl

/-- In every row the level stands, and the run of dry readings is counted beside the state. -/
theorem move_level_dryRun (c : Channel) (x : Reading) : (c.move x).level = c.level ∧
    (c.move x).dryRun = if x = .dry then min 10 (c.dryRun + 1) else 0 := by
  cases h : c.state with
  | dry =>
    cases x with
    | wet => rw [move_dry_wet h]; exact ⟨rfl, rfl⟩
    | opn => rw [move_dry_opn h]; split <;> exact ⟨rfl, rfl⟩
    | dry => rw [move_dry_dry h]; exact ⟨rfl, rfl⟩
  | suspect =>
    cases x with
    | wet => rw [move_suspect_wet h]; split <;> exact ⟨rfl, rfl⟩
    | opn => rw [move_suspect_opn h]; exact ⟨rfl, rfl⟩
    | dry => rw [move_suspect_dry h]; exact ⟨rfl, rfl⟩
  | wet => rw [move_wet h]; exact ⟨rfl, rfl⟩
  | opn =>
    cases x with
    | wet => rw [move_opn_wet h]; exact ⟨rfl, rfl⟩
    | opn => rw [move_opn_opn h]; exact ⟨rfl, rfl⟩
    | dry => rw [move_opn_dry h]; split <;> exact ⟨rfl, rfl⟩

/-! ### Readings in a row -/

theorem moves_wet : ∀ (xs : List Reading) {c : Channel}, c.state = .wet →
    (xs.foldl Channel.move c).state = .wet
  | [], _, h => h
  | x :: xs, c, h => moves_wet xs (by rw [move_wet h, h])

/-- From the first wet reading of a DRY channel to the ninth it is SUSPECT, and counts them (R160). -/
theorem moves_suspect (h : c.state = .dry) {k : Nat} (hk : k < 9) :
    let t := (List.replicate (k + 1) Reading.wet).foldl Channel.move c
    t.state = .suspect ∧ t.wetCount = k + 1 := by
  induction k with
  | zero => rw [List.replicate_one, List.foldl_cons, move_dry_wet h]; exact ⟨rfl, rfl⟩
  | succ k ih =>
    obtain ⟨state, count⟩ := ih (by omega)
    rw [List.replicate_succ', List.foldl_append, List.foldl_cons, List.foldl_nil,
      move_suspect_wet state, count, if_pos (by omega)]
    exact ⟨state, rfl⟩

theorem moves_tenth_wet (h : c.state = .dry) :
    ((List.replicate 10 Reading.wet).foldl Channel.move c).state = .wet := by
  obtain ⟨state, count⟩ := moves_suspect h (k := 8) (by decide)
  rw [List.replicate_succ', List.foldl_append, List.foldl_cons, List.foldl_nil,
    move_suspect_wet state, count]
  rfl

end Sys2Proof.Machine

section
open Sys2Proof Sys2Proof.Machine

/-- Settles O37: the classes of a reading, the rows of the table, and ten wet readings in a row. -/
theorem channelMoves : Obligations.ChannelMoves := by
  refine ⟨fun wet opn level => ⟨fun h => if_pos h, fun h k => ?_, fun h k => ?_⟩, move_level_dryRun,
    fun c => ⟨fun h => ?_, fun h k => ?_, fun h k => ?_, fun h => ?_, fun h k => ?_, fun h k => ?_,
      fun h => ?_, fun h => ?_, fun h => ?_, fun h => ?_, fun h k => ?_, fun h k => ?_⟩,
    fun _ xs => moves_wet xs, fun _ h => ⟨moves_tenth_wet h, (moves_suspect h (by decide)).1⟩⟩
  · exact (if_neg (Nat.not_le.mpr h)).trans (if_pos k)
  · exact (if_neg (Nat.not_le.mpr h)).trans (if_neg (Nat.not_le.mpr k))
  · rw [move_dry_wet h]; exact ⟨rfl, rfl, rfl⟩
  · rw [move_dry_opn h, if_pos (by omega)]; exact ⟨h, rfl, rfl⟩
  · rw [move_dry_opn h, k]; rfl
  · rw [move_dry_dry h]; exact ⟨h, rfl, rfl⟩
  · rw [move_suspect_wet h, if_pos (by omega)]; exact ⟨h, rfl⟩
  · rw [move_suspect_wet h, k]; rfl
  · rw [move_suspect_opn h]; exact ⟨rfl, rfl, rfl⟩
  · rw [move_suspect_dry h]; exact ⟨rfl, rfl⟩
  · rw [move_opn_wet h]; exact ⟨rfl, rfl, rfl⟩
  · rw [move_opn_opn h]; exact ⟨h, rfl⟩
  · rw [move_opn_dry h, if_pos (by omega)]; exact ⟨h, rfl⟩
  · rw [move_opn_dry h, k]; rfl

end
end

