-- ==== Sys2Proof/Proofs/ShelfIsolations.lean ====
section
/-! PROOF. The modules of an isolated shelf (R167, steps 2 to 4). The layer under O39. -/

namespace Sys2Proof.Machine

variable {e : Env} {i k : Fin 18} {j l : Fin 12} {h : Fin 3} {a b r t u v : Rack}

/-! ### One PSU, commanded off (R38, R167) -/

/-- A PSU has been commanded off, and OUTPUT_OFF stands where its position takes it. -/
def PsuOut (e : Env) (i : Fin 18) (r t : Rack) : Prop :=
  t.psu[i] = { r.psu[i] with commandedOn := false } ∧
  (takesOffers e r (.psu i) = true → (t.bus.entry (.psu i)).map CmdEntry.cmd = some .outputOff)

theorem PsuOut.congr (h : PsuOut e i u a) (hu : psuView i u = psuView i r)
    (ht : psuView i t = psuView i a) : PsuOut e i r t := by
  obtain ⟨record, entry⟩ := h
  obtain ⟨recordU, -, polledU⟩ := psuView_iff.mp hu
  obtain ⟨recordT, entryT, -⟩ := psuView_iff.mp ht
  have takes : takesOffers e u (.psu i) = takesOffers e r (.psu i) :=
    takesOffers_psu (by rw [recordU]) (by rw [recordU]) polledU
  refine ⟨by rw [recordT, record, recordU], ?_⟩
  rw [← takes, entryT]
  exact entry

theorem offerOutputOff_out (e : Env) (i : Fin 18) (r : Rack) : PsuOut e i r (offerOutputOff e i r) := by
  have record : (offerOutputOff e i r).psu[i] = { r.psu[i] with commandedOn := false } :=
    change_self r.psu i fun x => { x with commandedOn := false }
  refine ⟨record, fun takes => ?_⟩
  have bus : (offerOutputOff e i r).bus = r.bus.offer e.now true (.psu i) .outputOff := by
    rw [← takes, ← takesOffers_psu (a := { r with
      psu := change r.psu i fun x => { x with commandedOn := false } }) (b := r)
      (congrArg PsuRec.present record :) (congrArg PsuRec.state record :) rfl]
    rfl
  rw [bus]
  exact entry_offer_urgent rfl _

theorem offerOutputOff_psuView (hk : k ≠ i) (r : Rack) :
    psuView i (offerOutputOff e k r) = psuView i r :=
  psuView_iff.mpr ⟨(change_get r.psu k i _).trans (if_neg hk),
    offer_entry_other _ _ (by simpa using hk), offer_polledSet ..⟩

/-! ### What is read of a BU -/

/-- What the isolation of a BU reads and changes: what an offer for it does, its place in the member set,
and whether the active check is on it. -/
def isolationView (j : Fin 12) (r : Rack) :
    (BuRec × Option CmdEntry × List Pos) × Option Member × Bool :=
  (buView j r, r.rech.members[j], checksBu r j)

theorem isolationView_iff : isolationView j a = isolationView j b ↔ buView j a = buView j b ∧
    a.rech.members[j] = b.rech.members[j] ∧ checksBu a j = checksBu b j := by
  simp only [isolationView, Prod.mk.injEq]

theorem takesOffers_buView (same : buView j a = buView j b) :
    takesOffers e a (.bu j) = takesOffers e b (.bu j) := by
  obtain ⟨record, -, polledSet⟩ := buView_iff.mp same
  exact takesOffers_congr (by rw [record]) (by rw [record]) polledSet

theorem ShutTo.congr (shut : ShutTo e a j)
    (takes : takesOffers e a (.bu j) = takesOffers e b (.bu j))
    (entry : a.bus.entry (.bu j) = b.bus.entry (.bu j)) : ShutTo e b j := by
  unfold ShutTo at shut ⊢
  rwa [takes, entry] at shut

theorem checksBu_congr (same : a.active = b.active) : checksBu a j = checksBu b j := by
  unfold checksBu
  rw [same]

theorem offerOutputOff_isolationView (i : Fin 18) (r : Rack) :
    isolationView j (offerOutputOff e i r) = isolationView j r :=
  isolationView_iff.mpr ⟨buView_iff.mpr ⟨rfl, offer_entry_other _ _ (by simp), offer_polledSet ..⟩,
    rfl, rfl⟩

/-! ### The departure of a BU from the member set (R140) -/

theorem memberLeave_active (e : Env) (j : Fin 12) (r : Rack) :
    (memberLeave e j r).active = r.active := by
  have followed (x : Rack) : (followRc x).active = x.active := by
    unfold followRc reportRc
    split <;> rfl
  unfold memberLeave
  split
  · exact followed _
  · rfl

theorem memberLeave_psu (e : Env) (j : Fin 12) (r : Rack) : (memberLeave e j r).psu = r.psu :=
  (memberLeave_reportsKept (p := fun _ => True) trivial r).psu

theorem memberLeave_entry_other {q : Pos} (hq : .bu j ≠ q) (r : Rack) :
    (memberLeave e j r).bus.entry q = r.bus.entry q := by
  rcases memberLeave_bus e j r with bus | bus
  · rw [bus]
  · rw [bus, entry_offer_other _ _ _ _ hq]

theorem memberLeave_isolationView (hl : l ≠ j) (r : Rack) :
    isolationView j (memberLeave e l r) = isolationView j r :=
  isolationView_iff.mpr ⟨buView_iff.mpr
      ⟨(memberLeave_reportsKept (p := (· = l)) rfl r).apart j (Ne.symm hl),
        memberLeave_entry_other (by simpa using hl) r, memberLeave_polledSet ..⟩,
    (memberLeave_members ..).trans (if_neg hl), checksBu_congr (memberLeave_active ..)⟩

theorem memberLeave_psuView (j : Fin 12) (r : Rack) :
    psuView i (memberLeave e j r) = psuView i r :=
  psuView_iff.mpr ⟨by rw [memberLeave_psu], memberLeave_entry_other (by simp) r,
    memberLeave_polledSet ..⟩

/-! ### One BU, leak-isolated (R140, R167, step 3) -/

/-- A BU's record once it is leak-isolated. -/
def leakMarked (j : Fin 12) (r : Rack) : Rack :=
  { r with bu := change r.bu j fun b => { b with leakIsolated := true } }

/-- A BU leak-isolated and commanded to isolate, its place in the member set still to go. -/
def isolateSent (e : Env) (j : Fin 12) (r : Rack) : Rack :=
  commandBu e true .isolate j (leakMarked j r)

theorem leakIsolate_eq (e : Env) (j : Fin 12) (r : Rack) :
    leakIsolate e j r = memberLeave e j (isolateSent e j r) := rfl

theorem isolateSent_self (e : Env) (j : Fin 12) (r : Rack) :
    (isolateSent e j r).bu[j] = { r.bu[j] with leakIsolated := true, commandedIsolate := true } ∧
    (isolateSent e j r).bus = r.bus.offer e.now (takesOffers e r (.bu j)) (.bu j) .isolate := by
  have marked : (leakMarked j r).bu[j] = { r.bu[j] with leakIsolated := true } := change_self ..
  have takes : takesOffers e (leakMarked j r) (.bu j) = takesOffers e r (.bu j) :=
    takesOffers_congr (by rw [marked]) (by rw [marked]) rfl
  obtain ⟨record, bus⟩ := commandBu_self e true .isolate j (leakMarked j r)
  exact ⟨by rw [isolateSent, record, marked], by rw [isolateSent, bus, takes]; rfl⟩

/-- With ISOLATE offered, the position takes nothing of a lower class (R34). -/
theorem isolateSent_shut (e : Env) (j : Fin 12) (r : Rack) : ShutTo e (isolateSent e j r) j := by
  obtain ⟨record, bus⟩ := isolateSent_self e j r
  have polledSet : (isolateSent e j r).bus.polledSet = r.bus.polledSet := by
    rw [bus, busOffer_frame]
  have takes : takesOffers e (isolateSent e j r) (.bu j) = takesOffers e r (.bu j) :=
    takesOffers_congr (by rw [record]) (by rw [record]) polledSet
  cases open_ : takesOffers e r (.bu j) with
  | false => exact .inl (takes.trans open_)
  | true =>
    obtain ⟨x, waits, command⟩ := Option.map_eq_some_iff.mp
      (entry_offer_urgent (s := r.bus) (q := .bu j) (x := .isolate) rfl e.now)
    exact .inr ⟨x, by rw [bus, open_, waits], by rw [command]; rfl⟩

theorem leakIsolate_self (e : Env) (j : Fin 12) (r : Rack) : (leakIsolate e j r).bu[j] =
    { r.bu[j] with leakIsolated := true, commandedIsolate := true
                   setpoint := ((leakIsolate e j r).bu[j]).setpoint } := by
  refine (memberLeave_self e j (isolateSent e j r)).trans ?_
  rw [(isolateSent_self e j r).1]
  rfl

theorem leakIsolate_bus (e : Env) (j : Fin 12) (r : Rack) : (leakIsolate e j r).bus =
    r.bus.offer e.now (takesOffers e r (.bu j)) (.bu j) .isolate := by
  obtain ⟨-, bus⟩ := isolateSent_self e j r
  rw [leakIsolate_eq, memberLeave_shut (isolateSent_shut e j r), bus]

theorem leakIsolate_shut (e : Env) (j : Fin 12) (r : Rack) : ShutTo e (leakIsolate e j r) j := by
  have bus := memberLeave_shut (isolateSent_shut e j r)
  have record := memberLeave_self e j (isolateSent e j r)
  refine (isolateSent_shut e j r).congr ?_ (congrArg (fun q : Bus => q.entry (.bu j)) bus.symm)
  exact (takesOffers_congr (congrArg BuRec.present record :) (congrArg BuRec.state record :)
    (congrArg Bus.polledSet bus)).symm

theorem leakIsolate_active (e : Env) (j : Fin 12) (r : Rack) :
    (leakIsolate e j r).active = r.active := memberLeave_active ..

theorem leakIsolate_isolationView (hl : l ≠ j) (r : Rack) :
    isolationView j (leakIsolate e l r) = isolationView j r := by
  have marked : buView j (leakMarked l r) = buView j r :=
    buView_iff.mpr ⟨(change_get r.bu l j _).trans (if_neg hl), rfl, rfl⟩
  exact (memberLeave_isolationView hl _).trans
    (isolationView_iff.mpr ⟨(commandBu_other hl _).trans marked, rfl, rfl⟩)

theorem leakIsolate_psuView (j : Fin 12) (r : Rack) : psuView i (leakIsolate e j r) = psuView i r :=
  (memberLeave_psuView ..).trans
    (psuView_iff.mpr ⟨rfl, offer_entry_other _ _ (by simp), offer_polledSet ..⟩)

/-! ### The Check Scheduler told of one BU (R154, R167, step 4) -/

theorem tellIsolated_unchecked (h : checksBu r j = false) : tellIsolated e j r = r :=
  if_neg (Bool.eq_false_iff.mp h)

theorem tellIsolated_checked (h : checksBu r j = true) :
    tellIsolated e j r = abortCheck e j true r := if_pos h

theorem not_checksBu_of_idle (h : r.active = none) : checksBu r j = false := by
  unfold checksBu
  rw [h]

/-- One check is active at most. -/
theorem not_checksBu_other (h : checksBu r l = true) (hl : l ≠ j) : checksBu r j = false := by
  obtain ⟨x, active, bu⟩ := checksBu_iff.mp h
  refine Bool.eq_false_iff.mpr fun k => ?_
  obtain ⟨y, active', bu'⟩ := checksBu_iff.mp k
  rw [active] at active'
  exact hl (by rw [← bu, ← bu', Option.some.inj active'])

/-- A BU that takes nothing of a lower class is offered no STOP_CHECK, its check is ended and its isolation
stands. -/
theorem tellIsolated_self (shut : ShutTo e r j) :
    (tellIsolated e j r).bus = r.bus ∧
    (tellIsolated e j r).rech = r.rech ∧
    ((tellIsolated e j r).bu[j]).commandedIsolate = (r.bu[j]).commandedIsolate ∧
    ((tellIsolated e j r).bu[j]).leakIsolated = (r.bu[j]).leakIsolated ∧
    checksBu (tellIsolated e j r) j = false ∧
    (checksBu r j = true → ((tellIsolated e j r).bu[j]).phase = .none) := by
  cases checked : checksBu r j with
  | false =>
    rw [tellIsolated_unchecked checked]
    exact ⟨rfl, rfl, rfl, rfl, checked, nofun⟩
  | true =>
    obtain ⟨idle, -⟩ := abortCheck_frame e j true r
    have unstopped : (offer e (.bu j) .stopCheck r).bus = r.bus := busOffer_shut shut (by decide)
    rw [tellIsolated_checked checked, abortCheck_self]
    exact ⟨(abortCheck_bus ..).trans ((if_pos rfl).trans unstopped), rfl, rfl, rfl,
      not_checksBu_of_idle idle, fun _ => rfl⟩

theorem tellIsolated_isolationView (hl : l ≠ j) (r : Rack) :
    isolationView j (tellIsolated e l r) = isolationView j r := by
  cases checked : checksBu r l with
  | false => rw [tellIsolated_unchecked checked]
  | true =>
    obtain ⟨idle, -⟩ := abortCheck_frame e l true r
    have record := (abortCheck_reportsKept (e := e) (p := (· = l)) rfl true r).apart j (Ne.symm hl)
    have bus := (abortCheck_bus e l true r).trans (if_pos rfl)
    rw [tellIsolated_checked checked, isolationView_iff, buView_iff, bus]
    exact ⟨⟨record, offer_entry_other _ _ (by simpa using hl), offer_polledSet ..⟩, rfl,
      (not_checksBu_of_idle idle).trans (not_checksBu_other checked hl).symm⟩

theorem tellIsolated_psuView (j : Fin 12) (r : Rack) :
    psuView i (tellIsolated e j r) = psuView i r := by
  cases checked : checksBu r j with
  | false => rw [tellIsolated_unchecked checked]
  | true =>
    have psu := (abortCheck_reportsKept (e := e) (p := fun _ => True) (j := j) trivial true r).psu
    have bus := (abortCheck_bus e j true r).trans (if_pos rfl)
    rw [tellIsolated_checked checked, psuView_iff, bus]
    exact ⟨by rw [psu], offer_entry_other _ _ (by simp), offer_polledSet ..⟩

theorem tellIsolated_active (e : Env) (j : Fin 12) (r : Rack) :
    (tellIsolated e j r).active = r.active ∨ (tellIsolated e j r).active = none := by
  cases checked : checksBu r j with
  | false => exact .inl (by rw [tellIsolated_unchecked checked])
  | true =>
    rw [tellIsolated_checked checked]
    exact .inr (abortCheck_frame e j true r).1

/-! ### One BU isolated -/

/-- A BU is leak-isolated and commanded to isolate, a member no longer, ISOLATE stands where its position
takes it, and no check is active on it (R167). -/
structure BuOut (e : Env) (j : Fin 12) (r t : Rack) : Prop where
  commanded : (t.bu[j]).commandedIsolate = true
  isolated : (t.bu[j]).leakIsolated = true
  member : t.rech.members[j] = none
  entry : takesOffers e r (.bu j) = true → (t.bus.entry (.bu j)).map CmdEntry.cmd = some .isolate
  unchecked : checksBu t j = false
  ended : checksBu r j = true → (t.bu[j]).phase = .none

theorem BuOut.congr (h : BuOut e j u a) (hu : isolationView j u = isolationView j r)
    (ht : isolationView j t = isolationView j a) : BuOut e j r t := by
  obtain ⟨viewU, -, checksU⟩ := isolationView_iff.mp hu
  obtain ⟨viewT, memberT, checksT⟩ := isolationView_iff.mp ht
  obtain ⟨recordT, entryT, -⟩ := buView_iff.mp viewT
  have takes := takesOffers_buView (e := e) viewU
  exact ⟨by rw [recordT, h.commanded], by rw [recordT, h.isolated], by rw [memberT, h.member],
    by rw [← takes, entryT]; exact h.entry, by rw [checksT, h.unchecked],
    by rw [← checksU, recordT]; exact h.ended⟩

/-- What the two turns of a BU make of it, on a rack v that others have changed in between. -/
theorem isolated_out (hv : isolationView j v = isolationView j (leakIsolate e j r)) :
    BuOut e j r (tellIsolated e j v) := by
  obtain ⟨view, member, checks⟩ := isolationView_iff.mp hv
  obtain ⟨record, entry, -⟩ := buView_iff.mp view
  obtain ⟨bus, rech, commanded, isolated, unchecked, ended⟩ := tellIsolated_self
    ((leakIsolate_shut e j r).congr (takesOffers_buView view).symm entry.symm)
  have self := leakIsolate_self e j r
  have checked : checksBu v j = checksBu r j := checks.trans (checksBu_congr (leakIsolate_active ..))
  refine ⟨by rw [commanded, record, self], by rw [isolated, record, self], ?_, fun takes => ?_,
    unchecked, by rw [← checked]; exact ended⟩
  · rw [rech, member]
    exact (memberLeave_members ..).trans (if_pos rfl)
  · rw [bus, entry, leakIsolate_bus, takes]
    exact entry_offer_urgent rfl _

/-! ### One shelf -/

theorem mem_presentPsus : i ∈ (shelfPsus h).filter (fun i => (r.psu[i]).present) ↔
    psuShelf i = h ∧ (r.psu[i]).present = true := by
  simp only [shelfPsus, List.mem_filter, List.mem_finRange, true_and, decide_eq_true_eq]

theorem mem_presentBus : j ∈ (shelfBus h).filter (fun j => (r.bu[j]).present) ↔
    buShelf j = h ∧ (r.bu[j]).present = true := by
  simp only [shelfBus, List.mem_filter, List.mem_finRange, true_and, decide_eq_true_eq]

/-- The present PSUs of a shelf are commanded off in turn. -/
def psusOut (e : Env) (h : Fin 3) (r : Rack) : Rack :=
  forEach (offerOutputOff e) ((shelfPsus h).filter fun i => (r.psu[i]).present) r

/-- The present BUs of a shelf are leak-isolated in turn, and then the Check Scheduler told. -/
def busOut (e : Env) (js : List (Fin 12)) (r : Rack) : Rack :=
  forEach (tellIsolated e) js (forEach (leakIsolate e) js r)

theorem isolateModules_eq (e : Env) (h : Fin 3) (r : Rack) : isolateModules e h r =
    busOut e ((shelfBus h).filter fun j => (r.bu[j]).present) (psusOut e h r) := rfl

theorem busOut_psuView (js : List (Fin 12)) (r : Rack) :
    psuView i (busOut e js r) = psuView i r :=
  (forEach_figure (psuView i) tellIsolated_psuView ..).trans
    (forEach_figure (psuView i) leakIsolate_psuView ..)

theorem psusOut_isolationView (e : Env) (h : Fin 3) (r : Rack) :
    isolationView j (psusOut e h r) = isolationView j r :=
  forEach_figure (isolationView j) offerOutputOff_isolationView ..

theorem busOut_out {js : List (Fin 12)} (nodup : js.Nodup) (hj : j ∈ js) (r : Rack) :
    BuOut e j r (busOut e js r) := by
  obtain ⟨u, sameU, ownU⟩ := (forEach_own (view := isolationView j) (x := j)
    (fun _ => leakIsolate_isolationView (e := e)) js r nodup).2 hj
  obtain ⟨v, sameV, ownV⟩ := (forEach_own (view := isolationView j) (x := j)
    (fun _ => tellIsolated_isolationView (e := e)) js (forEach (leakIsolate e) js r) nodup).2 hj
  exact (isolated_out (sameV.trans ownU)).congr sameU ownV

theorem busOut_left {js : List (Fin 12)} (nodup : js.Nodup) (hj : j ∉ js) (r : Rack) :
    isolationView j (busOut e js r) = isolationView j r :=
  ((forEach_own (view := isolationView j) (x := j)
    (fun _ => tellIsolated_isolationView (e := e)) js (forEach (leakIsolate e) js r) nodup).1 hj).trans
    ((forEach_own (view := isolationView j) (x := j)
      (fun _ => leakIsolate_isolationView (e := e)) js r nodup).1 hj)

theorem isolateModules_psu_out (off : psuShelf i = h ∧ (r.psu[i]).present = true) :
    PsuOut e i r (isolateModules e h r) := by
  rw [isolateModules_eq]
  obtain ⟨u, same, own⟩ := (forEach_own (view := psuView i) (x := i)
    (fun _ => offerOutputOff_psuView (e := e)) _ r
    (givenPsus_nodup h _)).2 (mem_presentPsus.mpr off)
  exact (offerOutputOff_out e i u).congr same ((busOut_psuView ..).trans own)

theorem isolateModules_psu_left (left : ¬(psuShelf i = h ∧ (r.psu[i]).present = true)) :
    psuView i (isolateModules e h r) = psuView i r := by
  rw [isolateModules_eq, busOut_psuView]
  exact (forEach_own (view := psuView i) (x := i)
    (fun _ => offerOutputOff_psuView (e := e)) _ r
    (givenPsus_nodup h _)).1 (left ∘ mem_presentPsus.mp)

theorem isolateModules_bu_out (off : buShelf j = h ∧ (r.bu[j]).present = true) :
    BuOut e j r (isolateModules e h r) := by
  rw [isolateModules_eq]
  exact (busOut_out (givenBus_nodup h _) (mem_presentBus.mpr off) _).congr (psusOut_isolationView ..) rfl

theorem isolateModules_bu_left (left : ¬(buShelf j = h ∧ (r.bu[j]).present = true)) :
    isolationView j (isolateModules e h r) = isolationView j r := by
  rw [isolateModules_eq]
  exact (busOut_left (givenBus_nodup h _) (left ∘ mem_presentBus.mp) _).trans (psusOut_isolationView ..)

theorem forEach_tellIsolated_active : ∀ (js : List (Fin 12)) (r : Rack),
    (forEach (tellIsolated e) js r).active = r.active ∨ (forEach (tellIsolated e) js r).active = none
  | [], _ => .inl rfl
  | j :: js, r => (forEach_tellIsolated_active js (tellIsolated e j r)).elim
      (fun same => (tellIsolated_active e j r).imp same.trans same.trans) .inr

/-- An isolation starts no check. -/
theorem isolateModules_active (e : Env) (h : Fin 3) (r : Rack) :
    (isolateModules e h r).active = r.active ∨ (isolateModules e h r).active = none :=
  (forEach_tellIsolated_active ..).imp_left fun same =>
    same.trans ((forEach_figure Rack.active (leakIsolate_active e) ..).trans
      (forEach_figure (f := offerOutputOff e) Rack.active (fun _ _ => rfl) ..))

/-- The active check on a BU of the shelf is ended (R154). -/
theorem isolateModules_ends {x : ActiveCheck} (off : buShelf j = h ∧ (r.bu[j]).present = true)
    (active : r.active = some x) (on : x.bu = j) : (isolateModules e h r).active = none ∧
      ((isolateModules e h r).bu[j]).phase = .none := by
  have out := isolateModules_bu_out (e := e) off
  have checked : checksBu r j = true := checksBu_iff.mpr ⟨x, active, on⟩
  refine ⟨(isolateModules_active e h r).resolve_left fun same => ?_, out.ended checked⟩
  have still := checksBu_congr (j := j) same
  rw [checked, out.unchecked] at still
  cases still

theorem isolateModules_slots (e : Env) (h : Fin 3) (r : Rack) :
    (isolateModules e h r).slots = r.slots := by
  have told (j : Fin 12) (r : Rack) : (tellIsolated e j r).slots = r.slots := by
    unfold tellIsolated
    split <;> rfl
  have left (j : Fin 12) (r : Rack) : (leakIsolate e j r).slots = r.slots := memberLeave_slots ..
  exact (forEach_figure Rack.slots told ..).trans ((forEach_figure Rack.slots left ..).trans
    (forEach_figure (f := offerOutputOff e) Rack.slots (fun _ _ => rfl) ..))

/-! ### Shelves, one after another -/

theorem isolateEach_psu_out {hs : List (Fin 3)} (nodup : hs.Nodup) (on : psuShelf i ∈ hs)
    (present : (r.psu[i]).present = true) : PsuOut e i r (forEach (isolateModules e) hs r) := by
  obtain ⟨u, same, own⟩ := (forEach_own (view := psuView i) (x := psuShelf i)
    (fun h hh r => isolateModules_psu_left (e := e) fun k => hh k.1.symm) hs r nodup).2 on
  obtain ⟨record, -⟩ := psuView_iff.mp same
  exact (isolateModules_psu_out ⟨rfl, by rw [record]; exact present⟩).congr same own

theorem isolateEach_psu_left {hs : List (Fin 3)} (nodup : hs.Nodup)
    (left : ¬(psuShelf i ∈ hs ∧ (r.psu[i]).present = true)) :
    (forEach (isolateModules e) hs r).psu[i] = r.psu[i] := by
  have each := forEach_own (view := psuView i) (x := psuShelf i)
    (fun h hh r => isolateModules_psu_left (e := e) fun k => hh k.1.symm) hs r nodup
  by_cases on : psuShelf i ∈ hs
  · obtain ⟨u, same, own⟩ := each.2 on
    obtain ⟨record, -⟩ := psuView_iff.mp same
    have kept := isolateModules_psu_left (e := e) (r := u) (h := psuShelf i) (i := i)
      (by rw [record]; exact fun k => left ⟨on, k.2⟩)
    exact (psuView_iff.mp (own.trans (kept.trans same))).1
  · exact (psuView_iff.mp (each.1 on)).1

theorem isolateEach_bu_out {hs : List (Fin 3)} (nodup : hs.Nodup) (on : buShelf j ∈ hs)
    (present : (r.bu[j]).present = true) : BuOut e j r (forEach (isolateModules e) hs r) := by
  obtain ⟨u, same, own⟩ := (forEach_own (view := isolationView j) (x := buShelf j)
    (fun h hh r => isolateModules_bu_left (e := e) fun k => hh k.1.symm) hs r nodup).2 on
  obtain ⟨record, -⟩ := buView_iff.mp (isolationView_iff.mp same).1
  exact (isolateModules_bu_out ⟨rfl, by rw [record]; exact present⟩).congr same own

theorem isolateEach_bu_left {hs : List (Fin 3)} (nodup : hs.Nodup)
    (left : ¬(buShelf j ∈ hs ∧ (r.bu[j]).present = true)) :
    (forEach (isolateModules e) hs r).bu[j] = r.bu[j] := by
  have each := forEach_own (view := isolationView j) (x := buShelf j)
    (fun h hh r => isolateModules_bu_left (e := e) fun k => hh k.1.symm) hs r nodup
  have record {a b : Rack} (same : isolationView j a = isolationView j b) : a.bu[j] = b.bu[j] :=
    (buView_iff.mp (isolationView_iff.mp same).1).1
  by_cases on : buShelf j ∈ hs
  · obtain ⟨u, same, own⟩ := each.2 on
    have kept := isolateModules_bu_left (e := e) (r := u) (h := buShelf j) (j := j)
      (by rw [record same]; exact fun k => left ⟨on, k.2⟩)
    exact record (own.trans (kept.trans same))
  · exact record (each.1 on)

end Sys2Proof.Machine
end

