-- ==== Sys2Proof/Proofs/ZoneActs.lean ====
section
/-! PROOF. What a zone's change of state raises and hands on, and what a zone's acts leave (R101, R162). The
layer under O38 and O39. -/

namespace Sys2Proof.Machine

variable {s t u : State} {z : Fin 8} {x : ZoneState}

/-! ### ZONE_STATE and the head of the zone (R101, R162) -/

theorem headZone_eq (e : Env) (z : Fin 8) (r : Rack) :
    headZone e z r = { r with todo.head := (headZone e z r).todo.head } := by
  unfold headZone
  split
  · split <;> rfl
  · rfl

theorem headZone_iff (e : Env) (z : Fin 8) (r : Rack) : (headZone e z r).todo.head = true ↔
    r.todo.head = true ∨ ∃ h, r.queue.head = some h ∧ e.slotZone h.slot = some z := by
  unfold headZone
  split
  · next h hh =>
    split
    · next hz => exact iff_of_true rfl (.inr ⟨h, hh, hz⟩)
    · next hz =>
      refine (or_iff_left ?_).symm
      rintro ⟨k, hk, kz⟩
      exact hz (Option.some.inj (hh.symm.trans hk) ▸ kz)
  · next hh =>
    refine (or_iff_left ?_).symm
    rintro ⟨k, hk, -⟩
    rw [hh] at hk
    cases hk

theorem zoneRaised_eq (s : State) (z : Fin 8) : s.zoneRaised z = { s with
    rack.notif := s.rack.notif.offer
      ⟨.leak, 2, z.val, s.now, (s.leak.zones[z]).state.code + 16 * (s.action z).code⟩
    rack.todo.head := (s.zoneRaised z).rack.todo.head } := by
  have raised : s.zoneRaised z = s.onRack fun e r => raise e .leak 2 z.val
      ((s.leak.zones[z]).state.code + 16 * (s.action z).code) (headZone e z r) := rfl
  rw [raised, State.onRack, headZone_eq]
  rfl

theorem zoneRaised_head (s : State) (z : Fin 8) : (s.zoneRaised z).rack.todo.head = true ↔
    s.rack.todo.head = true ∨
      ∃ h, s.rack.queue.head = some h ∧ s.env.slotZone h.slot = some z := headZone_iff ..

theorem setZone_same (h : (s.leak.zones[z]).state = x) : s.setZone z x = s := if_pos h

theorem setZone_changes (h : (s.leak.zones[z]).state ≠ x) :
    s.setZone z x = (s.changeZone z fun y => { y with state := x }).zoneRaised z := if_neg h

theorem setZone_changes_eq (h : (s.leak.zones[z]).state ≠ x) : s.setZone z x = { s with
    leak.zones := put s.leak.zones z { s.leak.zones[z] with state := x }
    rack.notif := s.rack.notif.offer
      ⟨.leak, 2, z.val, s.now, x.code + 16 * (s.action z).code⟩
    rack.todo.head := (s.setZone z x).rack.todo.head } := by
  have raised := zoneRaised_eq (s.changeZone z fun y => { y with state := x }) z
  rw [changeZone_get] at raised
  rw [setZone_changes h]
  exact raised

/-! ### What a zone's acts leave -/

/-- t differs from s in zone records and in the rack. -/
def ZonesAct (s t : State) : Prop := t = { s with leak.zones := t.leak.zones, rack := t.rack }

theorem ZonesAct.refl (s : State) : ZonesAct s s := rfl

theorem ZonesAct.trans (h : ZonesAct s t) (k : ZonesAct t u) : ZonesAct s u := by
  unfold ZonesAct at *
  rw [k, h]

theorem ZonesAct.ite {p : Prop} [Decidable p] (h : ZonesAct s t) (k : ZonesAct s u) :
    ZonesAct s (if p then t else u) := by
  split <;> assumption

theorem ZonesAct.cfg (h : ZonesAct s t) : t.cfg = s.cfg := by rw [h]

theorem ZonesAct.marks (h : ZonesAct s t) : t.marks = s.marks := by rw [h]

theorem ZonesAct.leak (h : ZonesAct s t) : t.leak = { s.leak with zones := t.leak.zones } := by
  rw [h]

theorem onRack_zonesAct (s : State) (f : Env → Rack → Rack) : ZonesAct s (s.onRack f) := rfl

theorem changeZone_zonesAct (s : State) (z : Fin 8) (f : Zone → Zone) :
    ZonesAct s (s.changeZone z f) := rfl

theorem zoneRaised_zonesAct (s : State) (z : Fin 8) : ZonesAct s (s.zoneRaised z) := rfl

theorem setZone_zonesAct (s : State) (z : Fin 8) (x : ZoneState) : ZonesAct s (s.setZone z x) :=
  .ite (.refl s) ((changeZone_zonesAct s z _).trans (zoneRaised_zonesAct ..))

theorem forEach_zonesAct {α : Type} {f : α → State → State} (h : ∀ x s, ZonesAct s (f x s)) :
    ∀ (xs : List α) (s : State), ZonesAct s (forEach f xs s)
  | [], s => .refl s
  | x :: xs, s => (h x s).trans (forEach_zonesAct h xs (f x s))

theorem isolateShelves_zonesAct (s : State) (z : Fin 8) : ZonesAct s (s.isolateShelves z) :=
  forEach_zonesAct (fun _ s => (changeZone_zonesAct s z _).trans (onRack_zonesAct ..)) _ s

theorem isolateZone_zonesAct (s : State) (z : Fin 8) : ZonesAct s (s.isolateZone z) := by
  have cut (t : State) : ZonesAct t (if (t.cfg.leakTable[z]).shelfIsolate then
      t.isolateShelves z else t) := .ite (isolateShelves_zonesAct t z) (.refl t)
  exact ((changeZone_zonesAct s z _).trans
    ((zoneRaised_zonesAct ..).trans (onRack_zonesAct ..))).trans (cut _)

theorem beginGrace_zonesAct (s : State) (z : Fin 8) : ZonesAct s (s.beginGrace z) := rfl

theorem enterAlarm_zonesAct (s : State) (z : Fin 8) : ZonesAct s (s.enterAlarm z) := by
  unfold State.enterAlarm
  dsimp only
  have raised : ZonesAct s (((s.changeZone z fun x =>
      { x with state := .alarm, alarmTime := some s.now }).onRack fun e r =>
        logFault e .leakConfirmed z.val r).zoneRaised z) := rfl
  split
  · exact raised
  · exact raised.trans (beginGrace_zonesAct ..)
  · exact raised.trans (isolateZone_zonesAct ..)

theorem followZone_zonesAct (s : State) (z : Fin 8) : ZonesAct s (s.followZone z) := by
  unfold State.followZone
  split
  · exact .refl s
  · split
    · exact .ite (.refl s) (enterAlarm_zonesAct s z)
    · exact setZone_zonesAct ..

end Sys2Proof.Machine
end

