-- ==== Sys2Proof/Proofs/ZoneIsolation.lean ====
section
/-! PROOF. A zone's entry to ALARM, its isolation, and that of its shelves (O39). -/

namespace Sys2Proof.Machine

variable {e : Env} {n m : Fin 48} {h : Fin 3} {z : Fin 8} {r : Rack} {s : State}

/-! ### The slots of the zone, each handed on (R165, R166) -/

/-- The states out of which a leak cut takes a slot (R166). -/
def SlotState.Cuts (x : SlotState) : Prop :=
  x ∈ [SlotState.starting, .on, .draining, .queued, .shed]

theorem cuts_iff (x : SlotState) : x.Cuts ↔ x.powered = true ∨ x = .queued ∨ x = .shed := by
  unfold SlotState.Cuts
  cases x <;> decide

theorem handOn_cuts (k : (r.slots[n]).state.Cuts) : ((handOn e r).slots[n]).state.Cuts := by
  rcases (cuts_iff _).mp k with powered | unpowered
  · exact (cuts_iff _).mpr ((handOn_powered_or_shed (.inl powered)).imp_right .inr)
  · rwa [handOn_unpowered (by rcases unpowered with k | k <;> rw [k] <;> rfl)]

variable {P Q : SlotRec → Prop} {ns : List (Fin 48)}

theorem Outlasts.othersCut (k : Outlasts e n P) (m : Fin 48) (hm : m ≠ n) (r : Rack)
    (hr : P r.slots[n]) : P (handOn e (leakCut e m r)).slots[n] :=
  k _ (by rwa [leakCut_other hm])

theorem cutEach_stays (outlasts : Outlasts e n P)
    (own : n ∈ ns → ∀ r : Rack, P r.slots[n] → P (leakCut e n r).slots[n]) (hr : P r.slots[n]) :
    P (eachHandedOn e (leakCut e) ns r).slots[n] := by
  refine forEach_stays (P := fun r => P r.slots[n]) ns r (fun m hm r hr => ?_) hr
  by_cases hmn : m = n
  · subst hmn
    exact outlasts _ (own hm r hr)
  · exact outlasts.othersCut m hmn r hr

/-- A slot in one of those states stands ISOLATED with PERMIT off, whatever is handed on (R58, R166). -/
theorem cutEach_isolates (nodup : ns.Nodup) (hn : n ∈ ns) (k : (r.slots[n]).state.Cuts) :
    ((eachHandedOn e (leakCut e) ns r).slots[n]).StandsIsolated := by
  have before : Outlasts e n (·.state.Cuts) := fun _ => handOn_cuts
  have after : Outlasts e n SlotRec.StandsIsolated := fun _ => handOn_isolated
  refine forEach_becomes (P := fun r => (r.slots[n]).state.Cuts)
    (Q := fun r => (r.slots[n]).StandsIsolated) before.othersCut (fun r hr => after _ ?_)
    after.othersCut ns r nodup hn k
  rw [leakCut_cuts hr, enter_self]
  exact ⟨rfl, rfl, rfl⟩

/-- An unpowered slot that no cut takes, or that is elsewhere, keeps its record. -/
theorem cutEach_unpowered (k : (r.slots[n]).state.powered = false)
    (left : n ∈ ns → (r.slots[n]).state ∈ [SlotState.disabled, .off, .isolated, .faulted]) :
    (eachHandedOn e (leakCut e) ns r).slots[n] = r.slots[n] :=
  cutEach_stays (P := (· = r.slots[n])) (outlasts_unpowered fun x hx => hx ▸ k)
    (fun hn u hu => by rw [leakCut_leaves (hu ▸ left hn), hu]) rfl

/-- A powered slot elsewhere stays powered, or is SHED by the blocks (R58). -/
theorem cutEach_powered (hn : n ∉ ns) (k : (r.slots[n]).state.powered = true) :
    ((eachHandedOn e (leakCut e) ns r).slots[n]).state.powered = true ∨
      ((eachHandedOn e (leakCut e) ns r).slots[n]).state = .shed :=
  cutEach_stays (P := fun x => x.state.powered = true ∨ x.state = .shed)
    (fun _ => handOn_powered_or_shed) (fun k => absurd k hn) (.inl k)

theorem cutEach_psu (ns : List (Fin 48)) (r : Rack) :
    (eachHandedOn e (leakCut e) ns r).psu = r.psu := by
  refine forEach_figure Rack.psu (fun n r => (handOn_handsOn e _).psu.trans ?_) ns r
  unfold leakCut
  cases (r.slots[n]).state with
  | starting | on | draining | queued | shed => exact (enter_sameModules ..).psu
  | disabled | off | isolated | faulted => rfl

/-! ### The shelves of the zone, one after another (R167) -/

/-- A zone's record and the rack changed in turn for each shelf, with no zone's state changed between. -/
theorem shelfEach_eq {f : Env → Fin 3 → Rack → Rack} {g : Fin 3 → Zone → Zone}
    (same : ∀ h x, (g h x).state = x.state) (z : Fin 8) : ∀ (hs : List (Fin 3)) (s : State),
    forEach (fun h s => (s.changeZone z (g h)).onRack fun e r => f e h r) hs s =
      { s.changeZone z (forEach g hs) with rack := forEach (f s.env) hs s.rack }
  | [], s => by
    have same : change s.leak.zones z id = s.leak.zones := Vector.set_getElem_self ..
    show s = { s with leak := { s.leak with zones := change s.leak.zones z id } }
    rw [same]
  | h :: hs, s => by
    refine (shelfEach_eq same z hs ((s.changeZone z (g h)).onRack fun e r => f e h r)).trans ?_
    rw [onRack_env, onRack_rack, changeZone_env (same h)]
    exact congrArg (fun t : State => { t with rack := forEach (f s.env) hs (f s.env h s.rack) })
      (changeZone_changeZone s z (g h) (forEach g hs))

/-- The shelves of a list held by a zone beside those it holds. -/
def holdShelves (hs : List (Fin 3)) (v : Vector Bool 3) : Vector Bool 3 :=
  Vector.ofFn fun h => v[h] || decide (h ∈ hs)

theorem holdShelves_get (hs : List (Fin 3)) (v : Vector Bool 3) (h : Fin 3) :
    (holdShelves hs v)[h] = (v[h] || decide (h ∈ hs)) := Vector.getElem_ofFn ..

theorem holdShelves_cons (h : Fin 3) (hs : List (Fin 3)) (v : Vector Bool 3) :
    holdShelves hs (put v h true) = holdShelves (h :: hs) v := by
  refine Vector.ext fun i hi => ?_
  refine (holdShelves_get hs (put v h true) ⟨i, hi⟩).trans
    (Eq.trans ?_ (holdShelves_get (h :: hs) v ⟨i, hi⟩).symm)
  rw [put_get]
  by_cases k : h = ⟨i, hi⟩
  · subst k
    simp
  · simp [k, Ne.symm k]

theorem forEach_put_shelves : ∀ (hs : List (Fin 3)) (x : Zone),
    forEach (fun h (x : Zone) => { x with shelves := put x.shelves h true }) hs x =
      { x with shelves := holdShelves hs x.shelves }
  | [], x => by
    have same : holdShelves [] x.shelves = x.shelves := Vector.ext fun i hi => by
      refine (holdShelves_get [] x.shelves ⟨i, hi⟩).trans ?_
      simp
    rw [same]
    rfl
  | h :: hs, x => by
    refine (forEach_put_shelves hs { x with shelves := put x.shelves h true }).trans ?_
    rw [holdShelves_cons]

theorem isolateShelves_eq (s : State) (z : Fin 8) : s.isolateShelves z = { s with
    leak.zones := put s.leak.zones z { s.leak.zones[z] with
      shelves := holdShelves (s.zoneShelves z) (s.leak.zones[z]).shelves }
    rack := forEach (isolateModules s.env) (s.zoneShelves z) s.rack } := by
  refine (shelfEach_eq (f := isolateModules)
    (g := fun h x => { x with shelves := put x.shelves h true }) (fun _ _ => rfl) z _ s).trans ?_
  rw [← forEach_put_shelves]
  rfl

theorem mem_zoneShelves : h ∈ s.zoneShelves z ↔
    (s.marks.shelfOn[h] && s.env.shelfZone h == some z) = true := by
  rw [State.zoneShelves, List.mem_filter, and_iff_right (List.mem_finRange h)]

theorem zoneShelves_nodup (s : State) (z : Fin 8) : (s.zoneShelves z).Nodup :=
  (List.nodup_finRange 3).filter _

/-! ### The zone isolated (R165, R166) -/

/-- The zone ISOLATED with no grace, its slots and shelves still to come. -/
def State.isolationBegun (s : State) (z : Fin 8) : State :=
  (s.changeZone z fun x => { x with grace := none, state := .isolated }).zoneRaised z

/-- The slots of the zone in turn. -/
def State.slotsCut (s : State) (z : Fin 8) : State :=
  (s.isolationBegun z).onRack fun e r => eachHandedOn e (leakCut e) (e.zoneSlots z) r

theorem isolateZone_eq (s : State) (z : Fin 8) : s.isolateZone z =
    if (s.cfg.leakTable[z]).shelfIsolate then (s.slotsCut z).isolateShelves z
    else s.slotsCut z := rfl

theorem isolateZone_shelves_off (off : (s.cfg.leakTable[z]).shelfIsolate = false) :
    s.isolateZone z = s.slotsCut z := if_neg (Bool.eq_false_iff.mp off)

theorem isolateZone_shelves_on (on : (s.cfg.leakTable[z]).shelfIsolate = true) :
    s.isolateZone z = (s.slotsCut z).isolateShelves z := if_pos on

theorem slotsCut_zone (s : State) (z : Fin 8) : (s.slotsCut z).leak.zones[z] =
    { s.leak.zones[z] with grace := none, state := .isolated } := changeZone_get ..

theorem isolateZone_zone (s : State) (z : Fin 8) : (s.isolateZone z).leak.zones[z] =
    { s.leak.zones[z] with
      grace := none, state := .isolated
      shelves := if (s.cfg.leakTable[z]).shelfIsolate then
        holdShelves (s.zoneShelves z) (s.leak.zones[z]).shelves else (s.leak.zones[z]).shelves } := by
  cases isolate : (s.cfg.leakTable[z]).shelfIsolate with
  | false => rw [isolateZone_shelves_off isolate]; exact slotsCut_zone ..
  | true =>
    rw [isolateZone_shelves_on isolate, isolateShelves_eq]
    refine (put_self ..).trans ?_
    rw [slotsCut_zone]
    rfl

/-- What a slot's zone is is a matter of the working configuration, which an isolation leaves. -/
theorem mem_begun_zoneSlots : n ∈ (s.isolationBegun z).env.zoneSlots z ↔ s.env.slotZone n = some z := by
  rw [Env.zoneSlots, List.mem_filter, beq_iff_eq, and_iff_right (List.mem_finRange n)]
  rfl

theorem begun_slots (s : State) (z : Fin 8) : (s.isolationBegun z).rack.slots = s.rack.slots :=
  (congrArg (fun t : State => t.rack.slots) (zoneRaised_eq _ z) :)

theorem begun_psu (s : State) (z : Fin 8) : (s.isolationBegun z).rack.psu = s.rack.psu :=
  (congrArg (fun t : State => t.rack.psu) (zoneRaised_eq _ z) :)

theorem slotsCut_psu (s : State) (z : Fin 8) : (s.slotsCut z).rack.psu = s.rack.psu :=
  (cutEach_psu ..).trans (begun_psu s z)

theorem isolateZone_slots (s : State) (z : Fin 8) : (s.isolateZone z).rack.slots =
    (eachHandedOn (s.isolationBegun z).env (leakCut (s.isolationBegun z).env)
      ((s.isolationBegun z).env.zoneSlots z) (s.isolationBegun z).rack).slots := by
  cases isolate : (s.cfg.leakTable[z]).shelfIsolate with
  | false => rw [isolateZone_shelves_off isolate]; rfl
  | true =>
    rw [isolateZone_shelves_on isolate, isolateShelves_eq]
    exact forEach_figure Rack.slots (isolateModules_slots _) ..

theorem isolateZone_isolates (hz : s.env.slotZone n = some z) (k : (s.rack.slots[n]).state.Cuts) :
    ((s.isolateZone z).rack.slots[n]).StandsIsolated := by
  rw [isolateZone_slots]
  exact cutEach_isolates (zoneSlots_nodup _ z) (mem_begun_zoneSlots.mpr hz)
    (by rwa [begun_slots])

theorem isolateZone_unpowered (k : (s.rack.slots[n]).state.powered = false)
    (left : s.env.slotZone n = some z →
      (s.rack.slots[n]).state ∈ [SlotState.disabled, .off, .isolated, .faulted]) :
    (s.isolateZone z).rack.slots[n] = s.rack.slots[n] := by
  rw [← begun_slots s z] at k left ⊢
  rw [isolateZone_slots]
  exact cutEach_unpowered k (left ∘ mem_begun_zoneSlots.mp)

theorem isolateZone_elsewhere (hz : s.env.slotZone n ≠ some z)
    (k : (s.rack.slots[n]).state.powered = true) :
    ((s.isolateZone z).rack.slots[n]).state.powered = true ∨
      ((s.isolateZone z).rack.slots[n]).state = .shed := by
  rw [isolateZone_slots]
  exact cutEach_powered (hz ∘ mem_begun_zoneSlots.mp) (by rwa [begun_slots])

/-- The present PSUs of the isolated shelves alone are commanded off (R167). -/
theorem isolateZone_psu (s : State) (z : Fin 8) (i : Fin 18) :
    ((s.isolateZone z).rack.psu[i]).commandedOn = ((s.rack.psu[i]).commandedOn &&
      !((s.rack.psu[i]).present && (s.cfg.leakTable[z]).shelfIsolate &&
        s.marks.shelfOn[psuShelf i] && s.env.shelfZone (psuShelf i) == some z)) := by
  have record : (s.slotsCut z).rack.psu[i] = s.rack.psu[i] := by rw [slotsCut_psu]
  cases isolate : (s.cfg.leakTable[z]).shelfIsolate with
  | false =>
    rw [isolateZone_shelves_off isolate, record]
    simp
  | true =>
    rw [isolateZone_shelves_on isolate, isolateShelves_eq]
    by_cases off : psuShelf i ∈ s.zoneShelves z ∧ (s.rack.psu[i]).present = true
    · obtain ⟨on, present⟩ := off
      obtain ⟨shelf, zone⟩ := Bool.and_eq_true_iff.mp (mem_zoneShelves.mp on)
      have out := isolateEach_psu_out (e := (s.slotsCut z).env) (r := (s.slotsCut z).rack)
        (zoneShelves_nodup s z) on (by rw [record, present])
      rw [present, shelf, zone]
      exact (congrArg PsuRec.commandedOn out.1).trans (Bool.and_false _).symm
    · have left : ((s.rack.psu[i]).present && true && s.marks.shelfOn[psuShelf i] &&
          s.env.shelfZone (psuShelf i) == some z) = false := Bool.eq_false_iff.mpr fun all => by
        simp only [Bool.and_eq_true, and_true] at all
        obtain ⟨⟨present, shelf⟩, zone⟩ := all
        exact off ⟨mem_zoneShelves.mpr (Bool.and_eq_true_iff.mpr ⟨shelf, zone⟩), present⟩
      rw [left, Bool.not_false, Bool.and_true, ← record]
      exact congrArg PsuRec.commandedOn (isolateEach_psu_left (zoneShelves_nodup s z)
        (by rw [record]; exact off))

/-! ### The entry to ALARM (R163, R164) -/

/-- The zone latched in ALARM, LEAK_CONFIRMED logged and ZONE_STATE raised, its action still to come. -/
def State.alarmed (s : State) (z : Fin 8) : State :=
  ((s.changeZone z fun x => { x with state := .alarm, alarmTime := some s.now }).onRack fun e r =>
    logFault e .leakConfirmed z.val r).zoneRaised z

/-- A zone in ALARM acts by an action (R163). -/
def State.alarmActs (s : State) (z : Fin 8) : LeakAction → State
  | .notifyOnly => s
  | .isolateAfterGrace => s.beginGrace z
  | .isolateNow => s.isolateZone z

theorem enterAlarm_eq (s : State) (z : Fin 8) :
    s.enterAlarm z = (s.alarmed z).alarmActs z (s.action z) := rfl

theorem beginGrace_zone (s : State) (z : Fin 8) : ((s.beginGrace z).leak.zones[z]).grace =
    some ⟨s.now, 1000 * (s.cfg.leakTable[z]).grace⟩ := congrArg Zone.grace (changeZone_get s z _)

theorem beginGrace_rack (s : State) (z : Fin 8) : (s.beginGrace z).rack =
    eachHandedOn s.env (drainInTurn s.env (.leak (1000 * (s.cfg.leakTable[z]).grace)))
      (s.env.zoneSlots z) s.rack := by
  have env : (s.changeZone z fun x =>
      { x with grace := some ⟨s.now, 1000 * (s.cfg.leakTable[z]).grace⟩ }).env = s.env :=
    changeZone_env fun _ => rfl
  unfold State.beginGrace State.leakDrains
  rw [onRack_rack, env]
  rfl

theorem isolateZone_course (s : State) (z : Fin 8) :
    let begun := s.isolationBegun z
    let cut : State := { begun with
      rack := forEach (fun n r => handOn begun.env (leakCut begun.env n r))
        ((List.finRange 48).filter fun n => s.env.slotZone n == some z) begun.rack }
    s.isolateZone z = if (s.cfg.leakTable[z]).shelfIsolate then cut.isolateShelves z else cut :=
  isolateZone_eq s z

theorem isolateZone_shelf (s : State) (z : Fin 8) (h : Fin 3) :
    ((s.isolateZone z).leak.zones[z]).shelves[h] = ((s.leak.zones[z]).shelves[h] ||
      ((s.cfg.leakTable[z]).shelfIsolate && s.marks.shelfOn[h] &&
        s.env.shelfZone h == some z)) := by
  rw [isolateZone_zone]
  cases isolate : (s.cfg.leakTable[z]).shelfIsolate with
  | false => simp
  | true =>
    have member : decide (h ∈ s.zoneShelves z) =
        (s.marks.shelfOn[h] && s.env.shelfZone h == some z) :=
      Bool.eq_iff_iff.mpr (decide_eq_true_iff.trans mem_zoneShelves)
    rw [if_pos rfl, Bool.true_and, ← member]
    exact holdShelves_get ..

end Sys2Proof.Machine

section
open Sys2Proof Sys2Proof.Machine

/-- Settles O39: the entry to ALARM by its action, the zone's slots each handed on, and its shelves, one
by one and module by module. -/
theorem zoneIsolation : Obligations.ZoneIsolation := by
  refine ⟨fun s z => ⟨⟨fun notify => ?_, fun grace => ⟨?_, ?_, ?_⟩, fun now => ?_⟩,
      isolateZone_course s z, ?_, ?_, fun n hz k => ?_, fun n hz k => ?_,
      fun n hz => ⟨fun k => isolateZone_unpowered k fun h => absurd h hz, isolateZone_elsewhere hz⟩,
      isolateZone_shelf s z, isolateZone_psu s z⟩,
    fun s z => ⟨isolateShelves_eq s z, fun j hj present => ?_, fun j left => ?_, zoneRaised_eq s z,
      zoneRaised_head s z⟩,
    fun e h r => ⟨isolateModules_slots e h r, fun i hi present => ?_, fun i left => ?_,
      fun j hj present => ?_, fun j left => ?_⟩⟩
  · rw [enterAlarm_eq, notify]; rfl
  · rw [enterAlarm_eq, grace]; rfl
  · rw [enterAlarm_eq, grace]; exact beginGrace_zone (s.alarmed z) z
  · rw [enterAlarm_eq, grace]; exact beginGrace_rack (s.alarmed z) z
  · rw [enterAlarm_eq, now]; rfl
  · rw [isolateZone_zone]
  · rw [isolateZone_zone]
  · obtain ⟨state, permit, -⟩ := isolateZone_isolates hz k
    exact ⟨state, permit⟩
  · exact isolateZone_unpowered ((by decide : ∀ x ∈ [SlotState.disabled, .off, .isolated, .faulted],
      x.powered = false) _ k) fun _ => k
  · rw [isolateShelves_eq]
    have out := isolateEach_bu_out (e := s.env) (zoneShelves_nodup s z) hj present
    exact ⟨out.commanded, out.isolated, out.member, out.entry⟩
  · rw [isolateShelves_eq]
    exact isolateEach_bu_left (zoneShelves_nodup s z) left
  · exact isolateModules_psu_out ⟨hi, present⟩
  · obtain ⟨record, entry, -⟩ := psuView_iff.mp (isolateModules_psu_left left)
    exact ⟨record, entry⟩
  · have out := isolateModules_bu_out (e := e) ⟨hj, present⟩
    exact ⟨out.commanded, out.isolated, out.member, out.entry,
      fun a active on => isolateModules_ends ⟨hj, present⟩ active on⟩
  · obtain ⟨view, member, -⟩ := isolationView_iff.mp (isolateModules_bu_left left)
    obtain ⟨record, entry, -⟩ := buView_iff.mp view
    exact ⟨record, member, entry⟩

end
end

