-- ==== Sys2Proof/Proofs/LeakEvents.lean ====
section
/-! PROOF. LEAK_SAMPLE, the following of a zone, and GRACE_EXPIRY (O38). -/

namespace Sys2Proof.Machine

variable {s t : State} {c : Fin 16} {level : Nat} {z : Fin 8}

/-! ### One channel read (R159, R160) -/

/-- A channel's record once a level has been read. -/
def State.readChannel (s : State) (c : Fin 16) (level : Nat) : Channel :=
  { (if s.channelZone c = none then s.leak.channels[c]
     else (s.leak.channels[c]).move (classify (s.wetAt c) (s.openAt c) level)) with
    level := some level }

/-- The part with a channel's record as read, what its movement brings about still to come. -/
def State.withRead (s : State) (c : Fin 16) (level : Nat) : State :=
  { s with leak.channels := put s.leak.channels c (s.readChannel c level) }

theorem readChannel_unused (h : s.channelZone c = none) (level : Nat) :
    s.readChannel c level = { s.leak.channels[c] with level := some level } := by
  unfold State.readChannel
  rw [if_pos h]

theorem readChannel_used (h : s.channelZone c ≠ none) (level : Nat) : s.readChannel c level =
    { (s.leak.channels[c]).move (classify (s.wetAt c) (s.openAt c) level) with
      level := some level } := by
  unfold State.readChannel
  rw [if_neg h]

theorem sampleChannel_eq (s : State) (c : Fin 16) (level : Nat) : s.sampleChannel c level =
    if (s.readChannel c level).state = (s.leak.channels[c]).state then s.withRead c level
    else (s.withRead c level).channelMoved c level := by
  have read : s.readChannel c level = { (if (s.channelZone c).isSome then
      (s.leak.channels[c]).move (classify (s.wetAt c) (s.openAt c) level)
      else s.leak.channels[c]) with level := some level } := by
    cases zone : s.channelZone c with
    | none => exact readChannel_unused zone level
    | some z => exact readChannel_used (by rw [zone]; exact Option.some_ne_none z) level
  unfold State.withRead
  rw [read]
  rfl

theorem sampleChannel_still (h : (s.readChannel c level).state = (s.leak.channels[c]).state) :
    s.sampleChannel c level = s.withRead c level := by
  rw [sampleChannel_eq, if_pos h]

/-- CHANNEL_STATE raised, and SENSOR_OPEN logged at an entry to OPEN (R160). -/
def State.channelTold (s : State) (c : Fin 16) (level : Nat) : State :=
  if (s.leak.channels[c]).state = .opn then
    (s.channelRaised c level).onRack fun e r => logFault e .sensorOpen c.val r
  else s.channelRaised c level

theorem channelTold_zonesAct (s : State) (c : Fin 16) (level : Nat) :
    ZonesAct s (s.channelTold c level) := .ite rfl rfl

/-- The zone that a channel stands in, if any, follows its movement (R162). -/
def State.zoneFollowed (s : State) : Option (Fin 8) → State
  | some z => s.followZone z
  | none => s

theorem channelMoved_eq (s : State) (c : Fin 16) (level : Nat) : s.channelMoved c level =
    (s.channelTold c level).zoneFollowed ((s.channelTold c level).channelZone c) := rfl

theorem ZonesAct.channelZone (h : ZonesAct s t) (c : Fin 16) : t.channelZone c = s.channelZone c := by
  unfold State.channelZone
  rw [h.cfg, h.marks]

theorem channelMoved_zone (h : s.channelZone c = some z) (level : Nat) :
    s.channelMoved c level = (s.channelTold c level).followZone z := by
  rw [channelMoved_eq, (channelTold_zonesAct s c level).channelZone, h]
  rfl

/-- What the movement of a channel read tells, by its record as read. -/
theorem withRead_told (s : State) (c : Fin 16) (level : Nat) :
    let told : State := { s.withRead c level with
      rack.notif := s.rack.notif.offer
        ⟨.leak, 1, c.val, s.now, (s.readChannel c level).state.code + 16 * level⟩ }
    (s.withRead c level).channelTold c level =
      if (s.readChannel c level).state = .opn then
        told.onRack fun e r => logFault e .sensorOpen c.val r else told := by
  have record : (s.withRead c level).leak.channels[c] = s.readChannel c level := put_self ..
  unfold State.channelTold State.channelRaised
  rw [record]
  rfl

theorem sampleChannel_moved (moved : (s.readChannel c level).state ≠ (s.leak.channels[c]).state)
    (zone : s.channelZone c = some z) :
    s.sampleChannel c level = ((s.withRead c level).channelTold c level).followZone z := by
  rw [sampleChannel_eq, if_neg moved]
  exact channelMoved_zone (s := s.withRead c level) zone level

theorem channelMoved_zonesAct (s : State) (c : Fin 16) (level : Nat) :
    ZonesAct s (s.channelMoved c level) := by
  have told := channelTold_zonesAct s c level
  rw [channelMoved_eq]
  cases (s.channelTold c level).channelZone c with
  | none => exact told
  | some z => exact told.trans (followZone_zonesAct ..)

theorem sampleChannel_zonesAct (s : State) (c : Fin 16) (level : Nat) :
    ZonesAct (s.withRead c level) (s.sampleChannel c level) := by
  rw [sampleChannel_eq]
  exact .ite (.refl _) (channelMoved_zonesAct ..)

/-! ### All channels read (R159, R161) -/

/-- The channels of a list in turn. -/
def State.sampleEach (s : State) (cs : List (Fin 16)) (level : Fin 16 → Nat) : State :=
  forEach (fun c t => t.sampleChannel c (level c)) cs s

/-- The Leak Monitor's channels with those of a list read. -/
def State.readChannels (s : State) (cs : List (Fin 16)) (level : Fin 16 → Nat) : Vector Channel 16 :=
  Vector.ofFn fun c => if c ∈ cs then s.readChannel c (level c) else s.leak.channels[c]

theorem readChannels_get (s : State) (cs : List (Fin 16)) (level : Fin 16 → Nat) (c : Fin 16) :
    (s.readChannels cs level)[c] =
      if c ∈ cs then s.readChannel c (level c) else s.leak.channels[c] := Vector.getElem_ofFn ..

/-- What a channel's reading makes of it is a matter of its record and of the configuration. -/
theorem readChannel_congr (cfg : t.cfg = s.cfg) (marks : t.marks = s.marks)
    (record : t.leak.channels[c] = s.leak.channels[c]) (level : Nat) :
    t.readChannel c level = s.readChannel c level := by
  unfold State.readChannel State.channelZone State.wetAt State.openAt
  rw [cfg, marks, record]

theorem sampleChannel_get (s : State) (c d : Fin 16) (level : Nat) :
    (s.sampleChannel c level).leak.channels[d] =
      if c = d then s.readChannel c level else s.leak.channels[d] := by
  rw [sampleChannel_zonesAct s c level]
  exact put_get ..

theorem readChannels_cons (s : State) (c : Fin 16) {cs : List (Fin 16)} (out : c ∉ cs)
    (level : Fin 16 → Nat) : (s.sampleChannel c (level c)).readChannels cs level =
      s.readChannels (c :: cs) level := by
  have acts := sampleChannel_zonesAct s c (level c)
  refine Vector.ext fun i hi => ?_
  refine (readChannels_get _ cs level ⟨i, hi⟩).trans
    (Eq.trans ?_ (readChannels_get s (c :: cs) level ⟨i, hi⟩).symm)
  have record := sampleChannel_get s c ⟨i, hi⟩ (level c)
  by_cases k : c = ⟨i, hi⟩
  · rw [if_pos k] at record
    subst k
    rw [if_neg out, if_pos List.mem_cons_self, record]
  · rw [if_neg k] at record
    have mem : (⟨i, hi⟩ : Fin 16) ∈ c :: cs ↔ ⟨i, hi⟩ ∈ cs := by
      rw [List.mem_cons, or_iff_right (Ne.symm k)]
    rw [if_congr mem rfl rfl, record, readChannel_congr (s := s) acts.cfg acts.marks record]

/-- Channels read in turn are each read as they stood before the sample, and what their movements bring
about changes zones and the rack alone. -/
theorem sampleEach_zonesAct (level : Fin 16 → Nat) : ∀ {cs : List (Fin 16)} (s : State), cs.Nodup →
    ZonesAct { s with leak.channels := s.readChannels cs level } (s.sampleEach cs level)
  | [], s, _ => by
    have same : s.readChannels [] level = s.leak.channels := Vector.ext fun i hi =>
      readChannels_get s [] level ⟨i, hi⟩
    rw [same]
    exact .refl s
  | c :: cs, s, nodup => by
    obtain ⟨out, nodup⟩ := List.nodup_cons.mp nodup
    have rest := sampleEach_zonesAct level (s.sampleChannel c (level c)) nodup
    rw [readChannels_cons s c out] at rest
    refine ZonesAct.trans ?_ rest
    exact congrArg (fun t : State => { t with leak.channels := s.readChannels (c :: cs) level })
      (sampleChannel_zonesAct s c (level c))

/-- The tenth sample sets the first-window flag (R161). -/
theorem countSample_leak (s : State) : s.countSample.leak = { s.leak with
    samples := min 10 (s.leak.samples + 1)
    firstWindow := s.leak.firstWindow || decide (9 ≤ s.leak.samples) } := by
  have tenth : (min Config.confirmSamples (s.leak.samples + 1) = Config.confirmSamples) ↔
      9 ≤ s.leak.samples := by
    unfold Config.confirmSamples
    omega
  unfold State.countSample
  dsimp only
  cases window : s.leak.firstWindow with
  | true =>
    rw [if_neg (by simp), Bool.true_or, ← window]
    rfl
  | false =>
    rw [Bool.false_or]
    by_cases k : 9 ≤ s.leak.samples
    · rw [if_pos ⟨tenth.mpr k, Bool.false_ne_true⟩, decide_eq_true k]
      rfl
    · rw [if_neg fun h => k (tenth.mp h.1), decide_eq_false k, ← window]
      rfl

/-! ### LEAK_SAMPLE (R159) -/

theorem exec_leakSample_due (levels : Vector (BitVec 10) 16) (h : s.leak.nextSample = some s.now) :
    exec (.leakSample levels) s = .next (s.sampleAll levels).conclude :=
  if_pos ((sampleDue_iff s).mpr h)

theorem exec_leakSample_idle (levels : Vector (BitVec 10) 16) (h : s.leak.nextSample ≠ some s.now) :
    exec (.leakSample levels) s = .next s := if_neg fun due => h ((sampleDue_iff s).mp due)

/-- The next sample is due 100 ms on (R159). -/
def State.paced (s : State) : State := { s with leak.nextSample := some (s.now + 100) }

theorem sampleAll_eq (s : State) (levels : Vector (BitVec 10) 16) : s.sampleAll levels =
    (s.paced.sampleEach (List.finRange 16) fun c => (levels[c]).toNat).countSample := rfl

/-- The Leak Monitor as a sample of all channels leaves it, its zones apart. -/
theorem sampleAll_leak (s : State) (levels : Vector (BitVec 10) 16) : (s.sampleAll levels).leak =
    { s.leak with
      channels := s.readChannels (List.finRange 16) fun c => (levels[c]).toNat
      zones := (s.sampleAll levels).leak.zones
      nextSample := some (s.now + 100)
      samples := min 10 (s.leak.samples + 1)
      firstWindow := s.leak.firstWindow || decide (9 ≤ s.leak.samples) } := by
  have acts := sampleEach_zonesAct (fun c : Fin 16 => (levels[c]).toNat) s.paced
    (List.nodup_finRange 16)
  rw [sampleAll_eq, countSample_leak]
  generalize s.paced.sampleEach (List.finRange 16) (fun c => (levels[c]).toNat) = t at acts ⊢
  rw [acts.leak]
  rfl

theorem sampleAll_channel (s : State) (levels : Vector (BitVec 10) 16) (c : Fin 16) :
    (s.sampleAll levels).leak.channels[c] = s.readChannel c (levels[c]).toNat := by
  rw [sampleAll_leak]
  exact (readChannels_get ..).trans (if_pos (List.mem_finRange c))

/-! ### A zone follows its used channels (R162, R172) -/

/-- Some used channel of the zone stands in a state. -/
def State.ZoneHas (s : State) (z : Fin 8) (x : ChanState) : Prop :=
  ∃ c : Fin 16, s.channelZone c = some z ∧ (s.leak.channels[c]).state = x

theorem zoneChannelStates_iff (s : State) (z : Fin 8) (x : ChanState) :
    (s.zoneChannelStates z).contains x = true ↔ s.ZoneHas z x := by
  simp only [State.zoneChannelStates, State.zoneChannels, List.contains_iff_mem, List.mem_map,
    List.mem_filter, List.mem_finRange, true_and, beq_iff_eq, State.ZoneHas]

theorem follows_alarm (wet : s.ZoneHas z .wet) : zoneFollows (s.zoneChannelStates z) = .alarm :=
  if_pos ((zoneChannelStates_iff s z _).mpr wet)

theorem follows_watch (dry : ¬s.ZoneHas z .wet) (unsteady : s.ZoneHas z .suspect ∨ s.ZoneHas z .opn) :
    zoneFollows (s.zoneChannelStates z) = .watch := by
  rw [← zoneChannelStates_iff] at dry
  rw [← zoneChannelStates_iff, ← zoneChannelStates_iff, ← Bool.or_eq_true] at unsteady
  exact (if_neg dry).trans (if_pos unsteady)

theorem follows_clear (dry : ¬s.ZoneHas z .wet) (steady : ¬s.ZoneHas z .suspect)
    (closed : ¬s.ZoneHas z .opn) : zoneFollows (s.zoneChannelStates z) = .clear := by
  rw [← zoneChannelStates_iff] at dry steady closed
  refine (if_neg dry).trans (if_neg ?_)
  rw [Bool.or_eq_true]
  exact not_or.mpr ⟨steady, closed⟩

theorem latched_eq_false_iff (x : ZoneState) : x.latched = false ↔ x = .clear ∨ x = .watch := by
  rw [ZoneState.latched, Bool.not_eq_false', open_iff]

theorem followZone_latched (h : (s.leak.zones[z]).state = .alarm ∨
    (s.leak.zones[z]).state = .isolated) : s.followZone z = s :=
  if_pos (by rcases h with h | h <;> rw [h] <;> rfl)

/-- A zone that is not latched takes the state that follows (R162). -/
def State.zoneTakes (s : State) (z : Fin 8) : ZoneState → State
  | .alarm => if s.boot.adopting then s else s.enterAlarm z
  | x => s.setZone z x

theorem followZone_open (h : (s.leak.zones[z]).state = .clear ∨ (s.leak.zones[z]).state = .watch) :
    s.followZone z = s.zoneTakes z (zoneFollows (s.zoneChannelStates z)) := by
  refine (if_neg ?_).trans ?_
  · rw [(latched_eq_false_iff _).mpr h]
    exact Bool.false_ne_true
  · cases zoneFollows (s.zoneChannelStates z) <;> rfl

end Sys2Proof.Machine

section
open Sys2Proof Sys2Proof.Machine

/-- Settles O38: the sample of all channels, the movement of one, the expiry of a grace, and the zone that
follows. -/
theorem leakEvents : Obligations.LeakEvents := by
  refine ⟨fun s levels => exec_leakSample_idle levels, fun s levels due =>
      ⟨s.sampleAll levels, exec_leakSample_due levels due, rfl, ?_, fun c => ?_, fun c unused => ?_,
        fun c used => ?_, ?_, ?_⟩,
    fun s c level => ⟨sampleChannel_still, fun z moved zone => ?_⟩,
    fun s z d alarm grace reached adopted => ?_,
    fun s z => ⟨followZone_latched, fun following => ⟨fun wet owed => ?_, fun wet adopted => ?_,
      fun dry unsteady => ?_, fun dry steady closed => ?_⟩⟩,
    fun s z x => ⟨setZone_same, fun changes => ⟨setZone_changes_eq changes, ?_⟩⟩⟩
  · rw [sampleAll_leak]
  · rw [sampleAll_channel]
    rfl
  · rw [sampleAll_channel, readChannel_unused unused]
  · rw [sampleAll_channel, readChannel_used used]
  · rw [sampleAll_leak]
  · rw [sampleAll_leak, Bool.or_eq_true, decide_eq_true_iff]
  · refine (sampleChannel_moved moved zone).trans ?_
    rw [withRead_told]
    rfl
  · exact if_pos ((graceOver_iff s z).mpr ⟨alarm, adopted, d, grace, reached⟩)
  · rw [followZone_open following, follows_alarm wet]
    exact if_pos owed
  · rw [followZone_open following, follows_alarm wet]
    exact if_neg (Bool.eq_false_iff.mp adopted)
  · rw [followZone_open following, follows_watch dry unsteady]
    rfl
  · rw [followZone_open following, follows_clear dry steady closed]
    rfl
  · rw [setZone_changes changes]
    exact zoneRaised_head (s.changeZone z fun y => { y with state := x }) z

end
end

