-- ==== Sys2Proof/Proofs/FaultFlag.lean ====
section
/-! PROOF. The fault-in-progress flag stands exactly while a bank holds a CRITICAL record (O58): most
commands are turns of `Moves`, which keep it, and each of the others leaves the banks and the flag or moves
them by logged faults. -/

namespace Sys2Proof.Machine

variable {s t : State}

/-! ### Changes that leave the banks and the flag -/

theorem FaultLaw.of_kept (h : t.rack.faults.Kept) : FaultLaw t := ⟨h.severity, h.flag⟩

theorem FaultLaw.of_faults (k : FaultLaw s) (h : t.rack.faults = s.rack.faults) : FaultLaw t :=
  ⟨by rw [h]; exact k.severity, by rw [h]; exact k.flag⟩

/-- The moves of the blocks log faults and empty banks, which keep the flag. -/
theorem FaultLaw.onRack {f : Env → Rack → Rack} (k : FaultLaw t)
    (h : Reach True t.env t.rack (f t.env t.rack)) : FaultLaw (t.onRack f) := (onRack_moves h).fault k

theorem FaultLaw.conclude (k : FaultLaw t) : FaultLaw t.conclude := (conclude_moves t).fault k

theorem FaultLaw.turn {o : Outcome} (k : FaultLaw s) (h : Ends o (Turn s)) : Ends o FaultLaw :=
  h.mono fun _ turn => turn.moves.fault k

/-! ### Requests -/

/-- A request keeps what its body keeps. -/
theorem FaultLaw.serve {early : Bool} {kind tag : Byte} {payload : List Byte} {body : State → Answer}
    (k : FaultLaw s) (h : FaultLaw (body s.take).1) :
    Ends (.next (s.serve early kind tag payload body)) FaultLaw := by
  have turnedAway (code : List Byte) : FaultLaw (s.take.reply kind tag code) := k.of_faults rfl
  refine .next ?_
  unfold State.serve State.execute
  dsimp only
  split
  · split
    · exact (turnedAway _).conclude
    · split
      · exact (turnedAway _).conclude
      · exact FaultLaw.conclude (h.of_faults rfl)
  · exact k

theorem FaultLaw.checked {bad : Bool} {code : Byte} {body : State → Answer} (k : FaultLaw t)
    (h : FaultLaw (body t).1) : FaultLaw (checked bad code body t).1 := by
  unfold Sys2Proof.Machine.checked
  split <;> assumption

theorem FaultLaw.noPayload {payload : List Byte} {body : State → Answer} (k : FaultLaw t)
    (h : FaultLaw (body t).1) : FaultLaw (noPayload payload body t).1 := by
  unfold Sys2Proof.Machine.noPayload
  split <;> assumption

/-- A release turns Safe Hold alone off (R180). -/
theorem execReleaseHold_faultLaw (tag : Byte) (p : List Byte) (k : FaultLaw s) :
    Ends (execReleaseHold tag p s) FaultLaw := by
  have taken : FaultLaw s.take := k.of_faults rfl
  refine k.serve (taken.noPayload ?_)
  unfold releaseHoldBody
  split
  · exact taken
  · split
    · exact ⟨taken.severity, taken.flag⟩
    · exact taken

/-! ### The requests that move the configuration -/

theorem setProfile_faultLaw (k : FaultLaw s) (p : Fin 8) (x : Profile) : FaultLaw (s.setProfile p x) := by
  unfold State.setProfile
  dsimp only
  have put : FaultLaw { s with cfg := { s.cfg with profiles := put s.cfg.profiles p x } } :=
    k.of_faults rfl
  refine FaultLaw.onRack ?_ (headProfile_reach ..)
  split
  · exact put
  · exact put.onRack (eachHandedOn_reach (applyValidity_reach _ p _) _ _)

theorem execSetProfile_faultLaw (tag : Byte) (p : List Byte) (k : FaultLaw s) :
    Ends (execSetProfile tag p s) FaultLaw := by
  have taken : FaultLaw s.take := k.of_faults rfl
  refine k.serve ?_
  unfold setProfileBody
  split
  · split
    · split
      · exact taken.checked (taken.checked (setProfile_faultLaw taken _ _))
      · exact taken
    · exact taken
  · exact taken

theorem execCommissionWrite_faultLaw (tag : Byte) (p : List Byte) (k : FaultLaw s) :
    Ends (execCommissionWrite tag p s) FaultLaw := by
  have taken : FaultLaw s.take := k.of_faults rfl
  refine k.serve ?_
  unfold commissionWriteBody
  split
  · split
    · exact taken.checked (taken.checked (taken.checked (taken.of_faults rfl)))
    · exact taken
  · exact taken

theorem FaultLaw.lockLeak (k : FaultLaw s) : FaultLaw s.lockLeak :=
  k.of_faults (lockLeak_zoneMoves s).sameModules.faults

theorem lock_faultLaw (k : FaultLaw s) : FaultLaw s.lock := by
  unfold State.lock
  dsimp only
  refine FaultLaw.onRack (FaultLaw.lockLeak ?_) (lockHanded_reach ..)
  refine FaultLaw.onRack ?_ (lockSlots_reach _ _ rfl)
  refine FaultLaw.onRack (k.of_faults rfl) ?_
  exact (lockTables_reach ..).trans (forEach_reach (leaveMembers_reach _) _ _)

theorem execCommissionLock_faultLaw (tag : Byte) (p : List Byte) (k : FaultLaw s) :
    Ends (execCommissionLock tag p s) FaultLaw := by
  have taken : FaultLaw s.take := k.of_faults rfl
  exact k.serve (taken.noPayload (taken.checked (taken.checked (taken.checked (taken.checked
    (lock_faultLaw taken))))))

theorem execDecommission_faultLaw (tag : Byte) (p : List Byte) (k : FaultLaw s) :
    Ends (execDecommission tag p s) FaultLaw := by
  have taken : FaultLaw s.take := k.of_faults rfl
  exact k.serve (taken.noPayload (taken.checked (taken.checked (taken.checked
    (taken.of_faults (unlock_faults _))))))

/-! ### The resets, the adoption and the pins (R18, R22, R83, R196) -/

/-- After a power-on every bank is empty and the flag is clear (R22). -/
theorem powerOn_faultLaw (u : Store) (n : Nat) : FaultLaw (State.powerOn u n) where
  severity i := by
    rw [show (State.powerOn u n).rack.faults.banks[i] = emptyBank from initialFaults_bank i]
    exact Nat.zero_le 2
  flag := by
    refine (Bool.eq_false_iff.mpr fun h => ?_).symm
    obtain ⟨i, critical⟩ := (vector_any_iff _ _).mp h
    rw [show (State.powerOn u n).rack.faults.banks[i] = emptyBank from initialFaults_bank i] at critical
    cases critical

theorem execStoreLoadComplete_faultLaw (k : FaultLaw s) : Ends (execStoreLoadComplete s) FaultLaw := by
  unfold execStoreLoadComplete
  split
  · exact .next k
  · have loaded : FaultLaw (s.loadTables.onRack loadSlots) :=
      k.of_faults (by rw [onRack_rack, loadSlots_faults, loadTables_faults])
    exact .next (loaded.onRack (forEach_reach (fun _ _ => logFault_reach ..) _ _)).conclude

/-- A warm restart keeps the banks and the flag (R196). -/
theorem warmRestart_faultLaw (k : FaultLaw s) : FaultLaw s.warmRestart := k.of_faults rfl

theorem execRestartN_faultLaw (k : FaultLaw s) : Ends (execRestartN s) FaultLaw :=
  .ite (.next k) (.next (FaultLaw.conclude ((warmRestart_faultLaw k).of_faults rfl)))

theorem execReplySent_faultLaw (k : FaultLaw s) : Ends (execReplySent s) FaultLaw := by
  unfold execReplySent
  refine .ite (.next (FaultLaw.conclude ?_)) (.next k)
  have sent : FaultLaw { s with link := { s.link with line := .idle, holder := none } } := k.of_faults rfl
  split
  · exact warmRestart_faultLaw sent
  · exact sent

theorem adoptSlot_faults (e : Env) (good : BitVec 48) (n : Fin 48) (r : Rack) :
    (adoptSlot e good n r).faults = r.faults := by
  unfold adoptSlot
  dsimp only
  split
  · rfl
  · split <;> exact changeRecord_faults ..

theorem adoptAll_faults (e : Env) (good : BitVec 48) : ∀ (ns : List (Fin 48)) (r : Rack),
    r.faults.Kept → (forEach (adoptInTurn e good) ns r).faults.Kept
  | [], _, h => h
  | n :: ns, r, h => adoptAll_faults e good ns _
      ((adoptInTurn_reach e good n r).faults (by rw [adoptSlot_faults]; exact h))

theorem adopted_faultLaw (good : BitVec 48) (k : FaultLaw s) :
    FaultLaw (s.onRack fun e r => forEach (adoptInTurn e good) (List.finRange 48) r) := by
  refine .of_kept ?_
  rw [onRack_rack]
  exact adoptAll_faults s.env good _ s.rack ⟨k.severity, k.flag⟩

theorem execAdoption_faultLaw (good : BitVec 48) (k : FaultLaw s) :
    Ends (execAdoption good s) FaultLaw := by
  unfold execAdoption
  refine .ite (.next (FaultLaw.conclude ?_)) (.next k)
  dsimp only
  refine (forEach_moves (g := True) (fun z t => adoptZone_moves t z) _ _).fault ?_
  refine FaultLaw.onRack ?_ (eachHandedOn_reach (lateGood_reach _ good) _ _)
  exact adopted_faultLaw good (k.of_faults rfl)

theorem repin_faults (s : State) (f : Time → Time) (q : PinTarget) :
    (s.repin f q).rack.faults = s.rack.faults := by
  cases q with
  | offSince | grantTime | queueTime | history | psuReport | buReport | alarmTime | headSince => rfl

/-! ### Every command and every step -/

/-- Every command but POWER_ON keeps the flag true to the banks. -/
theorem exec_faultLaw (c : Instr) (k : FaultLaw s) (powers : c ≠ .powerOn) :
    Ends (exec c s) FaultLaw := by
  cases c with
  | powerOn => exact absurd rfl powers
  | storeLoadComplete => exact execStoreLoadComplete_faultLaw k
  | restartN => exact execRestartN_faultLaw k
  | restartNRelease => exact k.turn (execRestartNRelease_turn s)
  | adoption good => exact execAdoption_faultLaw good k
  | timestampPin q => exact .next (k.of_faults (repin_faults s _ q))
  | strayByte b => exact k.turn (execStrayByte_turn b s)
  | frameBegin => exact k.turn (execFrameBegin_turn s)
  | frameEnd bytes => exact k.turn (execFrameEnd_turn bytes s)
  | frameTimeout => exact k.turn (execFrameTimeout_turn s)
  | replySent => exact execReplySent_faultLaw k
  | notificationSent => exact k.turn (execNotificationSent_turn s)
  | unknownKind kind tag p => exact k.turn (execUnknownKind_turn kind tag p s)
  | identify tag p => exact k.turn (execIdentify_turn tag p s)
  | readRack tag p => exact k.turn (execReadRack_turn tag p s)
  | readSlot tag p => exact k.turn (execReadSlot_turn tag p s)
  | readModule tag p => exact k.turn (execReadModule_turn tag p s)
  | readBattery tag p => exact k.turn (execReadBattery_turn tag p s)
  | readZone tag p => exact k.turn (execReadZone_turn tag p s)
  | readFaults tag p => exact k.turn (execReadFaults_turn tag p s)
  | clearFault tag p => exact k.turn (execClearFault_turn tag p s)
  | slotOn tag p => exact k.turn (execSlotOn_turn tag p s)
  | slotOff tag p => exact k.turn (execSlotOff_turn tag p s)
  | slotCut tag p => exact k.turn (execSlotCut_turn tag p s)
  | slotClear tag p => exact k.turn (execSlotClear_turn tag p s)
  | rackStart tag p => exact k.turn (execRackStart_turn tag p s)
  | rackStop tag p => exact k.turn (execRackStop_turn tag p s)
  | stagePlan tag p => exact k.turn (execStagePlan_turn tag p s)
  | commitPlan tag p => exact k.turn (execCommitPlan_turn tag p s)
  | discardPlan tag p => exact k.turn (execDiscardPlan_turn tag p s)
  | setProfile tag p => exact execSetProfile_faultLaw tag p k
  | setParam tag p => exact (execSetParam_moves tag p s).mono fun _ moves => moves.fault k
  | setLeakAction tag p => exact k.turn (execSetLeakAction_turn tag p s)
  | leakClear tag p => exact k.turn (execLeakClear_turn tag p s)
  | checkNow tag p => exact k.turn (execCheckNow_turn tag p s)
  | setMask tag p => exact k.turn (execSetMask_turn tag p s)
  | commissionWrite tag p => exact execCommissionWrite_faultLaw tag p k
  | commissionLock tag p => exact execCommissionLock_faultLaw tag p k
  | decommission tag p => exact execDecommission_faultLaw tag p k
  | saveConfig tag p => exact k.turn (execSaveConfig_turn tag p s)
  | releaseHold tag p => exact execReleaseHold_faultLaw tag p k
  | restart tag p => exact k.turn (execRestart_turn tag p s)
  | configWriteEnd v => exact k.turn (execConfigWriteEnd_turn v s)
  | batteryWriteEnd v => exact k.turn (execBatteryWriteEnd_turn v s)
  | pollCycleBegin => exact k.turn (execPollCycleBegin_turn s)
  | psuStatus f => exact k.turn (execPsuStatus_turn f s)
  | buStatus f => exact k.turn (execBuStatus_turn f s)
  | badFrame f => exact k.turn (execBadFrame_turn f s)
  | responseWindowExpiry => exact k.turn (execResponseWindowExpiry_turn s)
  | goodRising n x y => exact k.turn (execGoodRising_turn n x y s)
  | goodFalling n x y => exact k.turn (execGoodFalling_turn n x y s)
  | parkedRising n x y => exact k.turn (execParkedRising_turn n x y s)
  | parkedFalling n x y => exact k.turn (execParkedFalling_turn n x y s)
  | goodDeadline n => exact k.turn (execGoodDeadline_turn n s)
  | drainDeadline n => exact k.turn (execDrainDeadline_turn n s)
  | gateTimer => exact k.turn (execGateTimer_turn s)
  | startStalled => exact (execStartStalled_moves s).mono fun _ moves => moves.fault k
  | qualifyTimer => exact k.turn (execQualifyTimer_turn s)
  | controlPeriod => exact k.turn (execControlPeriod_turn s)
  | frameBoundary => exact k.turn (execFrameBoundary_turn s)
  | checkDue j => exact k.turn (execCheckDue_turn j s)
  | sampleDeadline j => exact k.turn (execSampleDeadline_turn j s)
  | leakSample l => exact k.turn (execLeakSample_turn l s)
  | graceExpiry z => exact k.turn (execGraceExpiry_turn z s)

/-- The part with no command waiting leaves the banks. -/
theorem idle_faults (s : State) : s.idle.rack.faults = s.rack.faults := by
  unfold State.idle
  split
  · split <;> rfl
  · rfl

end Sys2Proof.Machine

section
open Sys2Proof Sys2Proof.Machine

/-- Settles O58: a step idles, or runs its front command on the state with the queue's rest. -/
theorem faultFlagKept : Obligations.FaultFlagKept := by
  intro s t k runs
  cases waiting : s.pending with
  | nil =>
    rw [step_nil waiting] at runs
    cases runs
    exact k.of_faults (idle_faults s)
  | cons c rest =>
    rw [step_cons waiting] at runs
    have popped : FaultLaw { s with pending := rest } := k.of_faults rfl
    by_cases powers : c = .powerOn
    · subst powers
      rw [exec_powerOn] at runs
      obtain rfl := Host.Outcome.next.inj runs
      exact (powerOn_faultLaw (s.store.powerOn s.free) (s.free + 1)).of_faults rfl
    · obtain ⟨u, answers, kept⟩ := exec_faultLaw c popped powers
      obtain rfl : u = t := Host.Outcome.next.inj (answers.symm.trans runs)
      exact kept

end
end

