-- ==== Sys2Proof/Proofs/Notifications.lean ====
section
/-! PROOF. The Notification Queue: what a raised notification does to it, and the summaries that it gives
to the classes it owes them (O17). -/

namespace Sys2Proof.Machine

variable {q : NotifQueue} {now : Time} {c d : NotifClass} {cs : List NotifClass}

/-! ### The classes in class order (R182) -/

theorem notifClasses_index (c : NotifClass) : notifClasses[c.index.val]? = some c := by
  cases c <;> rfl

theorem NotifClass.index_injective : Function.Injective NotifClass.index := fun c d h =>
  Option.some.inj (by rw [← notifClasses_index c, ← notifClasses_index d, h])

/-- Every class stands in class order after the classes below it. -/
theorem notifClasses_split (c : NotifClass) : ∃ before after : List NotifClass,
    notifClasses = before ++ c :: after ∧ ∀ d ∈ before, d.index < c.index := by
  refine ⟨notifClasses.take c.index.val, notifClasses.drop (c.index.val + 1), ?_, ?_⟩ <;>
    cases c <;> decide

theorem notifClasses_nodup : notifClasses.Nodup := by decide

/-! ### Summaries owed and given (R184) -/

/-- A class is owed a summary: it is pending and not blocked. -/
def NotifQueue.owed (q : NotifQueue) (c : NotifClass) : Bool := q.pending[c.index] && !q.blocked c

/-- The listed classes that are given summaries: those owed one, as many as the queue has room for. -/
def NotifQueue.given (q : NotifQueue) (cs : List NotifClass) : List NotifClass :=
  (cs.filter q.owed).take (32 - q.entries.length)

/-- The queue once the listed classes have their summaries. -/
def NotifQueue.give (q : NotifQueue) (now : Time) (cs : List NotifClass) : NotifQueue :=
  { q with
    entries := q.entries ++ cs.map fun c => ⟨c, 0, c.index.val, now, q.lost[c.index]⟩
    pending := Vector.ofFn fun k => q.pending[k] && !(cs.map NotifClass.index).contains k
    lost := Vector.ofFn fun k => if k ∈ cs.map NotifClass.index then 0 else q.lost[k] }

theorem owes_eq (q : NotifQueue) (c : NotifClass) :
    q.owes c = (q.owed c && decide (q.entries.length < 32)) := rfl

theorem owed_true (h : q.pending[c.index] = true) (free : q.blocked c = false) : q.owed c = true := by
  unfold NotifQueue.owed
  rw [h, free]
  rfl

theorem owed_false (h : q.pending[c.index] = false ∨ q.blocked c = true) : q.owed c = false := by
  unfold NotifQueue.owed
  rcases h with h | h <;> simp [h]

theorem mem_classIndices : c.index ∈ cs.map NotifClass.index ↔ c ∈ cs :=
  List.mem_map_of_injective NotifClass.index_injective

theorem give_pending (c : NotifClass) : (q.give now cs).pending[c.index] =
    if c ∈ cs then false else q.pending[c.index] := by
  unfold NotifQueue.give
  rw [ofFn_slot]
  by_cases h : c ∈ cs
  · rw [if_pos h, List.contains_iff_mem.mpr (mem_classIndices.mpr h), Bool.not_true, Bool.and_false]
  · rw [if_neg h, Bool.eq_false_iff.mpr fun k => h (mem_classIndices.mp (List.contains_iff_mem.mp k)),
      Bool.not_false, Bool.and_true]

theorem give_lost (c : NotifClass) : (q.give now cs).lost[c.index] =
    if c ∈ cs then 0 else q.lost[c.index] := by
  unfold NotifQueue.give
  rw [ofFn_slot]
  exact if_congr mem_classIndices rfl rfl

/-- Two queues alike in each part are one. -/
theorem queue_eq_of_parts {p q : NotifQueue} (masks : p.masks = q.masks)
    (globalMask : p.globalMask = q.globalMask) (entries : p.entries = q.entries)
    (pending : ∀ k : Fin 8, p.pending[k] = q.pending[k]) (lost : ∀ k : Fin 8, p.lost[k] = q.lost[k]) :
    p = q := by
  have pending : p.pending = q.pending := Vector.ext fun i hi => pending ⟨i, hi⟩
  have lost : p.lost = q.lost := Vector.ext fun i hi => lost ⟨i, hi⟩
  cases p
  cases q
  simp_all only

theorem give_nil : q.give now [] = q :=
  queue_eq_of_parts rfl rfl (List.append_nil _) (fun _ => (ofFn_slot ..).trans (Bool.and_true _))
    fun _ => (ofFn_slot ..).trans (if_neg List.not_mem_nil)

/-- Summaries given one after the other. -/
theorem give_cons (h : c ∉ cs) : q.give now (c :: cs) = (q.give now [c]).give now cs := by
  refine queue_eq_of_parts rfl rfl ?_ (fun k => ?_) fun k => ?_
  · refine (List.append_cons ..).trans (congrArg _ (List.map_congr_left fun d hd => ?_))
    have other : d ∉ [c] := fun k => h (List.mem_singleton.mp k ▸ hd)
    rw [give_lost, if_neg other]
  · simp only [NotifQueue.give, ofFn_slot, List.map_cons, List.map_nil, List.contains_cons,
      List.contains_nil, Bool.or_false, Bool.not_or, Bool.and_assoc]
  · simp only [NotifQueue.give, ofFn_slot, List.map_cons, List.map_nil, List.mem_cons,
      List.not_mem_nil, or_false]
    split_ifs <;> simp_all

/-- The first class given a summary has it behind the entries that stood. -/
theorem give_first : (q.give now (c :: cs)).entries[q.entries.length]? =
    some ⟨c, 0, c.index.val, now, q.lost[c.index]⟩ := by
  refine (List.getElem?_append_right (Nat.le_refl _)).trans ?_
  rw [Nat.sub_self]
  rfl

/-- A class that is owed a summary is given it while there is room (R184). -/
theorem summarise_given (h : q.owed c = true) (room : q.entries.length < 32) :
    q.summarise now c = q.give now [c] := by
  have owes : q.owes c = true := by rw [owes_eq, h, decide_eq_true room]; rfl
  unfold NotifQueue.summarise
  rw [if_pos owes]
  refine queue_eq_of_parts rfl rfl rfl (fun k => (put_get ..).trans ?_) fun k => (put_get ..).trans ?_
  · simp only [NotifQueue.give, ofFn_slot, List.map_cons, List.map_nil, List.contains_cons,
      List.contains_nil, Bool.or_false]
    by_cases hk : c.index = k
    · subst hk; simp
    · simp [hk, Ne.symm hk]
  · simp only [NotifQueue.give, ofFn_slot, List.map_cons, List.map_nil, List.mem_singleton, eq_comm]

theorem summarise_not (h : q.owes c = false) : q.summarise now c = q :=
  if_neg (Bool.eq_false_iff.mp h)

theorem give_owed (h : d ≠ c) : (q.give now [c]).owed d = q.owed d := by
  unfold NotifQueue.owed
  rw [give_pending, if_neg fun k => h (List.mem_singleton.mp k)]
  rfl

/-- A class that is owed a summary stands first among those that are given one. -/
theorem given_cons (h : q.owed c = true) (room : q.entries.length < 32) (fresh : c ∉ cs) :
    q.given (c :: cs) = c :: (q.give now [c]).given cs := by
  have same : cs.filter (q.give now [c]).owed = cs.filter q.owed :=
    List.filter_congr fun d hd => give_owed fun k => fresh (k ▸ hd)
  have length : (q.give now [c]).entries.length = q.entries.length + 1 := List.length_append
  unfold NotifQueue.given
  rw [List.filter_cons_of_pos h, List.take_cons (by omega), same, length, Nat.sub_add_eq]

theorem given_full (full : ¬ q.entries.length < 32) (cs : List NotifClass) : q.given cs = [] := by
  unfold NotifQueue.given
  rw [show 32 - q.entries.length = 0 by omega, List.take_zero]

theorem given_skip (h : q.owed c = false) : q.given (c :: cs) = q.given cs := by
  unfold NotifQueue.given
  rw [List.filter_cons_of_neg (Bool.eq_false_iff.mp h)]

/-- Distinct classes summarised in turn: those owed a summary are given it while there is room. -/
theorem forEach_summarise (cs : List NotifClass) (q : NotifQueue) (distinct : cs.Nodup) :
    forEach (fun c q => q.summarise now c) cs q = q.give now (q.given cs) := by
  induction cs generalizing q with
  | nil => exact (congrArg _ (List.take_nil ..)).trans give_nil |>.symm
  | cons c cs ih =>
    obtain ⟨fresh, distinct⟩ := List.nodup_cons.mp distinct
    refine (ih (q.summarise now c) distinct).trans ?_
    cases owed : q.owed c with
    | false => rw [summarise_not (by rw [owes_eq, owed]; rfl), given_skip owed]
    | true =>
      by_cases room : q.entries.length < 32
      · rw [summarise_given owed room, given_cons (now := now) owed room fresh]
        exact (give_cons fun k => fresh (List.mem_of_mem_filter (List.mem_of_mem_take k))).symm
      · rw [summarise_not (by rw [owes_eq, decide_eq_false room, Bool.and_false]), given_full room,
          given_full room]

/-- The summaries of R184: the owed classes in class order, as many as there is room for. -/
theorem summaries_eq (q : NotifQueue) (now : Time) :
    q.summaries now = q.give now (q.given notifClasses) := forEach_summarise _ q notifClasses_nodup

theorem given_none (h : ∀ k : Fin 8, q.pending[k] = false) : q.given notifClasses = [] := by
  unfold NotifQueue.given
  rw [List.filter_eq_nil_iff.mpr fun c _ => Bool.eq_false_iff.mp (owed_false (.inl (h c.index))),
    List.take_nil]

/-- The lowest class that is owed a summary is the first to be given one. -/
theorem given_first (h : q.owed c = true) (room : q.entries.length < 32)
    (first : ∀ d : NotifClass, d.index < c.index → q.owed d = false) :
    ∃ rest, q.given notifClasses = c :: rest := by
  obtain ⟨before, after, split, below⟩ := notifClasses_split c
  have nobody : before.filter q.owed = [] :=
    List.filter_eq_nil_iff.mpr fun d hd => Bool.eq_false_iff.mp (first d (below d hd))
  unfold NotifQueue.given
  rw [split, List.filter_append, nobody, List.nil_append, List.filter_cons_of_pos h,
    List.take_cons (by omega)]
  exact ⟨_, rfl⟩

/-! ### A departure (R183, R184) -/

theorem depart_quiet (h : ∀ k : Fin 8, q.pending[k] = false) :
    q.depart now = { q with entries := q.entries.drop 1 } := by
  refine (summaries_eq ..).trans ?_
  rw [given_none (q := { q with entries := q.entries.drop 1 }) h, give_nil]

/-- A departure makes room for the summary of the lowest class that is owed one. -/
theorem depart_first (bound : q.entries.length ≤ 32) (nonempty : q.entries ≠ [])
    (h : q.owed c = true) (first : ∀ d : NotifClass, d.index < c.index → q.owed d = false) :
    ∃ rest, q.depart now = NotifQueue.give { q with entries := q.entries.drop 1 } now (c :: rest) := by
  have positive : 0 < q.entries.length := List.length_pos_iff.mpr nonempty
  have length : (q.entries.drop 1).length = q.entries.length - 1 := List.length_drop
  obtain ⟨rest, given⟩ := given_first (q := { q with entries := q.entries.drop 1 }) h
    (by dsimp only; omega) first
  exact ⟨rest, (summaries_eq ..).trans (congrArg _ given)⟩

/-! ### A notification raised (R183) -/

theorem offer_taken {x : Notif} (h : q.blocked x.cls = false) (room : q.entries.length < 32) :
    q.offer x = { q with entries := q.entries ++ [x] } := by
  unfold NotifQueue.offer Config.notifQueueMax
  rw [if_neg (by rw [h, decide_eq_false (Nat.not_le.mpr room)]; exact Bool.noConfusion)]

theorem offer_counted {x : Notif} (h : q.blocked x.cls = true ∨ 32 ≤ q.entries.length) :
    q.offer x = { q with
      pending := put q.pending x.cls.index true
      lost := put q.lost x.cls.index (min 65535 (q.lost[x.cls.index] + 1)) } := by
  unfold NotifQueue.offer Config.notifQueueMax
  rw [if_pos (by rw [Bool.or_eq_true, decide_eq_true_iff]; exact h)]
  rfl

end Sys2Proof.Machine

section
open Sys2Proof Sys2Proof.Machine

/-- Settles O17: the summaries of a departure are those of `summaries_eq`, and an offer by its two cases. -/
theorem notifications : Obligations.Notifications := by
  refine ⟨⟨fun s b line => if_pos (by rw [line]; rfl), fun q now => depart_quiet,
      fun q now c bound nonempty pending free first => ?_, fun q now => ⟨rfl, rfl, summaries_eq q now⟩⟩,
    fun e c kind subject value r => ⟨fun free room => ?_, fun lost => ?_⟩⟩
  · obtain ⟨rest, depart⟩ := depart_first (now := now) bound nonempty (owed_true pending free)
      fun d below => owed_false (first d below)
    rw [depart, give_pending, give_lost, if_pos List.mem_cons_self, if_pos List.mem_cons_self,
      ← List.length_drop]
    exact ⟨give_first, rfl, rfl⟩
  · exact congrArg (fun n => { r with notif := n })
      (offer_taken (x := ⟨c, kind, subject, e.now, value⟩) free room)
  · exact congrArg (fun n => { r with notif := n })
      (offer_counted (x := ⟨c, kind, subject, e.now, value⟩) lost)

end
end

