-- ==== Sys2Proof/Proofs/HeldRefusals.lean ====
section
/-! PROOF. The requests that Safe Hold refuses (O20). -/

namespace Sys2Proof.Machine

variable {s : State} {kind tag : Byte} {payload : List Byte}

/-- In Safe Hold the check of R179 turns the request away. -/
theorem checked_held (h : s.held = true) (body : State → Answer) :
    checked s.held codeHeld body s = s.answer codeHeld [] := by
  rw [h, checked_true]

theorem slotOnBody_held (h : s.held = true) (least : 1 ≤ payload.length) (most : payload.length ≤ 48) :
    slotOnBody payload s = s.answer codeHeld [] := by
  have fits : slotListFits payload = true := by
    unfold slotListFits
    rw [decide_eq_true least, decide_eq_true most]
    rfl
  exact (if_pos fits).trans (checked_held h _)

theorem setProfileBody_held (h : s.held = true) (length : payload.length = 11)
    (number : (payload.getD 0 0).toNat < 8) : setProfileBody payload s = s.answer codeHeld [] := by
  match payload, length, number with
  | _ :: fields, length, number =>
    have rest : fields.length = 10 := Nat.succ.inj length
    exact ((if_pos rest).trans (dif_pos number)).trans (checked_held h _)

theorem setParamBody_held (h : s.held = true) (length : payload.length = 5)
    (id : (payload.getD 0 0).toNat < 16) : setParamBody payload s = s.answer codeHeld [] := by
  match payload, length, id with
  | _ :: value, length, id =>
    have rest : value.length = 4 := Nat.succ.inj length
    exact ((if_pos rest).trans (dif_pos id)).trans (checked_held h _)

theorem leakActionOf_some {n : Nat} (h : n ≤ 2) : ∃ a, leakActionOf n = some a := by
  match n, h with
  | 0, _ | 1, _ | 2, _ => exact ⟨_, rfl⟩

theorem setLeakActionBody_held (h : s.held = true) (length : payload.length = 5)
    (zone : (payload.getD 0 0).toNat < 8) (action : (payload.getD 1 0).toNat ≤ 2) :
    setLeakActionBody payload s = s.answer codeHeld [] := by
  match payload, length, zone, action with
  | [z, a, g1, g0, isolate], _, zone, action =>
    have found : zoneOf z.toNat = some ⟨z.toNat, zone⟩ := dif_pos zone
    obtain ⟨act, known⟩ := leakActionOf_some action
    change leakActionOf a.toNat = some act at known
    simp only [setLeakActionBody, found, known]
    exact checked_held h _

/-- A payload that fits its section names a kind and an index (R193). -/
theorem commissionWriteBody_held (h : s.held = true) (fits : sectionFits payload = true) :
    commissionWriteBody payload s = s.answer codeHeld [] := by
  match payload, fits with
  | _ :: _ :: _, fits => exact (if_pos fits).trans (checked_held h _)

end Sys2Proof.Machine

section
open Sys2Proof Sys2Proof.Machine

/-- Settles O20: each request reaches its check of Safe Hold, and answers there. -/
theorem heldRefusals : Obligations.HeldRefusals := by
  rintro s ⟨kind, tag, payload⟩ ready held h
  dsimp only at ready h ⊢
  have held : s.take.held = true := held
  rcases h with ⟨rfl, least, most⟩ | ⟨hk, rfl⟩ | ⟨rfl, length, number⟩ | ⟨rfl, length, id⟩ |
    ⟨rfl, length, zone, action⟩ | ⟨rfl, fits⟩
  · exact turnsAway ready (slotOnBody_held held least most)
  · simp only [List.mem_cons, List.not_mem_nil, or_false] at hk
    rcases hk with rfl | rfl | rfl | rfl <;> exact turnsAway ready (checked_held held _)
  · exact turnsAway ready (setProfileBody_held held length number)
  · exact turnsAway ready (setParamBody_held held length id)
  · exact turnsAway ready (setLeakActionBody_held held length zone action)
  · exact turnsAway ready (commissionWriteBody_held held fits)

end
end

