-- ==== Sys2Proof/Proofs/Receiver.lean ====
section
/-! PROOF. A sync byte, a stray byte and a gap at the receiver (O15). -/

open Sys2Proof Sys2Proof.Machine

/-- Settles O15: each event by the receiver's state, a sync byte by the level of RESTART_N as well. -/
theorem receiver : Obligations.Receiver := by
  intro s
  refine ⟨fun hunting high => if_pos ⟨hunting, ?_⟩, fun low => if_neg fun ⟨_, high⟩ => high low,
    fun b hunting stray => if_pos ⟨hunting, stray⟩, fun inFrame => if_pos inFrame⟩
  rw [high]
  exact Bool.false_ne_true

end

