-- ==== Sys2Proof/Proofs/FaultLogs.lean ====
section
/-! PROOF. A fault logged into its bank, the flags it moves and the notifications it raises (O22). -/

namespace Sys2Proof.Machine

variable {x : Faults} {f : FaultKind} {e : Env} {r : Rack} {now : Time} {n : Nat}

/-! ### The bank record (R175) -/

/-- What a bank holds after a fault, by what it held. -/
theorem Bank.take_eq (b : Bank) (now : Time) (f : FaultKind) (n : Nat) : b.take now f n =
    if b.valid = false then ⟨true, f.code, f.severity, n, now, 0⟩
    else if b.severity < f.severity then
      ⟨true, f.code, f.severity, n, now, min 255 (b.overflow + 1)⟩
    else { b with overflow := min 255 (b.overflow + 1) } :=
  if_congr (by rw [Bool.not_eq_true']) rfl rfl

theorem log_bank : (x.log now f n).banks[f.bank] = (x.banks[f.bank]).take now f n := change_self ..

theorem log_bank_other {b : Fin 6} (h : b ≠ f.bank) : (x.log now f n).banks[b] = x.banks[b] :=
  (change_get ..).trans (if_neg h.symm)

/-! ### The flags (R176) -/

theorem enters_iff : x.enters f = true ↔ f.severity = 2 ∧ x.inProgress = true ∧ x.hold = none := by
  unfold Faults.enters
  rw [Bool.and_eq_true, Bool.and_eq_true, beq_iff_eq, Option.isNone_iff_eq_none, and_assoc]

theorem sets_iff : x.sets f = true ↔ f.severity = 2 ∧ x.inProgress = false := by
  unfold Faults.sets
  rw [Bool.and_eq_true, beq_iff_eq, Bool.not_eq_true']

/-- A fault changes a flag when it is CRITICAL and one of the flags is clear. -/
theorem movesFlag_iff : (x.enters f || x.sets f) = true ↔
    f.severity = 2 ∧ (x.inProgress = false ∨ x.hold = none) := by
  rw [Bool.or_eq_true, enters_iff, sets_iff]
  cases x.inProgress <;> simp

theorem log_inProgress : (x.log now f n).inProgress = true ↔ x.inProgress = true ∨ f.severity = 2 := by
  unfold Faults.log
  rw [Bool.or_eq_true, beq_iff_eq]

theorem log_hold : (x.log now f n).hold =
    if f.severity = 2 ∧ x.inProgress = true ∧ x.hold = none then some ⟨now, f.bank.val, f.code⟩
    else x.hold := if_congr enters_iff rfl rfl

/-- The value of FAULT_FLAGS after a CRITICAL fault: both flags, unless both were clear. -/
theorem log_flagValue (critical : f.severity = 2) : (x.log now f n).flagValue =
    if x.inProgress = true ∨ x.hold ≠ none then 3 else 1 := by
  unfold Faults.flagValue
  rw [if_pos (log_inProgress.mpr (.inr critical)), log_hold]
  cases x.inProgress <;> cases x.hold <;> simp [critical]

/-! ### The whole of a logged fault (R176) -/

theorem logFault_notif : (logFault e f n r).notif =
    let q := r.notif.offer ⟨.fault, 1, f.bank.val, e.now, f.code + 256 * f.severity + 65536 * n⟩
    if r.faults.enters f || r.faults.sets f then
      q.offer ⟨.fault, 2, f.bank.val, e.now, (r.faults.log e.now f n).flagValue⟩
    else q := by
  unfold logFault
  dsimp only
  split <;> split <;> rfl

theorem logFault_head : (logFault e f n r).todo.head = (r.todo.head || r.faults.enters f) := by
  unfold logFault
  dsimp only
  cases r.faults.enters f with
  | true => exact (Bool.or_true _).symm
  | false =>
    rw [Bool.or_false, if_neg Bool.false_ne_true]
    split <;> rfl

theorem logFault_frame : logFault e f n r = { r with
    faults := (logFault e f n r).faults
    notif := (logFault e f n r).notif
    todo.head := (logFault e f n r).todo.head } := by
  unfold logFault
  dsimp only
  split <;> split <;> rfl

end Sys2Proof.Machine

section
open Sys2Proof Sys2Proof.Machine

/-- Settles O22: the bank, the flags and the queue of a logged fault each by its own lemma. -/
theorem faultLogged : Obligations.FaultLogged := by
  intro e f n r
  rw [logFault_faults]
  refine ⟨log_bank.trans (Bank.take_eq ..), fun b => log_bank_other, log_inProgress, log_hold, ?_, ?_, ?_⟩
  · rw [logFault_notif]
    refine ite_congr (propext movesFlag_iff) (fun moves => ?_) fun _ => rfl
    rw [log_flagValue moves.1]
  · rw [← logFault_faults]
    exact logFault_frame
  · rw [logFault_head, Bool.or_eq_true, enters_iff]

end
end

