-- ==== Sys2Proof/Proofs/FaultRequests.lean ====
section
/-! PROOF. CLEAR_FAULT, RELEASE_HOLD, SET_MASK and RESTART (O23). -/

namespace Sys2Proof.Machine

variable {x : Faults} {b : Fin 6} {e : Env} {r : Rack} {s : State} {tag : Byte} {payload : List Byte}

/-! ### A bank emptied (R177) -/

/-- The first bank that holds a CRITICAL record is named (R180). -/
theorem critical_first (h : ∃ i : Fin 6, (x.banks[i]).critical = true) :
    ∃ i : Fin 6, x.critical = some i ∧ (x.banks[i]).critical = true ∧
      ∀ k : Fin 6, k < i → (x.banks[k]).critical = false := by
  have found : x.critical.isSome = true := by rw [critical_iff, vector_any_iff]; exact h
  obtain ⟨i, hi⟩ := Option.isSome_iff_exists.mp found
  obtain ⟨holds, place, inside, rfl, earlier⟩ := List.find?_eq_some_iff_getElem.mp hi
  refine ⟨_, hi, holds, fun k below => ?_⟩
  have clear := earlier k.val (by simpa [Fin.lt_def] using below)
  rw [List.getElem_finRange] at clear
  exact (Bool.not_eq_true' _).mp clear

theorem empty_bank : (x.empty b).banks[b] = emptyBank := put_self ..

theorem empty_bank_other {c : Fin 6} (h : c ≠ b) : (x.empty b).banks[c] = x.banks[c] :=
  put_other _ _ _ _ h.symm

/-- The flag outlives an emptied bank while another bank holds a CRITICAL record. -/
theorem empty_inProgress (flag : x.inProgress = x.banks.toList.any Bank.critical) :
    (x.empty b).inProgress = true ↔ ∃ c : Fin 6, c ≠ b ∧ (x.banks[c]).critical = true := by
  have left : (x.empty b).inProgress =
      (x.inProgress && (x.empty b).banks.toList.any Bank.critical) :=
    congrArg (x.inProgress && ·) (critical_iff (x.empty b))
  rw [left, flag, Bool.and_eq_true, vector_any_iff, vector_any_iff]
  constructor
  · rintro ⟨-, c, critical⟩
    have other : c ≠ b := fun h => by
      subst h
      rw [empty_bank] at critical
      cases critical
    exact ⟨c, other, by rwa [empty_bank_other other] at critical⟩
  · rintro ⟨c, other, critical⟩
    exact ⟨⟨c, critical⟩, c, by rwa [empty_bank_other other]⟩

theorem emptyOne_frame : emptyOne e b r =
    { r with faults := r.faults.empty b, notif := (emptyOne e b r).notif } := by
  unfold emptyOne
  dsimp only
  split <;> rfl

theorem emptyOne_clears (stood : r.faults.inProgress = true)
    (clear : (r.faults.empty b).inProgress = false) : (emptyOne e b r).notif = r.notif.offer
      ⟨.fault, 2, b.val, e.now, if r.faults.hold = none then 0 else 2⟩ := by
  have value : (r.faults.empty b).flagValue = if r.faults.hold = none then 0 else 2 := by
    have hold : (r.faults.empty b).hold = r.faults.hold := rfl
    unfold Faults.flagValue
    rw [clear, hold]
    cases r.faults.hold <;> rfl
  unfold emptyOne
  dsimp only
  rw [if_pos (by rw [stood, clear]; rfl), value]
  rfl

theorem emptyOne_leaves (h : r.faults.inProgress = false ∨ (r.faults.empty b).inProgress = true) :
    (emptyOne e b r).notif = r.notif := by
  unfold emptyOne
  dsimp only
  rw [if_neg]
  rcases h with h | h <;> rw [h] <;> simp

/-! ### The requests (R177, R180, R185, R196) -/

theorem exec_clearFault (h : Ready s 0x08 tag (u8 b.val)) : exec (.clearFault tag (u8 b.val)) s =
    .next ((s.take.onRack fun e r => emptyOne e b r).reply 0x08 tag
      (codeOk :: bankFigures s.rack.faults.banks[b])).conclude := by
  show Host.Outcome.next (s.serve false 0x08 tag _ _) = _
  rw [State.serve_ready h, indexed_u8 (by decide)]
  rfl

theorem exec_releaseHold (h : Ready s 0x39 tag []) : exec (.releaseHold tag []) s =
    .next ((releaseHoldBody s.take).1.reply 0x39 tag (releaseHoldBody s.take).2).conclude :=
  congrArg Host.Outcome.next (State.serve_ready h)

/-- A release waits for the flag to clear, and names the first CRITICAL bank (R180). -/
theorem releaseHoldBody_standing (h : s.rack.faults.inProgress = true) : releaseHoldBody s =
    s.answer codeRefusedState (u8 ((s.rack.faults.critical.map Fin.val).getD 0)) := if_pos h

theorem releaseHoldBody_held (h : s.rack.faults.inProgress = false) (held : s.held = true) :
    releaseHoldBody s = (s.onRack leaveHold).answer codeOk [Config.releasedFlag] :=
  (if_neg (Bool.eq_false_iff.mp h)).trans (if_pos held)

theorem releaseHoldBody_free (h : s.rack.faults.inProgress = false) (free : s.held = false) :
    releaseHoldBody s = s.answer codeOk [Config.notHeldFlag] :=
  (if_neg (Bool.eq_false_iff.mp h)).trans (if_neg (Bool.eq_false_iff.mp free))

/-- The queue that a SET_MASK leaves (R184, R185). -/
def State.masked (s : State) (payload : List Byte) : NotifQueue :=
  (s.rack.notif.setMasks payload).summaries s.now

theorem masked_eq (s : State) (payload : List Byte) : s.masked payload =
    (s.rack.notif.setMasks payload).give s.now
      ((s.rack.notif.setMasks payload).given notifClasses) := summaries_eq ..

theorem exec_setMask (h : Ready s 0x25 tag payload) (length : payload.length = 9) :
    exec (.setMask tag payload) s =
      .next ({ s.take with rack.notif := s.masked payload }.reply 0x25 tag (codeOk ::
        ((s.masked payload).masks.toList.flatMap flag ++ flag (s.masked payload).globalMask
          ++ (s.masked payload).pending.toList.flatMap flag
          ++ u32 ((s.masked payload).entries.length - s.rack.notif.entries.length)))).conclude := by
  show Host.Outcome.next (s.serve false 0x25 tag _ _) = _
  rw [State.serve_ready h, show setMaskBody payload s.take = _ from if_pos length]
  rfl

theorem flatMap_flag (v : Vector Bool 8) :
    v.toList.flatMap flag = (List.finRange 8).flatMap fun c => flag v[c] := by
  rw [toList_eq_map, List.flatMap_map]

theorem exec_restart (h : Ready s 0x3A tag []) : exec (.restart tag []) s =
    .next ({ s.take with link.restartOwed := true }.reply 0x3A tag [codeOk]).conclude :=
  congrArg Host.Outcome.next (State.serve_ready h)

end Sys2Proof.Machine

section
open Sys2Proof Sys2Proof.Machine

/-- Settles O23: each request by its own answer, SET_MASK with the summaries of `summaries_eq`. -/
theorem faultRequests : Obligations.FaultRequests := by
  refine ⟨fun s tag => ⟨fun b => exec_clearFault, fun ready standing => ?_, fun ready clear held => ?_,
      fun ready clear free => ?_, fun payload ready length => ?_, exec_restart⟩,
    fun x b flag => ⟨empty_bank, fun c => empty_bank_other, rfl, empty_inProgress flag⟩,
    fun e b r => ⟨emptyOne_frame, emptyOne_clears, emptyOne_leaves⟩⟩
  · have standing : s.take.rack.faults.inProgress = true := standing
    refine ⟨_, by rw [exec_releaseHold ready, releaseHoldBody_standing standing]; rfl, fun critical => ?_⟩
    obtain ⟨i, first, holds, below⟩ := critical_first critical
    exact ⟨i, by rw [show s.take.rack.faults.critical = some i from first]; rfl, holds, below⟩
  · rw [exec_releaseHold ready, releaseHoldBody_held (s := s.take) clear held]
    rfl
  · rw [exec_releaseHold ready, releaseHoldBody_free (s := s.take) clear free]
    rfl
  · refine ⟨s.masked payload, _, exec_setMask ready length, ?_, ?_, ?_, ?_⟩
    · rw [masked_eq]
      refine ⟨(summaries_eq ..).symm, rfl, fun c => ⟨fun given => ?_, fun other => ?_⟩⟩
      · exact ⟨give_pending c |>.trans (if_pos given), give_lost c |>.trans (if_pos given)⟩
      · exact ⟨give_pending c |>.trans (if_neg other), give_lost c |>.trans (if_neg other)⟩
    · rw [masked_eq]
      exact fun c => ofFn_slot ..
    · rw [masked_eq]
      rfl
    · rw [flatMap_flag, flatMap_flag]

end
end

