-- ==== Sys2Proof/Proofs/WarmRestart.lean ====
section
/-! PROOF. The records of the blocks over a warm restart (O11). -/

namespace Sys2Proof.Machine

/-! ### The shelf bus and the modules (R29, R40, R43, R139, R148) -/

/-- The counters and the polled set are kept, and a transaction in flight is abandoned. -/
theorem Bus.restart_eq (b : Bus) : b.restart =
    { transactions := b.transactions
      unanswered := b.unanswered
      badFrames := b.badFrames
      overrunCycles := b.overrunCycles
      polledSet := b.polledSet
      inFlight := none, entries := [], sincePoll := 0
      abandoned := if b.inFlight = none then b.abandoned else b.inFlight.map Transaction.began
      cycle := none, lastBegan := none, lateEnd := false } := by
  unfold Bus.restart
  cases b.inFlight <;> rfl

theorem PsuRec.restart_present {x : PsuRec} (h : x.present = true) :
    x.restart = { x with reportPending := true, miss := 0 } := if_pos h

theorem PsuRec.restart_absent {x : PsuRec} (h : x.present = false) : x.restart = x :=
  if_neg (Bool.eq_false_iff.mp h)

/-- A check that was requested or running is the one that a restart drops. -/
theorem CheckPhase.active_iff (p : CheckPhase) : p.active = true ↔ p = .requested ∨ p = .running := by
  cases p <;> simp [CheckPhase.active]

/-- A BU record over a warm restart, field by field. -/
theorem BuRec.restart_eq (b : BuRec) : b.restart =
    let checked := b.phase = .requested ∨ b.phase = .running
    { b with
      setpoint := 0
      strayCounted := false
      reportPending := b.present || b.reportPending
      miss := if b.present = true then 0 else b.miss
      phase := if checked then .none else b.phase
      sampleDeadline := if checked then none else b.sampleDeadline
      due := if checked then 0 else b.due
      dueMs := if checked then 0 else b.dueMs } := by
  unfold BuRec.restart BuRec.restartCheck
  dsimp only
  by_cases checked : b.phase = .requested ∨ b.phase = .running
  · rw [if_pos ((CheckPhase.active_iff _).mpr checked)]
    simp only [if_pos checked]
    cases b.present <;> rfl
  · rw [if_neg (mt (CheckPhase.active_iff _).mp checked)]
    simp only [if_neg checked]
    cases b.present <;> rfl

theorem warmRestart_psu (s : State) (i : Fin 18) :
    s.warmRestart.rack.psu[i] = (s.rack.psu[i]).restart := Vector.getElem_map ..

theorem warmRestart_bu (s : State) (j : Fin 12) :
    s.warmRestart.rack.bu[j] = (s.rack.bu[j]).restart := Vector.getElem_map ..

end Sys2Proof.Machine

section
open Sys2Proof Sys2Proof.Machine

/-- Settles O11: the bus, each module's record and each slot's by its own lemma, the rest by what a warm
restart puts in place. -/
theorem warmRestart : Obligations.WarmRestart := by
  intro s
  refine ⟨warmRestart_now s, warmRestart_leak s, warmRestart_marks s, rfl, rfl, warmRestart_inputs s, rfl,
    rfl, rfl, rfl, rfl, rfl, rfl, rfl, rfl, rfl, rfl, rfl, rfl, rfl, rfl, rfl, warmRestart_free s,
    warmRestart_pending s, Bus.restart_eq _, fun i => ⟨fun present => ?_, fun absent => ?_⟩, fun j => ?_,
    fun n => warmRestart_slot s n, rfl⟩
  · exact (warmRestart_psu s i).trans (PsuRec.restart_present present)
  · exact (warmRestart_psu s i).trans (PsuRec.restart_absent absent)
  · exact (warmRestart_bu s j).trans (BuRec.restart_eq _)

end
end

