-- ==== Sys2Proof/Proofs/FrameEnds.lean ====
section
/-! PROOF. The four ends of a frame at the receiver (O16). -/

namespace Sys2Proof.Machine

variable {s : State} {kind tag : Byte} {payload c : List Byte}

/-! ### The bytes of a frame (R187) -/

/-- What the CRC-16 of a frame covers (R187). -/
def frameBody (kind tag : Byte) (payload : List Byte) : List Byte :=
  u8 payload.length ++ [kind, tag] ++ payload

/-- The two CRC bytes of a frame (R187). -/
def frameCrc (kind tag : Byte) (payload : List Byte) : List Byte :=
  u16 (crc16 (frameBody kind tag payload)).toNat

/-- A frame on the line, after its sync byte. -/
theorem linkFrameBytes_drop : (linkFrameBytes kind tag payload).drop 1 =
    frameBody kind tag payload ++ frameCrc kind tag payload := rfl

/-- The length byte, kind and tag come first, whatever follows the payload. -/
theorem frameBody_append : frameBody kind tag payload ++ c =
    BitVec.ofNat 8 payload.length :: kind :: tag :: (payload ++ c) := rfl

/-! ### What ends a frame (R188) -/

/-- A length byte of at most 240, kind, tag, that many payload bytes and two more end a frame. -/
theorem endsFrame_body (fits : payload.length ≤ 240) (two : c.length = 2) :
    endsFrame (frameBody kind tag payload ++ c) = true := by
  have length : (BitVec.ofNat 8 payload.length).toNat = payload.length := toNat_u8 (by omega)
  rw [frameBody_append]
  refine (if_neg (by omega)).trans (beq_iff_eq.mpr ?_)
  simp only [List.length_cons, List.length_append, length, two]

/-- Such a frame is good when those two bytes are its CRC-16, and has a bad CRC otherwise. -/
theorem frameEnd_body (fits : payload.length ≤ 240) : frameEnd (frameBody kind tag payload ++ c) =
    if c = frameCrc kind tag payload then .good ⟨kind, tag, payload⟩ else .badCrc := by
  have length : (BitVec.ofNat 8 payload.length).toNat = payload.length := toNat_u8 (by omega)
  rw [frameBody_append]
  refine (if_neg (by omega)).trans ?_
  rw [length, List.drop_left, List.take_left]
  exact if_congr beq_iff_eq rfl rfl

theorem endsFrame_tooLong {len : Byte} (h : 240 < len.toNat) : endsFrame [len] = true :=
  if_pos h

/-- The bytes that end a frame in progress send the receiver back to HUNTING. -/
theorem exec_frameEnd {bytes : List Byte} (inFrame : s.link.rxState = .inFrame)
    (ends : endsFrame bytes = true) : exec (.frameEnd bytes) s =
      .next ({ s with link.rxState := .hunting }.endFrame (frameEnd bytes)).conclude :=
  if_pos ⟨inFrame, ends⟩

/-! ### The receive queue (R189) -/

theorem receive_room {f : LinkFrame} (room : s.link.rx.length < 4) :
    s.receive f = { s with link.rx := s.link.rx ++ [f] } := if_pos room

theorem receive_full {f : LinkFrame} (full : 4 ≤ s.link.rx.length) :
    s.receive f = { s with link.overruns := s.link.overruns + 1 }.linkFault .rxOverrun :=
  if_neg (Nat.not_lt.mpr full)

theorem exec_frameEnd_good (inFrame : s.link.rxState = .inFrame) (fits : payload.length ≤ 240) :
    exec (.frameEnd ((linkFrameBytes kind tag payload).drop 1)) s = .next ({ s with
      link.rxState := .hunting, link.good := s.link.good + 1 }.receive ⟨kind, tag, payload⟩).conclude := by
  rw [linkFrameBytes_drop, exec_frameEnd inFrame (endsFrame_body fits rfl), frameEnd_body fits, if_pos rfl]
  rfl

theorem exec_frameEnd_badCrc (inFrame : s.link.rxState = .inFrame) (fits : payload.length ≤ 240)
    (two : c.length = 2) (other : c ≠ frameCrc kind tag payload) :
    exec (.frameEnd (frameBody kind tag payload ++ c)) s = .next ({ s with
      link.rxState := .hunting, link.crcErrors := s.link.crcErrors + 1 }.linkFault .frameCrc).conclude := by
  rw [exec_frameEnd inFrame (endsFrame_body fits two), frameEnd_body fits, if_neg other]
  rfl

end Sys2Proof.Machine

section
open Sys2Proof Sys2Proof.Machine

/-- Settles O16: a complete frame is read back from its bytes, and the queue takes a good one or not. -/
theorem frameEnds : Obligations.FrameEnds := by
  intro s inFrame
  refine ⟨fun kind tag payload fits => ⟨fun room => ?_, fun full => ?_, fun c => ?_⟩, fun len long => ?_⟩
  · rw [exec_frameEnd_good inFrame fits, receive_room]
    exact room
  · rw [exec_frameEnd_good inFrame fits, receive_full]
    · rfl
    · exact full
  · exact exec_frameEnd_badCrc inFrame fits
  · exact exec_frameEnd inFrame (endsFrame_tooLong long)

end
end

