-- ==== Sys2Proof/Proofs/RequestsTurnedAway.lean ====
section
/-! PROOF. The checks of R189 and R190 before a request's own rule (O18). -/

namespace Sys2Proof.Machine

variable {s : State} {kind tag : Byte} {payload : List Byte}

/-- A kind of the catalogue goes through the checks of R190, IDENTIFY alone past the one for BUSY. -/
theorem exec_requestOf_known (known : kind ∈ requestKinds) (s : State) (tag : Byte)
    (payload : List Byte) : ∃ body, exec (requestOf ⟨kind, tag, payload⟩) s =
      .next (s.execute (kind == 0x01) kind tag payload body) := by
  simp only [requestKinds, List.mem_cons, List.not_mem_nil, or_false] at known
  rcases known with rfl | rfl | rfl | rfl | rfl | rfl | rfl | rfl | rfl | rfl | rfl | rfl | rfl | rfl |
    rfl | rfl | rfl | rfl | rfl | rfl | rfl | rfl | rfl | rfl | rfl | rfl | rfl | rfl | rfl <;>
    exact ⟨_, rfl⟩

/-- Any other kind is executed as an unknown one (R190). -/
theorem requestOf_unknown {f : LinkFrame} (unknown : f.kind ∉ requestKinds) :
    requestOf f = .unknownKind f.kind f.tag f.payload := by
  have other {n : Nat} (h : f.kind.toNat = n) : BitVec.ofNat 8 n ∉ requestKinds := by
    rwa [← h, BitVec.ofNat_toNat, BitVec.setWidth_eq]
  unfold requestOf
  split
  case h_30 => rfl
  all_goals next h => exact absurd (by decide) (other h)

/-- A request of any kind goes through the checks of R190; a known one but IDENTIFY waits for the load
and the adoption. -/
theorem exec_requestOf (s : State) (kind tag : Byte) (payload : List Byte) :
    ∃ early body, exec (requestOf ⟨kind, tag, payload⟩) s =
      .next (s.execute early kind tag payload body) := by
  by_cases known : kind ∈ requestKinds
  · exact ⟨_, exec_requestOf_known known s tag payload⟩
  · rw [requestOf_unknown known]
    exact ⟨true, _, congrArg Host.Outcome.next (if_neg (by simpa using known))⟩

end Sys2Proof.Machine

section
open Sys2Proof Sys2Proof.Machine

/-- Settles O18: every request is an `execute`, whose checks come in the order of R189 and R190. -/
theorem requestsTurnedAway : Obligations.RequestsTurnedAway := by
  rintro s ⟨kind, tag, payload⟩
  obtain ⟨early, body, run⟩ := exec_requestOf s kind tag payload
  refine ⟨fun waits => ?_, fun ready zero => ?_, fun ready nonzero busy known late => ?_,
    fun ready nonzero unknown => ?_⟩
  · rw [run, State.execute_not waits]
  · obtain rfl : tag = 0 := zero
    rw [run, State.execute_zero ready rfl]
  · obtain ⟨body, run⟩ := exec_requestOf_known known s tag payload
    rw [run, beq_false_of_ne late, State.execute_busy ready nonzero busy]
  · rw [requestOf_unknown unknown]
    exact exec_unknownKind ready nonzero unknown

end
end

