-- ==== Sys2Proof/Proofs/TransmitLine.lean ====
section
/-! PROOF. The frame that an idle transmit line begins (O5). -/

namespace Sys2Proof.Machine

variable {s : State}

/-! ### The transmit line by what waits for it (R191, R196) -/

theorem transmit_low (low : s.boot.pinLow = true) : s.transmit = s := by
  unfold State.transmit
  split
  · exact if_pos low
  · rfl
  · rfl

theorem transmit_sending (sending : s.link.line ≠ .idle) : s.transmit = s := by
  unfold State.transmit
  split
  next idle => exact absurd idle sending
  · rfl
  · rfl

theorem transmit_reply {f : LinkFrame} (idle : s.link.line = .idle) (high : s.boot.pinLow = false)
    (holds : s.link.holder = some f) : s.transmit.link.line =
      .reply (linkFrameBytes f.kind f.tag f.payload) := by
  unfold State.transmit
  rw [idle, high, holds]
  rfl

theorem transmit_notification {x : Notif} {rest : List Notif} (idle : s.link.line = .idle)
    (high : s.boot.pinLow = false) (empty : s.link.holder = none)
    (oldest : s.rack.notif.entries = x :: rest) :
    s.transmit.link.line = .notification (linkFrameBytes 0 0 x.payload) := by
  unfold State.transmit
  rw [idle, high, empty, oldest]
  rfl

theorem transmit_nothing (idle : s.link.line = .idle) (high : s.boot.pinLow = false)
    (empty : s.link.holder = none) (quiet : s.rack.notif.entries = []) :
    s.transmit.link.line = .idle := by
  unfold State.transmit
  rw [idle, high, empty, quiet]
  exact idle

/-! ### The transmit line at the end of a command -/

/-- The part as the transmit line finds it: the rack has finished and the store has followed. -/
def State.followed (s : State) : State := (s.onRack finishRack).followStore

theorem conclude_transmits (s : State) : s.conclude = s.followed.transmit := rfl

@[simp] theorem followed_link (s : State) : s.followed.link = s.link :=
  (followStore_link _).trans (onRack_link ..)

@[simp] theorem followed_boot (s : State) : s.followed.boot = s.boot :=
  (followStore_boot _).trans (onRack_boot ..)

end Sys2Proof.Machine

section
open Sys2Proof Sys2Proof.Machine

/-- Settles O5: by what the line, the pin and the reply holder stand at, which a command's end leaves
until the transmit line's turn. -/
theorem transmitLine : Obligations.TransmitLine := by
  intro s
  rw [conclude_transmits, transmit_rack, ← followed_link s, ← followed_boot s]
  refine ⟨fun f => transmit_reply, fun idle high empty => ?_, fun sending => ?_, fun low => ?_⟩
  · split
    next oldest => exact transmit_notification idle high empty oldest
    next quiet => exact transmit_nothing idle high empty quiet
  · rw [transmit_sending sending]
  · rw [transmit_low low]

end
end

