-- ==== Sys2Proof/Proofs/RestartEvents.lean ====
section
/-! PROOF. RESTART_N, its release, and the end of a reply (O10). -/

namespace Sys2Proof.Machine

variable {s : State}

/-- The end of a reply empties the reply holder, and takes the warm restart that is owed (R189, R196). -/
theorem exec_replySent {b : List Byte} (reply : s.link.line = .reply b) : exec .replySent s =
    .next (if s.link.restartOwed then
        { s with link := { s.link with line := .idle, holder := none } }.warmRestart
      else { s with link := { s.link with line := .idle, holder := none } }).conclude :=
  if_pos (by rw [reply]; rfl)

end Sys2Proof.Machine

section
open Sys2Proof Sys2Proof.Machine

/-- Settles O10: the pin by its level, its release, and the end of a reply by the restart it owes. -/
theorem restartsAndRepliesSent : Obligations.RestartsAndRepliesSent := by
  refine ⟨fun s high => if_neg (Bool.eq_false_iff.mp high), fun s => rfl, fun s b reply owed => ?_,
    fun s b reply free => ?_⟩
  · rw [exec_replySent reply, if_pos owed]
  · rw [exec_replySent reply, if_neg (Bool.eq_false_iff.mp free)]

end
end

