-- ==== Sys2Proof/Proofs/FrontOfQueue.lean ====
section
/-! PROOF. A step runs the command at the front of the queue (O1). -/

section
open Sys2Proof Sys2Proof.Machine

/-- Settles O1: the step's arm for a waiting command, which `step_cons` states. -/
theorem stepRunsFront : Obligations.StepRunsFront := by
  intro c rest s waiting
  exact step_cons waiting

end
end
